-- ==== Sys2Proof/Word.lean ====
section
/-!
DEFINITION. The word types of the device and their plainest arithmetic (00 R2, 03 R55).
-/

namespace Sys2Proof

/-- Eight bits, the unit of storage (00 R2). -/
abbrev Byte := BitVec 8

/-- A 32-bit register value of one lane (02 R32). -/
abbrev Word := BitVec 32

/-- A 64-bit value, held in a register pair (07 R158). -/
abbrev DWord := BitVec 64

/-- A lane map: bit l stands for lane position l (06 R126). -/
abbrev LaneMap := BitVec 64

/-- The 96-bit instruction word (07 R142). -/
abbrev InstrWord := BitVec 96

end Sys2Proof
end

