-- ==== Sys2Proof/Syntax.lean ====
section
/-!
DEFINITION. The instructions and steps of the device: one constructor of `Instr` per row of spec/opcode_table.json.
The first 178 rows and WAITPH's are instruction words (07 R142-R168); the other rows are whole steps of the engines,
the translation service, the dispatcher, the columns, the ports and the module (95), whose arguments name the agent
that takes the step and carry what the outside world supplies.
-/

namespace Sys2Proof

/-- The type codes of TY (07 R165). -/
inductive Ty
  | b32 | i8 | ui8 | i16 | ui16 | i32 | ui32 | f32 | f16 | bf16 | f16x2 | bf16x2 | e4m3x4 | e5m2x4 | i8x4 | i64
  deriving DecidableEq, Repr, Inhabited

/-- Scope codes of SC (04 R90); 7 is reserved. -/
inductive Scope
  | thread | group | wg | cluster | die | device | system | rsv
  deriving DecidableEq, Repr, Inhabited

/-- Cache hints of CH (Table 7.4). -/
inductive Hint
  | normal | streaming | keep | noAlloc
  deriving DecidableEq, Repr, Inhabited

/-- Identifier operands (Table 6.2). -/
inductive Ident
  | lane | thread | group | wg | nwg | core | column | ngroup
  deriving DecidableEq, Repr, Inhabited

/-- Operand specifiers (Table 7.6): one constructor per meaning of the 8-bit field. -/
inductive Operand
  | vec (n : Fin 128)
  | sca (n : Fin 64)
  | map (n : Fin 16)
  | walk (n : Fin 8)
  | pred (n : Fin 8)
  | ident (i : Ident)
  | int (n : Fin 16)
  | minusOne
  | fOne
  | fHalf
  | fTwo
  | fMinusOne
  | signBit
  | rsv
  | none
  deriving DecidableEq, Repr

/-- A guard (07 R150). -/
structure Guard where
  neg : Bool
  p : Fin 8
  deriving DecidableEq, Repr

/-- The common fields of Table 7.4 other than OPC. -/
structure Ctl where
  stl : BitVec 6
  set : BitVec 3
  wait : BitVec 6
  yld : Bool
  g1 : Guard
  g2 : Guard
  ch : Hint
  mc : Bool
  fn : BitVec 4
  ty : Ty
  sc : Scope
  deriving DecidableEq, Repr

/-- Operand area of format R (Table 7.5). -/
structure OpsR where
  d : Operand
  a : Operand
  b : Operand
  c : Operand
  e : Operand
  x : BitVec 10
  deriving DecidableEq, Repr

/-- Operand area of format I (Table 7.5); `z` holds bits [1:0]. -/
structure OpsI where
  d : Operand
  a : Operand
  imm : BitVec 32
  z : BitVec 2
  deriving DecidableEq, Repr

/-- Operand area of format M (Table 7.5); `z` holds bits [1:0]. -/
structure OpsM where
  d : Operand
  a : Operand
  b : Operand
  imm : BitVec 24
  z : BitVec 2
  deriving DecidableEq, Repr

/-- The stores that hold locations of the machine (04 R80, Table 1.1). -/
inductive Store
  | dram | sram | bs | ac
  deriving DecidableEq, Repr, Inhabited

/-- A location: a byte of one store. DRAM by physical address; cluster SRAM by cluster, bank and byte;
the B store and the accumulator store by core and offset. -/
structure Loc where
  store : Store
  addr : Nat
  deriving DecidableEq, Repr, Inhabited

/-- Names a group of a workgroup of a launch of a context (Table 6.1). -/
structure GRef where
  ctx : Nat
  lnum : Nat
  wg : Nat
  grp : Nat
  deriving DecidableEq, Repr, Inhabited

/-- Names a workgroup. -/
structure WRef where
  ctx : Nat
  lnum : Nat
  wg : Nat
  deriving DecidableEq, Repr, Inhabited

/-- Names a queue: Y0 to Y3 of a core are 0 to 3, its MX queue is 4 (05 R96). -/
structure QRef where
  core : Nat
  q : Nat
  deriving DecidableEq, Repr, Inhabited

/-- The order in which waiting reductions are merged: a tree over their positions (05 R109). -/
inductive MergePlan
  | leaf (i : Nat)
  | node (l r : MergePlan)
  deriving DecidableEq, Repr

/-- The dies of a tower that carry strike detectors (20 R340, R341). -/
inductive Die
  | tierL | tierU | operand | dram
  deriving DecidableEq, Repr

/-- What a strike report names (20 R341): a die of a tower and a location circle, its centre and radius in micrometres from the tower's corner, with
the DRAM rows that lie under it; or one of the places that a circle meets: a column, the spine of a tower, a row of its DRAM. -/
inductive StrikeSite
  | circle (tower : Nat) (die : Die) (x y r : Nat) (rows : List Nat)
  | column (c : Nat)
  | spine (tower : Nat)
  | dram (tower row : Nat)
  deriving DecidableEq, Repr

/-- What a power measurement reports of one tier of one column (13 R293, R295). -/
structure PowerReading where
  column : Nat
  tier : Nat
  amps : Nat
  deriving DecidableEq, Repr

/-- What an incoming peer access asks for (01 R15, 21 R362). -/
inductive PeerOp
  | read
  | write (data : List Byte)
  /-- Operations 0 to 6 of Table 10.4, and 7 for a compare with `operand` and swap to `new`. -/
  | atomic (op : Nat) (ty : Ty) (operand new : BitVec 64)
  /-- Steps on a barrier: an arrive or a land step of n bytes (05 R103). -/
  | arrive (n : Nat) | land (n : Nat)
  /-- A ring's release (05 R106), and a semaphore's step up or down by n (05 R107). -/
  | release | semaphore (up : Bool) (n : Nat)
  /-- RPUT's first step (05 R106) on a ring as its sender knew it, with the slot's barrier where that lies here too; n bytes more for a barrier. -/
  | fill (ring : Nat) (bar : Option Nat) | add (n : Nat)
  /-- The question whether the context's accesses are admitted (01 R15). -/
  | ask
  deriving DecidableEq, Repr

/-- An incoming peer access (01 R15, 21 R362): the sender, the context and the physical address here. -/
structure PeerAccess where
  fep : Nat
  ctx : Nat
  pa : Nat
  len : Nat
  op : PeerOp
  tag : Nat
  deriving DecidableEq, Repr

/-- A channel packet: the fields of Table 21.1 and the payload bytes. -/
structure Packet where
  ver : BitVec 8
  op : BitVec 8
  rsv1 : BitVec 8
  status : BitVec 8
  rsv0 : BitVec 8
  ch : BitVec 8
  len : BitVec 16
  tag : BitVec 32
  seq : BitVec 32
  payload : List Byte
  deriving DecidableEq, Repr

/-- Every instruction and every step of spec/opcode_table.json, one constructor per row. -/
inductive Instr
  /-- NOP, R175: Does nothing except apply its stall count. -/
  | nop (c : Ctl) (o : OpsR)
  /-- BRA, R144: Moves the whole group to an IMM32 line-and-slot target that is checked against TGT. -/
  | bra (c : Ctl) (o : OpsI)
  /-- BRX_ABS, R170: Branches to the 64-bit address held in a scalar pair. -/
  | brxAbs (c : Ctl) (o : OpsR)
  /-- BRX_REL, R170: Branches to a line-and-slot offset taken from a uniform operand. -/
  | brxRel (c : Ctl) (o : OpsR)
  /-- CALL, R171: Writes the link address into a scalar pair and transfers to its target in the same issue. -/
  | call (c : Ctl) (o : OpsI)
  /-- RET, R171: Transfers, without a TGT check, to the address held in a scalar pair. -/
  | ret (c : Ctl) (o : OpsR)
  /-- BRM, R172: Branches when the effective map of a map or vector register is empty, nonempty, equal to LIVE or not equal to LIVE. -/
  | brm (c : Ctl) (o : OpsI)
  /-- BRW, R173: Tests and clears an EOD flag of a walker and branches by an offset carried in X. -/
  | brw (c : Ctl) (o : OpsR)
  /-- BRDEC, R174: Decrements a scalar as ui32 and branches when the new value is nonzero. -/
  | brdec (c : Ctl) (o : OpsI)
  /-- MCALL, R176: Issues the body instructions of a control-store macro in order, then continues after the MCALL. -/
  | mcall (c : Ctl) (o : OpsR)
  /-- EXIT, R177: Removes the lanes of its result map from LIVE and retires the group when LIVE becomes empty. -/
  | exit (c : Ctl) (o : OpsR)
  /-- YIELD, R175: Sets the group's age to youngest in its scheduler. -/
  | yield (c : Ctl) (o : OpsR)
  /-- TRAP, R178: Raises a group fault of cause software trap that carries n. -/
  | trap (c : Ctl) (o : OpsI)
  /-- RFT, R276: Leaves handler mode and transfers, unchecked, to TPC. -/
  | rft (c : Ctl) (o : OpsR)
  /-- SPAWN, R136: Reserves one deck item per lane of its result map; the items enter the deck only once the SPAWN's epoch is confirmed. -/
  | spawn (c : Ctl) (o : OpsR)
  /-- FORK, R181: Reads and checks a launch descriptor and posts a child-launch request that leaves the column at confirmation. -/
  | fork (c : Ctl) (o : OpsR)
  /-- REGROUP, R140: Waits for every participant, then fuses their live lanes into as few groups as will hold them. -/
  | regroup (c : Ctl) (o : OpsR)
  /-- CANCEL, R183: Device-code request to cancel a unit, named by its completion object, once its epoch is confirmed. -/
  | cancel (c : Ctl) (o : OpsR)
  /-- CNTRD_COUNT, R183: Writes a unit's outstanding item count. -/
  | cntrdCount (c : Ctl) (o : OpsR)
  /-- CNTRD_STATUS, R183: Writes a unit's status code. -/
  | cntrdStatus (c : Ctl) (o : OpsR)
  /-- MAND, R184: Writes A AND B into a map register. -/
  | mand (c : Ctl) (o : OpsR)
  /-- MOR, R184: Writes A OR B into a map register. -/
  | mor (c : Ctl) (o : OpsR)
  /-- MANDN, R184: Writes A AND NOT B into a map register. -/
  | mandn (c : Ctl) (o : OpsR)
  /-- MXOR, R184: Writes A XOR B into a map register. -/
  | mxor (c : Ctl) (o : OpsR)
  /-- MNOT, R184: Writes NOT A into a map register. -/
  | mnot (c : Ctl) (o : OpsR)
  /-- MMOV, R184: Copies a map. -/
  | mmov (c : Ctl) (o : OpsR)
  /-- MPOP, R184: Writes the population count of a map into a scalar. -/
  | mpop (c : Ctl) (o : OpsR)
  /-- MFIND, R184: Writes the position of the lowest or highest set bit of a map, or 64 when the map is empty. -/
  | mfind (c : Ctl) (o : OpsR)
  /-- MSET_PAIR, R184: Sets a map register from a 64-bit scalar pair. -/
  | msetPair (c : Ctl) (o : OpsR)
  /-- MSET_FIRST, R184: Sets a map register to lanes 0 to n − 1. -/
  | msetFirst (c : Ctl) (o : OpsR)
  /-- MGET, R184: Writes a map into a scalar pair. -/
  | mget (c : Ctl) (o : OpsR)
  /-- MTST, R184: Writes a predicate from a test of a map. -/
  | mtst (c : Ctl) (o : OpsR)
  /-- MOF, R184: Writes the effective map of a vector register into a map register. -/
  | mof (c : Ctl) (o : OpsR)
  /-- RESTRICT, R185: Copies a register narrowed to map(A) AND a map. -/
  | restrict (c : Ctl) (o : OpsR)
  /-- MERGE, R185: Joins two registers on the union of their maps, taking A's value where they overlap. -/
  | merge (c : Ctl) (o : OpsR)
  /-- FILL, R185: Writes a value into the lanes of a map, or of LIVE. -/
  | fill (c : Ctl) (o : OpsR)
  /-- COMPACT, R186: Moves the group's live lanes to the lowest positions and rewrites registers, maps and the remapping table. -/
  | compact (c : Ctl) (o : OpsR)
  /-- PULL, R188: Gives each lane a value taken from another lane, chosen by position, offset, XOR partner or thread identifier. -/
  | pull (c : Ctl) (o : OpsR)
  /-- PUSH, R189: Scatters values to other lanes; the highest source lane wins a conflict. -/
  | push (c : Ctl) (o : OpsR)
  /-- BCAST, R190: Broadcasts one lane's value to every lane of LIVE. -/
  | bcast (c : Ctl) (o : OpsR)
  /-- VOTE, R191: Combines lane truth values into any, all, uniform or a ballot. -/
  | vote (c : Ctl) (o : OpsR)
  /-- REDUCE, R192: Combines the lanes of a map into one scalar. -/
  | reduce (c : Ctl) (o : OpsR)
  /-- SCAN, R192: Writes the inclusive or exclusive prefix combination over lanes, and the total into E. -/
  | scan (c : Ctl) (o : OpsR)
  /-- LANEMAP_POS, R190: Maps thread identifiers to positions. -/
  | lanemapPos (c : Ctl) (o : OpsR)
  /-- LANEMAP_TID, R190: Maps positions to thread identifiers. -/
  | lanemapTid (c : Ctl) (o : OpsR)
  /-- IADD, R196: Modular integer add. -/
  | iadd (c : Ctl) (o : OpsR)
  /-- ISUB, R196: Modular integer subtract. -/
  | isub (c : Ctl) (o : OpsR)
  /-- IMUL, R196: Modular integer multiply. -/
  | imul (c : Ctl) (o : OpsR)
  /-- IMULH, R196: Writes the high half of an integer product. -/
  | imulh (c : Ctl) (o : OpsR)
  /-- IMAD, R196: Modular integer multiply-add. -/
  | imad (c : Ctl) (o : OpsR)
  /-- IDIV, R198: Per-lane truncating integer division; a zero divisor sets DZ. -/
  | idiv (c : Ctl) (o : OpsR)
  /-- IREM, R198: Per-lane integer remainder with the sign of the dividend. -/
  | irem (c : Ctl) (o : OpsR)
  /-- IMIN, R196: Integer minimum. -/
  | imin (c : Ctl) (o : OpsR)
  /-- IMAX, R196: Integer maximum. -/
  | imax (c : Ctl) (o : OpsR)
  /-- IABS, R196: Integer absolute value. -/
  | iabs (c : Ctl) (o : OpsR)
  /-- INEG, R196: Integer negation. -/
  | ineg (c : Ctl) (o : OpsR)
  /-- IADDS, R197: Saturating integer add or subtract. -/
  | iadds (c : Ctl) (o : OpsR)
  /-- ICMP, R199: Integer compare that writes true and false maps, or predicates. -/
  | icmp (c : Ctl) (o : OpsR)
  /-- LEA, R200: Forms a 64-bit address from a base plus a shifted index. -/
  | lea (c : Ctl) (o : OpsR)
  /-- MOV, R200: Copies a value or a register pair. -/
  | mov (c : Ctl) (o : OpsR)
  /-- MOVI, R200: Writes a 32-bit immediate. -/
  | movi (c : Ctl) (o : OpsI)
  /-- AND, R201: Bitwise AND. -/
  | and (c : Ctl) (o : OpsR)
  /-- OR, R201: Bitwise OR. -/
  | or (c : Ctl) (o : OpsR)
  /-- XOR, R201: Bitwise XOR. -/
  | xor (c : Ctl) (o : OpsR)
  /-- ANDN, R201: Bitwise AND NOT. -/
  | andn (c : Ctl) (o : OpsR)
  /-- TRIL, R202: Applies a three-input bitwise truth table given in X. -/
  | tril (c : Ctl) (o : OpsR)
  /-- SHL, R203: Logical shift left. -/
  | shl (c : Ctl) (o : OpsR)
  /-- SHR, R203: Logical shift right. -/
  | shr (c : Ctl) (o : OpsR)
  /-- SAR, R203: Arithmetic shift right. -/
  | sar (c : Ctl) (o : OpsR)
  /-- FSHL, R204: Funnel shift left. -/
  | fshl (c : Ctl) (o : OpsR)
  /-- FSHR, R204: Funnel shift right. -/
  | fshr (c : Ctl) (o : OpsR)
  /-- BFX, R205: Extracts a bit field. -/
  | bfx (c : Ctl) (o : OpsR)
  /-- BFI, R205: Inserts a bit field. -/
  | bfi (c : Ctl) (o : OpsR)
  /-- POPC, R201: Counts 1 bits. -/
  | popc (c : Ctl) (o : OpsR)
  /-- CLZ, R201: Counts leading zero bits. -/
  | clz (c : Ctl) (o : OpsR)
  /-- CTZ, R201: Counts trailing zero bits. -/
  | ctz (c : Ctl) (o : OpsR)
  /-- BREV, R201: Reverses the order of the bits. -/
  | brev (c : Ctl) (o : OpsR)
  /-- FADD, R207: Floating-point add, rounded once. -/
  | fadd (c : Ctl) (o : OpsR)
  /-- FSUB, R207: Floating-point subtract, rounded once. -/
  | fsub (c : Ctl) (o : OpsR)
  /-- FMUL, R207: Floating-point multiply, rounded once. -/
  | fmul (c : Ctl) (o : OpsR)
  /-- FFMA, R208: Fused multiply-add, aligned by R69 and rounded once. -/
  | ffma (c : Ctl) (o : OpsR)
  /-- FMIN, R209: Floating-point minimum. -/
  | fmin (c : Ctl) (o : OpsR)
  /-- FMAX, R209: Floating-point maximum. -/
  | fmax (c : Ctl) (o : OpsR)
  /-- FCMP, R210: Floating-point compare that writes maps or predicates. -/
  | fcmp (c : Ctl) (o : OpsR)
  /-- FRCP, R213: Correctly rounded reciprocal. -/
  | frcp (c : Ctl) (o : OpsR)
  /-- FRSQ, R213: Correctly rounded reciprocal square root. -/
  | frsq (c : Ctl) (o : OpsR)
  /-- FSQRT, R212: Square root, correctly rounded in the given mode. -/
  | fsqrt (c : Ctl) (o : OpsR)
  /-- FDIV, R212: Division, correctly rounded in the given mode. -/
  | fdiv (c : Ctl) (o : OpsR)
  /-- FEXP2, R213: Base-2 exponential. -/
  | fexp2 (c : Ctl) (o : OpsR)
  /-- FLOG2, R213: Base-2 logarithm. -/
  | flog2 (c : Ctl) (o : OpsR)
  /-- FSIN, R213: Sine. -/
  | fsin (c : Ctl) (o : OpsR)
  /-- FCOS, R213: Cosine. -/
  | fcos (c : Ctl) (o : OpsR)
  /-- FTANH, R213: Hyperbolic tangent. -/
  | ftanh (c : Ctl) (o : OpsR)
  /-- FRND, R207: Rounds to an integral value of the same format. -/
  | frnd (c : Ctl) (o : OpsR)
  /-- FCLASS, R211: Writes a 9-bit class code. -/
  | fclass (c : Ctl) (o : OpsR)
  /-- FCLASS_M, R211: Sorts lanes into two maps by a class mask. -/
  | fclassM (c : Ctl) (o : OpsR)
  /-- FSCALE, R207: Computes A × 2^B and rounds it. -/
  | fscale (c : Ctl) (o : OpsR)
  /-- FDOT2, R208: Packed two-element dot product plus an f32 addend. -/
  | fdot2 (c : Ctl) (o : OpsR)
  /-- CVT, R216: Converts, packs or unpacks values, with optional saturation and stochastic rounding. -/
  | cvt (c : Ctl) (o : OpsR)
  /-- CVTB, R217: Converts f32 lanes into block-format codes together with their side entries. -/
  | cvtb (c : Ctl) (o : OpsR)
  /-- DECB, R221: Decodes block-format codes back to f32. -/
  | decb (c : Ctl) (o : OpsR)
  /-- LD, R226: Per-lane load from space G, S, BS or AC. -/
  | ld (c : Ctl) (o : OpsM)
  /-- ST, R226: Per-lane store to space G, S, BS or AC. -/
  | st (c : Ctl) (o : OpsM)
  /-- LDM, R228: Loads a fragment of a tile described by a tensor identifier, optionally transposed. -/
  | ldm (c : Ctl) (o : OpsR)
  /-- STM, R228: Stores a fragment of a tile described by a tensor identifier. -/
  | stm (c : Ctl) (o : OpsR)
  /-- WBIND, R229: Binds a walker from an identifier or from scalars, zeroing its indices and flags. -/
  | wbind (c : Ctl) (o : OpsR)
  /-- WSTAT, R229: Reads a walker's indices or flags without advancing it. -/
  | wstat (c : Ctl) (o : OpsR)
  /-- ATOM, R233: Per-lane atomic read-modify-write that returns the old value. -/
  | atom (c : Ctl) (o : OpsR)
  /-- ATOMC, R233: Per-lane atomic compare-and-swap. -/
  | atomc (c : Ctl) (o : OpsR)
  /-- RED, R233: Per-lane atomic reduction that returns no value. -/
  | red (c : Ctl) (o : OpsR)
  /-- PREF, R235: Prefetches lines to the cluster cache or the L2 and never faults. -/
  | pref (c : Ctl) (o : OpsR)
  /-- PIN_ON, R42: Asks the cluster cache to pin a line; a refusal sets PINREF. -/
  | pinOn (c : Ctl) (o : OpsR)
  /-- PIN_OFF, R235: Removes the context's pin on a line. -/
  | pinOff (c : Ctl) (o : OpsR)
  /-- TBIND, R77: Reads a tensor record as one tile, checks its seal and fields, and binds or unbinds the identifier. -/
  | tbind (c : Ctl) (o : OpsR)
  /-- TINFO, R236: Reads one field of an identifier entry. -/
  | tinfo (c : Ctl) (o : OpsR)
  /-- TLD, R238: Posts a tile load from G to a local space. -/
  | tld (c : Ctl) (o : OpsR)
  /-- TST, R238: Posts a tile store from a local space to G. -/
  | tst (c : Ctl) (o : OpsR)
  /-- YCOPY, R239: Posts a byte copy between any two spaces. -/
  | ycopy (c : Ctl) (o : OpsR)
  /-- YGATH, R240: Posts an indexed gather of table rows. -/
  | ygath (c : Ctl) (o : OpsR)
  /-- YSCAT, R240: Posts an indexed scatter of rows into a table. -/
  | yscat (c : Ctl) (o : OpsR)
  /-- YFENCE, R98: Posts a fence that holds its queue until earlier entries of the named queues have performed. -/
  | yfence (c : Ctl) (o : OpsR)
  /-- BARINIT, R244: Writes a barrier object whole, with its scope. -/
  | barinit (c : Ctl) (o : OpsR)
  /-- ARRIVE, R103: Takes an arrive step on a barrier and returns the phase read in that step. -/
  | arrive (c : Ctl) (o : OpsR)
  /-- ARRIVE_BYTES, R103: Arrives and adds n bytes to BYTES_LEFT. -/
  | arriveBytes (c : Ctl) (o : OpsR)
  /-- WAITPH, R104: Waits until a barrier's PHASE differs from p. -/
  | waitph (c : Ctl) (o : OpsR)
  /-- WAITPH_SWAP, R139: Phase wait that makes its workgroup eligible for swap-out. -/
  | waitphSwap (c : Ctl) (o : OpsR)
  /-- WAITPH_VIN, R249: Waits on the inbound vertical FIFO's PUSHED count. -/
  | waitphVin (c : Ctl) (o : OpsR)
  /-- WAITPH_VOUT, R249: Waits on the outbound vertical FIFO's POPPED count. -/
  | waitphVout (c : Ctl) (o : OpsR)
  /-- WAITPH_BANK_FIFO, R249: Waits on a bank FIFO's PUSHED or POPPED count. -/
  | waitphBankFifo (c : Ctl) (o : OpsR)
  /-- PHASE_WAIT_COMPLETE, R104: A wait's load step reads a value other than p, and the group resumes issue. -/
  | phaseWaitComplete (g : GRef)
  /-- BARQ, R244: Reads one field of a barrier object. -/
  | barq (c : Ctl) (o : OpsR)
  /-- RINIT, R245: Writes a ring object and its slot barriers. -/
  | rinit (c : Ctl) (o : OpsR)
  /-- RAWAIT, R106: Waits until the head slot's barrier has advanced, then writes h. -/
  | rawait (c : Ctl) (o : OpsR)
  /-- RPUT, R241: Posts a Yarder command that fills the next ring slot with a tile. -/
  | rput (c : Ctl) (o : OpsR)
  /-- RREL, R106: Releases the head slot of a ring. -/
  | rrel (c : Ctl) (o : OpsR)
  /-- SEMINC, R107: Adds n to a semaphore, or traps on overflow. -/
  | seminc (c : Ctl) (o : OpsR)
  /-- SEMDEC, R107: Subtracts n from a semaphore, or traps on underflow. -/
  | semdec (c : Ctl) (o : OpsR)
  /-- SFENCE, R118: Holds the group until its system-scope writes are acknowledged and its device-memory stores are confirmed. -/
  | sfence (c : Ctl) (o : OpsR)
  /-- VPUSH, R248: Pushes a register onto the outbound vertical FIFO, or fails when it is full. -/
  | vpush (c : Ctl) (o : OpsR)
  /-- VPOP, R248: Pops the oldest entry of the inbound vertical FIFO, or fails when it is empty. -/
  | vpop (c : Ctl) (o : OpsR)
  /-- VFREE, R249: Reads a vertical or bank FIFO count. -/
  | vfree (c : Ctl) (o : OpsR)
  /-- FPUSH, R248: Pushes onto a bank FIFO. -/
  | fpush (c : Ctl) (o : OpsR)
  /-- FPOP, R248: Pops from a bank FIFO. -/
  | fpop (c : Ctl) (o : OpsR)
  /-- BANKMODE_CMIN, R250: Sets the cluster's CMIN. -/
  | bankmodeCmin (c : Ctl) (o : OpsR)
  /-- BANKMODE_RELEASE, R250: Returns every free scratchpad bank of the cluster to cache mode at once. -/
  | bankmodeRelease (c : Ctl) (o : OpsR)
  /-- MLOOP, R258: Posts a dense matrix loop to the MX queue. -/
  | mloop (c : Ctl) (o : OpsR)
  /-- MLOOPJ, R264: Posts a joint matrix loop across a stand to all four MX queues of the cluster. -/
  | mloopj (c : Ctl) (o : OpsR)
  /-- MLOOPS, R261: Posts a structured-sparse matrix loop. -/
  | mloops (c : Ctl) (o : OpsR)
  /-- MZERO, R266: Posts a command that zeroes accumulator lines. -/
  | mzero (c : Ctl) (o : OpsR)
  /-- MRD, R267: Reads accumulator lines into vector registers. -/
  | mrd (c : Ctl) (o : OpsR)
  /-- MWR, R267: Writes vector registers into accumulator lines. -/
  | mwr (c : Ctl) (o : OpsR)
  /-- MSCALE, R267: Scales accumulator words by a factor in place. -/
  | mscale (c : Ctl) (o : OpsR)
  /-- PRUNE, R269: Keeps N of every M weights by saliency and writes the kept values and their metadata. -/
  | prune (c : Ctl) (o : OpsR)
  /-- ISECT, R270: Intersects bitmap words and drops lanes whose result is empty. -/
  | isect (c : Ctl) (o : OpsR)
  /-- RANK, R270: Counts the set bits of a word below position p. -/
  | rank (c : Ctl) (o : OpsR)
  /-- IDOT4, R270: Four-byte integer dot product plus an addend. -/
  | idot4 (c : Ctl) (o : OpsR)
  /-- MQSTAT_FLAGS, R268: Reads the matrix status. -/
  | mqstatFlags (c : Ctl) (o : OpsR)
  /-- MQSTAT_CLR, R268: Reads the matrix status and clears it in one action. -/
  | mqstatClr (c : Ctl) (o : OpsR)
  /-- MQSTAT_DEPTH, R268: Reads the depth of the core's MX queue. -/
  | mqstatDepth (c : Ctl) (o : OpsR)
  /-- CSRR, R284: Reads a CSR. -/
  | csrr (c : Ctl) (o : OpsI)
  /-- CSRW, R284: Writes a CSR that has no row of its own, leaving RO fields unchanged. -/
  | csrw (c : Ctl) (o : OpsI)
  /-- CSRX_SET, R284: Returns a CSR's old value and sets the given bits in one action. -/
  | csrxSet (c : Ctl) (o : OpsR)
  /-- CSRX_CLR, R284: Returns a CSR's old value and clears the given bits in one action. -/
  | csrxClr (c : Ctl) (o : OpsR)
  /-- CSRX_SWAP, R284: Returns a CSR's old value and replaces it in one action. -/
  | csrxSwap (c : Ctl) (o : OpsR)
  /-- SRSEED_WRITE, R65: Writes the stochastic rounding seed and clears the stochastic counter n. -/
  | srseedWrite (c : Ctl) (o : OpsI)
  /-- WDOG_WRITE, R279: Writes the watchdog limits in handler mode and resets the run count. -/
  | wdogWrite (c : Ctl) (o : OpsI)
  /-- INJC_WRITE, R350: Arms or disarms error injection on the sector that INJA names. -/
  | injcWrite (c : Ctl) (o : OpsI)
  /-- TLBINV_RANGE, R285: Invalidates a page range of the context and waits for completion. -/
  | tlbinvRange (c : Ctl) (o : OpsR)
  /-- TLBINV_ALL, R285: Invalidates every translation of the context and waits for completion. -/
  | tlbinvAll (c : Ctl) (o : OpsR)
  /-- CACHEOP_DROP, R285: Drops the cluster's cached copies of a range. -/
  | cacheopDrop (c : Ctl) (o : OpsR)
  /-- CACHEOP_DROPALL, R285: Drops all of the cluster's cached copies for the context. -/
  | cacheopDropall (c : Ctl) (o : OpsR)
  /-- PGREQ_GATE, R285: Requests a power gate of an upper core and returns a status. -/
  | pgreqGate (c : Ctl) (o : OpsR)
  /-- PGREQ_UNGATE, R285: Requests an ungate of an upper core and returns a status. -/
  | pgreqUngate (c : Ctl) (o : OpsR)
  /-- GSAVE, R285: Waits for the group's tokens, then writes its save image as one tile step. -/
  | gsave (c : Ctl) (o : OpsR)
  /-- GREST, R285: Checks a save image and restores group state from it. -/
  | grest (c : Ctl) (o : OpsR)
  /-- CLOCK_CYC, R285: Reads the core's cycle count. -/
  | clockCyc (c : Ctl) (o : OpsR)
  /-- CLOCK_NS, R285: Reads device time in ns. -/
  | clockNs (c : Ctl) (o : OpsR)
  /-- CLOCK_EPOCH, R285: Reads EPOCH. -/
  | clockEpoch (c : Ctl) (o : OpsR)
  /-- BKPT, R285: Raises a breakpoint fault that carries n. -/
  | bkpt (c : Ctl) (o : OpsR)
  /-- INSTRUCTION_FETCH, R86: Fetches a 64-byte line for a group, checked at first issue. -/
  | instructionFetch (g : GRef)
  /-- LINE_REFETCH, R148: Refetches a line from its home after a parity mismatch; a second mismatch raises line-format. -/
  | lineRefetch (g : GRef)
  /-- LOAD_DATA_DELIVERY, R131: A load's data arrives and is written to its lanes; lanes that receive uncorrectable data die. -/
  | loadDataDelivery (g : GRef) (n : Nat) (ext : List Byte)
  /-- ATOMIC_PERFORM, R114: Performs an atomic at its home, locking the line with a pre-image until its epoch is confirmed. -/
  | atomicPerform (g : GRef) (ext : List Byte)
  /-- REDUCTION_PERFORM, R108: Performs merged reductions from a write-queue entry at the home. -/
  | reductionPerform (l : Loc) (plan : MergePlan)
  /-- PAGE_WALK, R17: Starts a four-level translation walk for a miss. -/
  | pageWalk (n : Nat)
  /-- WALK_ENTRY_READ, R19: Data of one page-table entry arrives; the walk checks it, continues, caches the translation or faults. -/
  | walkEntryRead (n : Nat)
  /-- AD_UPDATE, R22: Completes the compare-and-swap that sets A or D; a failed compare restarts the walk. -/
  | adUpdate (n : Nat)
  /-- PEER_TABLE_READ, R15: Reads a 16-byte peer table entry when a peer translation is cached. -/
  | peerTableRead (n : Nat)
  /-- PEER_ADMISSION_REPLY, R15: The peer answers whether it admits the context's accesses; a refusal raises peer-invalid. -/
  | peerAdmissionReply (n : Nat) (admits : Bool)
  /-- PEER_QUERY_TIMEOUT, R15: A peer question held by link recovery for 500 ms raises peer-invalid. -/
  | peerQueryTimeout (n : Nat)
  /-- INVALIDATION_COMPLETE, R26: An invalidation completes once every cached translation, walk, command and access of the range is gone. -/
  | invalidationComplete (n : Nat)
  /-- TILE_PRETRANSLATE, R27: A tile command at its queue head translates and holds its pages in ascending order. -/
  | tilePretranslate (q : QRef)
  /-- TILE_STEP, R94: Locks, commits and releases a tile's whole footprint as one step. -/
  | tileStep (q : QRef)
  /-- LAND_STEP, R103: Decrements BYTES_LEFT of a barrier after the data steps it counts, and clears the token when it is the last step. -/
  | landStep (q : QRef) (n : Nat)
  /-- YCOPY_LINE_STEP, R239: Copies one 256-byte destination line segment. -/
  | ycopyLineStep (q : QRef) (k : Nat) (ext : List Byte)
  /-- GATHER_INDEX_READ, R95: Reads one 4-byte index of a gather or scatter. -/
  | gatherIndexRead (q : QRef) (k : Nat) (ext : List Byte)
  /-- GATHER_ROW_STEP, R240: Moves one row for a read index, or drops it when the index is at or above the limit. -/
  | gatherRowStep (q : QRef) (k : Nat) (ext : List Byte)
  /-- RPUT_CLAIM, R106: Once the ring has room, claims slot w, advances WPTR and adds SLOTSZ to the slot barrier. -/
  | rputClaim (q : QRef)
  /-- YFENCE_RELEASE, R98: A fence leaves its queue once every earlier entry of the named queues has performed. -/
  | yfenceRelease (q : QRef)
  /-- K_STEP, R258: Performs one K-step of a matrix loop into the accumulator lines. -/
  | kStep (q : QRef) (k : Nat)
  /-- MZERO_LINE_STEP, R266: Zeroes one accumulator line. -/
  | mzeroLineStep (q : QRef) (k : Nat)
  /-- JOINT_START, R263: A joint operation begins when all four members' entries stand at the head of every queue they occupy. -/
  | jointStart (stand : Nat)
  /-- JOINT_MISMATCH_TIMEOUT, R263: An MLOOPJ entry that has waited 500 µs for its partners terminates with joint-mismatch. -/
  | jointMismatchTimeout (q : QRef)
  /-- JOINT_COMPLETION, R264: After every K-step has been added at every core, each member's barrier takes its land step. -/
  | jointCompletion (stand : Nat)
  /-- ENGINE_TERMINATION, R273: A terminal engine fault ends the command and its workgroup and sends an engine record. -/
  | engineTermination (q : QRef)
  /-- EPOCH_END, R111: A column's 128 ns epoch ends and the next begins. -/
  | epochEnd (column : Nat)
  /-- EPOCH_CONFIRMATION, R111: An epoch with no strike report in the 100 ns after its end is confirmed, and its retained resources are released. -/
  | epochConfirmation (column : Nat)
  /-- LANDING_BUFFER_DRAIN, R113: Confirmed landing-buffer contents drain towards their homes in epoch order. -/
  | landingBufferDrain (column : Nat)
  /-- EGRESS_RELEASE, R117: Releases an outbound packet once every step whose data it carries is confirmed. -/
  | egressRelease (n : Nat)
  /-- STRIKE_REPORT, R341: The detector network reports a strike and starts rollback, spine correction or a scrub by the die it names. -/
  | strikeReport (site : StrikeSite)
  /-- ROLLBACK_RESUME, R342: The rollback finishes restoring; commands restart and groups resume in a new epoch. -/
  | rollbackResume (column : Nat)
  /-- SCRUB_COMPLETE, R346: A DRAM scrub of the struck rows completes. -/
  | scrubComplete (n : Nat)
  /-- L2_REFETCH, R345: Refetches from DRAM a clean L2 line with an uncorrectable sector. -/
  | l2Refetch (l : Loc)
  /-- TIMING_REPLAY, R299: A shadow-latch detector replays a late cycle once at half rate. -/
  | timingReplay (core : Nat)
  /-- DROOP_TRIP, R298: The droop detector trips, or a balance excursion occurs, and the column halves its clock. -/
  | droopTrip (column : Nat)
  /-- DROOP_EXIT, R298: After 2 µs clear, the column returns to 4.0 GHz. -/
  | droopExit (column : Nat)
  /-- PLACEMENT, R289: The dispatcher places the next workgroup on an eligible core, zero-filling its scratch and loading its macro table. -/
  | placement (core : Nat)
  /-- PREEMPTION_VICTIM_CHOICE, R290: A ready workgroup left unplaced for 1 µs chooses a victim to pre-empt. -/
  | preemptionVictimChoice
  /-- SWAP_OUT, R139: Swaps out an eligible workgroup once its conditions hold. -/
  | swapOut (w : WRef)
  /-- WORKGROUP_SAVE, R282: Writes a workgroup save record, and frees its resources when the save completes. -/
  | workgroupSave (w : WRef)
  /-- SWAP_RESUME, R139: Makes a swapped-out workgroup ready for placement once an awaited phase advances. -/
  | swapResume (w : WRef)
  /-- BANK_RETURN_TIMEOUT, R40: A scratchpad bank that has held no allocation for 10 µs returns to cache mode. -/
  | bankReturnTimeout (cluster bank : Nat)
  /-- BUCKER_FULL_GROUP, R137: Forms a group when 64 items are waiting in a deck. -/
  | buckerFullGroup (ctx lnum deck : Nat)
  /-- BUCKER_PARTIAL_GROUP, R137: Forms a partial group when the oldest item has waited 2 µs. -/
  | buckerPartialGroup (ctx lnum deck : Nat)
  /-- WORKGROUP_TERMINATION, R133: Once a fatal death is confirmed, completes the termination and sends a group-lost record. -/
  | workgroupTermination (w : WRef)
  /-- UNIT_COMPLETION, R124: A unit whose counter is zero and whose writes have performed completes, advances its completion object and sends DONE. -/
  | unitCompletion (ctx object : Nat)
  /-- TRAP_DELIVERY, R274: Reads the trap table entry, then enters the handler or terminates the workgroup. -/
  | trapDelivery (g : GRef)
  /-- WATCHDOG_WAIT, R279: The wait count reaches WAITL × 100 µs and raises watchdog-wait. -/
  | watchdogWait (g : GRef)
  /-- WATCHDOG_PEER, R279: The recovery hold reaches 500 ms and raises watchdog-peer. -/
  | watchdogPeer (g : GRef)
  /-- WATCHDOG_RUN, R279: The run count reaches RUNL ms and raises watchdog-run. -/
  | watchdogRun (g : GRef)
  /-- MARKET_CLEAR, R293: Every 10 µs, grants column tokens from bids and sets the resident-group limits. -/
  | marketClear (readings : List PowerReading)
  /-- BALANCE_MEASUREMENT, R295: Every 1 µs, measures the tier currents and switches ballast. -/
  | balanceMeasurement (readings : List PowerReading)
  /-- CORE_GATE, R297: Gates an upper core once its deferral conditions hold. -/
  | coreGate (core : Nat)
  /-- COLUMN_GATE, R296: Gates a whole column once its deferral conditions hold. -/
  | columnGate (column : Nat)
  /-- UNGATE_READY, R297: An ungated core becomes eligible for placement 20 µs after the ungate request. -/
  | ungateReady (core : Nat)
  /-- IDLE_ENTRY, R302: After 10 µs idle, enters the lowest device state whose wake time is within TOL. -/
  | idleEntry
  /-- DEVICE_WAKE, R302: A command packet ends a low-power state or an entry into one. -/
  | deviceWake
  /-- WAKE_COMPLETE, R303: The device reaches D0 and refetches pinned lines before the first placement. -/
  | wakeComplete
  /-- PEER_ACCESS, R362: An incoming peer access is admitted and performed, or refused. -/
  | peerAccess (a : PeerAccess)
  /-- PEER_REFUSAL_REPLY, R362: A refusal at perform time kills the lanes of a read or discards a write with a record. -/
  | peerRefusalReply (n : Nat)
  /-- PEER_WRITE_ACK, R118: A peer acknowledges a write as performed at its home. -/
  | peerWriteAck (n : Nat)
  /-- PEER_COPY_EXPIRY, R119: Drops a read-only peer copy in the L2 2 µs after it was filled. -/
  | peerCopyExpiry (n : Nat)
  /-- PEER_FAILED, R363: A peer whose ports have all been in recovery for 500 ms is failed. -/
  | peerFailed (fep : Nat)
  /-- LANE_SHED, R364: A lane losing lock or exceeding its error limit makes the port pause its partner and retrain one step narrower. -/
  | laneShed (port lanes : Nat)
  /-- RETRAIN_COMPLETE, R364: Retraining ends and the retry buffer is replayed in order. -/
  | retrainComplete (port : Nat)
  /-- UPSHIFT_TRY, R364: After 60 s without error at a shed width, an automatic port tries one step up. -/
  | upshiftTry (port : Nat) (holds : Bool)
  /-- LINK_RECOVERY_SUCCESS, R365: Recovery succeeds and the held packets are replayed. -/
  | linkRecoverySuccess (port : Nat)
  /-- LINK_RECOVERY_ABANDON, R365: Recovery is abandoned after 500 ms. -/
  | linkRecoveryAbandon (port : Nat)
  /-- CONNECTION_REESTABLISHED, R359: A channel connection comes back after a port failure and the device sends a SEQQUERY event. -/
  | connectionReestablished (channel : Nat)
  /-- WRITE_VA, R356: Host write of 1–4,096 bytes at virtual addresses of the channel's context. -/
  | writeVa (p : Packet)
  /-- WRITE_PA, R356: Host write at physical addresses. -/
  | writePa (p : Packet)
  /-- READ_VA, R356: Host read at virtual addresses, answered by DATA. -/
  | readVa (p : Packet)
  /-- READ_PA, R356: Host read at physical addresses, answered by DATA. -/
  | readPa (p : Packet)
  /-- LAUNCH, R360: Checks a launch graph block and descriptor, and queues or refuses the launch. -/
  | launch (p : Packet)
  /-- RESUME, R356: Reissues the parked agent that a fault record names. -/
  | resume (p : Packet)
  /-- CANCEL_COMMAND, R125: Host cancel of a unit named by its completion object. -/
  | cancelCommand (p : Packet)
  /-- INVAL, R26: Host invalidation of a range or of every translation of the context. -/
  | inval (p : Packet)
  /-- CTXSAVE, R280: Saves every resident workgroup of the context and holds it. -/
  | ctxsave (p : Packet)
  /-- CTXRUN, R356: Releases a held context. -/
  | ctxrun (p : Packet)
  /-- CTXSET, R373: Writes the masked context settings: PINQ, WDOG, the job object and JOBEND. -/
  | ctxset (p : Packet)
  /-- SEQQUERY, R359: Reports the sequence state and resends the retained events above the host's number. -/
  | seqquery (p : Packet)
  /-- CTXDESC, R10: Writes a context descriptor when the context is quiet and its fields are valid. -/
  | ctxdesc (p : Packet)
  /-- POWER, R301: Writes the power settings block. -/
  | power (p : Packet)
  /-- GATE, R296: Requests a gate or an ungate of a core or a column. -/
  | gate (p : Packet)
  /-- CMIN, R40: Sets a cluster's CMIN. -/
  | cmin (p : Packet)
  /-- COUNTERS, R349: Returns both towers' reliability counter blocks. -/
  | counters (p : Packet)
  /-- LINK, R364: Sets a port's width mode to automatic or fixed. -/
  | link (p : Packet)
  /-- SELFTEST, R370: Starts the transport self-test on the ports of a mask when the device is idle. -/
  | selftest (p : Packet)
  /-- SELFTEST_DONE, R370: The self-test stages finish and TESTRES is sent. -/
  | selftestDone (results : List Byte)
  /-- ATTEST, R368: Answers a nonce with a signed attestation. -/
  | attest (p : Packet)
  /-- FWLOAD, R367: Loads a 4,096-byte chunk of a firmware image. -/
  | fwload (p : Packet)
  /-- FWSTART, R367: Checks the firmware image and runs it. -/
  | fwstart (p : Packet)
  /-- FIRMWARE_READY, R367: The firmware has trained the DRAM, sends BOOT stage 2 and opens the channels. -/
  | firmwareReady
  /-- RESET, R366: Full reset by command. -/
  | reset (p : Packet)
  /-- RESET_PIN, R366: Release of the reset pin resets the device. -/
  | resetPin
  /-- BOOT_ROM_READY, R366: The boot ROM has trained every port and sends BOOT stage 1. -/
  | bootRomReady (trained : List Nat)
  /-- MODULE_SUPPLY_OFF, R302: The module supply is switched off; the device keeps no powered island, loses all state and hears nothing. -/
  | moduleSupplyOff
  /-- MRST_N_ASSERT, R371: The reset line MRST_N is driven low, holding the device in reset until it is released. -/
  | mrstNAssert
  /-- OVER_TEMPERATURE, R371: The device detects over-temperature and asserts THERM_N while it keeps running. -/
  | overTemperature  deriving DecidableEq, Repr

end Sys2Proof
end

