-- ==== Sys2Proof/Config.lean ====
section
/-!
DEFINITION. What the spec leaves open, as constants without a body, and the device's fixed sizes.
-/

namespace Sys2Proof.Config

/-- A free value: what the spec leaves undefined, drawn by the n-th use (log entry 2). Nothing can be proved of it. -/
opaque freeValue : Nat → BitVec 64

/-- Bytes of saved engine command fields, whose layout the spec does not give, and of other data only the outside world
supplies (log entry 2). -/
opaque freeBytes : Nat → Nat → BitVec 8

/-- The current in milliamperes that a column's balance controller predicts for groups placed on a core: core, groups, time (13 R295, log entry 29). -/
opaque groupCurrent : Nat → Nat → Nat → Nat

/-- The current in milliamperes that it predicts a core's gate to remove: core, time (13 R297, log entry 29). -/
opaque gateCurrent : Nat → Nat → Nat

/-- Fuse contents and device identity that only the part itself holds (21 R367-R369, log entry 2). -/
opaque fuse : Nat → BitVec 256

/-- The identity certificate (21 R369); its first 1,024 bytes are sent (log entry 2). -/
opaque certificate : List (BitVec 8)

/-- The E5M2 code an integer constant supplies where the format cannot hold it exactly (07 R157, log entry 12). -/
opaque constE5M2 : Nat → BitVec 8

end Sys2Proof.Config
end

