-- ==== Sys2Proof/Machine/Forms.lean ====
section
/-!
DEFINITION. The forms of the instruction words: which FN, TY, X, immediate and operand classes each form admits
(Tables 8.1-8.6, 9.1-9.3, 9.5, 9.6, 10.1-10.8, 11.2, 11.4, 12.10), its pipe and latency (Table 7.9), and the checks
2 to 6 of 07 R168, which depend on the word, the core, the handler mode and the kernel's NREG alone.
-/

namespace Sys2Proof

/-! ### Kinds of operand and of type -/

def Operand.isVec : Operand → Bool | .vec _ => true | _ => false
def Operand.isSca : Operand → Bool | .sca _ => true | _ => false
def Operand.isWalk : Operand → Bool | .walk _ => true | _ => false
def Operand.isMap : Operand → Bool | .map _ => true | _ => false
def Operand.isPred : Operand → Bool | .pred _ => true | _ => false

/-- Integer types of 07 R157. -/
def Ty.isIntConst : Ty → Bool
  | .i8 | .ui8 | .i16 | .ui16 | .i32 | .ui32 | .i8x4 | .i64 => true
  | _ => false

/-- Floating-point and packed types, in which an identifier is illegal (07 R157). -/
def Ty.isFloatOrPacked : Ty → Bool
  | .f32 | .f16 | .bf16 | .f16x2 | .bf16x2 | .e4m3x4 | .e5m2x4 | .i8x4 => true
  | _ => false

namespace Machine

/-- Fault causes (Table 12.1). -/
inductive Cause
  | illegalOpcode | reservedField | illegalVariant | privilege | registerRange | misalignedInstr | branchTarget
  | lineFormat | mapMismatch | stallShort | softwareTrap | breakpoint | record | seal | swizzle | objectAlign
  | barrierScope | barrierOverrun | ringState | semaphoreRange | deckOverflow | forkLimit | forkDescriptor
  | cancelTarget | regroup | jointMismatch | saveImage
  | notPresent | writeProtect | execProtect | reservedEntry | peerInvalid
  | physicalAddress | nonCanonical | spaceRange | apertureProtect | tileFootprint
  | uncEngine | uncFetch | groupLost | watchdogWait | watchdogPeer | watchdogRun | doubleFault | deadLane | lostReduction
  deriving DecidableEq, Repr, Inhabited

/-- The 8-bit code of a cause (Table 12.1, Table 1.11). -/
def Cause.code : Cause → Nat
  | .illegalOpcode => 0x01 | .reservedField => 0x02 | .illegalVariant => 0x03 | .privilege => 0x04
  | .registerRange => 0x05 | .misalignedInstr => 0x06 | .branchTarget => 0x07 | .lineFormat => 0x08
  | .mapMismatch => 0x09 | .stallShort => 0x0A | .softwareTrap => 0x0B | .breakpoint => 0x0C
  | .record => 0x10 | .seal => 0x11 | .swizzle => 0x12 | .objectAlign => 0x13 | .barrierScope => 0x14
  | .barrierOverrun => 0x15 | .ringState => 0x16 | .semaphoreRange => 0x17 | .deckOverflow => 0x18
  | .forkLimit => 0x19 | .forkDescriptor => 0x1A | .cancelTarget => 0x1B | .regroup => 0x1C
  | .jointMismatch => 0x1D | .saveImage => 0x1E
  | .notPresent => 0x20 | .writeProtect => 0x21 | .execProtect => 0x22 | .reservedEntry => 0x23 | .peerInvalid => 0x24
  | .physicalAddress => 0x25 | .nonCanonical => 0x26 | .spaceRange => 0x27 | .apertureProtect => 0x28
  | .tileFootprint => 0x29
  | .uncEngine => 0x30 | .uncFetch => 0x31 | .groupLost => 0x32 | .watchdogWait => 0x33 | .watchdogPeer => 0x34
  | .watchdogRun => 0x35 | .doubleFault => 0x36 | .deadLane => 0x37 | .lostReduction => 0x38

/-- The resumable causes park their agent (Table 1.11, 01 R30). -/
def Cause.resumable (k : Cause) : Bool := 0x20 ≤ k.code && k.code ≤ 0x24

/-- Registers that the interlock of 07 R160 and the check of R162 watch. -/
inductive RegName
  | v (n : Nat) | s (n : Nat) | m (n : Nat) | p (n : Nat)
  deriving DecidableEq, Repr, Inhabited

/-- Operand classes (Table of 08 R169); `k` admits the identifiers and constants alone. -/
inductive Cls
  | v | s | u | k | val | m | md | p | w | none
  deriving DecidableEq, Repr

/-- What one operand field of a form admits. `n` registers are named, the first a multiple of `align`. -/
structure Fld where
  dst : Bool := false
  cls : List Cls := [.none]
  ty : Ty := .b32
  n : Nat := 1
  align : Nat := 1
  gather : Bool := false     -- a destination that gathers lanes into one value (07 R156)
  alsoRead : Bool := false   -- BRDEC reads its destination
  touch : Bool := true       -- false: a walker named here is not read (08 R173, 10 R229)
  deriving DecidableEq, Repr

/-- Pipe classes (Table 7.9). -/
inductive Pipe
  | c | v | f | l
  deriving DecidableEq, Repr

/-- Result latency (Table 7.9, 07 R161). -/
inductive Lat
  | none | fixed (n : Nat) | vary
  deriving DecidableEq, Repr

/-- A form: its fields and its own conditions on the word. -/
structure Form where
  d : Fld := {}
  a : Fld := {}
  b : Fld := {}
  c : Fld := {}
  e : Fld := {}
  fnOk : Bool := true
  tyOk : Bool := true
  resOk : Bool := true       -- no undefined X or immediate bit is set
  varOk : Bool := true       -- no further illegal variant
  hint : Bool := false       -- CH is honoured (07 R151)
  upper : Bool := false      -- upper cores only (07 R167)
  priv : Bool := false       -- privileged (07 R167)
  localUpper : Bool := false -- names BS, AC or MX: an illegal variant on a lower core (01 R8)
  lat : Lat := .none
  pipe : Pipe := .c
  rewrites : Bool := false   -- every stored vector register, M0-M13, LIVE and DEAD are destinations (08 R186)
  binds : Option Nat := none -- the walker that WBIND names in FN (Table 10.3)
  deriving DecidableEq, Repr

/-- The fields of any format in one view. -/
structure View where
  c : Ctl
  d : Operand
  a : Operand
  b : Operand := .none
  c3 : Operand := .none
  e : Operand := .none
  x : BitVec 10 := 0
  imm : BitVec 32 := 0
  z : BitVec 2 := 0
  deriving DecidableEq, Repr

/-! ### Operand classes -/

/-- An identifier or constant. -/
def isConstOrIdent : Operand → Bool
  | .ident _ | .int _ | .minusOne | .fOne | .fHalf | .fTwo | .fMinusOne | .signBit => true
  | _ => false

/-- ID.LANE and ID.THREAD vary by lane. -/
def isLaneIdent : Operand → Bool
  | .ident .lane | .ident .thread => true
  | _ => false

/-- Whether a class admits an operand (08 R169). -/
def Cls.admits : Cls → Operand → Bool
  | .v, .vec _ => true
  | .s, .sca _ => true
  | .u, o => o.isSca || (isConstOrIdent o && !isLaneIdent o)
  | .k, o => isConstOrIdent o
  | .val, o => o.isVec || o.isSca || o.isWalk || isConstOrIdent o
  | .m, .map _ => true
  | .md, .map n => n.val < 14
  | .p, .pred n => n.val < 7
  | .w, .walk _ => true
  | .none, .none => true
  | _, _ => false

/-- Whether a constant or identifier may stand in an operand of a type (07 R157). -/
def constOk (ty : Ty) : Operand → Bool
  | .fOne | .fHalf | .fTwo | .fMinusOne => !ty.isIntConst
  | .signBit => ty == .b32 || ty == .i32 || ty == .ui32 || ty == .f32
  | .ident _ => !ty.isFloatOrPacked
  | _ => true

/-- Registers named by an operand in a field. -/
def Fld.regs (f : Fld) : Operand → List RegName
  | .vec n => (List.range f.n).map fun k => .v (n.val + k)
  | .sca n => (List.range f.n).map fun k => .s (n.val + k)
  | .map n => [.m n.val]
  | .pred n => [.p n.val]
  | _ => []

/-- Whether a field admits an operand: class, constant type, block alignment and block end (07 R156-R158). -/
def Fld.admits (f : Fld) (o : Operand) : Bool :=
  f.cls.any (·.admits o) && constOk f.ty o &&
  match o with
  | .vec n => n.val % f.align == 0 && n.val + f.n ≤ 128
  | .sca n => n.val % f.align == 0 && n.val + f.n ≤ 64
  | _ => true

/-! ### Field makers -/

def noFld : Fld := {}
/-- A source of the classes, a pair when its type is 64-bit. -/
def rd (cls : List Cls) (ty : Ty) : Fld :=
  { cls, ty, n := if ty == .i64 then 2 else 1, align := if ty == .i64 then 2 else 1 }
/-- A destination of the classes, a pair when its type is 64-bit. -/
def wr (cls : List Cls) (ty : Ty) : Fld := { rd cls ty with dst := true }
/-- A 64-bit scalar pair source. -/
def sp : Fld := rd [.s] .i64
/-- A scalar block of n registers starting at an even one. -/
def blockS (n : Nat) : Fld := { cls := [.s], n, align := 2 }
/-- A vector block of n registers starting at a multiple of n. -/
def blockV (dst : Bool) (n : Nat) : Fld := { dst, cls := [.v], n, align := n }
/-- An address in a space: a pair in G, a uniform offset elsewhere. -/
def spaceFld (space : Nat) : Fld := if space == 0 then sp else rd [.u] .b32
/-- The object operand of 10 R243: an S offset when X[0] is set, a G pair otherwise. -/
def objFld (x : BitVec 10) : Fld := if x.toNat % 2 == 1 then rd [.u] .b32 else sp
/-- The barrier operand of 10 R237 by X[3:2]. -/
def barFld (x : BitVec 10) : Fld :=
  match x.toNat / 4 % 4 with
  | 0 => noFld
  | 1 => rd [.u] .b32
  | 2 => sp
  | _ => { cls := [.val, .none, .m, .p] }

def fnIn (c : Ctl) (l : List Nat) : Bool := l.contains c.fn.toNat
def tyIn (c : Ctl) (l : List Ty) : Bool := l.contains c.ty
/-- X holds a rounding mode and nothing else (03 R61). -/
def xMode (x : BitVec 10) : Bool := x.toNat < 4
/-- X of an engine command: queue and barrier selection only, 11 reserved (10 R237). -/
def engX (x : BitVec 10) : Bool := x.toNat < 16 && x.toNat / 4 % 4 != 3
/-- X of a matrix command within a mask, BAR 11 reserved (11 R251). -/
def mxX (x mask : BitVec 10) : Bool := (x &&& ~~~mask) == 0 && x.toNat / 4 % 4 != 3

/-- A form of a pipe with FN 0, TY 0 and the given X bits all undefined. -/
def fm (c : Ctl) (pipe : Pipe) (x : BitVec 10) : Form :=
  { pipe, fnOk := c.fn == 0, tyOk := c.ty == .b32, resOk := x == 0 }

/-- A branch of format I: the slot of IMM32[2:0] is 0 to 4 (07 R144). -/
def brI (c : Ctl) (o : OpsI) : Form := { fm c .c 0 with resOk := o.imm.toNat % 8 < 5 }

/-- A map form (Table 8.4). -/
def mp (c : Ctl) (o : OpsR) : Form := { fm c .c o.x with lat := .fixed 2 }

/-- Latency of a form, two cycles more for i64 (07 R163). -/
def lx (c : Ctl) (n : Nat) : Lat := .fixed (if c.ty == .i64 then n + 2 else n)

/-- With a scalar destination every source is uniform (09 R194, 10 R232). -/
def uniIfScalar (o : OpsR) : Bool :=
  !o.d.isSca || [o.a, o.b, o.c, o.e].all fun s => s == .none || Cls.u.admits s

/-- Types that REDUCE and SCAN take for an operation (Table 8.7). -/
def redTy (c : Ctl) : Bool :=
  if c.fn.toNat % 8 < 3 then tyIn c [.i32, .ui32, .f32, .i64] else tyIn c [.b32, .i64]
/-- X is a mode for f32 add and zero otherwise (08 R192). -/
def redX (c : Ctl) (x : BitVec 10) : Bool :=
  if c.fn.toNat % 8 == 0 && c.ty == .f32 then xMode x else x == 0

/-- One-source and two-source forms of the vector pipe (09 R194). -/
def ar1 (c : Ctl) (o : OpsR) (tys : List Ty) (l : Nat) : Form :=
  { fm c .v o.x with tyOk := tyIn c tys, d := wr [.v, .s] c.ty, a := rd [.val] c.ty, varOk := uniIfScalar o, lat := lx c l }
def ar2 (c : Ctl) (o : OpsR) (tys : List Ty) (l : Nat) : Form :=
  { ar1 c o tys l with b := rd [.val] c.ty }

/-- A source that varies by lane (09 R199). -/
def varies (o : Operand) : Bool := o.isVec || o.isWalk || isLaneIdent o

/-- The compare forms: two maps when a source varies by lane, two predicates otherwise (09 R199). -/
def cmp (c : Ctl) (o : OpsR) (fnOk : Bool) (tys : List Ty) (bTy : Ty) (bCls : List Cls) : Form :=
  let dcls := if varies o.a || varies o.b then [Cls.md, .none] else [Cls.p, .none]
  { fm c .v o.x with fnOk, tyOk := tyIn c tys, a := rd [.val] c.ty, b := rd bCls bTy
                     d := { wr dcls .b32 with gather := true }, e := { wr dcls .b32 with gather := true }
                     varOk := !(o.d == .none && o.e == .none), lat := lx c 4 }

/-! ### Conversions (Tables 9.5 and 9.6) -/

/-- Source type of CVT, X[5:2]. -/
def cvtSrc (x : BitVec 10) : Nat := x.toNat / 4 % 16
/-- Element number of a packed source, X[7:6]. -/
def cvtElem (x : BitVec 10) : Nat := x.toNat / 64 % 4

/-- TY by code (07 R165). -/
def tyOfNat : Nat → Ty
  | 0 => .b32 | 1 => .i8 | 2 => .ui8 | 3 => .i16 | 4 => .ui16 | 5 => .i32 | 6 => .ui32 | 7 => .f32
  | 8 => .f16 | 9 => .bf16 | 10 => .f16x2 | 11 => .bf16x2 | 12 => .e4m3x4 | 13 => .e5m2x4 | 14 => .i8x4 | _ => .i64
def tyNat : Ty → Nat
  | .b32 => 0 | .i8 => 1 | .ui8 => 2 | .i16 => 3 | .ui16 => 4 | .i32 => 5 | .ui32 => 6 | .f32 => 7
  | .f16 => 8 | .bf16 => 9 | .f16x2 => 10 | .bf16x2 => 11 | .e4m3x4 => 12 | .e5m2x4 => 13 | .i8x4 => 14 | .i64 => 15

/-- Kinds of conversion (Table 9.5): the number of sources for a pack, the element count for an unpack. -/
inductive CvtKind
  | scalar | pack (n : Nat) | unpack (count : Nat) | illegal
  deriving DecidableEq, Repr

def cvtKind (ty src fn : Nat) : CvtKind :=
  let scal (t : Nat) : Bool := (1 ≤ t && t ≤ 9) || t == 15
  let flt (t : Nat) : Bool := 7 ≤ t && t ≤ 9
  if scal ty && scal src && (fn < 2 || (fn < 4 && flt ty && flt src)) then .scalar
  else if (ty == 10 || ty == 11) && src == 7 && fn < 4 then .pack 2
  else if (ty == 12 || ty == 13) && flt src && fn < 4 then .pack 4
  else if ty == 14 && (src == 5 || src == 7) && fn < 2 then .pack 4
  else if ty == 7 && (src == 10 || src == 11) && fn == 0 then .unpack 2
  else if ty == 7 && (src == 12 || src == 13) && fn == 0 then .unpack 4
  else if ty == 5 && src == 14 && fn == 0 then .unpack 4
  else .illegal

/-- CVT (09 R215). DESIGN CHOICE (log entry 73): a scalar form with an i64 source is a form of type i64, whatever TY is, and takes the two cycles
more of 07 R163. DESIGN CHOICE (log entry 74): X[7:6] of a form that does not unpack is a field that the form does not define, so a nonzero one is a
reserved-field fault (07 R153). -/
def cvtForm (c : Ctl) (o : OpsR) : Form :=
  let st := tyOfNat (cvtSrc o.x)
  let k := cvtKind (tyNat c.ty) (cvtSrc o.x) c.fn.toNat
  let any : Fld := { cls := [.val, .m, .p, .none] }
  let xOk := o.x.toNat < 256 && (!(c.fn == 2 || c.fn == 3) || o.x.toNat % 4 == 0)
  let base : Form := { pipe := .v, d := wr [.v, .s] c.ty, a := rd [.val] st, lat := .fixed 6, varOk := uniIfScalar o }
  match k with
  | .scalar => { base with resOk := xOk && cvtElem o.x == 0, lat := if c.ty == .i64 || st == .i64 then .fixed 8 else .fixed 6 }
  | .pack 2 => { base with b := rd [.val] st, resOk := xOk && cvtElem o.x == 0 }
  | .pack _ => { base with b := rd [.val] st, c := rd [.val] st, e := rd [.val] st, resOk := xOk && cvtElem o.x == 0 }
  | .unpack n => { base with resOk := xOk, varOk := uniIfScalar o && cvtElem o.x < n }
  | .illegal => { base with b := any, c := any, e := any, resOk := xOk, fnOk := false }

/-- Formats 4 and 5 (ZQ8, ZQ4) carry a 32-bit side entry for each block, so a pair (Table 9.6). -/
def sideTy (fn : Nat) : Ty := if fn % 8 == 4 || fn % 8 == 5 then .i64 else .b32

def cvtbForm (c : Ctl) (o : OpsR) : Form :=
  { pipe := .v, fnOk := c.fn.toNat % 8 < 7, tyOk := c.ty == .f32, d := wr [.v] .b32, a := rd [.v] .f32
    e := { wr [.s] (sideTy c.fn.toNat) with gather := true }
    resOk := if c.fn.toNat < 8 then xMode o.x else o.x == 0, lat := .fixed 6 }

def decbForm (c : Ctl) (o : OpsR) : Form :=
  { pipe := .v, fnOk := c.fn.toNat < 7, tyOk := c.ty == .f32, d := wr [.v] .f32, a := rd [.v] .b32
    b := if sideTy c.fn.toNat == .i64 then sp else rd [.u] .b32, resOk := xMode o.x, lat := .fixed 6 }

/-! ### Memory forms -/

/-- Registers moved by LD and ST: FN[3:2] (Table 10.1). -/
def memRegs (c : Ctl) : Nat :=
  match c.fn.toNat / 4 with
  | 0 => if c.ty == .i64 then 2 else 1
  | 1 => 2
  | _ => 4

def memForm (c : Ctl) (o : OpsM) : Form :=
  let space := c.fn.toNat % 4
  { pipe := .l, fnOk := c.fn.toNat < 12, tyOk := c.fn.toNat < 4 || c.ty == .b32, hint := true
    a := rd [.val, .none] .i32, b := if space == 0 then sp else noFld, localUpper := space ≥ 2
    d := { ty := c.ty, n := memRegs c, align := memRegs c }
    varOk := !o.d.isSca || o.a == .none || Cls.u.admits o.a }

def ldForm (c : Ctl) (o : OpsM) : Form :=
  let f := memForm c o
  { f with d := { f.d with dst := true, cls := [.v, .s] }, lat := .vary }

/-- ST's data are any value; its offsets may vary by lane whatever the data are. -/
def stForm (c : Ctl) (o : OpsM) : Form :=
  let f := memForm c o
  { f with d := { f.d with cls := [.val] }, varOk := true }

def fragForm (c : Ctl) (o : OpsR) (load : Bool) : Form :=
  { pipe := .l, fnOk := c.fn.toNat < 4, tyOk := c.ty == .b32, resOk := o.x.toNat < 8, hint := true
    d := { dst := load, cls := [.v], n := o.x.toNat % 8 + 1 }, a := rd [.u] .ui32, b := rd [.u] .b32, c := rd [.u] .b32
    localUpper := c.fn.toNat ≥ 2, lat := if load then .vary else .none }

/-- Types of the atomic operations (Table 10.4). -/
def atomTy (c : Ctl) : Bool :=
  match c.fn.toNat with
  | 0 => tyIn c [.i32, .ui32, .f32, .f16, .bf16, .f16x2, .bf16x2, .i64]
  | 1 | 2 => tyIn c [.i32, .ui32, .f32, .i64]
  | _ => tyIn c [.b32, .i64]

def atomForm (c : Ctl) (o : OpsR) (hasD fnOk tyOk : Bool) (e : Fld) : Form :=
  { pipe := .l, fnOk, tyOk, resOk := o.x.toNat < 2, hint := true
    d := if hasD then wr [.v, .s, .none] c.ty else noFld
    a := if o.x.toNat % 2 == 0 then sp else noFld, b := rd [.val] (if o.x.toNat % 2 == 0 then .i32 else .ui32)
    c := rd [.val] c.ty, e, varOk := !hasD || uniIfScalar o, lat := if hasD then .vary else .none }

/-- Barrier, ring and semaphore forms: SC 2 to 6, the object in A by X[0] (Table 10.7). -/
def objForm (c : Ctl) (o : OpsR) : Form :=
  { fm c .l 0 with a := objFld o.x, resOk := o.x.toNat < 2, varOk := c.sc != .thread && c.sc != .group }

def engForm (c : Ctl) (o : OpsR) : Form := { fm c .l 0 with e := barFld o.x, resOk := engX o.x }

def mxForm (c : Ctl) (x : BitVec 10) : Form := { fm c .l 0 with e := barFld x, upper := true }

/-! ### Control and status registers (Table 12.11) -/

/-- Width of a CSR in bits; none for a number the table does not list. -/
def csrWidth : Nat → Option Nat
  | 0x010 | 0x011 | 0x012 | 0x022 | 0x025 | 0x030 | 0x031 | 0x032 | 0x033 | 0x034 | 0x035 | 0x041 | 0x051 | 0x052 | 0x053 =>
    some 32
  | 0x020 | 0x021 | 0x023 | 0x024 | 0x040 | 0x050 => some 64
  | _ => none

/-- CSRs that are read-only as a whole. -/
def csrReadOnly (n : Nat) : Bool := [0x031, 0x032, 0x033, 0x034, 0x035, 0x050, 0x051, 0x052, 0x053].contains n

def csrWritable (n : Nat) : Bool := (csrWidth n).isSome && !csrReadOnly n

/-- Accesses that are privileged: the trap frame and the injector always, TRAPB and WDOG for writes. -/
def csrPriv (n : Nat) (write : Bool) : Bool :=
  [0x021, 0x022, 0x023, 0x024, 0x025, 0x040, 0x041].contains n || (write && [0x020, 0x030].contains n)

def csrTy (n : Nat) : Ty := if csrWidth n == some 64 then .i64 else .ui32

/-- CSRX takes a 32-bit CSR that is not read-only (12 R284). -/
def csrxForm (c : Ctl) (o : OpsR) (fn : Nat) : Form :=
  { fm c .c 0 with fnOk := c.fn.toNat == fn, d := wr [.s, .none] .ui32, a := rd [.u] .b32
                   varOk := csrWidth o.x.toNat == some 32 && csrWritable o.x.toNat
                   priv := csrPriv o.x.toNat true, lat := .vary }

/-! ### The forms -/

def viewR (c : Ctl) (o : OpsR) : View := { c, d := o.d, a := o.a, b := o.b, c3 := o.c, e := o.e, x := o.x }
def viewI (c : Ctl) (o : OpsI) : View := { c, d := o.d, a := o.a, imm := o.imm, z := o.z }
def viewM (c : Ctl) (o : OpsM) : View := { c, d := o.d, a := o.a, b := o.b, imm := o.imm.zeroExtend 32, z := o.z }

/-- The view and the form of an instruction word; none for a step that has no word. DESIGN CHOICE (log entry 73): LEA, whose TY gives its offset's type, is
no form of type i64 for 07 R163. DESIGN CHOICE (log entry 74): the mask of FCLASS.m, whose type 09 R211 does not give, is a ui32 operand. -/
def viewForm : Instr → Option (View × Form)
  | .nop c o => some (viewR c o, fm c .c o.x)
  | .bra c o => some (viewI c o, { brI c o with d := noFld })
  | .brxAbs c o => some (viewR c o, { fm c .c o.x with a := sp })
  | .brxRel c o => some (viewR c o, { fm c .c o.x with fnOk := fnIn c [1], a := rd [.u] .b32 })
  | .call c o => some (viewI c o, { brI c o with d := wr [.s] .i64 })
  | .ret c o => some (viewR c o, { fm c .c o.x with a := sp })
  | .brm c o => some (viewI c o, { brI c o with a := rd [.m, .v] .b32, fnOk := fnIn c [0, 1, 2, 3] })
  | .brw c o => some (viewR c o, { fm c .c 0 with fnOk := fnIn c [0, 1, 2, 3, 4, 5, 6, 7], a := { rd [.w] .b32 with touch := false }, resOk := (o.x.extractLsb' 0 3).toNat < 5 })
  | .brdec c o => some (viewI c o, { brI c o with d := { wr [.s] .ui32 with alsoRead := true } })
  | .mcall c o => some (viewR c o, { fm c .c 0 with resOk := o.x.toNat < 256 })
  | .exit c o => some (viewR c o, { fm c .c o.x with a := rd [.m, .v, .none] .b32 })
  | .yield c o => some (viewR c o, fm c .c o.x)
  | .trap c o => some (viewI c o, { fm c .c 0 with resOk := o.imm.toNat < 65536 })
  | .rft c o => some (viewR c o, { fm c .c o.x with priv := true })
  | .spawn c o => some (viewR c o, { fm c .c o.x with fnOk := fnIn c [0, 1, 2, 3], a := rd [.val, .none] .b32, b := rd [.val, .none] .b32, c := rd [.val, .none] .b32 })
  | .fork c o => some (viewR c o, { fm c .c o.x with d := wr [.s] .i64, a := sp, e := wr [.s, .none] .ui32 })
  | .regroup c o => some (viewR c o, { fm c .c o.x with a := rd [.u] .b32, b := rd [.u] .b32 })
  | .cancel c o => some (viewR c o, { fm c .c o.x with a := sp })
  | .cntrdCount c o => some (viewR c o, { fm c .c o.x with d := wr [.s] .ui32, a := sp, lat := .vary })
  | .cntrdStatus c o => some (viewR c o, { fm c .c o.x with fnOk := fnIn c [1], d := wr [.s] .ui32, a := sp, lat := .vary })
  | .mand c o => some (viewR c o, { mp c o with d := wr [.md] .b32, a := rd [.m] .b32, b := rd [.m] .b32 })
  | .mor c o => some (viewR c o, { mp c o with d := wr [.md] .b32, a := rd [.m] .b32, b := rd [.m] .b32 })
  | .mandn c o => some (viewR c o, { mp c o with d := wr [.md] .b32, a := rd [.m] .b32, b := rd [.m] .b32 })
  | .mxor c o => some (viewR c o, { mp c o with d := wr [.md] .b32, a := rd [.m] .b32, b := rd [.m] .b32 })
  | .mnot c o => some (viewR c o, { mp c o with d := wr [.md] .b32, a := rd [.m] .b32 })
  | .mmov c o => some (viewR c o, { mp c o with d := wr [.md] .b32, a := rd [.m] .b32 })
  | .mpop c o => some (viewR c o, { mp c o with d := wr [.s] .ui32, a := rd [.m] .b32 })
  | .mfind c o => some (viewR c o, { mp c o with d := wr [.s] .ui32, a := rd [.m] .b32, fnOk := fnIn c [0, 1] })
  | .msetPair c o => some (viewR c o, { mp c o with d := wr [.md] .b32, a := sp })
  | .msetFirst c o => some (viewR c o, { mp c o with d := wr [.md] .b32, a := rd [.u] .ui32, fnOk := fnIn c [1] })
  | .mget c o => some (viewR c o, { mp c o with d := wr [.s] .i64, a := rd [.m] .b32 })
  | .mtst c o => some (viewR c o, { mp c o with d := wr [.p] .b32, a := rd [.m] .b32, fnOk := fnIn c [0, 1, 2, 3] })
  | .mof c o => some (viewR c o, { mp c o with d := { wr [.md] .b32 with gather := true }, a := rd [.v] .b32 })
  | .restrict c o => some (viewR c o, { fm c .v o.x with tyOk := tyIn c [.b32, .i64], d := wr [.v] c.ty, a := rd [.v] c.ty, b := rd [.m] .b32, lat := lx c 4 })
  | .merge c o => some (viewR c o, { fm c .v o.x with tyOk := tyIn c [.b32, .i64], d := wr [.v] c.ty, a := rd [.v] c.ty, b := rd [.v] c.ty, lat := lx c 4 })
  | .fill c o => some (viewR c o, { fm c .v o.x with tyOk := tyIn c [.b32, .i64], d := wr [.v] c.ty, a := rd [.s, .k] c.ty, b := rd [.m, .none] .b32, lat := lx c 4 })
  | .compact c o => some (viewR c o, { fm c .v o.x with lat := .fixed 8, rewrites := true })
  | .pull c o => some (viewR c o, { fm c .v o.x with fnOk := fnIn c [0, 1, 2, 3, 8], tyOk := tyIn c [.b32, .i64], d := wr [.v] c.ty, a := rd [.v] c.ty, b := rd [.val] .ui32, lat := lx c 8 })
  | .push c o => some (viewR c o, { fm c .v o.x with fnOk := fnIn c [0, 8], tyOk := tyIn c [.b32, .i64], d := wr [.v] c.ty, a := rd [.v] c.ty, b := rd [.val] .ui32, lat := lx c 8 })
  | .bcast c o => some (viewR c o, { fm c .v o.x with fnOk := fnIn c [0, 8], tyOk := tyIn c [.b32, .i64], d := wr [.v] c.ty, a := rd [.v] c.ty, b := rd [.u] .ui32, lat := lx c 8 })
  | .vote c o => some (viewR c o, { fm c .v o.x with fnOk := fnIn c [0, 1, 2, 3], tyOk := if c.fn = 2 then tyIn c [.b32, .i64] else tyIn c [.b32], d := { wr (if c.fn = 3 then [.md, .s] else [.p]) .i64 with gather := true }, a := rd [.v] c.ty, lat := lx c 6 })
  | .reduce c o => some (viewR c o, { fm c .v 0 with fnOk := c.fn.toNat < 6, tyOk := redTy c, d := { wr [.s] c.ty with gather := true }, a := rd [.v] c.ty, e := { wr [.p, .none] .b32 with gather := true }, resOk := redX c o.x, lat := lx c 12 })
  | .scan c o => some (viewR c o, { fm c .v 0 with fnOk := c.fn.toNat % 8 < 6, tyOk := redTy c, d := wr [.v] c.ty, a := rd [.v] c.ty, e := { wr [.s, .none] c.ty with gather := true }, resOk := redX c o.x, lat := lx c 12 })
  | .lanemapPos c o => some (viewR c o, { fm c .v o.x with d := wr [.v] .b32, a := rd [.val] .ui32, lat := .fixed 8 })
  | .lanemapTid c o => some (viewR c o, { fm c .v o.x with fnOk := fnIn c [1], d := wr [.v] .b32, a := rd [.val] .ui32, lat := .fixed 8 })
  | .iadd c o => some (viewR c o, ar2 c o [.i8, .ui8, .i16, .ui16, .i32, .ui32, .i8x4, .i64] 4)
  | .isub c o => some (viewR c o, ar2 c o [.i8, .ui8, .i16, .ui16, .i32, .ui32, .i8x4, .i64] 4)
  | .imul c o => some (viewR c o, ar2 c o [.i8, .ui8, .i16, .ui16, .i32, .ui32, .i64] 6)
  | .imulh c o => some (viewR c o, ar2 c o [.i32, .ui32, .i64] 6)
  | .imad c o => some (viewR c o, { ar2 c o [.i32, .ui32, .i64] 6 with c := rd [.val] c.ty })
  | .idiv c o => some (viewR c o, ar2 c o [.i32, .ui32, .i64] 24)
  | .irem c o => some (viewR c o, ar2 c o [.i32, .ui32, .i64] 24)
  | .imin c o => some (viewR c o, ar2 c o [.i8, .ui8, .i16, .ui16, .i32, .ui32, .i8x4, .i64] 4)
  | .imax c o => some (viewR c o, ar2 c o [.i8, .ui8, .i16, .ui16, .i32, .ui32, .i8x4, .i64] 4)
  | .iabs c o => some (viewR c o, ar1 c o [.i8, .i16, .i32, .i64] 4)
  | .ineg c o => some (viewR c o, ar1 c o [.i8, .ui8, .i16, .ui16, .i32, .ui32, .i64] 4)
  | .iadds c o => some (viewR c o, { ar2 c o [.i8, .ui8, .i16, .ui16, .i32, .ui32, .i8x4, .i64] 4 with fnOk := fnIn c [0, 1] })
  | .icmp c o => some (viewR c o, cmp c o (c.fn.toNat < 6) [.i8, .ui8, .i16, .ui16, .i32, .ui32, .i64] c.ty [.val])
  | .lea c o => some (viewR c o, { fm c .v 0 with tyOk := tyIn c [.i32, .ui32], d := wr [.v, .s] .i64, a := rd [.s, .v] .i64, b := rd [.val] c.ty, resOk := o.x.toNat < 32, varOk := uniIfScalar o, lat := .fixed 4 })
  | .mov c o => some (viewR c o, ar1 c o [.b32, .i64] 4)
  | .movi c o => some (viewI c o, { fm c .v 0 with tyOk := tyIn c [.b32, .i64], d := wr [.v, .s] c.ty, lat := lx c 4 })
  | .and c o => some (viewR c o, ar2 c o [.b32, .i64] 4)
  | .or c o => some (viewR c o, ar2 c o [.b32, .i64] 4)
  | .xor c o => some (viewR c o, ar2 c o [.b32, .i64] 4)
  | .andn c o => some (viewR c o, ar2 c o [.b32, .i64] 4)
  | .tril c o => some (viewR c o, { ar2 c o [.b32, .i64] 4 with c := rd [.val] c.ty, resOk := o.x.toNat < 256 })
  | .shl c o => some (viewR c o, { ar2 c o [.b32, .i64] 4 with b := rd [.val] .ui32 })
  | .shr c o => some (viewR c o, { ar2 c o [.b32, .i64] 4 with b := rd [.val] .ui32 })
  | .sar c o => some (viewR c o, { ar2 c o [.b32, .i64] 4 with b := rd [.val] .ui32 })
  | .fshl c o => some (viewR c o, { ar2 c o [.b32] 4 with fnOk := fnIn c [0, 1], c := rd [.val] .ui32 })
  | .fshr c o => some (viewR c o, { ar2 c o [.b32] 4 with fnOk := fnIn c [0, 1], c := rd [.val] .ui32 })
  | .bfx c o => some (viewR c o, { ar2 c o [.i32, .ui32] 4 with b := rd [.val] .ui32, c := rd [.val] .ui32 })
  | .bfi c o => some (viewR c o, { ar2 c o [.b32] 4 with c := rd [.val] .ui32, e := rd [.val] .ui32 })
  | .popc c o => some (viewR c o, ar1 c o [.b32, .i64] 4)
  | .clz c o => some (viewR c o, ar1 c o [.b32, .i64] 4)
  | .ctz c o => some (viewR c o, ar1 c o [.b32, .i64] 4)
  | .brev c o => some (viewR c o, ar1 c o [.b32, .i64] 4)
  | .fadd c o => some (viewR c o, { ar2 c o [.f32, .f16, .bf16, .f16x2, .bf16x2] 6 with resOk := xMode o.x })
  | .fsub c o => some (viewR c o, { ar2 c o [.f32, .f16, .bf16, .f16x2, .bf16x2] 6 with resOk := xMode o.x })
  | .fmul c o => some (viewR c o, { ar2 c o [.f32, .f16, .bf16, .f16x2, .bf16x2] 6 with resOk := xMode o.x })
  | .ffma c o => some (viewR c o, { ar2 c o [.f32, .f16, .bf16, .f16x2, .bf16x2] 6 with c := rd [.val] c.ty, resOk := xMode o.x })
  | .fmin c o => some (viewR c o, ar2 c o [.f32, .f16, .bf16, .f16x2, .bf16x2] 4)
  | .fmax c o => some (viewR c o, ar2 c o [.f32, .f16, .bf16, .f16x2, .bf16x2] 4)
  | .fcmp c o => some (viewR c o, cmp c o (c.fn.toNat < 7) [.f32, .f16, .bf16] c.ty [.val])
  | .frcp c o => some (viewR c o, { ar1 c o [.f32] 12 with pipe := .f })
  | .frsq c o => some (viewR c o, { ar1 c o [.f32] 12 with pipe := .f })
  | .fsqrt c o => some (viewR c o, { ar1 c o [.f32] 18 with pipe := .f, resOk := xMode o.x })
  | .fdiv c o => some (viewR c o, { ar2 c o [.f32] 18 with pipe := .f, resOk := xMode o.x })
  | .fexp2 c o => some (viewR c o, { ar1 c o [.f32] 12 with pipe := .f })
  | .flog2 c o => some (viewR c o, { ar1 c o [.f32] 12 with pipe := .f })
  | .fsin c o => some (viewR c o, { ar1 c o [.f32] 12 with pipe := .f })
  | .fcos c o => some (viewR c o, { ar1 c o [.f32] 12 with pipe := .f })
  | .ftanh c o => some (viewR c o, { ar1 c o [.f32] 12 with pipe := .f })
  | .frnd c o => some (viewR c o, { ar1 c o [.f32, .f16, .bf16] 4 with resOk := xMode o.x })
  | .fclass c o => some (viewR c o, { ar1 c o [.f32, .f16, .bf16] 4 with d := wr [.v, .s] .ui32 })
  | .fclassM c o => some (viewR c o, cmp c o (c.fn = 1) [.f32, .f16, .bf16] .ui32 [.u])
  | .fscale c o => some (viewR c o, { ar2 c o [.f32, .f16, .bf16] 4 with b := rd [.val] .i32, resOk := xMode o.x })
  | .fdot2 c o => some (viewR c o, { ar2 c o [.f16x2, .bf16x2] 6 with d := wr [.v, .s] .f32, c := rd [.val] .f32, resOk := xMode o.x })
  | .cvt c o => some (viewR c o, cvtForm c o)
  | .cvtb c o => some (viewR c o, cvtbForm c o)
  | .decb c o => some (viewR c o, decbForm c o)
  | .ld c o => some (viewM c o, ldForm c o)
  | .st c o => some (viewM c o, stForm c o)
  | .ldm c o => some (viewR c o, fragForm c o true)
  | .stm c o => some (viewR c o, fragForm c o false)
  | .wbind c o => some (viewR c o, { fm c .l o.x with fnOk := true, tyOk := if c.fn.toNat < 8 then tyIn c [.b32] else !tyIn c [.i64], a := if c.fn.toNat < 8 then rd [.u] .ui32 else blockS 7, b := sp, hint := true, binds := some (c.fn.toNat % 8) })
  | .wstat c o => some (viewR c o, { fm c .l o.x with fnOk := c.fn.toNat < 5, d := wr [.s] .ui32, a := { rd [.w] .b32 with touch := false }, lat := .vary })
  | .atom c o => some (viewR c o, atomForm c o true (c.fn.toNat < 7) (atomTy c) noFld)
  | .atomc c o => some (viewR c o, atomForm c o true (c.fn = 0) (tyIn c [.b32, .i64]) (rd [.val] c.ty))
  | .red c o => some (viewR c o, atomForm c o false (c.fn.toNat < 6) (atomTy c) noFld)
  | .pref c o => some (viewR c o, { fm c .l o.x with fnOk := fnIn c [0, 1], a := sp, b := rd [.val] .i32, hint := true })
  | .pinOn c o => some (viewR c o, { fm c .l o.x with a := sp, b := rd [.val] .i32, hint := true })
  | .pinOff c o => some (viewR c o, { fm c .l o.x with fnOk := fnIn c [1], a := sp, b := rd [.val] .i32, hint := true })
  | .tbind c o => some (viewR c o, { fm c .l o.x with a := rd [.u] .ui32, b := sp })
  | .tinfo c o => some (viewR c o, { fm c .l o.x with fnOk := c.fn.toNat < 14, d := wr [.s] (if [8, 9, 10, 13].contains c.fn.toNat then .i64 else .ui32), a := rd [.u] .ui32, lat := .vary })
  | .tld c o => some (viewR c o, { engForm c o with fnOk := fnIn c [1, 2, 3], a := rd [.u] .ui32, b := sp, c := blockS 5, localUpper := c.fn.toNat ≥ 2, resOk := engX o.x && c.sc ≠ .system, hint := true })
  | .tst c o => some (viewR c o, { engForm c o with fnOk := fnIn c [1, 2, 3], a := rd [.u] .ui32, b := sp, c := blockS 5, localUpper := c.fn.toNat ≥ 2, resOk := engX o.x && c.sc ≠ .system, hint := true })
  | .ycopy c o => some (viewR c o, { engForm c o with fnOk := true, a := spaceFld (c.fn.toNat % 4), b := spaceFld (c.fn.toNat / 4), c := rd [.u] .b32, localUpper := c.fn.toNat % 4 ≥ 2 || c.fn.toNat / 4 ≥ 2, hint := true })
  | .ygath c o => some (viewR c o, { engForm c o with fnOk := c.fn.toNat < 3, a := blockS 8, b := spaceFld c.fn.toNat, localUpper := c.fn = 2, hint := true })
  | .yscat c o => some (viewR c o, { engForm c o with fnOk := c.fn.toNat < 3, a := blockS 8, b := spaceFld c.fn.toNat, localUpper := c.fn = 2, hint := true })
  | .yfence c o => some (viewR c o, { fm c .l 0 with resOk := o.x.toNat / 256 = 0 && o.x.toNat / 32 % 8 < 5, localUpper := o.x.toNat / 16 % 2 = 1 || o.x.toNat / 32 % 8 = 4 })
  | .barinit c o => some (viewR c o, { objForm c o with b := rd [.u] .b32 })
  | .arrive c o => some (viewR c o, { objForm c o with d := wr [.s, .none] .ui32 })
  | .arriveBytes c o => some (viewR c o, { objForm c o with fnOk := fnIn c [1], d := wr [.s, .none] .ui32, b := rd [.u] .b32 })
  | .waitph c o => some (viewR c o, { objForm c o with b := rd [.u] .b32 })
  | .waitphSwap c o => some (viewR c o, { objForm c o with fnOk := fnIn c [1], b := rd [.u] .b32 })
  | .waitphVin c o => some (viewR c o, { fm c .l o.x with fnOk := fnIn c [2], b := rd [.u] .b32 })
  | .waitphVout c o => some (viewR c o, { fm c .l o.x with fnOk := fnIn c [3], b := rd [.u] .b32 })
  | .waitphBankFifo c o => some (viewR c o, { fm c .l o.x with fnOk := 4 ≤ c.fn.toNat && c.fn.toNat < 12, b := rd [.u] .b32 })
  | .phaseWaitComplete _ => none
  | .barq c o => some (viewR c o, { fm c .l 0 with fnOk := c.fn.toNat < 4, d := wr [.s] .ui32, a := objFld o.x, resOk := o.x.toNat < 2, lat := .vary })
  | .rinit c o => some (viewR c o, { objForm c o with b := objFld o.x, c := objFld o.x, e := rd [.u] .b32 })
  | .rawait c o => some (viewR c o, { objForm c o with d := wr [.s, .none] .ui32 })
  | .rput c o => some (viewR c o, { engForm c o with a := rd [.u] .ui32, b := sp, c := blockS 4, varOk := o.x.toNat / 4 % 4 ≠ 0, resOk := engX o.x && c.sc ≠ .system, hint := true })
  | .rrel c o => some (viewR c o, objForm c o)
  | .seminc c o => some (viewR c o, { objForm c o with d := wr [.s, .none] .ui32, b := rd [.u] .b32 })
  | .semdec c o => some (viewR c o, { objForm c o with d := wr [.s, .none] .ui32, b := rd [.u] .b32 })
  | .sfence c o => some (viewR c o, fm c .l o.x)
  | .vpush c o => some (viewR c o, { fm c .l o.x with a := rd [.v] .b32, e := { wr [.p, .none] .b32 with gather := true } })
  | .vpop c o => some (viewR c o, { fm c .l o.x with d := wr [.v] .b32, e := { wr [.p, .none] .b32 with gather := true }, lat := .vary })
  | .vfree c o => some (viewR c o, { fm c .l o.x with fnOk := c.fn.toNat < 12, d := wr [.s] .ui32, lat := .vary })
  | .fpush c o => some (viewR c o, { fm c .l o.x with fnOk := c.fn.toNat < 4, a := rd [.v] .b32, e := { wr [.p, .none] .b32 with gather := true } })
  | .fpop c o => some (viewR c o, { fm c .l o.x with fnOk := c.fn.toNat < 4, d := wr [.v] .b32, e := { wr [.p, .none] .b32 with gather := true }, lat := .vary })
  | .bankmodeCmin c o => some (viewR c o, { fm c .l o.x with a := rd [.u] .b32 })
  | .bankmodeRelease c o => some (viewR c o, { fm c .l o.x with fnOk := fnIn c [1] })
  | .mloop c o => some (viewR c o, { mxForm c o.x with a := rd [.u] .ui32, b := rd [.u] .ui32, c := blockS 6, resOk := mxX o.x 0x01C })
  | .mloopj c o => some (viewR c o, { mxForm c o.x with a := rd [.u] .ui32, b := rd [.u] .ui32, c := blockS 8, resOk := mxX o.x 0x01C })
  | .mloops c o => some (viewR c o, { mxForm c o.x with fnOk := c.fn.toNat < 4, a := rd [.u] .ui32, b := rd [.u] .ui32, c := blockS 10, resOk := mxX o.x 0x03C })
  | .mzero c o => some (viewR c o, { mxForm c o.x with a := rd [.u] .b32, b := rd [.u] .b32, resOk := mxX o.x 0x00C })
  | .mrd c o => some (viewR c o, { fm c .l o.x with fnOk := c.fn.toNat < 3, d := blockV true (2 ^ c.fn.toNat), a := rd [.u] .b32, upper := true, lat := .vary })
  | .mwr c o => some (viewR c o, { fm c .l o.x with fnOk := c.fn.toNat < 3, d := blockV false (2 ^ c.fn.toNat), a := rd [.u] .b32, upper := true })
  | .mscale c o => some (viewR c o, { fm c .l 0 with fnOk := fnIn c [0, 1, 2, 4, 5, 6], tyOk := tyIn c [.f32], a := rd [.u] .ui32, b := rd [.val] .f32, resOk := xMode o.x, upper := true })
  | .prune c o => some (viewR c o, { fm c .v o.x with fnOk := c.fn.toNat < 4, tyOk := tyIn c [.bf16], d := wr [.v] .bf16, a := rd [.v] .bf16, b := rd [.v] .bf16, e := { blockS (if c.fn.toNat % 2 = 0 then 2 else 4) with dst := true, gather := true }, lat := .fixed 8 })
  | .isect c o => some (viewR c o, { fm c .v o.x with d := wr [.v] .b32, a := rd [.val] .b32, b := rd [.val] .b32, e := { wr [.md, .none] .b32 with gather := true }, lat := .fixed 4 })
  | .rank c o => some (viewR c o, { fm c .v o.x with d := wr [.v] .b32, a := rd [.val] .b32, b := rd [.val] .ui32, lat := .fixed 4 })
  | .idot4 c o => some (viewR c o, { fm c .v o.x with fnOk := fnIn c [0, 1, 2, 4, 5, 6], tyOk := tyIn c [.i8x4], d := wr [.v] .i32, a := rd [.val] .i8x4, b := rd [.val] .i8x4, c := rd [.val] .i32, lat := .fixed 6 })
  | .mqstatFlags c o => some (viewR c o, { fm c .l o.x with d := wr [.s] .ui32, upper := true, lat := .vary })
  | .mqstatClr c o => some (viewR c o, { fm c .l o.x with fnOk := fnIn c [1], d := wr [.s] .ui32, upper := true, lat := .vary })
  | .mqstatDepth c o => some (viewR c o, { fm c .l o.x with fnOk := fnIn c [2], d := wr [.s] .ui32, upper := true, lat := .vary })
  | .csrr c o => some (viewI c o, { fm c .c 0 with d := wr [.s] (csrTy o.imm.toNat), resOk := o.imm.toNat < 4096, varOk := (csrWidth o.imm.toNat).isSome, priv := csrPriv o.imm.toNat false, lat := .vary })
  | .csrw c o => some (viewI c o, { fm c .c 0 with a := (if csrWidth o.imm.toNat == some 64 then sp else rd [.u] .b32), resOk := o.imm.toNat < 4096, varOk := csrWritable o.imm.toNat, priv := csrPriv o.imm.toNat true })
  | .csrxSet c o => some (viewR c o, csrxForm c o 0)
  | .csrxClr c o => some (viewR c o, csrxForm c o 1)
  | .csrxSwap c o => some (viewR c o, csrxForm c o 2)
  | .srseedWrite c o => some (viewI c o, { fm c .c 0 with a := (if csrWidth o.imm.toNat == some 64 then sp else rd [.u] .b32), resOk := o.imm.toNat < 4096, varOk := csrWritable o.imm.toNat, priv := csrPriv o.imm.toNat true })
  | .wdogWrite c o => some (viewI c o, { fm c .c 0 with a := (if csrWidth o.imm.toNat == some 64 then sp else rd [.u] .b32), resOk := o.imm.toNat < 4096, varOk := csrWritable o.imm.toNat, priv := csrPriv o.imm.toNat true })
  | .injcWrite c o => some (viewI c o, { fm c .c 0 with a := (if csrWidth o.imm.toNat == some 64 then sp else rd [.u] .b32), resOk := o.imm.toNat < 4096, varOk := csrWritable o.imm.toNat, priv := csrPriv o.imm.toNat true })
  | .tlbinvRange c o => some (viewR c o, { fm c .c o.x with a := sp, b := rd [.u] .b32, priv := true })
  | .tlbinvAll c o => some (viewR c o, { fm c .c o.x with fnOk := fnIn c [1], priv := true })
  | .cacheopDrop c o => some (viewR c o, { fm c .c o.x with a := sp, b := rd [.u] .b32 })
  | .cacheopDropall c o => some (viewR c o, { fm c .c o.x with fnOk := fnIn c [1] })
  | .pgreqGate c o => some (viewR c o, { fm c .c o.x with d := wr [.s] .ui32, a := rd [.u] .b32, priv := true })
  | .pgreqUngate c o => some (viewR c o, { fm c .c o.x with fnOk := fnIn c [1], d := wr [.s] .ui32, a := rd [.u] .b32, priv := true })
  | .gsave c o => some (viewR c o, { fm c .c o.x with d := wr [.s] .ui32, a := sp, priv := true })
  | .grest c o => some (viewR c o, { fm c .c o.x with a := sp, priv := true })
  | .clockCyc c o => some (viewR c o, { fm c .c o.x with d := wr [.s] .i64 })
  | .clockNs c o => some (viewR c o, { fm c .c o.x with fnOk := fnIn c [1], d := wr [.s] .i64 })
  | .clockEpoch c o => some (viewR c o, { fm c .c o.x with fnOk := fnIn c [2], d := wr [.s] .ui32 })
  | .bkpt c o => some (viewR c o, fm c .c 0)
  | .instructionFetch _ => none
  | .lineRefetch _ => none
  | .loadDataDelivery _ _ _ => none
  | .atomicPerform _ _ => none
  | .reductionPerform _ _ => none
  | .pageWalk _ => none
  | .walkEntryRead _ => none
  | .adUpdate _ => none
  | .peerTableRead _ => none
  | .peerAdmissionReply _ _ => none
  | .peerQueryTimeout _ => none
  | .invalidationComplete _ => none
  | .tilePretranslate _ => none
  | .tileStep _ => none
  | .landStep _ _ => none
  | .ycopyLineStep _ _ _ => none
  | .gatherIndexRead _ _ _ => none
  | .gatherRowStep _ _ _ => none
  | .rputClaim _ => none
  | .yfenceRelease _ => none
  | .kStep _ _ => none
  | .mzeroLineStep _ _ => none
  | .jointStart _ => none
  | .jointMismatchTimeout _ => none
  | .jointCompletion _ => none
  | .engineTermination _ => none
  | .epochEnd _ => none
  | .epochConfirmation _ => none
  | .landingBufferDrain _ => none
  | .egressRelease _ => none
  | .strikeReport _ => none
  | .rollbackResume _ => none
  | .scrubComplete _ => none
  | .l2Refetch _ => none
  | .timingReplay _ => none
  | .droopTrip _ => none
  | .droopExit _ => none
  | .placement _ => none
  | .preemptionVictimChoice => none
  | .swapOut _ => none
  | .workgroupSave _ => none
  | .swapResume _ => none
  | .bankReturnTimeout _ _ => none
  | .buckerFullGroup _ _ _ => none
  | .buckerPartialGroup _ _ _ => none
  | .workgroupTermination _ => none
  | .unitCompletion _ _ => none
  | .trapDelivery _ => none
  | .watchdogWait _ => none
  | .watchdogPeer _ => none
  | .watchdogRun _ => none
  | .marketClear _ => none
  | .balanceMeasurement _ => none
  | .coreGate _ => none
  | .columnGate _ => none
  | .ungateReady _ => none
  | .idleEntry => none
  | .deviceWake => none
  | .wakeComplete => none
  | .peerAccess _ => none
  | .peerRefusalReply _ => none
  | .peerWriteAck _ => none
  | .peerCopyExpiry _ => none
  | .peerFailed _ => none
  | .laneShed _ _ => none
  | .retrainComplete _ => none
  | .upshiftTry _ _ => none
  | .linkRecoverySuccess _ => none
  | .linkRecoveryAbandon _ => none
  | .connectionReestablished _ => none
  | .writeVa _ => none
  | .writePa _ => none
  | .readVa _ => none
  | .readPa _ => none
  | .launch _ => none
  | .resume _ => none
  | .cancelCommand _ => none
  | .inval _ => none
  | .ctxsave _ => none
  | .ctxrun _ => none
  | .ctxset _ => none
  | .seqquery _ => none
  | .ctxdesc _ => none
  | .power _ => none
  | .gate _ => none
  | .cmin _ => none
  | .counters _ => none
  | .link _ => none
  | .selftest _ => none
  | .selftestDone _ => none
  | .attest _ => none
  | .fwload _ => none
  | .fwstart _ => none
  | .firmwareReady => none
  | .reset _ => none
  | .resetPin => none
  | .bootRomReady _ => none
  | .moduleSupplyOff => none
  | .mrstNAssert => none
  | .overTemperature => none

/-! ### The static checks of 07 R168 -/

/-- Every field with its operand. -/
def fieldOps (v : View) (f : Form) : List (Fld × Operand) :=
  [(f.d, v.d), (f.a, v.a), (f.b, v.b), (f.c, v.c3), (f.e, v.e)]

/-- Check 3, reserved-field: nothing of the list of R168 holds (log entry 43). -/
def reservedOk (v : View) (f : Form) : Bool :=
  v.c.set != 6 && v.c.sc != .rsv && v.z == 0 && f.resOk && (f.hint || v.c.ch == .normal) &&
  (fieldOps v f).all fun (fl, o) => o != .rsv && (fl.cls != [.none] || o == .none)

/-- Registers the fields of one role name. -/
def roleRegs (v : View) (f : Form) (p : Fld → Bool) : List RegName :=
  ((fieldOps v f).filter fun (fl, _) => p fl).flatMap fun (fl, o) => fl.regs o

/-- Destination registers. -/
def dstRegs (v : View) (f : Form) : List RegName := roleRegs v f (·.dst)
/-- Source registers. -/
def srcRegs (v : View) (f : Form) : List RegName := roleRegs v f fun fl => !fl.dst || fl.alsoRead

/-- No register is named by two destinations. -/
def dstDistinct (v : View) (f : Form) : Bool :=
  !((f.d.regs v.d).any fun r => f.d.dst && f.e.dst && (f.e.regs v.e).contains r)

/-- A scalar, predicate or map destination admits no vector or walker source, but where it gathers, or where the form's table names a
walker, as WSTAT's does (07 R156, 10 R229, log entry 42). -/
def uniformDstOk (v : View) (f : Form) : Bool :=
  (fieldOps v f).all fun (fl, o) =>
    !(fl.dst && !fl.gather && (o.isSca || o.isPred || o.isMap)) ||
    (fieldOps v f).all fun (fs, p) => fs.dst || fs.cls == [.w] || !(p.isVec || p.isWalk)

/-- Check 4, illegal-variant, for what does not depend on the core. -/
def variantOk (v : View) (f : Form) : Bool :=
  f.fnOk && f.tyOk && f.varOk && dstDistinct v f && uniformDstOk v f &&
  (fieldOps v f).all fun (fl, o) => fl.admits o

/-- Vector registers at or above NREG (02 R34). -/
def regRangeOk (nreg : Nat) (v : View) (f : Form) : Bool :=
  (fieldOps v f).all fun (fl, o) => (fl.regs o).all fun
    | .v n => n < nreg
    | _ => true

/-- Checks 2 to 6 of 07 R168 in their order: the first that fails names the fault. -/
def staticFault (isUpper handler : Bool) (nreg : Nat) (v : View) (f : Form) : Option Cause :=
  if f.upper && !isUpper then some .illegalOpcode
  else if !reservedOk v f then some .reservedField
  else if !variantOk v f || (f.localUpper && !isUpper) then some .illegalVariant
  else if f.priv && !handler then some .privilege
  else if !regRangeOk nreg v f then some .registerRange
  else none

/-- Walkers that the instruction reads (07 R159). -/
def walkersRead (v : View) (f : Form) : List (Fin 8) :=
  (fieldOps v f).filterMap fun (fl, o) =>
    match o with
    | .walk n => if fl.touch then some n else none
    | _ => none

end Machine
end Sys2Proof
end

