-- ==== Sys2Proof/Decode.lean ====
section
/-!
DEFINITION. Decoding of the 96-bit instruction word, total on any word and any bytes, and the encoder beside it
(07 R142, Tables 7.4, 7.5, 7.6 and 7.10).
-/

namespace Sys2Proof

open Sys2Proof.Machine (tyOfNat tyNat fnIn)

/-! ### Fields -/

/-- Operand specifiers, Table 7.6. -/
def operandOf (b : BitVec 8) : Operand :=
  let n := b.toNat
  if n < 0x80 then .vec (Fin.ofNat 128 n)
  else if n < 0xC0 then .sca (Fin.ofNat 64 (n - 0x80))
  else if n < 0xD0 then .map (Fin.ofNat 16 (n - 0xC0))
  else if n < 0xD8 then .walk (Fin.ofNat 8 (n - 0xD0))
  else if n < 0xE0 then .pred (Fin.ofNat 8 (n - 0xD8))
  else if n < 0xE8 then
    .ident (match n - 0xE0 with
      | 0 => .lane | 1 => .thread | 2 => .group | 3 => .wg | 4 => .nwg | 5 => .core | 6 => .column | _ => .ngroup)
  else if n < 0xF8 then .int (Fin.ofNat 16 (n - 0xE8))
  else match n - 0xF8 with
    | 0 => .minusOne | 1 => .fOne | 2 => .fHalf | 3 => .fTwo | 4 => .fMinusOne | 5 => .signBit | 6 => .rsv | _ => .none

/-- The specifier of an operand, Table 7.6. -/
def operandBits : Operand → BitVec 8
  | .vec n => BitVec.ofNat 8 n.val
  | .sca n => BitVec.ofNat 8 (0x80 + n.val)
  | .map n => BitVec.ofNat 8 (0xC0 + n.val)
  | .walk n => BitVec.ofNat 8 (0xD0 + n.val)
  | .pred n => BitVec.ofNat 8 (0xD8 + n.val)
  | .ident .lane => 0xE0 | .ident .thread => 0xE1 | .ident .group => 0xE2 | .ident .wg => 0xE3
  | .ident .nwg => 0xE4 | .ident .core => 0xE5 | .ident .column => 0xE6 | .ident .ngroup => 0xE7
  | .int n => BitVec.ofNat 8 (0xE8 + n.val)
  | .minusOne => 0xF8 | .fOne => 0xF9 | .fHalf => 0xFA | .fTwo => 0xFB | .fMinusOne => 0xFC
  | .signBit => 0xFD | .rsv => 0xFE | .none => 0xFF

/-- A guard field: [3] negate, [2:0] predicate (Table 7.4). -/
def guardOf (b : BitVec 4) : Guard := { neg := b.getLsbD 3, p := Fin.ofNat 8 b.toNat }
def guardBits (g : Guard) : BitVec 4 := BitVec.ofBool g.neg ++ BitVec.ofNat 3 g.p.val

/-- CH, bits [71:70]. -/
def hintOf (b : BitVec 2) : Hint :=
  match b.toNat with | 0 => .normal | 1 => .streaming | 2 => .keep | _ => .noAlloc
def hintBits : Hint → BitVec 2 | .normal => 0 | .streaming => 1 | .keep => 2 | .noAlloc => 3

/-- SC, bits [52:50] (Table 4.3). -/
def scopeOf (b : BitVec 3) : Scope :=
  match b.toNat with
  | 0 => .thread | 1 => .group | 2 => .wg | 3 => .cluster | 4 => .die | 5 => .device | 6 => .system | _ => .rsv
def scopeBits : Scope → BitVec 3
  | .thread => 0 | .group => 1 | .wg => 2 | .cluster => 3 | .die => 4 | .device => 5 | .system => 6 | .rsv => 7

/-- TY, bits [56:53] (07 R165). -/
def tyOf (b : BitVec 4) : Ty := tyOfNat b.toNat
def tyBits (t : Ty) : BitVec 4 := BitVec.ofNat 4 (tyNat t)

/-! ### The word -/

/-- The common fields of a word, Table 7.4. -/
def ctlOf (w : InstrWord) : Ctl :=
  { stl := w.extractLsb' 90 6, set := w.extractLsb' 87 3, wait := w.extractLsb' 81 6
    yld := w.extractLsb' 80 1 == 1#1, g1 := guardOf (w.extractLsb' 76 4), g2 := guardOf (w.extractLsb' 72 4)
    ch := hintOf (w.extractLsb' 70 2), mc := w.extractLsb' 69 1 == 1#1, fn := w.extractLsb' 57 4
    ty := tyOf (w.extractLsb' 53 4), sc := scopeOf (w.extractLsb' 50 3) }

/-- OPC, bits [68:61]. -/
def opcOf (w : InstrWord) : BitVec 8 := w.extractLsb' 61 8
/-- The operand area, bits [49:0]. -/
def areaOf (w : InstrWord) : BitVec 50 := w.extractLsb' 0 50

/-- Format R, Table 7.5. -/
def opsR (a : BitVec 50) : OpsR :=
  { d := operandOf (a.extractLsb' 42 8), a := operandOf (a.extractLsb' 34 8), b := operandOf (a.extractLsb' 26 8)
    c := operandOf (a.extractLsb' 18 8), e := operandOf (a.extractLsb' 10 8), x := a.extractLsb' 0 10 }
/-- Format I, Table 7.5. -/
def opsI (a : BitVec 50) : OpsI :=
  { d := operandOf (a.extractLsb' 42 8), a := operandOf (a.extractLsb' 34 8), imm := a.extractLsb' 2 32
    z := a.extractLsb' 0 2 }
/-- Format M, Table 7.5. -/
def opsM (a : BitVec 50) : OpsM :=
  { d := operandOf (a.extractLsb' 42 8), a := operandOf (a.extractLsb' 34 8), b := operandOf (a.extractLsb' 26 8)
    imm := a.extractLsb' 2 24, z := a.extractLsb' 0 2 }

/-- The instruction of an OPC (Table 7.10). Where FN, or CSRW's number, selects the row of the opcode table, a value no row
lists decodes to the first row, whose form then raises the illegal-variant fault (07 R168). -/
def decodeOpc (opc : Nat) (c : Ctl) (a : BitVec 50) : Option Instr :=
  match opc with
  | 0x00 => some (.nop c (opsR a))
  | 0x01 => some (.bra c (opsI a))
  | 0x02 => some (if c.fn.toNat = 1 then .brxRel c (opsR a) else .brxAbs c (opsR a))
  | 0x03 => some (.call c (opsI a))
  | 0x04 => some (.ret c (opsR a))
  | 0x05 => some (.brm c (opsI a))
  | 0x06 => some (.brw c (opsR a))
  | 0x07 => some (.brdec c (opsI a))
  | 0x08 => some (.mcall c (opsR a))
  | 0x09 => some (.exit c (opsR a))
  | 0x0a => some (.yield c (opsR a))
  | 0x0b => some (.trap c (opsI a))
  | 0x0c => some (.rft c (opsR a))
  | 0x0d => some (.spawn c (opsR a))
  | 0x0e => some (.fork c (opsR a))
  | 0x0f => some (.regroup c (opsR a))
  | 0x10 => some (.cancel c (opsR a))
  | 0x11 => some (if c.fn.toNat = 1 then .cntrdStatus c (opsR a) else .cntrdCount c (opsR a))
  | 0x20 => some (.mand c (opsR a))
  | 0x21 => some (.mor c (opsR a))
  | 0x22 => some (.mandn c (opsR a))
  | 0x23 => some (.mxor c (opsR a))
  | 0x24 => some (.mnot c (opsR a))
  | 0x25 => some (.mmov c (opsR a))
  | 0x26 => some (.mpop c (opsR a))
  | 0x27 => some (.mfind c (opsR a))
  | 0x28 => some (if c.fn.toNat = 1 then .msetFirst c (opsR a) else .msetPair c (opsR a))
  | 0x29 => some (.mget c (opsR a))
  | 0x2a => some (.mtst c (opsR a))
  | 0x2b => some (.mof c (opsR a))
  | 0x2c => some (.restrict c (opsR a))
  | 0x2d => some (.merge c (opsR a))
  | 0x2e => some (.fill c (opsR a))
  | 0x2f => some (.compact c (opsR a))
  | 0x30 => some (.pull c (opsR a))
  | 0x31 => some (.push c (opsR a))
  | 0x32 => some (.bcast c (opsR a))
  | 0x33 => some (.vote c (opsR a))
  | 0x34 => some (.reduce c (opsR a))
  | 0x35 => some (.scan c (opsR a))
  | 0x36 => some (if c.fn.toNat = 1 then .lanemapTid c (opsR a) else .lanemapPos c (opsR a))
  | 0x40 => some (.iadd c (opsR a))
  | 0x41 => some (.isub c (opsR a))
  | 0x42 => some (.imul c (opsR a))
  | 0x43 => some (.imulh c (opsR a))
  | 0x44 => some (.imad c (opsR a))
  | 0x45 => some (.idiv c (opsR a))
  | 0x46 => some (.irem c (opsR a))
  | 0x47 => some (.imin c (opsR a))
  | 0x48 => some (.imax c (opsR a))
  | 0x49 => some (.iabs c (opsR a))
  | 0x4a => some (.ineg c (opsR a))
  | 0x4b => some (.iadds c (opsR a))
  | 0x4c => some (.icmp c (opsR a))
  | 0x4d => some (.lea c (opsR a))
  | 0x4e => some (.mov c (opsR a))
  | 0x4f => some (.movi c (opsI a))
  | 0x50 => some (.and c (opsR a))
  | 0x51 => some (.or c (opsR a))
  | 0x52 => some (.xor c (opsR a))
  | 0x53 => some (.andn c (opsR a))
  | 0x54 => some (.tril c (opsR a))
  | 0x55 => some (.shl c (opsR a))
  | 0x56 => some (.shr c (opsR a))
  | 0x57 => some (.sar c (opsR a))
  | 0x58 => some (.fshl c (opsR a))
  | 0x59 => some (.fshr c (opsR a))
  | 0x5a => some (.bfx c (opsR a))
  | 0x5b => some (.bfi c (opsR a))
  | 0x5c => some (.popc c (opsR a))
  | 0x5d => some (.clz c (opsR a))
  | 0x5e => some (.ctz c (opsR a))
  | 0x5f => some (.brev c (opsR a))
  | 0x60 => some (.fadd c (opsR a))
  | 0x61 => some (.fsub c (opsR a))
  | 0x62 => some (.fmul c (opsR a))
  | 0x63 => some (.ffma c (opsR a))
  | 0x64 => some (.fmin c (opsR a))
  | 0x65 => some (.fmax c (opsR a))
  | 0x66 => some (.fcmp c (opsR a))
  | 0x67 => some (.frcp c (opsR a))
  | 0x68 => some (.frsq c (opsR a))
  | 0x69 => some (.fsqrt c (opsR a))
  | 0x6a => some (.fdiv c (opsR a))
  | 0x6b => some (.fexp2 c (opsR a))
  | 0x6c => some (.flog2 c (opsR a))
  | 0x6d => some (.fsin c (opsR a))
  | 0x6e => some (.fcos c (opsR a))
  | 0x6f => some (.ftanh c (opsR a))
  | 0x70 => some (.frnd c (opsR a))
  | 0x71 => some (if c.fn.toNat = 1 then .fclassM c (opsR a) else .fclass c (opsR a))
  | 0x72 => some (.fscale c (opsR a))
  | 0x73 => some (.fdot2 c (opsR a))
  | 0x74 => some (.cvt c (opsR a))
  | 0x75 => some (.cvtb c (opsR a))
  | 0x76 => some (.decb c (opsR a))
  | 0x80 => some (.ld c (opsM a))
  | 0x81 => some (.st c (opsM a))
  | 0x82 => some (.ldm c (opsR a))
  | 0x83 => some (.stm c (opsR a))
  | 0x84 => some (.wbind c (opsR a))
  | 0x85 => some (.wstat c (opsR a))
  | 0x86 => some (.atom c (opsR a))
  | 0x87 => some (.atomc c (opsR a))
  | 0x88 => some (.red c (opsR a))
  | 0x89 => some (.pref c (opsR a))
  | 0x8a => some (if c.fn.toNat = 1 then .pinOff c (opsR a) else .pinOn c (opsR a))
  | 0x8b => some (.tbind c (opsR a))
  | 0x8c => some (.tinfo c (opsR a))
  | 0x8d => some (.tld c (opsR a))
  | 0x8e => some (.tst c (opsR a))
  | 0x8f => some (.ycopy c (opsR a))
  | 0x90 => some (.ygath c (opsR a))
  | 0x91 => some (.yscat c (opsR a))
  | 0x92 => some (.yfence c (opsR a))
  | 0x93 => some (.barinit c (opsR a))
  | 0x94 => some (if c.fn.toNat = 1 then .arriveBytes c (opsR a) else .arrive c (opsR a))
  | 0x95 => some (if c.fn.toNat = 1 then .waitphSwap c (opsR a) else if c.fn.toNat = 2 then .waitphVin c (opsR a) else if c.fn.toNat = 3 then .waitphVout c (opsR a) else if 4 ≤ c.fn.toNat ∧ c.fn.toNat ≤ 11 then .waitphBankFifo c (opsR a) else .waitph c (opsR a))
  | 0x96 => some (.barq c (opsR a))
  | 0x97 => some (.rinit c (opsR a))
  | 0x98 => some (.rawait c (opsR a))
  | 0x99 => some (.rput c (opsR a))
  | 0x9a => some (.rrel c (opsR a))
  | 0x9b => some (.seminc c (opsR a))
  | 0x9c => some (.semdec c (opsR a))
  | 0x9d => some (.sfence c (opsR a))
  | 0x9e => some (.vpush c (opsR a))
  | 0x9f => some (.vpop c (opsR a))
  | 0xa0 => some (.vfree c (opsR a))
  | 0xa1 => some (.fpush c (opsR a))
  | 0xa2 => some (.fpop c (opsR a))
  | 0xa3 => some (if c.fn.toNat = 1 then .bankmodeRelease c (opsR a) else .bankmodeCmin c (opsR a))
  | 0xb0 => some (.mloop c (opsR a))
  | 0xb1 => some (.mloopj c (opsR a))
  | 0xb2 => some (.mloops c (opsR a))
  | 0xb3 => some (.mzero c (opsR a))
  | 0xb4 => some (.mrd c (opsR a))
  | 0xb5 => some (.mwr c (opsR a))
  | 0xb6 => some (.mscale c (opsR a))
  | 0xb7 => some (.prune c (opsR a))
  | 0xb8 => some (.isect c (opsR a))
  | 0xb9 => some (.rank c (opsR a))
  | 0xba => some (.idot4 c (opsR a))
  | 0xbb => some (if c.fn.toNat = 1 then .mqstatClr c (opsR a) else if c.fn.toNat = 2 then .mqstatDepth c (opsR a) else .mqstatFlags c (opsR a))
  | 0xc0 => some (.csrr c (opsI a))
  | 0xc1 => some (if (opsI a).imm = 0x11 then .srseedWrite c (opsI a) else if (opsI a).imm = 0x30 then .wdogWrite c (opsI a) else if (opsI a).imm = 0x41 then .injcWrite c (opsI a) else .csrw c (opsI a))
  | 0xc2 => some (if c.fn.toNat = 1 then .csrxClr c (opsR a) else if c.fn.toNat = 2 then .csrxSwap c (opsR a) else .csrxSet c (opsR a))
  | 0xc3 => some (if c.fn.toNat = 1 then .tlbinvAll c (opsR a) else .tlbinvRange c (opsR a))
  | 0xc4 => some (if c.fn.toNat = 1 then .cacheopDropall c (opsR a) else .cacheopDrop c (opsR a))
  | 0xc5 => some (if c.fn.toNat = 1 then .pgreqUngate c (opsR a) else .pgreqGate c (opsR a))
  | 0xc6 => some (.gsave c (opsR a))
  | 0xc7 => some (.grest c (opsR a))
  | 0xc8 => some (if c.fn.toNat = 1 then .clockNs c (opsR a) else if c.fn.toNat = 2 then .clockEpoch c (opsR a) else .clockCyc c (opsR a))
  | 0xc9 => some (.bkpt c (opsR a))
  | _ => none

/-- Decoding of a word; none for an unassigned OPC (07 R166). -/
def decodeWord (w : InstrWord) : Option Instr := decodeOpc (opcOf w).toNat (ctlOf w) (areaOf w)

/-- Why bytes are not an instruction. -/
inductive Reject
  | tooShort          -- fewer than 12 bytes
  | illegalOpcode     -- an unassigned OPC (07 R166)
  deriving DecidableEq, Repr

/-- Bytes, lowest first, as a little-endian number (00 R2). -/
def leNat : List Byte → Nat
  | [] => 0
  | b :: bs => b.toNat + 256 * leNat bs

/-- The n bytes of a number, lowest first (00 R2). -/
def leBytes : Nat → Nat → List Byte
  | 0, _ => []
  | n + 1, v => BitVec.ofNat 8 v :: leBytes n (v / 256)

/-- Decodes the instruction at the head of a byte string and gives the rest (07 R142). -/
def decode (bs : List Byte) : Except Reject (Instr × List Byte) :=
  if bs.length < 12 then .error .tooShort
  else match decodeWord (BitVec.ofNat 96 (leNat (bs.take 12))) with
    | some i => .ok (i, bs.drop 12)
    | none => .error .illegalOpcode

/-- The instruction whose bits are `w`, numbered as spec/opcode_table.json numbers them, its word laid out as the device
stores it and given to the decoder. -/
def decodeTableWord (_nbits w : Nat) : Option Instr :=
  match decode (leBytes 12 w) with
  | .ok (i, _) => some i
  | .error _ => none

/-! ### The encoder -/

def areaR (o : OpsR) : BitVec 50 :=
  operandBits o.d ++ (operandBits o.a ++ (operandBits o.b ++ (operandBits o.c ++ (operandBits o.e ++ o.x))))
def areaI (o : OpsI) : BitVec 50 := operandBits o.d ++ (operandBits o.a ++ (o.imm ++ o.z))
def areaM (o : OpsM) : BitVec 50 := operandBits o.d ++ (operandBits o.a ++ (operandBits o.b ++ (o.imm ++ o.z)))

/-- The fields in their order from bit 95 down (Table 7.4). -/
def word (c : Ctl) (opc : BitVec 8) (area : BitVec 50) : InstrWord :=
  c.stl ++ (c.set ++ (c.wait ++ (BitVec.ofBool c.yld ++ (guardBits c.g1 ++ (guardBits c.g2 ++ (hintBits c.ch ++
    (BitVec.ofBool c.mc ++ (opc ++ (c.fn ++ (tyBits c.ty ++ (scopeBits c.sc ++ area)))))))))))

/-- The word of an instruction; none for a step that has no word. -/
def encode : Instr → Option InstrWord
  | .nop c o => some (word c 0x00 (areaR o))
  | .bra c o => some (word c 0x01 (areaI o))
  | .brxAbs c o => some (word c 0x02 (areaR o))
  | .brxRel c o => some (word c 0x02 (areaR o))
  | .call c o => some (word c 0x03 (areaI o))
  | .ret c o => some (word c 0x04 (areaR o))
  | .brm c o => some (word c 0x05 (areaI o))
  | .brw c o => some (word c 0x06 (areaR o))
  | .brdec c o => some (word c 0x07 (areaI o))
  | .mcall c o => some (word c 0x08 (areaR o))
  | .exit c o => some (word c 0x09 (areaR o))
  | .yield c o => some (word c 0x0a (areaR o))
  | .trap c o => some (word c 0x0b (areaI o))
  | .rft c o => some (word c 0x0c (areaR o))
  | .spawn c o => some (word c 0x0d (areaR o))
  | .fork c o => some (word c 0x0e (areaR o))
  | .regroup c o => some (word c 0x0f (areaR o))
  | .cancel c o => some (word c 0x10 (areaR o))
  | .cntrdCount c o => some (word c 0x11 (areaR o))
  | .cntrdStatus c o => some (word c 0x11 (areaR o))
  | .mand c o => some (word c 0x20 (areaR o))
  | .mor c o => some (word c 0x21 (areaR o))
  | .mandn c o => some (word c 0x22 (areaR o))
  | .mxor c o => some (word c 0x23 (areaR o))
  | .mnot c o => some (word c 0x24 (areaR o))
  | .mmov c o => some (word c 0x25 (areaR o))
  | .mpop c o => some (word c 0x26 (areaR o))
  | .mfind c o => some (word c 0x27 (areaR o))
  | .msetPair c o => some (word c 0x28 (areaR o))
  | .msetFirst c o => some (word c 0x28 (areaR o))
  | .mget c o => some (word c 0x29 (areaR o))
  | .mtst c o => some (word c 0x2a (areaR o))
  | .mof c o => some (word c 0x2b (areaR o))
  | .restrict c o => some (word c 0x2c (areaR o))
  | .merge c o => some (word c 0x2d (areaR o))
  | .fill c o => some (word c 0x2e (areaR o))
  | .compact c o => some (word c 0x2f (areaR o))
  | .pull c o => some (word c 0x30 (areaR o))
  | .push c o => some (word c 0x31 (areaR o))
  | .bcast c o => some (word c 0x32 (areaR o))
  | .vote c o => some (word c 0x33 (areaR o))
  | .reduce c o => some (word c 0x34 (areaR o))
  | .scan c o => some (word c 0x35 (areaR o))
  | .lanemapPos c o => some (word c 0x36 (areaR o))
  | .lanemapTid c o => some (word c 0x36 (areaR o))
  | .iadd c o => some (word c 0x40 (areaR o))
  | .isub c o => some (word c 0x41 (areaR o))
  | .imul c o => some (word c 0x42 (areaR o))
  | .imulh c o => some (word c 0x43 (areaR o))
  | .imad c o => some (word c 0x44 (areaR o))
  | .idiv c o => some (word c 0x45 (areaR o))
  | .irem c o => some (word c 0x46 (areaR o))
  | .imin c o => some (word c 0x47 (areaR o))
  | .imax c o => some (word c 0x48 (areaR o))
  | .iabs c o => some (word c 0x49 (areaR o))
  | .ineg c o => some (word c 0x4a (areaR o))
  | .iadds c o => some (word c 0x4b (areaR o))
  | .icmp c o => some (word c 0x4c (areaR o))
  | .lea c o => some (word c 0x4d (areaR o))
  | .mov c o => some (word c 0x4e (areaR o))
  | .movi c o => some (word c 0x4f (areaI o))
  | .and c o => some (word c 0x50 (areaR o))
  | .or c o => some (word c 0x51 (areaR o))
  | .xor c o => some (word c 0x52 (areaR o))
  | .andn c o => some (word c 0x53 (areaR o))
  | .tril c o => some (word c 0x54 (areaR o))
  | .shl c o => some (word c 0x55 (areaR o))
  | .shr c o => some (word c 0x56 (areaR o))
  | .sar c o => some (word c 0x57 (areaR o))
  | .fshl c o => some (word c 0x58 (areaR o))
  | .fshr c o => some (word c 0x59 (areaR o))
  | .bfx c o => some (word c 0x5a (areaR o))
  | .bfi c o => some (word c 0x5b (areaR o))
  | .popc c o => some (word c 0x5c (areaR o))
  | .clz c o => some (word c 0x5d (areaR o))
  | .ctz c o => some (word c 0x5e (areaR o))
  | .brev c o => some (word c 0x5f (areaR o))
  | .fadd c o => some (word c 0x60 (areaR o))
  | .fsub c o => some (word c 0x61 (areaR o))
  | .fmul c o => some (word c 0x62 (areaR o))
  | .ffma c o => some (word c 0x63 (areaR o))
  | .fmin c o => some (word c 0x64 (areaR o))
  | .fmax c o => some (word c 0x65 (areaR o))
  | .fcmp c o => some (word c 0x66 (areaR o))
  | .frcp c o => some (word c 0x67 (areaR o))
  | .frsq c o => some (word c 0x68 (areaR o))
  | .fsqrt c o => some (word c 0x69 (areaR o))
  | .fdiv c o => some (word c 0x6a (areaR o))
  | .fexp2 c o => some (word c 0x6b (areaR o))
  | .flog2 c o => some (word c 0x6c (areaR o))
  | .fsin c o => some (word c 0x6d (areaR o))
  | .fcos c o => some (word c 0x6e (areaR o))
  | .ftanh c o => some (word c 0x6f (areaR o))
  | .frnd c o => some (word c 0x70 (areaR o))
  | .fclass c o => some (word c 0x71 (areaR o))
  | .fclassM c o => some (word c 0x71 (areaR o))
  | .fscale c o => some (word c 0x72 (areaR o))
  | .fdot2 c o => some (word c 0x73 (areaR o))
  | .cvt c o => some (word c 0x74 (areaR o))
  | .cvtb c o => some (word c 0x75 (areaR o))
  | .decb c o => some (word c 0x76 (areaR o))
  | .ld c o => some (word c 0x80 (areaM o))
  | .st c o => some (word c 0x81 (areaM o))
  | .ldm c o => some (word c 0x82 (areaR o))
  | .stm c o => some (word c 0x83 (areaR o))
  | .wbind c o => some (word c 0x84 (areaR o))
  | .wstat c o => some (word c 0x85 (areaR o))
  | .atom c o => some (word c 0x86 (areaR o))
  | .atomc c o => some (word c 0x87 (areaR o))
  | .red c o => some (word c 0x88 (areaR o))
  | .pref c o => some (word c 0x89 (areaR o))
  | .pinOn c o => some (word c 0x8a (areaR o))
  | .pinOff c o => some (word c 0x8a (areaR o))
  | .tbind c o => some (word c 0x8b (areaR o))
  | .tinfo c o => some (word c 0x8c (areaR o))
  | .tld c o => some (word c 0x8d (areaR o))
  | .tst c o => some (word c 0x8e (areaR o))
  | .ycopy c o => some (word c 0x8f (areaR o))
  | .ygath c o => some (word c 0x90 (areaR o))
  | .yscat c o => some (word c 0x91 (areaR o))
  | .yfence c o => some (word c 0x92 (areaR o))
  | .barinit c o => some (word c 0x93 (areaR o))
  | .arrive c o => some (word c 0x94 (areaR o))
  | .arriveBytes c o => some (word c 0x94 (areaR o))
  | .waitph c o => some (word c 0x95 (areaR o))
  | .waitphSwap c o => some (word c 0x95 (areaR o))
  | .waitphVin c o => some (word c 0x95 (areaR o))
  | .waitphVout c o => some (word c 0x95 (areaR o))
  | .waitphBankFifo c o => some (word c 0x95 (areaR o))
  | .phaseWaitComplete _ => none
  | .barq c o => some (word c 0x96 (areaR o))
  | .rinit c o => some (word c 0x97 (areaR o))
  | .rawait c o => some (word c 0x98 (areaR o))
  | .rput c o => some (word c 0x99 (areaR o))
  | .rrel c o => some (word c 0x9a (areaR o))
  | .seminc c o => some (word c 0x9b (areaR o))
  | .semdec c o => some (word c 0x9c (areaR o))
  | .sfence c o => some (word c 0x9d (areaR o))
  | .vpush c o => some (word c 0x9e (areaR o))
  | .vpop c o => some (word c 0x9f (areaR o))
  | .vfree c o => some (word c 0xa0 (areaR o))
  | .fpush c o => some (word c 0xa1 (areaR o))
  | .fpop c o => some (word c 0xa2 (areaR o))
  | .bankmodeCmin c o => some (word c 0xa3 (areaR o))
  | .bankmodeRelease c o => some (word c 0xa3 (areaR o))
  | .mloop c o => some (word c 0xb0 (areaR o))
  | .mloopj c o => some (word c 0xb1 (areaR o))
  | .mloops c o => some (word c 0xb2 (areaR o))
  | .mzero c o => some (word c 0xb3 (areaR o))
  | .mrd c o => some (word c 0xb4 (areaR o))
  | .mwr c o => some (word c 0xb5 (areaR o))
  | .mscale c o => some (word c 0xb6 (areaR o))
  | .prune c o => some (word c 0xb7 (areaR o))
  | .isect c o => some (word c 0xb8 (areaR o))
  | .rank c o => some (word c 0xb9 (areaR o))
  | .idot4 c o => some (word c 0xba (areaR o))
  | .mqstatFlags c o => some (word c 0xbb (areaR o))
  | .mqstatClr c o => some (word c 0xbb (areaR o))
  | .mqstatDepth c o => some (word c 0xbb (areaR o))
  | .csrr c o => some (word c 0xc0 (areaI o))
  | .csrw c o => some (word c 0xc1 (areaI o))
  | .csrxSet c o => some (word c 0xc2 (areaR o))
  | .csrxClr c o => some (word c 0xc2 (areaR o))
  | .csrxSwap c o => some (word c 0xc2 (areaR o))
  | .srseedWrite c o => some (word c 0xc1 (areaI o))
  | .wdogWrite c o => some (word c 0xc1 (areaI o))
  | .injcWrite c o => some (word c 0xc1 (areaI o))
  | .tlbinvRange c o => some (word c 0xc3 (areaR o))
  | .tlbinvAll c o => some (word c 0xc3 (areaR o))
  | .cacheopDrop c o => some (word c 0xc4 (areaR o))
  | .cacheopDropall c o => some (word c 0xc4 (areaR o))
  | .pgreqGate c o => some (word c 0xc5 (areaR o))
  | .pgreqUngate c o => some (word c 0xc5 (areaR o))
  | .gsave c o => some (word c 0xc6 (areaR o))
  | .grest c o => some (word c 0xc7 (areaR o))
  | .clockCyc c o => some (word c 0xc8 (areaR o))
  | .clockNs c o => some (word c 0xc8 (areaR o))
  | .clockEpoch c o => some (word c 0xc8 (areaR o))
  | .bkpt c o => some (word c 0xc9 (areaR o))
  | .instructionFetch _ => none
  | .lineRefetch _ => none
  | .loadDataDelivery _ _ _ => none
  | .atomicPerform _ _ => none
  | .reductionPerform _ _ => none
  | .pageWalk _ => none
  | .walkEntryRead _ => none
  | .adUpdate _ => none
  | .peerTableRead _ => none
  | .peerAdmissionReply _ _ => none
  | .peerQueryTimeout _ => none
  | .invalidationComplete _ => none
  | .tilePretranslate _ => none
  | .tileStep _ => none
  | .landStep _ _ => none
  | .ycopyLineStep _ _ _ => none
  | .gatherIndexRead _ _ _ => none
  | .gatherRowStep _ _ _ => none
  | .rputClaim _ => none
  | .yfenceRelease _ => none
  | .kStep _ _ => none
  | .mzeroLineStep _ _ => none
  | .jointStart _ => none
  | .jointMismatchTimeout _ => none
  | .jointCompletion _ => none
  | .engineTermination _ => none
  | .epochEnd _ => none
  | .epochConfirmation _ => none
  | .landingBufferDrain _ => none
  | .egressRelease _ => none
  | .strikeReport _ => none
  | .rollbackResume _ => none
  | .scrubComplete _ => none
  | .l2Refetch _ => none
  | .timingReplay _ => none
  | .droopTrip _ => none
  | .droopExit _ => none
  | .placement _ => none
  | .preemptionVictimChoice => none
  | .swapOut _ => none
  | .workgroupSave _ => none
  | .swapResume _ => none
  | .bankReturnTimeout _ _ => none
  | .buckerFullGroup _ _ _ => none
  | .buckerPartialGroup _ _ _ => none
  | .workgroupTermination _ => none
  | .unitCompletion _ _ => none
  | .trapDelivery _ => none
  | .watchdogWait _ => none
  | .watchdogPeer _ => none
  | .watchdogRun _ => none
  | .marketClear _ => none
  | .balanceMeasurement _ => none
  | .coreGate _ => none
  | .columnGate _ => none
  | .ungateReady _ => none
  | .idleEntry => none
  | .deviceWake => none
  | .wakeComplete => none
  | .peerAccess _ => none
  | .peerRefusalReply _ => none
  | .peerWriteAck _ => none
  | .peerCopyExpiry _ => none
  | .peerFailed _ => none
  | .laneShed _ _ => none
  | .retrainComplete _ => none
  | .upshiftTry _ _ => none
  | .linkRecoverySuccess _ => none
  | .linkRecoveryAbandon _ => none
  | .connectionReestablished _ => none
  | .writeVa _ => none
  | .writePa _ => none
  | .readVa _ => none
  | .readPa _ => none
  | .launch _ => none
  | .resume _ => none
  | .cancelCommand _ => none
  | .inval _ => none
  | .ctxsave _ => none
  | .ctxrun _ => none
  | .ctxset _ => none
  | .seqquery _ => none
  | .ctxdesc _ => none
  | .power _ => none
  | .gate _ => none
  | .cmin _ => none
  | .counters _ => none
  | .link _ => none
  | .selftest _ => none
  | .selftestDone _ => none
  | .attest _ => none
  | .fwload _ => none
  | .fwstart _ => none
  | .firmwareReady => none
  | .reset _ => none
  | .resetPin => none
  | .bootRomReady _ => none
  | .moduleSupplyOff => none
  | .mrstNAssert => none
  | .overTemperature => none

/-- The 12 bytes of an instruction as it is stored (07 R142). -/
def encodeBytes (i : Instr) : Option (List Byte) := (encode i).map fun w => leBytes 12 w.toNat

/-! ### Command packets (21 R355, Table 21.1) -/

/-- The packet of a byte string: 16 header bytes, lowest first, then the payload. -/
def packetOf (bs : List Byte) : Option Packet :=
  if bs.length < 16 then none
  else
    let h : BitVec 128 := BitVec.ofNat 128 (leNat (bs.take 16))
    some { ver := h.extractLsb' 0 8, op := h.extractLsb' 8 8, rsv1 := h.extractLsb' 16 8, status := h.extractLsb' 24 8
           rsv0 := h.extractLsb' 32 8, ch := h.extractLsb' 40 8, len := h.extractLsb' 48 16, tag := h.extractLsb' 64 32
           seq := h.extractLsb' 96 32, payload := bs.drop 16 }

/-- The header of a packet. -/
def packetHead (p : Packet) : BitVec 128 :=
  p.seq ++ (p.tag ++ (p.len ++ (p.ch ++ (p.rsv0 ++ (p.status ++ (p.rsv1 ++ (p.op ++ p.ver)))))))

/-- The bytes of a packet. -/
def packetBytes (p : Packet) : List Byte := leBytes 16 (packetHead p).toNat ++ p.payload

end Sys2Proof
end

