-- ==== Sys2Proof/Machine/State.lean ====
section
/-!
DEFINITION. The state of the device as plain data, and the state right after reset. Every piece of state the spec gives
the machine is here; the fields `moves`, `cur`, `split` and `free` of State are the model's own (log entries 1, 2 and 59).
-/

namespace Sys2Proof.Machine

/-! ### Groups -/

/-- A vector register: its occupied lanes with their values, in ascending lane position (02 R32). -/
abbrev VReg := List (Nat × Word)

/-- A walker (10 R229). -/
structure Walker where
  base : DWord := 0
  ty : Ty := .b32
  n : Vector Word 4 := Vector.replicate 4 0
  stride : Vector (BitVec 40) 3 := Vector.replicate 3 0
  i : Vector Word 4 := Vector.replicate 4 0
  eod : BitVec 4 := 0
  done : Bool := false
  ch : Hint := .normal
  deriving DecidableEq, Repr

/-- What a fault reports (Tables 12.3 and 12.4). `resume` is the address the frame saves, `queue` 0xFF for none, `mstep` the body
step that faulted and `rstep` the one a return resumes; `iaddr` where the fault is reported at another address than the pc (01 R30). -/
structure FaultInfo where
  cause : Cause
  addr : Nat := 0
  lanes : LaneMap := 0
  aux : Word := 0
  queue : Nat := 0xFF
  paddr : Nat := 0
  resume : DWord := 0
  mstep : Nat := 0
  rstep : Nat := 0
  iaddr : Option Nat := none
  deriving DecidableEq, Repr

/-- Kinds of access that a translation must permit (01 R21). -/
inductive Access
  | read | write | exec
  deriving DecidableEq, Repr

/-- The outcome of a walk that faulted, held by the agent that waits for it: the 4 KiB page, the access, the cause. -/
structure XFault where
  page : Nat
  acc : Access
  cause : Cause
  paddr : Nat := 0
  deriving DecidableEq, Repr

/-- A part of a lane's bytes: read here, or to come from a peer. -/
inductive PeerPart
  | here (bytes : List Byte)
  | there (fep pctx pa len : Nat)
  deriving DecidableEq, Repr

/-- Where a piece of an access leads: bytes of this device with the page's MT, or bytes of a peer. -/
inductive Target
  | mem (l : Loc) (mt : Nat)
  | peer (fep pctx pa mt : Nat)
  deriving DecidableEq, Repr

/-- One part of an access, within one page: where it leads and its length. -/
abbrev Piece := Target × Nat

/-- What a read of one access returns: its bytes, and the uncorrectable unit it met with the place of the error (20 R347). -/
structure Got where
  parts : List PeerPart
  bad : Option (Loc × Nat)
  deriving DecidableEq, Repr

/-- What the reads of one instruction have met so far: the injected errors, each by its sector and, if uncorrectable, its place (20 R350); the uncorrectable
units that have been counted; and of those that lie in copies of the cluster cache the words, by address in DRAM (20 R349). -/
structure Met where
  inj : List (Loc × Option Nat) := []
  seen : List Loc := []
  words : List Nat := []
  deriving DecidableEq, Repr

/-- What one lane of a load in flight received. -/
inductive LaneVal
  | ok (words : List Word)
  | bad (sector : Loc) (place : Nat)
  | peer (parts : List PeerPart) (ty : Ty)
  deriving DecidableEq, Repr

/-- One lane of an atomic on its way to its home: the location, or the peer's endpoint and context with the address there,
the operand and the new value of a compare-and-swap, between the two steps of 05 R110 what its load step read, and the page's MT. -/
structure AtomLane where
  lane : Nat
  loc : Loc
  peer : Option (Nat × Nat)
  arg : DWord
  new : DWord
  old : Option Nat := none
  mt : Nat := 0
  deriving DecidableEq, Repr

/-- An atomic whose lanes still perform, one step each (04 R84, 05 R114): operation 0 to 6 of Table 10.4, 7 for ATOMC; its scope; `near`
when device memory performs in the cluster's unit (04 R91); `red` for a RED, which returns nothing; the old values that have come; where they go;
what its steps have met; its cache hint; the time of its issue. -/
structure AtomReq where
  op : Nat
  ty : Ty
  sc : Scope
  near : Bool
  red : Bool
  lanes : List AtomLane
  got : List (Nat × LaneVal)
  vec : Bool
  dst : Option Nat
  token : Option Nat
  met : Met := {}
  ch : Hint := .normal
  at_ : Nat := 0
  deriving DecidableEq, Repr

/-- The steps of a memory instruction that are taken lane by lane (04 R84): LD, LDM, a store (`ordered` for RINIT's, in ascending order), the
reads of a walker, MRD's words (the lane and 64 times the line), and MSCALE's (11 R267): whether the words are integers, and the rounding mode. -/
inductive LaneKind
  | load (ty : Ty) | frag | store (ordered : Bool) | walker (n : Nat) | acc | scale (int : Bool) (mode : Nat)
  deriving DecidableEq, Repr

/-- A lane's step: its pieces, the bytes it stores, and the registers in which an LDM's lane takes part. -/
structure LaneStep where
  lane : Nat
  ps : List Piece
  data : List Byte
  regs : List Nat
  deriving DecidableEq, Repr

/-- A memory instruction under way lane by lane: the steps to come, what its loads have read, where that goes (n registers), and what its steps
have met. -/
structure LaneReq where
  kind : LaneKind
  hint : Hint
  todo : List LaneStep
  got : List (Nat × Got)
  regs : List (Nat × List Nat)
  vec : Bool
  dst : Nat
  n : Nat
  token : Option Nat
  met : Met := {}
  deriving DecidableEq, Repr

/-- What a peer is asked to do with an object in one atomic step (05 R102-R107): read it, arrive, take a land step, release a ring's head, count a
semaphore, or RPUT's first step: on a ring as it was last told, with the slot's barrier where that lies there too, or n bytes more for a barrier. -/
inductive ObjOp
  | read | arrive (n : Nat) | land (n : Nat) | release | sem (up : Bool) (n : Nat) | fill (ring : Nat) (bar : Option Nat) | add (n : Nat)
  deriving DecidableEq, Repr

/-- A question to a peer by the instruction at a group's head, or by the command at a queue's. -/
structure PeerAsk where
  fep : Nat
  pctx : Nat
  pa : Nat
  len : Nat
  op : ObjOp
  deriving DecidableEq, Repr

/-- A peer's answer: the bytes as they stood in the step at their home, or none where the reply is poisoned or refused (20 R347, 21 R362). -/
structure PeerGot where
  ask : PeerAsk
  bytes : Option (List Byte)
  deriving DecidableEq, Repr

/-- A result still to be delivered (06 R131, 07 R161): the registers it names, what each lane received, the epoch of its load steps, and the time of its
reads (0 where they were taken lane by lane). -/
structure Pend where
  vec : Bool
  first : Nat
  n : Nat
  lanes : List (Nat × LaneVal)
  token : Option Nat
  iaddr : Nat
  mstep : Nat
  epoch : Nat
  at_ : Nat := 0
  deriving DecidableEq, Repr

/-- A producer of the checking scoreboard (07 R162); `lat` none for a variable-latency form. -/
structure Producer where
  regs : List RegName
  lat : Option Nat
  stl : Nat
  token : Option Nat
  waited : Bool
  deriving DecidableEq, Repr

/-- A fetched line (04 R86, 07 R148): the check has passed, or a parity mismatch awaits its second fetch. -/
structure FLine where
  addr : Nat
  bytes : List Byte
  checked : Bool
  second : Bool
  deriving DecidableEq, Repr

/-- Counts that the FIFO waits name (Table 10.8). -/
inductive FifoCount
  | vin | vout | fpushed (k : Nat) | fpopped (k : Nat)
  deriving DecidableEq, Repr

/-- What a group waits for. -/
inductive Wait
  | none
  /-- WAITPH, WAITPH.swap and RAWAIT: the object, in S or in G, the phase, and RAWAIT's destination and its value. -/
  | phase (inS : Bool) (addr : Nat) (p : Word) (swap : Bool) (ring : Bool) (d : Option Nat) (h : Word)
  | fifo (c : FifoCount) (p : Word)
  | regroup (off : Nat) (p : Word) (mc : Bool) (sc : Scope)
  | inval (n : Nat)
  | atomic (q : AtomReq)
  | fault (f : FaultInfo)
  | parked (f : FaultInfo)
  | refetch (line : Nat)
  /-- The steps of a memory instruction that are taken lane by lane. -/
  | lanes (q : LaneReq)
  /-- A peer's answers for the instruction at the head, which is then tried again; `waits` for the first load step of a phase wait, and whether
  a swap-out may end it (12 R279). -/
  | object (asks : List PeerAsk) (waits : Option Bool := none)
  /-- TBIND's second step, the write of the identifier entry, with the record that its first step read. -/
  | bind (n : Nat) (bytes : List Byte)
  deriving DecidableEq, Repr

/-- The architectural state of a group and what the device holds of its execution. `vbad` marks lanes whose slab word is uncorrectable (20 R347);
`got` and `wgot` are the peers' answers and the walker reads that the instruction at the head has already, `fgot` the reads that a FORK has made
(address, length, bytes), `met` what its reads have met; `waitFep` is the endpoint on whose page the object lies that a phase wait read last; `blocked` the registers of results in
flight that the interlock holds the group for (R160); `entry` while the check of TGT at pc is still to come (07 R146); `rstep` the step at which a
macro called at pc resumes. `tokAt` are the tokens of fixed-latency results with the times at which they clear (R161), `seq` whether pc was reached in
sequence, `paired` whether the instruction there may issue together with the one before (R147), `pipes` the pipes that its last instructions still
occupy, with the times at which they are free (R164); `issuedAt` is the time of the last issue, `lastIssue`
counts its column's half cycles. -/
structure Group where
  id : Nat
  pc : DWord
  v : Vector VReg 128
  vbad : List (Nat × LaneMap)
  s : Vector Word 64
  m : Vector LaneMap 14
  p : Vector Bool 7
  live : LaneMap
  dead : LaneMap
  w : Vector Walker 8
  tid : Vector Word 64
  gstat : Word
  srseed : Word
  srn : Word
  chk : Bool
  trapb : DWord
  tpc : DWord
  tcause : Word
  taddr : DWord
  tmap : DWord
  taux : Word
  handler : Bool
  wdog : Word
  waitCnt : Nat
  runCnt : Nat
  hold : Nat
  tok : Vector Bool 6
  tokAt : List (Nat × Nat)
  seq : Bool
  paired : Bool
  mcall : Option (Nat × Nat)
  rstep : Nat
  entry : Bool
  mstat : Word
  pend : List Pend
  hist : List Producer
  lines : List FLine
  wait : Wait
  xf : List XFault
  got : List PeerGot
  wgot : List (Nat × List (Nat × Got))
  fgot : List (Nat × Nat × List Byte) := []
  met : Met := {}
  waitFep : Option Nat := none
  blocked : List RegName := []
  pipes : List (Pipe × Nat) := []
  sched : Nat
  slot : Nat
  nextAt : Nat
  issuedAt : Option Nat
  lastIssue : Nat
  ready : List (RegName × Nat)
  retired : Option Nat
  lastEpoch : Nat
  deriving DecidableEq, Repr

/-- Memory: listed bytes with strictly rising addresses, none equal to what an unlisted byte reads as. -/
abbrev Mem := List Host.Cell

/-! ### Engines -/

/-- A cached or held translation (01 R23, R27): context, page, target and permissions. `holder` names the cache: 0 to 63 a cluster's,
64 + n that of core n. -/
structure Xlat where
  ctx : Nat
  page : Nat
  size : Nat
  pa : Nat
  w : Bool
  x : Bool
  d : Bool
  mt : Nat
  peer : Option (Nat × Nat)
  holder : Nat
  deriving DecidableEq, Repr

/-- The barrier that a command names (10 R237), in S or in G. -/
structure Bar where
  inS : Bool
  addr : Nat
  deriving DecidableEq, Repr

/-- The command of an engine entry, with the operand values it captured when it was posted (10 R237, 11 R256). -/
inductive Cmd
  | tile (load : Bool) (space : Nat) (rec : BitVec 512) (base : Nat) (org : List Nat) (off : Nat)
  | ycopy (dsp ssp : Nat) (dst src len : Nat)
  | gather (scatter : Bool) (space : Nat) (table rowBytes stride idx n limit : Nat) (off : Nat)
  | rput (rec : BitVec 512) (base : Nat) (org : List Nat) (ringInS : Bool) (ring : Nat)
  | fence (names : Nat)
  | mloop (ra rb : BitVec 512) (blk : List Word) (ovw : Bool)
  | mloopj (ra rb : BitVec 512) (blk : List Word) (ovw : Bool)
  | mloops (fn : Nat) (ra rb : BitVec 512) (blk : List Word) (ovw zm : Bool)
  | mzero (off cnt : Nat)
  deriving DecidableEq, Repr

/-- A step of a command that has been taken: its number, the epoch of it, and the value it hands on (05 R100). -/
structure StepRec where
  k : Nat
  epoch : Nat
  val : Nat
  deriving DecidableEq, Repr

/-- An entry of an engine queue (05 R96, R97, R100): the command, who posted it, and its progress record. `asked` while a peer has its next step on an
object, `reply` what the peer has answered: the object as it stood, or none for poison; `seen` the pages that it needs and whose translations it has looked at,
each with the access and whether for data (01 R27), `hint` its cache hint (07 R151), and `peek` a ring as RPUT has looked at it (05 R106). -/
structure Entry where
  q : Nat
  cmd : Cmd
  poster : GRef
  scr : Nat × Nat
  iaddr : Nat
  mstep : Nat
  token : Option Nat
  bar : Option Bar
  scope : Scope
  seq : Nat
  epoch : Nat
  data : List StepRec
  index : List StepRec
  lands : List StepRec
  held : List Xlat
  xf : List XFault
  parked : Option FaultInfo
  failed : Option FaultInfo
  since : Nat
  joint : Bool
  asked : Option PeerAsk := none
  reply : Option (Option (List Byte)) := none
  seen : List (Nat × Access × Bool) := []
  hint : Hint := .normal
  peek : Option Nat := none
  deriving DecidableEq, Repr

/-- The operand bytes of a K-step of a joint loop as a core took them, kept until the operation is confirmed (11 R265). -/
structure KData where
  core : Nat
  seq : Nat
  k : Nat
  a : List Byte
  b : List Byte
  deriving DecidableEq, Repr

/-! ### Launches and workgroups -/

/-- A launch descriptor (Table 21.5) with its argument block. -/
structure Desc where
  args : List Word := []
  nreg : Nat := 0
  groups : Nat := 0
  tier : Nat := 0
  mx : Bool := false
  nfifo : Nat := 0
  prio : Nat := 0
  n : Nat := 0
  scrsz : Nat := 0
  decks : List (Option Nat) := []
  entry : Nat := 0
  compl : Nat := 0
  macroAt : Nat := 0
  trap : Nat := 0
  dtgt : Nat := 0
  save : Nat := 0
  savesz : Nat := 0
  deriving DecidableEq, Repr

/-- An item of a deck (06 R136) with the device time at which it entered. -/
structure Item where
  a : Word
  b : Word
  c : Word
  at_ : Nat
  deriving DecidableEq, Repr

/-- A deck (06 R135-R137); `reserved` counts the items of unconfirmed SPAWNs. -/
structure Deck where
  cap : Nat
  target : Desc
  items : List Item
  reserved : Nat
  seq : Nat
  deriving DecidableEq, Repr

/-- Status of a unit (06 R124, 08 R183). -/
inductive Status
  | running | cancelling | clean | faulted | cancelled
  deriving DecidableEq, Repr

/-- Levels of work that have a completion object (Table 6.1). -/
inductive UnitKind
  | launch | graph | phase | job
  deriving DecidableEq, Repr

/-- Why a workgroup is ending (06 R133, 12 R273), in which epoch of its column, and the records that report it. -/
structure Ending where
  epoch : Nat
  records : List (BitVec 512)
  deriving DecidableEq, Repr

/-- A workgroup: resident on `core`, or saved when it stands in `away`. Retired groups stay until confirmation. `saving` is a save asked
for, or of a saved workgroup that it still awaits a phase; `placedAt` is the time of placement, or of becoming ready again; `toFill` counts the lines
of its scratch that the dispatcher has still to fill with zeros (04 R81). A saved workgroup keeps its unstarted engine commands and what its scratch,
B store and accumulator store held, by offset. `retryAt` is the time from which a save or a resumption that met an error in storage is tried again. -/
structure Workgroup where
  ctx : Nat
  lnum : Nat
  wg : Nat
  core : Nat
  desc : Desc
  nwg : Nat
  ngroup : Nat
  scrBase : Nat
  scrSize : Nat
  groups : List Group
  placedAt : Nat
  ending : Option Ending
  saving : Bool
  vfMark : Option Word
  slot : Option Nat
  cmds : List Entry := []
  sScr : Mem := []
  sBs : Mem := []
  sAc : Mem := []
  toFill : Nat := 0
  retryAt : Nat := 0
  deriving DecidableEq, Repr

/-- A group the Bucker has formed and the dispatcher has not placed (06 R137): deck, ID.WG, its items and thread identifiers. -/
structure Formed where
  deck : Nat
  wg : Nat
  items : List (Item × Word)
  deriving DecidableEq, Repr

/-- A launch (06 R122, R124, 21 R360, R361). -/
structure Launch where
  ctx : Nat
  lnum : Nat
  desc : Desc
  macros : List (List InstrWord)
  decks : List (Option Deck)
  parent : Option Nat
  depth : Nat
  graph : Nat
  phase : Nat
  preds : List Nat
  tag : Word
  prio : Nat
  nextWg : Nat
  spawned : Nat
  formed : List Formed
  readyAt : Option Nat
  placedAt : Nat
  lost : Bool
  cancelled : Bool
  status : Status
  finalCount : Nat
  waitSince : Nat
  deriving DecidableEq, Repr

/-- A graph, a phase or a job (06 R124, 21 R360, R373). `inPhase` names the phase of a graph. -/
structure WorkUnit where
  kind : UnitKind
  ctx : Nat
  object : Nat
  inPhase : Nat
  closed : Bool
  cancelled : Bool
  status : Status
  deriving DecidableEq, Repr

/-- A graph or a phase of a job that has ended, with the launches accepted in a graph: it accepts no further launch (21 R360). -/
structure PastUnit where
  kind : UnitKind
  object : Nat
  inPhase : Nat
  lnums : List Nat
  deriving DecidableEq, Repr

/-- A context (01 R9, 02 R44, 03 R77, 12 R279, 21 R373). -/
structure Context where
  desc : BitVec 512
  pinq : BitVec 16
  wdog : Word
  jobObj : Nat
  jobEnd : Bool
  idents : List (Nat × BitVec 512)
  held : Bool
  lnums : List Nat
  past : List PastUnit
  nextFork : Nat
  deriving DecidableEq, Repr

/-! ### FIFOs and cores -/

/-- A vertical FIFO (02 R50): entries oldest first, each with the lanes whose storage is uncorrectable, and its two counts. -/
structure VFifo where
  entries : List (VReg × LaneMap) := []
  pushed : Word := 0
  popped : Word := 0
  deriving DecidableEq, Repr

/-- Gating of an upper core (13 R297). -/
inductive Gate
  | open | requested | gated | waking (until_ : Nat) | closed
  deriving DecidableEq, Repr

/-- A core. Each lower core holds the two FIFOs of its pair. -/
structure Core where
  y : Vector (List Entry) 4
  mx : List Entry
  kept : List Entry
  tables : List (Nat × Nat)
  up : VFifo
  down : VFifo
  gate : Gate
  tdrep : Word
  replays : List Nat
  deriving DecidableEq, Repr

/-! ### Clusters and columns -/

/-- Mode of an SRAM bank (02 R36-R39): a scratchpad bank knows since when it holds no allocation. -/
inductive BankMode
  | cache | scratch (emptySince : Option Nat) | fifo (ctx lnum k : Nat)
  deriving DecidableEq, Repr

/-- A bank FIFO (02 R38). -/
structure BankFifo where
  ctx : Nat
  lnum : Nat
  k : Nat
  bank : Nat
  q : VFifo
  deriving DecidableEq, Repr

/-- A pin of a context on a line (02 R42): physical line address, context and way. The line's data stand among the copies. -/
structure Pin where
  line : Nat
  ctx : Nat
  way : Nat
  deriving DecidableEq, Repr

/-- A line of a cluster cache (02 R36), and which of its eight 32-byte sectors have been read into it (20 R351, log entry 20);
`bad` are its 8-byte words that are uncorrectable (02 R54, 20 R347). -/
structure Copy where
  line : Nat
  sectors : BitVec 8
  bad : List Nat := []
  deriving DecidableEq, Repr

/-- A cluster. `copies` are the lines its cache holds, most recently used first. -/
structure Cluster where
  modes : Vector BankMode 64
  cmin : Nat
  fifos : List BankFifo
  pins : List Pin
  copies : List Copy
  deriving DecidableEq, Repr

/-- Who writes: for packets and records (12 Table 12.4). No lane for an engine; `at_` is the time at which a group's instruction issued, or the
number of a command. -/
structure Writer where
  r : GRef
  core : Nat
  tid : Nat
  iaddr : Nat
  lane : Option Nat
  at_ : Nat := 0
  deriving DecidableEq, Repr

/-- What is known of a reduction on its way to its home: `seen` the time at which a load of its column first read a value with it (04 R83, 05 R113), and
`met` the sector that another lane of its instruction has read, with whether it was uncorrectable (20 R350). -/
structure RedMark where
  seen : Option Nat := none
  met : Option (Loc × Bool) := none
  deriving DecidableEq, Repr

/-- A write held in the landing buffer (05 R113), or a request that leaves the column on confirmation; `cancelled` a FORK whose unit
has been cancelled meanwhile (06 R125). -/
inductive LbKind
  | store (loc : Loc) (bytes : List Byte)
  | red (op : Nat) (ty : Ty) (sc : Scope) (loc : Loc) (operand : DWord) (x : Writer) (mark : RedMark := {})
  | spawn (ctx lnum deck : Nat) (items : List Item)
  | fork (ctx parent : Nat) (desc : Desc) (macros : List (List InstrWord)) (targets : List (Option Desc))
      (cancelled : Bool := false)
  | cancel (ctx object : Nat)
  deriving DecidableEq, Repr

structure LbEntry where
  epoch : Nat
  ctx : Nat
  lnum : Nat
  kind : LbKind
  deriving DecidableEq, Repr

/-- What a provisional step has changed outside the snapshot, with its old contents (02 R49, 05 R114). -/
inductive Undo
  | mem (epoch : Nat) (loc : Loc) (old : List Byte) (locked : Bool)
  | ident (epoch : Nat) (ctx n : Nat) (old : Option (BitVec 512))
  | bad (epoch : Nat) (old : List Loc) (l2 : List (Nat × Bool))
  deriving DecidableEq, Repr

/-- The state of the column's groups, cores and bank FIFOs at an epoch boundary (02 R49). -/
structure Snap where
  epoch : Nat
  wgs : List Workgroup
  cores : List (Nat × Core)
  fifos : List (Nat × List BankFifo)
  deriving DecidableEq, Repr

/-- A column (05 R111-R116, 13 R293-R298). `ended` lists the unconfirmed epochs with their end times, `snaps` the state at the start of
each unconfirmed epoch, oldest first; `occ` sums its resident groups over the time since the last market clear; `cur` are the tiers' currents as last
measured, `curOf` the groups that were resident then, with their cores, and `gatedOf` the cores that were gated then. -/
structure Column where
  epoch : Nat
  start : Nat
  ended : List (Nat × Nat)
  snaps : List Snap
  strk : Word
  rollbk : Word
  undo : List Undo
  lb : List LbEntry
  rolling : Bool
  droop : Bool
  clearAt : Option Nat
  excursion : Bool
  shed : Bool
  cyc2 : Nat
  occ : Nat
  grant : Nat
  wNum : Nat
  wDen : Nat
  limL : Nat
  limU : Nat
  ballast : Bool × Bool
  cur : Option (Nat × Nat)
  curOf : List (Nat × GRef) := []
  gatedOf : List Nat := []
  gateReq : Bool
  gated : Bool
  deriving DecidableEq, Repr

/-! ### Translation service, dispatcher, ports -/

/-- Who waits for a walk: a group, or a command by its queue and its number. -/
inductive Requester
  | group (g : GRef)
  | queue (q : QRef) (seq : Nat)
  deriving DecidableEq, Repr

/-- A miss that a walk serves: who waits, for what kind of access, on which core (01 R25). -/
structure WalkReq where
  who : Requester
  acc : Access
  core : Nat
  deriving DecidableEq, Repr

/-- Where a walk stands (01 R17-R22, R15). -/
inductive WalkState
  | queued
  | read (level table : Nat)
  | own (table : Nat)
  | update (entryAt : Nat) (old new : DWord) (size : Nat) (peer : Option (Nat × Nat))
  | peerTable (entryAt : Nat) (entry : DWord) (size : Nat)
  | peerAsk (entryAt : Nat) (entry : DWord) (size fep pctx : Nat) (since : Nat)
  deriving DecidableEq, Repr

/-- A walk of a tower's translation service, which serves every miss of one context and 4 KiB page (01 R25). -/
structure Walk where
  tower : Nat
  ctx : Nat
  page : Nat
  st : WalkState
  reqs : List WalkReq
  deriving DecidableEq, Repr

/-- Where a walk of a port or of the dispatcher stands (01 R17-R22): the table it reads next, the update of A and D, or the address it has found. -/
inductive PortWalkState
  | read (level table : Nat) (first : Bool)
  | update (entryAt old new pa : Nat)
  | done (pa : Nat)
  deriving DecidableEq, Repr

/-- A walk of a port or of the dispatcher between two of its steps (04 R84): the 4 KiB page of a context, the access, whether a host's. -/
structure PortWalk where
  ctx : Nat
  page : Nat
  acc : Access
  host : Bool
  st : PortWalkState
  deriving DecidableEq, Repr

/-- What a LAUNCH under way has read of its tables (21 R361): the context, the address, the length, the bytes. -/
structure PortGot where
  ctx : Nat
  va : Nat
  n : Nat
  bytes : List Byte
  deriving DecidableEq, Repr

/-- A non-leaf entry in a tower's walk cache (01 R23): the level it was read at, the first address it covers, the table it leads to. -/
structure WalkEntry where
  tower : Nat
  ctx : Nat
  level : Nat
  va : Nat
  table : Nat
  deriving DecidableEq, Repr

/-- Who asked for an invalidation (01 R26). -/
inductive InvalBy
  | group (g : GRef)
  | channel (c : Nat) (tag cseq : Word)
  deriving DecidableEq, Repr

/-- An invalidation in flight: a range of 4 KiB pages, or all of the context when `pages` is 0; `marks` are the columns' epochs when it
began, for the accesses that were translated before it. -/
structure Inval where
  n : Nat
  ctx : Nat
  page : Nat
  pages : Nat
  by_ : InvalBy
  marks : List Nat
  deriving DecidableEq, Repr

/-- An event of a channel as it was sent (21 R355, R358, R359). -/
structure Event where
  eseq : Word
  op : Nat
  status : Nat
  tag : Word
  payload : List Byte
  cseq : Word
  deriving DecidableEq, Repr

/-- What an outbound packet is (05 R117). -/
inductive OutKind
  | event (chan : Nat) (e : Event)
  | peerWrite (fep pctx pa : Nat) (bytes : List Byte) (x : Writer)
  | peerRed (fep pctx pa op : Nat) (ty : Ty) (operand : DWord) (x : Writer)
  | peerAtom (fep pctx pa op : Nat) (ty : Ty) (arg new : DWord) (x : Writer)
  | peerObj (ask : PeerAsk) (x : Writer)
  | peerReply (fep tag : Nat) (ok : Bool) (bytes : List Byte)
  deriving DecidableEq, Repr

/-- A packet at the egress gate: it leaves once every (column, epoch) it depends on is confirmed. -/
structure OutPkt where
  deps : List (Nat × Nat)
  ctx : Nat
  lnum : Nat
  kind : OutKind
  deriving DecidableEq, Repr

/-- A host read or write between two of its port steps (21 R356): what its remaining lines address, and the bytes still to write or
read so far. -/
structure Prog where
  todo : List (Loc × Nat)
  data : List Byte
  deriving DecidableEq, Repr

/-- A command channel (21 R354-R359). `inbox` holds what has arrived while the device is below D0. -/
structure Channel where
  last : Word
  early : List Packet
  eseq : Word
  log : List Event
  queue : List Packet
  busy : Option Nat
  prog : Option Prog
  inbox : List Packet
  deriving DecidableEq, Repr

/-- Link state of a port (21 R364, R365); `down` once recovery has been abandoned. -/
inductive LinkState
  | up | retraining | recovery (since : Nat) | down
  deriving DecidableEq, Repr

/-- A port: lanes run, width mode (0 automatic), link state, time since the last error at a shed width, its own endpoint number, and the
endpoints that it reaches (none: every one). -/
structure Port where
  lanes : Nat
  mode : Nat
  link : LinkState
  quietSince : Nat
  fep : Nat
  reach : Option (List Nat)
  deriving DecidableEq, Repr

/-- A read-only copy of a peer line in a tower's L2 (02 R52, 05 R119): the bytes of it that have come, by address at the peer, and when they were asked
for. -/
structure PeerCopy where
  tower : Nat
  fep : Nat
  line : Nat
  at_ : Nat
  bytes : List (Nat × Byte)
  deriving DecidableEq, Repr

/-- A reduction that has drained into a DRAM controller's write queue (05 R108), with what its load step read where it takes two steps (R110). -/
structure WqRed where
  op : Nat
  ty : Ty
  sc : Scope
  loc : Loc
  operand : DWord
  x : Writer
  old : Option Nat := none
  mark : RedMark := {}
  deriving DecidableEq, Repr

/-- Device power states (Table 13.3), and the state while waking. -/
inductive Power
  | d0 | d1 | d2 | d3 | waking (at_ : Nat)
  deriving DecidableEq, Repr

/-- The power settings block (Table 13.2). -/
structure PowerSettings where
  tol : Nat := 0
  cap : Nat := 2200
  ramp : Nat := 50
  droop : Nat := 0
  gdis : Bool := false
  deriving DecidableEq, Repr

/-- Firmware state (21 R367-R369). -/
structure Firmware where
  chunks : List (Nat × List Byte) := []
  running : Bool := false
  version : Word := 0
  digest : BitVec 256 := 0
  deriving DecidableEq, Repr

/-- A move of the schedule: the agent of 04 R83 that acts next. -/
inductive Move
  /-- An issue scheduler of a core takes its next issue (13 R291). -/
  | issue (core sched : Nat)
  /-- The same, where the instruction's memory steps are taken one by one, by the moves that follow (04 R84). -/
  | issueSteps (core sched : Nat)
  /-- The k-th step that a group's memory instruction has still to take; `ext` the value a peer returned. -/
  | lane (g : GRef) (k : Nat) (ext : List Byte)
  /-- The load step of the k-th lane of a group's atomic, whose store step comes apart from it (05 R110). -/
  | half (g : GRef) (k : Nat)
  /-- The same for the n-th reduction of the write queues. -/
  | halfRed (n : Nat)
  /-- The n-th reduction of the write queues performs by itself (05 R108). -/
  | redAlone (n : Nat)
  /-- A peer answers the k-th question of a group's instruction, or a load step of its phase wait; none for poison or a refusal. -/
  | peerData (g : GRef) (k : Nat) (ext : Option (List Byte))
  /-- A peer answers a question of the command at the head of a queue, or tells the ring that an RPUT looks at; none for poison or a refusal. -/
  | peerLand (q : QRef) (ext : Option (List Byte))
  /-- A peer tells the dispatcher the phase that group g of a swapped-out workgroup awaits (06 R139). -/
  | peerWake (w : WRef) (grp : Nat) (phase : Word)
  /-- The dispatcher fills the next line of a workgroup's scratch with zeros (04 R81). -/
  | fill (w : WRef)
  /-- A whole step of another agent. -/
  | event (i : Instr)
  /-- A step of a host's command or of the dispatcher whose walks and table reads are taken one by one (04 R84). -/
  | eventSteps (i : Instr)
  /-- A packet arrives from the host. -/
  | packet (p : Packet)
  /-- Device time passes, in units of 0.25 ns. -/
  | tick (n : Nat)
  /-- A sector of a store becomes uncorrectable (02 R54). -/
  | softError (l : Loc)
  /-- A sector held in the L2 becomes uncorrectable, in a modified line or a clean one (20 R345). -/
  | l2Error (sector : Nat) (modified : Bool)
  /-- A word of a group's slabs becomes uncorrectable: the two lanes it holds, by packed position (02 R32, 20 R347). -/
  | slabError (g : GRef) (reg word : Nat)
  /-- A word of a line in a cluster cache becomes uncorrectable: the copy's place in its list, the 8-byte word (02 R36, R54). -/
  | cacheError (cluster copy word : Nat)
  /-- A word of an entry of a vertical FIFO becomes uncorrectable: the pair's lower core, the direction, the entry. -/
  | fifoError (core : Nat) (up : Bool) (entry word : Nat)
  /-- A word of an entry of a bank FIFO becomes uncorrectable: the cluster, the FIFO's place in its list, the entry. -/
  | bankFifoError (cluster fifo entry word : Nat)
  /-- A corrected error: counts in counter i of a tower's block (20 R349, Table 20.2). -/
  | corrected (tower i : Nat)
  /-- A cached translation is replaced (01 R23). -/
  | evict (n : Nat)
  /-- A copy of a peer's line is replaced in the L2 (02 R52). -/
  | evictPeer (n : Nat)
  /-- A non-leaf entry of a walk cache is replaced (01 R23). -/
  | evictWalk (n : Nat)
  /-- A core takes a translation of its cluster's cache into its own (01 R23). -/
  | fillCore (core n : Nat)
  /-- The fabric's cabling: which endpoints a port reaches (01 R15). -/
  | wire (port : Nat) (reach : Option (List Nat))
  deriving DecidableEq, Repr

/-- The device. -/
structure State where
  wgs : List Workgroup
  away : List Workgroup
  launches : List Launch
  units : List WorkUnit
  ctxs : Vector Context 64
  dram : Mem
  sram : Mem
  bs : Mem
  ac : Mem
  bad : List Loc
  l2bad : List (Nat × Bool)
  wq : List WqRed
  cores : Vector Core 256
  clusters : Vector Cluster 64
  cols : Vector Column 32
  tlb : List Xlat
  walks : List Walk
  wcache : List WalkEntry
  pwalks : List PortWalk
  pgot : List PortGot
  served : Vector Nat 2
  kdata : List KData
  invals : List Inval
  nextInval : Nat
  nextSeq : Nat
  now : Nat
  inja : DWord
  injc : Word
  counters : Vector (Vector DWord 8) 2
  power : PowerSettings
  prevTotal : Nat
  reserve : Nat
  nextClear : Nat
  nextBalance : Nat
  pstate : Power
  idleSince : Option Nat
  called : Option Nat
  boot : Nat
  fw : Firmware
  supply : Bool
  inReset : Bool
  hot : Bool
  chans : Vector Channel 65
  out : List OutPkt
  ports : Vector Port 16
  selftest : Option (Nat × Word × Word)
  failedPeers : List Nat
  peerCopies : List PeerCopy
  peerWrites : List OutPkt
  peerSteps : List OutPkt
  scrubs : List (Nat × Nat × Nat)
  moves : List Move
  cur : Option GRef
  split : Bool
  free : Nat
  deriving DecidableEq, Repr

/-! ### Outcomes -/

/-- Faults of the step. -/
inductive Fault
  /-- Raised by `exec` of an instruction word in a state whose `cur` names no resident group: no agent issues it, and
  the spec gives it no meaning there. Safe: the machine stops where the hardware has no such moment. -/
  | noIssuingGroup
  deriving DecidableEq, Repr

/-- Refusals of the step. -/
inductive Refusal
  /-- Raised by an arm of `exec` whose instruction has no meaning yet. Safe. -/
  | notModelled (mnemonic : String)
  deriving DecidableEq, Repr

/-! ### Reset -/

/-- A context at reset: every field of Table 1.2 zero, RUNL 60,000 and WAITL 10,000, every identifier unbound. -/
def Context.reset : Context :=
  { desc := 0, pinq := 0, wdog := 0xEA602710, jobObj := 0, jobEnd := false, idents := [], held := false, lnums := [], past := []
    nextFork := 0x02000000 }

def Core.reset : Core :=
  { y := Vector.replicate 4 [], mx := [], kept := [], tables := [], up := {}, down := {}, gate := .open, tdrep := 0
    replays := [] }

/-- A cluster at reset: every bank a cache bank, CMIN 16 (Table 2.4). -/
def Cluster.reset : Cluster :=
  { modes := Vector.replicate 64 .cache, cmin := 16, fifos := [], pins := [], copies := [] }

/-- A column at reset: grant 0, w 2 tokens, L 8 split 4 and 4 (13 R293, R295). -/
def Column.reset : Column :=
  { epoch := 0, start := 0, ended := [], snaps := [{ epoch := 0, wgs := [], cores := [], fifos := [] }], strk := 0, rollbk := 0, undo := [], lb := [], rolling := false
    droop := false, clearAt := none, excursion := false, shed := false, cyc2 := 0, occ := 0, grant := 0, wNum := 2, wDen := 1
    limL := 4, limU := 4, ballast := (false, false), cur := none, gateReq := false, gated := false }

def Channel.reset : Channel := { last := 0, early := [], eseq := 0, log := [], queue := [], busy := none, prog := none, inbox := [] }

/-- A port after reset: 8 lanes, automatic (21 R353, R364). -/
def Port.reset : Port := { lanes := 8, mode := 0, link := .up, quietSince := 0, fep := 0, reach := none }

/-- The device right after reset (21 R366): boot stage 0, memory with nothing listed, no work, no move scheduled. -/
def State.reset : State :=
  { wgs := [], away := [], launches := [], units := [], ctxs := Vector.replicate 64 Context.reset
    dram := [], sram := [], bs := [], ac := [], bad := [], l2bad := [], wq := []
    cores := Vector.replicate 256 Core.reset, clusters := Vector.replicate 64 Cluster.reset
    cols := Vector.replicate 32 Column.reset
    tlb := [], walks := [], wcache := [], pwalks := [], pgot := [], served := Vector.replicate 2 0, kdata := [], invals := [], nextInval := 0, nextSeq := 0, now := 0, inja := 0, injc := 0
    counters := Vector.replicate 2 (Vector.replicate 8 0), power := {}, prevTotal := 0, reserve := 656000, nextClear := 40000
    nextBalance := 4000, pstate := .d0, idleSince := none, called := none, boot := 0, fw := {}, supply := true, inReset := false, hot := false
    chans := Vector.replicate 65 Channel.reset, out := [], ports := Vector.replicate 16 Port.reset, selftest := none
    failedPeers := [], peerCopies := [], peerWrites := [], peerSteps := [], scrubs := []
    moves := [], cur := none, split := false, free := 0 }

end Sys2Proof.Machine
end

