-- ==== Sys2Proof/Machine/Bits.lean ====
section
/-!
DEFINITION. Bit fields, lane maps, packed registers, numbers of cores and columns (00 R1, R2, R4).
-/

namespace Sys2Proof.Machine

/-! ### Numbers and bits -/

/-- Bits [hi:lo] of a number (00 R2). -/
def bits (v hi lo : Nat) : Nat := v / 2 ^ lo % 2 ^ (hi + 1 - lo)

/-- The two's-complement value of the low w bits. -/
def sext (w v : Nat) : Int := if v % 2 ^ w < 2 ^ (w - 1) then (v % 2 ^ w : Int) else (v % 2 ^ w : Int) - 2 ^ w

/-- An integer modulo 2^w as a natural number. -/
def wrap (w : Nat) (x : Int) : Nat := (x % 2 ^ w).toNat

/-- x clamped to a range (00 R4). -/
def clampI (lo hi x : Int) : Int := if x < lo then lo else if hi < x then hi else x

/-- Little-endian bytes of a list of 32-bit words. -/
def wordsToBytes (ws : List Word) : List Byte := ws.flatMap fun w => leBytes 4 w.toNat

/-- 32-bit words of a byte string, the last padded with zeros. -/
def bytesToWords : Nat → List Byte → List Word
  | 0, _ => []
  | n + 1, bs => BitVec.ofNat 32 (leNat (bs.take 4)) :: bytesToWords n (bs.drop 4)

/-- A list in the order of a reflexive relation, equals as they stand. -/
def insertBy {α : Type} (le : α → α → Bool) (x : α) : List α → List α
  | [] => [x]
  | y :: ys => if le x y then x :: y :: ys else y :: insertBy le x ys
def sortBy {α : Type} (le : α → α → Bool) (l : List α) : List α := l.foldr (insertBy le) []

/-! ### Lane maps -/

/-- The lanes of a map in ascending position. -/
def lanesOf (m : LaneMap) : List Nat := (List.range 64).filter fun l => m.getLsbD l

/-- The map of a list of lanes. -/
def mapOf (ls : List Nat) : LaneMap := ls.foldl (fun m l => m ||| (1#64 <<< l)) 0

/-- Population count (00 R4). -/
def popc (m : LaneMap) : Nat := (lanesOf m).length

/-- Lanes 0 to n - 1. -/
def lowLanes (n : Nat) : LaneMap := if n ≥ 64 then BitVec.allOnes 64 else (1#64 <<< n) - 1

/-! ### Packed registers -/

/-- The stored map of a register (02 R32). -/
def vmap (r : VReg) : LaneMap := mapOf (r.map Prod.fst)

/-- Lane l's value, if the lane is stored. -/
def vget? (r : VReg) (l : Nat) : Option Word := (r.find? fun c => c.1 == l).map Prod.snd

/-- Lane l's value; 0 for a lane that is not stored, which no rule reads. -/
def vget (r : VReg) (l : Nat) : Word := (vget? r l).getD 0

/-- A register holding f on the lanes of a map. -/
def vmk (m : LaneMap) (f : Nat → Word) : VReg := (lanesOf m).map fun l => (l, f l)

/-! ### Cores, clusters, columns (00 R1) -/

def isUpper (core : Nat) : Bool := core / 64 % 2 == 1
def clusterOf (core : Nat) : Nat := core / 4
def columnOf (core : Nat) : Nat := 16 * (core / 128) + core / 4 % 16
def clusterColumn (cl : Nat) : Nat := 16 * (cl / 32) + cl % 16
def towerOf (core : Nat) : Nat := core / 128
/-- The lower core of a pair (02 R50). -/
def lowerOf (core : Nat) : Nat := core / 128 * 128 + core % 64
def upperOf (core : Nat) : Nat := lowerOf core + 64
/-- The eight cores of a column. -/
def coresOf (col : Nat) : List Nat :=
  (List.range 4).map (fun i => col / 16 * 128 + col % 16 * 4 + i) ++
  (List.range 4).map (fun i => col / 16 * 128 + 64 + col % 16 * 4 + i)
/-- The two clusters of a column: tier L, tier U. -/
def clustersOf (col : Nat) : List Nat := [col / 16 * 32 + col % 16, col / 16 * 32 + 16 + col % 16]

/-! ### Locations (04 R80) -/

def sramLoc (cluster byte : Nat) : Loc := ⟨.sram, cluster * 2 ^ 23 + byte⟩
def bsLoc (core off : Nat) : Loc := ⟨.bs, core * 2 ^ 21 + off⟩
def acLoc (core off : Nat) : Loc := ⟨.ac, core * 2 ^ 19 + off⟩
def locPlus (l : Loc) (n : Nat) : Loc := ⟨l.store, l.addr + n⟩

/-- The column a location lies in; none for DRAM. -/
def locColumn (l : Loc) : Option Nat :=
  match l.store with
  | .dram => none
  | .sram => some (clusterColumn (l.addr / 2 ^ 23))
  | .bs => some (columnOf (l.addr / 2 ^ 21))
  | .ac => some (columnOf (l.addr / 2 ^ 19))

/-- Two byte ranges of one store meet. -/
def overlaps (a : Loc) (n : Nat) (b : Loc) (k : Nat) : Bool :=
  a.store == b.store && a.addr < b.addr + k && b.addr < a.addr + n

end Sys2Proof.Machine
end

