-- ==== Sys2Proof/Machine/Memory.lean ====
section
/-!
DEFINITION. Memory in its one canonical form, the locations of the machine (04 R80), uncorrectable sectors (02 R54, 20 R347,
R375), and what a column's provisional steps do to memory: the undo log, the landing buffer, quarantine and locks (05 R111-R115).
-/

namespace Sys2Proof.Machine

/-! ### The canonical list -/

/-- What an unlisted byte reads as (log entry 3). -/
def unlisted : Byte := 0

/-- The canonical form: addresses strictly rising, no listed byte equal to what an unlisted one reads as. -/
def Memory.wf (m : Mem) : Bool :=
  match m with
  | [] => true
  | [c] => c.2 != unlisted
  | c :: d :: t => c.1 < d.1 && c.2 != unlisted && Memory.wf (d :: t)

/-- The byte at an address. -/
def readByte : Mem → Nat → Byte
  | [], _ => unlisted
  | c :: t, a => if c.1 = a then c.2 else readByte t a

/-- Memory with one byte written. -/
def writeByte : Mem → Nat → Byte → Mem
  | [], a, b => if b = unlisted then [] else [(a, b)]
  | c :: t, a, b =>
    if a < c.1 then (if b = unlisted then c :: t else (a, b) :: c :: t)
    else if a = c.1 then (if b = unlisted then t else (a, b) :: t)
    else c :: writeByte t a b

/-- Bytes of a range. -/
def readRange (m : Mem) (a : Nat) : Nat → List Byte
  | 0 => []
  | n + 1 => readByte m a :: readRange m (a + 1) n

/-- Memory with a byte string written from an address. -/
def writeRange (m : Mem) (a : Nat) : List Byte → Mem
  | [] => m
  | b :: bs => writeRange (writeByte m a b) (a + 1) bs

/-- Memory with a range set to zero. -/
def zeroRange (m : Mem) (a n : Nat) : Mem := m.filter fun c => c.1 < a || a + n ≤ c.1

/-! ### Stores of the device -/

def State.mem (s : State) : Store → Mem
  | .dram => s.dram | .sram => s.sram | .bs => s.bs | .ac => s.ac

def State.withMem (s : State) (st : Store) (m : Mem) : State :=
  match st with
  | .dram => { s with dram := m } | .sram => { s with sram := m } | .bs => { s with bs := m } | .ac => { s with ac := m }

/-- Bytes as they stand at their home. -/
def State.bytesAt (s : State) (l : Loc) (n : Nat) : List Byte := readRange (s.mem l.store) l.addr n

/-- Size of a code unit of a store: a 32-byte sector of DRAM, an 8-byte word elsewhere (02 R54). -/
def sectorSize (st : Store) : Nat := if st == .dram then 32 else 8

/-- Code units that a range meets. -/
def sectors (l : Loc) (n : Nat) : List Loc :=
  let z := sectorSize l.store
  if n = 0 then [] else
  (List.range ((l.addr + n - 1) / z - l.addr / z + 1)).map fun i => ⟨l.store, (l.addr / z + i) * z⟩

/-- Bytes written at their home; code units that the write covers whole become good (20 R375). -/
def State.put (s : State) (l : Loc) (bs : List Byte) : State :=
  let covered (b : Loc) : Bool := b.store == l.store && l.addr ≤ b.addr && b.addr + sectorSize b.store ≤ l.addr + bs.length
  let s := s.withMem l.store (writeRange (s.mem l.store) l.addr bs)
  { s with bad := s.bad.filter fun b => !covered b
           l2bad := s.l2bad.filter fun b => !(l.store == .dram && covered ⟨.dram, b.1⟩) }

/-- The lowest uncorrectable code unit of a range (20 R347). -/
def State.badIn (s : State) (l : Loc) (n : Nat) : Option Loc :=
  (sectors l n).find? fun b => s.bad.contains b || (b.store == .dram && s.l2bad.contains (b.addr, true))

/-! ### Columns' provisional writes -/

def State.col (s : State) (c : Nat) : Column := s.cols[c]?.getD Column.reset
def State.setCol (s : State) (c : Nat) (k : Column) : State := { s with cols := s.cols.setIfInBounds c k }
def State.core (s : State) (c : Nat) : Core := s.cores[c]?.getD Core.reset
def State.setCore (s : State) (c : Nat) (k : Core) : State := { s with cores := s.cores.setIfInBounds c k }
def State.cluster (s : State) (c : Nat) : Cluster := s.clusters[c]?.getD Cluster.reset
def State.setCluster (s : State) (c : Nat) (k : Cluster) : State := { s with clusters := s.clusters.setIfInBounds c k }
def State.ctx (s : State) (c : Nat) : Context := s.ctxs[c]?.getD Context.reset
def State.setCtx (s : State) (c : Nat) (k : Context) : State := { s with ctxs := s.ctxs.setIfInBounds c k }

/-- Bytes of the location of an atomic or a reduction of a type. -/
def opWidth : Ty → Nat | .i64 => 8 | .f16 | .bf16 => 2 | _ => 4

/-- The location and length a landing-buffer entry writes. -/
def LbKind.range : LbKind → Option (Loc × Nat)
  | .store l bs => some (l, bs.length)
  | .red _ ty _ l _ _ _ => some (l, opWidth ty)
  | _ => none

/-- The 256-byte line around a range (05 R114 locks lines). -/
def lineSpan (l : Loc) (n : Nat) : Loc × Nat :=
  let lo := l.addr / 256 * 256
  (⟨l.store, lo⟩, (l.addr + n + 255) / 256 * 256 - lo)

/-- A column's undo log reaches a range: a provisional write at its home, or a locked line (05 R114). -/
def Column.undoOn (k : Column) (l : Loc) (n : Nat) : Bool :=
  k.undo.any fun u => match u with
    | .mem _ u old locked => if locked then (let (a, z) := lineSpan u old.length; overlaps a z l n) else overlaps u old.length l n
    | _ => false

def LbKind.isRed : LbKind → Bool | .red .. => true | _ => false

/-- A column's landing buffer reaches a range; `reds` whether with its reductions, which perform at their home only (05 R108). -/
def Column.lbOn (k : Column) (reds : Bool) (l : Loc) (n : Nat) : Bool :=
  k.lb.any fun e => (reds || !e.kind.isRed) && match e.kind.range with
    | some (u, z) => overlaps u z l n
    | none => false

/-- A column's provisional steps reach a range: an undo entry, a locked line, or a landing-buffer entry (05 R112-R114). -/
def Column.touches (k : Column) (l : Loc) (n : Nat) : Bool := k.undoOn l n || k.lbOn true l n

/-- Bytes of a reduction's location. -/
def WqRed.width (r : WqRed) : Nat := opWidth r.ty

/-- Reductions wait in a write queue for the range (05 R108); with `col` those of one column alone. -/
def State.queued (s : State) (col : Option Nat) (l : Loc) (n : Nat) : Bool :=
  s.wq.any fun r => (match col with | some c => columnOf r.x.core == c | none => true) && overlaps r.loc r.width l n

/-- A clean copy in the L2 is to be fetched again before the range can be read (20 R345). -/
def State.l2Waits (s : State) (l : Loc) (n : Nat) : Bool :=
  l.store == .dram && (sectors l n).any fun b => s.l2bad.contains (b.addr, false)

/-- An agent of column `me` (none: outside every column) must wait before a step on the range (05 R112, R114, log entry 47). -/
def State.heldOff (s : State) (me : Option Nat) (l : Loc) (n : Nat) : Bool :=
  s.queued none l n || s.l2Waits l n || (List.range 32).any fun c => some c != me && (s.col c).touches l n

/-- A confirmed write of column c waits at its home: for the column's own earlier reductions there, and for other columns' provisional writes and
locks. Reductions of other columns take their place when they perform. -/
def State.drainHeld (s : State) (c : Nat) (l : Loc) (n : Nat) : Bool :=
  s.queued (some c) l n || s.l2Waits l n || (List.range 32).any fun d => d != c && ((s.col d).undoOn l n || (s.col d).lbOn false l n)

/-- A reduction takes its place before another of another column: a load of its own column has read a value with it, before any has with the other
(04 R83). -/
def RedMark.before (c : Nat) (a : RedMark) (d : Nat) (b : RedMark) : Bool :=
  match a.seen, b.seen with
  | some x, some y => x < y || (x == y && c < d)
  | some _, none => true
  | none, _ => false

/-- Reductions of other columns, of another operation or type, that have not performed and take their place before one of column c on a range. -/
def State.redAfter (s : State) (c op : Nat) (ty : Ty) (mark : RedMark) (l : Loc) (n : Nat) : Bool :=
  let goes (d o : Nat) (u : Ty) (m : RedMark) (a : Loc) : Bool :=
    d != c && (o != op || u != ty) && RedMark.before d m c mark && overlaps a (opWidth u) l n
  ((List.range 32).any fun d => (s.col d).lb.any fun e => match e.kind with
    | .red o u _ a _ _ m => goes d o u m a
    | _ => false) ||
  s.wq.any fun r => goes (columnOf r.x.core) r.op r.ty r.mark r.loc

/-- A reduction of column c waits at its home: for provisional writes and locks of other columns, for its own column's locks, and for reductions that
take their place before it. -/
def State.redHeld (s : State) (c op : Nat) (ty : Ty) (mark : RedMark) (l : Loc) : Bool :=
  let n := opWidth ty
  s.l2Waits l n || s.redAfter c op ty mark l n || (List.range 32).any fun d => (s.col d).undoOn l n || (d != c && (s.col d).lbOn false l n)

/-- Bytes of a range with a byte string laid over them. -/
def overlay (l : Loc) (bs : List Byte) (u : Loc) (new : List Byte) : List Byte :=
  if !overlaps l bs.length u new.length then bs else
  bs.zipIdx.map fun (b, i) =>
    if u.addr ≤ l.addr + i ∧ l.addr + i < u.addr + new.length then new.getD (l.addr + i - u.addr) b else b

/-- Blocks of 64 bytes that a range meets (05 R113). -/
def blocks64 (l : Loc) (n : Nat) : List Loc :=
  if n = 0 then [] else
  (List.range ((l.addr + n - 1) / 64 - l.addr / 64 + 1)).map fun i => ⟨l.store, (l.addr / 64 + i) * 64⟩

/-- An epoch of the column has been confirmed (05 R111). -/
def Column.confirmed (k : Column) (e : Nat) : Bool := e < k.epoch && !(k.ended.any fun p => p.1 ≤ e)

/-- A block of the landing buffer: the epoch, and the 64 bytes it holds, of this device (0) or of a peer (its endpoint and 1). The requests of an
epoch, and its decrements of completion counters, share one. DESIGN CHOICE (log entry 62): 05 R113 counts blocks of writes alone. -/
abbrev LbBlock := Nat × Option (Nat × Loc)

def Column.lbKeys (k : Column) : List LbBlock :=
  k.lb.flatMap fun e => match e.kind.range with
    | some (u, z) => (blocks64 u z).map fun b => (e.epoch, some (0, b))
    | none => [(e.epoch, none)]

/-- Blocks of a range at a peer. -/
def peerKeys (epoch fep pa n : Nat) : List LbBlock := (blocks64 ⟨.dram, pa⟩ n).map fun b => (epoch, some (fep + 1, b))

/-- The key of the n-th outbound record of a column: a block of its own. -/
def recordKeyOf (epoch n : Nat) : LbBlock := (epoch, some (2 ^ 32 + 1 + n, ⟨.dram, 0⟩))

/-- The ranges at a peer that a packet writes: its endpoint, address and length. -/
def OutKind.peerRanges : OutKind → List (Nat × Nat × Nat)
  | .peerWrite fep _ pa bs _ => [(fep, pa, bs.length)]
  | .peerRed fep _ pa _ ty _ _ | .peerAtom fep _ pa _ ty _ _ _ => [(fep, pa, opWidth ty)]
  | .peerObj a _ => (a.fep, a.pa, a.len) :: match a.op with | .fill _ (some b) => [(a.fep, b, 16)] | _ => []
  | .event .. | .peerReply .. => []

/-- Outbound data of a column that waits for confirmation, and its fault records; the packet stands at place n of the gate. -/
def OutPkt.lbKeys (p : OutPkt) (c : Nat) (k : Column) (n : Nat) : List LbBlock :=
  match p.deps.find? fun d => d.1 == c && !k.confirmed d.2 with
  | none => []
  | some d => match OutKind.peerRanges p.kind with
    | [] => [recordKeyOf d.2 n]
    | us => us.flatMap fun u => peerKeys d.2 u.1 u.2.1 u.2.2

/-- Workgroups of a column whose last group has retired in an epoch that is not confirmed: the decrement of their launch's counter is held. -/
def Workgroup.lbKeys (w : Workgroup) (c : Nat) : List LbBlock :=
  if columnOf w.core == c && !w.groups.isEmpty && w.groups.all fun g => g.retired.isSome then
    [((w.groups.filterMap (·.retired)).foldl max 0, none)] else []

/-- The blocks of a column's landing buffer that are taken: writes to one block within one epoch share it (05 R113). -/
def State.lbKeys (s : State) (c : Nat) : List LbBlock :=
  ((s.col c).lbKeys ++ s.out.zipIdx.flatMap (fun p => p.1.lbKeys c (s.col c) p.2) ++ s.wgs.flatMap fun w => w.lbKeys c).eraseDups

/-- Room for further blocks (05 R113: 2,048 blocks). -/
def State.lbFits (s : State) (c : Nat) (new : List LbBlock) : Bool :=
  new.isEmpty || (s.lbKeys c ++ new).eraseDups.length ≤ 2048

/-- Room for a request of column c that is no write of bytes. -/
def State.reqRoom (s : State) (c : Nat) : Bool := s.lbFits c [((s.col c).epoch, none)]

/-- Room for n fault records of column c. -/
def State.recRoom (s : State) (c : Nat) (n : Nat := 1) : Bool :=
  s.lbFits c ((List.range n).map fun i => recordKeyOf (s.col c).epoch (s.out.length + i))

/-- The clusters of a column (00 R1). -/
def clustersOfCol (c : Nat) : List Nat := [c / 16 * 32 + c % 16, c / 16 * 32 + 16 + c % 16]

/-- A copy of a line in a cluster cache after a write: a word that the write covers whole is good. -/
def Copy.renewed (k : Copy) (l : Loc) (n : Nat) : Copy :=
  { k with bad := k.bad.filter fun w => !(l.addr ≤ k.line + 8 * w && k.line + 8 * w + 8 ≤ l.addr + n) }

/-- A write of column c updates the copies that its own clusters hold (02 R36). -/
def State.renewCopies (s : State) (c : Nat) (l : Loc) (n : Nat) : State :=
  if l.store != .dram then s
  else (clustersOfCol c).foldl (fun t k => t.setCluster k { t.cluster k with copies := (t.cluster k).copies.map fun x => x.renewed l n }) s

/-- A provisional write at its home by an agent of column c, its pre-image logged; `locked` for a line outside the column. -/
def State.putProv (s : State) (c : Nat) (l : Loc) (bs : List Byte) (locked : Bool) : State :=
  let k := s.col c
  let pre := Undo.mem k.epoch l (s.bytesAt l bs.length) locked
  let covered (b : Loc) : Bool := b.store == l.store && l.addr ≤ b.addr && b.addr + sectorSize b.store ≤ l.addr + bs.length
  let lost := s.bad.filter covered
  let lost2 := s.l2bad.filter fun b => covered ⟨.dram, b.1⟩
  let badPre := if lost.isEmpty && lost2.isEmpty then [] else [Undo.bad k.epoch lost lost2]
  ((s.setCol c { k with undo := badPre ++ pre :: k.undo }).put l bs).renewCopies c l bs.length

/-- A store by an agent of column c: to its own column at once, elsewhere through the landing buffer (05 R113). DESIGN CHOICE (log entry 71): a store
that updates a line's copy in a cluster cache is no use of the line for its replacement. -/
def State.colStore (s : State) (c ctx lnum : Nat) (l : Loc) (bs : List Byte) : State :=
  if bs.isEmpty then s
  else if locColumn l == some c then s.putProv c l bs false
  else
    let k := s.col c
    (s.setCol c { k with lb := k.lb ++ [{ epoch := k.epoch, ctx, lnum, kind := .store l bs }] }).renewCopies c l bs.length

/-- Whether a store by column c to a range has room. -/
def State.storeRoom (s : State) (c : Nat) (l : Loc) (n : Nat) : Bool :=
  locColumn l == some c || s.lbFits c ((blocks64 l n).map fun b => ((s.col c).epoch, some (0, b)))

/-- Earlier writes of the column to 64-byte blocks of a range that have not performed, in its landing buffer or in a write queue, must drain first
(05 R114). -/
def State.mustDrain (s : State) (c : Nat) (l : Loc) (n : Nat) : Bool :=
  let near (u : Loc) (z : Nat) : Bool := (blocks64 u z).any fun b => (blocks64 l n).contains b
  ((s.col c).lb.any fun e => match e.kind.range with
    | some (u, z) => near u z
    | none => false) ||
  s.wq.any fun q => columnOf q.x.core == c && near q.loc q.width

/-! ### Writes to peers that have not performed (05 R113, R119) -/

/-- Who writes with a packet to a peer. -/
def OutKind.writer : OutKind → Option Writer
  | .peerWrite _ _ _ _ x | .peerRed _ _ _ _ _ _ x | .peerAtom _ _ _ _ _ _ _ x | .peerObj _ x => some x
  | _ => none

/-- A packet writes into a range of a peer. -/
def OutPkt.onPeer (p : OutPkt) (fep pa n : Nat) : Bool :=
  (OutKind.peerRanges p.kind).any fun u => u.1 == fep && u.2.1 < pa + n && pa < u.2.1 + u.2.2

/-- What has left for peers, or is about to, and may write there: writes until they are acknowledged, atomics and objects' steps until they are
answered. -/
def State.toPeers (s : State) : List OutPkt := s.out ++ s.peerWrites ++ s.peerSteps

/-- Writes of this device into a range of a peer have not been acknowledged, at the egress gate or beyond it. -/
def State.peerBusy (s : State) (fep pa n : Nat) : Bool := s.toPeers.any fun p => p.onPeer fep pa n

/-- A write of a column into a range of a peer still stands before the egress gate, or one has left and is not acknowledged: a read of the column that
goes to the peer waits for it, so that it returns nothing older (05 R119, log entry 75). -/
def State.peerHeld (s : State) (c fep pa n : Nat) : Bool :=
  s.toPeers.any fun p => p.onPeer fep pa n && (OutKind.writer p.kind).any fun x => columnOf x.core == c

/-- An atomic's or an object's step at a peer has been answered. -/
def State.answered (s : State) (mine : OutKind → Bool) : State := { s with peerSteps := s.peerSteps.filter fun p => !mine p.kind }

/-- The bytes of a peer's range that the column's own stores at the egress gate cover whole (05 R113, Forwarding); none where they do not, or where an
atomic or a reduction of the column is among them. -/
def State.peerForward (s : State) (c fep pa n : Nat) : Option (List Byte) :=
  let mine := s.out.filter fun p => p.onPeer fep pa n && (OutKind.writer p.kind).any fun x => columnOf x.core == c
  let stores := mine.filterMap fun p => match p.kind with | .peerWrite _ _ u bs _ => some (u, bs) | _ => none
  let byte (a : Nat) : Option Byte := (stores.reverse.find? fun w => w.1 ≤ a && a < w.1 + w.2.length).bind fun w => w.2[a - w.1]?
  if stores.length != mine.length then none
  else (List.range n).foldr (fun i r => match byte (pa + i), r with | some b, some bs => some (b :: bs) | _, _ => none) (some [])

end Sys2Proof.Machine
end

