-- ==== Sys2Proof/Machine/Num.lean ====
section
/-!
DEFINITION. Number formats and arithmetic on exact values: 03 R55-R71. An exact value is a NaN, an infinity or a dyadic number;
quotients and roots are rounded from an exact ratio. Flags are the bits of GSTAT (Table 3.4).
-/

namespace Sys2Proof.Machine

/-! ### Flags (Table 3.4) -/

abbrev Flags := Word
def fINX : Flags := 1
def fUF : Flags := 2
def fOV : Flags := 4
def fDZ : Flags := 8
def fNV : Flags := 16
def fOQBAD : Flags := 32
def fPINREF : Flags := 64
def fif (b : Bool) (f : Flags) : Flags := if b then f else 0

/-! ### Formats (Table 3.2) -/

/-- A floating-point format: exponent and mantissa widths, bias, whether it has infinities, its largest finite magnitude and its
canonical NaN (none for E2M1). -/
structure Fmt where
  eb : Nat
  mb : Nat
  bias : Nat
  hasInf : Bool
  maxCode : Nat
  nan : Option Nat
  deriving DecidableEq, Repr

def FP32 : Fmt := ⟨8, 23, 127, true, 0x7F7FFFFF, some 0x7FC00000⟩
def FP16 : Fmt := ⟨5, 10, 15, true, 0x7BFF, some 0x7E00⟩
def BF16 : Fmt := ⟨8, 7, 127, true, 0x7F7F, some 0x7FC0⟩
def E4M3 : Fmt := ⟨4, 3, 7, false, 0x7E, some 0x7F⟩
def E5M2 : Fmt := ⟨5, 2, 15, true, 0x7B, some 0x7E⟩
def E2M1 : Fmt := ⟨2, 1, 1, false, 0x7, none⟩

/-- Rounding modes (03 R61). -/
inductive Mode
  | rne | rtz | rdn | rup
  deriving DecidableEq, Repr

def modeOf (x : Nat) : Mode :=
  match x % 4 with | 0 => .rne | 1 => .rtz | 2 => .rdn | _ => .rup

/-- An exact value: m × 2^e with a sign, which a zero carries too. -/
inductive FVal
  | nan
  | inf (neg : Bool)
  | fin (neg : Bool) (m : Nat) (e : Int)
  deriving DecidableEq, Repr

def FVal.zero (neg : Bool) : FVal := .fin neg 0 0
def FVal.isNan : FVal → Bool | .nan => true | _ => false
def FVal.isInf : FVal → Bool | .inf _ => true | _ => false
def FVal.isZero : FVal → Bool | .fin _ 0 _ => true | _ => false
def FVal.neg? : FVal → Bool | .inf n => n | .fin n _ _ => n | .nan => false
def FVal.negate : FVal → FVal | .nan => .nan | .inf n => .inf (!n) | .fin n m e => .fin (!n) m e
def FVal.abs : FVal → FVal | .nan => .nan | .inf _ => .inf false | .fin _ m e => .fin false m e

/-- The value of a code (03 R58). -/
def Fmt.decode (f : Fmt) (code : Nat) : FVal :=
  let neg := code / 2 ^ (f.eb + f.mb) % 2 == 1
  let e := code / 2 ^ f.mb % 2 ^ f.eb
  let m := code % 2 ^ f.mb
  if f.hasInf && e == 2 ^ f.eb - 1 then (if m == 0 then .inf neg else .nan)
  else if !f.hasInf && f.nan.isSome && e == 2 ^ f.eb - 1 && m == 2 ^ f.mb - 1 then .nan
  else if e == 0 then .fin neg m (1 - f.bias - f.mb : Int)
  else .fin neg (m + 2 ^ f.mb) ((e : Int) - f.bias - f.mb)

/-- The sign bit of a format's code. -/
def Fmt.sign (f : Fmt) (neg : Bool) : Nat := if neg then 2 ^ (f.eb + f.mb) else 0

/-- The code of NaN; +0 in E2M1, which has none (03 R62). -/
def Fmt.nanCode (f : Fmt) : Nat := f.nan.getD 0

/-- The code of an infinity, or of the largest finite value where the format has none. -/
def Fmt.infCode (f : Fmt) (neg : Bool) : Nat :=
  f.sign neg + (if f.hasInf then (2 ^ f.eb - 1) * 2 ^ f.mb else f.maxCode)

/-! ### Magnitudes -/

/-- floor(log2(n / d)) for positive n and d. -/
def log2Ratio (n d : Nat) : Int :=
  let a := Nat.log2 n
  let b := Nat.log2 d
  if a ≥ b then (if n < d * 2 ^ (a - b) then (a : Int) - b - 1 else (a : Int) - b)
  else (if n * 2 ^ (b - a) < d then (a : Int) - b - 1 else (a : Int) - b)

/-- n / d × 2^k as an integer quotient and whether the remainder is below, at or above one half, with `sticky` an amount
beyond it: (quotient, 0 exact, 1 below half, 2 half, 3 above half). -/
def scaleDiv (n d : Nat) (k : Int) (sticky : Bool) : Nat × Nat :=
  let num := if k ≥ 0 then n * 2 ^ k.toNat else n
  let den := if k ≥ 0 then d else d * 2 ^ (-k).toNat
  let q := num / den
  let r := num % den
  let c := if 2 * r > den then 3 else if 2 * r == den then (if sticky then 3 else 2)
           else if r == 0 && !sticky then 0 else 1
  (q, c)

/-- Whether a magnitude is incremented (03 R61). -/
def roundsUp (mode : Mode) (neg : Bool) (q c : Nat) : Bool :=
  match mode with
  | .rne => c == 3 || (c == 2 && q % 2 == 1)
  | .rtz => false
  | .rdn => neg && c != 0
  | .rup => !neg && c != 0

/-- How a magnitude is rounded: in a mode, or stochastically with z (03 R64). -/
inductive Rnd
  | mode (m : Mode)
  | sr (z : Nat)
  deriving DecidableEq, Repr

/-- The integer that n / d × 2^k rounds to, and whether it is inexact. -/
def roundQ (r : Rnd) (neg : Bool) (n d : Nat) (k : Int) (sticky : Bool) : Nat × Bool :=
  match r with
  | .mode m =>
    let (q, c) := scaleDiv n d k sticky
    (if roundsUp m neg q c then q + 1 else q, c != 0)
  | .sr z =>
    let num := if k ≥ 0 then n * 2 ^ k.toNat else n
    let den := if k ≥ 0 then d else d * 2 ^ (-k).toNat
    ((num * 2 ^ 32 + z * den) / (den * 2 ^ 32), num % den != 0)

/-- The code and flags of an overflow (03 R62); `sat` forces the largest finite value (09 R216). DESIGN CHOICE (log entry 72): R62 has no column for
stochastic rounding, which overflows to infinity as RNE does. -/
def overflow (f : Fmt) (r : Rnd) (neg sat : Bool) : Nat × Flags :=
  let big := f.sign neg + f.maxCode
  let toInf := match r with
    | .mode .rne => true | .mode .rtz => false | .mode .rdn => neg | .mode .rup => !neg | .sr _ => true
  (if sat || !f.hasInf || !toInf then big else f.infCode neg, fOV ||| fINX)

/-- round(n / d × 2^e, fmt) of a positive magnitude, with flags (03 R61, R62, R64, R66). -/
def roundMag (f : Fmt) (r : Rnd) (sat neg : Bool) (n d : Nat) (e : Int) (sticky : Bool) : Nat × Flags :=
  let l := log2Ratio n d + e
  let emin : Int := 1 - f.bias
  if l > (2 ^ f.eb : Int) + 1 then overflow f r neg sat
  else
    let u : Int := max l emin - f.mb
    -- far below the smallest subnormal the quotient is 0 and the remainder below half
    let (q, inx) := if l < emin - f.mb - 40 then
        ((match r with | .mode .rdn => if neg then 1 else 0 | .mode .rup => if neg then 0 else 1 | _ => 0), true)
      else roundQ r neg n d (e - u) sticky
    let (q, u) := if q == 2 ^ (f.mb + 1) then (2 ^ f.mb, u + 1) else (q, u)
    let code := if q < 2 ^ f.mb then q else (u + f.mb + f.bias).toNat * 2 ^ f.mb + (q - 2 ^ f.mb)
    if code > f.maxCode then overflow f r neg sat
    else (f.sign neg + code, fif inx fINX ||| fif (inx && l < emin) fUF)

/-- round(x, fmt, mode): the code and the flags (00 R4, 03 R60-R62). -/
def roundF (f : Fmt) (r : Rnd) (sat : Bool) : FVal → Nat × Flags
  | .nan => (f.nanCode, fif f.nan.isNone fNV)
  | .inf neg => (f.infCode neg, fif (!f.hasInf) fOV)
  | .fin neg 0 _ => (f.sign neg, 0)
  | .fin neg m e => roundMag f r sat neg m 1 e false

/-! ### Sums and products -/

/-- The signed mantissa of a finite value at exponent e0, at most its own. -/
def atExp (neg : Bool) (m : Nat) (e e0 : Int) : Int := (if neg then -1 else 1) * (m * 2 ^ (e - e0).toNat : Nat)

/-- Sign of an exact zero sum (03 R61): -0 when every term is -0, and in RDN when terms of both signs cancel. -/
def zeroSign (mode : Mode) (signs : List Bool) : Bool := signs.all id || (mode == .rdn && signs.any id)

/-- The exact sum of finite terms. -/
def sumFin (mode : Mode) (ts : List (Bool × Nat × Int)) : FVal :=
  let e0 := ts.foldl (fun a t => if t.2.1 == 0 then a else min a t.2.2) (ts.foldl (fun a t => max a t.2.2) (-100000))
  let v := ts.foldl (fun a t => if t.2.1 == 0 then a else a + atExp t.1 t.2.1 t.2.2 e0) (0 : Int)
  if v == 0 then .fin (zeroSign mode (if ts.all (·.2.1 == 0) then ts.map (·.1) else [false, true])) 0 0
  else .fin (v < 0) v.natAbs e0

/-- An exact sum with its invalid flag (03 R60, 08 R192). -/
def sumExact (mode : Mode) (vs : List FVal) : FVal × Flags :=
  let pinf := vs.any fun v => v == .inf false
  let ninf := vs.any fun v => v == .inf true
  if pinf && ninf then (.nan, fNV)
  else if vs.any FVal.isNan then (.nan, 0)
  else if pinf then (.inf false, 0)
  else if ninf then (.inf true, 0)
  else (sumFin mode (vs.filterMap fun v => match v with | .fin n m e => some (n, m, e) | _ => none), 0)

/-- An exact product with its invalid flag. -/
def mulExact : FVal → FVal → FVal × Flags
  | .nan, _ => (.nan, 0)
  | _, .nan => (.nan, 0)
  | .inf a, .inf b => (.inf (a != b), 0)
  | .inf a, .fin b m _ => if m == 0 then (.nan, fNV) else (.inf (a != b), 0)
  | .fin a m _, .inf b => if m == 0 then (.nan, fNV) else (.inf (a != b), 0)
  | .fin a m e, .fin b n k => (.fin (a != b) (m * n) (e + k), 0)

/-- A sum of terms in the 64-bit window of 03 R69, rounded once. `invalid`: some product was 0 × ∞. DESIGN CHOICE (log entry 72): where terms were
truncated, UF is judged on v, and a sum S of zero sets INX alone. -/
def windowSum (f : Fmt) (r : Rnd) (mode : Mode) (terms : List FVal) (invalid : Bool) : Nat × Flags :=
  let pinf := terms.any fun v => v == .inf false
  let ninf := terms.any fun v => v == .inf true
  if invalid || (pinf && ninf) then (f.nanCode, fNV)
  else if terms.any FVal.isNan then (f.nanCode, 0)
  else if pinf then (f.infCode false, 0)
  else if ninf then (f.infCode true, 0)
  else
    let ts := terms.filterMap fun v => match v with | .fin n m e => some (n, m, e) | _ => none
    let nz := ts.filter fun t => t.2.1 != 0
    if nz.isEmpty then (f.sign (zeroSign mode (ts.map (·.1))), 0)
    else
      let top := nz.foldl (fun a t => max a ((Nat.log2 t.2.1 : Int) + t.2.2)) (-100000)
      let w := top - 65
      let cut (t : Bool × Nat × Int) : Nat × Bool :=
        let k := t.2.2 - w
        if k ≥ 0 then (t.2.1 * 2 ^ k.toNat, false)
        else (t.2.1 / 2 ^ (-k).toNat, t.2.1 % 2 ^ (-k).toNat != 0)
      let sum := nz.foldl (fun a t => a + (if t.1 then -1 else 1) * ((cut t).1 : Int)) (0 : Int)
      let st := nz.any fun t => (cut t).2
      if sum == 0 then
        if st then (f.sign false, fINX) else (f.sign (zeroSign mode [false, true]), 0)
      else if st then
        -- the bits below the window make the result inexact, whatever v rounds to (09 R208)
        let n := 2 * sum.natAbs + 1
        let (c, g) := roundMag f r false (sum < 0) n 1 (w - 1) false
        (c, g ||| fINX ||| fif ((Nat.log2 n : Int) + (w - 1) < 1 - f.bias) fUF)
      else roundMag f r false (sum < 0) sum.natAbs 1 w false

/-! ### Comparisons -/

/-- Order of finite and infinite values, a zero of either sign equal to the other. -/
def FVal.cmp : FVal → FVal → Ordering
  | .inf a, .inf b => if a == b then .eq else if a then .lt else .gt
  | .inf a, _ => if a then .lt else .gt
  | _, .inf b => if b then .gt else .lt
  | .fin a m e, .fin b n k =>
    let e0 := min e k
    compare (atExp a m e e0) (atExp b n k e0)
  | _, _ => .eq

def FVal.lt (a b : FVal) : Bool := !a.isNan && !b.isNan && a.cmp b == .lt

/-- The smaller with -0 below +0, the other operand where one is NaN (09 R209). -/
def fminV (a b : FVal) : FVal :=
  if a.isNan then b else if b.isNan then a
  else if a.lt b then a else if b.lt a then b
  else if a.neg? then a else b
def fmaxV (a b : FVal) : FVal :=
  if a.isNan then b else if b.isNan then a
  else if a.lt b then b else if b.lt a then a
  else if a.neg? then b else a

/-! ### Integers -/

/-- Width of an integer type (Table 3.1). -/
def intWidth : Ty → Nat
  | .i8 | .ui8 | .i8x4 => 8
  | .i16 | .ui16 => 16
  | .i64 => 64
  | _ => 32

def tySigned : Ty → Bool
  | .i8 | .i16 | .i32 | .i64 | .i8x4 => true
  | _ => false

/-- The integer an operand of a type holds (03 R56). -/
def intOf (ty : Ty) (v : Nat) : Int :=
  if tySigned ty then sext (intWidth ty) v else (v % 2 ^ intWidth ty : Nat)

/-- The register contents of an integer of a type, extended under 03 R56: 32 bits, or 64 for i64. -/
def intBits (ty : Ty) (x : Int) : Nat :=
  if ty == .i64 then wrap 64 x else wrap 32 (intOf ty (wrap (intWidth ty) x))

/-- Range of an integer type. -/
def intMin (ty : Ty) : Int := if tySigned ty then -(2 ^ (intWidth ty - 1) : Nat) else 0
def intMax (ty : Ty) : Int := if tySigned ty then (2 ^ (intWidth ty - 1) : Nat) - 1 else (2 ^ intWidth ty : Nat) - 1
/-- sat(x, type) (03 R55). -/
def satI (ty : Ty) (x : Int) : Int := clampI (intMin ty) (intMax ty) x

/-- A value rounded to an integer, with whether it is inexact; 0 for a NaN or an infinity. -/
def roundInt (r : Rnd) : FVal → Int × Bool
  | .fin neg m e =>
    if m == 0 then (0, false)
    else if (Nat.log2 m : Int) + e < -40 then
      let up := match r with | .mode .rdn => neg | .mode .rup => !neg | _ => false
      ((if up then 1 else 0) * (if neg then -1 else 1), true)
    else
      let (q, inx) := roundQ r neg m 1 e false
      ((if neg then -1 else 1) * (q : Int), inx)
  | _ => (0, false)

/-- Conversion of a floating value to an integer in a range (03 R63). -/
def toIntSat (r : Rnd) (lo hi : Int) (v : FVal) : Int × Flags :=
  match v with
  | .nan => (0, fNV)
  | .inf neg => (if neg then lo else hi, fNV)
  | .fin _ m e =>
    if m != 0 && (Nat.log2 m : Int) + e > 80 then (if v.neg? then lo else hi, fNV)
    else
      let (x, inx) := roundInt r v
      if x < lo then (lo, fNV) else if hi < x then (hi, fNV) else (x, fif inx fINX)

/-- An integer as an exact value. -/
def ofInt (x : Int) : FVal := .fin (x < 0) x.natAbs 0

/-! ### The stochastic hash (03 R64) -/

def mix (v : Word) : Word :=
  let v := (v ^^^ (v >>> 16)) * 0x7FEB352D
  let v := (v ^^^ (v >>> 15)) * 0x846CA68B
  v ^^^ (v >>> 16)

/-! ### Roots and series -/

/-- floor(sqrt n) by bits, from bit k down. -/
def isqrtFrom : Nat → Nat → Nat → Nat
  | 0, _, r => r
  | k + 1, n, r =>
    let t := r + 2 ^ k
    isqrtFrom k n (if t * t ≤ n then t else r)

def isqrt (n : Nat) : Nat := isqrtFrom (Nat.log2 n / 2 + 1) n 0

/-- Fraction bits of the series below. -/
def prec : Nat := 320

/-- A value rounded from a fixed-point approximation of an irrational magnitude, good to about 2^-300: the exact value is never a
tie, and no tie of FP32 lies that near to one (log entry 11). -/
def roundFixed (neg : Bool) (x : Nat) : Nat :=
  if x == 0 then FP32.sign neg else (roundMag FP32 (.mode .rne) false neg x 1 (-(prec : Int)) true).1

/-- Sum of x^k / k! from term k on, for 0 ≤ x < 2^prec. -/
def expSeries : Nat → Nat → Nat → Nat → Nat
  | 0, _, _, _ => 0
  | fuel + 1, k, term, x => term + expSeries fuel (k + 1) (term * x / 2 ^ prec / (k + 1)) x

def expFixed (x : Nat) : Nat := expSeries 120 0 (2 ^ prec) x

/-- Sum of z^(2k+1) / (2k+1). -/
def atanhSeries : Nat → Nat → Nat → Nat → Nat
  | 0, _, _, _ => 0
  | fuel + 1, k, zp, z2 => zp / (2 * k + 1) + atanhSeries fuel (k + 1) (zp * z2 / 2 ^ prec) z2

/-- ln(n / d) for d ≤ n < 2d. -/
def lnRatio (n d : Nat) : Nat :=
  let z := (n - d) * 2 ^ prec / (n + d)
  2 * atanhSeries 110 0 z (z * z / 2 ^ prec)

def ln2Fixed : Nat := lnRatio 2 1 -- the series converges as 9^-k

/-- arctan(1 / q) with p fraction bits: alternating sum. -/
def atanInv : Nat → Nat → Nat → Nat → Bool → Int
  | 0, _, _, _, _ => 0
  | fuel + 1, k, pw, q2, sub =>
    (if sub then -1 else 1) * ((pw / (2 * k + 1) : Nat) : Int) + atanInv fuel (k + 1) (pw / q2) q2 (!sub)

/-- π × 2^p by Machin's formula. -/
def piFixed (p : Nat) : Nat :=
  let g := p + 16
  ((16 * atanInv 160 0 (2 ^ g / 5) 25 false - 4 * atanInv 60 0 (2 ^ g / 239) 57121 false) / 2 ^ 16).toNat

/-- Alternating series x^k / k! in steps of two: sine from k = 1, cosine from k = 0. -/
def trigSeries : Nat → Nat → Nat → Nat → Bool → Int
  | 0, _, _, _, _ => 0
  | fuel + 1, k, term, x2, sub =>
    (if sub then -1 else 1) * (term : Int) + trigSeries fuel (k + 2) (term * x2 / 2 ^ prec / ((k + 1) * (k + 2))) x2 (!sub)

def sinFixed (x : Nat) : Nat := (trigSeries 60 1 x (x * x / 2 ^ prec) false).toNat
def cosFixed (x : Nat) : Nat := (trigSeries 60 0 (2 ^ prec) (x * x / 2 ^ prec) false).toNat

/-- |x| mod π/2 as (quadrant, fixed-point remainder), the argument reduced exactly enough for every FP32 value. -/
def reducePi (m : Nat) (e : Int) : Nat × Nat :=
  let g := prec + 160
  let half := piFixed (g + 1)   -- π/2 × 2^(g+2)
  let x := if e + (g + 2 : Int) ≥ 0 then m * 2 ^ (e + (g + 2 : Int)).toNat else m / 2 ^ (-(e + (g + 2 : Int))).toNat
  (x / half, x % half / 2 ^ 162)

/-! ### Special functions (09 R212, R213, Table 9.4) -/

/-- FDIV: a correctly rounded quotient (09 R212). -/
def fdivF (r : Rnd) (a b : FVal) : Nat × Flags :=
  match a, b with
  | .nan, _ => (FP32.nanCode, 0)
  | _, .nan => (FP32.nanCode, 0)
  | .inf _, .inf _ => (FP32.nanCode, fNV)
  | .inf x, .fin y _ _ => (FP32.infCode (x != y), 0)
  | .fin x _ _, .inf y => (FP32.sign (x != y), 0)
  | .fin x m e, .fin y n k =>
    if n == 0 then (if m == 0 then (FP32.nanCode, fNV) else (FP32.infCode (x != y), fDZ))
    else if m == 0 then (FP32.sign (x != y), 0)
    else roundMag FP32 r false (x != y) m n (e - k) false

/-- FSQRT (09 R212). -/
def fsqrtF (r : Rnd) : FVal → Nat × Flags
  | .nan => (FP32.nanCode, 0)
  | .inf neg => if neg then (FP32.nanCode, fNV) else (FP32.infCode false, 0)
  | .fin neg m e =>
    if m == 0 then (FP32.sign neg, 0)
    else if neg then (FP32.nanCode, fNV)
    else
      let m2 := if e % 2 == 0 then m * 2 ^ 80 else m * 2 ^ 81
      let k : Int := if e % 2 == 0 then e - 80 else e - 81
      let q := isqrt m2
      if q * q == m2 then roundMag FP32 r false false q 1 (k / 2) false
      else roundMag FP32 r false false q 1 (k / 2) true

def rne : Rnd := .mode .rne

def frcpF : FVal → Nat × Flags
  | .nan => (FP32.nanCode, 0)
  | .inf neg => (FP32.sign neg, 0)
  | .fin neg m e =>
    if m == 0 then (FP32.infCode neg, fDZ)
    else ((roundMag FP32 rne false neg 1 m (-e) false).1, 0)

def frsqF : FVal → Nat × Flags
  | .nan => (FP32.nanCode, 0)
  | .inf neg => if neg then (FP32.nanCode, fNV) else (FP32.sign false, 0)
  | .fin neg m e =>
    if m == 0 then (FP32.infCode neg, fDZ)
    else if neg then (FP32.nanCode, fNV)
    else
      -- 1 / sqrt(m × 2^e), e made even
      let m2 := if e % 2 == 0 then m else 2 * m
      let k : Int := if e % 2 == 0 then e else e - 1
      let q := isqrt (2 ^ 400 / m2)
      let exact := q * q * m2 == 2 ^ 400
      ((roundMag FP32 rne false false q 1 (-200 - k / 2) (!exact)).1, 0)

def fexp2F : FVal → Nat × Flags
  | .nan => (FP32.nanCode, 0)
  | .inf neg => (if neg then 0 else FP32.infCode false, 0)
  | .fin neg m e =>
    if m == 0 then (0x3F800000, 0)
    else if (Nat.log2 m : Int) + e ≥ 8 then (if neg then 0 else FP32.infCode false, 0)
    else
      -- |A| = n + f / 2^prec
      let x := if e + (prec : Int) ≥ 0 then m * 2 ^ (e + (prec : Int)).toNat else m / 2 ^ (-(e + (prec : Int))).toNat
      let n := x / 2 ^ prec
      let f := x % 2 ^ prec
      let (ip, fr) : Int × Nat := if !neg then (n, f) else if f == 0 then (-(n : Int), 0) else (-(n : Int) - 1, 2 ^ prec - f)
      if ip ≥ 128 then (FP32.infCode false, 0)
      else if fr == 0 then ((roundMag FP32 rne false false 1 1 ip false).1, 0)
      else ((roundMag FP32 rne false false (expFixed (fr * ln2Fixed / 2 ^ prec)) 1 (ip - (prec : Int)) true).1, 0)

def flog2F : FVal → Nat × Flags
  | .nan => (FP32.nanCode, 0)
  | .inf neg => if neg then (FP32.nanCode, fNV) else (FP32.infCode false, 0)
  | .fin neg m e =>
    if m == 0 then (FP32.infCode true, fDZ)
    else if neg then (FP32.nanCode, fNV)
    else
      let k := Nat.log2 m
      let ip : Int := (k : Int) + e
      let fr := lnRatio m (2 ^ k) * 2 ^ prec / ln2Fixed
      if m == 2 ^ k then
        (if ip == 0 then FP32.sign false else (roundMag FP32 rne false (ip < 0) ip.natAbs 1 0 false).1, 0)
      else
        let v : Int := ip * (2 ^ prec : Nat) + fr
        (roundFixed (v < 0) v.natAbs, 0)

/-- Sine or cosine by quadrant. -/
def trigF (cosine : Bool) : FVal → Nat × Flags
  | .nan => (FP32.nanCode, 0)
  | .inf _ => (FP32.nanCode, fNV)
  | .fin neg m e =>
    if m == 0 then (if cosine then 0x3F800000 else FP32.sign neg, 0)
    else if !cosine && (Nat.log2 m : Int) + e < -12 then ((roundMag FP32 rne false neg m 1 e false).1, 0)
    else
      let (q, r) := reducePi m e
      let quad := (q + if cosine then 1 else 0) % 4
      let mag := if quad % 2 == 0 then sinFixed r else cosFixed r
      let sgn := (quad ≥ 2) != (!cosine && neg)
      (roundFixed sgn mag, 0)

def ftanhF : FVal → Nat × Flags
  | .nan => (FP32.nanCode, 0)
  | .inf neg => (FP32.sign neg + 0x3F800000, 0)
  | .fin neg m e =>
    if m == 0 then (FP32.sign neg, 0)
    else if (Nat.log2 m : Int) + e < -12 then ((roundMag FP32 rne false neg m 1 e false).1, 0)
    else if (Nat.log2 m : Int) + e ≥ 5 then (FP32.sign neg + 0x3F800000, 0)
    else
      let x := if e + (prec : Int) ≥ 0 then m * 2 ^ (e + (prec : Int)).toNat else m / 2 ^ (-(e + (prec : Int))).toNat
      -- exp(2x) = exp(2x / 64)^64, six squarings
      let y := expFixed (2 * x / 64)
      let sq (v : Nat) : Nat := v * v / 2 ^ prec
      let ex := sq (sq (sq (sq (sq (sq y)))))
      (roundFixed neg ((ex - 2 ^ prec) * 2 ^ prec / (ex + 2 ^ prec)), 0)

/-! ### Types of registers as values -/

/-- Format of a floating type, or of one element of a packed floating type. -/
def fmtOf : Ty → Fmt
  | .f16 | .f16x2 => FP16
  | .bf16 | .bf16x2 => BF16
  | .e4m3x4 => E4M3
  | .e5m2x4 => E5M2
  | _ => FP32

def tyFloat : Ty → Bool
  | .f32 | .f16 | .bf16 | .f16x2 | .bf16x2 => true
  | _ => false

/-- Elements in a register of a type and the bits of one (03 R56). -/
def elemCount : Ty → Nat
  | .f16x2 | .bf16x2 => 2
  | .e4m3x4 | .e5m2x4 | .i8x4 => 4
  | _ => 1
def elemBits : Ty → Nat
  | .f16 | .bf16 | .f16x2 | .bf16x2 => 16
  | .e4m3x4 | .e5m2x4 | .i8x4 => 8
  | .i64 => 64
  | _ => 32

/-- Element k of a register value. -/
def elemAt (ty : Ty) (v k : Nat) : Nat := v / 2 ^ (k * elemBits ty) % 2 ^ elemBits ty

/-- A register value from its elements, with the flags of each. -/
def packElems (ty : Ty) (es : List (Nat × Flags)) : Nat × Flags :=
  (es.zipIdx.foldl (fun a e => a + e.1.1 % 2 ^ elemBits ty * 2 ^ (e.2 * elemBits ty)) 0, es.foldl (fun a e => a ||| e.2) 0)

/-- Applies a function to each element of a type (09 R194). -/
def perElem (ty : Ty) (f : Nat → Nat × Flags) : Nat × Flags := packElems ty ((List.range (elemCount ty)).map f)

end Sys2Proof.Machine
end

