-- ==== Sys2Proof/Machine/Atomic.lean ====
section
/-!
DEFINITION. The operations of atomics and reductions (10 R232, R233), what a column's own agents read (05 R113), and the
error injector (20 R350).
-/

namespace Sys2Proof.Machine

/-- Bytes of an operand of a type in memory (10 R225). -/
def tyBytes : Ty → Nat
  | .i8 | .ui8 => 1
  | .i16 | .ui16 | .f16 | .bf16 => 2
  | .i64 => 8
  | _ => 4

/-- op(old, c) of Table 10.4: 0 add, 1 min, 2 max, 3 and, 4 or, 5 xor, 6 exchange. No flag is set. -/
def atomOp (op : Nat) (ty : Ty) (old c : Nat) : Nat :=
  let w := 8 * tyBytes ty
  let old := old % 2 ^ w
  let c := c % 2 ^ w
  match op with
  | 0 =>
    if tyFloat ty then
      let f := fmtOf ty
      (perElem ty fun k =>
        roundF f rne false (sumExact .rne [f.decode (elemAt ty old k), f.decode (elemAt ty c k)]).1).1 % 2 ^ w
    else (old + c) % 2 ^ w
  | 1 =>
    if ty == .f32 then (roundF FP32 rne false (fminV (FP32.decode old) (FP32.decode c))).1
    else if intOf ty old ≤ intOf ty c then old else c
  | 2 =>
    if ty == .f32 then (roundF FP32 rne false (fmaxV (FP32.decode old) (FP32.decode c))).1
    else if intOf ty c ≤ intOf ty old then old else c
  | 3 => old &&& c
  | 4 => old ||| c
  | 5 => old ^^^ c
  | _ => c

/-- The bytes of a location range as an agent of column c sees them: the home's, under its own landing-buffer contents. -/
def State.colRead (s : State) (c : Nat) (l : Loc) (n : Nat) : List Byte :=
  (s.col c).lb.foldl (fun bs e =>
    match e.kind with
    | .store u new => overlay l bs u new
    | .red op ty _ u v _ _ =>
      let k := tyBytes ty
      if overlaps l n u k then
        -- the operand bytes lie inside the range or meet it; the old value is read through what is laid over so far
        let old := overlay u (s.bytesAt u k) l bs
        overlay l bs u (leBytes k (atomOp op ty (leNat old) v.toNat))
      else bs
    | _ => bs) (s.bytesAt l n)

/-- An agent of column c reads ranges: the reductions in the column's landing buffer whose values it takes are marked (04 R83). -/
def Column.look (k : Column) (now : Nat) (rs : List (Loc × Nat)) : Column :=
  { k with lb := k.lb.map fun e => match e.kind with
      | .red op ty sc u v x mark =>
        if rs.any fun r => overlaps u (tyBytes ty) r.1 r.2 then { e with kind := .red op ty sc u v x { mark with seen := some (mark.seen.getD now) } } else e
      | _ => e }

def State.look (s : State) (c : Nat) (rs : List (Loc × Nat)) : State :=
  if (s.col c).lb.any fun e => e.kind.isRed then s.setCol c ((s.col c).look s.now rs) else s

/-! ### Counters and injected errors -/

/-- The tower that holds a location (20 R349). -/
def locTower (l : Loc) : Nat :=
  match l.store with
  | .dram => if l.addr < 0x3000000000 then 0 else 1
  | _ => ((locColumn l).getD 0) / 16

/-- Adds to counter i of a tower's block, saturating (Table 20.2). Counter 0 is DSTRK, 7 is UDRAM. -/
def State.count (s : State) (tower i n : Nat) : State :=
  let blk := s.counters[tower]?.getD (Vector.replicate 8 0)
  let v := blk[i]?.getD 0
  let v' : DWord := if v.toNat + n ≥ 2 ^ 64 then BitVec.allOnes 64 else v + BitVec.ofNat 64 n
  { s with counters := s.counters.setIfInBounds tower (blk.setIfInBounds i v') }

/-- The sector INJA names. -/
def State.injSector (s : State) : Loc := ⟨.dram, s.inja.toNat % 2 ^ 48 / 32 * 32⟩

/-- An armed injection meets a read of DRAM ranges that no cluster copy serves (20 R350). -/
def State.injHits (s : State) (rs : List (Loc × Nat)) : Bool :=
  s.injc.getLsbD 0 && rs.any fun r => (sectors r.1 r.2).contains s.injSector

/-- The injection is uncorrectable. -/
def State.injBad (s : State) : Bool := s.injc.getLsbD 1

/-- One read of the injector's sector has been served: a one-shot disarms; a corrected read counts in CDRAM or CL2. -/
def State.injTake (s : State) : State :=
  let s := if s.injc.getLsbD 2 then { s with injc := s.injc &&& ~~~(1 : Word) } else s
  let l2 := (Config.freeValue s.free).getLsbD 0
  let s := { s with free := s.free + 1 }
  let t := locTower s.injSector
  if s.injBad then s.count t (if l2 then 5 else 7) 1 else s.count t (if l2 then 4 else 6) 1

/-- The uncorrectable unit a read of a range meets: one that stands bad, or the injector's. -/
def State.badRead (s : State) (inj : Bool) (l : Loc) (n : Nat) : Option Loc :=
  match s.badIn l n with
  | some b => some b
  | none => if inj && s.injBad && (sectors l n).contains s.injSector then some s.injSector else none

/-- The uncorrectable units of a range (20 R347). -/
def State.badAll (s : State) (l : Loc) (n : Nat) : List Loc :=
  (sectors l n).filter fun b => s.bad.contains b || (b.store == .dram && s.l2bad.contains (b.addr, true))

/-- AUX of a dead-lane record (20 R347): where the error lay. DRAM or L2 is not fixed and is a free value. -/
def State.badPlace (s : State) (b : Loc) : Nat :=
  match b.store with
  | .dram => if s.l2bad.contains (b.addr, true) then 2 else if s.bad.contains b then 1
             else if (Config.freeValue s.free).getLsbD 0 then 2 else 1
  | .sram => 3 | .bs => 4 | .ac => 5

/-- Counts uncorrectable units delivered to a reader (Table 20.2). -/
def State.countBad (s : State) (bs : List Loc) : State :=
  bs.eraseDups.foldl (fun s b =>
    match b.store with
    | .dram => if s.bad.contains b then s.count (locTower b) 7 1
               else if s.l2bad.contains (b.addr, true) then s.count (locTower b) 5 1 else s
    | _ => s.count (locTower b) 3 1) s

/-- Bytes of a column's own landing buffer cover a whole range, so the home is not read (05 R113). -/
def Column.covers (k : Column) (l : Loc) (n : Nat) : Bool :=
  !k.lb.isEmpty && (List.range n).all fun i => k.lb.any fun e => match e.kind with
    | .store u bs => overlaps (locPlus l i) 1 u bs.length
    | _ => false

/-- A store in the column's landing buffer covers a code unit whole; one that covers part of an uncorrectable unit cannot be read back (20 R375). -/
def Column.renews (k : Column) (b : Loc) : Bool :=
  k.lb.any fun e => match e.kind with
    | .store u bs => u.store == b.store && u.addr ≤ b.addr && b.addr + sectorSize b.store ≤ u.addr + bs.length
    | _ => false

/-- One read of a range at its home: the unit it meets, with the injection served and every uncorrectable unit counted (20 R349, R350); units that
`skip` names are good for this reader. -/
def State.meetBut (s : State) (skip : Loc → Bool) (l : Loc) (n : Nat) : Option Loc × State :=
  let inj := s.injHits [(l, n)]
  let units := (s.badAll l n).filter fun b => !skip b
  let injected := inj && s.injBad && (sectors l n).contains s.injSector && !skip s.injSector
  (units.head?.or (if injected then some s.injSector else none), (if inj then s.injTake else s).countBad units)

def State.meet (s : State) (l : Loc) (n : Nat) : Option Loc × State := s.meetBut (fun _ => false) l n

/-- One read of a range by an agent of column c outside the cluster cache: the unit it meets, unless the column's own stores make it good, and the
bytes as the column sees them. -/
def State.readAs (s : State) (c : Nat) (l : Loc) (n : Nat) : Option Loc × List Byte × State :=
  if (s.col c).covers l n && (s.badAll l n).all (s.col c).renews then (none, s.colRead c l n, s.look c [(l, n)])
  else
    let (b, t) := s.meetBut (s.col c).renews l n
    (b, s.colRead c l n, t.look c [(l, n)])

end Sys2Proof.Machine
end

