-- ==== Sys2Proof/Machine/Translate.lean ====
section
/-!
DEFINITION. Address spaces and translation (01 R6-R31): the scratch aperture, page-table entries, cached translations, what an
access resolves to, and the dispatcher's own walks.
-/

namespace Sys2Proof.Machine

/-! ### Context descriptors (Table 1.2) -/

def Context.valid (c : Context) : Bool := c.desc.getLsbD 0
def Context.root (c : Context) : Nat := bits c.desc.toNat 47 12 * 4096
def Context.sae (c : Context) : Bool := c.desc.getLsbD 64
def Context.sab (c : Context) : Nat := bits c.desc.toNat 111 93
def Context.peern (c : Context) : Nat := bits c.desc.toNat 139 128
def Context.peert (c : Context) : Nat := bits c.desc.toNat 175 140 * 4096

/-- The end of populated DRAM (Table 1.7). -/
def dramEnd : Nat := 0x6000000000

/-! ### The scratch aperture (01 R11, R12) -/

def Context.inAperture (c : Context) (va : Nat) : Bool := c.sae && va / 2 ^ 29 == c.sab

/-- The SRAM byte an aperture address names (Table 1.3). -/
def apertureLoc (va : Nat) : Loc := sramLoc (bits va 28 23) (bits va 22 0)

/-- Every byte lies in a scratchpad bank and inside the allocation, filled with zeros since its placement (02 R37), of a resident workgroup of the context
that a test admits. DESIGN CHOICE (log entry
51): one allocation holds all the bytes, so an access across two that abut is not admitted. -/
def State.apertureIn (s : State) (p : Workgroup → Bool) (ctx va n : Nat) : Bool :=
  let cl := bits va 28 23
  let b := bits va 22 0
  n > 0 && va / 2 ^ 29 == (va + n - 1) / 2 ^ 29 && cl == bits (va + n - 1) 28 23 &&
  (s.cluster cl).modes.toList.zipIdx.all (fun (m, i) =>
    if b < (i + 1) * 2 ^ 17 && i * 2 ^ 17 < b + n then (match m with | .scratch _ => true | _ => false) else true) &&
  s.wgs.any fun w => w.ctx == ctx && clusterOf w.core == cl && w.scrBase ≤ b && b + n ≤ w.scrBase + w.scrSize && w.toFill == 0 && p w

/-- An access is admitted: the workgroup has a group which has not retired (01 R12). -/
def State.apertureOk (s : State) (ctx va n : Nat) : Bool := s.apertureIn (fun w => w.groups.any fun g => g.retired.isNone) ctx va n

/-- An access that has been admitted before goes on: the allocation stays until every such access has performed (01 R12). -/
def State.apertureHeld (s : State) (ctx va n : Nat) : Bool := s.apertureIn (fun _ => true) ctx va n

/-! ### Page-table entries (01 R17-R21) -/

/-- What an entry read by a walk gives. -/
inductive EntryRes
  | table (base : Nat)
  | leaf (size : Nat)
  | own                  -- read the address's own entry next (01 R20)
  | fault (k : Cause)
  deriving DecidableEq, Repr

def pteV (e : Nat) : Bool := e % 2 == 1
def pteLeaf (e : Nat) : Bool := bits e 2 2 == 1
def pteX (e : Nat) : Bool := bits e 4 4 == 1
def pteW (e : Nat) : Bool := bits e 5 5 == 1
def pteA (e : Nat) : Bool := bits e 6 6 == 1
def pteD (e : Nat) : Bool := bits e 7 7 == 1
def pteC (e : Nat) : Bool := bits e 9 9 == 1
def pteMT (e : Nat) : Nat := bits e 11 10
def ptePA (e : Nat) : Nat := bits e 47 12 * 4096
def ptePeer (e : Nat) : Nat := bits e 63 52

/-- Page size of a leaf (Table 1.8). -/
def leafSize (level : Nat) (e : Nat) : Nat :=
  match level with
  | 1 => 2 ^ 30 | 2 => 2 ^ 21 | _ => if pteC e then 65536 else 4096

/-- The checks of 01 R19 and R20 on an entry of a level; `first` for the group-first entry of level 3. -/
def checkEntry (level : Nat) (first : Bool) (e : Nat) : EntryRes :=
  if first && !(pteV e && pteC e) then .own
  else if !pteV e then .fault .notPresent
  else
    let leaf := pteLeaf e
    let resBits := bits e 51 48 != 0 || bits e 8 8 != 0 || bits e 3 3 != 0 || bits e 1 1 != 0
    let leafWrong := (level == 0 && leaf) || (level == 3 && !leaf)
    let nonLeafExtra := !leaf && (ptePeer e != 0 || pteMT e != 0 || pteC e || pteD e || pteA e || pteW e || pteX e)
    let cWrong := pteC e && (level != 3 || !first)
    let unaligned := leaf && ptePA e % leafSize level e != 0
    if resBits || leafWrong || pteMT e ≥ 2 || nonLeafExtra || cWrong || unaligned || (ptePeer e != 0 && pteX e) then
      .fault .reservedEntry
    else if leaf then
      (if ptePeer e == 0 && ptePA e + leafSize level e > dramEnd then .fault .physicalAddress else .leaf (leafSize level e))
    else if ptePA e + 4096 > dramEnd then .fault .physicalAddress
    else .table (ptePA e)

/-- Index of a level (Table 1.8). -/
def walkIndex (level va : Nat) : Nat :=
  match level with
  | 0 => bits va 47 39 | 1 => bits va 38 30 | 2 => bits va 29 21 | _ => bits va 20 12

/-- Permission of a leaf for an access (01 R21). -/
def leafPermits (e : Nat) : Access → Option Cause
  | .read => none
  | .write => if pteW e then none else some .writeProtect
  | .exec => if pteX e then none else some .execProtect

/-- The entry after its A bit, and for a write its D bit, is set (01 R22). -/
def entryUpdated (e : Nat) (acc : Access) : Nat :=
  e ||| 0x40 ||| (if acc == .write then 0x80 else 0)

/-! ### Cached translations (01 R23, R24) -/

/-- A cached translation, of the core's own cache or its cluster's, serves an access; a write needs one that has set D. -/
def Xlat.serves (x : Xlat) (ctx core va : Nat) (acc : Access) : Bool :=
  x.ctx == ctx && (x.holder == clusterOf core || x.holder == 64 + core) && x.page ≤ va && va < x.page + x.size &&
  match acc with
  | .read => true
  | .write => x.w && x.d
  | .exec => x.x

/-- Where an address leads. -/
def Xlat.target (x : Xlat) (va : Nat) : Target :=
  match x.peer with
  | none => .mem ⟨.dram, x.pa + (va - x.page)⟩ x.mt
  | some (fep, pctx) => .peer fep pctx (x.pa + (va - x.page)) x.mt

/-- The 4 KiB pages a range meets. -/
def pagesOf (va n : Nat) : List Nat :=
  if n = 0 then [] else (List.range ((va + n - 1) / 4096 - va / 4096 + 1)).map fun i => (va / 4096 + i) * 4096

/-- What an access resolves to. -/
inductive Resolved
  | ok (ps : List Piece)
  | fault (cause : Cause) (addr paddr : Nat)
  | miss (pages : List Nat)
  deriving DecidableEq, Repr

/-- What a page of an access raises: in the aperture, aperture-protection; else the walk fault that its agent holds for it. -/
def State.pageFault (s : State) (ctx : Nat) (xf : List XFault) (acc : Access) (p : Nat) : Option (Cause × Nat) :=
  if (s.ctx ctx).inAperture p then some (.apertureProtect, 0)
  else (xf.find? fun f => f.page == p && f.acc == acc).map fun f => (f.cause, f.paddr)

/-- Resolves the access of n bytes at a global address (01 R7, R11, R12, R17, R31) by an agent of a core, with the walk faults it holds. A
terminal cause is chosen before a resumable one, then the lower page (log entry 6). -/
def State.resolve (s : State) (ctx core : Nat) (xf : List XFault) (va n : Nat) (acc : Access) : Resolved :=
  if va + n > 2 ^ 48 then .fault .nonCanonical va 0
  else if (s.ctx ctx).inAperture va then
    (if s.apertureOk ctx va n then .ok [(.mem (apertureLoc va) 0, n)] else .fault .apertureProtect va 0)
  else
    let ps := pagesOf va n
    let fs := ps.filterMap fun p => (s.pageFault ctx xf acc p).map fun f => (p, f)
    let missing := ps.filter fun p => (s.pageFault ctx xf acc p).isNone && !(s.tlb.any fun x => x.serves ctx core p acc)
    if !missing.isEmpty then .miss missing
    else match fs.find? (fun f => !f.2.1.resumable), fs.head? with
      | some (p, f), _ => .fault f.1 (max va p) f.2
      | none, some (p, f) => .fault f.1 (max va p) f.2
      | none, none =>
        .ok (ps.filterMap fun p =>
          let lo := max va p
          let hi := min (va + n) (p + 4096)
          (s.tlb.find? fun x => x.serves ctx core p acc).map fun x => (x.target lo, hi - lo))

/-- A walk already serves a miss of an agent. -/
def Walk.waits (w : Walk) (ctx page : Nat) (r : WalkReq) : Bool := w.ctx == ctx && w.page == page && w.reqs.contains r

/-- Asks the translation service of the core's tower for pages; misses of one context and page merge onto one walk (01 R25). -/
def State.ask (s : State) (ctx core : Nat) (pages : List Nat) (acc : Access) (who : Requester) : State :=
  let r : WalkReq := { who, acc, core }
  pages.foldl (fun s p =>
    let mine (w : Walk) : Bool := w.tower == towerOf core && w.ctx == ctx && w.page == p
    if s.walks.any mine then
      { s with walks := s.walks.map fun w => if mine w && !w.reqs.contains r then { w with reqs := w.reqs ++ [r] } else w }
    else { s with walks := s.walks ++ [{ tower := towerOf core, ctx, page := p, st := .queued, reqs := [r] }] }) s

/-- An agent waits for no walk any more; a walk that serves no other is given up. -/
def State.forget (s : State) (who : Requester) : State :=
  { s with walks := (s.walks.map fun w => { w with reqs := w.reqs.filter fun r => r.who != who }).filter fun w => !w.reqs.isEmpty }

/-- Bytes of an access from the pieces that lie in this device; none where a piece is a peer's. -/
def piecesLocal (ps : List Piece) : Option (List (Loc × Nat)) :=
  ps.foldr (fun p a => match p.1, a with
    | .mem l _, some r => some ((l, p.2) :: r)
    | _, _ => none) (some [])

/-! ### The walks of the dispatcher and of ports (log entry 46) -/

/-- What one step of such a walk gives. -/
inductive PortStep
  | blocked
  | fault (k : Cause) (paddr : Nat) (s : State)
  | go (st : PortWalkState) (s : State)

/-- One step of a walk: an entry's read with its checks, or the update of A and D at the entry's home. A peer page is not walked here. With
`host`, W and X are ignored (21 R356). -/
def State.portStep (s : State) (ctx page : Nat) (acc : Access) (host : Bool) : PortWalkState → PortStep
  | .done pa => .go (.done pa) s
  | .read level table first =>
    let idx := walkIndex level page
    let l : Loc := ⟨.dram, table + 8 * (if first then idx / 16 * 16 else idx)⟩
    if s.heldOff none l 8 then .blocked
    else match s.meet l 8 with
      | (some b, t) => .fault .physicalAddress b.addr t
      | (none, t) =>
        let e := leNat (s.bytesAt l 8)
        match checkEntry level first e with
        | .fault k => .fault k 0 t
        | .own => .go (.read level table false) t
        | .table base => .go (.read (level + 1) base (level + 1 == 3)) t
        | .leaf size =>
          match if host then none else leafPermits e acc with
          | some k => .fault k 0 t
          | none =>
            if ptePeer e != 0 then .fault .peerInvalid 0 t
            else
              let pa := ptePA e + page % size
              .go (if entryUpdated e acc == e then .done pa else .update l.addr e (entryUpdated e acc) pa) t
  | .update a old new pa =>
    let l : Loc := ⟨.dram, a⟩
    if s.heldOff none l 8 then .blocked
    else match s.meet l 8 with
      | (some b, t) => .fault .physicalAddress b.addr t
      | (none, t) =>
        if leNat (s.bytesAt l 8) == old then .go (.done pa) (t.put l (leBytes 8 new)) else .go (.read 0 (s.ctx ctx).root false) t

/-- The result of a walk: it waits, one step of it has been taken, it faults, or the address. -/
inductive WalkRes
  | blocked
  | more (s : State)
  | fault (k : Cause) (paddr : Nat) (s : State)
  | ok (pa : Nat) (s : State)
  deriving DecidableEq, Repr

/-- The steps of a walk one after the other, with `fuel` for how many. -/
def State.portWalk (ctx page : Nat) (acc : Access) (host : Bool) : Nat → PortWalkState → State → WalkRes
  | _, .done pa, s => .ok pa s
  | 0, _, _ => .blocked
  | fuel + 1, st, s => match s.portStep ctx page acc host st with
    | .blocked => .blocked
    | .fault k pa t => .fault k pa t
    | .go st t => State.portWalk ctx page acc host fuel st t

/-- Translates one address for the dispatcher or a port: in one go, or a step at a time where the move asks for that (04 R84). -/
def State.walkNow (s : State) (ctx va : Nat) (acc : Access) (host : Bool := false) : WalkRes :=
  let page := va / 4096 * 4096
  let start : PortWalkState := .read 0 (s.ctx ctx).root false
  if va ≥ 2 ^ 48 then .fault .nonCanonical 0 s
  else if (s.ctx ctx).inAperture va then .fault .apertureProtect 0 s
  else if !(s.ctx ctx).valid then .fault .notPresent 0 s
  else if !s.split then match State.portWalk ctx page acc host 8 start s with
    | .ok pa t => .ok (pa + va % 4096) t
    | r => r
  else
    let mine (w : PortWalk) : Bool := w.ctx == ctx && w.page == page && w.acc == acc && w.host == host
    match ((s.pwalks.find? mine).map (·.st)).getD start with
    | .done pa => .ok (pa + va % 4096) s
    | st => match s.portStep ctx page acc host st with
      | .blocked => .blocked
      | .fault k pa t => .fault k pa t
      | .go st t => .more { t with pwalks := (t.pwalks.filter fun w => !mine w) ++ [{ ctx, page, acc, host, st }] }

/-- The walks of a context that stand between two steps are forgotten. -/
def State.dropWalks (s : State) (ctx : Nat) : State := { s with pwalks := s.pwalks.filter fun w => w.ctx != ctx }

/-- Why an access of the dispatcher does not perform: it waits, one step of its walks has been taken, or it faults. -/
inductive Stop
  | held
  | more (s : State)
  | fault (k : Cause) (s : State)
  deriving DecidableEq, Repr

/-- Translates parts of a range for the dispatcher in turn. -/
def State.walkEach (s : State) (ctx : Nat) (acc : Access) : List (Nat × Nat) → Except Stop (List (Loc × Nat) × State)
  | [] => .ok ([], s)
  | (va, n) :: rest =>
    match s.walkNow ctx va acc with
    | .blocked => .error .held
    | .more t => .error (.more t)
    | .fault k _ t => .error (.fault k (t.dropWalks ctx))
    | .ok pa t =>
      match State.walkEach t ctx acc rest with
      | .ok (ls, t) => .ok ((⟨.dram, pa⟩, n) :: ls, t)
      | .error e => .error e

/-- Translates a range for the dispatcher, page by page: the locations, and the state with A and D set. -/
def State.walkRange (s : State) (ctx : Nat) (acc : Access) (rs : List (Nat × Nat)) : Except Stop (List (Loc × Nat) × State) :=
  match s.walkEach ctx acc rs with
  | .ok (ls, t) => .ok (ls, t.dropWalks ctx)
  | .error e => .error e

/-- A range cut at 4 KiB boundaries. -/
def cut4k (va n : Nat) : List (Nat × Nat) :=
  (pagesOf va n).map fun p => (max va p, min (va + n) (p + 4096) - max va p)

/-- The dispatcher's write of bytes at a virtual range, once nothing holds it off. -/
def State.dispWrite (s : State) (ctx va : Nat) (bs : List Byte) : Except Stop State :=
  match s.walkRange ctx .write (cut4k va bs.length) with
  | .error e => .error e
  | .ok (ls, s) =>
    if ls.any fun p => s.heldOff none p.1 p.2 then .error .held
    else .ok (ls.foldl (fun (a : State × List Byte) p => (a.1.put p.1 (a.2.take p.2), a.2.drop p.2)) (s, bs)).1

/-- Reads of several ranges: the first uncorrectable unit they meet (20 R347, R350). -/
def State.meetAll (s : State) : List (Loc × Nat) → Option Loc × State
  | [] => (none, s)
  | p :: ps =>
    let (b, t) := s.meet p.1 p.2
    let (c, u) := t.meetAll ps
    (b.or c, u)

/-- The dispatcher's read at locations; the bytes of uncorrectable data are free values (log entry 2). -/
def State.dispTake (s : State) (ls : List (Loc × Nat)) : Except Stop (List Byte × State) :=
  if ls.any fun p => s.heldOff none p.1 p.2 then .error .held
  else match s.meetAll ls with
    | (none, t) => .ok (ls.flatMap fun p => s.bytesAt p.1 p.2, t)
    | (some _, t) => .ok ((List.range ((ls.map (·.2)).foldl (· + ·) 0)).map fun i => Config.freeBytes t.free i, { t with free := t.free + 1 })

/-- The dispatcher's read of a virtual range. -/
def State.dispRead (s : State) (ctx va n : Nat) : Except Stop (List Byte × State) :=
  match s.walkRange ctx .read (cut4k va n) with
  | .error e => .error e
  | .ok (ls, s) => s.dispTake ls

end Sys2Proof.Machine
end

