-- ==== Sys2Proof/Machine/Ops.lean ====
section
/-!
DEFINITION. The named operations over groups: finding and updating them, sequencing, fault records and events, taking an exception
and leaving it (07 R142-R150, R160-R162, 12 R272-R277).
-/

namespace Sys2Proof.Machine

/-! ### Finding and updating groups -/

def Workgroup.isOf (w : Workgroup) (ctx lnum wg : Nat) : Bool := w.ctx == ctx && w.lnum == lnum && w.wg == wg
def Group.isId (g : Group) (id : Nat) : Bool := g.id == id && g.retired.isNone

/-- The resident workgroup of a reference. -/
def State.wgOf (s : State) (r : GRef) : Option Workgroup := s.wgs.find? fun w => w.isOf r.ctx r.lnum r.wg
/-- A group of a workgroup that has not retired. -/
def Workgroup.grp (w : Workgroup) (id : Nat) : Option Group := w.groups.find? fun g => g.isId id

/-- The resident group of a reference, with its workgroup. -/
def State.group? (s : State) (r : GRef) : Option (Workgroup × Group) :=
  match s.wgOf r with
  | none => none
  | some w => (w.grp r.grp).map fun g => (w, g)

/-- A step of a group, taken only while its column does not roll back (20 R342). -/
def State.acting (s : State) (r : GRef) (x : Option State) : Option State :=
  match s.group? r with
  | some (w, _) => if (s.cols[columnOf w.core]?.getD Column.reset).rolling then none else x
  | none => none

def State.modWg (s : State) (r : GRef) (f : Workgroup → Workgroup) : State :=
  { s with wgs := s.wgs.map fun w => if w.isOf r.ctx r.lnum r.wg then f w else w }
def Workgroup.modGrp (w : Workgroup) (id : Nat) (f : Group → Group) : Workgroup :=
  { w with groups := w.groups.map fun g => if g.isId id then f g else g }
def State.modGroup (s : State) (r : GRef) (f : Group → Group) : State := s.modWg r fun w => w.modGrp r.grp f
/-- The state with a group replaced. -/
def State.setGroup (s : State) (r : GRef) (g : Group) : State := s.modGroup r fun _ => g

def State.launchOf (s : State) (ctx lnum : Nat) : Option Launch := s.launches.find? fun l => l.ctx == ctx && l.lnum == lnum
def State.modLaunch (s : State) (ctx lnum : Nat) (f : Launch → Launch) : State :=
  { s with launches := s.launches.map fun l => if l.ctx == ctx && l.lnum == lnum then f l else l }

/-- A core with a function applied to every entry of its queues and its retention store. -/
def Core.mapEntries (k : Core) (f : Entry → Entry) : Core :=
  { k with y := k.y.map (fun q => q.map f), mx := k.mx.map f, kept := k.kept.map f }

/-- The macro bodies of a workgroup's launch (08 R176). -/
def State.macrosOf (s : State) (ctx lnum : Nat) : List (List InstrWord) := ((s.launchOf ctx lnum).map (·.macros)).getD []

/-- Draws a free value (log entry 2). -/
def State.draw (s : State) : BitVec 64 × State := (Config.freeValue s.free, { s with free := s.free + 1 })

/-- Cycle of a column in units of 0.25 ns: twice as long in droop mode (13 R298). -/
def Column.cyc (k : Column) : Nat := if k.droop then 2 else 1

/-- The time an issue takes place at: the device's, the length of the column's cycle, the column's half cycles so far; and whether on an upper core. -/
structure Clock where
  now : Nat
  cyc : Nat
  half : Nat
  upper : Bool := false
  deriving DecidableEq, Repr

def State.clock (s : State) (core : Nat) : Clock :=
  { now := s.now, cyc := (s.col (columnOf core)).cyc, half := (s.col (columnOf core)).cyc2, upper := isUpper core }

/-! ### Registers of a group -/

def Group.sreg (g : Group) (n : Nat) : Word := g.s[n]?.getD 0
def Group.setS (g : Group) (n : Nat) (v : Word) : Group := { g with s := g.s.setIfInBounds n v }
/-- A 64-bit pair: the even register holds the low half (07 R158). -/
def Group.spair (g : Group) (n : Nat) : DWord := g.sreg (n + 1) ++ g.sreg n
def Group.setSP (g : Group) (n : Nat) (v : DWord) : Group := (g.setS n (v.setWidth 32)).setS (n + 1) ((v >>> 32).setWidth 32)
def Group.vreg (g : Group) (n : Nat) : VReg := g.v[n]?.getD []
def Group.setV (g : Group) (n : Nat) (r : VReg) : Group := { g with v := g.v.setIfInBounds n r, vbad := g.vbad.filter fun b => b.1 != n }
/-- The effective map of a vector register (06 R126). -/
def Group.vm (g : Group) (n : Nat) : LaneMap := vmap (g.vreg n) &&& g.live
/-- M0-M13 read as their effective value, M14 as DEAD, M15 as LIVE (06 R126). -/
def Group.mreg (g : Group) (n : Nat) : LaneMap :=
  if n == 14 then g.dead else if n == 15 then g.live else g.m[n]?.getD 0 &&& g.live
def Group.setM (g : Group) (n : Nat) (v : LaneMap) : Group := { g with m := g.m.setIfInBounds n v }
/-- P7 reads true (07 R150). -/
def Group.preg (g : Group) (n : Nat) : Bool := if n == 7 then true else g.p[n]?.getD false
def Group.setP (g : Group) (n : Nat) (v : Bool) : Group := { g with p := g.p.setIfInBounds n v }
def Group.walker (g : Group) (n : Nat) : Walker := g.w[n]?.getD {}
def Group.setW (g : Group) (n : Nat) (v : Walker) : Group := { g with w := g.w.setIfInBounds n v }
/-- ID.THREAD of a lane, through the remapping table (06 R123). -/
def Group.tidOf (g : Group) (l : Nat) : Word := g.tid[l]?.getD 0
/-- GSTAT with flags set; the device only ever sets bits (03 R66). -/
def Group.flag (g : Group) (f : Flags) : Group := { g with gstat := g.gstat ||| f }
def Group.tokBusy (g : Group) (k : Nat) : Bool := g.tok[k]?.getD false
def Group.setTok (g : Group) (k : Nat) (b : Bool) : Group := { g with tok := g.tok.setIfInBounds k b }

/-! ### Guards, tokens -/

def Group.guard (g : Group) (k : Guard) : Bool := g.preg k.p.val != k.neg
/-- Both guards are true (07 R150). -/
def Group.guards (g : Group) (c : Ctl) : Bool := g.guard c.g1 && g.guard c.g2
/-- The token SET names (07 R149). -/
def setTok? (c : Ctl) : Option Nat := if c.set.toNat < 6 then some c.set.toNat else none
/-- Every token named in WAIT is clear (07 R161). -/
def Group.waitOk (g : Group) (c : Ctl) : Bool := (List.range 6).all fun k => !(c.wait.getLsbD k && g.tokBusy k)
/-- The token SET names is free (07 R161). -/
def Group.setOk (g : Group) (c : Ctl) : Bool := match setTok? c with | some k => !g.tokBusy k | none => true

/-! ### Program counter (07 R142-R144) -/

def slotOf (pc : Nat) : Nat := pc % 64 / 12
def lineOf (pc : Nat) : Nat := pc / 64 * 64
/-- An address whose bits [5:0] are 0, 12, 24, 36 or 48 (07 R143). -/
def slotAligned (pc : Nat) : Bool := pc % 64 % 12 == 0 && pc % 64 < 60
/-- The instruction after the one at pc. -/
def nextPc (pc : DWord) : DWord := if pc.toNat % 64 == 48 then pc + 16 else pc + 12
/-- The target of line offset and slot fields (07 R144, 08 R170, R173). -/
def branchTarget (pc : DWord) (off : Int) (slot : Nat) : DWord :=
  BitVec.ofInt 64 ((lineOf pc.toNat : Int) + 64 * off + 12 * slot)

/-- The instruction word in a slot of a line (07 R142). -/
def slotWord (line : List Byte) (slot : Nat) : InstrWord := BitVec.ofNat 96 (leNat ((line.drop (12 * slot)).take 12))
def lineWord (line : List Byte) : Nat := leNat ((line.drop 60).take 4)
/-- TGT bit of a slot (Table 7.2). -/
def tgtBit (line : List Byte) (slot : Nat) : Bool := bits (lineWord line) (27 + slot) (27 + slot) == 1
/-- PAR agrees with the XOR of the instruction bytes (07 R148). -/
def parityOk (line : List Byte) : Bool :=
  (line.take 60).foldl (fun a b => a ^^^ b) 0 == BitVec.ofNat 8 (lineWord line)
def lineReservedOk (line : List Byte) : Bool := bits (lineWord line) 22 8 == 0

/-! ### Issue bookkeeping (07 R160-R162) -/

/-- Marks the producers whose token an instruction waits on. -/
def Group.markWaited (g : Group) (c : Ctl) : Group :=
  { g with hist := g.hist.map fun p => match p.token with
      | some k => if c.wait.getLsbD k then { p with waited := true } else p
      | none => p }

/-- The check of 07 R162: an instruction names a destination of a producer too early. -/
def Group.stallShort (g : Group) (regs : List RegName) : Bool :=
  g.chk && g.hist.any fun p => p.regs.any regs.contains &&
    match p.lat with
    | some l => p.stl < l
    | none => !p.waited

/-- LIVE and DEAD, which are no producers for the check of 07 R162. -/
def RegName.isLive : RegName → Bool | .m n => 14 ≤ n | _ => false

/-- Counts an issued instruction: its STL adds to every producer's sum, it becomes a producer when its guards are true, and the next
issue waits for STL, at least 3 cycles after a taken transfer (07 R160), or none where the two issue as a pair (R147). -/
def Group.counted (g : Group) (c : Ctl) (t : Clock) (performed taken pair : Bool) (regs : List RegName) (lat : Lat) : Group :=
  let stl := c.stl.toNat
  let old := (g.hist.map fun p => { p with stl := p.stl + stl }).filter fun p => match p.lat with
    | some l => p.stl < l
    | none => !p.waited
  let prod := regs.filter fun r => !r.isLive
  let new := if performed && !prod.isEmpty then match lat with
      | .none => []
      | .fixed n => if stl < n then [{ regs := prod, lat := some n, stl, token := none, waited := false }] else []
      | .vary => [{ regs := prod, lat := none, stl, token := setTok? c, waited := false }]
    else []
  let ready := (g.ready.filter fun r => t.now < r.2) ++
    if performed then match lat with | .fixed n => regs.map fun r => (r, t.now + n * t.cyc) | _ => [] else []
  { g with hist := old ++ new, ready, blocked := [], issuedAt := some t.now, lastIssue := t.half, seq := !taken, paired := pair
           nextAt := t.now + (if pair then 0 else max stl (if taken then 3 else 1)) * t.cyc }

/-- The token of a result that is ready a fixed time after its instruction clears then; where the time is not given, a cycle later (07 R161, log
entry 60). One that a result in flight or an engine command holds is taken already, and where the result map is empty it clears at once. -/
def Group.timedTok (g : Group) (c : Ctl) (t : Clock) (regs : List RegName) (empty : Bool) (lat : Lat) : Group :=
  let hold (n : Nat) : Group := match setTok? c with
    | some k => if g.tokBusy k || regs.isEmpty || empty then g else { g.setTok k true with tokAt := g.tokAt ++ [(k, t.now + n * t.cyc)] }
    | none => g
  match lat with
  | .none => g
  | .fixed n => hold n
  | .vary => hold 1

/-- The tokens whose time has come clear. -/
def Group.settle (g : Group) (now : Nat) : Group :=
  if g.tokAt.isEmpty then g
  else
    let due := g.tokAt.filter fun t => t.2 ≤ now
    { due.foldl (fun g t => g.setTok t.1 false) g with tokAt := g.tokAt.filter fun t => now < t.2 }

/-- Steps past the instruction just performed: the next body word of a macro, or the next slot (07 R143, 08 R176). -/
def Group.stepOn (g : Group) (macros : List (List InstrWord)) : Group :=
  match g.mcall with
  | some (m, k) =>
    if k + 1 < (macros.getD m []).length then { g with mcall := some (m, k + 1) }
    else { g with mcall := none, pc := nextPc g.pc }
  | none => { g with pc := nextPc g.pc }

/-! ### Records and events (12 R277, Table 12.4, 21 R355, R358) -/

/-- Lays fields (value, low bit, width) into a number. -/
def fields (fs : List (Nat × Nat × Nat)) : Nat := fs.foldl (fun a f => a + f.1 % 2 ^ f.2.2 * 2 ^ f.2.1) 0

/-- A fault record (Table 12.4). -/
def mkRecord (kind : Nat) (res : Bool) (r : GRef) (core : Nat) (queue iaddr mstep tid : Nat) (f : FaultInfo) : BitVec 512 :=
  BitVec.ofNat 512 (fields
    [(kind, 0, 8), (f.cause.code, 8, 8), (if res then 1 else 0, 16, 1), (r.ctx, 18, 6), (r.lnum, 32, 32), (r.wg, 64, 32),
     (r.grp, 96, 4), (queue, 100, 4), (mstep, 104, 8), (iaddr, 128, 48), (core, 176, 8), (f.addr, 192, 48),
     (f.lanes.toNat, 256, 64), (tid, 320, 32), (f.aux.toNat, 352, 32), (f.paddr, 384, 48)])

/-- A record of kind 1 for a group. -/
def groupRecord (w : Workgroup) (g : Group) (r : GRef) (res : Bool) (f : FaultInfo) : BitVec 512 :=
  let tid := ((lanesOf f.lanes).head?.map g.tidOf).getD 0
  mkRecord 1 res r w.core (if f.queue == 0xFF then 15 else f.queue) (f.iaddr.getD g.pc.toNat) f.mstep tid.toNat f

/-- TAG of an event that answers no command (21 R357). -/
def tagNone : Word := 0xFFFFFFFF

/-- An event on a channel, held at the egress gate until what it depends on is confirmed; ESEQ is given when it leaves. -/
def mkEvent (chan op status : Nat) (tag cseq : Word) (payload : List Byte) : OutKind :=
  .event chan { eseq := 0, op, status, tag, payload, cseq }

def State.send (s : State) (deps : List (Nat × Nat)) (ctx lnum : Nat) (k : OutKind) : State :=
  { s with out := s.out ++ [{ deps, ctx, lnum, kind := k }] }

/-- Sends a fault record on the context's channel, dependent on the column's present epoch. -/
def State.sendRecord (s : State) (col : Option Nat) (ctx lnum : Nat) (rec : BitVec 512) : State :=
  s.send (match col with | some c => [(c, (s.col c).epoch)] | none => []) ctx lnum
    (mkEvent ctx 0x84 0 tagNone 0 (leBytes 64 rec.toNat))

/-! ### Ending a workgroup (06 R133, 12 R273) -/

/-- The groups stop at their next boundary and hold; the rest follows when the epoch is confirmed (WORKGROUP_TERMINATION). A further group that
ends its workgroup adds its record. -/
def State.endWg (s : State) (r : GRef) (rec : BitVec 512) : State :=
  s.modWg r fun w => match w.ending with
    | some e => { w with ending := some { e with records := e.records ++ [rec] } }
    | none => { w with ending := some { epoch := (s.col (columnOf w.core)).epoch, records := [rec] } }

/-! ### Fetched lines -/

/-- A fetch of the line at an address (04 R86, 01 R21): the line, or what the group meets. -/
inductive FetchRes
  | ok (bytes : List Byte) (s : State)
  | fault (f : FaultInfo) (s : State)
  | wait (s : State)

/-- A group fetches a line when its pc, or the target that a transfer checks, needs it. DESIGN CHOICE (log entry 61): it takes the line's bytes as
they stand then, its own column's stores among them, as 04 R86 leaves open when a line is fetched; and an address in the scratch aperture, which has
no X permission, is fetched where an access of it is admitted (01 R21). -/
def State.fetchLine (s : State) (r : GRef) (w : Workgroup) (g : Group) (addr : Nat) : FetchRes :=
  let line := lineOf addr
  match g.lines.find? fun f => f.addr == line with
  | some f => .ok f.bytes s
  | none =>
    match s.resolve r.ctx w.core g.xf line 64 .exec with
    | .fault k _ pa => .fault { cause := k, addr, paddr := pa } s
    | .miss ps => .wait (s.ask r.ctx w.core ps .exec (.group r))
    | .ok ps =>
      match piecesLocal ps with
      | some [(l, _)] =>
        if s.heldOff (some (columnOf w.core)) l 64 then .wait s
        else match s.readAs (columnOf w.core) l 64 with
          | (some _, _, s) => .fault { cause := .uncFetch, addr } s
          | (none, bs, s) => .ok bs (s.modGroup r fun g =>
              { g with lines := g.lines ++ [{ addr := line, bytes := bs, checked := false, second := false }] })
      | _ => .fault { cause := .spaceRange, addr } s

/-! ### Transfers (07 R143, R144, R146) -/

/-- What a checked or unchecked transfer to an address meets. -/
inductive Landing
  | ok (s : State)
  | fault (f : FaultInfo) (s : State)
  | wait (s : State)

/-- Checks a transfer: canonical, a slot address, and with `tgt` a legal branch target. Where the target's line cannot be fetched the transfer
performs nothing, and the fault is reported at the fetched address (01 R30, log entry 21). -/
def State.checkTarget (s : State) (r : GRef) (w : Workgroup) (g : Group) (target : DWord) (tgt : Bool) : Landing :=
  let t := target.toNat
  if t ≥ 2 ^ 48 then .fault { cause := .nonCanonical, addr := t } s
  else if !slotAligned t then .fault { cause := .misalignedInstr, addr := t } s
  else if !tgt then .ok s
  else match s.fetchLine r w g t with
    | .ok bs s => if tgtBit bs (slotOf t) then .ok s else .fault { cause := .branchTarget, addr := t } s
    | .fault f s => .fault { f with iaddr := some t } s
    | .wait s => .wait s

/-! ### Taking an exception (12 R274, R275) -/

/-- A group in a wait that no instruction of its own holds: what it was told of its translations and by peers is void. -/
def Group.faulted (g : Group) (x : Wait) : Group := { g with wait := x, xf := [], got := [], wgot := [], fgot := [], met := {}, blocked := [] }

/-- The trap frame and handler entry: TPC, TCAUSE, TADDR, TMAP and TAUX are written, handler mode is entered, and both watchdog
counts return to 0 (12 R274, R279). The transfer's check of the address and of TGT is the group's own, at the handler (07 R146). DESIGN CHOICE (log
entry 73): the entry is no taken transfer of 07 R160, so the handler's first instruction may issue a cycle later. -/
def Group.enter (g : Group) (f : FaultInfo) (entry : DWord) (now : Nat) : Group :=
  { g with tpc := f.resume
           tcause := BitVec.ofNat 32 (f.queue % 256 * 65536 + f.rstep % 256 * 256 + f.cause.code)
           taddr := BitVec.ofNat 64 f.addr, tmap := f.lanes, taux := f.aux
           handler := true, pc := entry, mcall := none, rstep := 0, entry := true, seq := false, paired := false
           wait := .none, xf := [], got := [], wgot := [], fgot := [], met := {}, blocked := [], waitCnt := 0, runCnt := 0, hold := 0
           nextAt := max g.nextAt (now + 1) }

/-- Ends the workgroup with the group's record. -/
def State.lost (s : State) (r : GRef) (w : Workgroup) (g : Group) (f : FaultInfo) : State :=
  (s.modGroup r fun g => { g with wait := .none }).endWg r (groupRecord w g r false f)

/-- A double fault: the record's AUX is the inner cause (12 R275); it names no physical address (Table 12.4). -/
def State.doubleFault (s : State) (r : GRef) (w : Workgroup) (g : Group) (f : FaultInfo) : State :=
  s.lost r w g { f with cause := .doubleFault, aux := BitVec.ofNat 32 f.cause.code, paddr := 0 }

/-- The question to a peer on whose page the trap table lies. -/
def trapAsk (fep pctx pa : Nat) : PeerAsk := { fep, pctx, pa, len := 8, op := .read }

/-- The 8-byte entry of the trap table for a cause: its value, that it cannot be read, or that it waits; `stay` where nothing has changed. -/
inductive TrapEntry
  | val (e : Nat) (s : State)
  | fail (s : State)
  | wait (s : State)
  | stay

/-- The address of a trap table's entry (Table 12.2). -/
def Group.trapSlot (g : Group) (k : Cause) : Nat := bits g.trapb.toNat 47 11 * 2048 + 8 * k.code

/-- Reads the trap table's entry as one load step of the group, from this device or from a peer (12 R274). -/
def State.trapEntry (s : State) (r : GRef) (w : Workgroup) (g : Group) (k : Cause) : TrapEntry :=
  match s.resolve r.ctx w.core g.xf (g.trapSlot k) 8 .read with
  | .fault _ _ _ => .fail s
  | .miss ps =>
    if ps.all fun p => s.walks.any fun k => k.waits r.ctx p { who := .group r, acc := .read, core := w.core } then .stay
    else .wait (s.ask r.ctx w.core ps .read (.group r))
  | .ok [(.mem l _, n)] =>
    if s.heldOff (some (columnOf w.core)) l n then .stay
    else match s.readAs (columnOf w.core) l n with
      | (some _, _, s) => .fail s
      | (none, bs, s) => .val (leNat bs) s
  | .ok [(.peer fep pctx pa _, _)] =>
    match g.got.find? fun x => x.ask == trapAsk fep pctx pa with
    | some { bytes := some bs, .. } => .val (leNat bs) s
    | some _ => .fail s
    | none => if s.failedPeers.contains fep then .fail s else .stay
  | .ok _ => .fail s

/-- Delivers a group fault. A resumable one parks the group and sends a record (01 R30), which waits for room in the landing buffer (05 R113); for
a terminal one the trap table entry is read, then the handler is entered or the workgroup ends. None while it waits. This is the one operation that
takes an exception; it is a step of the group in its column's epoch. -/
def State.deliver (s : State) (r : GRef) (w : Workgroup) (g : Group) (f : FaultInfo) : Option State :=
  let epoch := (s.col (columnOf w.core)).epoch
  if f.cause.resumable then
    if s.recRoom (columnOf w.core) then
      some ((s.modGroup r fun g => { g.faulted (.parked f) with lastEpoch := epoch }).sendRecord (some (columnOf w.core)) r.ctx r.lnum (groupRecord w g r true f))
    else none
  else if g.handler then some (s.doubleFault r w g f)
  else if !g.trapb.getLsbD 0 then some (s.lost r w g f)
  else match s.trapEntry r w g f.cause with
    | .stay => none
    | .wait s => some s
    | .fail s => some (s.doubleFault r w g f)
    | .val e s => some (if e == 0 then s.lost r w g f else s.modGroup r fun g =>
        { g.enter f (BitVec.ofNat 64 e) s.now with lastEpoch := epoch })

/-- The address and macro step a fault resumes at (Table 12.1): after a TRAP or a BKPT the next instruction, a body's next step
within a macro; otherwise the instruction. -/
def Group.resumeOf (g : Group) (macros : List (List InstrWord)) (k : Cause) : DWord × Nat :=
  let k0 := (g.mcall.map (·.2)).getD g.rstep
  if k == .softwareTrap || k == .breakpoint then
    match g.mcall with
    | some (m, k) => if k + 1 < (macros.getD m []).length then (g.pc, k + 1) else (nextPc g.pc, 0)
    | none => (nextPc g.pc, 0)
  else (g.pc, k0)

/-- Raises a fault on a group: what it waited for is void, and the fault is delivered at once where nothing holds that (01 R30, 12 R274). DESIGN CHOICE
(log entry 73): an instruction that faults, a TRAP or a BKPT too, is not counted as issued in the sums of 07 R160 to R162. -/
def State.raise (s : State) (r : GRef) (w : Workgroup) (g : Group) (f : FaultInfo) : State :=
  let (pc, st) := g.resumeOf (s.macrosOf r.ctx r.lnum) f.cause
  let f := { f with mstep := (g.mcall.map (·.2)).getD g.rstep, resume := pc, rstep := st }
  let s := (s.forget (.group r)).modGroup r fun g => g.faulted (.fault f)
  (s.deliver r w (g.faulted (.fault f)) f).getD s

/-- Leaving a handler: RFT (12 R276, R279). A TPC at an MCALL resumes at TCAUSE.MSTEP, which the MCALL's own issue reads. -/
def Group.leave (g : Group) : Group := { g with handler := false, pc := g.tpc, mcall := none, runCnt := 0 }

end Sys2Proof.Machine
end

