-- ==== Sys2Proof/Machine/Operands.lean ====
section
/-!
DEFINITION. Operand values (07 R155-R159, 06 Table 6.2), result maps (06 R128), destination writes (02 R33, 09 R194).
-/

namespace Sys2Proof.Machine

/-- What an instruction sees when it issues: its group and workgroup, the 64 elements each walker it names supplied, its result map
under R128, the number of the first free value it may use, its column's epoch, what its reads have met, and the time of its issue. -/
structure Env where
  r : GRef
  w : Workgroup
  g : Group
  c : Ctl
  m : LaneMap
  wv : List (Nat × VReg)
  fr : Nat
  epoch : Nat := 0
  met : Met := {}
  now : Nat := 0

/-! ### Constants and identifiers -/

/-- An integer constant in a type (07 R157, log entry 12). -/
def intConst (ty : Ty) (neg : Bool) (n : Nat) : Nat :=
  match ty with
  | .f32 | .f16 | .bf16 | .f16x2 | .bf16x2 | .e4m3x4 =>
    (perElem ty fun _ => roundF (fmtOf ty) rne false (.fin neg n 0)).1
  | .e5m2x4 =>
    let c := (roundF E5M2 rne false (.fin neg n 0)).1
    let c := if E5M2.decode c == .fin neg n 0 || (E5M2.decode c).cmp (.fin neg n 0) == .eq then c else (Config.constE5M2 n).toNat
    (perElem ty fun _ => (c, 0)).1
  | .i8x4 => (perElem ty fun _ => (if neg then wrap 8 (-(n : Int)) else n, 0)).1
  | .i64 => if neg then wrap 64 (-(n : Int)) else n
  | _ => if neg then wrap 32 (-(n : Int)) else n

/-- A floating-point constant m × 2^e in a type; the FP32 pattern in b32 (07 R157). -/
def floatConst (ty : Ty) (neg : Bool) (m : Nat) (e : Int) : Nat :=
  match ty with
  | .f16 | .bf16 | .f16x2 | .bf16x2 | .e4m3x4 | .e5m2x4 => (perElem ty fun _ => roundF (fmtOf ty) rne false (.fin neg m e)).1
  | _ => (roundF FP32 rne false (.fin neg m e)).1

/-- The value of an identifier on a lane (Table 6.2). -/
def identVal (w : Workgroup) (g : Group) (l : Nat) : Ident → Nat
  | .lane => l
  | .thread => (g.tidOf l).toNat
  | .group => g.id
  | .wg => w.wg
  | .nwg => w.nwg
  | .core => w.core
  | .column => columnOf w.core
  | .ngroup => w.ngroup

/-! ### Values -/

/-- The value an operand of a type supplies to a lane, 64 bits for i64 and 32 otherwise. The high half of a walker's element in a
64-bit operand is a free value (log entry 2); a lane past the walker's end has 0 (10 R230). -/
def Env.val (e : Env) (ty : Ty) (o : Operand) (l : Nat) : Nat :=
  match o with
  | .vec n =>
    let lo := (vget (e.g.vreg n) l).toNat
    if ty == .i64 then lo + 2 ^ 32 * (vget (e.g.vreg (n + 1)) l).toNat else lo
  | .sca n => if ty == .i64 then (e.g.spair n).toNat else (e.g.sreg n).toNat
  | .walk n =>
    match (e.wv.find? fun p => p.1 == n.val).bind fun p => vget? p.2 l with
    | some x => if ty == .i64 then x.toNat + 2 ^ 32 * ((Config.freeValue (e.fr + 64 * n + l)).toNat % 2 ^ 32) else x.toNat
    | none => 0
  | .ident i => identVal e.w e.g l i
  | .int n => intConst ty false n
  | .minusOne => intConst ty true 1
  | .fOne => floatConst ty false 1 0
  | .fHalf => floatConst ty false 1 (-1)
  | .fTwo => floatConst ty false 1 1
  | .fMinusOne => floatConst ty true 1 0
  | .signBit => 0x80000000
  | _ => 0

/-- A uniform operand as a 32-bit word. -/
def Env.u (e : Env) (o : Operand) : Nat := e.val .ui32 o 0
/-- A 64-bit scalar pair operand. -/
def Env.pair (e : Env) (o : Operand) : Nat := e.val .i64 o 0
/-- Scalar k of a block that starts at an operand. -/
def Env.blk (e : Env) (o : Operand) (k : Nat) : Nat :=
  match o with
  | .sca n => (e.g.sreg (n + k)).toNat
  | _ => 0
/-- The effective map of a map operand, or of a vector register. -/
def Env.map (e : Env) : Operand → LaneMap
  | .map n => e.g.mreg n
  | .vec n => e.g.vm n
  | _ => e.g.live

/-! ### Result maps (06 R128) -/

/-- The stored maps of the vector registers a list names, within LIVE. -/
def Group.narrow (g : Group) (rs : List RegName) : LaneMap :=
  rs.foldl (fun m r => match r with | .v n => m &&& vmap (g.vreg n) | _ => m) g.live

def Group.rmap (g : Group) (v : View) (f : Form) : LaneMap := g.narrow (srcRegs v f)

/-- Two vector sources differ in effective map. -/
def Group.mapsDiffer (g : Group) (v : View) (f : Form) : Bool :=
  let ms := (srcRegs v f).filterMap fun r => match r with | .v n => some (g.vm n) | _ => none
  ms.any fun a => ms.any fun b => a != b

/-- The effective map of a vector operand, a pair's being common to both registers (07 R158). -/
def Group.omap (g : Group) (fl : Fld) (o : Operand) : LaneMap := g.narrow (fl.regs o)

/-! ### Destinations -/

/-- Writes a vector destination of a type: the stored map becomes the result map (02 R33, 07 R158). -/
def Group.writeV (g : Group) (ty : Ty) (n : Nat) (rs : List (Nat × Nat)) : Group :=
  let lo : VReg := rs.map fun p => (p.1, BitVec.ofNat 32 p.2)
  if ty == .i64 then (g.setV n lo).setV (n + 1) (rs.map fun p => (p.1, BitVec.ofNat 32 (p.2 / 2 ^ 32))) else g.setV n lo

/-- Writes a scalar destination of a type. -/
def Group.writeS (g : Group) (ty : Ty) (o : Operand) (x : Nat) : Group :=
  match o with
  | .sca n => if ty == .i64 then g.setSP n (BitVec.ofNat 64 x) else g.setS n (BitVec.ofNat 32 x)
  | _ => g

/-- Writes a map destination, or a predicate destination. -/
def Group.writeM (g : Group) (o : Operand) (x : LaneMap) : Group := match o with | .map n => g.setM n x | _ => g
def Group.writeP (g : Group) (o : Operand) (x : Bool) : Group := match o with | .pred n => g.setP n x | _ => g

/-- Computes a value and flags per lane of a map into a vector destination, or once, as lane 0 would, into a scalar one (09 R194). -/
def Env.compute (e : Env) (ty : Ty) (d : Operand) (m : LaneMap) (f : Nat → Nat × Flags) : Group :=
  match d with
  | .vec n =>
    let rs := (lanesOf m).map fun l => (l, f l)
    (e.g.writeV ty n (rs.map fun p => (p.1, p.2.1))).flag (rs.foldl (fun a p => a ||| p.2.2) 0)
  | d => (e.g.writeS ty d (f 0).1).flag (f 0).2

/-! ### What an instruction's own meaning answers -/

/-- The answer of an instruction's meaning at issue. -/
inductive Act
  /-- Performed; the group goes on with the next instruction. -/
  | done (s : State) (g : Group)
  /-- A taken transfer; `chk` where TGT is checked (07 R146). -/
  | jump (g : Group) (t : DWord) (chk : Bool)
  /-- Performed; the group's pc is set already, as after a transfer. -/
  | placed (s : State) (g : Group)
  /-- The group parks in the wait it holds, at this instruction. -/
  | park (s : State) (g : Group)
  /-- The group's part is over: it has retired or stopped. -/
  | ends (s : State)
  /-- Raises a fault and performs nothing. -/
  | fault (f : FaultInfo)
  /-- Raises a fault after an effect the rule keeps (TBIND's unbinding, 03 R77). -/
  | faultWith (s : State) (f : FaultInfo)
  /-- Waits to issue; pages to be translated first. -/
  | stay (pages : List Nat) (acc : Access)
  /-- Asks peers, and is tried again when they have answered; `waits` for the first load step of a phase wait, and whether a swap may end it. -/
  | ask (parts : List PeerAsk) (waits : Option Bool := none)

/-- A fault without an address. -/
def Act.trap (k : Cause) : Act := .fault { cause := k }

/-- A vector or scalar result. -/
def Env.result (e : Env) (s : State) (ty : Ty) (d : Operand) (f : Nat → Nat × Flags) : Act := .done s (e.compute ty d e.m f)

end Sys2Proof.Machine
end

