-- ==== Sys2Proof/Machine/Access.lean ====
section
/-!
DEFINITION. Accesses of a group's lanes (01 R7, R8, R31, 04 R84), the cluster cache (02 R36), uncorrectable data and deaths (06 R131-R134,
20 R347), walker reads (10 R229-R231).
-/

namespace Sys2Proof.Machine

/-! ### Spaces (Table 1.1) -/

def localLoc (w : Workgroup) (space off : Nat) : Loc :=
  match space with
  | 1 => sramLoc (clusterOf w.core) (w.scrBase + off)
  | 2 => bsLoc w.core off
  | _ => acLoc w.core off

def spaceSize (w : Workgroup) : Nat → Nat
  | 1 => w.scrSize
  | 2 => 0x200000
  | _ => 0x80000

/-- What the accesses of an instruction's lanes resolve to. -/
inductive AccRes
  | ok (ls : List (Nat × List Piece))
  | fault (f : FaultInfo)
  | miss (pages : List Nat)

/-- The fault chosen among lanes in ascending order: a terminal cause first (01 R31). -/
def chooseFault (fs : List FaultInfo) : Option FaultInfo :=
  match fs.find? fun f => !f.cause.resumable with
  | some f => some f
  | none => fs.head?

/-- Resolves lane accesses (lane, address, length) in a space, every lane before any performs. -/
def State.laneAccess (s : State) (r : GRef) (w : Workgroup) (g : Group) (space : Nat) (acc : Access)
    (ls : List (Nat × Int × Nat)) : AccRes :=
  if space != 0 then
    match ls.find? fun a => decide (a.2.1 < 0) || decide ((spaceSize w space : Int) < a.2.1 + (a.2.2 : Int)) with
    | some a => .fault { cause := .spaceRange, addr := wrap 64 a.2.1, lanes := 1#64 <<< a.1 }
    | none => .ok (ls.map fun a => (a.1, [(.mem (localLoc w space a.2.1.toNat) 0, a.2.2)]))
  else
    let rs := ls.map fun a => (a.1, s.resolve r.ctx w.core g.xf (wrap 64 a.2.1) a.2.2 acc)
    let misses := rs.flatMap fun p => match p.2 with | .miss ps => ps | _ => []
    if !misses.isEmpty then .miss misses.eraseDups
    else match chooseFault (rs.filterMap fun p => match p.2 with
        | .fault k a pa => some { cause := k, addr := a, paddr := pa, lanes := 1#64 <<< p.1 }
        | _ => none) with
      | some f => .fault f
      | none => .ok (rs.map fun p => (p.1, match p.2 with | .ok ps => ps | _ => []))

/-- A uniform access, which concerns no lane. -/
def State.uniAccess (s : State) (r : GRef) (w : Workgroup) (g : Group) (space : Nat) (acc : Access) (ea : Int) (n : Nat) : AccRes :=
  match s.laneAccess r w g space acc [(0, ea, n)] with
  | .fault f => .fault { f with lanes := 0 }
  | a => a

/-- Some local part of the accesses must wait (05 R112, R114). -/
def State.anyHeld (s : State) (core : Nat) (ls : List (Nat × List Piece)) : Bool :=
  ls.any fun p => p.2.any fun q => match q.1 with
    | .mem l _ => s.heldOff (some (columnOf core)) l q.2
    | .peer .. => false

/-! ### The cluster cache (02 R36) -/

def Cluster.cacheB (k : Cluster) : Nat := (k.modes.toList.filter fun m => m == .cache).length
/-- The sectors of a line that a DRAM range meets. -/
def sectorsOf (l : Loc) (n line : Nat) : BitVec 8 :=
  ((List.range 8).filter fun i => l.addr < line + 32 * (i + 1) && line + 32 * i < l.addr + n).foldl (fun m i => m ||| (1#8 <<< i)) 0

/-- A range is served by the cluster cache: every sector it meets has been read into a copy. -/
def Cluster.serves (k : Cluster) (l : Loc) (n line : Nat) : Bool :=
  k.copies.any fun c => c.line == line && sectorsOf l n line &&& ~~~c.sectors == 0

def Cluster.pinned (k : Cluster) (line : Nat) : Bool := k.pins.any fun p => p.line == line
/-- The set of a line (02 R36), and the lines of a set that are pinned, each once. -/
def lineSet (line : Nat) : Nat := line / 256 % 512
def Cluster.pinnedIn (k : Cluster) (set : Nat) : List Nat := ((k.pins.map (·.line)).filter fun a => lineSet a == set).eraseDups

/-- Makes room in a set: where its unpinned copies fill every unpinned way, the least recently used of them goes. -/
def Cluster.room (k : Cluster) (set : Nat) : List Copy :=
  let same := k.copies.filter fun c => lineSet c.line == set && !k.pinned c.line
  if same.length + (k.pinnedIn set).length < k.cacheB then k.copies
  else match same.getLast? with
    | some old => k.copies.erase old
    | none => k.copies

/-- Sectors read into a copy: where one of them was not there, they are all read from its home, and their words are good. -/
def Copy.fill (c : Copy) (sec : BitVec 8) : Copy :=
  if sec &&& ~~~c.sectors == 0 then c
  else { c with sectors := c.sectors ||| sec, bad := c.bad.filter fun w => !sec.getLsbD (w / 4) }

/-- Lines of 256 bytes a DRAM range meets. -/
def lines256 (l : Loc) (n : Nat) : List Nat :=
  if l.store != .dram || n == 0 then [] else
  (List.range ((l.addr + n - 1) / 256 - l.addr / 256 + 1)).map fun i => (l.addr / 256 + i) * 256

/-- Copies of the cluster cache serve a whole range of DRAM. -/
def Cluster.servesAll (k : Cluster) (l : Loc) (n : Nat) : Bool := l.store == .dram && (lines256 l n).all fun a => k.serves l n a

/-- The uncorrectable words of the copies that a range meets, by address. -/
def Cluster.badWords (k : Cluster) (l : Loc) (n : Nat) : List Nat :=
  k.copies.flatMap fun c => (c.bad.map fun w => c.line + 8 * w).filter fun a => l.addr < a + 8 && a < l.addr + n

/-- A line is used or filled: most recent first; a streaming fill least recent (02 R36). A pinned line fills in its own way, whatever the hint (R43). -/
def Cluster.touch (k : Cluster) (line : Nat) (sec : BitVec 8) (h : Hint) (alloc : Bool) : Cluster :=
  match k.copies.find? fun c => c.line == line with
  | some c => { k with copies := (if alloc || k.pinned line then c.fill sec else c) :: k.copies.filter fun c => c.line != line }
  | none =>
    let new : Copy := { line, sectors := sec }
    if k.pinned line then { k with copies := new :: k.copies }
    else if !alloc || k.cacheB ≤ (k.pinnedIn (lineSet line)).length then k
    else { k with copies := if h == .streaming then k.room (lineSet line) ++ [new] else new :: k.room (lineSet line) }

/-! ### Reading (04 R84, 20 R347, R350) -/

/-- A read-only copy of a peer's line enters the L2 of the reading core's tower, unless the page's MT is 01 (02 R52), or a write of this device to the
line is on its way, which the copy would not hold (05 R119). -/
def State.copyPeer (s : State) (tower fep pa mt : Nat) : State :=
  if mt == 0 && !s.peerBusy fep (pa / 256 * 256) 256 &&
      !(s.peerCopies.any fun c => c.tower == tower && c.fep == fep && c.line == pa / 256) then
    { s with peerCopies := s.peerCopies ++ [{ tower, fep, line := pa / 256, at_ := s.now, bytes := [] }] }
  else s

/-- The bytes of a peer's range that a copy of a tower's L2 holds, while the copy is no older than 2 µs (05 R119). -/
def State.peerHit (s : State) (tower fep pa n : Nat) : Option (List Byte) :=
  let byte (a : Nat) : Option Byte := s.peerCopies.findSome? fun c =>
    if c.tower == tower && c.fep == fep && c.line == a / 256 && s.now ≤ c.at_ + 8000 then (c.bytes.find? fun b => b.1 == a).map (·.2) else none
  (List.range n).foldr (fun i r => match byte (pa + i), r with | some b, some bs => some (b :: bs) | _, _ => none) (some [])

/-- A write of this device to a peer's range drops the copies of its lines in both towers, as does a read that goes past them (05 R119). -/
def State.dropPeer (s : State) (fep pa n : Nat) : State :=
  { s with peerCopies := s.peerCopies.filter fun c => !(c.fep == fep && pa / 256 ≤ c.line && c.line ≤ (pa + n - 1) / 256) }

/-- How the lines of an access enter the cluster cache: `load` by its hint; `unit` by the cluster's atomic unit, under every hint, which says only where
the line stands in the order of use (04 R91, 07 R151, log entry 58); `none` not at all. -/
inductive Fill
  | load (h : Hint) | unit (h : Hint) | none
  deriving DecidableEq, Repr

def Fill.allocates : Fill → Bool | .load h => h != .noAlloc | .unit _ => true | .none => false
def Fill.hint : Fill → Hint | .load h | .unit h => h | .none => .normal

/-- A part of a read at a peer: what the column's own stores on their way there cover whole (05 R113), what a copy in the L2 holds where no write of
this device is on its way (05 R119), or a question to the peer. -/
def State.peerPart (s : State) (col fep pctx pa n : Nat) : PeerPart :=
  match s.peerForward col fep pa n with
  | some bs => .here bs
  | none => match if s.peerBusy fep pa n then none else s.peerHit (col / 16) fep pa n with
    | some bs => .here bs
    | none => .there fep pctx pa n

/-- The units that a lane's reads met: the lowest of DRAM goes into the record of its death (06 R134). -/
def lowestBad (bs : List (Loc × Nat)) : Option (Loc × Nat) :=
  match bs.filter fun b => b.2 ≤ 2 with
  | b :: t => some (t.foldl (fun a c => if c.1.addr < a.1.addr then c else a) b)
  | [] => bs.head?

/-- The sectors of a line among units of DRAM. -/
def sectorMask (bs : List Loc) (line : Nat) : BitVec 8 :=
  ((List.range 8).filter fun i => bs.contains ⟨.dram, line + 32 * i⟩).foldl (fun m i => m ||| (1#8 <<< i)) 0

/-- The injected errors that an instruction has met once it has read further ranges. One read of a sector serves the instruction (20 R350). -/
def State.injMet (s : State) (m : Met) (far : List (Loc × Nat)) : List (Loc × Option Nat) :=
  if s.injHits far && !(m.inj.any fun x => x.1 == s.injSector) then
    m.inj ++ [(s.injSector, if s.injBad then some (s.badPlace s.injSector) else none)]
  else m.inj

/-- The uncorrectable units that a read of a range at its home meets, with their places: those that stand, and injected ones. -/
def State.unitsAt (s : State) (col : Nat) (inj : List (Loc × Option Nat)) (l : Loc) (n : Nat) : List (Loc × Nat) :=
  ((s.badAll l n).filter fun b => !(s.col col).renews b).map (fun b => (b, s.badPlace b)) ++
  inj.filterMap fun x => x.2.bind fun p => if (sectors l n).contains x.1 && !(s.col col).renews x.1 then some (x.1, p) else none

/-- Counts what an instruction's reads met for the first time: injected errors, units, words of copies (20 R349, R350). -/
def State.countMet (s : State) (core : Nat) (old new : Met) : State :=
  let t := (if old.inj.length == new.inj.length then s else s.injTake).countBad (new.seen.filter fun b => !old.seen.contains b)
  let ws := new.words.filter fun a => !old.words.contains a
  if ws.isEmpty then t else t.count (towerOf core) 3 ws.length

/-- What reads of ranges (with their pages' MT) by one instruction or command of a core meet: the units of each range, what has been met with `m` before,
and the state after them. Copies of the cluster cache, where it takes part (`cached`), serve a range with their own bad words and no other unit; a sector
that is uncorrectable fills no copy (02 R36, 20 R347, R350, log entry 20). -/
def State.meets (s : State) (core : Nat) (h : Fill) (cached : Bool) (mems : List (Loc × Nat × Nat)) (m : Met) :
    (Loc → Nat → List (Loc × Nat)) × Met × State :=
  let col := columnOf core
  let cl := clusterOf core
  let k := s.cluster cl
  let served (l : Loc) (n : Nat) : Bool := cached && k.servesAll l n
  let far := (mems.filter fun p => p.1.store == .dram && !served p.1 p.2.1 && !(s.col col).covers p.1 p.2.1).map fun p => (p.1, p.2.1)
  let inj := s.injMet m far
  let units (l : Loc) (n : Nat) : List (Loc × Nat) :=
    if served l n then (k.badWords l n).map fun _ => (sramLoc cl 0, 3)
    else s.unitsAt col (if far.contains (l, n) then inj else []) l n
  let stand := mems.flatMap fun p => if served p.1 p.2.1 then [] else (s.unitsAt col [] p.1 p.2.1).map (·.1)
  let words := mems.flatMap fun p => if served p.1 p.2.1 then k.badWords p.1 p.2.1 else []
  let m' : Met := { inj, seen := (m.seen ++ stand).eraseDups, words := (m.words ++ words).eraseDups }
  let spoilt := stand ++ inj.filterMap fun x => x.2.map fun _ => x.1
  let t := (s.countMet core m m').look col (mems.map fun p => (p.1, p.2.1))
  let fill := if cached then mems.flatMap fun p => (lines256 p.1 p.2.1).map fun a =>
    (a, sectorsOf p.1 p.2.1 a &&& ~~~(sectorMask spoilt a), h.allocates && p.2.2 == 0) else []
  (units, m', t.setCluster cl (fill.foldl (fun k a => k.touch a.1 a.2.1 h.hint a.2.2) k))

/-- The ranges of this device that pieces reach, with their MT. -/
def memsOf (ps : List Piece) : List (Loc × Nat × Nat) :=
  ps.filterMap fun q => match q.1 with | .mem l mt => some (l, q.2, mt) | .peer .. => none

/-- Reads accesses of one instruction of a core, `m` what its reads have met before. -/
def State.readAll (s : State) (core : Nat) (h : Fill) (ls : List (Nat × List Piece)) (m : Met) : List (Nat × Got) × Met × State :=
  let col := columnOf core
  let (units, m', t) := s.meets core h true (ls.flatMap fun p => memsOf p.2) m
  let got (ps : List Piece) : Got :=
    { parts := ps.map fun q => match q.1 with
        | .mem l _ => .here (s.colRead col l q.2)
        | .peer fep pctx pa _ => s.peerPart col fep pctx pa q.2
      bad := lowestBad (ps.flatMap fun q => match q.1 with
        | .mem l _ => units l q.2
        | _ => []) }
  (ls.map fun p => (p.1, got p.2), m', ls.foldl (fun s p => p.2.foldl (fun s q => match q.1 with
    | .peer fep _ pa mt => s.copyPeer (towerOf core) fep pa mt
    | _ => s) s) t)

/-- The words a lane's bytes make in registers of a type: one extended word, or one word for each four bytes (03 R56, 10 R225). -/
def regWords (ty : Ty) (bs : List Byte) : List Word :=
  match ty, bs.length with
  | .i8, 1 => [BitVec.ofInt 32 (sext 8 (leNat bs))]
  | .i16, 2 => [BitVec.ofInt 32 (sext 16 (leNat bs))]
  | _, n => bytesToWords ((n + 3) / 4) bs

/-- The lane value a read gives. -/
def Got.laneVal (ty : Ty) (x : Got) : LaneVal :=
  match x.bad with
  | some (b, p) => .bad b p
  | none =>
    if x.parts.all fun p => match p with | .here _ => true | .there .. => false then
      .ok (regWords ty (x.parts.flatMap fun p => match p with | .here bs => bs | .there .. => []))
    else .peer x.parts ty

/-! ### Retiring and dying (06 R131-R134) -/

/-- A group retires: what is in flight to it is discarded; it stays until its epoch is confirmed (08 R177). -/
def State.retire (s : State) (r : GRef) (core : Nat) : State :=
  s.modGroup r fun g => { g with retired := some (s.col (columnOf core)).epoch, lastEpoch := (s.col (columnOf core)).epoch
                                 wait := .none, pend := [], mcall := none, xf := [], got := [], wgot := [], fgot := [], met := {}, blocked := []
                                 issuedAt := some s.now, lastIssue := (s.clock core).half, tok := Vector.replicate 6 false, tokAt := [] }

/-- A group stops where it is and retires without further steps (06 R125). -/
def Group.halt (g : Group) (epoch : Nat) : Group :=
  if g.retired.isSome then g
  else { g with retired := some epoch, lastEpoch := epoch, wait := .none, pend := [], mcall := none, xf := []
                got := [], wgot := [], fgot := [], met := {}, blocked := [], tok := Vector.replicate 6 false, tokAt := [] }

/-- A group whose instruction has begun and has steps left, waiting for them or about to be tried again with what it has read: it reaches its next
instruction boundary when they have been taken (06 R125, R133). -/
def Group.midway (g : Group) : Bool :=
  match g.wait with
  | .lanes _ | .atomic _ | .bind .. | .object _ none => true
  | .none => !(g.wgot.isEmpty && g.fgot.isEmpty && g.got.isEmpty)
  | _ => false

/-- A group has come to an instruction boundary: where its launch has been cancelled it stops there (06 R125). -/
def State.boundary (s : State) (r : GRef) (core : Nat) : State :=
  if ((s.launchOf r.ctx r.lnum).map (·.cancelled)).getD false then s.modGroup r fun g => if g.midway then g else g.halt (s.col (columnOf core)).epoch
  else s

/-- The record of a workgroup whose group lost its last lane (06 R133). -/
def lostRecord (w : Workgroup) (r : GRef) (iaddr : Nat) : BitVec 512 :=
  mkRecord 1 false r w.core 15 iaddr 0 0 { cause := .groupLost }

/-- Lanes die: a dead-lane record is sent once the epoch is confirmed; a group that loses its last lane retires and its workgroup ends. -/
def State.kill (s : State) (r : GRef) (m : LaneMap) (iaddr mstep place paddr : Nat) : State :=
  match s.group? r with
  | none => s
  | some (w, g) =>
    let m := m &&& g.live
    if m == 0 then s
    else
      let f : FaultInfo := { cause := .deadLane, lanes := m, aux := BitVec.ofNat 32 place, paddr := if place ≤ 2 then paddr else 0 }
      let tid := ((lanesOf m).head?.map g.tidOf).getD 0
      let s := (s.modGroup r fun g => { g with live := g.live &&& ~~~m, dead := g.dead ||| m }).sendRecord
        (some (columnOf w.core)) r.ctx r.lnum (mkRecord 3 false r w.core 15 iaddr mstep tid.toNat f)
      if g.live &&& ~~~m == 0 then (s.retire r w.core).endWg r (lostRecord w r iaddr) else s

/-- Kills the lanes of a list that met uncorrectable data, with one record that names the lowest sector (06 R134). -/
def State.killBad (s : State) (r : GRef) (bad : List (Nat × Loc × Nat)) (iaddr mstep : Nat) : State :=
  match lowestBad (bad.map (·.2)) with
  | none => s
  | some low => s.kill r (mapOf (bad.map (·.1))) iaddr mstep low.2 low.1.addr

/-! ### Walkers (10 R229-R231) -/

/-- The walker after a read (10 R230). -/
def Walker.advance (k : Walker) : Walker :=
  if k.done then { k with eod := k.eod ||| 8 }
  else
    let n (j : Nat) : Nat := (k.n[j]?.getD 0).toNat
    let i (j : Nat) : Nat := (k.i[j]?.getD 0).toNat
    let idx (a b c d : Nat) : Vector Word 4 := #v[BitVec.ofNat 32 a, BitVec.ofNat 32 b, BitVec.ofNat 32 c, BitVec.ofNat 32 d]
    if i 0 + 64 < n 0 then { k with i := idx (i 0 + 64) (i 1) (i 2) (i 3) }
    else if i 1 + 1 < n 1 then { k with i := idx 0 (i 1 + 1) (i 2) (i 3), eod := k.eod ||| 1 }
    else if i 2 + 1 < n 2 then { k with i := idx 0 0 (i 2 + 1) (i 3), eod := k.eod ||| 3 }
    else if i 3 + 1 < n 3 then { k with i := idx 0 0 0 (i 3 + 1), eod := k.eod ||| 7 }
    else { k with i := idx 0 0 0 0, eod := k.eod ||| 15, done := true }

/-- The address of the element lane l reads, if it reads one. A stride counts with its sign, as 10 R229 says of
a block's; DESIGN CHOICE (log entry 69): the 40 bits of a record's stride are taken so too. -/
def Walker.elem (k : Walker) (l : Nat) : Option Int :=
  if !k.done && (k.i[0]?.getD 0).toNat + l < (k.n[0]?.getD 0).toNat then
    some ((k.base.toNat : Int) + ((k.i[0]?.getD 0).toNat + l : Nat) * tyBytes k.ty +
      ((List.range 3).map fun j => ((k.i[j + 1]?.getD 0).toNat : Int) * (k.stride[j]?.getD 0).toInt).foldl (· + ·) 0)
  else none

/-! ### What peers answer (05 R102, 20 R347, 21 R362, R363) -/

/-- The question that a part of a read at a peer puts. -/
def PeerPart.ask (op : ObjOp) : PeerPart → Option PeerAsk
  | .here _ => none
  | .there fep pctx pa len => some { fep, pctx, pa, len, op }

/-- What the group knows of a question: the peer's bytes, none of them where the reply is poisoned, refused or the peer has failed, or nothing yet. -/
def State.heard (s : State) (g : Group) (a : PeerAsk) : Option (Option (List Byte)) :=
  if s.failedPeers.contains a.fep then some none else (g.got.find? fun x => x.ask == a).map (·.bytes)

/-- The questions of a read that are still to be answered. -/
def State.missing (s : State) (g : Group) (op : ObjOp) (x : Got) : List PeerAsk :=
  x.parts.filterMap fun p => (p.ask op).bind fun a => if (s.heard g a).isNone then some a else none

/-- A read with the answers in place of its questions; a poisoned one is uncorrectable. -/
def State.settled (s : State) (g : Group) (op : ObjOp) (x : Got) : Got :=
  { parts := x.parts.map fun p => match (p.ask op).bind (s.heard g) with | some (some bs) => .here bs | _ => p
    bad := x.bad.or (if x.parts.any fun p => (p.ask op).bind (s.heard g) == some none then some (⟨.dram, 0⟩, 8) else none) }

/-- Bytes of a read whose questions are answered. -/
def Got.bytes (x : Got) : List Byte := x.parts.flatMap fun p => match p with | .here bs => bs | .there .. => []

/-- The group tries again later (log entry 5). -/
def State.stay (s : State) (r : GRef) (until_ : Nat) : State :=
  s.modGroup r fun g => { g with nextAt := max g.nextAt (max until_ (s.now + 1)) }

/-- The group waits for peers' answers; a question that changes an object leaves through the egress gate, once the landing buffer has room for it (05
R113). -/
def State.askPeers (s : State) (e : Env) (as : List PeerAsk) (waits : Option Bool := none) : State :=
  let as := as.eraseDups
  let col := columnOf e.w.core
  let x : Writer := { r := e.r, core := e.w.core, tid := (e.g.tidOf 0).toNat, iaddr := e.g.pc.toNat, lane := none }
  let steps := as.filter fun a => a.op != .read
  if !s.lbFits col (steps.flatMap fun a => peerKeys (s.col col).epoch a.fep a.pa a.len) then s.stay e.r 0
  else
    let s := s.modGroup e.r fun g => { g with wait := .object as waits }
    steps.foldl (fun s a => s.send [(col, (s.col col).epoch)] e.r.ctx e.r.lnum (.peerObj a x)) s

/-- What reading the walkers of an instruction gives: the environment after it, or why it waits or faults. -/
inductive WalkersRes
  | ok (e : Env) (s : State)
  | fault (f : FaultInfo) (s : State)
  | miss (pages : List Nat)
  | held
  | ask (as : List PeerAsk)
  | park (s : State)

/-- The lane steps of accesses. -/
def laneSteps (as : List (Nat × List Piece)) : List LaneStep := as.map fun a => { lane := a.1, ps := a.2, data := [], regs := [] }

/-- The accesses of a walker's read for the lanes of a map. -/
def State.walkerAccess (s : State) (e : Env) (m : LaneMap) (n : Nat) : AccRes :=
  s.laneAccess e.r e.w e.g 0 .read ((lanesOf m).filterMap fun l => ((e.g.walker n).elem l).map fun a => (l, a, tyBytes (e.g.walker n).ty))

/-- A walker's read with what its lanes have read: it advances, and the lanes that met uncorrectable data die, once the landing buffer has room for
their record (05 R113). -/
def State.walkerDone (s : State) (e : Env) (m : LaneMap) (n : Nat) (gs : List (Nat × Got)) : WalkersRes :=
  let k := e.g.walker n
  let vals : VReg := (lanesOf m).filterMap fun l => (gs.find? fun p => p.1 == l).map fun p => (l, (regWords k.ty p.2.bytes).headD 0)
  let bad := gs.filterMap fun p => p.2.bad.map fun b => (p.1, b)
  if !bad.isEmpty && !s.recRoom (columnOf e.w.core) then .held else
  let s := (s.modGroup e.r fun g => g.setW n k.advance).killBad e.r bad e.g.pc.toNat ((e.g.mcall.map (·.2)).getD 0)
  .ok { e with wv := e.wv ++ [(n, vals)], g := ((s.group? e.r).map fun p => { p.2 with hist := e.g.hist }).getD { e.g with live := 0 } } s

/-- Reads one walker for the lanes of a map (07 R159), unless its lanes have read already. -/
def State.readWalker (s : State) (e : Env) (m : LaneMap) (n : Nat) : WalkersRes :=
  let finish (t : State) (met : Met) (gs : List (Nat × Got)) : WalkersRes :=
    let asks := gs.flatMap fun p => s.missing e.g .read p.2
    if asks.isEmpty then t.walkerDone { e with met } m n (gs.map fun p => (p.1, s.settled e.g .read p.2)) else .ask asks
  match e.g.wgot.find? fun p => p.1 == n with
  | some p => finish s e.met p.2
  | none =>
    match s.walkerAccess e m n with
    | .fault f => .fault f s
    | .miss ps => .miss ps
    | .ok as =>
      if s.anyHeld e.w.core as then .held
      else
        let (gs, met, t) := s.readAll e.w.core (.load (e.g.walker n).ch) as e.met
        finish t met gs

/-- Where an instruction's memory steps are taken one by one, the walker whose lanes read next: the group waits for them (04 R84). -/
def State.walkersPark (s : State) (e : Env) (m : LaneMap) (ns : List Nat) : Option State :=
  if !s.split then none
  else ns.findSome? fun n =>
    if e.g.wgot.any fun p => p.1 == n then none
    else match s.walkerAccess e m n with
      | .ok (a :: as) =>
        if s.anyHeld e.w.core (a :: as) then none
        else
          let q : LaneReq := { kind := .walker n, hint := (e.g.walker n).ch, todo := laneSteps (a :: as), got := [], regs := []
                               vec := true, dst := 0, n := 0, token := none, met := e.met }
          some (s.modGroup e.r fun g => { g with wait := .lanes q })
      | _ => none

/-- Reads walkers in turn, each once. -/
def State.readEach (s : State) (e : Env) (m : LaneMap) : List Nat → WalkersRes
  | [] => .ok e s
  | n :: ns =>
    match s.readWalker e m n with
    | .ok e s => s.readEach e m ns
    | a => a

/-- Reads every walker an instruction names. -/
def State.readWalkers (s : State) (e : Env) (m : LaneMap) (ns : List Nat) : WalkersRes :=
  match s.walkersPark e m ns with
  | some t => .park t
  | none => s.readEach e m ns

end Sys2Proof.Machine
end

