-- ==== Sys2Proof/Machine/Issue.lean ====
section
/-!
DEFINITION. Issue: the checks every instruction word passes (07 R149-R152, R159-R162, R168), what follows its meaning's answer, the
fetch and check of lines (04 R86, 07 R148), and the choice of a group (13 R291).
-/

namespace Sys2Proof.Machine

/-! ### One instruction -/

/-- The registers a result in flight will write. -/
def Pend.regs (p : Pend) : List RegName :=
  (List.range p.n).map fun k => if p.vec then .v (p.first + k) else .s (p.first + k)

/-- The registers an instruction writes: its destinations, and for COMPACT every register that it rewrites, LIVE and DEAD among them (08 R186, 07
R160). -/
def Group.dsts (g : Group) (v : View) (f : Form) : List RegName :=
  dstRegs v f ++ if f.rewrites then ((List.range 128).filter fun n => !(g.vreg n).isEmpty).map .v ++ (List.range 16).map .m else []

/-- Registers an instruction names. -/
def Group.named (g : Group) (v : View) (f : Form) : List RegName := g.dsts v f ++ srcRegs v f
def guardRegs (c : Ctl) : List RegName := [.p c.g1.p.val, .p c.g2.p.val]

/-- The time until which the interlock holds an instruction that names registers: past `now` while a result is not ready (07 R160). -/
def Group.interlock (g : Group) (now cyc : Nat) (regs : List RegName) : Nat :=
  let t := (g.ready.filter fun r => now < r.2 && regs.contains r.1).foldl (fun a r => max a (r.2 + 2 * cyc)) now
  if g.pend.any fun p => p.regs.any regs.contains then max t (now + 1) else t

/-- The group tries again later; where the interlock holds it for results in flight, it notes their registers (07 R160). -/
def State.stayFor (s : State) (r : GRef) (until_ : Nat) (regs : List RegName) : State :=
  (s.stay r until_).modGroup r fun g => { g with blocked := (g.pend.flatMap Pend.regs).filter regs.contains }

/-- The token of an engine command or of a result in flight is taken (07 R161). -/
def Group.takeTok (g : Group) (c : Ctl) : Group := match setTok? c with | some k => g.setTok k true | none => g

/-- Walkers that an instruction names, whether it reads them or not. -/
def namedWalkers (v : View) (f : Form) : List Nat :=
  ((fieldOps v f).filterMap fun (_, o) => match o with | .walk n => some n.val | _ => none) ++ f.binds.toList

/-- The instruction at pc issues together with the next one (07 R147): it was reached in sequence, is not itself the second of a pair, and the two
are independent and of different pipe classes. -/
def Group.pairs (g : Group) (v : View) (f : Form) (now : Nat) : Bool :=
  g.mcall.isNone && g.seq && v.c.stl == 0 && !(g.paired && g.issuedAt == some now) && slotOf g.pc.toNat < 4 &&
  match g.lines.find? fun l => l.addr == lineOf g.pc.toNat with
  | none => false
  | some l =>
    let k := slotOf g.pc.toNat
    (lineWord l.bytes).testBit (23 + k) && 0x11 < (opcOf (slotWord l.bytes k)).toNat &&
    match (decodeWord (slotWord l.bytes (k + 1))).bind viewForm with
    | none => false
    | some (u, h) =>
      f.pipe != h.pipe && !((g.named u h ++ guardRegs u.c).any (g.dsts v f).contains) &&
      !((namedWalkers u h).any (namedWalkers v f).contains)

/-- The result map of an instruction that has been performed, where it writes a vector register: the lanes stored in it, and those that a result in
flight to it is still to write (06 R128). -/
def Group.resultMap (g : Group) (dsts : List RegName) : Option LaneMap :=
  (dsts.findSome? fun r => match r with | .v n => some n | _ => none).map fun n =>
    (vmap (g.vreg n) ||| mapOf ((g.pend.filter fun p => p.regs.contains (.v n)).flatMap fun p => p.lanes.map (·.1))) &&& g.live

/-- Cycles for which an instruction occupies a pipe of its class (07 R164). -/
def Group.beats (g : Group) (ty : Ty) (pipe : Pipe) (upper : Bool) (dsts : List RegName) : Nat :=
  match g.resultMap dsts with
  | none => 1
  | some m => (popc m + 15) / 16 * (if ty == .i64 then 2 else 1) * if pipe == .f && upper then 4 else 1

/-- A pipe of the group's scheduler is occupied beyond the cycle of the issue. -/
def Group.occupy (g : Group) (c : Ctl) (pipe : Pipe) (t : Clock) (dsts : List RegName) : Group :=
  let n := g.beats c.ty pipe t.upper dsts
  { g with pipes := (g.pipes.filter fun p => t.now < p.2) ++ if n ≤ 1 then [] else [(pipe, t.now + n * t.cyc)] }

/-- The time at which a pipe of a scheduler can accept an instruction (13 R291). DESIGN CHOICE (log entry 78): every scheduler has a pipe of each class
of its own, and an instruction that is not performed occupies none. -/
def State.pipeFree (s : State) (core sched : Nat) (pipe : Pipe) : Nat :=
  (s.wgs.flatMap fun w => if w.core == core then (w.groups.filter fun g => g.sched == sched).flatMap fun g =>
    (g.pipes.filter fun p => p.1 == pipe).map (·.2) else []).foldl max s.now

/-- Bookkeeping after an instruction that was performed: producers, stall count, tokens, its pipe, epoch of the last step. An empty result map
completes at once (07 R161). -/
def Group.after (g : Group) (v : View) (f : Form) (t : Clock) (epoch : Nat) (taken : Bool) (dsts : List RegName) : Group :=
  { ((g.counted v.c t true taken (!taken && g.pairs v f t.now) dsts f.lat).timedTok v.c t dsts (g.resultMap dsts == some 0) f.lat).occupy v.c f.pipe t
      dsts with
    lastEpoch := epoch, xf := [], got := [], wgot := [], fgot := [], met := {} }

/-- An instruction whose guards are not both true: it is counted, and performs nothing. -/
def Group.skipped (g : Group) (v : View) (f : Form) (t : Clock) (epoch : Nat) (macros : List (List InstrWord)) : Group :=
  { ((g.markWaited v.c).counted v.c t false false (g.pairs v f t.now) [] .none).stepOn macros with lastEpoch := epoch, got := [], wgot := [], fgot := [], met := {} }

/-- What the reads of an instruction that raises a fault leave: the error injector and the counters as they met them (20 R349, R350). -/
def State.metBy (s t : State) : State := { s with injc := t.injc, counters := t.counters }

/-- What the checks before an instruction's own meaning answer: the state they leave, or that the meaning runs. -/
inductive Admit
  | stop (s : State)
  | go (e : Env) (s : State)

/-- What stands between the checks and a meaning: lanes whose slab word is uncorrectable die (20 R347), once there is room for their record, and the
walkers are read; `all`: for every lane of LIVE. -/
def State.readied (s : State) (r : GRef) (w : Workgroup) (g g1 : Group) (v : View) (f : Form) (all : Bool) : Admit :=
  let m0 := if all then g1.live else g1.rmap v f
  let words := (g1.vbad.filter fun b => (srcRegs v f).contains (.v b.1) && b.2 &&& g1.live != 0).eraseDups
  let bad := words.foldl (fun a b => a ||| (b.2 &&& g1.live)) 0
  let s1 := if bad == 0 then s else (s.count (towerOf w.core) 3 words.length).kill r bad g.pc.toNat ((g.mcall.map (·.2)).getD 0) 6 0
  let g2 := if bad == 0 then g1 else { g1 with live := g1.live &&& ~~~bad, dead := g1.dead ||| bad }
  let e0 : Env := { r, w, g := g2, c := v.c, m := m0, wv := [], fr := s.free, epoch := (s.col (columnOf w.core)).epoch, met := g1.met, now := s.now }
  if bad != 0 && !s.recRoom (columnOf w.core) then .stop (s.stay r 0)
  else if g2.live == 0 then .stop s1
  else match s1.readWalkers e0 m0 ((walkersRead v f).map (·.val)).eraseDups with
    | .fault x t => .stop ((s.metBy t).raise r w g x)
    | .miss ps => .stop ((s.ask r.ctx w.core ps .read (.group r)).stay r 0)
    | .held => .stop (s.stay r 0)
    | .ask ps => .stop (s.askPeers e0 ps)
    | .park t => .stop t
    | .ok e t => if e.g.live == 0 then .stop t else .go { e with m := e.g.rmap v f } t

/-- The time until which an instruction waits for its registers, and for a pipe where its result map is not empty (07 R160, R164). -/
def State.holdUntil (s : State) (w : Workgroup) (g : Group) (v : View) (f : Form) (own : Bool) : Nat :=
  let t := g.interlock s.now (s.clock w.core).cyc (g.named v f)
  if !own && (dstRegs v f).any (fun r => match r with | .v _ => true | _ => false) && g.rmap v f == 0 then t
  else max t (s.pipeFree w.core g.sched f.pipe)

/-- Checks 2 to 6 of 07 R168, WAIT, guards, SET, the interlock, the pipe, check 7, and the walkers. `own`: MC acts as the meaning says, not as
R128 does. -/
def State.checks (s : State) (r : GRef) (w : Workgroup) (g : Group) (v : View) (f : Form) (own all : Bool) : Admit :=
  let cyc := (s.clock w.core).cyc
  match staticFault (isUpper w.core) g.handler w.desc.nreg v f with
  | some k => .stop (s.raise r w g { cause := k })
  | none =>
    if !g.waitOk v.c || s.now < g.interlock s.now cyc (guardRegs v.c) then .stop (s.stay r (g.interlock s.now cyc (guardRegs v.c)))
    else if !g.guards v.c then
      .stop (s.setGroup r (g.skipped v f (s.clock w.core) (s.col (columnOf w.core)).epoch (s.macrosOf r.ctx r.lnum)))
    else if !g.setOk v.c || s.now < s.holdUntil w g v f own then
      .stop (s.stayFor r (s.holdUntil w g v f own) (g.named v f))
    else if !own && v.c.mc && g.mapsDiffer v f then .stop (s.raise r w g { cause := .mapMismatch })
    else if (g.markWaited v.c).stallShort (g.named v f ++ guardRegs v.c) then .stop (s.raise r w g { cause := .stallShort })
    else s.readied r w g (g.markWaited v.c) v f all

/-- What an instruction's answer makes of the state `t` it ran in; `s` is the state before it issued. -/
def State.conclude (s t : State) (r : GRef) (w : Workgroup) (g : Group) (v : View) (f : Form) (a : Act) : State :=
  let k := s.clock w.core
  let epoch := (s.col (columnOf w.core)).epoch
  match a with
  | .done u g' => u.setGroup r ((g'.after v f k epoch false (g.dsts v f)).stepOn (s.macrosOf r.ctx r.lnum))
  | .placed u g' => u.setGroup r (g'.after v f k epoch true (g.dsts v f))
  | .park u g' => u.setGroup r (g'.after v f k epoch false (g.dsts v f))
  | .ends u => u
  | .fault x => (s.metBy t).raise r w g x
  | .faultWith u x => u.raise r w g x
  | .stay ps acc => (s.ask r.ctx w.core ps acc (.group r)).stay r 0
  | .ask ps waits => s.askPeers { r, w, g, c := v.c, m := 0, wv := [], fr := 0 } ps waits
  | .jump g' pc chk =>
    match t.checkTarget r w g pc chk with
    | .ok u => u.modGroup r fun g3 => { g'.after v f k epoch true (g.dsts v f) with pc, lines := g3.lines }
    | .fault x u => u.raise r w g x
    | .wait u => u.stay r 0

/-- Issues an instruction word for a group. -/
def State.issue (s : State) (r : GRef) (w : Workgroup) (g : Group) (v : View) (f : Form) (own all : Bool)
    (body : Env → State → Act) : State :=
  match s.checks r w g v f own all with
  | .stop t => t
  | .go e t => s.conclude t r w g v f (body e t)

/-- The meaning of an instruction word: issued for the group whose turn it is. -/
def issueWord (i : Instr) (s : State) (own all : Bool) (body : View → Env → State → Act) : Host.Outcome State Fault Refusal :=
  match s.cur with
  | none => .fault .noIssuingGroup
  | some r =>
    match s.group? r, viewForm i with
    | some (w, g), some (v, f) => .next (s.issue r w g v f own all (body v))
    | _, _ => .fault .noIssuingGroup

/-! ### Fetching (04 R86, 07 R148) -/

/-- What stands before a group's next instruction. -/
inductive Ahead
  | run (i : Instr) (s : State)
  | done (s : State)

/-- The step of a macro body that a transfer to an MCALL resumes at (12 R276); none where the word there is no MCALL. DESIGN CHOICE (log entry 74): with
TCAUSE.MSTEP 0 the MCALL itself is issued again, its guards with it. -/
def mcallAt (macros : List (List InstrWord)) (line : List Byte) (pc step : Nat) : Option (Nat × Nat) :=
  match decodeWord (slotWord line (slotOf pc)) with
  | some (.mcall _ o) =>
    let m := o.x.toNat % 256
    if 0 < step && step < (macros.getD m []).length then some (m, step) else none
  | _ => none

/-- Checks the line a group issues from, at its first issue from it, and the start address of a group (07 R143, R146, R148). DESIGN CHOICE (log entry
74): at a group's start and at a trap's entry the target's check comes before the checks of the word that lies there. -/
def State.ahead (s : State) (r : GRef) (w : Workgroup) (g : Group) : Ahead :=
  let pc := g.pc.toNat
  if pc ≥ 2 ^ 48 then .done (s.raise r w g { cause := .nonCanonical, addr := pc })
  else if !slotAligned pc then .done (s.raise r w g { cause := .misalignedInstr, addr := pc })
  else match g.lines.find? fun l => l.addr == lineOf pc with
    | none => .done s
    | some l =>
      if !l.checked && !lineReservedOk l.bytes then .done (s.raise r w g { cause := .lineFormat })
      else if !l.checked && !parityOk l.bytes then
        (if l.second then .done (s.raise r w g { cause := .lineFormat })
         else .done (s.modGroup r fun g => { g with wait := .refetch l.addr }))
      else if g.entry && !tgtBit l.bytes (slotOf pc) then .done (s.raise r w g { cause := .branchTarget, addr := pc })
      else
        let macros := s.macrosOf r.ctx r.lnum
        let call := if g.rstep == 0 then g.mcall else mcallAt macros l.bytes pc g.rstep
        let s := s.modGroup r fun g => { g with entry := false, mcall := call, rstep := 0, lines := g.lines.map fun k => if k.addr == l.addr then { k with checked := true } else k }
        let word := match call with
          | some (m, k) => (macros.getD m []).getD k 0
          | none => slotWord l.bytes (slotOf pc)
        match decodeWord word with
        | some i => .run i { s with cur := some r }
        | none =>
          match s.group? r with
          | some (w, g) => .done (s.raise r w g { cause := .illegalOpcode })
          | none => .done s

/-! ### The choice of a group (13 R291) -/

/-- A group may issue now, as far as its own state goes. -/
def Group.ready? (g : Group) (now : Nat) : Bool := g.retired.isNone && g.wait == .none && g.nextAt ≤ now

/-- A workgroup whose groups issue: it neither ends nor is saved, and its scratch has been filled (04 R81). -/
def Workgroup.runs (w : Workgroup) : Bool := w.ending.isNone && !w.saving && w.toFill == 0

/-- A scheduler has issued in the present cycle of its column (07 R164). -/
def State.slotTaken (s : State) (core sched : Nat) : Bool :=
  s.wgs.any fun w => w.core == core && w.groups.any fun g => g.sched == sched && g.issuedAt.isSome && (s.clock core).half < g.lastIssue + 2

/-- Groups of a scheduler that may issue, with their workgroups: one a cycle, or the second of a pair. In a workgroup that ends or is saved, those that
have still to finish an instruction (06 R125, R133). -/
def State.candidates (s : State) (core sched : Nat) : List (Workgroup × Group) :=
  if (s.col (columnOf core)).rolling then [] else
  let busy := s.slotTaken core sched
  s.wgs.flatMap fun w => if w.core == core && w.toFill == 0 then
    (w.groups.filter fun g => g.sched == sched && (w.runs || g.midway) && g.ready? s.now && (!busy || (g.paired && g.issuedAt == some s.now)) &&
      (2 ^ 48 ≤ g.pc.toNat || !slotAligned g.pc.toNat || g.lines.any fun l => l.addr == lineOf g.pc.toNat)).map
      fun g => (w, g) else []

/-- The better of two ready groups, at a number of half cycles of the column: age at least 256 cycles first, then priority, then age, then slot. -/
def better (half : Nat) (prio : Workgroup → Nat) (a b : Workgroup × Group) : Bool :=
  let age (g : Group) : Nat := (half - g.lastIssue) / 2
  let oa := age a.2 ≥ 256
  let ob := age b.2 ≥ 256
  if oa != ob then oa
  else if !oa && prio a.1 != prio b.1 then prio a.1 > prio b.1
  else if age a.2 != age b.2 then age a.2 > age b.2
  else a.2.slot < b.2.slot

/-- Priority of a workgroup: its launch's (13 R287). -/
def prioOf (w : Workgroup) : Nat := w.desc.prio

/-- The next issue of a scheduler: the instruction of the group it chooses, once the line has passed its check. -/
def State.pick (s : State) (core sched : Nat) : Ahead :=
  match s.candidates core sched with
  | [] => .done s
  | c :: cs =>
    let (w, g) := cs.foldl (fun a b => if better (s.clock core).half prioOf b a then b else a) c
    s.ahead { ctx := w.ctx, lnum := w.lnum, wg := w.wg, grp := g.id } w g

/-- Fetches the line of a group's next instruction, if it has not got it (04 R86). -/
def State.fetchNext (s : State) (r : GRef) : Option State :=
  match s.group? r with
  | none => none
  | some (w, g) =>
    if g.wait != .none || !w.runs || g.lines.any (fun l => l.addr == lineOf g.pc.toNat) || g.pc.toNat ≥ 2 ^ 48 then none
    else match s.fetchLine r w g g.pc.toNat with
      | .ok _ s => some s
      | .fault f t => some (t.raise r w g f)
      | .wait t => if t.walks.length == s.walks.length then none else some t

/-- Fetches a line again from its home after a parity mismatch (07 R148). -/
def State.refetch (s : State) (r : GRef) : Option State :=
  match s.group? r with
  | none => none
  | some (w, g) =>
    match g.wait with
    | .refetch line =>
      let g0 := { g with lines := g.lines.filter fun l => l.addr != line }
      match s.fetchLine r w g0 line with
      | .ok bs t => some (t.modGroup r fun g => { g with wait := .none
                                                         lines := (g.lines.filter fun l => l.addr != line) ++
                                                           [{ addr := line, bytes := bs, checked := false, second := true }] })
      | .fault f t => some (t.raise r w g f)
      | .wait t => if t.walks.length == s.walks.length then none else some t
    | _ => none

end Sys2Proof.Machine
end

