-- ==== Sys2Proof/Machine/Flags.lean ====
section
/-!
DEFINITION. Results and flags of the arithmetic forms on one lane (09 R194-R213, 03 R56-R66): each function takes register contents
and gives register contents with the flags the lane sets.
-/

namespace Sys2Proof.Machine

/-! ### Integers (09 R196-R198) -/

/-- A modular operation on integers of a type, on each byte of a packed one. -/
def intOp (ty : Ty) (f : Int → Int → Int) (a b : Nat) : Nat :=
  if ty == .i8x4 then (perElem ty fun k => (wrap 8 (f (sext 8 (elemAt ty a k)) (sext 8 (elemAt ty b k))), 0)).1
  else intBits ty (f (intOf ty a) (intOf ty b))

/-- The high half of a product. -/
def mulHigh (ty : Ty) (a b : Nat) : Nat := intBits ty (Int.fdiv (intOf ty a * intOf ty b) ((2 ^ intWidth ty : Nat) : Int))

/-- Quotient, remainder and DZ (09 R198). -/
def divRem (ty : Ty) (a b : Nat) : Nat × Nat × Flags :=
  let x := intOf ty a
  let y := intOf ty b
  if y == 0 then (intBits ty (if tySigned ty then -1 else intMax ty), intBits ty x, fDZ)
  else (intBits ty (Int.tdiv x y), intBits ty (Int.tmod x y), 0)

/-- Comparison under a condition code 0 to 5 (09 R199). -/
def condHolds (fn : Nat) (lt eq : Bool) : Bool :=
  match fn with | 0 => eq | 1 => !eq | 2 => lt | 3 => lt || eq | 4 => !lt && !eq | _ => !lt

def intCmp (fn : Nat) (ty : Ty) (a b : Nat) : Bool :=
  condHolds fn (decide (intOf ty a < intOf ty b)) (decide (intOf ty a = intOf ty b))

/-! ### Bits (09 R201-R205) -/

def bitW (ty : Ty) : Nat := if ty == .i64 then 64 else 32

/-- Bit i of a truth table indexed by A, B and C (09 R202). -/
def trilBit (x a b c i : Nat) : Bool :=
  x.testBit ((if a.testBit i then 1 else 0) + (if b.testBit i then 2 else 0) + (if c.testBit i then 4 else 0))

def ofBits (w : Nat) (f : Nat → Bool) : Nat := (List.range w).foldl (fun a i => if f i then a + 2 ^ i else a) 0

def trilV (w x a b c : Nat) : Nat := ofBits w fun i => trilBit x a b c i
def shlV (w a n : Nat) : Nat := if n ≥ w then 0 else a * 2 ^ n % 2 ^ w
def shrV (w a n : Nat) : Nat := if n ≥ w then 0 else a % 2 ^ w / 2 ^ n
def sarV (w a n : Nat) : Nat := wrap w (Int.fdiv (sext w a) ((2 ^ min n w : Nat) : Int))

/-- The amount of a funnel shift: .mod or .lim (09 R204). -/
def funnelN (fn n : Nat) : Nat := if fn == 0 then n % 32 else min n 32
def fshlV (fn a b n : Nat) : Nat := ((a % 2 ^ 32 * 2 ^ 32 + b % 2 ^ 32) * 2 ^ funnelN fn n) % 2 ^ 64 / 2 ^ 32
def fshrV (fn a b n : Nat) : Nat := (a % 2 ^ 32 * 2 ^ 32 + b % 2 ^ 32) / 2 ^ funnelN fn n % 2 ^ 32

/-- A field's length, cut to end at bit 31 (09 R205). -/
def fieldLen (p k : Nat) : Nat := if p % 256 ≥ 32 then 0 else min (k % 256) (32 - p % 256)

def bfxV (signed : Bool) (a p k : Nat) : Nat :=
  let n := fieldLen p k
  if n == 0 then 0
  else
    let v := a / 2 ^ (p % 256) % 2 ^ n
    if signed then wrap 32 (sext n v) else v

def bfiV (a b p k : Nat) : Nat :=
  let n := fieldLen p k
  if n == 0 then a
  else
    let q := p % 256
    a % 2 ^ q + b % 2 ^ n * 2 ^ q + a / 2 ^ (q + n) * 2 ^ (q + n)

def popcV (w a : Nat) : Nat := ((List.range w).filter fun i => a.testBit i).length
def clzV (w a : Nat) : Nat := if a % 2 ^ w == 0 then w else w - 1 - Nat.log2 (a % 2 ^ w)
def ctzV (w a : Nat) : Nat := ((List.range w).find? fun i => a.testBit i).getD w
def brevV (w a : Nat) : Nat := ofBits w fun i => a.testBit (w - 1 - i)

/-! ### Floating point (09 R207-R213) -/

/-- Applies an operation on values, element by element, with one rounding. -/
def fElems (ty : Ty) (r : Rnd) (f : Nat → FVal × Flags) : Nat × Flags :=
  perElem ty fun k =>
    let (v, fl) := f k
    let (c, g) := roundF (fmtOf ty) r false v
    (c, fl ||| g)

def fdec (ty : Ty) (v k : Nat) : FVal := (fmtOf ty).decode (elemAt ty v k)

def faddV (ty : Ty) (m : Mode) (a b : Nat) : Nat × Flags := fElems ty (.mode m) fun k => sumExact m [fdec ty a k, fdec ty b k]
def fsubV (ty : Ty) (m : Mode) (a b : Nat) : Nat × Flags := fElems ty (.mode m) fun k => sumExact m [fdec ty a k, (fdec ty b k).negate]
def fmulV (ty : Ty) (m : Mode) (a b : Nat) : Nat × Flags := fElems ty (.mode m) fun k => mulExact (fdec ty a k) (fdec ty b k)

/-- Products of pairs and an addend in the window of 03 R69, rounded once to a format. -/
def dotRound (f : Fmt) (m : Mode) (ps : List (FVal × FVal)) (c : FVal) : Nat × Flags :=
  let prods := ps.map fun p => mulExact p.1 p.2
  windowSum f (.mode m) m (prods.map (·.1) ++ [c]) (prods.any fun p => p.2 != 0)

def ffmaV (ty : Ty) (m : Mode) (a b c : Nat) : Nat × Flags :=
  perElem ty fun k => dotRound (fmtOf ty) m [(fdec ty a k, fdec ty b k)] (fdec ty c k)
def fdot2V (ty : Ty) (m : Mode) (a b c : Nat) : Nat × Flags :=
  dotRound FP32 m [(fdec ty a 0, fdec ty b 0), (fdec ty a 1, fdec ty b 1)] (FP32.decode c)

def fminMax (max : Bool) (ty : Ty) (a b : Nat) : Nat × Flags :=
  ((fElems ty rne fun k => ((if max then fmaxV else fminV) (fdec ty a k) (fdec ty b k), 0)).1, 0)

/-- FCMP's condition; code 6 is .ord (09 R210). -/
def fCmp (fn : Nat) (ty : Ty) (a b : Nat) : Bool :=
  let x := fdec ty a 0
  let y := fdec ty b 0
  let un := x.isNan || y.isNan
  match fn with
  | 6 => !un
  | 1 => un || x.cmp y != .eq
  | n => !un && condHolds n (x.cmp y == .lt) (x.cmp y == .eq)

/-- FRND: an integral value of the same format, no flag (09 R207). -/
def frndV (ty : Ty) (m : Mode) (a : Nat) : Nat × Flags :=
  let f := fmtOf ty
  match fdec ty a 0 with
  | .nan => (f.nanCode, 0)
  | .inf n => (f.infCode n, 0)
  | .fin n q e =>
    if e ≥ 0 then ((roundF f rne false (.fin n q e)).1, 0)
    else ((roundF f rne false (.fin n (roundInt (.mode m) (.fin n q e)).1.natAbs 0)).1, 0)

/-- FSCALE: A × 2^B rounded once (09 R207). -/
def fscaleV (ty : Ty) (m : Mode) (a b : Nat) : Nat × Flags :=
  match fdec ty a 0 with
  | .fin n q e => roundF (fmtOf ty) (.mode m) false (if q == 0 then .fin n 0 0 else .fin n q (e + sext 32 b))
  | v => roundF (fmtOf ty) (.mode m) false v

/-- FCLASS's code (09 R211). -/
def fclassV (ty : Ty) (a : Nat) : Nat :=
  let f := fmtOf ty
  let sub := elemAt ty a 0 / 2 ^ f.mb % 2 ^ f.eb == 0
  match fdec ty a 0 with
  | .nan => 256
  | .inf n => if n then 1 else 128
  | .fin n q _ => if q == 0 then (if n then 8 else 16) else if sub then (if n then 4 else 32) else if n then 2 else 64

end Sys2Proof.Machine
end

