-- ==== Sys2Proof/Machine/Blocks.lean ====
section
/-!
DEFINITION. Block formats: decoding (03 R67, R68) and the conversions of CVTB (09 R218-R220). A block format is numbered as FN of
Table 9.6: 0 to 3 MXFP8 (E4M3), MXFP8 (E5M2), MXFP4, MXINT8; 4 ZQ8; 5 ZQ4; 6 OQ4.
-/

namespace Sys2Proof.Machine

/-- A value times 2^k. -/
def FVal.scale (v : FVal) (k : Int) : FVal := match v with | .fin n m e => .fin n m (e + k) | v => v

/-! ### Decoding (03 R67, R68) -/

/-- Element format of the floating MX formats. -/
def mxFmt : Nat → Fmt | 0 => E4M3 | 1 => E5M2 | _ => E2M1

/-- Value of an OQ4 code with its neighbour's, without the scale, and OQBAD. -/
def oqVal (oe code other : Nat) : FVal × Flags :=
  if code == 8 && other == 8 then (.fin false 0 0, fOQBAD)
  else if code == 8 then (E4M3.decode (other / 8 * 128 + oe * 8 + other % 8), 0)
  else if other == 8 then (.fin false 0 0, 0)
  else (ofInt (sext 4 code), 0)

/-- The value of a code in a block with a side entry; `other` the code of the neighbouring slot. -/
def blockVal (fn side code other : Nat) : FVal × Flags :=
  let x := side % 256
  match fn with
  | 4 | 5 =>
    let w := if fn == 4 then 8 else 4
    let d : Int := (code % 2 ^ w : Nat) - ((side / 65536 % 2 ^ w : Nat) : Int)
    mulExact (BF16.decode (side % 65536)) (ofInt d)
  | 6 =>
    let (v, f) := oqVal (side / 256 % 16) (code % 16) (other % 16)
    (if x == 255 then .nan else v.scale ((x : Int) - 127), f)
  | 3 => (if x == 255 then .nan else (ofInt (sext 8 code)).scale ((x : Int) - 133), 0)
  | fn =>
    let f := mxFmt fn
    (if x == 255 then .nan else (f.decode (code % 2 ^ (1 + f.eb + f.mb))).scale ((x : Int) - 127), 0)

/-! ### Encoding a block (09 R218-R220) -/

/-- What a block converts to: its side entry, each lane's code, the flags. -/
structure BlockCodes where
  side : Nat
  codes : List (Nat × Nat)
  flags : Flags
  deriving DecidableEq, Repr

/-- Magnitude and exponent of a finite value. -/
def FVal.mag : FVal → Nat × Int | .fin _ m e => (m, e) | _ => (0, 0)
/-- floor(log2 |v|) of a nonzero value. -/
def FVal.lg (v : FVal) : Int := (Nat.log2 v.mag.1 : Int) + v.mag.2

/-- A magnitude divided by a positive value, rounded to an integer, and whether it is inexact. -/
def divRound (r : Rnd) (neg : Bool) (m : Nat) (e : Int) (d : Nat) (k : Int) : Nat × Bool :=
  if m == 0 then (0, false) else roundQ r neg m d (e - k) false

/-- An integer code clamped to a range, with the flags of 03 R63. -/
def clampCode (lo hi x : Int) (inx : Bool) : Int × Flags :=
  let y := clampI lo hi x
  (y, if y != x then fNV else fif inx fINX)

/-- MX blocks: the shared exponent, then each element. -/
def mxBlock (fn : Nat) (rnd : Nat → Rnd) (vs : List (Nat × FVal)) : BlockCodes :=
  if vs.any fun v => v.2.isNan || v.2.isInf then { side := 0xFF, codes := vs.map fun v => (v.1, 0), flags := fNV }
  else
    let emax : Int := match fn with | 0 => 8 | 1 => 15 | 2 => 2 | _ => 0
    let nz := vs.filter fun v => !v.2.isZero
    let x : Int := if nz.isEmpty then 0 else clampI 0 254 (nz.foldl (fun a v => max a v.2.lg) (-100000) - emax + 127)
    let cs := vs.map fun v =>
      if fn == 3 then
        let (q, f) := toIntSat (rnd v.1) (-127) 127 (v.2.scale (133 - x))
        (v.1, wrap 8 q, f)
      else
        let (c, f) := roundF (mxFmt fn) (rnd v.1) true (v.2.scale (127 - x))
        (v.1, c, f)
    { side := x.toNat, codes := cs.map fun c => (c.1, c.2.1), flags := cs.foldl (fun a c => a ||| c.2.2) 0 }

/-- ZQ blocks (09 R219): scale and zero point, then offset codes. DESIGN CHOICE (log entry 72): rounding the scale and rounding and clamping Z set no flag
but the OV that the rule writes. -/
def zqBlock (fn : Nat) (rnd : Nat → Rnd) (vs : List (Nat × FVal)) : BlockCodes :=
  if vs.any fun v => v.2.isNan || v.2.isInf then { side := 0x7FC0, codes := vs.map fun v => (v.1, 0), flags := fNV }
  else
    let top : Int := if fn == 4 then 255 else 15
    let z0 : FVal := .fin false 0 0
    let lo := vs.foldl (fun a v => if v.2.lt a then v.2 else a) z0
    let hi := vs.foldl (fun a v => if a.lt v.2 then v.2 else a) z0
    let (n, e) := (sumExact .rne [hi, lo.negate]).1.mag
    let raw := if n == 0 then 0 else (roundMag BF16 rne false false n top.toNat e false).1
    let big := raw == BF16.infCode false
    let scale := if big then BF16.maxCode else raw
    if scale == 0 then { side := 0, codes := vs.map fun v => (v.1, 0), flags := 0 }
    else
      let (sm, se) := (BF16.decode scale).mag
      let z := clampI 0 top (divRound rne false lo.mag.1 lo.mag.2 sm se).1
      let cs := vs.map fun v =>
        let (q, inx) := divRound (rnd v.1) v.2.neg? v.2.mag.1 v.2.mag.2 sm se
        let (c, f) := clampCode 0 top ((if v.2.neg? then -1 else 1) * (q : Int) + z) inx
        (v.1, c.toNat, f)
      { side := scale + 65536 * z.toNat, codes := cs.map fun c => (c.1, c.2.1)
        flags := cs.foldl (fun a c => a ||| c.2.2) (fif big fOV) }

/-- OQ4 blocks (09 R220): pairs of lanes; an outlier takes its neighbour's code. DESIGN CHOICE (log entry 72): the clamp of an outlier's m is one of an
integer code, and sets NV (03 R63). -/
def oqBlock (rnd : Nat → Rnd) (vs : List (Nat × FVal)) : BlockCodes :=
  if vs.any fun v => v.2.isNan || v.2.isInf then { side := 0xFF, codes := vs.map fun v => (v.1, 0), flags := fNV }
  else
    let at_ (l : Nat) : FVal := ((vs.find? fun v => v.1 == l).map (·.2)).getD (.fin false 0 0)
    let small (l : Nat) : FVal := let a := (at_ l).abs; let b := (at_ (l ^^^ 1)).abs; if a.lt b then a else b
    let a := vs.foldl (fun m v => if m.lt (small v.1) then small v.1 else m) (.fin false 0 0)
    let x : Int := if a.isZero then 0 else
      let f := log2Ratio a.mag.1 7
      let exact := if f ≥ 0 then a.mag.1 == 7 * 2 ^ f.toNat else a.mag.1 * 2 ^ (-f).toNat == 7
      clampI 0 254 (f + a.mag.2 + (if exact then 0 else 1) + 127)
    let qs := vs.map fun v =>
      let (q, inx) := roundInt (rnd v.1) (v.2.scale (127 - x))
      (v.1, q, inx)
    let isO (l : Nat) : Bool := qs.any fun q => q.1 == l && q.2.1.natAbs > 7 && vs.any fun v => v.1 == l ^^^ 1
    let outs := vs.filter fun v => isO v.1
    let oe : Int := if outs.isEmpty then 0 else
      clampI 1 15 (outs.foldl (fun m v => max m v.2.lg) (-100000) - (x - 127) + 7)
    let out (v : Nat × FVal) : Nat × Flags :=
      let (q, inx) := roundInt (rnd v.1) (v.2.abs.scale (127 - x - (oe - 7) + 3))
      let (m, f) := clampCode 0 (if oe == 15 then 6 else 7) (q - 8) inx
      ((if v.2.neg? then 8 else 0) + m.toNat, f)
    let cs := qs.map fun q =>
      if isO q.1 then (q.1, 8, (0 : Flags))
      else match outs.find? fun v => v.1 == q.1 ^^^ 1 with
        | some v => let (c, f) := out v; (q.1, c, f)
        | none => let (c, f) := clampCode (-7) 7 q.2.1 q.2.2; (q.1, wrap 4 c, f)
    { side := x.toNat + 256 * oe.toNat, codes := cs.map fun c => (c.1, c.2.1), flags := cs.foldl (fun a c => a ||| c.2.2) 0 }

/-- One block of CVTB; a block with no lane has side entry 0. -/
def cvtBlock (fn : Nat) (rnd : Nat → Rnd) (vs : List (Nat × FVal)) : BlockCodes :=
  if vs.isEmpty then { side := 0, codes := [], flags := 0 }
  else if fn < 4 then mxBlock fn rnd vs
  else if fn < 6 then zqBlock fn rnd vs
  else oqBlock rnd vs

/-- Side entries of two blocks as CVTB places them (Table 9.6). -/
def placeSides (fn s0 s1 : Nat) : Nat :=
  if fn < 4 then s0 + 256 * s1 else if fn < 6 then s0 + 2 ^ 32 * s1 else s0 + 65536 * s1
/-- The side entry of a block in what CVTB placed. -/
def sideOf (fn sides block : Nat) : Nat :=
  if fn < 4 then sides / 256 ^ block % 256 else if fn < 6 then sides / 2 ^ (32 * block) % 2 ^ 32 else sides / 65536 ^ block % 65536

end Sys2Proof.Machine
end

