-- ==== Sys2Proof/Machine/Tensor.lean ====
section
/-!
DEFINITION. Tensor records (03 R72-R79), their layout in G and in the local spaces (03 R74, 02 R46, 10 R227, R238).
-/

namespace Sys2Proof.Machine

/-! ### Fields (Table 3.7) -/

abbrev Rec := BitVec 512

def recVer (r : Rec) : Nat := bits r.toNat 7 0
def recFmt (r : Rec) : Nat := bits r.toNat 15 8
def recNdim (r : Rec) : Nat := bits r.toNat 18 16
def recSwz (r : Rec) : Nat := bits r.toNat 27 24
def recDim (r : Rec) (k : Nat) : Nat := bits r.toNat (63 + 32 * k) (32 + 32 * k)
/-- STRIDE1 to STRIDE3. -/
def recStride (r : Rec) (k : Nat) : Nat := bits r.toNat (159 + 40 * k) (120 + 40 * k)
def recTile (r : Rec) (k : Nat) : Nat := bits r.toNat (303 + 16 * k) (288 + 16 * k)
def recScale (r : Rec) : Nat := bits r.toNat 479 432
def recSeal (r : Rec) : Nat := bits r.toNat 511 480

/-- Element bits and side entry bytes of a format code; none for a reserved code (Table 3.6). -/
def fmtInfo : Nat → Option (Nat × Nat)
  | 0x00 | 0x01 | 0x09 | 0x0A => some (8, 0)
  | 0x02 | 0x03 | 0x07 | 0x08 => some (16, 0)
  | 0x04 | 0x05 | 0x06 => some (32, 0)
  | 0x0B | 0x0C => some (4, 0)
  | 0x10 | 0x11 | 0x13 => some (8, 1)
  | 0x12 => some (4, 1)
  | 0x18 => some (8, 4)
  | 0x19 => some (4, 4)
  | 0x1A => some (4, 2)
  | _ => none

def recBits (r : Rec) : Nat := ((fmtInfo (recFmt r)).map (·.1)).getD 8
def recSide (r : Rec) : Nat := ((fmtInfo (recFmt r)).map (·.2)).getD 0
def isBlock (r : Rec) : Bool := recSide r != 0

/-! ### The tile -/

/-- Bytes of a tile's row, its rows, its element bytes, its blocks. -/
def recWrow (r : Rec) : Nat := recTile r 0 * recBits r / 8
def recRows (r : Rec) : Nat := recTile r 1 * recTile r 2 * recTile r 3
def recElemBytes (r : Rec) : Nat := recWrow r * recRows r
def recBlocks (r : Rec) : Nat := if isBlock r then recTile r 0 * recRows r / 32 else 0
/-- Bytes of a tile, side entries included (03 R75). -/
def recBytes (r : Rec) : Nat := recElemBytes r + recSide r * recBlocks r

/-! ### Seal and form (03 R75, R76) -/

def crcStep : Nat → Nat → Nat
  | 0, v => v
  | k + 1, v => crcStep k (if v % 2 == 1 then v / 2 ^^^ 0x82F63B78 else v / 2)

/-- CRC-32C. -/
def crc32c (bs : List Byte) : Nat := (bs.foldl (fun a b => crcStep 8 (a ^^^ b.toNat)) 0xFFFFFFFF) ^^^ 0xFFFFFFFF

def recSealed (r : Rec) : Bool := recSeal r == crc32c (leBytes 60 (r.toNat % 2 ^ 480))

def recWellFormed (r : Rec) : Bool :=
  recVer r == 1 && (fmtInfo (recFmt r)).isSome && 1 ≤ recNdim r && recNdim r ≤ 4 && recSwz r < 4 &&
  bits r.toNat 23 19 == 0 && bits r.toNat 31 28 == 0 && bits r.toNat 287 280 == 0 && bits r.toNat 431 352 == 0 &&
  ((List.range 4).all fun k =>
    if k < recNdim r then 1 ≤ recDim r k && 1 ≤ recTile r k && recTile r k ≤ recDim r k
    else recDim r k == 1 && recTile r k == 1 && (k == 0 || recStride r k == 0)) &&
  recBytes r ≤ 65536 &&
  (recBits r != 4 || (recDim r 0 % 2 == 0 && recTile r 0 % 2 == 0)) &&
  (if isBlock r then recDim r 0 % 32 == 0 && recTile r 0 % 32 == 0 && recScale r != 0 && recScale r % recSide r == 0
   else recScale r == 0)

/-- A tile origin the record admits (03 R75, 10 R238). -/
def originOk (r : Rec) (org : List Nat) : Bool :=
  ((List.range 4).all fun k => org.getD k 0 + recTile r k ≤ recDim r k) &&
  (!isBlock r || org.getD 0 0 % 32 == 0) && (recBits r != 4 || org.getD 0 0 % 2 == 0)

/-! ### The side of space G (03 R74) -/

/-- Index of row j of a tile in dimensions 1 to 3, dimension 1 innermost. -/
def rowIndex (r : Rec) (j : Nat) : Nat × Nat × Nat :=
  (j % recTile r 1, j / recTile r 1 % recTile r 2, j / recTile r 1 / recTile r 2)

/-- The address of row j of a tile at an origin: the rows are contiguous runs. DESIGN CHOICE (log entry 69): a stride of a record is added as a number
without a sign; Table 3.7 does not say. -/
def rowAddr (r : Rec) (base : Nat) (org : List Nat) (j : Nat) : Nat :=
  let (a1, a2, a3) := rowIndex r j
  (base + (org.getD 1 0 + a1) * recStride r 1 + (org.getD 2 0 + a2) * recStride r 2 + (org.getD 3 0 + a3) * recStride r 3 +
    org.getD 0 0 * recBits r / 8) % 2 ^ 64

/-- The address of the side entries of row j: those of one row are contiguous. -/
def sideAddr (r : Rec) (org : List Nat) (j : Nat) : Nat :=
  let (a1, a2, a3) := rowIndex r j
  let b := (((org.getD 3 0 + a3) * recDim r 2 + org.getD 2 0 + a2) * recDim r 1 + org.getD 1 0 + a1) * (recDim r 0 / 32) +
    org.getD 0 0 / 32
  (recScale r + recSide r * b) % 2 ^ 64

/-- The runs of bytes of a tile in space G, elements first, then side entries. -/
def tileRuns (r : Rec) (base : Nat) (org : List Nat) : List (Nat × Nat) :=
  ((List.range (recRows r)).map fun j => (rowAddr r base org j, recWrow r)) ++
  if isBlock r then (List.range (recRows r)).map fun j => (sideAddr r org j, recSide r * (recTile r 0 / 32)) else []

/-! ### The local side (02 R46) -/

/-- The row length a swizzle code needs. -/
def swzRow : Nat → Nat | 1 => 64 | 2 => 256 | _ => 128

/-- The layout of a tile in space S is admitted: row length and base (02 R46). -/
def swzOk (r : Rec) (base : Nat) : Bool := recSwz r == 0 || (recWrow r == swzRow (recSwz r) && base % 256 == 0)

/-- The offset from the base of byte b of row j of a tile in a local space; `swz` 0 for the dense layout. -/
def tileOff (swz wrow j b : Nat) : Nat :=
  if swz == 0 then j * wrow + b
  else
    let n := wrow / 8
    let q := 256 / wrow
    256 * (j / q) + 8 * (n * (j % q) + ((b / 8) ^^^ (j % n))) + b % 8

/-- Where side entries start in a local space (03 R74). -/
def sideOff (r : Rec) : Nat := 256 * ((recElemBytes r + 255) / 256)

/-- The runs of a tile in a local space from its base, in the order of `tileRuns`: 8-byte chunks under a swizzle. -/
def localRuns (r : Rec) (inS : Bool) : List (Nat × Nat) :=
  let swz := if inS then recSwz r else 0
  (if swz == 0 then (List.range (recRows r)).map fun j => (j * recWrow r, recWrow r)
   else (List.range (recRows r)).flatMap fun j => (List.range (recWrow r / 8)).map fun c => (tileOff swz (recWrow r) j (8 * c), 8)) ++
  if isBlock r then [(sideOff r, recSide r * recBlocks r)] else []

/-- The bytes a tile reaches in a local space from its base. -/
def localExtent (r : Rec) (inS : Bool) : Nat := (localRuns r inS).foldl (fun a p => max a (p.1 + p.2)) 0

/-! ### The identifier table (03 R77-R79, 10 R374) -/

/-- What naming an identifier meets. -/
inductive IdentRes
  | ok (r : Rec)
  | unbound
  | bad          -- above 255
  | held         -- its latest write is a provisional step of another column
  deriving DecidableEq, Repr

def State.ident (s : State) (core ctx n : Nat) : IdentRes :=
  if n > 255 then .bad
  else if (List.range 32).any fun c => c != columnOf core && (s.col c).undo.any fun u => match u with
      | .ident _ x k _ => x == ctx && k == n
      | _ => false then .held
  else match (s.ctx ctx).idents.find? fun p => p.1 == n with
    | some p => .ok p.2
    | none => .unbound

/-- Writes an identifier entry: a provisional step of the column (03 R79). -/
def State.setIdent (s : State) (core ctx n : Nat) (r : Option Rec) : State :=
  let k := s.ctx ctx
  let col := s.col (columnOf core)
  let old := (k.idents.find? fun p => p.1 == n).map (·.2)
  let rest := k.idents.filter fun p => p.1 != n
  (s.setCtx ctx { k with idents := match r with | some r => rest ++ [(n, r)] | none => rest }).setCol (columnOf core)
    { col with undo := .ident col.epoch ctx n old :: col.undo }

/-- The fault an unusable identifier raises; none where the step waits. -/
def identFault : IdentRes → Option Cause
  | .bad => some .illegalVariant
  | .unbound => some .record
  | _ => none

end Sys2Proof.Machine
end

