-- ==== Sys2Proof/Machine/LoadStore.lean ====
section
/-!
DEFINITION. Lane and fragment loads and stores, walkers, prefetch and pins, tensor identifiers (10 R225-R231, R235, R236).
-/

namespace Sys2Proof.Machine

/-! ### Shared steps -/

/-- What an access meets short of performing. -/
def AccRes.act (acc : Access) : AccRes → Option Act
  | .fault f => some (.fault f)
  | .miss ps => some (.stay ps acc)
  | .ok _ => none

/-- Room in the landing buffer for the writes of one instruction (05 R113). -/
def State.roomFor (s : State) (col : Nat) (ls : List (Nat × List Piece)) : Bool :=
  s.lbFits col (ls.flatMap fun p => p.2.flatMap fun q => match q.1 with
    | .mem l _ => if locColumn l == some col then [] else (blocks64 l q.2).map fun b => ((s.col col).epoch, some (0, b))
    | .peer fep _ pa _ => peerKeys (s.col col).epoch fep pa q.2)

/-- The parts of accesses that lie at peers. -/
def peersIn (as : List (Nat × List Piece)) : List (Nat × List Piece) :=
  as.map fun a => (a.1, a.2.filter fun p => match p.1 with | .peer .. => true | .mem .. => false)

/-- Stores bytes through the pieces of one access; a peer's part leaves as a packet that depends on the column's epoch, and the L2's copies of it
go (05 R119). -/
def State.storePieces (s : State) (x : Writer) (ps : List Piece) (bs : List Byte) : State :=
  (ps.foldl (fun (a : State × List Byte) p =>
    let d := a.2.take p.2
    let t := match p.1 with
      | .mem l _ => a.1.colStore (columnOf x.core) x.r.ctx x.r.lnum l d
      | .peer fep pctx pa _ => (a.1.dropPeer fep pa d.length).send [(columnOf x.core, (a.1.col (columnOf x.core)).epoch)] x.r.ctx x.r.lnum
          (.peerWrite fep pctx pa d x)
    (t, a.2.drop p.2)) (s, bs)).1

/-- A store updates copies in the cluster cache, which hold no data here; a result waits in flight with its token. -/
def Env.defer (e : Env) (g : Group) (vec : Bool) (first n : Nat) (lanes : List (Nat × LaneVal)) : Group :=
  if lanes.isEmpty then g
  else
    { g.takeTok e.c with pend := g.pend ++ [{ vec, first, n, lanes, token := setTok? e.c, iaddr := e.g.pc.toNat
                                              mstep := (e.g.mcall.map (·.2)).getD 0, epoch := e.epoch, at_ := e.now }] }

def Env.writer (e : Env) (l : Nat) : Writer :=
  { r := e.r, core := e.w.core, tid := (e.g.tidOf l).toNat, iaddr := e.g.pc.toNat, lane := some l, at_ := e.now }

/-! ### Lane by lane (04 R84, R85) -/

/-- A group that waits while its instruction's memory steps are taken one by one. DESIGN CHOICE (log entry 59): an instruction takes its lanes' steps so
where the move that issues it asks for it (`split`), and all of them at issue elsewhere; 04 R84 makes each lane a step of its own. -/
def Env.byLane (e : Env) (g : Group) (kind : LaneKind) (todo : List LaneStep) (vec : Bool) (dst n : Nat)
    (regs : List (Nat × List Nat) := []) : Group :=
  { g with wait := .lanes { kind, hint := e.c.ch, todo, got := [], regs, vec, dst, n, token := setTok? e.c, met := e.met } }

/-- The step writes byte i of the range of another (01 R8: at one location, of this device or of a peer). -/
def LaneStep.meets (a b : LaneStep) : Bool :=
  a.ps.any fun p => b.ps.any fun q => match p.1, q.1 with
    | .mem l _, .mem u _ => overlaps l p.2 u q.2
    | .peer f _ x _, .peer g _ y _ => f == g && x < y + q.2 && y < x + p.2
    | _, _ => false

/-- A step cut into its bytes. -/
def LaneStep.bytes (a : LaneStep) : List LaneStep :=
  a.ps.flatMap fun p => (List.range p.2).map fun i =>
    { a with ps := [match p.1 with | .mem l mt => (.mem (locPlus l i) mt, 1) | .peer fep pctx pa mt => (.peer fep pctx (pa + i) mt, 1)] }

/-- A step must wait for others of its instruction: of the lanes that write one location the highest performs last (04 R85), and RINIT's steps are
in order (05 R105). -/
def LaneReq.waits (q : LaneReq) (k : Nat) (a : LaneStep) : Bool :=
  match q.kind with
  | .store true => k != 0
  | .store false => a.bytes.any fun b =>
      let ws := q.todo.filter fun x => x.lane != a.lane && x.meets b
      ws.any (fun x => x.lane < a.lane) && !ws.any fun x => a.lane < x.lane
  | _ => false

/-- One lane's read, `m` what its instruction's reads have met before. -/
def State.readLane (s : State) (core : Nat) (h : Fill) (ps : List Piece) (m : Met) : Got × Met × State :=
  let (gs, met, t) := s.readAll core h [(0, ps)] m
  (match gs with | (_, x) :: _ => x | [] => { parts := [], bad := none }, met, t)

/-- The word that a fragment's lane receives in register k of its block. -/
def fragVal (regs : List (Nat × List Nat)) (gs : List (Nat × Got)) (l k : Nat) : Option LaneVal :=
  match gs.find? fun p => p.1 == l, regs.find? fun p => p.1 == l with
  | some g, some f =>
    match g.2.bad with
    | some b => some (.bad b.1 b.2)
    | none => (f.2.zipIdx.find? fun q => q.1 == k).map fun q => .ok (regWords .b32 ((g.2.bytes.drop (4 * q.2)).take 4))
  | _, _ => none

/-- The lanes of register k of a fragment that receive a value. -/
def fragLanes (regs : List (Nat × List Nat)) (gs : List (Nat × Got)) (k : Nat) : List (Nat × LaneVal) :=
  gs.filterMap fun p => (fragVal regs gs p.1 k).map fun x => (p.1, x)

/-- MSCALE of a word: as an i32 or as FP32, times the lane's FP32 factor, rounded (11 R267). -/
def scaleWord (int : Bool) (mode x factor : Nat) : Nat × Flags :=
  let (p, f) := mulExact (if int then ofInt (sext 32 x) else FP32.decode x) (FP32.decode factor)
  let (r, g) := roundF FP32 (.mode (modeOf mode)) false p
  (r, f ||| g)

/-- The words of MRD's lanes, line by line, where every line of a lane has been read (11 R267). -/
def accLanes (n : Nat) (gs : List (Nat × Got)) : List (Nat × Got) :=
  let word (l k : Nat) : Option Got := (gs.find? fun (p : Nat × Got) => p.1 == l + 64 * k).map fun p => p.2
  ((gs.map fun p => p.1 % 64).eraseDups).filterMap fun l =>
    let ws : List Got := (List.range n).filterMap (word l)
    if ws.length == n then some (l, { parts := ws.flatMap fun x => x.parts, bad := ws.findSome? fun x => x.bad }) else none

/-- The results that a load puts in flight. -/
def LaneReq.results (q : LaneReq) (iaddr mstep epoch : Nat) : List Pend :=
  let mk (first n : Nat) (lanes : List (Nat × LaneVal)) : Pend := { vec := q.vec, first, n, lanes, token := q.token, iaddr, mstep, epoch }
  let all : List Pend := match q.kind with
    | .load ty => [mk q.dst q.n (q.got.map fun p => (p.1, p.2.laneVal ty))]
    | .frag => (List.range q.n).map fun k => mk (q.dst + k) 1 (fragLanes q.regs q.got k)
    | .acc => [mk q.dst q.n ((accLanes q.n q.got).map fun (p : Nat × Got) => (p.1, p.2.laneVal .b32))]
    | .store _ | .walker _ | .scale .. => []
  all.filter fun p => !p.lanes.isEmpty

/-- The last step has been taken: results are in flight, a walker's lanes have read, or the lanes that MSCALE found uncorrectable die; the group goes
on, or stops at this boundary. -/
def State.lanesDone (s : State) (r : GRef) (core : Nat) (q : LaneReq) : State :=
  let epoch := (s.col (columnOf core)).epoch
  let bad : List (Nat × Loc × Nat) := match q.kind with
    | .scale .. => q.got.filterMap fun p => p.2.bad.map fun b => (p.1, b)
    | _ => []
  let t : State := match s.group? r with
    | some (_, g) => s.killBad r bad g.pc.toNat ((g.mcall.map (·.2)).getD 0)
    | none => s
  (t.modGroup r fun g =>
    match q.kind with
    | .walker n => { g with wait := .none, wgot := g.wgot ++ [(n, q.got)], met := q.met, lastEpoch := epoch }
    | _ =>
      let ps := q.results g.pc.toNat ((g.mcall.map (·.2)).getD 0) epoch
      let g1 : Group := { g with wait := .none, pend := g.pend ++ ps, lastEpoch := epoch }
      let g2 := match q.token with
        | some k => if ps.isEmpty then g1.setTok k false else g1
        | none => g1
      g2.stepOn (s.macrosOf r.ctx r.lnum)).boundary r core

/-- A lane's step: the k-th that is left, once dead lanes are out of the way. None while it must wait. -/
def State.laneStep (s : State) (r : GRef) (w : Workgroup) (g : Group) (q : LaneReq) (k : Nat) : Option State :=
  let q := { q with todo := if q.vec then q.todo.filter fun a => g.live.getLsbD (a.lane % 64) else q.todo }
  match q.todo[k]? with
  | none => if q.todo.isEmpty then some (s.lanesDone r w.core q) else none
  | some a =>
    if q.waits k a || s.anyHeld w.core [(a.lane, a.ps)] then none
    else
      let next (t : State) (q : LaneReq) : State :=
        if q.todo.isEmpty then t.lanesDone r w.core q
        else t.modGroup r fun g => { g with wait := .lanes q, lastEpoch := (s.col (columnOf w.core)).epoch }
      match q.kind with
      | .store o =>
        if !s.roomFor (columnOf w.core) [(a.lane, a.ps)] then none
        else
          let x : Writer := { r, core := w.core, tid := (g.tidOf a.lane).toNat, iaddr := g.pc.toNat, lane := if o then none else some a.lane }
          some (next (s.storePieces x a.ps a.data) { q with todo := q.todo.eraseIdx k })
      | .scale int mode =>
        let (x, met, t) := s.readLane w.core .none a.ps q.met
        let rest : LaneReq := { q with todo := q.todo.eraseIdx k, met }
        if (x.bad.isSome || q.got.any fun p => p.2.bad.isSome) && !s.recRoom (columnOf w.core) then none
        else if x.bad.isSome then some (next t { rest with got := q.got ++ [(a.lane, x)] })
        else
          let y := scaleWord int mode (leNat x.bytes) (leNat a.data)
          let wr : Writer := { r, core := w.core, tid := (g.tidOf a.lane).toNat, iaddr := g.pc.toNat, lane := some a.lane }
          some (next ((t.storePieces wr a.ps (leBytes 4 y.1)).modGroup r fun g => g.flag y.2) rest)
      | _ =>
        let (x, met, t) := s.readLane w.core (if q.kind == .acc then .none else .load q.hint) a.ps q.met
        some (next t { q with todo := q.todo.eraseIdx k, got := q.got ++ [(a.lane, x)], met })

/-! ### LD and ST (10 R225, R226) -/

/-- Bytes a lane moves. -/
def memBytes (c : Ctl) : Nat :=
  match c.fn.toNat / 4 with
  | 0 => tyBytes c.ty
  | 1 => 8
  | _ => 16

/-- The address of a lane: base + offset × 2^SCL + DISP. -/
def Env.memAddr (e : Env) (c : Ctl) (o : OpsM) (l : Nat) : Int :=
  let imm := o.imm.toNat
  let off : Int := if o.a == .none then 0 else if bits imm 23 23 == 1 then sext 32 (e.val .i32 o.a l) else e.val .i32 o.a l
  let base : Int := if c.fn.toNat % 4 == 0 then e.pair o.b else 0
  base + off * 2 ^ bits imm 22 21 + sext 21 imm

def execLd (c : Ctl) (o : OpsM) (s : State) : Host.Outcome State Fault Refusal :=
  issueWord (.ld c o) s false false fun v e s =>
    let sp := c.fn.toNat % 4
    let ls := (if o.d.isSca then [0] else lanesOf e.m).map fun l => (l, e.memAddr c o l, memBytes c)
    let res := if o.d.isSca then (match ls with
      | a :: _ => s.uniAccess e.r e.w e.g sp .read a.2.1 a.2.2
      | [] => .ok []) else s.laneAccess e.r e.w e.g sp .read ls
    match res with
    | .ok as =>
      if s.anyHeld e.w.core as then .stay [] .read
      else
        let n := memRegs c
        let (vec, d) : Bool × Nat := match v.d with | .vec d => (true, d.val) | .sca d => (false, d.val) | _ => (true, 0)
        let g := if vec then (List.range n).foldl (fun g k => g.setV (d + k) []) e.g else e.g
        if s.split && !as.isEmpty then .park s (e.byLane (g.takeTok c) (.load c.ty) (laneSteps as) vec d n)
        else
          let (gs, _, s) := s.readAll e.w.core (.load c.ch) as e.met
          .done s (e.defer g vec d n (gs.map fun p => (p.1, p.2.laneVal c.ty)))
    | .fault f => .fault f
    | .miss ps => .stay ps .read

/-- The bytes a lane stores (10 R226). DESIGN CHOICE (log entry 72): of an operand that is no register, each register of the block has the 32-bit value. -/
def Env.stData (e : Env) (c : Ctl) (d : Operand) (l : Nat) : List Byte :=
  if c.fn.toNat / 4 == 0 then leBytes (tyBytes c.ty) (e.val c.ty d l)
  else (List.range (memRegs c)).flatMap fun k => leBytes 4 (match d with
    | .vec n => (vget (e.g.vreg (n + k)) l).toNat
    | .sca n => (e.g.sreg (n + k)).toNat
    | d => e.val .b32 d l)

def execSt (c : Ctl) (o : OpsM) (s : State) : Host.Outcome State Fault Refusal :=
  issueWord (.st c o) s false false fun _ e s =>
    let ls := (lanesOf e.m).map fun l => (l, e.memAddr c o l, memBytes c)
    match s.laneAccess e.r e.w e.g (c.fn.toNat % 4) .write ls with
    | .ok as =>
      if s.anyHeld e.w.core as || !s.roomFor (columnOf e.w.core) as then .stay [] .write
      else if s.split && !as.isEmpty then
        .park s (e.byLane e.g (.store false) (as.map fun p => { lane := p.1, ps := p.2, data := e.stData c o.d p.1, regs := [] }) true 0 0)
      else .done (as.foldl (fun s p => s.storePieces (e.writer p.1) p.2 (e.stData c o.d p.1)) s) e.g
    | .fault f => .fault f
    | .miss ps => .stay ps .write

/-! ### Fragments (10 R227, R228) -/

/-- A fragment's identifier entry, or what its reading meets. -/
def Env.fragRec (e : Env) (c : Ctl) (o : OpsR) (s : State) : Except Act Rec :=
  match s.ident e.w.core e.r.ctx (e.u o.a) with
  | .ok r =>
    if isBlock r || recBits r < 8 then .error (.trap .record)
    else if c.fn.toNat / 2 == 0 && !swzOk r (e.u o.b) then .error (.fault { cause := .swizzle, addr := e.u o.b })
    else .ok r
  | .held => .error (.stay [] .read)
  | x => .error (.trap ((identFault x).getD .record))

/-- The offsets from the base of the four bytes of lane l of register D + k, in the order of the register's bytes; none where some
byte lies outside the tile. -/
def fragOffs (r : Rec) (inS tr : Bool) (r0 c0 l k : Nat) : Option (List Nat) :=
  let eb := recBits r / 8
  let m := 4 / eb
  let cells : List (Nat × Nat) :=   -- row, byte in the row
    if tr then (List.range 4).map fun b => (r0 + m * k + b / eb, (c0 + l) * eb + b % eb)
    else (List.range 4).map fun b => (r0 + l, c0 * eb + 4 * k + b)
  if cells.all fun p => p.1 < recRows r && p.2 < recWrow r then
    some (cells.map fun p => tileOff (if inS then recSwz r else 0) (recWrow r) p.1 p.2)
  else none

/-- The byte offsets of a fragment: for each lane of a list, each register in which it takes part. -/
def Env.fragment (e : Env) (c : Ctl) (o : OpsR) (r : Rec) (live : Nat → LaneMap) : List (Nat × List (Nat × List Nat)) :=
  let org := e.u o.c
  (List.range 64).filterMap fun l =>
    let ks := (List.range (o.x.toNat % 8 + 1)).filterMap fun k =>
      if (live k).getLsbD l then
        (fragOffs r (c.fn.toNat / 2 == 0) (c.fn.toNat % 2 == 1) (org % 65536) (org / 65536) l k).map fun os => (k, os)
      else none
    if ks.isEmpty then none else some (l, ks)

/-- The accesses of a fragment's lanes: one piece per byte; the first lane with a byte outside the space faults. -/
def Env.fragAccess (e : Env) (sp base : Nat) (fr : List (Nat × List (Nat × List Nat))) : AccRes :=
  let out := fr.filterMap fun p =>
    ((p.2.flatMap fun q => q.2).find? fun b => base + b ≥ spaceSize e.w sp).map fun b => (p.1, base + b)
  match out.head? with
  | some p => .fault { cause := .spaceRange, addr := p.2, lanes := 1#64 <<< p.1 }
  | none => .ok (fr.map fun p => (p.1, (p.2.flatMap fun q => q.2).map fun b => (.mem (localLoc e.w sp (base + b)) 0, 1)))

def execLdm (c : Ctl) (o : OpsR) (s : State) : Host.Outcome State Fault Refusal :=
  issueWord (.ldm c o) s false false fun v e s =>
    match e.fragRec c o s with
    | .error a => a
    | .ok r =>
      let sp := c.fn.toNat / 2 + 1
      let fr := e.fragment c o r fun _ => e.g.live
      match e.fragAccess sp (e.u o.b) fr, v.d with
      | .ok as, .vec d =>
        if s.anyHeld e.w.core as then .stay [] .read
        else
          let n := o.x.toNat % 8 + 1
          let regs := fr.map fun p => (p.1, p.2.map (·.1))
          let g := (List.range n).foldl (fun g k => g.setV (d + k) []) e.g
          if s.split && !as.isEmpty then .park s (e.byLane (g.takeTok c) .frag (laneSteps as) true d n regs)
          else
            let (gs, _, s) := s.readAll e.w.core (.load c.ch) as e.met
            .done s ((List.range n).foldl (fun g k => e.defer g true (d + k) 1 (fragLanes regs gs k)) g)
      | .fault f, _ => .fault f
      | _, _ => .done s e.g

def execStm (c : Ctl) (o : OpsR) (s : State) : Host.Outcome State Fault Refusal :=
  issueWord (.stm c o) s false false fun v e s =>
    match e.fragRec c o s, v.d with
    | .error a, _ => a
    | .ok r, .vec d =>
      let sp := c.fn.toNat / 2 + 1
      let fr := e.fragment c o r fun k => e.g.vm (d + k)
      match e.fragAccess sp (e.u o.b) fr with
      | .ok as =>
        let data (p : Nat × List (Nat × List Nat)) : List Byte := p.2.flatMap fun q => leBytes 4 (vget (e.g.vreg (d + q.1)) p.1).toNat
        if s.anyHeld e.w.core as then .stay [] .write
        else if s.split && !as.isEmpty then
          .park s (e.byLane e.g (.store false) ((as.zip fr).map fun p => { lane := p.1.1, ps := p.1.2, data := data p.2, regs := [] }) true 0 0)
        else .done ((as.zip fr).foldl (fun s p => s.storePieces (e.writer p.1.1) p.1.2 (data p.2)) s) e.g
      | .fault f => .fault f
      | .miss ps => .stay ps .write
    | .ok _, _ => .done s e.g

/-! ### Walkers (10 R229) -/

/-- The element type of a record's format in a walker (log entry 13). -/
def walkTy : Nat → Ty
  | 0 => .i8 | 1 => .ui8 | 2 => .i16 | 3 => .ui16 | 4 => .i32 | 5 => .ui32 | 6 => .f32 | 7 => .f16 | 8 => .bf16
  | _ => .ui8

/-- A freshly bound walker: indices and flags zero, done when a size is 0; its reads take WBIND's cache hint (07 R151, log entry 63). -/
def Walker.bind (base : DWord) (ty : Ty) (n : Vector Word 4) (stride : Vector (BitVec 40) 3) (ch : Hint) : Walker :=
  { base, ty, n, stride, done := n.toList.any fun x => x == 0, ch }

def execWbind (c : Ctl) (o : OpsR) (s : State) : Host.Outcome State Fault Refusal :=
  issueWord (.wbind c o) s false false fun _ e s =>
    let k := c.fn.toNat % 8
    let base := BitVec.ofNat 64 (e.pair o.b)
    if c.fn.toNat ≥ 8 then
      let w (j : Nat) : Word := BitVec.ofNat 32 (e.blk o.a j)
      .done s (e.g.setW k (Walker.bind base c.ty #v[w 0, w 1, w 2, w 3]
        #v[(w 4).signExtend 40, (w 5).signExtend 40, (w 6).signExtend 40] c.ch))
    else match s.ident e.w.core e.r.ctx (e.u o.a) with
      | .ok r =>
        if isBlock r || recBits r < 8 then .trap .record
        else
          let d (j : Nat) : Word := BitVec.ofNat 32 (recDim r j)
          let st (j : Nat) : BitVec 40 := BitVec.ofNat 40 (recStride r j)
          .done s (e.g.setW k (Walker.bind base (walkTy (recFmt r)) #v[d 0, d 1, d 2, d 3] #v[st 1, st 2, st 3] c.ch))
      | .held => .stay [] .read
      | x => .trap ((identFault x).getD .record)

def execWstat (c : Ctl) (o : OpsR) (s : State) : Host.Outcome State Fault Refusal :=
  issueWord (.wstat c o) s false false fun _ e s =>
    match o.a with
    | .walk n =>
      let k := e.g.walker n
      .done s (e.g.writeS .ui32 o.d (if c.fn.toNat < 4 then (k.i[c.fn.toNat]?.getD 0).toNat else k.eod.toNat))
    | _ => .done s e.g

/-! ### Prefetch and pins (10 R235, 02 R42-R44) -/

/-- Where the lanes of PREF or PIN reach, each its address's byte: none where it cannot be translated. -/
def Env.linesOf (e : Env) (o : OpsR) (s : State) : Except (List Nat) (List (Option Target)) :=
  let rs := (lanesOf e.m).map fun l =>
    s.resolve e.r.ctx e.w.core e.g.xf (wrap 64 ((e.pair o.a : Int) + sext 32 (e.val .i32 o.b l))) 1 .read
  let misses := rs.flatMap fun r => match r with | .miss ps => ps | _ => []
  if !misses.isEmpty then .error misses.eraseDups
  else .ok (rs.map fun r => match r with
    | .ok [(t, _)] => some t
    | _ => none)

/-- A local line of DRAM that a target lies in, with its page's MT. -/
def lineOfTarget : Option Target → Option (Nat × Nat)
  | some (.mem l mt) => if l.store == .dram then some (l.addr / 256 * 256, mt) else none
  | _ => none

/-- A whole line that a cluster cache fetches meets an injected error in the sector it names (20 R350). -/
def State.meetLine (s : State) (cl line : Nat) : State :=
  if !(s.cluster cl).serves ⟨.dram, line⟩ 256 line && s.injHits [(⟨.dram, line⟩, 256)] then s.injTake else s

/-- The sectors of a line that its home can supply: those that are not uncorrectable and meet no uncorrectable injected error. -/
def State.goodSectors (s : State) (line : Nat) : BitVec 8 :=
  0xFF &&& ~~~(sectorMask (s.badAll ⟨.dram, line⟩ 256 ++ if s.injHits [(⟨.dram, line⟩, 256)] && s.injBad then [s.injSector] else []) line)

/-- A whole line enters the cluster cache under a hint, as a load's would (02 R36); with it its page's MT. -/
def State.fillWhole (s : State) (cl : Nat) (h : Hint) (a : Nat × Nat) : State :=
  let alloc := h != .noAlloc && a.2 == 0
  let t := if alloc then s.meetLine cl a.1 else s
  t.setCluster cl ((t.cluster cl).touch a.1 (s.goodSectors a.1) h alloc)

/-- Fills the line of a target as a load under a hint would: a copy in the cluster cache, or of a peer's line in the L2 (02 R36, R52). -/
def State.fillLine (s : State) (cl : Nat) (h : Hint) (t : Option Target) : State :=
  match t with
  | some (.peer fep _ pa mt) => s.copyPeer (cl / 32) fep pa mt
  | t => match lineOfTarget t with
    | some a => s.fillWhole cl h a
    | none => s

/-- PREF fills cluster-cache copies for .cl; a line that cannot be translated is dropped. -/
def execPref (c : Ctl) (o : OpsR) (s : State) : Host.Outcome State Fault Refusal :=
  issueWord (.pref c o) s false false fun _ e s =>
    match e.linesOf o s with
    | .error ps => .stay ps .read
    | .ok ts =>
      let cl := clusterOf e.w.core
      let g := { e.g with xf := [] }
      if c.fn == 0 then .done ((ts.filterMap lineOfTarget).foldl (fun t a => t.fillWhole cl c.ch a) s) g
      else .done s g

/-- The way that a newly pinned line takes: the lowest cache bank in which no line of the set is pinned. DESIGN CHOICE (log entry 56): 02 R42 does
not say which way. -/
def Cluster.freeWay (k : Cluster) (set : Nat) : Option Nat :=
  (List.range 64).find? fun b => k.modes[b]?.getD .cache == .cache && !(k.pins.any fun p => p.way == b && lineSet p.line == set)

/-- The way of a pin request that is granted (02 R42): that of a line already pinned, or a free one, where the page's MT is 00, the set then holds
at most CACHEB - 1 pinned lines and the context at most its quota. -/
def Cluster.pinWay (k : Cluster) (ctx quota line mt : Nat) : Option Nat :=
  let others := (k.pinnedIn (lineSet line)).filter fun a => a != line
  let mine := (k.pins.filter fun p => p.ctx == ctx).length
  if mt == 0 && others.length + 2 ≤ k.cacheB && mine + 1 ≤ quota then
    match k.pins.find? fun p => p.line == line with
    | some p => some p.way
    | none => k.freeWay (lineSet line)
  else none

/-- A granted pin: the line is filled if it is absent, which in a full set takes the place of the least recently used copy; `sec` are the sectors that
its home supplies. -/
def Cluster.pin (k : Cluster) (ctx line way : Nat) (sec : BitVec 8) : Cluster :=
  { k with pins := k.pins ++ [{ line, ctx, way }]
           copies := match k.copies.find? fun c => c.line == line with
             | some c => c.fill sec :: k.copies.filter fun c => c.line != line
             | none => { line, sectors := sec } :: k.room (lineSet line) }

/-- One pin request: the state after it and whether it was refused. A refused one fills the line as a load would. -/
def State.pinOne (s : State) (cl ctx quota : Nat) (h : Hint) (t : Option Target) : State × Bool :=
  let k := s.cluster cl
  match lineOfTarget t with
  | none => (s.fillLine cl h t, true)
  | some (line, mt) =>
    if k.pins.any fun p => p.line == line && p.ctx == ctx then (s, false)
    else match k.pinWay ctx quota line mt with
      | some b => ((s.meetLine cl line).setCluster cl (k.pin ctx line b (s.goodSectors line)), false)
      | none => (s.fillLine cl h t, true)

/-- PIN.on: a refusal sets PINREF and the line fills as a load would fill it. -/
def execPinOn (c : Ctl) (o : OpsR) (s : State) : Host.Outcome State Fault Refusal :=
  issueWord (.pinOn c o) s false false fun _ e s =>
    match e.linesOf o s with
    | .error ps => .stay ps .read
    | .ok ts =>
      let (t, ref) := ts.foldl (fun (a : State × Bool) l =>
        let (t, r) := a.1.pinOne (clusterOf e.w.core) e.r.ctx (s.ctx e.r.ctx).pinq.toNat c.ch l
        (t, a.2 || r)) (s, false)
      .done t ({ e.g with xf := [] }.flag (fif ref fPINREF))

/-- PIN.off removes the context's pins; the line stays as a copy. -/
def execPinOff (c : Ctl) (o : OpsR) (s : State) : Host.Outcome State Fault Refusal :=
  issueWord (.pinOff c o) s false false fun _ e s =>
    match e.linesOf o s with
    | .error ps => .stay ps .read
    | .ok ts =>
      let cl := clusterOf e.w.core
      let lines := (ts.filterMap lineOfTarget).map (·.1)
      let k := s.cluster cl
      .done (s.setCluster cl { k with pins := k.pins.filter fun p => !(lines.contains p.line && p.ctx == e.r.ctx) }) { e.g with xf := [] }

/-! ### Tensor identifiers (03 R77, 10 R236) -/

/-- The questions that a uniform read of a group has still to put to peers: one to each, for a step of a kind (05 R102). -/
def State.uniAsk (s : State) (e : Env) (op : ObjOp) (ps : List Piece) : List PeerAsk :=
  ps.filterMap fun p => match p.1 with
    | .peer fep pctx pa _ =>
      let a : PeerAsk := { fep, pctx, pa, len := p.2, op }
      if (s.heard e.g a).isNone then some a else none
    | .mem .. => none

/-- Bytes a uniform read of a group returns where no lane receives them, peers' as they answered; a unit that is uncorrectable and a poisoned
answer are free values (log entry 2). -/
def State.uniBytes (s : State) (e : Env) (op : ObjOp) (ps : List Piece) : List Byte × State :=
  let (bs, bad, _, t) := ps.foldl (fun (a : List Byte × Bool × Met × State) p => match p.1 with
    | .peer fep pctx pa _ => match s.heard e.g { fep, pctx, pa, len := p.2, op } with
      | some (some bs) => (a.1 ++ bs, a.2)
      | _ => (a.1, true, a.2.2)
    | .mem .. =>
      let (x, met, t) := a.2.2.2.readLane e.w.core (.load e.c.ch) [p] a.2.2.1
      (a.1 ++ x.bytes, a.2.1 || x.bad.isSome, met, t)) ([], false, e.met, s)
  if bad then ((List.range ((ps.map (·.2)).foldl (· + ·) 0)).map fun i => Config.freeBytes t.free i, { t with free := t.free + 1 })
  else (bs, t)

/-- A uniform read of a group: its bytes, or the questions it puts first. -/
def State.uniRead (s : State) (e : Env) (op : ObjOp) (ps : List Piece) : Except Act (List Byte × State) :=
  match s.uniAsk e op ps with
  | [] => .ok (s.uniBytes e op ps)
  | as => .error (.ask as)

/-- What TBIND does with the record it has read: it binds the identifier, or unbinds it and faults. -/
def State.bindRec (s : State) (core ctx n : Nat) (r : Rec) : Except Cause State :=
  if !recSealed r then .error .seal
  else if !recWellFormed r then .error .record
  else .ok (s.setIdent core ctx n (some r))

/-- TBIND reads a record as one tile, checks it, and binds the identifier; where its two steps are taken one by one, the entry's write follows. -/
def execTbind (c : Ctl) (o : OpsR) (s : State) : Host.Outcome State Fault Refusal :=
  issueWord (.tbind c o) s false false fun _ e s =>
    let n := e.u o.a
    let va := e.pair o.b
    if n > 255 then .trap .illegalVariant
    else if va % 64 != 0 then .fault { cause := .objectAlign, addr := va }
    else match s.uniAccess e.r e.w e.g 0 .read va 64 with
      | .ok as =>
        if s.anyHeld e.w.core as || s.ident e.w.core e.r.ctx n == .held then .stay [] .read
        else match s.uniRead e .read (as.flatMap (·.2)) with
          | .error a => a
          | .ok (bs, s) =>
            if s.split then .park s { e.g with wait := .bind n bs }
            else match s.bindRec e.w.core e.r.ctx n (BitVec.ofNat 512 (leNat bs)) with
              | .error k => .faultWith (s.setIdent e.w.core e.r.ctx n none) { cause := k }
              | .ok s => .done s e.g
      | .fault f => .fault f
      | .miss ps => .stay ps .read

/-- TBIND's second step, the write of the identifier entry (04 R84). -/
def State.bindStep (s : State) (r : GRef) (w : Workgroup) (g : Group) (n : Nat) (bs : List Byte) : Option State :=
  if s.ident w.core r.ctx n == .held then none
  else match s.bindRec w.core r.ctx n (BitVec.ofNat 512 (leNat bs)) with
    | .error k => some (((s.setIdent w.core r.ctx n none).raise r w { g with wait := .none } { cause := k }).boundary r w.core)
    | .ok t => some ((t.modGroup r fun g =>
        { g with wait := .none, lastEpoch := (s.col (columnOf w.core)).epoch }.stepOn (s.macrosOf r.ctx r.lnum)).boundary r w.core)

/-- The field TINFO writes. -/
def tinfoField (fn : Nat) (r : Rec) : Nat :=
  match fn with
  | 0 | 1 | 2 | 3 => recDim r fn
  | 4 | 5 | 6 | 7 => recTile r (fn - 4)
  | 8 | 9 | 10 => recStride r (fn - 7)
  | 11 => recFmt r + 256 * recNdim r + 4096 * recSwz r + 65536 * recVer r
  | 12 => 1
  | _ => recScale r

def execTinfo (c : Ctl) (o : OpsR) (s : State) : Host.Outcome State Fault Refusal :=
  issueWord (.tinfo c o) s false false fun _ e s =>
    let fn := c.fn.toNat
    match s.ident e.w.core e.r.ctx (e.u o.a) with
    | .ok r => .done s (e.g.writeS (if [8, 9, 10, 13].contains fn then .i64 else .ui32) o.d (tinfoField fn r))
    | .held => .stay [] .read
    | .unbound => if fn == 12 then .done s (e.g.writeS .ui32 o.d 0) else .trap .record
    | .bad => .trap .illegalVariant

end Sys2Proof.Machine
end

