-- ==== Sys2Proof/Machine/Atomics.lean ====
section
/-!
DEFINITION. Atomics and reductions (10 R232-R234, 04 R91, 05 R108-R110, R114).
-/

namespace Sys2Proof.Machine

/-! ### Addresses and homes -/

/-- The address of a lane (10 R232). -/
def Env.atomAddr (e : Env) (o : OpsR) (l : Nat) : Int :=
  if o.x.toNat % 2 == 0 then (e.pair o.a : Int) + sext 32 (e.val .i32 o.b l) else e.val .ui32 o.b l

/-- Resolves the lanes of an atomic: a misaligned address is a terminal fault, chosen with the others by lane (01 R31). DESIGN CHOICE
(log entry 35): of a lane whose address is misaligned and has a second terminal defect, object-align is raised. -/
def Env.atomAccess (e : Env) (s : State) (c : Ctl) (o : OpsR) (lanes : List Nat) (uni : Bool) : AccRes :=
  let n := tyBytes c.ty
  let ls := lanes.map fun l => (l, e.atomAddr o l, n)
  let mis := (ls.find? fun a => wrap 64 a.2.1 % n != 0).map fun a =>
    ({ cause := .objectAlign, addr := wrap 64 a.2.1, lanes := 1#64 <<< a.1 } : FaultInfo)
  let res : AccRes := match s.laneAccess e.r e.w e.g (o.x.toNat % 2) .write ls, mis with
    | .miss ps, _ => .miss ps
    | .fault f, some m => .fault (if !f.cause.resumable && f.lanes.toNat < m.lanes.toNat then f else m)
    | .ok _, some m => .fault m
    | a, none => a
  match res with
  | .fault f => .fault (if uni then { f with lanes := 0 } else f)
  | a => a

/-- Scopes at which device memory performs in the issuing cluster's atomic unit (Table 4.4). -/
def nearScope : Scope → Bool | .thread | .group | .wg | .cluster => true | _ => false

/-- Whether an access performs at a home outside the column: another column's bank, device memory at scopes 4 to 6, a peer. -/
def isFar (col : Nat) (near : Bool) : Target → Bool
  | .peer .. => true
  | .mem l _ => locColumn l != some col && !(l.store == .dram && near)

/-- The value an atomic step stores, if it stores: operation 7 is ATOMC, which compares bitwise. -/
def atomNew (op : Nat) (ty : Ty) (old : Nat) (arg new : DWord) : Option Nat :=
  if op == 7 then (if old == arg.toNat % 2 ^ (8 * tyBytes ty) then some new.toNat else none) else some (atomOp op ty old arg.toNat)

/-- The instance of an atomic's scope for a lane of a group (04 R90, 05 R110): in device memory at scopes 0 to 3 its cluster's unit, which serialises
them (R91); else the thread, the group, the workgroup, the cluster, the die, which is a tier of a tower, the device or the system. Two of one key are
one step each. -/
def scopeKey (r : GRef) (core lane : Nat) (sc : Scope) (st : Store) : List Nat :=
  if nearScope sc && st == .dram then [3, clusterOf core]
  else match sc with
    | .thread => [0, r.ctx, r.lnum, r.wg, r.grp, lane]
    | .group => [1, r.ctx, r.lnum, r.wg, r.grp]
    | .wg => [2, r.ctx, r.lnum, r.wg]
    | .cluster => [3, clusterOf core]
    | .die => [4, 2 * towerOf core + if isUpper core then 1 else 0]
    | sc => [(scopeBits sc).toNat]

/-- The key of a lane of a group's atomic, and of a reduction on its way to its home. -/
def AtomReq.key (q : AtomReq) (r : GRef) (core : Nat) (a : AtomLane) : List Nat := scopeKey r core a.lane q.sc a.loc.store
def Writer.key (x : Writer) (sc : Scope) (l : Loc) : List Nat := scopeKey x.r x.core (x.lane.getD 0) sc l.store
def WqRed.key (q : WqRed) : List Nat := q.x.key q.sc q.loc

/-- Lanes of waiting atomics in this device on a range: the group, the request, the lane, and its key. -/
def State.atomsOn (s : State) (l : Loc) (n : Nat) : List (GRef × AtomReq × AtomLane × List Nat) :=
  s.wgs.flatMap fun w => w.groups.flatMap fun g => match g.wait with
    | .atomic q =>
      let r : GRef := { ctx := w.ctx, lnum := w.lnum, wg := w.wg, grp := g.id }
      (q.lanes.filter fun a => a.peer.isNone && overlaps a.loc (tyBytes q.ty) l n).map fun a => (r, q, a, q.key r w.core a)
    | _ => []

/-- An atomic or a reduction of another instance than a key's is about on a range: one whose lanes wait, or a reduction on its way to its home (05
R110). -/
def State.foreign (s : State) (key : List Nat) (l : Loc) (n : Nat) : Bool :=
  ((s.atomsOn l n).any fun x => x.2.2.2 != key) ||
  (s.wq.any fun r => r.key != key && overlaps r.loc r.width l n) ||
  s.cols.toList.any fun k => k.lb.any fun e => match e.kind with
    | .red _ ty sc u _ x _ => x.key sc u != key && overlaps u (opWidth ty) l n
    | _ => false

/-- The load step of another atomic of the same instance has been taken on a range, and its store step has not (05 R110). -/
def State.halfway (s : State) (me : Option (GRef × Nat)) (key : List Nat) (l : Loc) (n : Nat) : Bool :=
  ((s.atomsOn l n).any fun x => x.2.2.2 == key && x.2.2.1.old.isSome && some (x.1, x.2.2.1.lane) != me) ||
  s.wq.any fun r => r.old.isSome && r.key == key && overlaps r.loc r.width l n

/-- One lane's step in the column: at its bank, or in the cluster's unit, which writes through (04 R91). -/
def State.atomNear (s : State) (x : Writer) (op : Nat) (ty : Ty) (l : Loc) (arg new : DWord) : Nat × State :=
  let old := leNat (s.colRead (columnOf x.core) l (tyBytes ty))
  match atomNew op ty old arg new with
  | some v => (old, s.colStore (columnOf x.core) x.r.ctx x.r.lnum l (leBytes (tyBytes ty) v))
  | none => (old, s)

/-! ### ATOM and ATOMC -/

/-- The registers a result goes to, emptied as a load's are when it issues. -/
def clearDst (g : Group) (vec : Bool) (dst : Option Nat) (ty : Ty) : Group :=
  match vec, dst with
  | true, some d => if ty == .i64 then (g.setV d []).setV (d + 1) [] else g.setV d []
  | _, _ => g

/-- How many registers a result writes. -/
def dstRegsN (dst : Option Nat) (ty : Ty) : Nat := if dst.isNone then 0 else if ty == .i64 then 2 else 1

/-- A destination: vector or not, and its number. -/
def dstOf : Operand → Bool × Option Nat
  | .vec n => (true, some n)
  | .sca n => (false, some n)
  | _ => (true, none)

/-- The lanes of an atomic as its instruction captured them. -/
def atomLanes (as : List (Nat × List Piece)) (arg new : Nat → DWord) : List AtomLane :=
  as.filterMap fun a => match a.2 with
    | (.mem l mt, _) :: _ => some { lane := a.1, loc := l, peer := none, arg := arg a.1, new := new a.1, mt }
    | (.peer fep pctx pa _, _) :: _ => some { lane := a.1, loc := ⟨.dram, pa⟩, peer := some (fep, pctx), arg := arg a.1, new := new a.1 }
    | [] => none

/-- The lanes' steps in the column, in ascending order: what each receives, and the state after them. -/
def State.atomAll (s : State) (x : Nat → Writer) (op : Nat) (ty : Ty) (arg new : Nat → DWord) (as : List (Nat × List Piece))
    (gs : List (Nat × Got)) : List (Nat × LaneVal) × State :=
  (as.zip gs).foldl (fun (a : List (Nat × LaneVal) × State) p =>
    match p.2.2.bad, p.1.2 with
    | some b, _ => (a.1 ++ [(p.1.1, .bad b.1 b.2)], a.2)
    | none, (.mem l _, _) :: _ =>
      let (old, s) := a.2.atomNear (x p.1.1) op ty l (arg p.1.1) (new p.1.1)
      (a.1 ++ [(p.1.1, .ok (regWords ty (leBytes (tyBytes ty) old)))], s)
    | none, _ => a) ([], s)

/-- Some lane's location is between the two steps of another atomic of the instance. -/
def State.anyHalfway (s : State) (r : GRef) (core : Nat) (sc : Scope) (ty : Ty) (as : List (Nat × List Piece)) : Bool :=
  as.any fun a => match a.2 with
    | (.mem l _, _) :: _ => s.halfway none (scopeKey r core a.1 sc l.store) l (tyBytes ty)
    | _ => false

/-- ATOM and ATOMC at issue. Where every lane performs in the column they do so here, in ascending order, unless the steps are taken one by one;
otherwise the group waits while ATOMIC_PERFORM takes the lanes' steps, requests to peers leaving through the egress gate (log entries 34, 58, 59). -/
def atomBody (op : Nat) (c : Ctl) (o : OpsR) (e : Env) (s : State) : Act :=
  let uni := o.d.isSca
  let lanes := if uni then [0] else lanesOf e.m
  let arg (l : Nat) : DWord := BitVec.ofNat 64 (e.val c.ty o.c l)
  let new (l : Nat) : DWord := if op == 7 then BitVec.ofNat 64 (e.val c.ty o.e l) else 0
  let (vec, dst) := dstOf o.d
  let col := columnOf e.w.core
  let near := nearScope c.sc
  match e.atomAccess s c o lanes uni with
  | .fault f => .fault f
  | .miss ps => .stay ps .write
  | .ok as =>
    let far := as.any fun a => a.2.any fun p => isFar col near p.1
    if far || (s.split && !as.isEmpty) then
      -- the requests that leave for peers need room in the landing buffer (05 R113)
      if !s.roomFor col (peersIn as) then .stay [] .write else
      let req := atomLanes as arg new
      let s := req.foldl (fun s a => match a.peer with
        | some (fep, pctx) => (s.dropPeer fep a.loc.addr (tyBytes c.ty)).send [(col, (s.col col).epoch)] e.r.ctx e.r.lnum
            (.peerAtom fep pctx a.loc.addr op c.ty a.arg a.new (e.writer a.lane))
        | none => s) s
      let q : AtomReq := { op, ty := c.ty, sc := c.sc, near, red := false, lanes := req, got := [], vec, dst, token := setTok? c
                           met := e.met, ch := c.ch, at_ := s.now }
      .park s { e.g.takeTok c with wait := .atomic q }
    else if s.anyHeld e.w.core as || !s.roomFor col as || s.anyHalfway e.r e.w.core c.sc c.ty as then .stay [] .write
    else
      let (gs, _, s) := s.readAll e.w.core (.unit c.ch) as e.met
      let (vals, s) := s.atomAll e.writer op c.ty arg new as gs
      .done s (e.defer (clearDst e.g vec dst c.ty) vec (dst.getD 0) (dstRegsN dst c.ty) vals)

def execAtom (c : Ctl) (o : OpsR) (s : State) : Host.Outcome State Fault Refusal :=
  issueWord (.atom c o) s false false fun _ e s => atomBody c.fn.toNat c o e s

def execAtomc (c : Ctl) (o : OpsR) (s : State) : Host.Outcome State Fault Refusal :=
  issueWord (.atomc c o) s false false fun _ e s => atomBody 7 c o e s

/-! ### ATOMIC_PERFORM (05 R114) -/

/-- The outcome of a lane's step: what the lane receives, what its instruction has met, the state, and the unit that spoilt it. -/
structure AtomOut where
  val : LaneVal
  met : Met
  s : State
  lost : Option Loc := none

/-- A read at a home outside the column, past the cluster cache: what it meets, with what its instruction has met before (20 R350). -/
def State.homeRead (s : State) (core : Nat) (l : Loc) (n : Nat) (m : Met) : Option (Loc × Nat) × Met × State :=
  let inj := if l.store == .dram then s.injMet m [(l, n)] else m.inj
  let stand := s.badAll l n
  let m' : Met := { m with inj, seen := (m.seen ++ stand).eraseDups }
  let bad := (stand.map fun b => (b, s.badPlace b)) ++ inj.filterMap fun x => x.2.bind fun p => if (sectors l n).contains x.1 then some (x.1, p) else none
  (lowestBad bad, m', s.countMet core m m')

/-- The read of a lane's step in this device: at a home outside the column past the cluster cache, in the column through its unit, which fills the
line (04 R91). -/
def State.atomRead (s : State) (w : Workgroup) (q : AtomReq) (a : AtomLane) : Except AtomOut (Nat × Met × State) :=
  let n := tyBytes q.ty
  let (bad, old, met, t) := if isFar (columnOf w.core) q.near (.mem a.loc 0) then
      let (bad, met, t) := s.homeRead w.core a.loc n q.met
      (bad, leNat (t.bytesAt a.loc n), met, t)
    else
      let (x, met, t) := s.readLane w.core (.unit q.ch) [(.mem a.loc a.mt, n)] q.met
      (x.bad, leNat x.bytes, met, t)
  match bad with
  | some b => .error { val := .bad b.1 b.2, met, s := t, lost := some b.1 }
  | none => .ok (old, met, t)

/-- The write of a lane's step: provisional with its line locked at a home outside the column, also where a compare-and-swap stores nothing
(05 R114); in the column as a store. -/
def State.atomWrite (s : State) (r : GRef) (w : Workgroup) (q : AtomReq) (a : AtomLane) (old : Nat) : State :=
  let n := tyBytes q.ty
  let col := columnOf w.core
  let new := atomNew q.op q.ty old a.arg a.new
  if isFar col q.near (.mem a.loc 0) then
    s.putProv col a.loc (match new with | some v => leBytes n v | none => s.bytesAt a.loc n) true
  else match new with
    | some v => s.colStore col r.ctx r.lnum a.loc (leBytes n v)
    | none => s

/-- A lane in this device must wait before a step. -/
def State.atomWaits (s : State) (r : GRef) (w : Workgroup) (q : AtomReq) (a : AtomLane) : Bool :=
  let n := tyBytes q.ty
  let col := columnOf w.core
  s.heldOff (some col) a.loc n || s.halfway (some (r, a.lane)) (q.key r w.core a) a.loc n ||
  if isFar col q.near (.mem a.loc 0) then s.mustDrain col a.loc n else !s.storeRoom col a.loc n

/-- A packet is the request of a lane of a waiting atomic. -/
def AtomReq.isAsk (q : AtomReq) (r : GRef) (iaddr : Nat) (a : AtomLane) : OutKind → Bool
  | .peerAtom _ _ _ _ _ _ _ x => x.r == r && x.iaddr == iaddr && x.lane == some a.lane && x.at_ == q.at_
  | _ => false

/-- The lane's step at its home. None while it must wait. `ext` is the old value a peer returned, empty for a poisoned reply; no copy of the line that is
older stays (05 R119). -/
def State.atomStep (s : State) (r : GRef) (w : Workgroup) (g : Group) (q : AtomReq) (a : AtomLane) (ext : List Byte) : Option AtomOut :=
  let n := tyBytes q.ty
  let words (old : Nat) : LaneVal := .ok (regWords q.ty (leBytes n old))
  let mine := q.isAsk r g.pc.toNat a
  match a.peer with
  | some (fep, _) =>
    if s.failedPeers.contains fep then some { val := .bad ⟨.dram, 0⟩ 8, met := q.met, s }
    else if s.out.any fun p => mine p.kind then none
    else if !ext.isEmpty && ext.length != n then none
    else
      let t := (s.dropPeer fep a.loc.addr n).answered mine
      some { val := if ext.isEmpty then .bad ⟨.dram, 0⟩ 8 else words (leNat ext), met := q.met, s := t }
  | none =>
    if s.atomWaits r w q a then none
    else match a.old with
      | some old => some { val := words old, met := q.met, s := s.atomWrite r w q a old }
      | none => match s.atomRead w q a with
        | .error x => some x
        | .ok (old, met, t) => some { val := words old, met, s := t.atomWrite r w q a old }

/-- The lanes of a waiting atomic that still live (04 R85). A scalar result concerns no lane. -/
def AtomReq.alive (q : AtomReq) (live : LaneMap) : AtomReq :=
  { q with lanes := if q.vec then q.lanes.filter fun a => live.getLsbD a.lane else q.lanes }

/-- A lane waits for the lower lanes of its instruction at its location (04 R85). -/
def AtomReq.behind (q : AtomReq) (a : AtomLane) : Bool :=
  q.lanes.any fun b => b.lane < a.lane && b.peer == a.peer && overlaps b.loc (tyBytes q.ty) a.loc (tyBytes q.ty)

/-- The waiting atomic goes on with the lanes it has left; after the last, the old values are in flight to the group, which continues. -/
def State.atomicNext (s : State) (r : GRef) (core : Nat) (q : AtomReq) : State :=
  let epoch := (s.col (columnOf core)).epoch
  if !q.lanes.isEmpty then s.modGroup r fun g => { g with wait := .atomic q, lastEpoch := epoch }
  else (s.modGroup r fun g =>
    let g1 : Group := { g with wait := .none, lastEpoch := epoch }
    if q.red then g1.stepOn (s.macrosOf r.ctx r.lnum)
    else
      let g2 := clearDst g1 q.vec q.dst q.ty
      let g3 := match q.token with
        | some k => if q.got.isEmpty then g2.setTok k false else g2
        | none => g2
      let p : Pend := { vec := q.vec, first := q.dst.getD 0, n := dstRegsN q.dst q.ty, lanes := q.got, token := q.token
                        iaddr := g.pc.toNat, mstep := (g.mcall.map (·.2)).getD 0, epoch }
      { g3.stepOn (s.macrosOf r.ctx r.lnum) with pend := if q.got.isEmpty then g.pend else g.pend ++ [p] }).boundary r core

/-- A lane of a waiting atomic has its value. -/
def State.atomicGot (s : State) (r : GRef) (core : Nat) (q : AtomReq) (lane : Nat) (v : LaneVal) (met : Met) : State :=
  s.atomicNext r core { q with lanes := q.lanes.filter fun a => a.lane != lane, got := if q.red then [] else q.got ++ [(lane, v)], met }

/-! ### RED -/

/-- The record of a reduction that met uncorrectable data (10 R234, Table 12.4). -/
def lostRedRecord (x : Writer) (b : Loc) : BitVec 512 :=
  mkRecord 4 false x.r x.core 15 x.iaddr 0 x.tid
    { cause := .lostReduction, lanes := ((x.lane.map fun l => 1#64 <<< l).getD 0), paddr := if b.store == .dram then b.addr else 0 }

/-- What another lane of an instruction has met in the sector of a location. -/
def Met.markOf (m : Met) (l : Loc) : Option (Loc × Bool) :=
  (m.inj.find? fun x => (sectors l 1).contains x.1).map fun x => (x.1, x.2.isSome)

/-- One lane of a reduction: in the column at once; towards a home outside it through the landing buffer; to a peer as a packet. `met` is what its
instruction has met before. -/
def State.redLane (s : State) (x : Writer) (op : Nat) (ty : Ty) (sc : Scope) (arg : DWord) (bad : Option (Loc × Nat)) (met : Met) (t : Target) :
    State :=
  let col := columnOf x.core
  match t with
  | .peer fep pctx pa _ =>
    (s.dropPeer fep pa (tyBytes ty)).send [(col, (s.col col).epoch)] x.r.ctx x.r.lnum (.peerRed fep pctx pa op ty arg x)
  | .mem l _ =>
    if isFar col (nearScope sc) t then
      let k := s.col col
      s.setCol col { k with lb := k.lb ++ [{ epoch := k.epoch, ctx := x.r.ctx, lnum := x.r.lnum
                                             kind := .red op ty sc l arg x { met := met.markOf l } }] }
    else match bad with
      | some b => s.sendRecord (some col) x.r.ctx x.r.lnum (lostRedRecord x b.1)
      | none => (s.atomNear x op ty l arg 0).2

/-- One lane of a waiting atomic or reduction performs: the k-th that is left. `ext` is what a peer returned. -/
def State.atomicPerform (s : State) (r : GRef) (k : Nat) (ext : List Byte) : Option State :=
  match s.group? r with
  | none => none
  | some (w, g) =>
    match g.wait with
    | .atomic q0 =>
      let q := q0.alive g.live
      let col := columnOf w.core
      match q.lanes[k]? with
      | none => if q.lanes.isEmpty then some (s.atomicNext r w.core q) else none
      | some a =>
        let x : Writer := { r, core := w.core, tid := (g.tidOf a.lane).toNat, iaddr := g.pc.toNat, lane := some a.lane, at_ := q.at_ }
        if q.behind a then none
        else if q.red then
          let t : Target := match a.peer with | some (fep, pctx) => .peer fep pctx a.loc.addr 0 | none => .mem a.loc a.mt
          if isFar col q.near t then
            if !s.roomFor col [(a.lane, [(t, tyBytes q.ty)])] then none
            else some ((s.redLane x q.op q.ty q.sc a.arg none q.met t).atomicGot r w.core q a.lane (.ok []) q.met)
          else match s.atomStep r w g q a ext with
            | none => none
            | some o =>
              match o.lost with
              | some b =>
                if !s.recRoom col then none
                else some ((o.s.sendRecord (some col) r.ctx r.lnum (lostRedRecord x b)).atomicGot r w.core q a.lane o.val o.met)
              | none => some (o.s.atomicGot r w.core q a.lane o.val o.met)
        else (s.atomStep r w g q a ext).map fun o => o.s.atomicGot r w.core q a.lane o.val o.met
    | _ => none

/-- The load step of the k-th lane left of a waiting atomic, where its store step is to come apart from it (05 R110): on a line of device memory,
or a scratch byte at scopes 0 to 3 (04 R91), while an atomic of another instance is about on the location. -/
def State.atomicHalf (s : State) (r : GRef) (k : Nat) : Option State :=
  match s.group? r with
  | none => none
  | some (w, g) =>
    match g.wait with
    | .atomic q0 =>
      let q := q0.alive g.live
      match q.lanes[k]? with
      | none => none
      | some a =>
        if a.peer.isSome || a.old.isSome || q.behind a || !s.foreign (q.key r w.core a) a.loc (tyBytes q.ty) ||
          (a.loc.store != .dram && !q.near) || s.atomWaits r w q a || (q.red && isFar (columnOf w.core) q.near (.mem a.loc 0)) then none
        else match s.atomRead w q a with
          | .error _ => none
          | .ok (old, met, t) =>
            let q := { q with lanes := q.lanes.map fun b => if b.lane == a.lane then { b with old := some old } else b, met }
            some (t.modGroup r fun g => { g with wait := .atomic q, lastEpoch := (s.col (columnOf w.core)).epoch })
    | _ => none

def execRed (c : Ctl) (o : OpsR) (s : State) : Host.Outcome State Fault Refusal :=
  issueWord (.red c o) s false false fun _ e s =>
    let col := columnOf e.w.core
    let near := nearScope c.sc
    let arg (l : Nat) : DWord := BitVec.ofNat 64 (e.val c.ty o.c l)
    match e.atomAccess s c o (lanesOf e.m) false with
    | .fault f => .fault f
    | .miss ps => .stay ps .write
    | .ok as =>
      let here := as.filter fun a => !(a.2.any fun p => isFar col near p.1)
      -- a reduction towards a home outside the column performs there, behind whatever is queued (05 R108)
      if s.anyHeld e.w.core here || !s.roomFor col as || s.anyHalfway e.r e.w.core c.sc c.ty here then .stay [] .write
      else if s.split && !as.isEmpty then
        let q : AtomReq := { op := c.fn.toNat, ty := c.ty, sc := c.sc, near, red := true, lanes := atomLanes as arg fun _ => 0, got := []
                             vec := true, dst := none, token := none, met := e.met, ch := c.ch, at_ := s.now }
        .park s { e.g with wait := .atomic q }
      else
        let (gs, met, t) := s.readAll e.w.core (.unit c.ch) here e.met
        if !s.recRoom col (gs.filter fun g => g.2.bad.isSome).length then .stay [] .write
        else .done (as.foldl (fun s a => match a.2 with
          | (t, _) :: _ =>
            s.redLane (e.writer a.1) c.fn.toNat c.ty c.sc (arg a.1) ((gs.find? fun g => g.1 == a.1).bind fun g => g.2.bad) met t
          | [] => s) t) e.g

/-! ### REDUCTION_PERFORM (05 R108, R109) -/

/-- The leaves of a merge order. -/
def planLeaves : MergePlan → List Nat
  | .leaf i => [i]
  | .node l r => planLeaves l ++ planLeaves r

/-- The value of a merge: leaf 0 is the line's own value, leaf i + 1 the i-th reduction of the entry. -/
def planValue (op : Nat) (ty : Ty) (vals : List Nat) : MergePlan → Nat
  | .leaf i => vals.getD i 0
  | .node l r => atomOp op ty (planValue op ty vals l) (planValue op ty vals r)

/-- The part of a merge order that concerns one location: the leaves that `at_` names. -/
def planKeep (at_ : Nat → Bool) : MergePlan → Option MergePlan
  | .leaf i => if at_ i then some (.leaf i) else none
  | .node l r => match planKeep at_ l, planKeep at_ r with
    | some a, some b => some (.node a b)
    | some a, none => some a
    | none, b => b

/-- Two locations lie in one line. -/
def sameLine (a b : Loc) : Bool := a.store == b.store && a.addr / 256 == b.addr / 256

/-- Reductions of the write queue on the line of a location that may merge in one entry, the first at that location first: of one operation and
type, up to 16 (05 R108). -/
def State.wqAt (s : State) (l : Loc) : List WqRed :=
  match s.wq.find? fun q => q.loc == l with
  | none => []
  | some q0 =>
    if q0.old.isSome then [q0]
    else (q0 :: ((s.wq.erase q0).filter fun q => sameLine q.loc l && q.op == q0.op && q.ty == q0.ty && q.old.isNone)).take 16

/-- A reduction of the write queue is the first there on its location, but for those that go after it, and nothing holds it. One of another instance
whose two steps are apart does not hold it (05 R110). -/
def State.redReady (s : State) (q : WqRed) : Bool :=
  let c (x : WqRed) : Nat := columnOf x.x.core
  let first (x : WqRed) : Bool := overlaps x.loc x.width q.loc q.width && (x.op != q.op || x.ty != q.ty) &&
    !(c x != c q && RedMark.before (c q) q.mark (c x) x.mark) && !(x.old.isSome && x.key != q.key)
  !s.redHeld (c q) q.op q.ty q.mark q.loc && !((s.wq.takeWhile fun x => x != q).any first) &&
  !(q.old.isNone && s.halfway none q.key q.loc q.width)

/-- The reductions of an instruction that are on their way to a sector are served by the read of it that one of them has made (20 R350). -/
def State.shareRead (s : State) (x : Writer) (sec : Loc) (bad : Bool) : State :=
  let mine (y : Writer) (u : Loc) : Bool := y.r == x.r && y.iaddr == x.iaddr && y.at_ == x.at_ && (sectors u 1).contains sec
  let c := columnOf x.core
  { s.setCol c { s.col c with lb := (s.col c).lb.map fun e => match e.kind with
      | .red op ty sc u v y m => if mine y u then { e with kind := .red op ty sc u v y { m with met := some (sec, bad) } } else e
      | _ => e } with
    wq := s.wq.map fun q => if mine q.x q.loc then { q with mark := { q.mark with met := some (sec, bad) } } else q }

/-- The read of reductions at a location: the unit that spoils them, with the injected error that it meets unless a read of their instructions has served
them. -/
def State.redMeet (s : State) (xs : List (Writer × RedMark)) (l : Loc) (n : Nat) : Option Loc × State :=
  let served := xs.all fun x => x.2.met.isSome
  let hit := !served && s.injHits [(l, n)]
  let (b, t) := if served then (s.badIn l n, s) else s.meet l n
  let share (sec : Loc) (bad : Bool) : State := xs.foldl (fun t x => t.shareRead x.1 sec bad) t
  (b, match b with
    | some u => share u true
    | none => if hit then share s.injSector false else t)

/-- A reduction whose instruction has read its sector and found it uncorrectable. -/
def RedMark.spoilt (m : RedMark) : Option Loc := m.met.bind fun x => if x.2 then some x.1 else none

/-- One location of a merged write: its value after the merge, or the record of each reduction whose sector cannot be read. -/
def State.mergeAt (s : State) (qs : List WqRed) (plan : MergePlan) (l : Loc) (op : Nat) (ty : Ty) : State :=
  let n := tyBytes ty
  let lose (t : State) (q : WqRed) (b : Loc) : State := t.sendRecord none q.x.r.ctx q.x.r.lnum (lostRedRecord q.x b)
  let mine := qs.filter fun q => q.loc == l
  let s := mine.foldl (fun t q => match q.mark.spoilt with | some b => lose t q b | none => t) s
  let left := mine.filter fun q => q.mark.spoilt.isNone
  if left.isEmpty then s
  else match s.redMeet (left.map fun q => (q.x, q.mark)) l n with
  | (some b, t) => left.foldl (fun t q => lose t q b) t
  | (none, t) =>
    let vals := leNat (t.bytesAt l n) :: qs.map fun q => q.operand.toNat
    match planKeep (fun i => i == 0 || (qs[i - 1]?.any fun q => q.loc == l && q.mark.spoilt.isNone)) plan with
    | some p => t.put l (leBytes n (planValue op ty vals p))
    | none => t

/-- Reductions leave the write queue and perform: a first one whose load step has been taken stores, the others as one write. -/
def State.redApply (s : State) (q0 : WqRed) (qs : List WqRed) (plan : MergePlan) : State :=
  let t := { s with wq := qs.foldl (fun w q => w.erase q) s.wq }
  match q0.old with
  | some old => t.put q0.loc (leBytes (tyBytes q0.ty) (atomOp q0.op q0.ty old q0.operand.toNat))
  | none => (qs.map (·.loc)).eraseDups.foldl (fun t u => t.mergeAt qs plan u q0.op q0.ty) t

/-- The reductions of an entry perform as one write. A plan names the prior value and each merged reduction once; where it does not,
the first reduction performs alone (log entry 48). -/
def State.reductionPerform (s : State) (l : Loc) (plan : MergePlan) : Option State :=
  match s.wqAt l with
  | [] => none
  | q0 :: rest =>
    let all := q0 :: rest
    let ok := (planLeaves plan).length ≥ 2 && (planLeaves plan).length ≤ all.length + 1 &&
      (List.range (planLeaves plan).length).all fun i => (planLeaves plan).contains i
    let (qs, plan) := if ok then (all.take ((planLeaves plan).length - 1), plan) else ([q0], MergePlan.node (.leaf 0) (.leaf 1))
    if !qs.all s.redReady then none else some (s.redApply q0 qs plan)

/-- The n-th reduction of the write queues performs by itself, as it does where no other waits in its entry, or where another instance's is between its
two steps (05 R108, R110). -/
def State.redAlone (s : State) (n : Nat) : Option State :=
  match s.wq[n]? with
  | some q => if s.redReady q then some (s.redApply q [q] (.node (.leaf 0) (.leaf 1))) else none
  | none => none

/-- The load step of the n-th reduction of the write queues, whose store step is to come apart from it, while an atomic of another instance is about
there (05 R110). -/
def State.redHalf (s : State) (n : Nat) : Option State :=
  match s.wq[n]? with
  | none => none
  | some q =>
    if q.old.isSome || q.mark.spoilt.isSome || !s.redReady q || !s.foreign q.key q.loc q.width then none
    else match s.redMeet [(q.x, q.mark)] q.loc (tyBytes q.ty) with
      | (some _, _) => none
      | (none, t) => some { t with wq := t.wq.set n { q with old := some (leNat (t.bytesAt q.loc (tyBytes q.ty))) } }

end Sys2Proof.Machine
end

