-- ==== Sys2Proof/Machine/Ints.lean ====
section
/-!
DEFINITION. Integer arithmetic (09 R196-R200).
-/

namespace Sys2Proof.Machine

/-- A form whose result on each lane is a function of its operands, with the flags it sets. -/
def laneForm (i : Instr) (ty : Ty) (d : Operand) (s : State) (f : Env → Nat → Nat × Flags) : Host.Outcome State Fault Refusal :=
  issueWord i s false false fun _ e s => .done s (e.compute ty d e.m (f e))

/-- A form on two operands of its type without flags. -/
def laneForm2 (i : Instr) (c : Ctl) (o : OpsR) (s : State) (f : Nat → Nat → Nat) : Host.Outcome State Fault Refusal :=
  laneForm i c.ty o.d s fun e l => (f (e.val c.ty o.a l) (e.val c.ty o.b l), 0)

def execIadd (c : Ctl) (o : OpsR) (s : State) : Host.Outcome State Fault Refusal :=
  laneForm2 (.iadd c o) c o s (intOp c.ty (· + ·))
def execIsub (c : Ctl) (o : OpsR) (s : State) : Host.Outcome State Fault Refusal :=
  laneForm2 (.isub c o) c o s (intOp c.ty (· - ·))
def execImul (c : Ctl) (o : OpsR) (s : State) : Host.Outcome State Fault Refusal :=
  laneForm2 (.imul c o) c o s (intOp c.ty (· * ·))
def execImulh (c : Ctl) (o : OpsR) (s : State) : Host.Outcome State Fault Refusal :=
  laneForm2 (.imulh c o) c o s (mulHigh c.ty)
def execImin (c : Ctl) (o : OpsR) (s : State) : Host.Outcome State Fault Refusal :=
  laneForm2 (.imin c o) c o s (intOp c.ty min)
def execImax (c : Ctl) (o : OpsR) (s : State) : Host.Outcome State Fault Refusal :=
  laneForm2 (.imax c o) c o s (intOp c.ty max)
def execImad (c : Ctl) (o : OpsR) (s : State) : Host.Outcome State Fault Refusal :=
  laneForm (.imad c o) c.ty o.d s fun e l =>
    (intBits c.ty (intOf c.ty (e.val c.ty o.a l) * intOf c.ty (e.val c.ty o.b l) + intOf c.ty (e.val c.ty o.c l)), 0)
/-- A zero divisor sets DZ and traps nothing (09 R198). -/
def execIdiv (c : Ctl) (o : OpsR) (s : State) : Host.Outcome State Fault Refusal :=
  laneForm (.idiv c o) c.ty o.d s fun e l =>
    let q := divRem c.ty (e.val c.ty o.a l) (e.val c.ty o.b l)
    (q.1, q.2.2)
def execIrem (c : Ctl) (o : OpsR) (s : State) : Host.Outcome State Fault Refusal :=
  laneForm (.irem c o) c.ty o.d s fun e l =>
    let q := divRem c.ty (e.val c.ty o.a l) (e.val c.ty o.b l)
    (q.2.1, q.2.2)
def execIabs (c : Ctl) (o : OpsR) (s : State) : Host.Outcome State Fault Refusal :=
  laneForm (.iabs c o) c.ty o.d s fun e l => (intBits c.ty (intOf c.ty (e.val c.ty o.a l)).natAbs, 0)
def execIneg (c : Ctl) (o : OpsR) (s : State) : Host.Outcome State Fault Refusal :=
  laneForm (.ineg c o) c.ty o.d s fun e l => (intBits c.ty (-(intOf c.ty (e.val c.ty o.a l))), 0)
/-- Saturating add or subtract (09 R197). -/
def execIadds (c : Ctl) (o : OpsR) (s : State) : Host.Outcome State Fault Refusal :=
  laneForm2 (.iadds c o) c o s
    (intOp c.ty fun x y => satI c.ty (if c.fn == 0 then x + y else x - y))
/-- The true and false maps, or predicates, of a compare (06 R129, 09 R199). -/
def splitForm (i : Instr) (d e2 : Operand) (s : State) (lanes : Bool) (p : Env → Nat → Bool) : Host.Outcome State Fault Refusal :=
  issueWord i s false false fun _ e s =>
    if lanes then
      let t := mapOf ((lanesOf e.m).filter (p e))
      .done s ((e.g.writeM d t).writeM e2 (e.m &&& ~~~t))
    else .done s ((e.g.writeP d (p e 0)).writeP e2 (!(p e 0)))

def execIcmp (c : Ctl) (o : OpsR) (s : State) : Host.Outcome State Fault Refusal :=
  splitForm (.icmp c o) o.d o.e s (varies o.a || varies o.b) fun e l =>
    intCmp c.fn.toNat c.ty (e.val c.ty o.a l) (e.val c.ty o.b l)
/-- LEA forms a 64-bit address (09 R200). -/
def execLea (c : Ctl) (o : OpsR) (s : State) : Host.Outcome State Fault Refusal :=
  laneForm (.lea c o) .i64 o.d s fun e l =>
    (wrap 64 ((e.val .i64 o.a l : Int) + intOf c.ty (e.val c.ty o.b l) * 2 ^ o.x.toNat), 0)
def execMov (c : Ctl) (o : OpsR) (s : State) : Host.Outcome State Fault Refusal :=
  laneForm (.mov c o) c.ty o.d s fun e l => (e.val c.ty o.a l, 0)
def execMovi (c : Ctl) (o : OpsI) (s : State) : Host.Outcome State Fault Refusal :=
  laneForm (.movi c o) c.ty o.d s fun _ _ =>
    (if c.ty == .i64 then wrap 64 (sext 32 o.imm.toNat) else o.imm.toNat, 0)
end Sys2Proof.Machine
end

