-- ==== Sys2Proof/Machine/Bitops.lean ====
section
/-!
DEFINITION. Logic, shifts and bit fields (09 R201-R205).
-/

namespace Sys2Proof.Machine

def execAnd (c : Ctl) (o : OpsR) (s : State) : Host.Outcome State Fault Refusal :=
  laneForm2 (.and c o) c o s (· &&& ·)
def execOr (c : Ctl) (o : OpsR) (s : State) : Host.Outcome State Fault Refusal :=
  laneForm2 (.or c o) c o s (· ||| ·)
def execXor (c : Ctl) (o : OpsR) (s : State) : Host.Outcome State Fault Refusal :=
  laneForm2 (.xor c o) c o s (· ^^^ ·)
def execAndn (c : Ctl) (o : OpsR) (s : State) : Host.Outcome State Fault Refusal :=
  laneForm2 (.andn c o) c o s fun a b => ofBits (bitW c.ty) fun i => a.testBit i && !b.testBit i
def execTril (c : Ctl) (o : OpsR) (s : State) : Host.Outcome State Fault Refusal :=
  laneForm (.tril c o) c.ty o.d s fun e l =>
    (trilV (bitW c.ty) o.x.toNat (e.val c.ty o.a l) (e.val c.ty o.b l) (e.val c.ty o.c l), 0)
def execShl (c : Ctl) (o : OpsR) (s : State) : Host.Outcome State Fault Refusal :=
  laneForm (.shl c o) c.ty o.d s fun e l => (shlV (bitW c.ty) (e.val c.ty o.a l) (e.val .ui32 o.b l), 0)
def execShr (c : Ctl) (o : OpsR) (s : State) : Host.Outcome State Fault Refusal :=
  laneForm (.shr c o) c.ty o.d s fun e l => (shrV (bitW c.ty) (e.val c.ty o.a l) (e.val .ui32 o.b l), 0)
def execSar (c : Ctl) (o : OpsR) (s : State) : Host.Outcome State Fault Refusal :=
  laneForm (.sar c o) c.ty o.d s fun e l => (sarV (bitW c.ty) (e.val c.ty o.a l) (e.val .ui32 o.b l), 0)
def execFshl (c : Ctl) (o : OpsR) (s : State) : Host.Outcome State Fault Refusal :=
  laneForm (.fshl c o) c.ty o.d s fun e l =>
    (fshlV c.fn.toNat (e.val c.ty o.a l) (e.val c.ty o.b l) (e.val .ui32 o.c l), 0)
def execFshr (c : Ctl) (o : OpsR) (s : State) : Host.Outcome State Fault Refusal :=
  laneForm (.fshr c o) c.ty o.d s fun e l =>
    (fshrV c.fn.toNat (e.val c.ty o.a l) (e.val c.ty o.b l) (e.val .ui32 o.c l), 0)
def execBfx (c : Ctl) (o : OpsR) (s : State) : Host.Outcome State Fault Refusal :=
  laneForm (.bfx c o) c.ty o.d s fun e l =>
    (bfxV (c.ty == .i32) (e.val c.ty o.a l) (e.val .ui32 o.b l) (e.val .ui32 o.c l), 0)
def execBfi (c : Ctl) (o : OpsR) (s : State) : Host.Outcome State Fault Refusal :=
  laneForm (.bfi c o) c.ty o.d s fun e l =>
    (bfiV (e.val c.ty o.a l) (e.val c.ty o.b l) (e.val .ui32 o.c l) (e.val .ui32 o.e l), 0)
def execPopc (c : Ctl) (o : OpsR) (s : State) : Host.Outcome State Fault Refusal :=
  laneForm (.popc c o) c.ty o.d s fun e l => (popcV (bitW c.ty) (e.val c.ty o.a l), 0)
def execClz (c : Ctl) (o : OpsR) (s : State) : Host.Outcome State Fault Refusal :=
  laneForm (.clz c o) c.ty o.d s fun e l => (clzV (bitW c.ty) (e.val c.ty o.a l), 0)
def execCtz (c : Ctl) (o : OpsR) (s : State) : Host.Outcome State Fault Refusal :=
  laneForm (.ctz c o) c.ty o.d s fun e l => (ctzV (bitW c.ty) (e.val c.ty o.a l), 0)
def execBrev (c : Ctl) (o : OpsR) (s : State) : Host.Outcome State Fault Refusal :=
  laneForm (.brev c o) c.ty o.d s fun e l => (brevV (bitW c.ty) (e.val c.ty o.a l), 0)
end Sys2Proof.Machine
end

