-- ==== Sys2Proof/Machine/Objects.lean ====
section
/-!
DEFINITION. Barrier, ring and semaphore objects as values (05 R101-R107) and the steps a group takes on them (10 R243).
-/

namespace Sys2Proof.Machine

/-! ### Barriers (Table 5.2) -/

def barScope (b : Nat) : Nat := bits b 127 125
def barRing (b : Nat) : Bool := b.testBit 124
def barBytes (b : Nat) : Int := sext 32 (bits b 95 64)
def barExp (b : Nat) : Nat := bits b 63 48
def barLeft (b : Nat) : Nat := bits b 47 32
def barPhase (b : Nat) : Nat := bits b 31 0

/-- A barrier object with the fields that steps change; SCOPE, RING, the reserved bits and ARR_EXP as they stand. -/
def barWith (b phase left : Nat) (bytes : Int) : Nat :=
  bits b 127 96 * 2 ^ 96 + wrap 32 bytes * 2 ^ 64 + barExp b * 2 ^ 48 + left % 65536 * 2 ^ 32 + phase % 2 ^ 32

/-- advance(B) of 05 R103. -/
def barAdvance (b : Nat) : Nat :=
  if barLeft b == 0 && barBytes b == 0 then
    barWith b (if barRing b then (barPhase b + 1) % 2 ^ 22 else (barPhase b + 1) % 2 ^ 32) (barExp b) 0
  else b

/-- A count of bytes fits BYTES_LEFT. -/
def bytesFit (x : Int) : Bool := decide (-(2 ^ 31) ≤ x) && decide (x < 2 ^ 31)

/-- arrive(B, n); none is a barrier overrun. -/
def barArrive (b n : Nat) : Option Nat :=
  if barLeft b == 0 || !bytesFit (barBytes b + n) then none
  else some (barAdvance (barWith b (barPhase b) (barLeft b - 1) (barBytes b + n)))

/-- land(B, n); none is a barrier overrun. -/
def barLand (b n : Nat) : Option Nat :=
  if !bytesFit (barBytes b - n) then none else some (barAdvance (barWith b (barPhase b) (barLeft b) (barBytes b - n)))

/-- A fresh barrier object. -/
def barNew (scope : Nat) (ring : Bool) (exp : Nat) : Nat :=
  scope * 2 ^ 125 + (if ring then 2 ^ 124 else 0) + exp * 2 ^ 48 + exp * 2 ^ 32

/-! ### Rings (Table 5.3) -/

def ringSlots (r : Nat) : Nat := bits r 47 0
def ringBars (r : Nat) : Nat := bits r 111 64
def ringSize (r : Nat) : Nat := bits r 159 128
def ringN (r : Nat) : Nat := bits r 175 160
def ringW (r : Nat) : Nat := bits r 223 192
def ringR (r : Nat) : Nat := bits r 255 224
/-- Pointers count modulo Q (05 R106). -/
def ringQ (r : Nat) : Nat := ringN r * 2 ^ 22
/-- The head slot and the phase its barrier waits to leave. -/
def ringHead (r : Nat) : Nat := ringR r % ringN r
def ringRound (r : Nat) : Nat := ringR r / ringN r
/-- Slots filled or being filled. -/
def ringUsed (r : Nat) : Nat := (ringW r + ringQ r - ringR r % ringQ r) % ringQ r

/-- RPUT's first step on a ring (05 R106): WPTR advances; none where the ring is no longer as it was looked at, but for RPTR, or has no room. -/
def ringFill (seen r : Nat) : Option Nat :=
  if r % 2 ^ 224 == seen % 2 ^ 224 && ringN r != 0 && ringUsed r < ringN r then
    some (bits r 255 224 * 2 ^ 224 + (ringW r + 1) % ringQ r * 2 ^ 192 + r % 2 ^ 192)
  else none

/-- RPUT's first step on a slot's barrier: n bytes more to come; none is a barrier overrun. -/
def barAdd (b n : Nat) : Option Nat :=
  if bytesFit (barBytes b + n) then some (barWith b (barPhase b) (barLeft b) (barBytes b + n)) else none

/-! ### Semaphores (Table 5.4) -/

def semScope (v : Nat) : Nat := bits v 63 61
def semCount (v : Nat) : Nat := bits v 31 0

/-! ### A group's access to an object -/

/-- SC as a number (04 R90). -/
def scNat (c : Ctl) : Nat := (scopeBits c.sc).toNat

/-- The storage a scope needs: the scratch of the issuing cluster, this device's memory, or a peer's (Table 4.4). -/
def storageOk (core sc : Nat) : Target → Bool
  | .mem l _ => if sc ≤ 3 then l.store == .sram && l.addr / 2 ^ 23 == clusterOf core else l.store == .dram
  | .peer .. => sc == 6

/-- The address an object operand names (10 R243). -/
def Env.objAddr (e : Env) (o : Operand) (x : BitVec 10) : Nat := if x.toNat % 2 == 1 then e.u o else e.pair o

/-- An object's location: aligned, translated, and no step of another column on it (log entry 35). -/
def Env.objAt (e : Env) (s : State) (x : BitVec 10) (addr n : Nat) (acc : Access) : Except Act (List Piece) :=
  if addr % n != 0 then .error (.fault { cause := .objectAlign, addr })
  else match s.uniAccess e.r e.w e.g (if x.toNat % 2 == 1 then 1 else 0) acc addr n with
    | .fault f => .error (.fault f)
    | .miss ps => .error (.stay ps acc)
    | .ok as =>
      if s.anyHeld e.w.core as then .error (.stay [] acc) else .ok (as.flatMap (·.2))

/-- An atomic step on an object at a home outside the column waits for the column's own writes to drain (05 R114). -/
def State.objDrained (s : State) (core : Nat) (ps : List Piece) : Bool :=
  ps.all fun p => match p.1 with
    | .mem l _ => locColumn l == some (columnOf core) || !s.mustDrain (columnOf core) l p.2
    | .peer .. => true

/-- The value of an object as a step of a kind reads it: in this device, or as a peer answered. -/
def State.objRead (s : State) (e : Env) (op : ObjOp) (ps : List Piece) : Nat × State :=
  let (bs, s) := s.uniBytes e op ps
  (leNat bs, s)

/-- Writes an object in an atomic step: in the column at its bank; at a home outside it with the line locked. A peer has taken the step itself when
it answers (05 R102). -/
def State.objPut (s : State) (x : Writer) (ps : List Piece) (bs : List Byte) : State :=
  match ps with
  | [(.mem l _, _)] => s.putProv (columnOf x.core) l bs (locColumn l != some (columnOf x.core))
  | [(.peer fep _ pa _, n)] => s.dropPeer fep pa n
  | _ => s

/-- The peer that an access reaches, if it reaches one. -/
def peerOf (ps : List Piece) : Option Nat := ps.findSome? fun p => match p.1 with | .peer fep _ _ _ => some fep | .mem .. => none

/-- An object at a peer. -/
def atPeer (ps : List Piece) : Bool := ps.any fun p => match p.1 with | .peer .. => true | .mem .. => false

/-- Bytes of the answer to a question: the object, and of RPUT's first step the barrier behind the ring. -/
def PeerAsk.answerLen (a : PeerAsk) : Nat := match a.op with | .fill _ (some _) => a.len + 16 | _ => a.len

/-- Pieces cut into objects of 16 bytes, in ascending order. -/
def objects16 (ps : List Piece) : List (List Piece) :=
  ps.flatMap fun p => (List.range (p.2 / 16)).map fun i => match p.1 with
    | .mem l mt => [(.mem (locPlus l (16 * i)) mt, 16)]
    | .peer fep pctx pa mt => [(.peer fep pctx (pa + 16 * i) mt, 16)]

/-- The fault of an object whose scope or storage does not fit. -/
def scopeFault (addr : Nat) : Act := .fault { cause := .barrierScope, addr }

def Env.uniWriter (e : Env) : Writer := { e.writer 0 with lane := none }

end Sys2Proof.Machine
end

