-- ==== Sys2Proof/Machine/Sync.lean ====
section
/-!
DEFINITION. Barrier, ring, semaphore and fence forms (10 R243-R246, 05 R101-R107, R118).
-/

namespace Sys2Proof.Machine

/-! ### Barriers (10 R244) -/

/-- BARINIT writes the object whole. -/
def execBarinit (c : Ctl) (o : OpsR) (s : State) : Host.Outcome State Fault Refusal :=
  issueWord (.barinit c o) s false false fun _ e s =>
    let addr := e.objAddr o.a o.x
    let n := e.u o.b
    match e.objAt s o.x addr 16 .write with
    | .error a => a
    | .ok ps =>
      if !(ps.all fun p => storageOk e.w.core (scNat c) p.1) then scopeFault addr
      else if n > 65535 then .fault { cause := .barrierOverrun, addr }
      else if !s.roomFor (columnOf e.w.core) [(0, ps)] then .stay [] .write
      else .done (s.storePieces e.uniWriter ps (leBytes 16 (barNew (scNat c) false n))) e.g

/-- The questions of a wait about an object at a peer that has failed, which stay without an answer until the peer is there again (21 R363). -/
def State.lostAsks (s : State) (ps : List Piece) : List PeerAsk :=
  ps.filterMap fun p => match p.1 with
    | .peer fep pctx pa _ => if s.failedPeers.contains fep then some { fep, pctx, pa, len := p.2, op := .read } else none
    | .mem .. => none

/-- The questions that stand before a step of a kind on an object: those of a wait (`waits`) about a failed peer stand too (12 R279). -/
def State.objAsks (s : State) (e : Env) (op : ObjOp) (ps : List Piece) (waits : Option Bool) : List PeerAsk :=
  (if waits.isSome then s.lostAsks ps else []) ++ s.uniAsk e op ps

/-- Reads a barrier object whose SCOPE must be SC, in storage that fits it, as a step of a kind. -/
def Env.barAt (e : Env) (s : State) (c : Ctl) (x : BitVec 10) (addr : Nat) (acc : Access) (op : ObjOp) (waits : Option Bool := none) :
    Except Act (Nat × List Piece × State) :=
  match e.objAt s x addr 16 acc with
  | .error a => .error a
  | .ok ps =>
    if !(ps.all fun p => storageOk e.w.core (scNat c) p.1) then .error (scopeFault addr)
    else match s.objAsks e op ps waits with
      | [] =>
        let (b, t) := s.objRead e op ps
        if barScope b != scNat c then .error (.faultWith (s.metBy t) { cause := .barrierScope, addr }) else .ok (b, ps, t)
      | as => .error (.ask as waits)

/-- An arrive step: D receives PHASE as it was read in it. -/
def arriveBody (c : Ctl) (o : OpsR) (n : Nat) (e : Env) (s : State) : Act :=
  let addr := e.objAddr o.a o.x
  match e.barAt s c o.x addr .write (.arrive n) with
  | .error a => a
  | .ok (b, ps, t) =>
    if !s.objDrained e.w.core ps then .stay [] .write
    else if n ≥ 2 ^ 31 then .faultWith (s.metBy t) { cause := .barrierOverrun, addr }
    else match barArrive b n with
      | none => .faultWith (s.metBy t) { cause := .barrierOverrun, addr }
      | some b' => .done (t.objPut e.uniWriter ps (leBytes 16 b')) (e.g.writeS .ui32 o.d (barPhase b))

def execArrive (c : Ctl) (o : OpsR) (s : State) : Host.Outcome State Fault Refusal :=
  issueWord (.arrive c o) s false false fun _ e s => arriveBody c o 0 e s
def execArriveBytes (c : Ctl) (o : OpsR) (s : State) : Host.Outcome State Fault Refusal :=
  issueWord (.arriveBytes c o) s false false fun _ e s => arriveBody c o (e.u o.b) e s

/-- A phase wait: its first load step is taken at issue (05 R104). One on an object of a failed peer waits without an answer, for the watchdog (12
R279). -/
def waitBody (c : Ctl) (o : OpsR) (swap : Bool) (e : Env) (s : State) : Act :=
  let addr := e.objAddr o.a o.x
  let p : Word := BitVec.ofNat 32 (e.u o.b)
  match e.barAt s c o.x addr .read .read (some swap) with
  | .error a => a
  | .ok (b, ps, s) =>
    if barPhase b != p.toNat then .done s { e.g with waitCnt := 0, hold := 0 }
    else .park s { e.g with wait := .phase (o.x.toNat % 2 == 1) addr p swap false none 0, waitFep := peerOf ps }

def execWaitph (c : Ctl) (o : OpsR) (s : State) : Host.Outcome State Fault Refusal :=
  issueWord (.waitph c o) s false false fun _ e s => waitBody c o false e s
/-- WAITPH.swap makes its workgroup eligible for swap-out while it waits (06 R139). -/
def execWaitphSwap (c : Ctl) (o : OpsR) (s : State) : Host.Outcome State Fault Refusal :=
  issueWord (.waitphSwap c o) s false false fun _ e s => waitBody c o true e s

def execBarq (c : Ctl) (o : OpsR) (s : State) : Host.Outcome State Fault Refusal :=
  issueWord (.barq c o) s false false fun _ e s =>
    match e.objAt s o.x (e.objAddr o.a o.x) 16 .read with
    | .error a => a
    | .ok ps => match s.uniAsk e .read ps with
      | [] =>
        let (b, s) := s.objRead e .read ps
        .done s (e.g.writeS .ui32 o.d (match c.fn.toNat with
          | 0 => barPhase b | 1 => barLeft b | 2 => bits b 95 64 | _ => barExp b))
      | as => .ask as

/-! ### Rings (10 R245) -/

/-- RINIT writes the ring, then each slot barrier in ascending order; where the steps are taken one by one, so do these (05 R105). -/
def execRinit (c : Ctl) (o : OpsR) (s : State) : Host.Outcome State Fault Refusal :=
  issueWord (.rinit c o) s false false fun _ e s =>
    let addr := e.objAddr o.a o.x
    let slots := e.objAddr o.b o.x
    let bars := e.objAddr o.c o.x
    let n := bits (e.u o.e) 10 0
    let z := bits (e.u o.e) 24 16
    let sp := if o.x.toNat % 2 == 1 then 1 else 0
    if addr % 32 != 0 then .fault { cause := .objectAlign, addr }
    else if bars % 16 != 0 then .fault { cause := .objectAlign, addr := bars }
    else if slots % 256 != 0 then .fault { cause := .objectAlign, addr := slots }
    else if n < 1 || 1024 < n || z < 1 || 256 < z || bits (e.u o.e) 15 11 != 0 || bits (e.u o.e) 31 25 != 0 then
      .fault { cause := .ringState, addr }
    else match e.objAt s o.x addr 32 .write, s.uniAccess e.r e.w e.g sp .write bars (16 * n) with
      | .error a, _ => a
      | _, .fault f => .fault f
      | _, .miss ps => .stay ps .write
      | .ok ps, .ok as =>
        let qs := as.flatMap (·.2)
        if !((ps ++ qs).all fun p => storageOk e.w.core (scNat c) p.1) then scopeFault addr
        else if s.anyHeld e.w.core as || !s.roomFor (columnOf e.w.core) ((0, ps) :: as) then .stay [] .write
        else
          let ring := slots % 2 ^ 48 + bars % 2 ^ 48 * 2 ^ 64 + z * 256 * 2 ^ 128 + n * 2 ^ 160
          let bar := leBytes 16 (barNew (scNat c) true 0)
          if s.split then
            .park s (e.byLane e.g (.store true) ({ lane := 0, ps, data := leBytes 32 ring, regs := [] } ::
              (objects16 qs).map fun q => { lane := 0, ps := q, data := bar, regs := [] }) false 0 0)
          else
            let s := s.storePieces e.uniWriter ps (leBytes 32 ring)
            .done (s.storePieces e.uniWriter qs ((List.range n).flatMap fun _ => bar)) e.g

/-- A ring with its pieces, and the barrier of its head slot with its own, whose SCOPE must be SC. What the ring's read met stays where the barrier's
access faults (20 R349, R350). -/
def Env.ringAt (e : Env) (s : State) (c : Ctl) (x : BitVec 10) (addr : Nat) (acc : Access) (waits : Option Bool := none) :
    Except Act ((Nat × List Piece) × (Nat × List Piece) × State) :=
  match e.objAt s x addr 32 acc with
  | .error a => .error a
  | .ok ps =>
    if !(ps.all fun p => storageOk e.w.core (scNat c) p.1) then .error (scopeFault addr)
    else match s.objAsks e .read ps waits with
      | [] =>
        let (r, t) := s.objRead e .read ps
        if ringN r == 0 then .error (.faultWith (s.metBy t) { cause := .ringState, addr })
        else match e.barAt t c x (ringBars r + 16 * ringHead r) .read .read waits with
          | .error (.fault f) => .error (.faultWith (s.metBy t) f)
          | .error a => .error a
          | .ok (b, qs, s) => .ok ((r, ps), (b, qs), s)
      | as => .error (.ask as waits)

/-- RAWAIT waits on the head slot's barrier; D receives its number when the wait completes. -/
def execRawait (c : Ctl) (o : OpsR) (s : State) : Host.Outcome State Fault Refusal :=
  issueWord (.rawait c o) s false false fun _ e s =>
    match e.ringAt s c o.x (e.objAddr o.a o.x) .read (some false) with
    | .error a => a
    | .ok ((r, _), (b, qs), s) =>
      let h := ringHead r
      if barPhase b != ringRound r then .done s { e.g.writeS .ui32 o.d h with waitCnt := 0, hold := 0 }
      else
        let d := match o.d with | .sca n => some n.val | _ => none
        .park s { e.g with wait := .phase (o.x.toNat % 2 == 1) (ringBars r + 16 * h) (BitVec.ofNat 32 (ringRound r)) false true d
                                     (BitVec.ofNat 32 h), waitFep := peerOf qs }

/-- The ring that RREL's step releases: as it was read, or of a peer as it stood in the step there. -/
def State.relRing (s : State) (e : Env) (ps : List Piece) (r : Nat) : Except Act (Nat × State) :=
  if atPeer ps then match s.uniAsk e .release ps with
    | [] => .ok (s.objRead e .release ps)
    | as => .error (.ask as)
  else .ok (r, s)

/-- RREL releases the head slot. -/
def execRrel (c : Ctl) (o : OpsR) (s : State) : Host.Outcome State Fault Refusal :=
  issueWord (.rrel c o) s false false fun _ e s =>
    let addr := e.objAddr o.a o.x
    match e.ringAt s c o.x addr .write with
    | .error a => a
    | .ok ((r0, ps), _, t) =>
      if !s.objDrained e.w.core ps then .stay [] .write
      else match t.relRing e ps r0 with
        | .error a => a
        | .ok (r, u) =>
          if ringR r == ringW r then .faultWith (s.metBy u) { cause := .ringState, addr }
          else .done (u.objPut e.uniWriter ps (leBytes 32 (r % 2 ^ 224 + (ringR r + 1) % ringQ r * 2 ^ 224))) e.g

/-! ### Semaphores (10 R246) -/

/-- One atomic step that changes COUNT, or traps with COUNT in TAUX. -/
def semBody (c : Ctl) (o : OpsR) (up : Bool) (e : Env) (s : State) : Act :=
  let addr := e.objAddr o.a o.x
  let n := e.u o.b
  match e.objAt s o.x addr 8 .write with
  | .error a => a
  | .ok ps =>
    if !(ps.all fun p => storageOk e.w.core (scNat c) p.1) then scopeFault addr
    else match s.uniAsk e (.sem up n) ps with
      | [] =>
        let (v, t) := s.objRead e (.sem up n) ps
        let k := semCount v
        if semScope v != scNat c then .faultWith (s.metBy t) { cause := .barrierScope, addr }
        else if !s.objDrained e.w.core ps then .stay [] .write
        else if n ≥ 2 ^ 31 || (if up then k + n ≥ 2 ^ 31 else k < n) then
          .faultWith (s.metBy t) { cause := .semaphoreRange, addr, aux := BitVec.ofNat 32 k }
        else
          let k' := if up then k + n else k - n
          .done (t.objPut e.uniWriter ps (leBytes 8 (v / 2 ^ 32 * 2 ^ 32 + k'))) (e.g.writeS .ui32 o.d k')
      | as => .ask as

def execSeminc (c : Ctl) (o : OpsR) (s : State) : Host.Outcome State Fault Refusal :=
  issueWord (.seminc c o) s false false fun _ e s => semBody c o true e s
def execSemdec (c : Ctl) (o : OpsR) (s : State) : Host.Outcome State Fault Refusal :=
  issueWord (.semdec c o) s false false fun _ e s => semBody c o false e s

/-! ### SFENCE (05 R118) -/

/-- Writes of a group to peers not yet acknowledged, and steps there not yet answered. -/
def State.peerOut (s : State) (r : GRef) : Bool :=
  s.toPeers.any fun p => (OutKind.writer p.kind).any fun x => x.r == r

/-- SFENCE holds the group until its peer writes are acknowledged and the epoch of its last step is confirmed (log entry 36). -/
def execSfence (c : Ctl) (o : OpsR) (s : State) : Host.Outcome State Fault Refusal :=
  issueWord (.sfence c o) s false false fun _ e s =>
    if s.peerOut e.r || !(s.col (columnOf e.w.core)).confirmed e.g.lastEpoch then .stay [] .read else .done s e.g

/-! ### PHASE_WAIT_COMPLETE (05 R104, 10 R249) -/

/-- The vertical FIFOs of a core: outbound and inbound (10 R247). -/
def State.vfOut (s : State) (core : Nat) : VFifo := let k := s.core (lowerOf core); if isUpper core then k.down else k.up
def State.vfIn (s : State) (core : Nat) : VFifo := let k := s.core (lowerOf core); if isUpper core then k.up else k.down

/-- A bank FIFO of a launch in a cluster. -/
def State.bankFifo (s : State) (w : Workgroup) (k : Nat) : Option BankFifo :=
  (s.cluster (clusterOf w.core)).fifos.find? fun f => f.ctx == w.ctx && f.lnum == w.lnum && f.k == k

/-- The count a FIFO wait names. -/
def State.fifoCount (s : State) (w : Workgroup) : FifoCount → Word
  | .vin => (s.vfIn w.core).pushed
  | .vout => (s.vfOut w.core).popped
  | .fpushed k => ((s.bankFifo w k).map (·.q.pushed)).getD 0
  | .fpopped k => ((s.bankFifo w k).map (·.q.popped)).getD 0

/-- What a waiting group sees where it looks: the environment of an instruction that reads nothing else. -/
def waitEnv (r : GRef) (w : Workgroup) (g : Group) : Env :=
  { r, w, g, m := 0, wv := [], fr := 0
    c := { stl := 0, set := 7, wait := 0, yld := false, g1 := ⟨false, 7⟩, g2 := ⟨false, 7⟩, ch := .normal, mc := false, fn := 0, ty := .b32
           sc := .thread } }

/-- The access of a phase wait's load step. One through the aperture was admitted when the wait issued, and the target is held for it (01 R12). -/
def State.waitAccess (s : State) (r : GRef) (w : Workgroup) (g : Group) (inS : Bool) (addr : Nat) : AccRes :=
  if !inS && (s.ctx r.ctx).inAperture addr && s.apertureHeld r.ctx addr 4 then .ok [(0, [(.mem (apertureLoc addr) 0, 4)])]
  else s.uniAccess r w g (if inS then 1 else 0) .read addr 4

/-- The value a waiting group's next load step reads; none while it cannot be taken. A peer's has come in answer to the step's question; a peer that has
failed answers none. -/
def State.waitReads (s : State) (r : GRef) (w : Workgroup) (g : Group) : Wait → Option (Word × State)
  | .fifo c _ => some (s.fifoCount w c, s)
  | .phase inS addr _ _ _ _ _ =>
    match s.waitAccess r w g inS addr with
    | .ok as =>
      if s.anyHeld w.core as || (peerOf (as.flatMap (·.2))).any s.failedPeers.contains then none
      else match s.uniRead (waitEnv r w g) .read (as.flatMap (·.2)) with
        | .ok (bs, s) => some (BitVec.ofNat 32 (leNat bs), s)
        | .error _ => none
    | _ => none
  | _ => none

/-- The questions that a group's wait, its trap table's read or its instruction has put to peers and that are to be answered. -/
def State.questions (s : State) (r : GRef) (w : Workgroup) (g : Group) : List PeerAsk :=
  let open_ (as : List PeerAsk) : List PeerAsk := as.filter fun a => (s.heard g a).isNone
  match g.wait with
  | .object as _ => open_ as
  | .phase inS addr _ _ _ _ _ => match s.waitAccess r w g inS addr with
    | .ok as => s.uniAsk (waitEnv r w g) .read (as.flatMap (·.2))
    | _ => []
  | .fault f => match s.resolve r.ctx w.core g.xf (g.trapSlot f.cause) 8 .read with
    | .ok [(.peer fep pctx pa _, _)] => if f.cause.resumable || g.handler || !g.trapb.getLsbD 0 then [] else open_ [trapAsk fep pctx pa]
    | _ => []
  | _ => []

/-- A peer answers a question of a group: an answer of the right length, or none for poison or a refusal. A question that changes an object is
answered once it has left, and a read once the column's own writes there have been acknowledged; no copy of the line that is older stays (05 R119). The
instruction is tried again when its last question is answered. -/
def State.peerData (s : State) (r : GRef) (k : Nat) (ext : Option (List Byte)) : Option State :=
  match s.group? r with
  | none => none
  | some (w, g) =>
    match (s.questions r w g)[k]? with
    | none => none
    | some a =>
      let mine (k : OutKind) : Bool := match k with | .peerObj b x => b == a && x.r == r | _ => false
      if (s.out.any fun p => mine p.kind) || (a.op == .read && s.peerHeld (columnOf w.core) a.fep a.pa a.len) ||
          (match ext with | some bs => bs.length != a.len | none => false) then none
      else
        let last := (s.questions r w g).length ≤ 1
        some (((s.dropPeer a.fep a.pa a.len).answered mine).modGroup r fun g => { g with
          got := g.got ++ [{ ask := a, bytes := ext }]
          wait := match g.wait with | .object as w => if last then .none else .object as w | x => x })

/-- A group whose peer has failed while it waited for an answer is tried again, with poison (21 R363); a phase wait goes on waiting (12 R279). -/
def State.askFailed (s : State) (r : GRef) : Option State :=
  match s.group? r with
  | some (w, g) => match g.wait with
    | .object _ none => if (s.questions r w g).isEmpty then some (s.modGroup r fun g => { g with wait := .none }) else none
    | _ => none
  | none => none

/-- The phase value a wait is to leave. -/
def Wait.leaves : Wait → Option Word
  | .fifo _ p => some p
  | .phase _ _ p _ _ _ _ => some p
  | _ => Option.none

/-- A load step of a wait that reads the value it is to leave: what the step met in storage stays, and the next step follows later (20 R349, R350). -/
def State.polled (s t : State) (r : GRef) (g : Group) : Option State :=
  if g.nextAt ≤ s.now && (t.injc != s.injc || t.counters != s.counters) then
    some ((s.metBy t).modGroup r fun g => { g with got := [], nextAt := s.now + 1 })
  else if g.got.isEmpty then none else some (s.modGroup r fun g => { g with got := [] })

/-- A wait completes at a load step that reads another value; a translation it needs is asked for, and a fault of it is raised. -/
def State.phaseWait (s : State) (r : GRef) : Option State :=
  match s.group? r with
  | none => none
  | some (w, g) =>
    if w.ending.isSome || w.saving || (s.col (columnOf w.core)).rolling then none
    else match g.wait.leaves with
      | none => none
      | some p =>
        match s.waitReads r w g g.wait with
        | some (v, t) =>
          if v == p then s.polled t r g
          else some (t.modGroup r fun g =>
            let g1 := match g.wait with
              | .phase _ _ _ _ _ (some d) h => g.setS d h
              | _ => g
            let epoch := (s.col (columnOf w.core)).epoch
            { g1 with wait := .none, waitFep := none, got := [], waitCnt := 0, hold := 0, lastEpoch := epoch }.stepOn (s.macrosOf r.ctx r.lnum))
        | none =>
          match g.wait with
          | .phase inS addr _ _ _ _ _ =>
            match s.waitAccess r w g inS addr with
            | .fault f => some (s.raise r w { g with wait := .none } f)
            | .miss ps =>
              let t := s.ask r.ctx w.core ps .read (.group r)
              if t.walks == s.walks then none else some t
            | .ok as =>
              -- the peer on whose page the object lies now (12 R279)
              if peerOf (as.flatMap (·.2)) == g.waitFep then none
              else some (s.modGroup r fun g => { g with waitFep := peerOf (as.flatMap (·.2)) })
          | _ => none

end Sys2Proof.Machine
end

