-- ==== Sys2Proof/Machine/Walks.lean ====
section
/-!
DEFINITION. The translation service (01 R15, R17-R25): walks, entry reads, A and D updates, peer table reads and peer questions.
-/

namespace Sys2Proof.Machine

/-! ### Walks in flight -/

def State.setWalk (s : State) (n : Nat) (w : Walk) : State := { s with walks := s.walks.set n w }

def Walk.running (w : Walk) : Bool := w.st != .queued

/-- Gives a fault to an agent that waits for a walk: to a group, or to the command that asked, while it may act. -/
def State.tellFault (s : State) (f : XFault) : Requester → State
  | .group r => s.modGroup r fun g => { g with xf := g.xf ++ [f] }
  | .queue q seq => s.setCore q.core ((s.core q.core).mapEntries fun e =>
      if e.seq == seq && e.q == q.q && e.parked.isNone && e.failed.isNone then { e with xf := e.xf ++ [f] } else e)

/-- Every agent that waits for one of a list of misses hears of the fault of its walk. -/
def State.tellFaults (s : State) (page : Nat) (k : Cause) (paddr : Nat) (rs : List WalkReq) : State :=
  rs.foldl (fun t r => t.tellFault { page, acc := r.acc, cause := k, paddr } r.who) s

/-- A walk ends in a fault: every agent that waits hears of it, and nothing is cached (01 R24). -/
def State.walkFault (s : State) (n : Nat) (w : Walk) (k : Cause) (paddr : Nat) : State :=
  ({ s with walks := s.walks.eraseIdx n } : State).tellFaults w.page k paddr w.reqs

/-! ### What the caches keep (01 R23) -/

/-- Two cached translations stand in one set of one cache: a core's cache is one set, a cluster's has 512 of 8 ways, by the low bits of the page
number (log entry 52). -/
def Xlat.sameSet (x y : Xlat) : Bool :=
  x.holder == y.holder && (decide (64 ≤ x.holder) || x.page / x.size % 512 == y.page / y.size % 512)

/-- A translation enters a cache: it takes the place of an entry for its page, or, where its set is full, of the oldest (log entry 52). -/
def cacheXlat (tlb : List Xlat) (x : Xlat) : List Xlat :=
  let rest := tlb.filter fun y => !(y.holder == x.holder && y.ctx == x.ctx && y.page == x.page && y.size == x.size)
  let set := rest.filter x.sameSet
  if set.length < (if x.holder < 64 then 8 else 48) then rest ++ [x]
  else match set.head? with
    | some y => rest.erase y ++ [x]
    | none => rest ++ [x]

/-- The caches that a finished walk fills: of each core that waits and of its cluster. -/
def Walk.holders (w : Walk) : List Nat := (w.reqs.flatMap fun r => [clusterOf r.core, 64 + r.core]).eraseDups

/-- A walk ends in cached translations. -/
def State.walkCache (s : State) (n : Nat) (w : Walk) (entry size : Nat) (peer : Option (Nat × Nat)) : State :=
  { s with walks := s.walks.eraseIdx n
           tlb := w.holders.foldl (fun t h => cacheXlat t
             { ctx := w.ctx, page := w.page / size * size, size, pa := ptePA entry, w := pteW entry, x := pteX entry
               d := pteD entry, mt := pteMT entry, peer, holder := h }) s.tlb }

/-- A core takes the n-th cached translation, one of its cluster's, into its own cache. -/
def State.fillCore (s : State) (core n : Nat) : State :=
  match s.tlb[n]? with
  | some x => if x.holder == clusterOf core then { s with tlb := cacheXlat s.tlb { x with holder := 64 + core } } else s
  | none => s

/-- The span of virtual addresses of an entry of a level (Table 1.8). -/
def levelSpan (level : Nat) : Nat := 2 ^ (39 - 9 * level)

/-- A non-leaf entry enters its tower's walk cache of 2,048 entries; the oldest makes room (log entry 52). -/
def cacheTable (cs : List WalkEntry) (e : WalkEntry) : List WalkEntry :=
  let rest := cs.filter fun x => !(x.tower == e.tower && x.ctx == e.ctx && x.level == e.level && x.va == e.va)
  let mine := rest.filter fun x => x.tower == e.tower
  if mine.length < 2048 then rest ++ [e]
  else match mine.head? with
    | some y => rest.erase y ++ [e]
    | none => rest ++ [e]

/-- Where a walk starts: below the deepest non-leaf entry that its tower's walk cache holds for the page, else at ROOT (01 R17, R23). -/
def State.walkStart (s : State) (w : Walk) : Nat × Nat :=
  let hit (level : Nat) : Option WalkEntry := s.wcache.find? fun e =>
    e.tower == w.tower && e.ctx == w.ctx && e.level == level && e.va == w.page / levelSpan level * levelSpan level
  match hit 2, hit 1, hit 0 with
  | some e, _, _ => (3, e.table)
  | none, some e, _ => (2, e.table)
  | none, none, some e => (1, e.table)
  | none, none, none => (0, (s.ctx w.ctx).root)

/-- The leaf entry after the misses that a walk serves: A set, and D where one of them is a write (01 R22). -/
def Walk.updated (w : Walk) (entry : Nat) : Nat :=
  entryUpdated entry (if w.reqs.any fun r => r.acc == .write then .write else .read)

/-- The misses of a walk that its leaf permits; each of the others faults (01 R21). -/
def State.permitted (s : State) (w : Walk) (e : Nat) : Walk × State :=
  ({ w with reqs := w.reqs.filter fun r => (leafPermits e r.acc).isNone },
   w.reqs.foldl (fun (t : State) r => match leafPermits e r.acc with
     | some k => t.tellFaults w.page k 0 [r]
     | none => t) s)

/-- The leaf is ready to cache: A and D are set first where they are clear. -/
def State.walkLeaf (s : State) (n : Nat) (w : Walk) (at_ entry size : Nat) (peer : Option (Nat × Nat)) : State :=
  if w.updated entry == entry then s.walkCache n w entry size peer
  else s.setWalk n { w with st := .update at_ (BitVec.ofNat 64 entry) (BitVec.ofNat 64 (w.updated entry)) size peer }

/-- Contexts of a tower that have a walk waiting for a slot, and fewer than 128 running. DESIGN CHOICE (log entry 53): the 128 slots of 01 R25 are
counted over both towers. -/
def State.waitingCtxs (s : State) (tower : Nat) : List Nat :=
  (List.range 64).filter fun c => (s.walks.any fun w => w.tower == tower && w.ctx == c && !w.running) &&
    decide ((s.walks.filter fun w => w.ctx == c && w.running).length < 128)

/-- The context that a tower's service serves next: round-robin after the one served last (01 R25). -/
def State.nextServed (s : State) (tower : Nat) : Option Nat :=
  let cs := s.waitingCtxs tower
  match cs.find? fun c => s.served[tower]?.getD 0 < c with
  | some c => some c
  | none => cs.head?

/-- PAGE_WALK: a walk starts when its tower has a slot of 256 and its context one of 128, in arrival order within a context and round-robin
between contexts (log entry 45). -/
def State.startWalk (s : State) (n : Nat) : Option State :=
  match s.walks[n]? with
  | none => none
  | some w =>
    if w.running || (s.walks.filter fun x => x.tower == w.tower && x.running).length ≥ 256 || s.nextServed w.tower != some w.ctx ||
        ((s.walks.take n).any fun x => x.tower == w.tower && x.ctx == w.ctx && !x.running) then none
    else
      let s : State := { s with served := s.served.setIfInBounds w.tower w.ctx }
      if !(s.ctx w.ctx).valid then some (s.walkFault n w .notPresent 0)
      else some (s.setWalk n { w with st := .read (s.walkStart w).1 (s.walkStart w).2 })

/-- A load of the translation service: none where it waits (05 R112); the unit it met, or the value, and the state after it. -/
def State.serviceRead (s : State) (a n : Nat) : Option (Except Nat Nat × State) :=
  let l : Loc := ⟨.dram, a⟩
  if s.heldOff none l n then none
  else
    let (bad, t) := s.meet l n
    some (match bad with | some b => .error b.addr | none => .ok (leNat (s.bytesAt l n)), t)

/-- WALK_ENTRY_READ: the entry's checks, then the next level, the address's own entry, an update, a cached translation or a fault. -/
def State.entryRead (s : State) (n : Nat) : Option State :=
  match s.walks[n]? with
  | none => none
  | some w =>
    let go (level table : Nat) (first : Bool) : Option State :=
      let idx := walkIndex level w.page
      let a := table + 8 * (if first then idx / 16 * 16 else idx)
      match s.serviceRead a 8 with
      | none => none
      | some (.error b, s) => some (s.walkFault n w .physicalAddress b)
      | some (.ok e, s) =>
        match checkEntry level first e with
        | .fault k => some (s.walkFault n w k 0)
        | .own => some (s.setWalk n { w with st := .own table })
        | .table base =>
          some ({ s with wcache := cacheTable s.wcache { tower := w.tower, ctx := w.ctx, level, va := w.page / levelSpan level * levelSpan level
                                                         table := base } } |>.setWalk n { w with st := .read (level + 1) base })
        | .leaf size =>
          let (w, s) := s.permitted w e
          if w.reqs.isEmpty then some { s with walks := s.walks.eraseIdx n }
          else if ptePeer e == 0 then some (s.walkLeaf n w a e size none)
          else some (s.setWalk n { w with st := .peerTable a (BitVec.ofNat 64 e) size })
    match w.st with
    | .read level table => go level table (level == 3)
    | .own table => go 3 table false
    | _ => none

/-- AD_UPDATE: the compare-and-swap at the entry's home; a changed entry restarts the walk. -/
def State.adUpdate (s : State) (n : Nat) : Option State :=
  match s.walks[n]? with
  | none => none
  | some w =>
    match w.st with
    | .update a old new size peer =>
      match s.serviceRead a 8 with
      | none => none
      | some (.error b, s) => some (s.walkFault n w .physicalAddress b)
      | some (.ok e, s) =>
        if e == old.toNat then some ((s.put ⟨.dram, a⟩ (leBytes 8 new.toNat)).walkCache n w new.toNat size peer)
        else some (s.setWalk n { w with st := .read 0 (s.ctx w.ctx).root })
    | _ => none

/-- PEER_TABLE_READ (Table 1.6). -/
def State.peerTable (s : State) (n : Nat) : Option State :=
  match s.walks[n]? with
  | none => none
  | some w =>
    match w.st with
    | .peerTable a entry size =>
      let k := s.ctx w.ctx
      let p := ptePeer entry.toNat
      if p > k.peern then some (s.walkFault n w .peerInvalid 0)
      else match s.serviceRead (k.peert + 16 * p) 16 with
        | none => none
        | some (.error b, s) => some (s.walkFault n w .physicalAddress b)
        | some (.ok e, s) =>
          if !e.testBit 63 then some (s.walkFault n w .peerInvalid 0)
          else some (s.setWalk n { w with st := .peerAsk a entry size (bits e 31 0) (bits e 37 32) s.now })
    | _ => none

/-- Ports that reach a peer endpoint (log entry 54). -/
def Port.reaches (p : Port) (fep : Nat) : Bool := match p.reach with | none => true | some l => l.contains fep
def State.portsTo (s : State) (fep : Nat) : List Port := s.ports.toList.filter fun p => p.reaches fep
def Port.recovering (p : Port) : Bool := match p.link with | .recovery _ | .down => true | _ => false
/-- Every port that reaches a peer is in link recovery. -/
def State.cut (s : State) (fep : Nat) : Bool := (s.portsTo fep).all Port.recovering

/-- PEER_ADMISSION_REPLY. -/
def State.peerReplyIn (s : State) (n : Nat) (admits : Bool) : Option State :=
  match s.walks[n]? with
  | none => none
  | some w =>
    match w.st with
    | .peerAsk a entry size fep pctx _ =>
      if s.cut fep then none
      else if admits && !s.failedPeers.contains fep then
        -- misses that have merged onto the walk since its leaf was read
        let (w, s) := s.permitted w entry.toNat
        if w.reqs.isEmpty then some { s with walks := s.walks.eraseIdx n }
        else some (s.walkLeaf n w a entry.toNat size (some (fep, pctx)))
      else some (s.walkFault n w .peerInvalid 0)
    | _ => none

/-- PEER_QUERY_TIMEOUT: recovery has outlasted 500 ms. DESIGN CHOICE (log entry 54): the period is counted from the question. -/
def State.peerTimeout (s : State) (n : Nat) : Option State :=
  match s.walks[n]? with
  | none => none
  | some w =>
    match w.st with
    | .peerAsk _ _ _ fep _ since =>
      if s.cut fep && since + 2000000000 ≤ s.now then some (s.walkFault n w .peerInvalid 0) else none
    | _ => none

def execPageWalk (n : Nat) (s : State) : Host.Outcome State Fault Refusal := .next ((s.startWalk n).getD s)
def execWalkEntryRead (n : Nat) (s : State) : Host.Outcome State Fault Refusal := .next ((s.entryRead n).getD s)
def execAdUpdate (n : Nat) (s : State) : Host.Outcome State Fault Refusal := .next ((s.adUpdate n).getD s)
def execPeerTableRead (n : Nat) (s : State) : Host.Outcome State Fault Refusal := .next ((s.peerTable n).getD s)
def execPeerAdmissionReply (n : Nat) (admits : Bool) (s : State) : Host.Outcome State Fault Refusal :=
  .next ((s.peerReplyIn n admits).getD s)
def execPeerQueryTimeout (n : Nat) (s : State) : Host.Outcome State Fault Refusal := .next ((s.peerTimeout n).getD s)

end Sys2Proof.Machine
end

