-- ==== Sys2Proof/Machine/Deliver.lean ====
section
/-!
DEFINITION. Steps of groups that no instruction issues: fetches (04 R86, 07 R148), deliveries and deaths (06 R131-R134), atomics and
reductions at their homes (05 R108, R114), trap delivery (12 R274) and the watchdog (12 R279).
-/

namespace Sys2Proof.Machine

/-! ### Load data (06 R131) -/

/-- Puts a lane's value into a register, in ascending lane position. -/
def vput (l : Nat) (x : Word) : VReg → VReg
  | [] => [(l, x)]
  | c :: t => if c.1 < l then c :: vput l x t else if c.1 == l then (l, x) :: t else (l, x) :: c :: t

/-- Bytes of parts of a lane, a peer's taken from what arrived, and the rest of it; none where too little has arrived. -/
def partBytes : List PeerPart → List Byte → Option (List Byte) × List Byte
  | [], ext => (some [], ext)
  | .here bs :: ps, ext =>
    let (r, ext) := partBytes ps ext
    (r.map fun x => bs ++ x, ext)
  | .there _ _ _ n :: ps, ext =>
    let (r, rest) := partBytes ps (ext.drop n)
    (if ext.length < n then none else r.map fun x => ext.take n ++ x, rest)

/-- What each lane receives, once a peer's bytes have arrived: where they have not, the peer's reply is poisoned, or refused the read, and the lane
meets uncorrectable data (20 R347, 21 R362). -/
def arrived : List (Nat × LaneVal) → List Byte → List (Nat × LaneVal)
  | [], _ => []
  | (l, .peer ps ty) :: r, ext =>
    let (bs, ext) := partBytes ps ext
    (l, match bs with | some x => .ok (regWords ty x) | none => .bad ⟨.dram, 0⟩ 8) :: arrived r ext
  | v :: r, ext => v :: arrived r ext

/-- The peers' parts that a result waits for, in the order of its lanes. -/
def Pend.parts (p : Pend) : List PeerPart :=
  p.lanes.flatMap fun v => match v.2 with
    | .peer ps _ => ps.filter fun x => match x with | .there .. => true | .here _ => false
    | _ => []

/-- The words of the lanes that receive a value. -/
def goodLanes (vs : List (Nat × LaneVal)) : List (Nat × List Word) :=
  vs.filterMap fun v => match v.2 with | .ok ws => some (v.1, ws) | _ => none

/-- Writes what arrived into the registers of a result; a lane that has left LIVE is not written. -/
def Group.receive (g : Group) (p : Pend) (vals : List (Nat × List Word)) : Group :=
  if p.vec then
    (vals.filter fun v => g.live.getLsbD v.1).foldl (fun g v =>
      (List.range p.n).foldl (fun g k =>
        { g with v := g.v.setIfInBounds (p.first + k) (vput v.1 (v.2.getD k 0) (g.vreg (p.first + k))) }) g) g
  else match vals with
    | v :: _ => (List.range p.n).foldl (fun g k => g.setS (p.first + k) (v.2.getD k 0)) g
    | [] => g

/-- A lane that reads a failed peer receives poisoned data (21 R363). -/
def LaneVal.unlessFailed (v : LaneVal) (failed : List Nat) : LaneVal :=
  match v with
  | .peer ps _ => if ps.any fun p => match p with | .there fep _ _ _ => failed.contains fep | .here _ => false then
      .bad ⟨.dram, 0⟩ 8 else v
  | _ => v

/-- Bytes of a peer's range, asked for at a time, enter the copy of their line that a tower's L2 holds, if it is not older than 2 µs and was not asked for
later than they; where they differ from what it holds, the copy goes (05 R119). -/
def State.fillPeer (s : State) (tower since fep pa : Nat) (bs : List Byte) : State :=
  { s with peerCopies := s.peerCopies.filterMap fun c =>
      if c.tower == tower && c.fep == fep && c.at_ ≤ since && s.now ≤ c.at_ + 8000 then
        let new := (bs.zipIdx.map fun b => (pa + b.2, b.1)).filter fun b => b.1 / 256 == c.line
        if c.bytes.any fun b => new.any fun n => n.1 == b.1 && n.2 != b.2 then none
        else some { c with bytes := new ++ c.bytes.filter fun b => !(new.any fun n => n.1 == b.1) }
      else some c }

/-- The bytes that arrived for the parts of a result, each into its copy. -/
def State.fillParts (s : State) (tower since : Nat) : List PeerPart → List Byte → State
  | .there fep _ pa n :: ps, ext => (if ext.length < n then s else s.fillPeer tower since fep pa (ext.take n)).fillParts tower since ps (ext.drop n)
  | .here _ :: ps, ext => s.fillParts tower since ps ext
  | [], _ => s

/-- A part of a read that a peer must answer waits for the column's own writes there to be acknowledged (05 R119); a failed peer's does not. -/
def State.partHeld (s : State) (col : Nat) : PeerPart → Bool
  | .there fep _ pa n => !s.failedPeers.contains fep && s.peerHeld col fep pa n
  | .here _ => false

/-- A group that the interlock has held for a result that is ready now issues two cycles later (07 R160). -/
def Group.unblocked (g : Group) (regs : List RegName) (now cyc : Nat) : Group :=
  if regs.any g.blocked.contains then { g with nextAt := max g.nextAt (now + 2 * cyc), blocked := [] } else g

/-- LOAD_DATA_DELIVERY of result n of a group: the good lanes receive their values, the lanes that met uncorrectable data die, once the landing buffer
has room for their record (05 R113). -/
def State.deliverData (s : State) (r : GRef) (n : Nat) (ext : List Byte) : Option State :=
  match s.group? r with
  | none => none
  | some (w, g) =>
    match g.pend[n]? with
    | none => none
    | some p0 =>
      if p0.parts.any (s.partHeld (columnOf w.core)) then none else
      let failed := p0.lanes.map fun v => (v.1, v.2.unlessFailed s.failedPeers)
      let p := { p0 with lanes := arrived failed ext }
      let rest := g.pend.eraseIdx n
      let g1 := { (g.receive p (goodLanes p.lanes)).unblocked p.regs s.now (s.clock w.core).cyc with pend := rest }
      let g2 := match p.token with
        | some k => if rest.any fun q => q.token == some k then g1 else g1.setTok k false
        | none => g1
      let bad := p.lanes.filterMap fun v => match v.2 with | .bad b place => some (v.1, b, place) | _ => none
      let s1 := (s.fillParts (towerOf w.core) p.at_ ({ p with lanes := failed } : Pend).parts ext).setGroup r g2
      if !bad.isEmpty && !s.recRoom (columnOf w.core) then none else
      let dead := if p.vec then bad else bad.flatMap fun b => (lanesOf g2.live).map fun l => (l, b.2)
      some (s1.killBad r dead p.iaddr p.mstep)

/-- The open questions of results in flight: result, lane, part. -/
def Group.pendAsks (g : Group) : List (Nat × Nat × Nat × PeerPart) :=
  g.pend.zipIdx.flatMap fun (p, n) => p.lanes.flatMap fun v => match v.2 with
    | .peer ps _ => ps.zipIdx.filterMap fun (x, k) => match x with | .there .. => some (n, v.1, k, x) | .here _ => none
    | _ => []

/-- A lane's value with one part answered: the bytes, or poison. -/
def LaneVal.answered (v : LaneVal) (k : Nat) (ext : Option (List Byte)) : LaneVal :=
  match v, ext with
  | .peer ps ty, some bs =>
    let ps := ps.zipIdx.map fun (x, i) => if i == k then .here bs else x
    if ps.all fun x => match x with | .here _ => true | .there .. => false then
      .ok (regWords ty (ps.flatMap fun x => match x with | .here b => b | .there .. => []))
    else .peer ps ty
  | .peer .., none => .bad ⟨.dram, 0⟩ 8
  | v, _ => v

/-- A peer answers the k-th open question of a group: one of its wait or of its instruction, then those of its results in flight. -/
def State.peerReply (s : State) (r : GRef) (k : Nat) (ext : Option (List Byte)) : Option State :=
  match s.group? r with
  | none => none
  | some (w, g) =>
    let q := (s.questions r w g).length
    if k < q then s.peerData r k ext
    else match g.pendAsks[k - q]? with
      | some (n, lane, part, .there fep _ pa len) =>
        let since := ((g.pend[n]?).map (·.at_)).getD 0
        if s.partHeld (columnOf w.core) (.there fep 0 pa len) || (match ext with | some bs => bs.length != len | none => false) then none
        else
          let t := match ext with | some bs => s.fillPeer (towerOf w.core) since fep pa bs | none => s
          some (t.modGroup r fun g => { g with pend := g.pend.zipIdx.map fun (p, i) =>
            if i == n then { p with lanes := p.lanes.map fun v => if v.1 == lane then (v.1, v.2.answered part ext) else v } else p })
      | _ => none

/-- The k-th step that a group's memory instruction has left, taken by itself (04 R84). -/
def State.stepLane (s : State) (r : GRef) (k : Nat) (ext : List Byte) : Option State :=
  match s.group? r with
  | none => none
  | some (w, g) =>
    match g.wait with
    | .lanes q => s.laneStep r w g q k
    | .atomic _ => s.atomicPerform r k ext
    | .bind n bs => s.bindStep r w g n bs
    | _ => none

/-! ### The watchdog (12 R279) -/

/-- Waits that the wait count measures. -/
def Wait.counted : Wait → Bool
  | .phase _ _ _ swap _ _ _ => !swap
  | .fifo .. | .regroup .. => true
  | .object _ (some swap) => !swap
  | _ => false

/-- The awaited object lies on a peer page all of whose ports are in recovery: on the peer that the wait's last translation gave, or one whose answer its
first load step awaits. -/
def State.peerCut (s : State) (g : Group) : Bool :=
  match g.wait with
  | .phase false .. => g.waitFep.any s.cut
  | .object as (some _) => as.any fun a => s.cut a.fep
  | _ => false

/-- The counts of a group after dt units of 0.25 ns (log entry 41). -/
def Group.watched (g : Group) (cut : Bool) (dt : Nat) : Group :=
  match g.wait with
  | .parked _ => g
  | .phase _ _ _ true _ _ _ | .object _ (some true) => g
  | x =>
    if g.retired.isSome then g
    else if x.counted then (if cut then { g with hold := g.hold + dt } else { g with waitCnt := g.waitCnt + dt })
    else { g with runCnt := g.runCnt + dt }

def Group.waitLimit (g : Group) : Nat := bits g.wdog.toNat 15 0
def Group.runLimit (g : Group) : Nat := bits g.wdog.toNat 31 16

/-- A watchdog fires on a group under a condition, also while its workgroup waits to be saved. -/
def State.watchdog (s : State) (r : GRef) (k : Cause) (fires : Group → Bool) : Option State :=
  match s.group? r with
  | some (w, g) => if w.ending.isNone && w.toFill == 0 && fires g then some (s.raise r w g { cause := k }) else none
  | none => none

def firesWait (g : Group) : Bool := g.wait.counted && g.waitLimit != 0 && g.waitLimit * 400000 ≤ g.waitCnt
def firesPeer (g : Group) : Bool := g.wait.counted && 2000000000 ≤ g.hold
/-- A running group, or one that stalls before its instruction has taken a step: the run count fires on it (log entry 64). -/
def Wait.stalls : Wait → Bool
  | .none | .inval _ | .refetch _ => true
  | .atomic q => q.got.isEmpty && !q.red && q.lanes.all fun a => a.peer.isNone && a.old.isNone
  | .lanes q => q.got.isEmpty && match q.kind with | .store _ | .scale .. => false | _ => true
  | .object as Option.none => as.all fun a => a.op == .read
  | .object _ (some _) | .bind .. | .fault _ | .parked _ | .phase .. | .fifo .. | .regroup .. => false

def firesRun (g : Group) : Bool := g.wait.stalls && g.runLimit != 0 && g.runLimit * 4000000 ≤ g.runCnt

/-- The watchdog of a group whose count has come to its limit (12 R279). -/
def State.watch (s : State) (r : GRef) : Option State :=
  ((s.watchdog r .watchdogWait firesWait).or (s.watchdog r .watchdogPeer firesPeer)).or (s.watchdog r .watchdogRun firesRun)

/-- The time at which a count of a group comes to its limit, while the group goes on as it does. -/
def Group.watchAt (g : Group) (cut : Bool) (now : Nat) : List Nat :=
  if g.wait.counted then
    (if cut then [now + (2000000000 - g.hold)] else if g.waitLimit == 0 then [] else [now + (g.waitLimit * 400000 - g.waitCnt)])
  else if g.wait.stalls && g.runLimit != 0 then [now + (g.runLimit * 4000000 - g.runCnt)] else []

/-- TRAP_DELIVERY of a group whose fault waits for its trap table read. -/
def State.trapDeliver (s : State) (r : GRef) : Option State :=
  match s.group? r with
  | some (w, g) =>
    match g.wait with
    | .fault f => s.deliver r w g f
    | _ => none
  | none => none

def execInstructionFetch (g : GRef) (s : State) : Host.Outcome State Fault Refusal := .next ((s.acting g (s.fetchNext g)).getD s)
def execLineRefetch (g : GRef) (s : State) : Host.Outcome State Fault Refusal := .next ((s.acting g (s.refetch g)).getD s)
def execLoadDataDelivery (g : GRef) (n : Nat) (ext : List Byte) (s : State) : Host.Outcome State Fault Refusal :=
  .next ((s.acting g (s.deliverData g n ext)).getD s)
def execAtomicPerform (g : GRef) (ext : List Byte) (s : State) : Host.Outcome State Fault Refusal := .next ((s.acting g (s.atomicPerform g 0 ext)).getD s)
def execReductionPerform (l : Loc) (plan : MergePlan) (s : State) : Host.Outcome State Fault Refusal :=
  .next ((s.reductionPerform l plan).getD s)
def execTrapDelivery (g : GRef) (s : State) : Host.Outcome State Fault Refusal := .next ((s.acting g (s.trapDeliver g)).getD s)
def execWatchdogWait (g : GRef) (s : State) : Host.Outcome State Fault Refusal := .next ((s.acting g (s.watchdog g .watchdogWait firesWait)).getD s)
def execWatchdogPeer (g : GRef) (s : State) : Host.Outcome State Fault Refusal := .next ((s.acting g (s.watchdog g .watchdogPeer firesPeer)).getD s)
def execWatchdogRun (g : GRef) (s : State) : Host.Outcome State Fault Refusal := .next ((s.acting g (s.watchdog g .watchdogRun firesRun)).getD s)

end Sys2Proof.Machine
end

