-- ==== Sys2Proof/Machine/Fifo.lean ====
section
/-!
DEFINITION. FIFO and bank-mode forms (10 R247-R250, 02 R38-R41, R50, R51).
-/

namespace Sys2Proof.Machine

/-- Entries held: PUSHED less POPPED. -/
def VFifo.held (f : VFifo) : Nat := (f.pushed - f.popped).toNat

/-- push of 10 R248 into a FIFO of a capacity. -/
def VFifo.push (f : VFifo) (cap : Nat) (r : VReg) : Option VFifo :=
  if f.held < cap then some { entries := f.entries ++ [(r, 0)], pushed := f.pushed + 1, popped := f.popped } else none

/-- pop of 10 R248: the oldest entry, with the lanes whose storage is uncorrectable. -/
def VFifo.pop (f : VFifo) : Option ((VReg × LaneMap) × VFifo) :=
  match f.entries with
  | [] => none
  | x :: t => some (x, { entries := t, pushed := f.pushed, popped := f.popped + 1 })

def State.setVfOut (s : State) (core : Nat) (f : VFifo) : State :=
  let k := s.core (lowerOf core)
  s.setCore (lowerOf core) (if isUpper core then { k with down := f } else { k with up := f })
def State.setVfIn (s : State) (core : Nat) (f : VFifo) : State :=
  let k := s.core (lowerOf core)
  s.setCore (lowerOf core) (if isUpper core then { k with up := f } else { k with down := f })

def State.setBankFifo (s : State) (w : Workgroup) (k : Nat) (q : VFifo) : State :=
  let c := s.cluster (clusterOf w.core)
  s.setCluster (clusterOf w.core)
    { c with fifos := c.fifos.map fun f => if f.ctx == w.ctx && f.lnum == w.lnum && f.k == k then { f with q } else f }

/-- The entry a push appends: the values of a register on its effective map. -/
def Env.pushed (e : Env) (o : Operand) : VReg := vmk e.m fun l => BitVec.ofNat 32 (e.val .b32 o l)

/-- How many words of a packed register hold lanes of a map, two lanes in each (02 R32, 20 R349). -/
def wordsIn (r : VReg) (m : LaneMap) : Nat := ((r.zipIdx.filter fun p => m.getLsbD p.1.1).map fun p => p.2 / 2).eraseDups.length

/-- What a pop does to the group: D on the entry's map within LIVE; lanes that received uncorrectable data die (20 R347), once there
is room for their record. -/
def popInto (s : State) (e : Env) (o : OpsR) (x : VReg × LaneMap) : Act :=
  let bad := x.2 &&& vmap x.1 &&& e.g.live
  let ok := x.1.filter fun p => e.g.live.getLsbD p.1 && !bad.getLsbD p.1
  let g := (match o.d with | .vec n => e.g.setV n ok | _ => e.g).writeP o.e true
  if bad == 0 then .done s g
  else if !s.recRoom (columnOf e.w.core) then .stay [] .write
  else
    let s := ((s.setGroup e.r g).count (towerOf e.w.core) 3 (wordsIn x.1 bad)).kill e.r bad e.g.pc.toNat ((e.g.mcall.map (·.2)).getD 0) 7 0
    match s.group? e.r with
    | some (_, g) => .done s g
    | none => .ends s

/-! ### Vertical FIFOs -/

def execVpush (c : Ctl) (o : OpsR) (s : State) : Host.Outcome State Fault Refusal :=
  issueWord (.vpush c o) s false false fun _ e s =>
    match (s.vfOut e.w.core).push 16 (e.pushed o.a) with
    | some f =>
      .done ((s.setVfOut e.w.core f).modWg e.r fun w => { w with vfMark := some f.pushed }) (e.g.writeP o.e true)
    | none => .done s (e.g.writeP o.e false)

def execVpop (c : Ctl) (o : OpsR) (s : State) : Host.Outcome State Fault Refusal :=
  issueWord (.vpop c o) s false false fun _ e s =>
    match (s.vfIn e.w.core).pop with
    | some (x, f) => popInto (s.setVfIn e.w.core f) e o x
    | none => .done s (e.g.writeP o.e false)

/-! ### Bank FIFOs -/

/-- Bank FIFO k of the launch, which the kernel must declare. -/
def Env.bankFifo (e : Env) (s : State) (k : Nat) : Except Act BankFifo :=
  match (if k < e.w.desc.nfifo then s.bankFifo e.w k else none) with
  | some f => .ok f
  | none => .error (.trap .illegalVariant)

def execFpush (c : Ctl) (o : OpsR) (s : State) : Host.Outcome State Fault Refusal :=
  issueWord (.fpush c o) s false false fun _ e s =>
    match e.bankFifo s c.fn.toNat with
    | .error a => a
    | .ok f =>
      match f.q.push 480 (e.pushed o.a) with
      | some q => .done (s.setBankFifo e.w c.fn.toNat q) (e.g.writeP o.e true)
      | none => .done s (e.g.writeP o.e false)

def execFpop (c : Ctl) (o : OpsR) (s : State) : Host.Outcome State Fault Refusal :=
  issueWord (.fpop c o) s false false fun _ e s =>
    match e.bankFifo s c.fn.toNat with
    | .error a => a
    | .ok f =>
      match f.q.pop with
      | some (x, q) => popInto (s.setBankFifo e.w c.fn.toNat q) e o x
      | none => .done s (e.g.writeP o.e false)

/-! ### Counts and waits (10 R249) -/

def execVfree (c : Ctl) (o : OpsR) (s : State) : Host.Outcome State Fault Refusal :=
  issueWord (.vfree c o) s false false fun _ e s =>
    let out := s.vfOut e.w.core
    let in_ := s.vfIn e.w.core
    let put (v : Nat) : Act := .done s (e.g.writeS .ui32 o.d v)
    match c.fn.toNat with
    | 0 => put (16 - out.held)
    | 1 => put in_.held
    | 2 => put out.popped.toNat
    | 3 => put in_.pushed.toNat
    | n =>
      match e.bankFifo s (n % 4) with
      | .error a => a
      | .ok f => put (if n < 8 then f.q.pushed.toNat else f.q.popped.toNat)

/-- A wait on a FIFO count. -/
def fifoWait (o : OpsR) (k : FifoCount) (e : Env) (s : State) : Act :=
  let p : Word := BitVec.ofNat 32 (e.u o.b)
  if s.fifoCount e.w k != p then .done s e.g else .park s { e.g with wait := .fifo k p }

def execWaitphVin (c : Ctl) (o : OpsR) (s : State) : Host.Outcome State Fault Refusal :=
  issueWord (.waitphVin c o) s false false fun _ e s => fifoWait o .vin e s
def execWaitphVout (c : Ctl) (o : OpsR) (s : State) : Host.Outcome State Fault Refusal :=
  issueWord (.waitphVout c o) s false false fun _ e s => fifoWait o .vout e s
def execWaitphBankFifo (c : Ctl) (o : OpsR) (s : State) : Host.Outcome State Fault Refusal :=
  issueWord (.waitphBankFifo c o) s false false fun _ e s =>
    let k := c.fn.toNat % 4
    match e.bankFifo s k with
    | .error a => a
    | .ok _ => fifoWait o (if c.fn.toNat < 8 then .fpushed k else .fpopped k) e s

def execPhaseWaitComplete (g : GRef) (s : State) : Host.Outcome State Fault Refusal := .next ((s.acting g (s.phaseWait g)).getD s)

/-! ### Bank modes (10 R250) -/

/-- BANKMODE.cmin: values above 48 act as 48. -/
def State.setCmin (s : State) (cl n : Nat) : State := s.setCluster cl { s.cluster cl with cmin := min n 48 }

def execBankmodeCmin (c : Ctl) (o : OpsR) (s : State) : Host.Outcome State Fault Refusal :=
  issueWord (.bankmodeCmin c o) s false false fun _ e s => .done (s.setCmin (clusterOf e.w.core) (e.u o.a)) e.g

/-- An allocation or a queued aperture access lies in a bank (Table 2.3). -/
def State.bankUsed (s : State) (cl bank : Nat) : Bool :=
  (s.wgs.any fun w => clusterOf w.core == cl && w.scrSize != 0 && w.scrBase < (bank + 1) * 2 ^ 17 && bank * 2 ^ 17 < w.scrBase + w.scrSize) ||
  s.cols.toList.any fun k => k.lb.any fun e => match e.kind.range with
    | some (l, n) => overlaps l n (sramLoc cl (bank * 2 ^ 17)) (2 ^ 17)
    | none => false

/-- A scratchpad bank that holds nothing returns to cache mode. -/
def State.releaseBank (s : State) (cl bank : Nat) : State :=
  let k := s.cluster cl
  match k.modes[bank]?.getD .cache with
  | .scratch _ => if s.bankUsed cl bank then s else s.setCluster cl { k with modes := k.modes.setIfInBounds bank .cache }
  | _ => s

def execBankmodeRelease (c : Ctl) (o : OpsR) (s : State) : Host.Outcome State Fault Refusal :=
  issueWord (.bankmodeRelease c o) s false false fun _ e s =>
    .done ((List.range 64).foldl (fun s b => s.releaseBank (clusterOf e.w.core) b) s) e.g

end Sys2Proof.Machine
end

