-- ==== Sys2Proof/Machine/Engine.lean ====
section
/-!
DEFINITION. Engine queues and their entries (05 R96-R100), what engines read and write (04 R94, 05 R114), pre-translation and faults
(01 R27, R28, 12 R273, R278), land steps (05 R103) and the end of a command.
-/

namespace Sys2Proof.Machine

/-! ### Queues -/

def Core.queue (k : Core) (q : Nat) : List Entry := if q < 4 then k.y[q]?.getD [] else k.mx
def Core.setQueue (k : Core) (q : Nat) (es : List Entry) : Core :=
  if q < 4 then { k with y := k.y.setIfInBounds q es } else { k with mx := es }
def State.queue (s : State) (q : QRef) : List Entry := (s.core q.core).queue q.q
def State.setQueue (s : State) (q : QRef) (es : List Entry) : State := s.setCore q.core ((s.core q.core).setQueue q.q es)
/-- The head of a queue; a column that rolls back takes no step (20 R342). -/
def State.head (s : State) (q : QRef) : Option Entry :=
  if (s.col (columnOf q.core)).rolling then none else (s.queue q).head?
def State.setHead (s : State) (q : QRef) (e : Entry) : State := s.setQueue q (e :: (s.queue q).drop 1)

/-- Slots of a queue that are taken: its entries, and commands that left it and found the retention store full (05 R100). -/
def Core.slots (k : Core) (q : Nat) : Nat := (k.queue q).length + ((k.kept.drop 64).filter fun e => e.q == q).length
/-- Entries of a queue (05 R96). -/
def queueCap (q : Nat) : Nat := if q < 4 then 32 else 16

/-- Changes the entries of every queue now and in every snapshot: what no rollback deletes. -/
def State.everyEntry (s : State) (f : Entry → Entry) : State :=
  { s with cores := s.cores.map fun (k : Core) => k.mapEntries f
           cols := s.cols.map fun (k : Column) => { k with snaps := k.snaps.map fun n =>
             { n with cores := n.cores.map fun c => (c.1, c.2.mapEntries f) } } }

/-- Entries of a queue that are left after some have gone: a new head reaches it now. -/
def reheaded (now : Nat) (old new : List Entry) : List Entry :=
  match new, old with
  | x :: t, y :: _ => if x.seq == y.seq then new else { x with since := now } :: t
  | _, _ => new

/-! ### Commands -/

/-- Destination lines of a copy, and the part of it that line k takes: its offset and its length (10 R239). -/
def copyLines (dst len : Nat) : Nat := if len == 0 then 0 else (dst + len - 1) / 256 - dst / 256 + 1
def copyPart (dst len k : Nat) : Nat × Nat :=
  let lo := max dst ((dst / 256 + k) * 256)
  (lo - dst, min (dst + len) ((dst / 256 + k + 1) * 256) - lo)

/-- A word of a loop's scalar block, unsigned and signed (Table 11.3). -/
def blkU (b : List Word) (k : Nat) : Nat := (b.getD k 0).toNat
def blkI (b : List Word) (k : Nat) : Int := (b.getD k 0).toInt

/-- Rows and columns of a loop's result tile (11 R253, R254). -/
def loopTM (ra : Rec) : Nat := recTile ra 1
def loopTN (rb : Rec) : Nat := recTile rb 1

def Entry.has (l : List StepRec) (k : Nat) : Bool := l.any fun r => r.k == k
def Entry.valOf (l : List StepRec) (k : Nat) : Nat := ((l.find? fun r => r.k == k).map (·.val)).getD 0

/-- Every data step has been taken. Fences and joint loops leave by steps of their own. -/
def Entry.dataDone (e : Entry) : Bool :=
  match e.cmd with
  | .tile .. => e.data.length == 1
  | .rput .. => e.data.length == 2
  | .ycopy _ _ dst _ len => e.data.length == copyLines dst len
  | .gather _ _ _ _ _ _ n limit _ => e.index.length == n && e.data.length == (e.index.filter fun r => r.val < limit).length
  | .mloop _ _ b _ | .mloops _ _ _ b _ _ => e.data.length == blkU b 3
  | .mzero _ cnt => e.data.length == cnt
  | .fence _ | .mloopj .. => false

/-- The land steps a command takes. -/
def Entry.landCount (e : Entry) : Nat :=
  match e.cmd with
  | .rput .. => 1
  | .fence _ | .mloopj .. => 0
  | c =>
    if e.bar.isNone then 0 else match c with
    | .ycopy _ _ dst _ len => copyLines dst len
    | .gather _ _ _ _ _ _ n _ _ => n
    | .mzero _ cnt => if cnt == 0 then 0 else 1
    | _ => 1

def Entry.complete (e : Entry) : Bool := e.dataDone && e.lands.length == e.landCount

/-- The ring as RPUT's first step read it. -/
def Entry.ring (e : Entry) : Nat := Entry.valOf e.data 0

/-- The bytes of land step n, once the data steps it counts have been taken (05 R103). -/
def Entry.landAmount (e : Entry) (n : Nat) : Option Nat :=
  if n ≥ e.landCount || Entry.has e.lands n then none
  else match e.cmd with
    | .tile _ _ r _ _ _ => if e.dataDone then some (recBytes r) else none
    | .rput .. => if e.dataDone then some (ringSize e.ring) else none
    | .ycopy _ _ dst _ len => if Entry.has e.data n then some (copyPart dst len n).2 else none
    | .gather _ _ _ _ _ _ _ limit _ =>
      if Entry.has e.index n && (Entry.valOf e.index n ≥ limit || Entry.has e.data n) then some 1 else none
    | .mloop ra rb .. | .mloops _ ra rb .. => if e.dataDone then some (4 * loopTM ra * loopTN rb) else none
    | .mzero _ cnt => if e.dataDone then some (256 * cnt) else none
    | _ => none

/-- The barrier of a command's land steps. -/
def Entry.landBar (e : Entry) : Option Bar :=
  match e.cmd with
  | .rput _ _ _ inS _ => some { inS, addr := ringBars e.ring + 16 * (ringW e.ring % ringN e.ring) }
  | _ => e.bar

/-- No step has been taken. -/
def Entry.fresh (e : Entry) : Bool := e.data.isEmpty && e.index.isEmpty && e.lands.isEmpty
/-- The entry may act. -/
def Entry.able (e : Entry) : Bool := e.parked.isNone && e.failed.isNone

/-! ### Leaving a queue -/

/-- The token of a command clears after its last step (05 R97). -/
def State.clearTok (s : State) (e : Entry) : State :=
  match e.token with
  | some k => s.modGroup e.poster fun g => g.setTok k false
  | none => s

/-- The head leaves its queue; a command that took a step is retained (05 R100). The next entry reaches the head now. -/
def State.leave (s : State) (q : QRef) (e : Entry) : State :=
  let s := s.clearTok e
  let k := s.core q.core
  let rest := match (k.queue q.q).drop 1 with
    | n :: es => { n with since := s.now } :: es
    | [] => []
  s.setCore q.core { k.setQueue q.q rest with kept := if e.fresh then k.kept else k.kept ++ [{ e with token := none, held := [], xf := [] }] }

/-- Every complete command at the head of a queue leaves it. -/
def State.settleN : Nat → State → QRef → State
  | 0, s, _ => s
  | n + 1, s, q =>
    match s.head q with
    | some e => if e.complete && e.able then State.settleN n (s.leave q e) q else s
    | none => s

def State.settle (s : State) (q : QRef) : State := s.settleN (s.queue q).length q

/-! ### Faults of a command (01 R27, R28, 12 R273) -/

/-- A terminal fault: ENGINE_TERMINATION ends the command and its workgroup. It waits for no walk any more. -/
def State.fail (s : State) (q : QRef) (e : Entry) (f : FaultInfo) : State :=
  (s.forget (.queue q e.seq)).setHead q { e with failed := some f, held := [], xf := [], seen := [] }

/-- A resumable fault before the first step parks the command at its head, with a record; what it was told of its translations is void (01 R30). -/
def State.park (s : State) (q : QRef) (e : Entry) (f : FaultInfo) : State :=
  ((s.forget (.queue q e.seq)).setHead q { e with parked := some f, held := [], xf := [], seen := [], peek := none }).sendRecord (some (columnOf q.core)) e.poster.ctx e.poster.lnum
    (mkRecord 2 true e.poster q.core q.q e.iaddr e.mstep 0 f)

/-- A matrix loop, which translates its barrier alone; one that was saved between its K-steps translates it again before it goes on (12 R280). -/
def Cmd.loops : Cmd → Bool | .mloop .. | .mloops .. => true | _ => false

/-- A fault of a command: a resumable one that is met before any element has been performed parks it, and it starts afresh (01 R28, 12 R278); so does
one on a loop's barrier before its land step. None while the landing buffer has no room for the record (05 R113). -/
def State.engFault (s : State) (q : QRef) (e : Entry) (k : Cause) (addr paddr : Nat) : Option State :=
  let f : FaultInfo := { cause := k, addr, paddr, queue := q.q }
  if k.resumable && e.lands.isEmpty && (e.data.isEmpty || e.cmd.loops) then
    if s.recRoom (columnOf q.core) then some (s.park q { e with index := [] } f) else none
  else some (s.fail q e f)

/-- The record of a command's end leaves at once where its workgroup is ending or gone. -/
def State.endsAlone (s : State) (e : Entry) : Bool := match s.wgOf e.poster with | some w => w.ending.isSome | none => true

/-- ENGINE_TERMINATION: the first failed command of a queue ends, and its workgroup; a record that leaves at once needs room in the landing buffer (05
R113). -/
def State.engineEnd (s : State) (q : QRef) : Option State :=
  match (s.queue q).find? fun e => e.failed.isSome with
  | some e =>
    match e.failed with
    | some f =>
      if s.endsAlone e && !s.recRoom (columnOf q.core) then none else
      let report := mkRecord 2 false e.poster q.core q.q e.iaddr e.mstep 0 f
      let gone (t : State) (c : Nat) : State :=
        let es := t.queue { core := c, q := q.q }
        t.setQueue { core := c, q := q.q } (reheaded t.now es (es.filter fun x => x.seq != e.seq))
      -- a joint entry stands in four queues
      let cs := match e.cmd with
        | .mloopj .. => (List.range 4).map fun k => clusterOf q.core * 4 + k
        | _ => [q.core]
      let s := cs.foldl gone (s.clearTok e)
      let s := if s.endsAlone e then s.sendRecord (some (columnOf q.core)) e.poster.ctx e.poster.lnum report else s.endWg e.poster report
      some (cs.foldl (fun t c => t.settle { core := c, q := q.q }) s)
    | none => none
  | none => none

/-! ### What engines read and write -/

/-- A byte of a local space of the poster's workgroup on a core (01 R6). -/
def Entry.loc (e : Entry) (core space off : Nat) : Loc :=
  match space with
  | 1 => sramLoc (clusterOf core) (e.scr.1 + off)
  | 2 => bsLoc core off
  | _ => acLoc core off

/-- A command that may name aperture addresses (01 R12). -/
def Cmd.copies : Cmd → Bool | .ycopy .. => true | _ => false

/-- Resolves an access of a command that translates as it goes; only YCOPY reaches the aperture. -/
def State.engAccess (s : State) (q : QRef) (e : Entry) (space va n : Nat) (acc : Access) : Resolved :=
  if space != 0 then .ok [(.mem (e.loc q.core space va) 0, n)]
  else if !e.cmd.copies && (s.ctx e.poster.ctx).inAperture va then .fault .apertureProtect va 0
  else s.resolve e.poster.ctx q.core e.xf va n acc

/-- A command has begun: from then on it holds what it was admitted to (01 R12, R28). -/
def Entry.begun (e : Entry) : Bool := e.joint || !(e.data.isEmpty && e.index.isEmpty && e.lands.isEmpty)

/-- Resolves a range through the translations the command holds; one in the aperture at an allocation that stays for a command that has begun. -/
def State.heldAccess (s : State) (q : QRef) (e : Entry) (va n : Nat) (acc : Access) : List Piece :=
  if (s.ctx e.poster.ctx).inAperture va then
    if (if e.begun then s.apertureHeld e.poster.ctx va n else s.apertureOk e.poster.ctx va n) then [(.mem (apertureLoc va) 0, n)] else []
  else match { s with tlb := e.held }.resolve e.poster.ctx q.core [] va n acc with
  | .ok ps => ps
  | _ => []

/-- Some part of a footprint must wait for another column, a lock or a write queue (05 R112, R114). -/
def State.engHeld (s : State) (core : Nat) (ps : List Piece) : Bool :=
  ps.any fun p => match p.1 with
    | .mem l _ => s.heldOff (some (columnOf core)) l p.2
    | .peer .. => false

/-- Earlier writes of the column must drain before a step at a home outside it (05 R114). -/
def State.engDrain (s : State) (core : Nat) (ps : List Piece) : Bool :=
  ps.any fun p => match p.1 with
    | .mem l _ => locColumn l != some (columnOf core) && s.mustDrain (columnOf core) l p.2
    | .peer .. => false

/-- A part of a footprint that a peer must answer for: the column's own stores there do not cover it (05 R113). -/
def State.engFar (s : State) (core : Nat) (p : Piece) : Option (Nat × Nat × Nat) :=
  match p.1 with
  | .peer fep _ pa _ => if (s.peerForward (columnOf core) fep pa p.2).isSome then none else some (fep, pa, p.2)
  | .mem .. => none

/-- A read of a peer waits for the column's own writes there to be acknowledged (05 R119). -/
def State.engAway (s : State) (core : Nat) (ps : List Piece) : Bool :=
  (ps.filterMap (s.engFar core)).any fun u => s.peerHeld (columnOf core) u.1 u.2.1 u.2.2

/-- The bytes of a footprint, a peer's taken from what it answered, or from the column's own stores there. -/
def State.engBytes (s : State) (core : Nat) (ps : List Piece) (ext : List Byte) : List Byte :=
  (ps.foldl (fun (a : List (List Byte) × List Byte) q => match q.1 with
    | .mem l _ => (s.colRead (columnOf core) l q.2 :: a.1, a.2)
    | .peer fep _ pa _ => match s.peerForward (columnOf core) fep pa q.2 with
      | some bs => (bs :: a.1, a.2)
      | none => (a.2.take q.2 :: a.1, a.2.drop q.2)) ([], ext)).1.reverse.flatten

/-- A peer's part of a footprint is poisoned: the peer has failed, or its reply is poisoned, or refused, and brings too few bytes (20 R347, 21 R362,
R363). -/
def State.engPoison (s : State) (core : Nat) (ps : List Piece) (ext : List Byte) : Bool :=
  let far := ps.filterMap (s.engFar core)
  far.any (fun p => s.failedPeers.contains p.1) || ext.length < (far.map (·.2.2)).foldl (· + ·) 0

/-- Reads the bytes of a footprint, `ext` those that peers answered. None where some unit is uncorrectable; an injected error meets the read (20 R350).
DEDUCED (log entry 65): the reads of a Yarder command that takes a cache hint go through the cluster cache as loads do (07 R151, 02 R36); others go
past it. -/
def State.engRead (s : State) (core : Nat) (h : Fill) (ps : List Piece) (ext : List Byte) : Option (List Byte) × State :=
  let mems := memsOf ps
  let (units, _, t) := s.meets core h (h != .none) mems {}
  (if (mems.all fun p => (units p.1 p.2.1).isEmpty) && !s.engPoison core ps ext then some (s.engBytes core ps ext) else none, t)

/-- Code units that a step's pieces cover whole, taken together (20 R375). -/
def coveredBy (ps : List Piece) (b : Loc) : Bool :=
  (List.range (sectorSize b.store)).all fun i => ps.any fun p => match p.1 with
    | .mem l _ => overlaps (locPlus b i) 1 l p.2
    | .peer .. => false

/-- Uncorrectable units become good, provisionally in a column. -/
def State.renew (s : State) (col : Nat) (good : Loc → Bool) : State :=
  let old := s.bad.filter good
  let old2 := s.l2bad.filter fun b => good ⟨.dram, b.1⟩
  if old.isEmpty && old2.isEmpty then s
  else
    let k := s.col col
    { s.setCol col { k with undo := .bad k.epoch old old2 :: k.undo } with
      bad := s.bad.filter fun b => !good b, l2bad := s.l2bad.filter fun b => !good ⟨.dram, b.1⟩ }

/-- Commits bytes to a footprint as part of one step: at once in the column, with lines locked elsewhere. -/
def State.engCommit (s : State) (core : Nat) (ps : List Piece) (bs : List Byte) : State :=
  ((ps.foldl (fun (a : State × List Byte) p =>
    (match p.1 with
      | .mem l _ => a.1.putProv (columnOf core) l (a.2.take p.2) (locColumn l != some (columnOf core))
      | .peer .. => a.1, a.2.drop p.2)) (s, bs)).1).renew (columnOf core) (coveredBy ps)

def Entry.writer (e : Entry) (core : Nat) : Writer := { r := e.poster, core, tid := 0, iaddr := e.iaddr, lane := none, at_ := e.seq }

/-- A taken step, in the epoch of the column. -/
def State.stepRec (s : State) (core k val : Nat) : StepRec := { k, epoch := (s.col (columnOf core)).epoch, val }

/-! ### Pre-translation (01 R27, R28) -/

/-- A page a command must hold before its first step: the first address of it in the footprint, the access, whether it is data. -/
structure Need where
  addr : Nat
  acc : Access
  data : Bool
  deriving DecidableEq, Repr

def needsOf (rs : List (Nat × Nat)) (acc : Access) (data : Bool) : List Need :=
  rs.flatMap fun r => (pagesOf r.1 r.2).map fun p => { addr := max r.1 p, acc, data }

/-- Adds a need to a list in ascending address order, one for each page and access. -/
def insertNeed (n : Need) : List Need → List Need
  | [] => [n]
  | m :: ms =>
    if n.addr / 4096 == m.addr / 4096 && n.acc == m.acc && n.data == m.data then { m with addr := min n.addr m.addr } :: ms
    else if n.addr < m.addr then n :: m :: ms
    else m :: insertNeed n ms

/-- What a command must hold, or why that is not known yet. -/
inductive Needs
  | pages (ns : List Need)
  | fault (k : Cause) (addr : Nat)
  | held

/-- The address of a ring's slot and of its barrier for the pointer it holds. -/
def slotAddr (r : Nat) : Nat := ringSlots r + ringW r % ringN r * ringSize r
def slotBar (r : Nat) : Nat := ringBars r + 16 * (ringW r % ringN r)

/-- The runs of a tile in a ring's slot: the layout of the slot's space (10 R238, R241). In G the tile lies at the slot under the record's strides, its
origin at the slot, and its side entries at SCALE (log entry 38). -/
def slotRuns (rec : Rec) (inS : Bool) (base : Nat) : List (Nat × Nat) :=
  if inS then (localRuns rec true).map fun p => (base + p.1, p.2) else tileRuns rec base []

/-- The ring object of RPUT, where it lies. -/
def State.ringPieces (s : State) (q : QRef) (e : Entry) (inS : Bool) (addr : Nat) : List Piece :=
  if inS then [(.mem (e.loc q.core 1 addr) 0, 32)] else s.heldAccess q e addr 32 .write

/-- An object in space G that is not reached through the aperture, where no translation is needed. -/
def objNeed (s : State) (ctx addr : Nat) : List Need :=
  if (s.ctx ctx).inAperture addr then [] else [{ addr, acc := .write, data := false }]

/-- An object in the aperture that no allocation holds (01 R12). -/
def State.objLost (s : State) (ctx addr n : Nat) : Bool := (s.ctx ctx).inAperture addr && !s.apertureOk ctx addr n

/-- What the head of a queue must hold before its first step. -/
def State.needs (s : State) (q : QRef) (e : Entry) : Needs :=
  let ctx := e.poster.ctx
  let barG := e.bar.bind fun b => if b.inS then none else some b.addr
  let bar := (barG.map (objNeed s ctx)).getD []
  let covered (n : Need) : Bool := e.held.any fun x => x.serves ctx q.core n.addr n.acc
  -- an object in space G counts as one more unit
  let tile (ns : List Need) (objs : List Need) (withObj : Bool) : Needs :=
    let ps := ns.foldl (fun a n => if a.length > 1024 then a else insertNeed n a) []
    let units := (ps.map fun n => n.addr / 4096).eraseDups.length + if withObj then 1 else 0
    match ps.find? fun n => n.addr < 2 ^ 48 && (s.ctx ctx).inAperture n.addr with
    | some n => .fault .tileFootprint n.addr
    | none => if units > 1024 then .fault .tileFootprint ((ps.head?.map (·.addr)).getD 0) else .pages (objs.foldl (fun a n => insertNeed n a) ps)
  if !e.begun && barG.any fun a => s.objLost ctx a 16 then .fault .apertureProtect (barG.getD 0)
  else match e.cmd with
  | .tile load _ rec base org _ => tile (needsOf (tileRuns rec base org) (if load then .read else .write) true) bar barG.isSome
  | .rput rec base org inS ring =>
    let src := needsOf (tileRuns rec base org) .read true
    if inS then tile src [] false
    else
      let objs := objNeed s ctx ring
      if !e.begun && s.objLost ctx ring 32 then .fault .apertureProtect ring
      else if !(objs.all covered) then tile src objs true
      else match e.peek with
        | none => if (s.ringPieces q e false ring).isEmpty then .fault .apertureProtect ring else .held
        | some r =>
          if ringN r == 0 then .fault .ringState ring
          else tile (src ++ needsOf (slotRuns rec false (slotAddr r)) .write true) (objs ++ objNeed s ctx (slotBar r)) true
  | _ => .pages bar

/-- Everything needed is held. -/
def State.holdsAll (s : State) (q : QRef) (e : Entry) : Bool :=
  match s.needs q e with
  | .pages ns => ns.all fun n => e.held.any fun x => x.serves e.poster.ctx q.core n.addr n.acc
  | _ => false

/-- Translations a core's commands hold (01 R27). -/
def Core.holder (k : Core) : Nat := ((k.y.toList.flatten ++ k.mx).map fun e => e.held.length).foldl (· + ·) 0

/-- Takes pages into the holder in ascending order as far as their translations are cached; `moved` when some page was taken. -/
def State.holdPages (s : State) (q : QRef) (e : Entry) (moved : Bool) : List Need → Option State
  | [] => if moved then some (s.setHead q e) else none
  | n :: ns =>
    let page := n.addr / 4096 * 4096
    let stop (t : State) : Option State := if moved then some t else none
    if n.addr ≥ 2 ^ 48 then some (s.fail q e { cause := .nonCanonical, addr := n.addr, queue := q.q })
    else match e.xf.find? fun f => f.page == page && f.acc == n.acc with
      | some f => s.engFault q e f.cause n.addr f.paddr
      | none =>
        if e.held.any fun x => x.serves e.poster.ctx q.core n.addr n.acc then s.holdPages q e moved ns
        else match s.tlb.find? fun x => x.serves e.poster.ctx q.core n.addr n.acc with
          | some x =>
            if n.data && x.peer.isSome then some (s.fail q e { cause := .tileFootprint, addr := n.addr, queue := q.q })
            else if ((s.setHead q e).core q.core).holder ≥ 2048 then stop (s.setHead q e)
            else s.holdPages q { e with held := e.held ++ [x] } true ns
          | none =>
            if s.walks.any fun w => w.waits e.poster.ctx page { who := .queue q e.seq, acc := n.acc, core := q.core } then stop (s.setHead q e)
            else some ((s.setHead q e).ask e.poster.ctx q.core [page] n.acc (.queue q e.seq))

/-- Before a page is held, the pages that a command needs are looked at in ascending order, its barrier's among them: the first that faults parks or
ends the command, as does a data page that a peer holds (01 R27). `.ok` with those seen; else what follows now, if anything does. -/
def State.survey (s : State) (q : QRef) (e : Entry) (moved : Bool) : List Need → Except (Option State) Entry
  | [] => .ok e
  | n :: ns =>
    let page := n.addr / 4096 * 4096
    let held := e.held.any fun x => x.serves e.poster.ctx q.core n.addr n.acc
    if e.seen.contains (page, n.acc, n.data) || held then s.survey q e moved ns
    else if n.addr ≥ 2 ^ 48 then .error (some (s.fail q e { cause := .nonCanonical, addr := n.addr, queue := q.q }))
    else match e.xf.find? fun f => f.page == page && f.acc == n.acc with
      | some f => .error (s.engFault q e f.cause n.addr f.paddr)
      | none => match s.tlb.find? fun x => x.serves e.poster.ctx q.core n.addr n.acc with
        | some x =>
          if n.data && x.peer.isSome then .error (some (s.fail q e { cause := .tileFootprint, addr := n.addr, queue := q.q }))
          else s.survey q { e with seen := e.seen ++ [(page, n.acc, n.data)] } true ns
        | none =>
          if s.walks.any fun w => w.waits e.poster.ctx page { who := .queue q e.seq, acc := n.acc, core := q.core } then
            .error (if moved then some (s.setHead q e) else none)
          else .error (some ((s.setHead q e).ask e.poster.ctx q.core [page] n.acc (.queue q e.seq)))

/-- An entry that stands in four queues translates at the lowest core's. -/
def Entry.translates (e : Entry) (core : Nat) : Bool := match e.cmd with | .mloopj .. => core % 4 == 0 | _ => true

/-- A command that translates before its steps: one without a step, or a loop that was saved between its K-steps, whose barrier is translated again (11
R260, 12 R280). -/
def Entry.toTranslate (e : Entry) : Bool :=
  e.able && match e.cmd with
    | .mloop .. | .mloops .. => e.lands.isEmpty
    | _ => e.data.isEmpty && e.index.isEmpty

/-- TILE_PRETRANSLATE: the head of a queue translates and holds what it needs, or parks, or ends (01 R27). -/
def State.pretranslate (s : State) (q : QRef) : Option State :=
  match s.head q with
  | none => none
  | some e =>
    if !e.toTranslate || !e.translates q.core then none
    else match s.needs q e with
      | .held => none
      | .fault k addr => some (s.fail q e { cause := k, addr, queue := q.q })
      | .pages ns => match s.survey q e false ns with
        | .error t => t
        | .ok x => s.holdPages q x (x.seen.length != e.seen.length) ns

/-! ### Posting (10 R237) -/

/-- The barrier an engine command names. -/
def Env.barOf (e : Env) (x : BitVec 10) (o : Operand) : Option Bar :=
  match bits x.toNat 3 2 with
  | 0 => none
  | 1 => some { inS := true, addr := e.u o }
  | _ => some { inS := false, addr := e.pair o }

/-- Posting checks of a barrier or a ring of n bytes. -/
def Env.barCheck (e : Env) (b : Option Bar) (n : Nat) : Option FaultInfo :=
  match b with
  | none => none
  | some b =>
    if b.addr % n != 0 then some { cause := .objectAlign, addr := b.addr }
    else if b.inS && b.addr + n > e.w.scrSize then some { cause := .spaceRange, addr := b.addr }
    else none

/-- A fault of a posting check names the queue (Table 12.3). -/
def postFault (q : Nat) (f : FaultInfo) : Act := .fault { f with queue := q }

/-- Posts a command to queues of its core's cluster in one step; it stalls the group while one is full (05 R96). A command without a
step that reaches an empty queue is gone at once. -/
def Env.post (e : Env) (s : State) (qs : List QRef) (cmd : Cmd) (bar : Option Bar) (failed : Option FaultInfo) : Act :=
  if qs.any fun q => (s.core q.core).slots q.q ≥ queueCap q.q then .stay [] .read
  else
    let mk (q : QRef) : Entry :=
      { q := q.q, cmd, poster := e.r, scr := (e.w.scrBase, e.w.scrSize), iaddr := e.g.pc.toNat, mstep := (e.g.mcall.map (·.2)).getD 0
        token := setTok? e.c, bar, scope := e.c.sc, seq := s.nextSeq, epoch := (s.col (columnOf e.w.core)).epoch
        data := [], index := [], lands := [], held := [], xf := [], parked := none, failed, since := s.now, joint := false, hint := e.c.ch }
    let s := { s with nextSeq := s.nextSeq + 1 }
    match qs with
    | [q] =>
      if (mk q).complete && (s.queue q).isEmpty then .done s e.g
      else .done (s.setQueue q (s.queue q ++ [mk q])) (e.g.takeTok e.c)
    | _ => .done (qs.foldl (fun t q => t.setQueue q (t.queue q ++ [mk q])) s) (e.g.takeTok e.c)

/-! ### Land steps -/

/-- The pieces of a command's barrier. -/
def State.barPieces (s : State) (q : QRef) (e : Entry) (b : Bar) : List Piece :=
  if b.inS then [(.mem (e.loc q.core 1 b.addr) 0, 16)] else s.heldAccess q e b.addr 16 .write

/-- What a land step of n bytes makes of a barrier's bytes: its value after it, or the fault (05 R103). -/
def landValue (core : Nat) (ps : List Piece) (bs : List Byte) (n : Nat) : Except Cause (List Byte) :=
  let v := leNat bs
  if !(ps.all fun p => 2 ≤ barScope v && storageOk core (barScope v) p.1) then .error .barrierScope
  else match barLand v n with
    | none => .error .barrierOverrun
    | some v' => .ok (leBytes 16 v')

/-- One land step of n bytes on a barrier: the state after it, the fault it meets with the state then, or none where it waits (05 R103). A peer takes
the step at its home, and the command goes on with its answer. -/
def State.landOn (s : State) (q : QRef) (e : Entry) (b : Bar) (n : Nat) : Option (Except (Cause × State) State) :=
  let ps := s.barPieces q e b
  if ps.isEmpty then some (.error (.apertureProtect, s))
  else match ps with
    | [(.peer fep _ pa _, z)] =>
      if s.failedPeers.contains fep then some (.error (.uncEngine, s))
      else e.reply.map fun r => match r with
        | none => .error (.uncEngine, s)
        | some bs => match landValue q.core ps bs n with
          | .error k => .error (k, s)
          | .ok _ => .ok (s.dropPeer fep pa z)
    | _ =>
      if s.engHeld q.core ps || s.engDrain q.core ps then none
      else match s.engRead q.core .none ps [] with
        | (none, t) => some (.error (.uncEngine, t))
        | (some bs, t) => match landValue q.core ps bs n with
          | .error k => some (.error (k, t))
          | .ok v => some (.ok (t.objPut (e.writer q.core) ps v))

/-- The command at the head of a queue puts a question to a peer, which leaves through the egress gate, once the landing buffer has room for it (05
R113). -/
def State.sendHead (s : State) (q : QRef) (e : Entry) (a : PeerAsk) : Option State :=
  let col := columnOf q.core
  let k : OutKind := .peerObj a (e.writer q.core)
  if s.failedPeers.contains a.fep || !s.lbFits col (k.peerRanges.flatMap fun u => peerKeys (s.col col).epoch u.1 u.2.1 u.2.2) then none
  else some ((s.send [(col, (s.col col).epoch)] e.poster.ctx e.poster.lnum k).setHead q { e with asked := some a, reply := none })

/-- The question of a land step to the peer that holds the barrier, once for a step. -/
def State.landAsk (s : State) (q : QRef) (e : Entry) (b : Bar) (n : Nat) : Option State :=
  match s.barPieces q e b with
  | [(.peer fep pctx pa _, len)] => if e.asked.isSome then none else s.sendHead q e { fep, pctx, pa, len, op := .land n }
  | _ => none

/-- The ring at a peer that an RPUT at a queue's head looks at (05 R106): its endpoint and address there. -/
def State.peeks (s : State) (q : QRef) (e : Entry) : Option (Nat × Nat) :=
  match e.cmd with
  | .rput _ _ _ inS addr =>
    if !e.able || !e.fresh || e.asked.isSome then none
    else match s.ringPieces q e inS addr with
      | [(.peer fep _ pa _, _)] => some (fep, pa)
      | _ => none
  | _ => none

/-- A peer's answer to the head of a queue: to its question, once that has left the device, no copy of the line that is older staying (05 R119); or the
ring that an RPUT looks at, once the column's own writes there have been acknowledged. -/
def State.peerLanded (s : State) (q : QRef) (ext : Option (List Byte)) : Option State :=
  match s.head q with
  | none => none
  | some e =>
    match e.asked with
    | some a =>
      let mine (k : OutKind) : Bool := match k with | .peerObj b x => b == a && x == e.writer q.core | _ => false
      if e.reply.isSome || (s.out.any fun p => mine p.kind) || (ext.any fun bs => bs.length != a.answerLen) then none
      else some (((s.dropPeer a.fep a.pa a.len).answered mine).setHead q { e with reply := some ext })
    | none => match s.peeks q e with
      | none => none
      | some (fep, pa) =>
        if s.peerHeld (columnOf q.core) fep pa 32 || (ext.any fun bs => bs.length != 32) then none
        else match ext with
          | none => some (s.fail q e { cause := .uncEngine, queue := q.q })
          | some bs => if e.peek == some (leNat bs) then none else some ((s.dropPeer fep pa 32).setHead q { e with peek := some (leNat bs) })

/-- LAND_STEP n of the head of a queue. A barrier in space G is held before the command's first step, which the land step is where there is no other
(01 R28, 11 R260); a loop that was saved between its K-steps holds it again (12 R280). -/
def State.land (s : State) (q : QRef) (n : Nat) : Option State :=
  match s.head q with
  | none => none
  | some e =>
    if !e.able || ((e.fresh || e.cmd.loops) && !s.holdsAll q e) then none
    else match e.landAmount n, e.landBar with
      | some z, some b =>
        match s.landAsk q e b z with
        | some t => some t
        | none => match s.landOn q e b z with
          | none => none
          | some (.error (k, t)) => some (t.fail q e { cause := k, addr := b.addr, queue := q.q })
          | some (.ok t) => some ((t.setHead q { e with lands := e.lands ++ [s.stepRec q.core n 0], asked := none, reply := none }).settle q)
      | _, _ => none

def execTilePretranslate (q : QRef) (s : State) : Host.Outcome State Fault Refusal := .next ((s.pretranslate q).getD s)
def execLandStep (q : QRef) (n : Nat) (s : State) : Host.Outcome State Fault Refusal := .next ((s.land q n).getD s)
def execEngineTermination (q : QRef) (s : State) : Host.Outcome State Fault Refusal := .next ((s.engineEnd q).getD s)

end Sys2Proof.Machine
end

