-- ==== Sys2Proof/Machine/Yarder.lean ====
section
/-!
DEFINITION. The Yarder: posting of TLD, TST, YCOPY, YGATH, YSCAT, RPUT and YFENCE (10 R237-R241) and their steps (04 R92-R95, 05 R98, R106).
-/

namespace Sys2Proof.Machine

/-! ### Posting -/

/-- The identifier of an engine command, under the posting checks (10 R374). -/
def Env.postIdent (e : Env) (s : State) (q : Nat) (o : Operand) : Except Act Rec :=
  match s.ident e.w.core e.r.ctx (e.u o) with
  | .ok r => .ok r
  | .held => .error (.stay [] .read)
  | x => .error (postFault q { cause := (identFault x).getD .record })

/-- The origin in four scalars of a block. -/
def Env.origin (e : Env) (o : Operand) : List Nat := (List.range 4).map fun k => e.blk o k

/-- TLD and TST. -/
def tileBody (load : Bool) (c : Ctl) (o : OpsR) (e : Env) (s : State) : Act :=
  let q := o.x.toNat % 4
  let sp := c.fn.toNat
  match e.postIdent s q o.a with
  | .error a => a
  | .ok r =>
    let org := e.origin o.c
    let off := e.blk o.c 4
    let bar := e.barOf o.x o.e
    if !originOk r org then postFault q { cause := .record }
    else if off + localExtent r (sp == 1) > spaceSize e.w sp then postFault q { cause := .spaceRange, addr := off }
    else if sp == 1 && !swzOk r off then postFault q { cause := .swizzle, addr := off }
    else match e.barCheck bar 16 with
      | some f => postFault q f
      | none => e.post s [{ core := e.w.core, q }] (.tile load sp r (e.pair o.b) org off) bar none

def execTld (c : Ctl) (o : OpsR) (s : State) : Host.Outcome State Fault Refusal :=
  issueWord (.tld c o) s false false fun _ e s => tileBody true c o e s
def execTst (c : Ctl) (o : OpsR) (s : State) : Host.Outcome State Fault Refusal :=
  issueWord (.tst c o) s false false fun _ e s => tileBody false c o e s

/-- The address of an engine operand: a pair in G, an offset in a local space. -/
def Env.engAddr (e : Env) (space : Nat) (o : Operand) : Nat := if space == 0 then e.pair o else e.u o

/-- A local range lies outside its space. -/
def Env.outside (e : Env) (space off n : Nat) : Bool := space != 0 && off + n > spaceSize e.w space

def execYcopy (c : Ctl) (o : OpsR) (s : State) : Host.Outcome State Fault Refusal :=
  issueWord (.ycopy c o) s false false fun _ e s =>
    let q := o.x.toNat % 4
    let dsp := c.fn.toNat % 4
    let ssp := c.fn.toNat / 4
    let dst := e.engAddr dsp o.a
    let src := e.engAddr ssp o.b
    let len := e.u o.c
    let bar := e.barOf o.x o.e
    if e.outside dsp dst len then postFault q { cause := .spaceRange, addr := dst }
    else if e.outside ssp src len then postFault q { cause := .spaceRange, addr := src }
    else match e.barCheck bar 16 with
      | some f => postFault q f
      | none => e.post s [{ core := e.w.core, q }] (.ycopy dsp ssp dst src len) bar none

/-- YGATH and YSCAT: the descriptor of eight scalars (10 R240). -/
def gatherBody (scatter : Bool) (c : Ctl) (o : OpsR) (e : Env) (s : State) : Act :=
  let q := o.x.toNat % 4
  let sp := c.fn.toNat
  let w (k : Nat) : Nat := e.blk o.a k
  let rowBytes := w 2
  let idx := w 4 + 2 ^ 32 * w 5
  let off := e.engAddr sp o.b
  let bar := e.barOf o.x o.e
  if rowBytes % 4 != 0 || rowBytes < 4 || 65536 < rowBytes then postFault q { cause := .record }
  else if idx % 4 != 0 then postFault q { cause := .objectAlign, addr := idx }
  else if e.outside sp off (rowBytes * w 6) then postFault q { cause := .spaceRange, addr := off }
  else match e.barCheck bar 16 with
    | some f => postFault q f
    | none =>
      e.post s [{ core := e.w.core, q }]
        (.gather scatter sp (w 0 + 2 ^ 32 * w 1) rowBytes (w 3) idx (w 6) (w 7) off) bar none

def execYgath (c : Ctl) (o : OpsR) (s : State) : Host.Outcome State Fault Refusal :=
  issueWord (.ygath c o) s false false fun _ e s => gatherBody false c o e s
def execYscat (c : Ctl) (o : OpsR) (s : State) : Host.Outcome State Fault Refusal :=
  issueWord (.yscat c o) s false false fun _ e s => gatherBody true c o e s

def execRput (c : Ctl) (o : OpsR) (s : State) : Host.Outcome State Fault Refusal :=
  issueWord (.rput c o) s false false fun _ e s =>
    let q := o.x.toNat % 4
    match e.postIdent s q o.a with
    | .error a => a
    | .ok r =>
      let org := e.origin o.c
      let ring := e.barOf o.x o.e
      let inS := bits o.x.toNat 3 2 == 1
      if !originOk r org then postFault q { cause := .record }
      else if inS && recSwz r != 0 && recWrow r != swzRow (recSwz r) then postFault q { cause := .swizzle }
      else match e.barCheck ring 32 with
        | some f => postFault q f
        | none => e.post s [{ core := e.w.core, q }] (.rput r (e.pair o.b) org inS ((ring.map (·.addr)).getD 0)) none none

/-- YFENCE: X[7:5] is the queue it is posted to, X[4:0] the queues it names (10 R241). -/
def execYfence (c : Ctl) (o : OpsR) (s : State) : Host.Outcome State Fault Refusal :=
  issueWord (.yfence c o) s false false fun _ e s =>
    e.post s [{ core := e.w.core, q := bits o.x.toNat 7 5 }] (.fence (o.x.toNat % 32)) none none

/-! ### The tile step (04 R92, R94) -/

/-- The pieces of a tile in space G, through the held translations, in the order of its runs. -/
def State.tileG (s : State) (q : QRef) (e : Entry) (r : Rec) (base : Nat) (org : List Nat) (acc : Access) : List Piece :=
  (tileRuns r base org).flatMap fun p => s.heldAccess q e p.1 p.2 acc

/-- The pieces of a tile in a local space. -/
def Entry.tileL (e : Entry) (core space off : Nat) (r : Rec) : List Piece :=
  (localRuns r (space == 1)).map fun p => (.mem (e.loc core space (off + p.1)) 0, p.2)

/-- The pieces of the slot that RPUT claimed. -/
def State.slotPieces (s : State) (q : QRef) (e : Entry) (r : Rec) (inS : Bool) : List Piece :=
  if inS then e.tileL q.core 1 (slotAddr e.ring) r
  else (slotRuns r false (slotAddr e.ring)).flatMap fun p => s.heldAccess q e p.1 p.2 .write

/-- Moves a whole footprint in one step. None where it waits. -/
def State.moveTile (s : State) (q : QRef) (e : Entry) (src dst : List Piece) : Option State :=
  if s.engHeld q.core src || s.engHeld q.core dst || s.engDrain q.core dst then none
  else match s.engRead q.core (.load e.hint) src [] with
    | (none, t) => some (t.fail q e { cause := .uncEngine, queue := q.q })
    | (some bs, t) =>
      -- the translations of the footprint are released; the barrier's stays (01 R27)
      let keep (x : Xlat) : Bool := e.landBar.any fun b => !b.inS && x.page ≤ b.addr && b.addr < x.page + x.size
      some (((t.engCommit q.core dst bs).setHead q
        { e with data := e.data ++ [s.stepRec q.core e.data.length 0], held := e.held.filter keep }).settle q)

/-- TILE_STEP of the head of a queue. -/
def State.tileStep (s : State) (q : QRef) : Option State :=
  match s.head q with
  | none => none
  | some e =>
    if !e.able then none
    else match e.cmd with
      | .tile load sp r base org off =>
        if !e.data.isEmpty || !s.holdsAll q e then none
        else
          let g := s.tileG q e r base org (if load then .read else .write)
          let l := e.tileL q.core sp off r
          if load then s.moveTile q e g l else s.moveTile q e l g
      | .rput r base org inS _ =>
        if e.data.length != 1 then none
        else s.moveTile q e (s.tileG q e r base org .read) (s.slotPieces q e r inS)
      | _ => none

def execTileStep (q : QRef) (s : State) : Host.Outcome State Fault Refusal := .next ((s.tileStep q).getD s)

/-! ### RPUT's first step (05 R106) -/

/-- The fault of a ring that can take no tile of this size, or whose slot lies outside its space (log entry 38). -/
def ringFault (e : Entry) (r : Rec) (inS : Bool) (ring : Nat) : Option Cause :=
  if ringN ring == 0 || (inS && localExtent r true > ringSize ring) || recBytes r > ringSize ring then some .ringState
  else if !inS then none
  else if slotAddr ring + ringSize ring > e.scr.2 || slotBar ring + 16 > e.scr.2 then some .spaceRange
  else if !swzOk r (slotAddr ring) then some .swizzle
  else if slotBar ring % 16 != 0 then some .ringState
  else none

/-- An RPUT whose first step ends with a fault. -/
def State.claimFail (s : State) (q : QRef) (e : Entry) (k : Cause) (addr : Nat := 0) : Option State :=
  some (s.fail q e { cause := k, addr, queue := q.q })

/-- RPUT looks at a ring in this device; what it meets there stays (20 R349, R350). None where it must wait, or sees nothing new. -/
def State.ringLook (s : State) (q : QRef) (e : Entry) (ps : List Piece) : Option State :=
  if ps.isEmpty || s.engHeld q.core ps then none
  else match s.engRead q.core .none ps [] with
    | (none, t) => t.claimFail q e .uncEngine
    | (some d, t) =>
      if e.peek == some (leNat d) && t.injc == s.injc && t.counters == s.counters then none
      else some (t.setHead q { e with peek := some (leNat d) })

/-- The step in this device: WPTR advances and SLOTSZ is added to the slot's barrier, in one atomic step, if the ring is as it was looked at and has
room. DESIGN CHOICE (log entry 79): where the two have different homes, the ring's part comes first and the barrier's follows. -/
def State.claimHere (s : State) (q : QRef) (e : Entry) (inS : Bool) (seen : Nat) (ps : List Piece) : Option State :=
  let bs := s.barPieces q e { inS, addr := slotBar seen }
  let all := if atPeer bs then ps else ps ++ bs
  if ringUsed seen ≥ ringN seen then s.ringLook q e ps
  else if bs.isEmpty then s.claimFail q e .apertureProtect (slotBar seen)
  else if s.engHeld q.core all || s.engDrain q.core all then none
  else match s.engRead q.core .none all [] with
    | (none, t) => t.claimFail q e .uncEngine
    | (some d, t) =>
      let ring := leNat (d.take 32)
      match ringFill seen ring with
      | none => some (t.setHead q { e with peek := some ring })
      | some ring' =>
        if atPeer bs then some ((t.engCommit q.core ps (leBytes 32 ring')).setHead q { e with index := [s.stepRec q.core 0 ring] })
        else match barAdd (leNat (d.drop 32)) (ringSize ring) with
          | none => t.claimFail q e .barrierOverrun (slotBar ring)
          | some b => some (((t.engCommit q.core ps (leBytes 32 ring')).engCommit q.core bs (leBytes 16 b)).setHead q
              { e with data := [s.stepRec q.core 0 ring] })

/-- The step at a peer that holds the ring: asked for once the ring has room, and answered with the ring, and the barrier there, as they stood; a ring
that had changed or had no room is as it was. -/
def State.claimAway (s : State) (q : QRef) (e : Entry) (inS : Bool) (seen fep pctx pa : Nat) : Option State :=
  if s.failedPeers.contains fep then s.claimFail q e .uncEngine
  else match e.asked, e.reply with
    | none, _ =>
      let bs := s.barPieces q e { inS, addr := slotBar seen }
      let home := match bs with | [(.peer f c a _, _)] => if f == fep && c == pctx then some a else none | _ => none
      if ringUsed seen ≥ ringN seen then none
      else if bs.isEmpty then s.claimFail q e .apertureProtect (slotBar seen)
      else s.sendHead q e { fep, pctx, pa, len := 32, op := .fill seen home }
    | some _, none => none
    | some _, some none => s.claimFail q e .uncEngine
    | some a, some (some d) =>
      let ring := leNat (d.take 32)
      let done := { e with asked := none, reply := none }
      match ringFill seen ring, a.op with
      | none, _ => some (s.setHead q { done with peek := some ring })
      | some _, .fill _ (some _) =>
        if (barAdd (leNat (d.drop 32)) (ringSize ring)).isNone then s.claimFail q e .barrierOverrun (slotBar ring)
        else some (s.setHead q { done with data := [s.stepRec q.core 0 ring] })
      | some _, _ => some (s.setHead q { done with index := [s.stepRec q.core 0 ring] })

/-- The barrier's part of the step, where its home is not the ring's. -/
def State.claimBar (s : State) (q : QRef) (e : Entry) (inS : Bool) (ring : Nat) : Option State :=
  let bs := s.barPieces q e { inS, addr := slotBar ring }
  let done := { e with data := [s.stepRec q.core 0 ring], asked := none, reply := none }
  match bs with
  | [(.peer fep pctx pa _, len)] =>
    if s.failedPeers.contains fep then s.claimFail q e .uncEngine
    else match e.asked, e.reply with
      | none, _ => s.sendHead q e { fep, pctx, pa, len, op := .add (ringSize ring) }
      | some _, none => none
      | some _, some none => s.claimFail q e .uncEngine
      | some _, some (some b) =>
        if (barAdd (leNat b) (ringSize ring)).isNone then s.claimFail q e .barrierOverrun (slotBar ring) else some (s.setHead q done)
  | _ =>
    if s.engHeld q.core bs || s.engDrain q.core bs then none
    else match s.engRead q.core .none bs [] with
      | (none, t) => t.claimFail q e .uncEngine
      | (some b, t) => match barAdd (leNat b) (ringSize ring) with
        | none => t.claimFail q e .barrierOverrun (slotBar ring)
        | some b' => some ((t.engCommit q.core bs (leBytes 16 b')).setHead q done)

/-- RPUT_CLAIM: RPUT looks at its ring at the head of its queue, and takes its first step once the ring has room. -/
def State.claim (s : State) (q : QRef) : Option State :=
  match s.head q with
  | none => none
  | some e =>
    match e.cmd with
    | .rput r _ _ inS addr =>
      if !e.able || !e.data.isEmpty then none
      else match e.index, e.peek, s.ringPieces q e inS addr with
        | x :: _, _, _ => s.claimBar q e inS x.val
        | [], none, [(.peer fep _ _ _, _)] => if s.failedPeers.contains fep then s.claimFail q e .uncEngine else none
        | [], none, ps => s.ringLook q e ps
        | [], some seen, ps =>
          match ringFault e r inS seen with
          | some k => s.claimFail q e k addr
          | none =>
            if e.asked.isNone && !s.holdsAll q e then none
            else match ps with
              | [(.peer fep pctx pa _, _)] => s.claimAway q e inS seen fep pctx pa
              | ps => s.claimHere q e inS seen ps
    | _ => none

def execRputClaim (q : QRef) (s : State) : Host.Outcome State Fault Refusal := .next ((s.claim q).getD s)

/-! ### Copies, gathers and scatters (10 R239, R240, 04 R95) -/

/-- A command asks for pages it has not asked for yet. -/
def State.askQueue (s : State) (q : QRef) (e : Entry) (pages : List Nat) (acc : Access) : Option State :=
  let asked (p : Nat) : Bool := s.walks.any fun w => w.waits e.poster.ctx p { who := .queue q e.seq, acc, core := q.core }
  if pages.all asked then none else some (s.ask e.poster.ctx q.core pages acc (.queue q e.seq))

/-- Moves bytes from one range to another in one step of a command that translates as it goes. `mark` records the step. -/
def State.moveRow (s : State) (q : QRef) (e : Entry) (ssp src dsp dst n : Nat) (ext : List Byte) (mark : Entry → Entry) : Option State :=
  if !s.holdsAll q e then none
  else match s.engAccess q e ssp src n .read, s.engAccess q e dsp dst n .write with
    | .miss ps, _ => s.askQueue q e ps .read
    | _, .miss ps => s.askQueue q e ps .write
    | .fault k a pa, _ => s.engFault q e k a pa
    | _, .fault k a pa => s.engFault q e k a pa
    | .ok sp, .ok dp =>
      if s.engHeld q.core sp || s.engHeld q.core dp || s.engAway q.core sp then none
      else if !s.roomFor (columnOf q.core) [(0, dp)] then none
      else match s.engRead q.core (.load e.hint) sp ext with
        | (none, t) => some (t.fail q e { cause := .uncEngine, queue := q.q })
        | (some bs, t) => some (((t.storePieces (e.writer q.core) dp bs).setHead q { (mark e) with xf := [] }).settle q)

/-- YCOPY_LINE_STEP for destination line k. -/
def State.copyLine (s : State) (q : QRef) (k : Nat) (ext : List Byte) : Option State :=
  match s.head q with
  | none => none
  | some e =>
    match e.cmd with
    | .ycopy dsp ssp dst src len =>
      if !e.able || k ≥ copyLines dst len || Entry.has e.data k then none
      else
        let (off, n) := copyPart dst len k
        s.moveRow q e ssp (src + off) dsp (dst + off) n ext fun e => { e with data := e.data ++ [s.stepRec q.core k 0] }
    | _ => none

/-- GATHER_INDEX_READ of index k: the reads are taken in ascending order. -/
def State.indexRead (s : State) (q : QRef) (k : Nat) (ext : List Byte) : Option State :=
  match s.head q with
  | none => none
  | some e =>
    match e.cmd with
    | .gather _ _ _ _ _ idx n _ _ =>
      if !e.able || k ≥ n || Entry.has e.index k || !((List.range k).all fun j => Entry.has e.index j) || !s.holdsAll q e then none
      else match s.engAccess q e 0 (idx + 4 * k) 4 .read with
        | .miss ps => s.askQueue q e ps .read
        | .fault c a pa => s.engFault q e c a pa
        | .ok ps =>
          if s.engHeld q.core ps || s.engAway q.core ps then none
          else match s.engRead q.core (.load e.hint) ps ext with
            | (none, t) => some (t.fail q e { cause := .uncEngine, queue := q.q })
            | (some bs, t) =>
              some ((t.setHead q { e with index := e.index ++ [s.stepRec q.core k (leNat bs)], xf := [] }).settle q)
    | _ => none

/-- GATHER_ROW_STEP of row k, whose index has been read and lies below the limit; any other row is dropped. -/
def State.rowStep (s : State) (q : QRef) (k : Nat) (ext : List Byte) : Option State :=
  match s.head q with
  | none => none
  | some e =>
    match e.cmd with
    | .gather scatter sp table rowBytes stride _ _ limit off =>
      if !e.able || !Entry.has e.index k || Entry.valOf e.index k ≥ limit || Entry.has e.data k then none
      else
        let row := table + Entry.valOf e.index k * stride
        let here := off + k * rowBytes
        let mark (e : Entry) : Entry := { e with data := e.data ++ [s.stepRec q.core k 0] }
        if scatter then s.moveRow q e sp here 0 row rowBytes ext mark else s.moveRow q e 0 row sp here rowBytes ext mark
    | _ => none

def execYcopyLineStep (q : QRef) (k : Nat) (ext : List Byte) (s : State) : Host.Outcome State Fault Refusal :=
  .next ((s.copyLine q k ext).getD s)
def execGatherIndexRead (q : QRef) (k : Nat) (ext : List Byte) (s : State) : Host.Outcome State Fault Refusal :=
  .next ((s.indexRead q k ext).getD s)
def execGatherRowStep (q : QRef) (k : Nat) (ext : List Byte) (s : State) : Host.Outcome State Fault Refusal :=
  .next ((s.rowStep q k ext).getD s)

/-! ### Fences (05 R98) -/

/-- YFENCE_RELEASE: the fence at the head of a queue leaves it once no earlier entry of a queue it names is left. -/
def State.fenceRelease (s : State) (q : QRef) : Option State :=
  match s.head q with
  | none => none
  | some e =>
    match e.cmd with
    | .fence names =>
      if (List.range 5).all fun k => k == q.q || !names.testBit k || (s.queue { core := q.core, q := k }).all fun x => x.seq > e.seq then
        some ((s.leave q e).settle q)
      else none
    | _ => none

def execYfenceRelease (q : QRef) (s : State) : Host.Outcome State Fault Refusal := .next ((s.fenceRelease q).getD s)

end Sys2Proof.Machine
end

