-- ==== Sys2Proof/Machine/Matrix.lean ====
section
/-!
DEFINITION. Matrix loops (11 R251-R268): posting, K-steps, joint operations, the accumulator forms and the matrix status.
-/

namespace Sys2Proof.Machine

/-! ### Operands (11 R252-R255) -/

/-- Number of a block format in `blockVal`. -/
def blkFn (fmt : Nat) : Nat := if fmt < 0x18 then fmt - 0x10 else fmt - 0x14

/-- The exact value of a code of a matrix format; `other` the neighbour's code, `side` the side entry (03 R67, R68). -/
def elemVal (fmt side code other : Nat) : FVal × Flags :=
  match fmt with
  | 0x00 => (ofInt (sext 8 code), 0)
  | 0x0C => (ofInt (sext 4 code), 0)
  | 0x07 => (FP16.decode code, 0)
  | 0x08 => (BF16.decode code, 0)
  | 0x09 => (E4M3.decode code, 0)
  | 0x0A => (E5M2.decode code, 0)
  | 0x0B => (E2M1.decode code, 0)
  | _ => blockVal (blkFn fmt) side code other

/-- Formats that a loop admits (Table 11.1), and the two integer formats. -/
def loopFmt (f : Nat) : Bool := [0x00, 0x07, 0x08, 0x09, 0x0A, 0x0B, 0x0C, 0x10, 0x11, 0x12, 0x13, 0x18, 0x19, 0x1A].contains f
def intFmt (f : Nat) : Bool := f == 0x00 || f == 0x0C
def intLoop (ra rb : Rec) : Bool := intFmt (recFmt ra) && intFmt (recFmt rb)

/-- The code of an element of w bits that starts at byte b and holds element k of a row: low nibble first (03 R57). -/
def codeAt (rd : Nat → Nat) (w b k : Nat) : Nat :=
  if w == 4 then rd b / (if k % 2 == 0 then 1 else 16) % 16
  else if w == 8 then rd b else rd b + 256 * rd (b + 1)

/-- N and M of a structured loop (Table 11.2). -/
def nOf (fn : Nat) : Nat := match fn with | 0 => 1 | 1 => 2 | 2 => 2 | _ => 4
def mOf (fn : Nat) : Nat := if fn < 2 then 4 else 8

/-- Bytes of a row of an A tile, the offset of its side entries, and its extent (11 R253). -/
def aRow (ra : Rec) : Nat := recTile ra 0 * recBits ra / 8
def aSide (ra : Rec) : Nat := 256 * ((loopTM ra * aRow ra + 255) / 256)
def aExtent (ra : Rec) : Nat :=
  let q := if recSwz ra == 0 then 1 else 256 / max 1 (aRow ra)
  if isBlock ra then aSide ra + recSide ra * (recTile ra 0 / 32 * loopTM ra)
  else if recSwz ra == 0 then loopTM ra * aRow ra else 256 * ((loopTM ra + q - 1) / max 1 q)

/-- Bytes of a column block of a panel, and the panel's extent: block cb starts at cb × 4,096 × e, the side entries of a block
follow its elements (11 R254, log entry 14). -/
def bBlock (rb : Rec) : Nat := 4096 * recBits rb / 8
def bExtent (rb : Rec) : Nat :=
  let n := (loopTN rb + 63) / 64
  n * bBlock rb + recSide rb * 128

/-- Element (i, k) of an A tile, from a reader of its bytes by offset. -/
def aElem (ra : Rec) (rd : Nat → Nat) (i k : Nat) : FVal × Flags :=
  let w := recBits ra
  let at' (k : Nat) : Nat := codeAt (fun b => rd (tileOff (recSwz ra) (aRow ra) i b)) w (k * w / 8) k
  let nb := recSide ra
  let so := aSide ra + nb * (i * (recTile ra 0 / 32) + k / 32)
  let side := if nb == 0 then 0 else (List.range nb).foldl (fun a j => a + rd (so + j) * 256 ^ j) 0
  elemVal (recFmt ra) side (at' k) (at' (if k % 2 == 0 then k + 1 else k - 1))

/-- Element (k, c) of a B panel. -/
def bElem (rb : Rec) (rd : Nat → Nat) (k c : Nat) : FVal × Flags :=
  let w := recBits rb
  let blk := c / 64 * bBlock rb
  let at' (k : Nat) : Nat :=
    let x := k * w / 8
    codeAt rd w (blk + x / 8 * 512 + 8 * (c % 64) + x % 8) k
  let nb := recSide rb
  let so := blk + bBlock rb + nb * (2 * (c % 64) + k / 32)
  let side := if nb == 0 then 0 else (List.range nb).foldl (fun a j => a + rd (so + j) * 256 ^ j) 0
  elemVal (recFmt rb) side (at' k) (at' (if k % 2 == 0 then k + 1 else k - 1))

/-! ### Arithmetic of a K-step (11 R258, 03 R69, R70) -/

/-- The sum of a chunk's products, as the accumulator's type: the new accumulator word and the flags. DESIGN CHOICE (log entry 72): an element that
decodes as 0 times infinity brings the decode's NV into the flags (03 R60, R67). -/
def chunkAdd (int first : Bool) (acc : Nat) (ps : List ((FVal × Flags) × (FVal × Flags))) : Nat × Flags :=
  let bad := ps.foldl (fun a p => a ||| p.1.2 ||| p.2.2) 0
  let prods := ps.map fun p => mulExact p.1.1 p.2.1
  if int then
    let sum := prods.foldl (fun a p => match p.1 with | .fin neg m e => a + atExp neg m e 0 | _ => a) 0
    let x := if first then sum else sext 32 acc + sum
    let y := clampI (-(2 ^ 31)) (2 ^ 31 - 1) x
    (wrap 32 y, bad ||| fif (y != x) fOV)
  else
    let (v, f) := if prods.isEmpty then (0, 0) else windowSum FP32 rne .rne (prods.map (·.1)) (prods.any fun p => p.2 != 0)
    if first then (v, bad ||| f)
    else
      let (x, nv) := sumExact .rne [FP32.decode acc, FP32.decode v]
      let (r, g) := roundF FP32 rne false x
      (r, bad ||| f ||| nv ||| g)

def fMDBAD : Flags := 64

/-- The kept terms of row i of a structured K-step from its metadata record: (place in the A row, dense position); none for a field
outside its group (11 R261). -/
def keptTerms (fn rec : Nat) : List (Nat × Option Nat) :=
  (List.range (64 * nOf fn / mOf fn)).map fun j =>
    let f := rec / 16 ^ j % 16
    (j, if f < mOf fn then some (j / nOf fn * mOf fn + f) else none)

/-- One K-step over a result tile: `meta` the kept terms of each row (every position for a dense loop), `zero` the flagged elements, and
`acc` the tile's old words. The new words row by row, and the flags. -/
def kStepRows (ra rb : Rec) (a b : Nat → Nat) (kept : Nat → List (Nat × Option Nat)) (zero : Nat → Nat → Bool) (first : Bool)
    (acc : Nat → Nat → Nat) : List (List Nat) × Flags :=
  let int := intLoop ra rb
  (List.range (loopTM ra)).foldr (fun i (r : List (List Nat) × Flags) =>
    let ts := kept i
    let av := ts.filterMap fun t => t.2.map fun k => (k, aElem ra a i t.1)
    let md := fif (ts.any fun t => t.2.isNone) fMDBAD
    let row := (List.range (loopTN rb)).map fun c =>
      if zero i c then chunkAdd int first (acc i c) []
      else chunkAdd int first (acc i c) (av.map fun x => (x.2, bElem rb b x.1 c))
    (row.map (·.1) :: r.1, row.foldl (fun f x => f ||| x.2) (r.2 ||| md))) ([], 0)

/-! ### Posting (11 R251, R257) -/

/-- The identifiers of a loop under the posting checks. -/
def Env.loopRecs (e : Env) (s : State) (o : OpsR) : Except Act (Rec × Rec) :=
  let x := s.ident e.w.core e.r.ctx (e.u o.a)
  let y := s.ident e.w.core e.r.ctx (e.u o.b)
  if x == .bad || y == .bad then .error (postFault 4 { cause := .illegalVariant })
  else match x, y with
    | .held, _ | _, .held => .error (.stay [] .read)
    | .ok a, .ok b => .ok (a, b)
    | _, _ => .error (postFault 4 { cause := .record })

/-- A range lies in a space of a size. -/
def inRange (size : Nat) (a : Int) (n : Nat) : Bool := decide (0 ≤ a) && decide (a + (n : Int) ≤ (size : Int))

/-- The posting checks of 11 R257 after the identifiers: `ka` the K extent of an A row, `sBases` and `bBases` the A and B bases to
check with the A sizes, `others` further S ranges, `swz` the numbers that R46 binds, `mul` the numbers with their required factor. -/
def loopCheck (e : Env) (ra rb : Rec) (ka : Nat) (blockA : Bool) (n ac : Nat) (aBases bBases : List Int) (others : List (Int × Nat))
    (swz : List Int) (mul : List (Int × Int)) : Option FaultInfo :=
  if !loopFmt (recFmt ra) || !loopFmt (recFmt rb) || (isBlock ra && !blockA) then some { cause := .record }
  else if recTile ra 0 != ka || recTile rb 0 != 64 || loopTM ra < 1 || 512 < loopTM ra || loopTN rb < 1 || 256 < loopTN rb || n > 65535 then
    some { cause := .record }
  else match aBases.find? fun x => !inRange e.w.scrSize x (aExtent ra) with
    | some x => some { cause := .spaceRange, addr := wrap 64 x }
    | none => match bBases.find? fun x => !inRange 0x200000 x (bExtent rb) with
      | some x => some { cause := .spaceRange, addr := wrap 64 x }
      | none => match others.find? fun x => !inRange e.w.scrSize x.1 x.2 with
        | some x => some { cause := .spaceRange, addr := wrap 64 x.1 }
        | none =>
          if ac + 1024 * loopTM ra > 0x80000 then some { cause := .spaceRange, addr := ac }
          else if recSwz ra != 0 && (aRow ra != swzRow (recSwz ra) || swz.any fun x => x % 256 != 0) then some { cause := .swizzle }
          else match mul.find? fun x => x.1 % x.2 != 0 with
            | some x => some { cause := .objectAlign, addr := wrap 64 x.1 }
            | none => none

/-- Barrier checks of an MX command, a space-range fault before an alignment one. -/
def Env.mxBar (e : Env) (b : Option Bar) : Option FaultInfo := e.barCheck b 16

/-- First and last of n K-steps. -/
def ends (n : Nat) : List Nat := if n == 0 then [] else [0, n - 1]

/-- MLOOP and MLOOPS: `fn` none for MLOOP. -/
def loopBody (fn : Option Nat) (o : OpsR) (e : Env) (s : State) : Act :=
  match e.loopRecs s o with
  | .error a => a
  | .ok (ra, rb) =>
    let nb := if fn.isSome then 10 else 6
    let blk : List Word := (List.range nb).map fun k => BitVec.ofNat 32 (e.blk o.c k)
    let n := blkU blk 3
    let ovw := o.x.getLsbD 4
    let zm := fn.isSome && o.x.getLsbD 5
    let ka := match fn with | some f => 64 * nOf f / mOf f | none => 64
    let at' (k j s : Nat) : Int := (blkU blk k : Int) + s * blkI blk j
    let mdSize := loopTM ra * (ka / 2)
    let others : List (Int × Nat) := if fn.isNone then [] else
      ((ends n).map fun s => (at' 6 7 s, mdSize)) ++ if zm then (ends n).map fun s => (at' 8 9 s, 8) else []
    let mul : List (Int × Int) := [((blkU blk 1 : Int), 512), ((blkU blk 2 : Int), 256), (blkI blk 5, 512)] ++
      (if fn.isSome then [((blkU blk 6 : Int), 8), (blkI blk 7, 8)] else []) ++
      if zm then [((blkU blk 8 : Int), 8), (blkI blk 9, 8)] else []
    match loopCheck e ra rb ka fn.isNone n (blkU blk 2) ((ends n).map fun s => at' 0 4 s) ((ends n).map fun s => at' 1 5 s) others
        [(blkU blk 0 : Int), blkI blk 4] mul with
    | some f => postFault 4 f
    | none =>
      let bar := e.barOf o.x o.e
      match e.mxBar bar with
      | some f => postFault 4 f
      | none => e.post s [{ core := e.w.core, q := 4 }] (match fn with
          | some f => .mloops f ra rb blk ovw zm
          | none => .mloop ra rb blk ovw) bar none

def execMloop (c : Ctl) (o : OpsR) (s : State) : Host.Outcome State Fault Refusal :=
  issueWord (.mloop c o) s false false fun _ e s => loopBody none o e s
def execMloops (c : Ctl) (o : OpsR) (s : State) : Host.Outcome State Fault Refusal :=
  issueWord (.mloops c o) s false false fun _ e s => loopBody (some c.fn.toNat) o e s

/-- The upper cores of a core's cluster. -/
def clusterCores (core : Nat) : List Nat := (List.range 4).map fun k => clusterOf core * 4 + k

/-- MLOOPJ's tag. -/
def Entry.tag (e : Entry) : Option Word := match e.cmd with | .mloopj _ _ b _ => some (b.getD 7 0) | _ => none

/-- MLOOPJ posts one entry to the four MX queues of the cluster in one step; a second entry of the column with the same tag fails. -/
def execMloopj (c : Ctl) (o : OpsR) (s : State) : Host.Outcome State Fault Refusal :=
  issueWord (.mloopj c o) s false false fun _ e s =>
    match e.loopRecs s o with
    | .error a => a
    | .ok (ra, rb) =>
      let blk : List Word := (List.range 8).map fun k => BitVec.ofNat 32 (e.blk o.c k)
      let n := blkU blk 3
      let m := columnOf e.w.core % 4
      -- the K-steps this member supplies: m, m + 4, ...
      let mine := ends ((n + 3 - m) / 4)
      let abs : List Int := mine.flatMap fun (j : Nat) => (List.range 4).map fun (p : Nat) => (blkU blk 0 : Int) + j * blkI blk 4 + p * blkI blk 6
      let bbs : List Int := mine.map fun (j : Nat) => (blkU blk 1 : Int) + j * blkI blk 5
      match loopCheck e ra rb 64 true n (blkU blk 2) abs bbs [] [(blkU blk 0 : Int), blkI blk 4, blkI blk 6]
          [((blkU blk 1 : Int), 512), ((blkU blk 2 : Int), 256), (blkI blk 5, 512)] with
      | some f => postFault 4 f
      | none =>
        let bar := e.barOf o.x o.e
        match e.mxBar bar with
        | some f => postFault 4 f
        | none =>
          let cs := clusterCores e.w.core
          let dup := (s.core (cs.headD 0)).mx.any fun x => x.tag == some (blk.getD 7 0)
          e.post s (cs.map fun k => { core := k, q := 4 }) (.mloopj ra rb blk (o.x.getLsbD 4)) bar
            (if dup then some { cause := .jointMismatch, queue := 4 } else none)

/-- MZERO (11 R266, log entry 38). -/
def execMzero (c : Ctl) (o : OpsR) (s : State) : Host.Outcome State Fault Refusal :=
  issueWord (.mzero c o) s false false fun _ e s =>
    let off := e.u o.a
    let n := e.u o.b
    let bar := e.barOf o.x o.e
    if off + 256 * n > 0x80000 || off ≥ 0x80000 then postFault 4 { cause := .spaceRange, addr := off }
    else if off % 256 != 0 then postFault 4 { cause := .objectAlign, addr := off }
    else match e.mxBar bar with
      | some f => postFault 4 f
      | none => e.post s [{ core := e.w.core, q := 4 }] (.mzero off n) bar none

/-! ### K-steps -/

/-- The accumulator rows of a result tile. -/
def accRows (core ac tm tn : Nat) : List Piece := (List.range tm).map fun i => (.mem (acLoc core (ac + 1024 * i)) 0, 4 * tn)

/-- What a K-step needs: the operands' locations, or in a joint loop the bytes that were taken before, the kept terms, the zero map, and the result
tile. -/
structure KArgs where
  ra : Rec
  rb : Rec
  a : Loc
  b : Loc
  kept : Nat → List (Nat × Option Nat)
  zero : Nat → Nat → Bool
  md : List Piece
  first : Bool
  ac : Nat
  shared : Bool := false
  data : Option (List Byte × List Byte) := none

/-- The bytes of a K-step's operands, read at their homes or taken before. -/
def KArgs.bytes (x : KArgs) (s : State) (col : Nat) : List Byte × List Byte :=
  x.data.getD (s.colRead col x.a (aExtent x.ra), s.colRead col x.b (bExtent x.rb))

/-- Performs one K-step at a core: none where it waits. Bytes that a joint loop's supplier has not confirmed are waited for by every core, the
supplier's own among them, so that no rollback takes back what has been kept of them (11 R265). -/
def State.performK (s : State) (q : QRef) (e : Entry) (k : Nat) (x : KArgs) : Option State :=
  let col := columnOf q.core
  let rows := accRows q.core x.ac (loopTM x.ra) (loopTN x.rb)
  let src : List Piece := (if x.data.isSome then [] else [(.mem x.a 0, aExtent x.ra), (.mem x.b 0, bExtent x.rb)]) ++ x.md
  let open_ := x.shared && x.data.isNone && (s.heldOff none x.a (aExtent x.ra) || s.heldOff none x.b (bExtent x.rb))
  if open_ || s.engHeld q.core (src ++ rows) then none
  else match s.engRead q.core .none (src ++ if x.first then [] else rows) [] with
    | (none, t) => some (t.fail q e { cause := .uncEngine, queue := q.q })
    | (some _, t) =>
      let acc (i c : Nat) : Nat := leNat (s.colRead col (acLoc q.core (x.ac + 1024 * i + 4 * c)) 4)
      let (a, b) := x.bytes s col
      let (ws, f) := kStepRows x.ra x.rb (fun i => (a.getD i 0).toNat) (fun i => (b.getD i 0).toNat) x.kept x.zero x.first acc
      let t := t.engCommit q.core rows (ws.flatMap fun r => r.flatMap fun w => leBytes 4 w)
      let t := t.modGroup e.poster fun g => { g with mstat := g.mstat ||| f }
      let t := if x.shared && x.data.isNone then { t with kdata := t.kdata ++ [{ core := q.core, seq := e.seq, k, a, b }] } else t
      some ((t.setHead q { e with data := e.data ++ [s.stepRec q.core k 0] }).settle q)

/-- Every dense position of a K-step. -/
def allTerms : List (Nat × Option Nat) := (List.range 64).map fun k => (k, some k)

/-- The S location of an entry's poster at a signed offset. -/
def Entry.sLoc (e : Entry) (core : Nat) (off : Int) : Loc := e.loc core 1 off.toNat

/-! ### Joint operations (11 R263-R265) -/

/-- A column's member number and the upper cores of member m of a stand (00 R1). -/
def memberCores (stand m : Nat) : List Nat :=
  let col := 4 * stand + m
  (List.range 4).map fun k => 4 * (col / 16 * 32 + 16 + col % 16) + k
def standOf (core : Nat) : Nat := columnOf core / 4

/-- The entry of a joint operation at a core, by its number: still queued, or retained. -/
def State.jointAt (s : State) (core seq : Nat) : Option Entry :=
  let k := s.core core
  (k.mx ++ k.kept).find? fun e => e.seq == seq

/-- The number of member m's entry, noted when the operation began. -/
def Entry.partner (e : Entry) (m : Nat) : Nat := Entry.valOf e.index m

/-- K-step s of a joint operation has been added at every core of the stand. -/
def State.jointAdded (s : State) (e : Entry) (stand k : Nat) : Bool :=
  (List.range 4).all fun m => (memberCores stand m).all fun c => match s.jointAt c (e.partner m) with
    | some x => Entry.has x.data k
    | none => false

/-- A save of the entry's workgroup waits for it: an MLOOP or MLOOPS stops at its next K-step boundary (12 R280). -/
def State.saveWaits (s : State) (e : Entry) : Bool := ((s.wgOf e.poster).map (·.saving)).getD false

/-- K_STEP of the head of a core's MX queue (log entry 37). -/
def State.kStep (s : State) (q : QRef) (k : Nat) : Option State :=
  match s.head q with
  | none => none
  | some e =>
    let sOff (blk : List Word) (b i s : Nat) : Int := (blkU blk b : Int) + s * blkI blk i
    if !e.able || q.q != 4 then none
    else match e.cmd with
      | .mloop ra rb blk ovw =>
        if k != e.data.length || k ≥ blkU blk 3 || !s.holdsAll q e || s.saveWaits e then none
        else s.performK q e k
          { ra, rb, a := e.sLoc q.core (sOff blk 0 4 k), b := bsLoc q.core (sOff blk 1 5 k).toNat, kept := fun _ => allTerms
            zero := fun _ _ => false, md := [], first := k == 0 && ovw, ac := blkU blk 2 }
      | .mloops fn ra rb blk ovw zm =>
        if k != e.data.length || k ≥ blkU blk 3 || !s.holdsAll q e || s.saveWaits e then none
        else
          let z := 32 * nOf fn / mOf fn
          let md := e.sLoc q.core (sOff blk 6 7 k)
          let zl := e.sLoc q.core (sOff blk 8 9 k)
          let col := columnOf q.core
          let map := if zm then leNat (s.colRead col zl 8) else 0
          s.performK q e k
            { ra, rb, a := e.sLoc q.core (sOff blk 0 4 k), b := bsLoc q.core (sOff blk 1 5 k).toNat
              kept := fun i => keptTerms fn (leNat (s.colRead col (locPlus md (i * z)) z))
              zero := fun i c => map.testBit (i / 64) || map.testBit (8 + c / 64)
              md := (.mem md 0, loopTM ra * z) :: if zm then [(.mem zl 0, 8)] else []
              first := k == 0 && ovw, ac := blkU blk 2 }
      | .mloopj _ _ blk ovw =>
        let stand := standOf q.core
        if !e.joint || k ≥ blkU blk 3 || Entry.has e.data k || (2 ≤ k && !s.jointAdded e stand (k - 2)) then none
        else
          let mine := columnOf q.core % 4
          let u := q.core % 4
          let rho := 2 * (mine / 2) + u / 2
          let gam := 2 * (mine % 2) + u % 2
          let sup := memberCores stand (k % 4)
          match s.jointAt (sup.headD 0) (e.partner (k % 4)) with
          | some x =>
            match x.cmd with
            | .mloopj sa sb sblk _ =>
              s.performK q e k
                { ra := sa, rb := sb, a := x.sLoc (sup.headD 0) (sOff sblk 0 4 (k / 4) + rho * blkI sblk 6)
                  b := bsLoc (sup.getD gam 0) (sOff sblk 1 5 (k / 4)).toNat, kept := fun _ => allTerms
                  zero := fun _ _ => false, md := [], first := k == 0 && ovw, ac := blkU blk 2, shared := true
                  data := (s.kdata.find? fun d => d.core == q.core && d.seq == e.seq && d.k == k).map fun d => (d.a, d.b) }
            | _ => none
          | none => none
      | _ => none

/-- MZERO_LINE_STEP of the next line. -/
def State.zeroLine (s : State) (q : QRef) (k : Nat) : Option State :=
  match s.head q with
  | none => none
  | some e =>
    match e.cmd with
    | .mzero off n =>
      if !e.able || k != e.data.length || k ≥ n || !s.holdsAll q e then none
      else
        let t := s.engCommit q.core [(.mem (acLoc q.core (off + 256 * k)) 0, 256)] (List.replicate 256 0)
        some ((t.setHead q { e with data := e.data ++ [s.stepRec q.core k 0] }).settle q)
    | _ => none

def execKStep (q : QRef) (k : Nat) (s : State) : Host.Outcome State Fault Refusal := .next ((s.kStep q k).getD s)
def execMzeroLineStep (q : QRef) (k : Nat) (s : State) : Host.Outcome State Fault Refusal := .next ((s.zeroLine q k).getD s)

/-- The entry of member m that stands at the head of every queue it occupies, parked or not. -/
def State.memberHead (s : State) (stand m : Nat) : Option Entry :=
  let cs := memberCores stand m
  match s.head { core := cs.headD 0, q := 4 } with
  | some e =>
    if e.tag.isSome && cs.all fun c => match s.head { core := c, q := 4 } with
        | some x => x.seq == e.seq
        | none => false
    then some e else none
  | none => none

/-- The members agree on tag, shapes, formats, count and OVW (11 R263). -/
def jointAgrees (x y : Entry) : Bool :=
  match x.cmd, y.cmd with
  | .mloopj ra rb b o, .mloopj ra' rb' b' o' =>
    b.getD 7 0 == b'.getD 7 0 && loopTM ra == loopTM ra' && loopTN rb == loopTN rb' && recFmt ra == recFmt ra' && recFmt rb == recFmt rb' &&
    blkU b 3 == blkU b' 3 && o == o'
  | _, _ => false

/-- Changes the entry of member m in all four queues. -/
def State.modMember (s : State) (stand m : Nat) (f : Entry → Entry) : State :=
  (memberCores stand m).foldl (fun t c => match t.head { core := c, q := 4 } with
    | some e => t.setHead { core := c, q := 4 } (f e)
    | none => t) s

/-- Writes what an entry holds into the snapshots of its core: no rollback takes it back. -/
def State.keepHeld (s : State) (core : Nat) (e : Entry) : State :=
  let f (x : Entry) : Entry := if x.seq == e.seq then { x with held := e.held } else x
  let c := columnOf core
  s.setCol c { s.col c with snaps := (s.col c).snaps.map fun n =>
    { n with cores := n.cores.map fun k => if k.1 == core then (k.1, k.2.mapEntries f) else k } }

/-- JOINT_START: once the four entries stand at their heads, parked or not, and their postings are confirmed, each of them ends with joint-mismatch if
they disagree; if they agree the operation begins when all can act and hold their barriers. No rollback takes the beginning back, nor the barrier's
translation (log entry 37). -/
def State.jointStart (s : State) (stand : Nat) : Option State :=
  match s.memberHead stand 0, s.memberHead stand 1, s.memberHead stand 2, s.memberHead stand 3 with
  | some a, some b, some c, some d =>
    let es := [a, b, c, d]
    let q (m : Nat) : QRef := { core := (memberCores stand m).headD 0, q := 4 }
    if es.zipIdx.any fun (e, m) => e.joint || e.failed.isSome || !(s.col (4 * stand + m)).confirmed e.epoch then none
    else if es.all fun e => jointAgrees a e then
      if es.zipIdx.any fun (e, m) => !e.able || !s.holdsAll (q m) e then none
      else
        let index := es.zipIdx.map fun (e, m) => ({ k := m, epoch := e.epoch, val := e.seq } : StepRec)
        let t := s.everyEntry fun x => if es.any fun e => e.seq == x.seq then { x with joint := true, index } else x
        some (es.zipIdx.foldl (fun t (e, m) => t.keepHeld (q m).core e) t)
    else some (es.zipIdx.foldl (fun t (e, m) => t.fail (q m) e { cause := .jointMismatch, queue := 4 }) s)
  | _, _, _, _ => none

/-- JOINT_MISMATCH_TIMEOUT: an entry, parked or not, at all its heads for 500 µs without its partners, one of which is not there. A member that is parked
is there. -/
def State.jointTimeout (s : State) (q : QRef) : Option State :=
  match s.head q with
  | some e =>
    if e.tag.isNone || e.joint || q.q != 4 then none
    else
      let hs := (clusterCores q.core).map fun c => s.head { core := c, q := 4 }
      if !(hs.all fun h => match h with | some x => x.seq == e.seq && x.failed.isNone | none => false) then none
      else
        let since := hs.foldl (fun a h => max a ((h.map (·.since)).getD 0)) 0
        if s.now < since + 2000000 || (List.range 4).all fun m => (s.memberHead (standOf q.core) m).isSome then none
        else
          let q0 : QRef := { core := (clusterCores q.core).headD 0, q := 4 }
          match s.head q0 with
          | some x => some (s.fail q0 x { cause := .jointMismatch, queue := 4 })
          | none => none
  | none => none

/-- One member's part of a joint completion: its land step and its leaving the queues. None where the land step waits. -/
def State.memberEnd (s : State) (stand m : Nat) (e : Entry) : Option State :=
  let cs := memberCores stand m
  let q0 : QRef := { core := cs.headD 0, q := 4 }
  let go (t : State) : State := cs.foldl (fun t c =>
    let q : QRef := { core := c, q := 4 }
    match t.head q with
    | some x => (t.leave q x).settle q
    | none => t) t
  match e.cmd, e.bar with
  | .mloopj ra rb _ _, some b =>
    match s.landOn q0 e b (16 * loopTM ra * loopTN rb) with
    | none => none
    | some (.error (k, t)) => some (t.fail q0 e { cause := k, addr := b.addr, queue := 4 })
    | some (.ok t) => some (go (t.modMember stand m fun e => { e with lands := [t.stepRec q0.core 0 0] }))
  | _, _ => some (go s)

/-- The members of a joint operation whose barrier a peer holds and has not been asked yet put their questions. -/
def State.jointAsk (s : State) (stand : Nat) (es : List (Nat × Entry)) : Option State :=
  es.findSome? fun p => match p.2.cmd, p.2.bar with
    | .mloopj ra rb _ _, some b => s.landAsk { core := (memberCores stand p.1).headD 0, q := 4 } p.2 b (16 * loopTM ra * loopTN rb)
    | _, _ => none

/-- JOINT_COMPLETION: every K-step has been added at every core; each member lands, and its token clears. -/
def State.jointComplete (s : State) (stand : Nat) : Option State :=
  let live := (List.range 4).filterMap fun m => match s.memberHead stand m with
    | some e => if e.joint && e.able then some (m, e) else none
    | none => none
  match live with
  | [] => none
  | (_, e) :: _ =>
    let n := match e.cmd with | .mloopj _ _ b _ => blkU b 3 | _ => 0
    let all := (List.range 4).all fun m => (memberCores stand m).all fun c => match s.jointAt c (e.partner m) with
      | some x => x.data.length == n
      | none => false
    if !all then none
    else (s.jointAsk stand live).or <| live.foldl (fun (t : Option State) p => t.bind fun t => t.memberEnd stand p.1 p.2) (some s)

def execJointStart (stand : Nat) (s : State) : Host.Outcome State Fault Refusal := .next ((s.jointStart stand).getD s)
def execJointMismatchTimeout (q : QRef) (s : State) : Host.Outcome State Fault Refusal := .next ((s.jointTimeout q).getD s)
def execJointCompletion (stand : Nat) (s : State) : Host.Outcome State Fault Refusal := .next ((s.jointComplete stand).getD s)

/-! ### Accumulator forms (11 R267) -/

/-- Lines a form moves, by FN. -/
def lineCount (fn : Nat) : Nat := 2 ^ (fn % 4)

/-- The words of a lane in the lines a form names, or the fault of a range. -/
def Env.accPieces (e : Env) (off w : Nat) (m : LaneMap) : Except FaultInfo (List (Nat × List Piece)) :=
  if off % 256 != 0 || off + 256 * w > 0x80000 then .error { cause := .spaceRange, addr := off }
  else .ok ((lanesOf m).map fun l => (l, (List.range w).map fun k => (.mem (acLoc e.w.core (off + 256 * k + 4 * l)) 0, 4)))

/-- The steps of a form, one for each lane and line (11 R267): `lane` what a step of a lane and a line is numbered, `data` what it brings along. -/
def accSteps (as : List (Nat × List Piece)) (lane : Nat → Nat → Nat) (data : Nat → Nat → List Byte) : List LaneStep :=
  as.flatMap fun p => p.2.zipIdx.map fun q => { lane := lane p.1 q.2, ps := [q.1], data := data p.1 q.2, regs := [] }

def execMrd (c : Ctl) (o : OpsR) (s : State) : Host.Outcome State Fault Refusal :=
  issueWord (.mrd c o) s false false fun v e s =>
    let w := lineCount c.fn.toNat
    match e.accPieces (e.u o.a) w e.g.live, v.d with
    | .error f, _ => .fault f
    | .ok as, .vec d =>
      if s.anyHeld e.w.core as then .stay [] .read
      else
        let g := (List.range w).foldl (fun g k => g.setV (d + k) []) e.g
        if s.split && !as.isEmpty then
          .park s (e.byLane (g.takeTok c) .acc (accSteps as (fun l k => l + 64 * k) fun _ _ => []) true d w)
        else
          let (gs, _, s) := s.readAll e.w.core .none as e.met
          .done s (e.defer g true d w (gs.map fun p => (p.1, p.2.laneVal .b32)))
    | .ok _, _ => .done s e.g

def execMwr (c : Ctl) (o : OpsR) (s : State) : Host.Outcome State Fault Refusal :=
  issueWord (.mwr c o) s false false fun v e s =>
    let w := lineCount c.fn.toNat
    match e.accPieces (e.u o.a) w e.m, v.d with
    | .error f, _ => .fault f
    | .ok as, .vec d =>
      let word (l k : Nat) : List Byte := leBytes 4 (vget (e.g.vreg (d + k)) l).toNat
      if s.anyHeld e.w.core as then .stay [] .write
      else if s.split && !as.isEmpty then .park s (e.byLane e.g (.store false) (accSteps as (fun l _ => l) word) true 0 0)
      else .done (as.foldl (fun s p => s.storePieces (e.writer p.1) p.2 ((List.range w).flatMap fun k => word p.1 k)) s) e.g
    | .ok _, _ => .done s e.g

/-- MSCALE rounds each word times the lane's factor; a lane whose word is uncorrectable dies. -/
def execMscale (c : Ctl) (o : OpsR) (s : State) : Host.Outcome State Fault Refusal :=
  issueWord (.mscale c o) s false false fun _ e s =>
    let w := lineCount c.fn.toNat
    let int : Bool := c.fn.toNat ≥ 4
    let factor (l : Nat) : Nat := e.val .f32 o.b l
    match e.accPieces (e.u o.a) w e.m with
    | .error f => .fault f
    | .ok as =>
      if s.anyHeld e.w.core as then .stay [] .write
      else if s.split && !as.isEmpty then
        .park s (e.byLane e.g (.scale int o.x.toNat) (accSteps as (fun l _ => l) fun l _ => leBytes 4 (factor l)) true 0 0)
      else
        let (gs, _, t) := s.readAll e.w.core .none as e.met
        if (gs.any fun g => g.2.bad.isSome) && !s.recRoom (columnOf e.w.core) then .stay [] .write else
        let s := t
        let good := as.filter fun p => gs.any fun g => g.1 == p.1 && g.2.bad.isNone
        let out := good.map fun p => (p, p.2.map fun q => scaleWord int o.x.toNat (leNat (match q.1 with
          | .mem l _ => s.colRead (columnOf e.w.core) l 4
          | .peer .. => [])) (factor p.1))
        let s := out.foldl (fun s x => s.storePieces (e.writer x.1.1) x.1.2 (x.2.flatMap fun y => leBytes 4 y.1)) s
        let f := out.foldl (fun f x => x.2.foldl (fun f y => f ||| y.2) f) 0
        let t := s.killBad e.r (gs.filterMap fun p => p.2.bad.map fun b => (p.1, b)) e.g.pc.toNat ((e.g.mcall.map (·.2)).getD 0)
        match t.group? e.r with
        | some (_, g) => .done t { e.g.flag f with live := g.live, dead := g.dead }
        | none => .ends t

/-! ### The matrix status (11 R268) -/

def execMqstatFlags (c : Ctl) (o : OpsR) (s : State) : Host.Outcome State Fault Refusal :=
  issueWord (.mqstatFlags c o) s false false fun _ e s => .done s (e.g.writeS .ui32 o.d e.g.mstat.toNat)
def execMqstatClr (c : Ctl) (o : OpsR) (s : State) : Host.Outcome State Fault Refusal :=
  issueWord (.mqstatClr c o) s false false fun _ e s => .done s { e.g.writeS .ui32 o.d e.g.mstat.toNat with mstat := 0 }
def execMqstatDepth (c : Ctl) (o : OpsR) (s : State) : Host.Outcome State Fault Refusal :=
  issueWord (.mqstatDepth c o) s false false fun _ e s => .done s (e.g.writeS .ui32 o.d (s.core e.w.core).mx.length)

end Sys2Proof.Machine
end

