-- ==== Sys2Proof/Machine/Launches.lean ====
section
/-!
DEFINITION. Launch descriptors and macro tables (21 R361, 14 R315, R324), the units of work and their counts (06 R122-R125, 08 R183).
-/

namespace Sys2Proof.Machine

/-! ### Descriptors (Table 21.5) -/

/-- A descriptor from its 128 bytes. -/
def descOf (bs : List Byte) : Desc :=
  let d := leNat (bs.drop 64)
  { args := bytesToWords 16 (bs.take 64)
    nreg := bits d 15 8, groups := bits d 20 16, tier := bits d 22 21, mx := d.testBit 23, nfifo := bits d 26 24
    prio := bits d 29 27, n := bits d 63 32, scrsz := bits d 87 64
    decks := (List.range 4).map fun k =>
      if d.testBit (93 + 6 * k) then some (bits d (92 + 6 * k) (88 + 6 * k)) else none
    entry := bits d 159 112, compl := bits d 207 160, macroAt := bits d 255 208, trap := bits d 303 256
    dtgt := bits d 351 304, save := bits d 399 352, savesz := bits d 423 400 }

/-- Bytes of an image slot of a group in a save record, and WS, the size of a slot of the save area (12 R282). -/
def imageMax (nreg : Nat) : Nat := (1280 + 264 * nreg + 63) / 64 * 64
def saveSlot (d : Desc) : Nat :=
  (64 + d.groups * imageMax d.nreg + d.scrsz + 144 * 128 + (if d.mx then 2621440 else 0) + 4095) / 4096 * 4096

/-- The field checks of 21 R361; a deck target's COMPL holds its storage address. -/
def descOk (deck : Bool) (bs : List Byte) : Bool :=
  let d := leNat (bs.drop 64)
  let x := descOf bs
  bits d 7 0 == 1 && bits d 31 30 == 0 && bits d 511 424 == 0 && 1 ≤ x.nreg && x.nreg ≤ 128 && 1 ≤ x.groups && x.groups ≤ 16 &&
  x.tier < 3 && (!x.mx || x.tier == 1) && x.nfifo ≤ 4 && 1 ≤ x.n && x.scrsz % 4096 == 0 && x.scrsz ≤ 0x400000 &&
  ((List.range 4).all fun k =>
    let c := bits d (92 + 6 * k) (88 + 6 * k)
    if d.testBit (93 + 6 * k) then 6 ≤ c && c ≤ 20 && x.dtgt != 0 else c == 0) &&
  slotAligned x.entry && (deck || x.compl % 16 == 0) && x.trap % 2048 == 0 && x.dtgt % 128 == 0 && x.save % 4096 == 0 &&
  x.savesz * 4096 ≥ saveSlot x

/-- Workgroups of a launch of N threads (06 R123). -/
def Desc.nwg (d : Desc) : Nat := (d.n + 64 * d.groups - 1) / (64 * d.groups)

/-! ### Reading a launch: its macro table and deck targets -/

/-- How a range of the context's memory is read by the agent that checks the descriptor, in one step: from an address, as many bytes as those read so far
call for. -/
abbrev Reader (α : Type) := Nat → (List Byte → Nat) → State → Except α (List Byte × State)

/-- Reads a range whose length its own bytes give, whole, from one state: `rd` reads a length, and once the bytes call for no more they are the answer. -/
def readGrown {α : Type} (rd : Nat → State → Except α (List Byte × State)) (size : List Byte → Nat) (s : State) :
    Nat → List Byte → State → Except α (List Byte × State)
  | 0, bs, t => .ok (bs, t)
  | n + 1, bs, t =>
    if size bs ≤ bs.length then .ok (bs.take (size bs), t)
    else match rd (size bs) s with
      | .error x => .error x
      | .ok (bs, t) => readGrown rd size s n bs t

/-- The entries of a macro table, and the words that they reach, from its first bytes (14 R324, R325). -/
def macroEntries (bs : List Byte) : List Nat := (List.range (leNat (bs.take 4))).map fun i => leNat ((bs.drop (4 + 4 * i)).take 4)
def macroTop (es : List Nat) : Nat := es.foldl (fun a e => max a (bits e 15 0 + bits e 23 16)) 0
def macroCountOk (bs : List Byte) : Bool := 1 ≤ leNat (bs.take 4) && leNat (bs.take 4) ≤ 256
def macroEntriesOk (es : List Nat) : Bool :=
  (es.all fun e => 1 ≤ bits e 23 16 && bits e 23 16 ≤ 32 && bits e 31 24 == 0) && (es.map fun e => bits e 23 16).foldl (· + ·) 0 ≤ 1024 &&
  macroTop es ≤ 1024

/-- Bytes of a macro table, as its first bytes give them. -/
def macroSize (bs : List Byte) : Nat :=
  let m := leNat (bs.take 4)
  if bs.length < 4 || !macroCountOk bs then 4
  else if bs.length < 4 + 4 * m || !macroEntriesOk (macroEntries bs) then 4 + 4 * m
  else 4 + 4 * m + 12 * macroTop (macroEntries bs)

/-- The bodies of a macro table; none where a count, a length or a body word is not admitted (14 R315, Table 14.8). -/
def macroBodies (bs : List Byte) : Option (List (List InstrWord)) :=
  if !macroCountOk bs || !macroEntriesOk (macroEntries bs) then none
  else
    let w (i : Nat) : InstrWord := BitVec.ofNat 96 (leNat ((bs.drop (4 + 4 * leNat (bs.take 4) + 12 * i)).take 12))
    let bodies := (macroEntries bs).map fun e => (List.range (bits e 23 16)).map fun k => w (bits e 15 0 + k)
    if bodies.any fun b => b.any fun x => (opcOf x).toNat ≤ 0x11 then none else some bodies

/-- The macro table, read in one step (08 R181): its bodies, or none where it is not admitted. -/
def readMacros {α : Type} (rd : Reader α) (addr : Nat) (s : State) : Except α (Option (List (List InstrWord)) × State) :=
  if addr == 0 then .ok (some [], s)
  else match rd addr macroSize s with
    | .error x => .error x
    | .ok (bs, s) => .ok (macroBodies bs, s)

/-- The descriptors of declared decks; none in a place that no deck has, and whether each is admitted with its macro table, which is read where it is not
the launch's own (21 R361, log entry 22). -/
def readTargets {α : Type} (rd : Reader α) (d : Desc) (s : State) : List Nat → Except α (List (Option Desc) × Bool × State)
  | [] => .ok ([], true, s)
  | k :: ks =>
    match d.decks.getD k none with
    | none =>
      match readTargets rd d s ks with
      | .error x => .error x
      | .ok (ts, ok, s) => .ok (none :: ts, ok, s)
    | some _ =>
      match rd (d.dtgt + 128 * k) (fun _ => 128) s with
      | .error x => .error x
      | .ok (bs, s) =>
        match (if (descOf bs).macroAt == d.macroAt then .ok (some [], s) else readMacros rd (descOf bs).macroAt s) with
        | .error x => .error x
        | .ok (ms, s) =>
          match readTargets rd d s ks with
          | .error x => .error x
          | .ok (ts, ok, s) => .ok (some (descOf bs) :: ts, ok && descOk true bs && ms.isSome, s)

/-- What a checked launch consists of. -/
structure Checked where
  desc : Desc
  macros : List (List InstrWord)
  targets : List (Option Desc)
  deriving DecidableEq, Repr

/-- Reads what a descriptor names and checks it all (21 R361); none where a check fails. -/
def readLaunch {α : Type} (rd : Reader α) (bs : List Byte) (s : State) : Except α (Option Checked × State) :=
  let d := descOf bs
  match readMacros rd d.macroAt s with
  | .error x => .error x
  | .ok (ms, s) =>
    match readTargets rd d s (if d.dtgt == 0 then [] else [0, 1, 2, 3]) with
    | .error x => .error x
    | .ok (ts, ok, s) =>
      match ms with
      | some macros => .ok (if descOk false bs && ok then some { desc := d, macros, targets := ts } else none, s)
      | none => .ok (none, s)

/-! ### Units (06 R124, 08 R183) -/

/-- A unit named by a completion object: a launch, a graph, phase or job, or a launch whose FORK is not confirmed yet. -/
inductive UnitRef
  | launch (lnum : Nat)
  | unit (kind : UnitKind) (object : Nat)
  | pending (d : Desc) (cancelled : Bool)
  deriving DecidableEq, Repr

/-- FORK requests still in a landing buffer, of a context: the parent, the child's descriptor, whether it has been cancelled. -/
def State.pendingForks (s : State) (ctx : Nat) : List (Nat × Desc × Bool) :=
  s.cols.toList.flatMap fun k => k.lb.filterMap fun e => match e.kind with
    | .fork c parent d _ _ x => if c == ctx then some (parent, d, x) else none
    | _ => none

/-- The unit of a context that a completion object belongs to. A launch still running is meant before one that has completed. -/
def State.unitAt (s : State) (ctx addr : Nat) : Option UnitRef :=
  let ls := s.launches.filter fun l => l.ctx == ctx && l.desc.compl == addr
  match ls.find? fun l => l.status == .running || l.status == .cancelling with
  | some l => some (.launch l.lnum)
  | none =>
    match (s.pendingForks ctx).find? fun p => p.2.1.compl == addr with
    | some p => some (.pending p.2.1 p.2.2)
    | none =>
      match s.units.find? fun u => u.ctx == ctx && u.object == addr with
      | some u => some (.unit u.kind u.object)
      | none => ls.getLast?.map fun l => .launch l.lnum

/-- A launch that has not completed. -/
def Launch.live (l : Launch) : Bool := l.status == .running || l.status == .cancelling

/-- Engine commands that a launch's groups posted and that have not performed and been confirmed (05 R100), those saved with a workgroup among them; a
joint command counts once. -/
def State.commandsOf (s : State) (ctx lnum : Nat) : Nat :=
  (((s.cores.toList.flatMap fun k => k.y.toList.flatten ++ k.mx ++ k.kept) ++ s.away.flatMap (·.cmds)).filter fun e =>
    e.poster.ctx == ctx && e.poster.lnum == lnum).map (·.seq) |>.eraseDups.length

/-- The completion counter of a launch (06 R124). -/
def State.launchCount (s : State) (l : Launch) : Nat :=
  (if l.cancelled then 0 else l.desc.nwg - l.nextWg) + l.formed.length +
  ((s.wgs ++ s.away).filter fun w => w.ctx == l.ctx && w.lnum == l.lnum).length + s.commandsOf l.ctx l.lnum +
  (l.decks.filter fun d => match d with | some k => !k.items.isEmpty | none => false).length +
  (s.launches.filter fun c => c.ctx == l.ctx && c.parent == some l.lnum && c.live).length +
  ((s.pendingForks l.ctx).filter fun p => p.1 == l.lnum).length

/-- The counter of a graph, a phase or a job: its units of the level below still outstanding. -/
def State.unitCount (s : State) (kind : UnitKind) (ctx object : Nat) : Nat :=
  match kind with
  | .graph => (s.launches.filter fun l => l.ctx == ctx && l.graph == object && l.parent.isNone && l.live).length
  | .phase => (s.units.filter fun u => u.ctx == ctx && u.kind == .graph && u.inPhase == object &&
      (u.status == .running || u.status == .cancelling)).length
  | _ => (s.units.filter fun u => u.ctx == ctx && u.kind == .phase && (u.status == .running || u.status == .cancelling)).length

/-- CNTRD's status code (08 R183). -/
def Status.code : Status → Nat
  | .running => 0 | .clean => 1 | .faulted => 2 | .cancelling => 3 | .cancelled => 4

/-- Count and status code of a unit. -/
def State.unitRead (s : State) (ctx : Nat) : UnitRef → Nat × Nat
  | .launch n =>
    match s.launchOf ctx n with
    | some l => (if l.live then s.launchCount l else l.finalCount, l.status.code)
    | none => (0, 0)
  | .pending d x => if x then (0, Status.cancelling.code) else (d.nwg, 0)
  | .unit k o =>
    match s.units.find? fun u => u.ctx == ctx && u.kind == k && u.object == o with
    | some u => (if u.status == .running || u.status == .cancelling then s.unitCount k ctx o else 0, u.status.code)
    | none => (0, 0)

/-- A launch and the launches above it, with `fuel` for the depth of forks (06 R138). -/
def State.ancestors (s : State) (ctx : Nat) : Nat → Nat → List Nat
  | 0, n => [n]
  | f + 1, n => match (s.launchOf ctx n).bind (·.parent) with
    | some p => n :: s.ancestors ctx f p
    | none => [n]

/-- Whether a unit is one that a launch belongs to. -/
def State.inUnit (s : State) (ctx lnum : Nat) : UnitRef → Bool
  | .launch n => (s.ancestors ctx 17 lnum).contains n
  | .pending .. => false
  | .unit k o =>
    match s.launchOf ctx lnum, k with
    | some l, .graph => l.graph == o
    | some l, .phase => l.phase == o
    | some _, .job => true
    | _, _ => false

end Sys2Proof.Machine
end

