-- ==== Sys2Proof/Machine/Maps.lean ====
section
/-!
DEFINITION. Map forms and the forms that build registers from maps (08 R184-R186).
-/

namespace Sys2Proof.Machine

/-- A map form with a map result. -/
def mapForm (i : Instr) (d : Operand) (s : State) (f : Env → LaneMap) : Host.Outcome State Fault Refusal :=
  issueWord i s true false fun _ e s => .done s (e.g.writeM d (f e))

def execMand (c : Ctl) (o : OpsR) (s : State) : Host.Outcome State Fault Refusal :=
  mapForm (.mand c o) o.d s fun e => e.map o.a &&& e.map o.b
def execMor (c : Ctl) (o : OpsR) (s : State) : Host.Outcome State Fault Refusal :=
  mapForm (.mor c o) o.d s fun e => e.map o.a ||| e.map o.b
def execMandn (c : Ctl) (o : OpsR) (s : State) : Host.Outcome State Fault Refusal :=
  mapForm (.mandn c o) o.d s fun e => e.map o.a &&& ~~~(e.map o.b)
def execMxor (c : Ctl) (o : OpsR) (s : State) : Host.Outcome State Fault Refusal :=
  mapForm (.mxor c o) o.d s fun e => e.map o.a ^^^ e.map o.b
def execMnot (c : Ctl) (o : OpsR) (s : State) : Host.Outcome State Fault Refusal :=
  mapForm (.mnot c o) o.d s fun e => ~~~(e.map o.a)
def execMmov (c : Ctl) (o : OpsR) (s : State) : Host.Outcome State Fault Refusal :=
  mapForm (.mmov c o) o.d s fun e => e.map o.a
def execMof (c : Ctl) (o : OpsR) (s : State) : Host.Outcome State Fault Refusal :=
  mapForm (.mof c o) o.d s fun e => e.map o.a
def execMsetPair (c : Ctl) (o : OpsR) (s : State) : Host.Outcome State Fault Refusal :=
  mapForm (.msetPair c o) o.d s fun e => BitVec.ofNat 64 (e.pair o.a)
def execMsetFirst (c : Ctl) (o : OpsR) (s : State) : Host.Outcome State Fault Refusal :=
  mapForm (.msetFirst c o) o.d s fun e => lowLanes (e.u o.a)

/-- A map form with a scalar result. -/
def mapScalar (i : Instr) (ty : Ty) (d : Operand) (s : State) (f : Env → Nat) : Host.Outcome State Fault Refusal :=
  issueWord i s true false fun _ e s => .done s (e.g.writeS ty d (f e))

def execMpop (c : Ctl) (o : OpsR) (s : State) : Host.Outcome State Fault Refusal :=
  mapScalar (.mpop c o) .ui32 o.d s fun e => popc (e.map o.a)

/-- The lowest or highest lane of a map, 64 when it is empty. -/
def findLane (hi : Bool) (m : LaneMap) : Nat := (if hi then (lanesOf m).getLast? else (lanesOf m).head?).getD 64

def execMfind (c : Ctl) (o : OpsR) (s : State) : Host.Outcome State Fault Refusal :=
  mapScalar (.mfind c o) .ui32 o.d s fun e => findLane (c.fn == 1) (e.map o.a)
def execMget (c : Ctl) (o : OpsR) (s : State) : Host.Outcome State Fault Refusal :=
  mapScalar (.mget c o) .i64 o.d s fun e => (e.map o.a).toNat

def execMtst (c : Ctl) (o : OpsR) (s : State) : Host.Outcome State Fault Refusal :=
  issueWord (.mtst c o) s true false fun _ e s =>
    let m := e.map o.a
    .done s (e.g.writeP o.d (match c.fn.toNat with | 0 => m != 0 | 1 => m == 0 | 2 => m == e.g.live | _ => m != e.g.live))

/-! ### Registers from maps (08 R185) -/

def execRestrict (c : Ctl) (o : OpsR) (s : State) : Host.Outcome State Fault Refusal :=
  issueWord (.restrict c o) s true false fun v e s =>
    .done s (e.compute c.ty v.d (e.g.omap (rd [.v] c.ty) o.a &&& e.map o.b) fun l => (e.val c.ty o.a l, 0))

/-- MERGE with MC set admits no overlap. -/
def execMerge (c : Ctl) (o : OpsR) (s : State) : Host.Outcome State Fault Refusal :=
  issueWord (.merge c o) s true false fun v e s =>
    let a := e.g.omap (rd [.v] c.ty) o.a
    let b := e.g.omap (rd [.v] c.ty) o.b
    if c.mc && a &&& b != 0 then .trap .mapMismatch
    else .done s (e.compute c.ty v.d (a ||| b) fun l => (e.val c.ty (if a.getLsbD l then o.a else o.b) l, 0))

def execFill (c : Ctl) (o : OpsR) (s : State) : Host.Outcome State Fault Refusal :=
  issueWord (.fill c o) s true false fun v e s => .done s (e.compute c.ty v.d (e.map o.b) fun l => (e.val c.ty o.a l, 0))

/-! ### COMPACT (08 R186) -/

/-- A register moved by a list of old positions: new position k takes what old position ls[k] held. -/
def moveReg (r : VReg) (ls : List Nat) : VReg := ls.zipIdx.filterMap fun p => (vget? r p.1).map fun x => (p.2, x)
/-- A map moved likewise. -/
def moveMap (m : LaneMap) (ls : List Nat) : LaneMap :=
  mapOf (ls.zipIdx.filterMap fun p => if m.getLsbD p.1 then some p.2 else none)

/-- No result is in flight to the group and every token is clear. -/
def Group.quiet (g : Group) : Bool := g.pend.isEmpty && g.tok.toList.all fun b => !b

def Group.compacted (g : Group) : Group :=
  let ls := lanesOf g.live
  { g with v := Vector.ofFn fun n : Fin 128 => moveReg (g.vreg n) ls
           vbad := g.vbad.map fun b => (b.1, moveMap b.2 ls)
           m := Vector.ofFn fun n : Fin 14 => moveMap (g.m[n.val]?.getD 0) ls
           tid := Vector.ofFn fun k : Fin 64 => match ls[k.val]? with | some l => g.tidOf l | none => g.tidOf k
           live := lowLanes ls.length, dead := 0 }

/-- COMPACT waits until every pending write has landed and every token is clear. -/
def execCompact (c : Ctl) (o : OpsR) (s : State) : Host.Outcome State Fault Refusal :=
  issueWord (.compact c o) s false false fun _ e s =>
    if e.g.quiet then .done s e.g.compacted else .stay [] .read

end Sys2Proof.Machine
end

