-- ==== Sys2Proof/Machine/Work.lean ====
section
/-!
DEFINITION. Work forms (08 R179-R183): SPAWN, FORK, REGROUP, CANCEL, CNTRD.
-/

namespace Sys2Proof.Machine

/-! ### SPAWN (06 R136, 08 R180) -/

/-- A request that leaves the column when its epoch is confirmed. -/
def State.request (s : State) (col ctx lnum : Nat) (k : LbKind) : State :=
  let c := s.col col
  s.setCol col { c with lb := c.lb ++ [{ epoch := c.epoch, ctx, lnum, kind := k }] }

def State.modDeck (s : State) (ctx lnum k : Nat) (f : Deck → Deck) : State :=
  s.modLaunch ctx lnum fun l => { l with decks := l.decks.zipIdx.map fun d => if d.2 == k then d.1.map f else d.1 }

def State.deckOf (s : State) (ctx lnum k : Nat) : Option Deck := (s.launchOf ctx lnum).bind fun l => l.decks.getD k none

/-- SPAWN reserves its items at issue; they enter the deck when the epoch is confirmed. -/
def execSpawn (c : Ctl) (o : OpsR) (s : State) : Host.Outcome State Fault Refusal :=
  issueWord (.spawn c o) s false false fun _ e s =>
    let k := c.fn.toNat
    let col := columnOf e.w.core
    match s.deckOf e.r.ctx e.r.lnum k with
    | none => .trap .illegalVariant
    | some d =>
      let n := popc e.m
      if d.items.length + d.reserved + n > d.cap then .trap .deckOverflow
      else if n == 0 then .done s e.g
      else if !s.reqRoom col then .stay [] .write
      else
        let w (op : Operand) (l : Nat) : Word := BitVec.ofNat 32 (e.val .b32 op l)
        let items := (lanesOf e.m).map fun l => ({ a := w o.a l, b := w o.b l, c := w o.c l, at_ := 0 } : Item)
        .done ((s.modDeck e.r.ctx e.r.lnum k fun d => { d with reserved := d.reserved + n }).request col e.r.ctx e.r.lnum
          (.spawn e.r.ctx e.r.lnum k items)) e.g

/-! ### FORK (06 R138, 08 R181) -/

/-- A read of global memory by a group before its instruction performs, one step (08 R181). Where an instruction's memory steps are taken one by one, the
group tries again after it with what it has read (04 R83). -/
def Env.globalRead (e : Env) : Reader Act := fun va size s =>
  match e.g.fgot.find? fun x => x.1 == va && x.2.1 == size x.2.2 with
  | some x => .ok (x.2.2, s)
  | none =>
    let read (n : Nat) (s : State) : Except Act (List Byte × State) := match s.uniAccess e.r e.w e.g 0 .read va n with
      | .fault f => .error (.faultWith s f)
      | .miss ps => .error (.stay ps .read)
      | .ok as => if s.anyHeld e.w.core as then .error (.stay [] .read) else s.uniRead e .read (as.flatMap (·.2))
    match readGrown read size s 4 [] s with
    | .error a => .error a
    | .ok (bs, t) =>
      if s.split && !bs.isEmpty then .error (.ends (t.modGroup e.r fun g => { g with fgot := g.fgot ++ [(va, bs.length, bs)] })) else .ok (bs, t)

/-- Forked launches of a context that have not completed, unconfirmed ones among them. -/
def State.forksOut (s : State) (ctx : Nat) : Nat :=
  (s.launches.filter fun l => l.ctx == ctx && l.parent.isSome && l.live).length + (s.pendingForks ctx).length

/-- Launches a context's pending store holds (13 R288). -/
def State.pendingLaunches (s : State) (ctx : Nat) : Nat :=
  (s.launches.filter fun l => l.ctx == ctx && l.live).length + (s.pendingForks ctx).length

/-- FORK: the reads, the descriptor's check, the limits, then the request. DESIGN CHOICE (log entry 74): a bad or unreadable descriptor is reported
before a limit; 06 R138 and 08 R181 do not order the two. -/
def execFork (c : Ctl) (o : OpsR) (s : State) : Host.Outcome State Fault Refusal :=
  issueWord (.fork c o) s false false fun _ e s =>
    let va := e.pair o.a
    let col := columnOf e.w.core
    let rd := e.globalRead
    if va % 64 != 0 then .fault { cause := .objectAlign, addr := va }
    else match rd va (fun _ => 128) s with
      | .error a => a
      | .ok (bs, s) =>
        match readLaunch rd bs s with
        | .error a => a
        | .ok (none, t) => .faultWith t { cause := .forkDescriptor }
        | .ok (some k, s) =>
          let depth := ((s.launchOf e.r.ctx e.r.lnum).map (·.depth)).getD 0
          if s.forksOut e.r.ctx ≥ 1024 || depth ≥ 16 || s.pendingLaunches e.r.ctx ≥ 4096 then .faultWith s { cause := .forkLimit }
          else match (if o.e == .none then .ok ([], s) else rd k.desc.compl (fun _ => 4) s) with
            | .error a => a
            | .ok (ph, s) =>
              if !s.reqRoom col then .stay [] .write
              else
                let g := (e.g.writeS .i64 o.d k.desc.compl).writeS .ui32 o.e (leNat ph)
                .done (s.request col e.r.ctx e.r.lnum (.fork e.r.ctx e.r.lnum k.desc k.macros k.targets)) g

/-! ### REGROUP (06 R140, 08 R182) -/

/-- Participants and their live lanes in ascending (ID.GROUP, ID.LANE) order. -/
def participants (w : Workgroup) : List Group :=
  sortBy (fun a b => a.id ≤ b.id) (w.groups.filter fun g => g.retired.isNone)
def regroupLanes (gs : List Group) : List (Group × Nat) := gs.flatMap fun g => (lanesOf g.live).map fun l => (g, l)

/-- The survivor that takes lanes; `u` supplies the uniform state. -/
def fuse (u g : Group) (gs : List Group) (id : Nat) (ls : List (Group × Nat)) : Group :=
  let reg (n : Nat) : VReg := ls.zipIdx.filterMap fun p => (vget? (p.1.1.vreg n) p.1.2).map fun x => (p.2, x)
  let badOf (n : Nat) : LaneMap := mapOf (ls.zipIdx.filterMap fun p =>
    if (p.1.1.vbad.find? fun b => b.1 == n).any fun b => b.2.getLsbD p.1.2 then some p.2 else none)
  let mapN (n : Nat) : LaneMap := mapOf (ls.zipIdx.filterMap fun p => if (p.1.1.m[n]?.getD 0).getLsbD p.1.2 then some p.2 else none)
  { g with id, pc := nextPc u.pc, s := u.s, p := u.p, w := u.w, srseed := u.srseed, srn := u.srn, chk := u.chk, wdog := u.wdog
           v := Vector.ofFn fun n : Fin 128 => reg n
           vbad := (List.range 128).filterMap fun n => if badOf n == 0 then none else some (n, badOf n)
           m := Vector.ofFn fun n : Fin 14 => mapN n
           tid := Vector.ofFn fun k : Fin 64 => match ls[k.val]? with | some p => p.1.tidOf p.2 | none => g.tidOf k
           live := lowLanes ls.length, dead := 0
           gstat := gs.foldl (fun a x => a ||| x.gstat) 0, mstat := gs.foldl (fun a x => a ||| x.mstat) 0
           mcall := none, wait := .none, waitCnt := 0, runCnt := gs.foldl (fun a x => max a x.runCnt) 0, hold := 0 }

/-- The uniform state that must agree. -/
def uniformSame (a b : Group) : Bool :=
  a.s == b.s && a.p == b.p && a.w == b.w && a.pc == b.pc && a.srseed == b.srseed && a.srn == b.srn && a.chk == b.chk && a.wdog == b.wdog

/-- What a group waits for at a REGROUP. -/
def Group.regroupAt (g : Group) : Option (Nat × Word × Bool) :=
  match g.wait with | .regroup off p mc _ => some (off, p, mc) | _ => none

/-- Performs the REGROUP of a workgroup once every participant has arrived, with nothing pending, and no other column's step stands on the barrier's counts
(05 R112, R114). -/
def State.tryRegroup (s : State) (w : Workgroup) : Option State :=
  let gs := participants w
  let r (id : Nat) : GRef := { ctx := w.ctx, lnum := w.lnum, wg := w.wg, grp := id }
  if gs.isEmpty || !w.runs || !(gs.all fun g => g.regroupAt.isSome && g.quiet) then none
  else match gs with
    | [] => none
    | u :: _ =>
      let off := ((u.regroupAt.map (·.1)).getD 0)
      let mc := gs.any fun g => (g.regroupAt.map (·.2.2)).getD false
      if (gs.any (·.handler)) || (mc && gs.any fun g => !uniformSame u g) then
        some (gs.foldl (fun s g =>
          match s.group? (r g.id) with
          | some (w, g) => s.raise (r g.id) w { g with wait := .none } { cause := .regroup }
          | none => s) s)
      else if s.heldOff (some (columnOf w.core)) (localLoc w 1 (off + 4)) 4 then none
      else
        let ls := regroupLanes gs
        let k := (ls.length + 63) / 64
        let epoch := (s.col (columnOf w.core)).epoch
        let new := gs.zipIdx.map fun p =>
          if p.2 < k then { fuse u p.1 gs p.2 ((ls.drop (64 * p.2)).take 64) with lastEpoch := epoch }
          else { p.1 with live := 0, retired := some epoch, lastEpoch := epoch, wait := .none, pend := [], xf := [], got := [], wgot := [], fgot := [], met := {} }
        let s := s.modWg (r 0) fun w => { w with groups := new ++ (w.groups.filter fun g => g.retired.isSome), ngroup := k }
        -- commands already posted keep naming their groups: a survivor by its new number, one that retires by 16 more than its old one
        let name (n : Nat) : Nat := match gs.zipIdx.find? fun p => p.1.id == n with
          | some p => if p.2 < k then p.2 else 16 + n
          | none => n
        let ren (e : Entry) : Entry := if e.poster.ctx == w.ctx && e.poster.lnum == w.lnum && e.poster.wg == w.wg then
            { e with poster := { e.poster with grp := name e.poster.grp } } else e
        let s := { s with cores := s.cores.map fun (c : Core) => c.mapEntries ren }
        some (s.colStore (columnOf w.core) w.ctx w.lnum (localLoc w 1 (off + 4)) (leBytes 2 k ++ leBytes 2 k))

/-- REGROUP: the group waits for every participant; the last to arrive lets all go on. -/
def execRegroup (c : Ctl) (o : OpsR) (s : State) : Host.Outcome State Fault Refusal :=
  issueWord (.regroup c o) s true false fun _ e s =>
    let off := e.u o.a
    let p : Word := BitVec.ofNat 32 (e.u o.b)
    if off % 16 != 0 then .fault { cause := .objectAlign, addr := off }
    else match s.uniAccess e.r e.w e.g 1 .read off 16 with
      | .fault f => .fault f
      | .miss ps => .stay ps .read
      | .ok as =>
        if s.anyHeld e.w.core as then .stay [] .read
        else
          let (bs, t) := s.uniBytes e .read (as.flatMap (·.2))
          let b := leNat bs
          let sc := (Sys2Proof.scopeBits c.sc).toNat
          if (sc != 2 && sc != 3) || bits b 127 125 != sc then .faultWith (s.metBy t) { cause := .barrierScope, addr := off }
          else if bits b 31 0 == p.toNat ||
              (participants e.w).any (fun g => match g.wait with | .regroup a q _ _ => a != off || q != p | _ => false) then
            .faultWith (s.metBy t) { cause := .regroup }
          else
            let s := t
            let g := { e.g with wait := .regroup off p c.mc c.sc }
            let t := s.setGroup e.r (match viewForm (.regroup c o) with
              | some (v, f) => g.after v f (s.clock e.w.core) e.epoch false (e.g.dsts v f)
              | none => g)
            match t.wgOf e.r with
            | none => .park s g
            | some w =>
              match t.tryRegroup w with
              | some u => .ends u
              | none => .park s g

/-- Workgroups of a core whose REGROUP can be performed now. -/
def State.regroupReady (s : State) (core : Nat) : Option State :=
  (s.wgs.filter fun w => w.core == core).findSome? fun w => s.tryRegroup w

/-! ### CANCEL, CNTRD (08 R183) -/

/-- CANCEL posts a request; a group of the cancelled unit stops at once. -/
def execCancel (c : Ctl) (o : OpsR) (s : State) : Host.Outcome State Fault Refusal :=
  issueWord (.cancel c o) s false false fun _ e s =>
    let addr := e.pair o.a
    let col := columnOf e.w.core
    match s.unitAt e.r.ctx addr with
    | none => .trap .cancelTarget
    | some u =>
      if !s.reqRoom col then .stay [] .write
      else
        let s := s.request col e.r.ctx e.r.lnum (.cancel e.r.ctx addr)
        if s.inUnit e.r.ctx e.r.lnum u then .ends ((s.setGroup e.r e.g).retire e.r e.w.core) else .done s e.g

def execCntrdCount (c : Ctl) (o : OpsR) (s : State) : Host.Outcome State Fault Refusal :=
  issueWord (.cntrdCount c o) s false false fun _ e s =>
    match s.unitAt e.r.ctx (e.pair o.a) with
    | none => .trap .cancelTarget
    | some u => .done s (e.g.writeS .ui32 o.d (min 0xFFFFFFFF (s.unitRead e.r.ctx u).1))

def execCntrdStatus (c : Ctl) (o : OpsR) (s : State) : Host.Outcome State Fault Refusal :=
  issueWord (.cntrdStatus c o) s false false fun _ e s =>
    match s.unitAt e.r.ctx (e.pair o.a) with
    | none => .trap .cancelTarget
    | some u => .done s (e.g.writeS .ui32 o.d (s.unitRead e.r.ctx u).2)

end Sys2Proof.Machine
end

