-- ==== Sys2Proof/Machine/Units.lean ====
section
/-!
DEFINITION. The dispatcher's bookkeeping: cancels (06 R125), child launches (06 R138), what a workgroup that leaves its core releases
(02 R37-R39, 08 R176, R177), and the completion of units (06 R124, 05 R120, 13 R288).
-/

namespace Sys2Proof.Machine

/-! ### Changes that a rollback does not undo -/

/-- Changes workgroups now and in every snapshot: a step of the dispatcher or the host, which no rollback deletes. -/
def State.everyWg (s : State) (p : Workgroup → Bool) (f : Workgroup → Workgroup) : State :=
  let g (w : Workgroup) : Workgroup := if p w then f w else w
  { s with wgs := s.wgs.map g
           cols := s.cols.map fun (k : Column) => { k with snaps := k.snaps.map fun n => { n with wgs := n.wgs.map g } } }

/-! ### What a workgroup that leaves its core releases -/

/-- Bytes of a workgroup's scratch allocation. -/
def Workgroup.scratch (w : Workgroup) : Loc × Nat := (sramLoc (clusterOf w.core) w.scrBase, w.scrSize)

/-- A command that has begun holds the target of its barrier in the aperture until its last land step (01 R12, R28). -/
def State.barHolds (s : State) (hit : Loc → Nat → Bool) (e : Entry) : Bool :=
  e.begun && e.failed.isNone && match e.landBar with
    | some b => !b.inS && (s.ctx e.poster.ctx).inAperture b.addr && hit (apertureLoc b.addr) 16
    | none => false

/-- A group's instruction under way, or its phase wait, holds what it was admitted to (01 R12). -/
def State.waitHolds (s : State) (hit : Loc → Nat → Bool) (ctx : Nat) (g : Group) : Bool :=
  match g.wait with
  | .atomic q => q.lanes.any fun a => a.peer.isNone && hit a.loc (tyBytes q.ty)
  | .lanes q => q.todo.any fun a => a.ps.any fun p => match p.1 with | .mem l _ => hit l p.2 | .peer .. => false
  | .phase false addr _ _ _ _ _ => (s.ctx ctx).inAperture addr && hit (apertureLoc addr) 4
  | _ => false

/-- What a workgroup and a core hold of memory that a test names: the steps that instructions under way have left, phase waits, and the barriers of
commands that have begun. -/
def State.wgHolds (s : State) (hit : Loc → Nat → Bool) (v : Workgroup) : Bool :=
  (v.groups.any fun g => g.retired.isNone && s.waitHolds hit v.ctx g) || v.cmds.any (s.barHolds hit)
def State.coreHolds (s : State) (hit : Loc → Nat → Bool) (k : Core) : Bool := (k.y.toList.flatten ++ k.mx).any (s.barHolds hit)

/-- Admitted accesses to memory that a test names have not all performed and been confirmed (01 R12, 05 R112): stores and reductions in landing buffers,
provisional writes, a host's access under way, and what workgroups and cores hold, now or at a boundary to which a rollback may return (02 R49). -/
def State.admitted (s : State) (hit : Loc → Nat → Bool) : Bool :=
  (s.cols.toList.any fun k =>
    (k.lb.any fun e => match e.kind.range with | some (l, n) => hit l n | none => false) ||
    (k.undo.any fun u => match u with | .mem _ l old _ => hit l old.length | _ => false) ||
    k.snaps.any fun n => n.wgs.any (s.wgHolds hit) || n.cores.any fun c => s.coreHolds hit c.2) ||
  (s.chans.toList.any fun k => k.prog.any fun p => p.todo.any fun t => hit t.1 t.2) ||
  (s.wgs ++ s.away).any (s.wgHolds hit) || s.cores.toList.any (s.coreHolds hit)

/-- Admitted accesses to the scratch of a workgroup have not all performed (01 R12). -/
def State.scratchBusy (s : State) (w : Workgroup) : Bool :=
  w.scrSize != 0 && s.admitted fun l n => overlaps l n w.scratch.1 w.scratch.2

/-- Commands of a workgroup in queues and retention stores. -/
def State.cmdsOf (s : State) (w : Workgroup) : List Entry :=
  s.cores.toList.flatMap fun k => (k.y.toList.flatten ++ k.mx ++ k.kept).filter fun e => w.isOf e.poster.ctx e.poster.lnum e.poster.wg

/-- A cluster after a workgroup has left: an empty scratchpad bank notes the time (02 R40); without a workgroup of the launch its FIFO
banks return to cache mode (02 R38). -/
def Cluster.freed (k : Cluster) (w : Workgroup) (now : Nat) (used : Nat → Bool) (last : Bool) : Cluster :=
  let mode (i : Nat) (m : BankMode) : BankMode := match m with
    | .scratch none => if used i then m else .scratch (some now)
    | .fifo c l _ => if last && c == w.ctx && l == w.lnum then .cache else m
    | _ => m
  { k with modes := Vector.ofFn fun i : Fin 64 => mode i.val (k.modes[i.val]?.getD .cache)
           fifos := if last then k.fifos.filter fun f => !(f.ctx == w.ctx && f.lnum == w.lnum) else k.fifos }

/-- Releases what a workgroup holds on its core and in its cluster; the workgroup itself has left the lists already. `saved` workgroups
of its launch keep the launch's FIFO banks. -/
def State.release (s : State) (w : Workgroup) : State :=
  let cl := clusterOf w.core
  let here (v : Workgroup) : Bool := v.ctx == w.ctx && v.lnum == w.lnum
  let last := !((s.wgs ++ s.away).any fun v => here v && clusterOf v.core == cl)
  let used (b : Nat) : Bool := s.wgs.any fun v => clusterOf v.core == cl && v.scrSize != 0 &&
    v.scrBase < (b + 1) * 2 ^ 17 && b * 2 ^ 17 < v.scrBase + v.scrSize
  let s := s.setCluster cl ((s.cluster cl).freed w s.now used last)
  let k := s.core w.core
  if s.wgs.any fun v => here v && v.core == w.core then s
  else s.setCore w.core { k with tables := k.tables.filter fun t => t != (w.ctx, w.lnum) }

/-- A workgroup leaves the resident list. -/
def State.dropWg (s : State) (w : Workgroup) : State :=
  ({ s with wgs := s.wgs.filter fun v => !v.isOf w.ctx w.lnum w.wg } : State).release w

/-- A saved workgroup is gone. -/
def State.dropAway (s : State) (w : Workgroup) : State :=
  ({ s with away := s.away.filter fun v => !v.isOf w.ctx w.lnum w.wg } : State).release w

/-- Every group has left and nothing of the workgroup is outstanding. -/
def State.finished (s : State) (w : Workgroup) : Bool :=
  w.groups.isEmpty && w.ending.isNone && (s.cmdsOf w).isEmpty && !s.scratchBusy w

/-- Releases the workgroups that have finished. -/
def State.reap (s : State) : State :=
  (s.wgs.filter fun w => s.finished w).foldl (fun t w => t.dropWg w) s

/-! ### Cancel (06 R125) -/

/-- A joint operation's first K-step has been taken, at some core. -/
def State.jointBegun (s : State) (e : Entry) : Bool :=
  s.cores.toList.any fun k => (k.mx ++ k.kept).any fun x => !x.data.isEmpty && (List.range 4).any fun m => x.seq == e.partner m

/-- An entry that has taken no step; one of a joint operation, while no core has taken a K-step of it (Table 11.6). -/
def State.unstarted (s : State) (e : Entry) : Bool :=
  e.failed.isNone && if e.joint then e.data.isEmpty && e.lands.isEmpty && !s.jointBegun e else e.fresh

/-- Removes entries from the queues; the next head of a queue reaches it now. -/
def State.discard (s : State) (p : Entry → Bool) : State :=
  let cut (es : List Entry) : List Entry := reheaded s.now es (es.filter fun e => !p e)
  let hit := (List.range 256).filter fun c => ((s.core c).y.toList.flatten ++ (s.core c).mx).any p
  let s := hit.foldl (fun t c => let k := t.core c; t.setCore c { k with y := k.y.map cut, mx := cut k.mx }) s
  hit.foldl (fun t c => (List.range 5).foldl (fun t q => t.settle { core := c, q }) t) s

/-- The joint entries of other members that lose a partner: those of its operation, or those of its tag in its stand. -/
def State.partnersOf (s : State) (p : Entry → Bool) : List Nat :=
  let all := (List.range 256).flatMap fun c => ((s.core c).mx.filter fun e => e.tag.isSome).map fun e => (c, e)
  (all.filter fun x => !p x.2 && x.2.failed.isNone && all.any fun y => p y.2 && standOf x.1 == standOf y.1 && columnOf x.1 != columnOf y.1 &&
    if y.2.joint then (List.range 4).any fun m => x.2.seq == y.2.partner m else x.2.tag == y.2.tag && !x.2.joint).map fun x => x.2.seq

/-- Discards the commands of a kind that have taken no step; the partners of a joint entry end with joint-mismatch (Table 11.6). -/
def State.discardWork (s : State) (dead : Entry → Bool) : State :=
  let p (e : Entry) : Bool := s.unstarted e && dead e
  let lost := s.partnersOf p
  let s := if lost.isEmpty then s else s.everyEntry fun x => if lost.contains x.seq then
      { x with failed := some { cause := .jointMismatch, queue := 4 }, held := [], xf := [] } else x
  s.discard p

/-- A launch of a context has been cancelled. -/
def State.dead (s : State) (ctx lnum : Nat) : Bool := s.launches.any fun l => l.ctx == ctx && l.lnum == lnum && l.cancelled

/-- Stops what runs of the launches that have been cancelled: deck items and formed groups go, resident groups retire (one whose instruction has steps
left, at its next boundary), saved workgroups and unstarted commands go. -/
def State.sweep (s : State) : State :=
  if s.launches.all fun l => !l.cancelled then s
  else
    let s : State := { s with
      launches := s.launches.map fun l => if l.cancelled then
        { l with formed := [], decks := l.decks.map fun d => d.map fun k => { k with items := [] } } else l
      wgs := s.wgs.map fun w => if s.dead w.ctx w.lnum then
        { w with groups := w.groups.map fun g => if g.midway then g else g.halt (s.col (columnOf w.core)).epoch } else w }
    let gone := s.away.filter fun w => s.dead w.ctx w.lnum
    let s := gone.foldl (fun t w => t.dropAway w) s
    s.discardWork fun e => s.dead e.poster.ctx e.poster.lnum

/-- A group of a cancelled launch has come to the boundary at which it stops (06 R125). -/
def State.sweepDue (s : State) : Option State :=
  if s.wgs.any fun w => w.groups.any (fun g => g.retired.isNone && !g.midway) && s.dead w.ctx w.lnum then some s.sweep else none

/-- Cancels a unit that has not completed: it and every unit below it (log entry 26). -/
def State.cancelUnit (s : State) (ctx : Nat) (u : UnitRef) : State :=
  let below (x : WorkUnit) : Bool := match u with
    | .unit .job _ => true
    | .unit .phase o => (x.kind == .phase && x.object == o) || (x.kind == .graph && x.inPhase == o)
    | .unit .graph o => x.kind == .graph && x.object == o
    | _ => false
  let s1 : State := { s with
    launches := s.launches.map fun l => if l.ctx == ctx && l.live && s.inUnit ctx l.lnum u then
      { l with cancelled := true, status := .cancelling } else l
    units := s.units.map fun x => if x.ctx == ctx && below x && x.status == .running then
      { x with cancelled := true, closed := true, status := .cancelling } else x }
  s1.sweep

/-- FORK requests that columns still hold for a unit are cancelled with it: the children that they create start cancelled. DEDUCED (log entry 26): 06 R125
does not say what a CANCEL does to a forked launch that has not been taken. -/
def State.cancelForks (s : State) (ctx object : Nat) : State :=
  { s with cols := s.cols.map fun (k : Column) => { k with lb := k.lb.map fun e => match e.kind with
      | .fork c p d ms ts x => { e with kind := .fork c p d ms ts (x || (c == ctx && d.compl == object)) }
      | _ => e } }

/-- Applies a cancel request that has left its column, or comes from the host: a completed unit is not affected. -/
def State.cancelAt (s : State) (ctx object : Nat) : State :=
  match s.unitAt ctx object with
  | some (.launch n) => match s.launchOf ctx n with
    | some l => if l.live then s.cancelUnit ctx (.launch n) else s
    | none => s
  | some (.unit k o) => s.cancelUnit ctx (.unit k o)
  | some (.pending ..) => s.cancelForks ctx object
  | none => s

/-! ### Launches -/

/-- A launch as it is accepted: a deck for each declared one, its target at the launch's priority (13 R287). DESIGN CHOICE (log entry 70): a deck's
items stand in the launch; the storage that 21 R361 reserves for them at the target's COMPL has no layout in the spec, and nothing is written there.
-/
def mkLaunch (ctx lnum : Nat) (c : Checked) (prio now : Nat) : Launch :=
  { ctx, lnum, desc := { c.desc with prio }, macros := c.macros
    decks := c.desc.decks.zipIdx.map fun (d, k) => match d, c.targets.getD k none with
      | some bits, some t => some { cap := 2 ^ bits, target := { t with prio }, items := [], reserved := 0, seq := 0 }
      | _, _ => none
    parent := none, depth := 0, graph := 0, phase := 0, preds := [], tag := tagNone, prio, nextWg := 0, spawned := 0
    formed := [], readyAt := some now, placedAt := now, lost := false, cancelled := false, status := .running, finalCount := 0
    waitSince := now }

/-- A FORK request that has left its column creates its child (06 R138), cancelled where the request was. A child of a cancelled launch is cancelled with it
(log entry 32). -/
def State.takeFork (s : State) (ctx parent : Nat) (c : Checked) (cancelled : Bool := false) : State :=
  let k := s.ctx ctx
  let n := k.nextFork
  let s := s.setCtx ctx { k with nextFork := if n + 1 ≥ 2 ^ 32 then 0x02000000 else n + 1 }
  match s.launchOf ctx parent with
  | none => s
  | some p =>
    let l := mkLaunch ctx n c (min c.desc.prio p.prio) s.now
    { s with launches := s.launches ++ [{ l with readyAt := if k.held then none else some s.now, parent := some parent, depth := p.depth + 1, graph := p.graph, phase := p.phase
                                                 cancelled := cancelled || p.cancelled, status := if cancelled || p.cancelled then .cancelling else .running }] }

/-- A launch with an empty completion record is ready once every predecessor has completed clean (13 R288). -/
def State.predsOf (s : State) (l : Launch) : List Launch :=
  s.launches.filter fun p => p.ctx == l.ctx && l.preds.contains p.lnum

/-- A launch whose context is not being saved enters the ready set, once every predecessor has completed clean (13 R288). -/
def State.enterReady (s : State) (d : Launch) : State :=
  if !(s.ctx d.ctx).held && (s.predsOf d).all fun p => p.status == .clean then
    s.modLaunch d.ctx d.lnum fun x => if x.readyAt.isNone then { x with readyAt := some s.now, waitSince := s.now } else x
  else s

/-- After a launch of a graph has completed: its dependents become ready, or are cancelled. -/
def State.tellDependents (s : State) (l : Launch) : State :=
  let deps := s.launches.filter fun d => d.ctx == l.ctx && d.live && d.preds.contains l.lnum && d.parent.isNone
  deps.foldl (fun t d =>
    if (t.predsOf d).any fun p => !p.live && p.status != .clean then t.cancelUnit d.ctx (.launch d.lnum) else t.enterReady d) s

/-! ### Completion (06 R124, 05 R120) -/

/-- Every write of a launch has left quarantine and performed at its home. -/
def State.writesDone (s : State) (ctx lnum : Nat) : Bool :=
  !(s.cols.toList.any fun k => k.lb.any fun e => e.ctx == ctx && e.lnum == lnum) &&
  !(s.wq.any fun q => q.x.r.ctx == ctx && q.x.r.lnum == lnum) &&
  !(s.toPeers.any fun p => p.ctx == ctx && p.lnum == lnum && (OutKind.writer p.kind).isSome)

/-- The status a launch completes with. -/
def State.launchStatus (s : State) (l : Launch) : Status :=
  if l.cancelled then .cancelled
  else if !l.lost && (s.launches.all fun c => !(c.ctx == l.ctx && c.parent == some l.lnum) || c.status == .clean) then .clean
  else .faulted

/-- The status a graph, a phase or a job completes with. -/
def State.unitStatus (s : State) (u : WorkUnit) : Status :=
  let clean : Bool := match u.kind with
    | .graph => s.launches.all fun l => !(l.ctx == u.ctx && l.graph == u.object && l.parent.isNone) || l.status == .clean
    | .phase => s.units.all fun g => !(g.ctx == u.ctx && g.kind == .graph && g.inPhase == u.object) || g.status == .clean
    | _ => s.units.all fun g => !(g.ctx == u.ctx && g.kind == .phase) || g.status == .clean
  if u.cancelled then .cancelled else if clean then .clean else .faulted

/-- A record of kind 4 that names an address of no group (06 R124). -/
def lostWriteRecord (ctx lnum addr : Nat) : BitVec 512 :=
  mkRecord 4 false { ctx, lnum, wg := 0, grp := 0 } 0 15 0 0 0 { cause := .lostReduction, addr }

/-- Advances a completion object in one write step of the dispatcher: `true` once it has, the state where a step of its walk has been taken; an object
that cannot be reached, or whose data are uncorrectable (log entry 31), is reported. None where the step must wait. -/
def State.advanceObject (s : State) (ctx lnum addr : Nat) : Option (Bool × State) :=
  match s.walkRange ctx .write (cut4k addr 16) with
  | .error .held => none
  | .error (.more t) => some (false, t)
  | .error (.fault _ t) => some (true, t.sendRecord none ctx lnum (lostWriteRecord ctx lnum addr))
  | .ok (ls, t) =>
    if ls.any fun p => t.heldOff none p.1 p.2 then none
    else
      match ls with
      | (l, n) :: _ =>
        match t.meet l n with
        | (some _, u) => some (true, u.sendRecord none ctx lnum (lostWriteRecord ctx lnum addr))
        | (none, u) => some (true, u.put l (leBytes 4 (leNat (t.bytesAt l 4) + 1)))
      | [] => some (true, t)

/-- What follows the advance of a completion object, once it has been made. -/
def afterAdvance (x : Option (Bool × State)) (f : State → State) : Option State := x.map fun p => if p.1 then f p.2 else p.2

/-- Number of a kind of unit in a DONE event (log entry 16). -/
def UnitKind.num : UnitKind → Nat | .launch => 0 | .graph => 1 | .phase => 2 | .job => 3

/-- A DONE event (Table 21.3): the kind, the object and the status. -/
def State.done (s : State) (ctx : Nat) (kind : UnitKind) (object : Nat) (st : Status) (tag : Word) : State :=
  s.send [] ctx 0 (mkEvent ctx 0x83 0 tag 0 (leBytes 1 kind.num ++ leBytes 8 object ++ leBytes 1 st.code))

/-- A launch completes. -/
def State.completeLaunch (s : State) (l : Launch) : Option State :=
  let st := s.launchStatus l
  afterAdvance (s.advanceObject l.ctx l.lnum l.desc.compl) fun t =>
    let t := t.modLaunch l.ctx l.lnum fun x => { x with status := st, finalCount := 0 }
    (t.done l.ctx .launch l.desc.compl st l.tag).tellDependents { l with status := st }

/-- Removes the pins of a context; the lines stay as copies (02 R43). -/
def Cluster.unpin (k : Cluster) (ctx : Nat) : Cluster := { k with pins := k.pins.filter fun p => p.ctx != ctx }

/-- The graphs and phases of a context, as they are remembered after its job. -/
def State.pastOf (s : State) (ctx : Nat) : List PastUnit :=
  (s.units.filter fun u => u.ctx == ctx && u.kind != .job).map fun u =>
    { kind := u.kind, object := u.object, inPhase := u.inPhase
      lnums := if u.kind == .graph then (s.launches.filter fun l => l.ctx == ctx && l.graph == u.object && l.parent.isNone).map (·.lnum) else [] }

/-- A graph, a phase or a job completes. When a job ends, its units are forgotten, but for what accepts no further launch, and its pins are
dropped. -/
def State.completeUnit (s : State) (u : WorkUnit) : Option State :=
  let st := s.unitStatus u
  afterAdvance (s.advanceObject u.ctx 0 u.object) fun t =>
    let t : State := { t with units := t.units.map fun x => if x.ctx == u.ctx && x.kind == u.kind && x.object == u.object then { x with status := st } else x }
    let t := t.done u.ctx u.kind u.object st tagNone
    if u.kind == .job then
      { t.setCtx u.ctx { t.ctx u.ctx with past := (t.ctx u.ctx).past ++ t.pastOf u.ctx } with
               launches := t.launches.filter fun l => l.ctx != u.ctx
               units := t.units.filter fun x => x.ctx != u.ctx || x.kind == .job
               clusters := t.clusters.map fun (k : Cluster) => k.unpin u.ctx }
    else t

/-- A launch whose counter is zero and whose writes have performed. -/
def State.launchDue (s : State) (l : Launch) : Bool := l.live && s.launchCount l == 0 && s.writesDone l.ctx l.lnum

/-- A unit that accepts no more work and whose counter is zero. -/
def State.unitDue (s : State) (u : WorkUnit) : Bool :=
  (u.status == .running || u.status == .cancelling) && (u.closed || (u.kind == .job && (s.ctx u.ctx).jobEnd)) &&
  s.unitCount u.kind u.ctx u.object == 0

/-- UNIT_COMPLETION of a unit named by its completion object. -/
def State.unitCompletion (s : State) (ctx object : Nat) : Option State :=
  match s.launches.find? fun l => l.ctx == ctx && l.desc.compl == object && s.launchDue l with
  | some l => s.completeLaunch l
  | none =>
    match s.units.find? fun u => u.ctx == ctx && u.object == object && s.unitDue u with
    | some u => s.completeUnit u
    | none => none

/-! ### WORKGROUP_TERMINATION (06 R133, 12 R273) -/

/-- The rest of a termination, once its epoch is confirmed and its other groups have come to an instruction boundary: the records leave, the groups
are gone, unstarted commands are discarded; the workgroup's resources follow when its commands have completed (log entry 40). -/
def State.terminateWg (s : State) (r : WRef) : Option State :=
  match s.wgs.find? fun w => w.isOf r.ctx r.lnum r.wg with
  | none => none
  | some w =>
    match w.ending with
    | none => none
    | some e =>
      let going (g : Group) : Bool := g.retired.isNone && g.midway
      if !(s.col (columnOf w.core)).confirmed e.epoch || (s.col (columnOf w.core)).rolling || w.groups.any going then none
      else
        let s := e.records.foldl (fun t rec => t.sendRecord none r.ctx r.lnum rec) s
        let s := s.everyWg (fun v => v.isOf r.ctx r.lnum r.wg) fun v => { v with groups := [], ending := none, saving := false }
        let s := s.modLaunch r.ctx r.lnum fun l => { l with lost := true }
        some (s.discardWork fun x => w.isOf x.poster.ctx x.poster.lnum x.poster.wg).reap

def execUnitCompletion (ctx object : Nat) (s : State) : Host.Outcome State Fault Refusal := .next ((s.unitCompletion ctx object).getD s)
def execWorkgroupTermination (w : WRef) (s : State) : Host.Outcome State Fault Refusal := .next ((s.terminateWg w).getD s)

end Sys2Proof.Machine
end

