-- ==== Sys2Proof/Machine/Links.lean ====
section
/-!
DEFINITION. The egress gate (05 R117, 21 R358), peer traffic (21 R362, R363, 05 R118, R119) and the links (21 R364, R365).
-/

namespace Sys2Proof.Machine

def State.chan (s : State) (c : Nat) : Channel := s.chans[c]?.getD Channel.reset
def State.setChan (s : State) (c : Nat) (k : Channel) : State := { s with chans := s.chans.setIfInBounds c k }
def State.port (s : State) (n : Nat) : Port := s.ports[n]?.getD Port.reset
def State.setPort (s : State) (n : Nat) (p : Port) : State := { s with ports := s.ports.setIfInBounds n p }

/-! ### Outbound packets -/

/-- The peer a packet goes to. -/
def OutKind.fep : OutKind → Option Nat
  | .event .. => none
  | .peerWrite f .. | .peerRed f .. | .peerAtom f .. | .peerReply f .. => some f
  | .peerObj a _ => some a.fep

/-- The ordered stream of a packet: a channel, or a peer. -/
def OutKind.stream : OutKind → Nat ⊕ Nat
  | .event c _ => .inl c
  | k => .inr ((OutKind.fep k).getD 0)

/-- Every step whose data a packet carries is confirmed. -/
def State.cleared (s : State) (p : OutPkt) : Bool := p.deps.all fun d => (s.col d.1).confirmed d.2

/-- The record of a write that a peer refused or that goes to a failed peer (21 R362, R363, log entry 31). -/
def lostPeerWrite (k : OutKind) : Option (BitVec 512) :=
  let mk (pa : Nat) (x : Writer) : BitVec 512 :=
    mkRecord 4 false x.r x.core 15 x.iaddr 0 x.tid
      { cause := .lostReduction, addr := pa, lanes := ((x.lane.map fun l => 1#64 <<< l).getD 0) }
  match k with
  | .peerWrite _ _ pa _ x => some (mk pa x)
  | .peerRed _ _ pa _ _ _ x => some (mk pa x)
  | _ => none

/-- A write that is discarded, with its record. -/
def State.losePeerWrite (s : State) (p : OutPkt) : State :=
  match lostPeerWrite p.kind with
  | some r => s.sendRecord none p.ctx p.lnum r
  | none => s

/-- Sends a released packet: an event takes the next ESEQ of its channel and is retained; a write to a peer awaits its acknowledgement, an atomic's or an
object's step its answer. -/
def State.depart (s : State) (p : OutPkt) : State :=
  match p.kind with
  | .event c e =>
    if e.op == 0x86 || e.eseq != 0 then s
    else
      let k := s.chan c
      let e := { e with eseq := k.eseq + 1 }
      s.setChan c { k with eseq := k.eseq + 1, log := (k.log ++ [e]).drop (k.log.length + 1 - 4096) }
  | .peerWrite f .. | .peerRed f .. =>
    if s.failedPeers.contains f then s.losePeerWrite p else { s with peerWrites := s.peerWrites ++ [p] }
  | .peerAtom f .. | .peerObj { fep := f, .. } _ => if s.failedPeers.contains f then s else { s with peerSteps := s.peerSteps ++ [p] }
  | .peerReply .. => s

/-- A port that carries a packet runs: one that reaches its peer, or any for an event. A packet waits while every such port retrains or recovers,
and leaves in its order afterwards; what a port's retry buffer holds for replay has left in that order already (21 R364, R365, log entry 66). -/
def State.carried (s : State) (k : OutKind) : Bool :=
  (match k.fep with | some f => s.portsTo f | none => s.ports.toList).any fun p => p.link == LinkState.up

/-- EGRESS_RELEASE of packet n: a stream keeps its order among packets that may leave. -/
def State.egress (s : State) (n : Nat) : Option State :=
  match s.out[n]? with
  | none => none
  | some p =>
    let lost := match OutKind.fep p.kind with | some f => s.failedPeers.contains f | none => false
    if !s.cleared p || !(lost || s.carried p.kind) || (s.out.take n).any fun q => OutKind.stream q.kind == OutKind.stream p.kind && s.cleared q then none
    else some (({ s with out := s.out.eraseIdx n } : State).depart p)

/-! ### Incoming peer accesses (21 R362) -/

/-- Entries of a peer table are read in ascending order until one is valid and names the endpoint (log entry 44). -/
def State.tableHas (s : State) (peert fep : Nat) : List Nat → Bool × State
  | [] => (false, s)
  | i :: is =>
    let l : Loc := ⟨.dram, peert + 16 * i⟩
    let e := leNat (s.bytesAt l 16)
    match s.meet l 16 with
    | (some _, t) => t.tableHas peert fep is
    | (none, t) => if e.testBit 63 && bits e 31 0 == fep then (true, t) else t.tableHas peert fep is

/-- Whether the peer table of a context holds a valid entry of an endpoint; none where the table must be waited for (log entry 44). -/
def State.admitsFrom (s : State) (ctx fep : Nat) : Option (Bool × State) :=
  let k := s.ctx ctx
  if ctx ≥ 64 || !k.valid || k.peern == 0 then some (false, s)
  else if s.heldOff none ⟨.dram, k.peert⟩ (16 * (k.peern + 1)) then none
  else some (s.tableHas k.peert fep (List.range (k.peern + 1)))

def State.reply (s : State) (a : PeerAccess) (ok : Bool) (bs : List Byte) : State := s.send [] a.ctx 0 (.peerReply a.fep a.tag ok bs)

/-- What a step on bytes here makes of them, if it stores (10 R232, 05 R103, R106, R107): an object's step needs SCOPE 6, and one that its fault would
forbid stores nothing; the sender judges that from the bytes as they stood. -/
def peerNew (op : PeerOp) (old : List Byte) : Option (List Byte) :=
  let v := leNat old
  match op with
  | .read | .ask => none
  | .write bs => some bs
  | .atomic o ty arg new => (atomNew o ty v arg new).map (leBytes (tyBytes ty))
  | .arrive n => if barScope v == 6 && n < 2 ^ 31 then (barArrive v n).map (leBytes 16) else none
  | .land n => if barScope v == 6 then (barLand v n).map (leBytes 16) else none
  | .release => if ringN v == 0 || ringR v == ringW v then none else some (leBytes 32 (v % 2 ^ 224 + (ringR v + 1) % ringQ v * 2 ^ 224))
  | .semaphore up n =>
    let k := semCount v
    if semScope v != 6 || n ≥ 2 ^ 31 || (if up then k + n ≥ 2 ^ 31 else k < n) then none
    else some (leBytes 8 (v / 2 ^ 32 * 2 ^ 32 + if up then k + n else k - n))
  | .fill ring bar => match bar with
    | none => (ringFill ring v).map (leBytes 32)
    | some _ =>
      let r := leNat (old.take 32)
      (ringFill ring r).bind fun r' => (barAdd (leNat (old.drop 32)) (ringSize r)).map fun b => leBytes 32 r' ++ leBytes 16 b
  | .add n => (barAdd v n).map (leBytes 16)

/-- Bytes that an access reaches. -/
def peerWidth (a : PeerAccess) : Nat :=
  match a.op with
  | .read | .ask => a.len
  | .write bs => bs.length
  | .atomic _ ty _ _ => tyBytes ty
  | .arrive _ | .land _ | .add _ => 16
  | .release | .fill .. => 32
  | .semaphore .. => 8

/-- The ranges that an access reaches: one, or a ring and its slot's barrier. -/
def peerSpans (a : PeerAccess) : List (Loc × Nat) :=
  (⟨.dram, a.pa⟩, peerWidth a) :: match a.op with | .fill _ (some b) => [(⟨.dram, b⟩, 16)] | _ => []

/-- Reads ranges in turn: whether some unit is uncorrectable, and the state after it. -/
def State.meetEach (s : State) (ls : List (Loc × Nat)) : Bool × State :=
  ls.foldl (fun a l => let (b, t) := a.2.meet l.1 l.2; (a.1 || b.isSome, t)) (false, s)

/-- Writes a byte string over ranges in turn. -/
def State.putEach (s : State) : List (Loc × Nat) → List Byte → State
  | [], _ => s
  | l :: ls, bs => (s.put l.1 (bs.take l.2)).putEach ls (bs.drop l.2)

/-- PEER_ACCESS: admitted and performed as a port step, or refused, as is one outside DRAM; the reply carries a poison mark for a refusal and for
uncorrectable data (20 R347). A question changes nothing. None while the step must wait. -/
def State.peerAccess (s : State) (a : PeerAccess) : Option State :=
  match s.admitsFrom a.ctx a.fep with
  | none => none
  | some (adm, s) =>
    let ls := peerSpans a
    if !adm || (ls.any fun l => l.1.addr + max 1 l.2 > dramEnd) then some (s.reply a false [])
    else match a.op with
      | .ask => some (s.reply a true [])
      | .write bs => if ls.any fun l => s.heldOff none l.1 l.2 then none else some ((s.putEach ls bs).reply a true [])
      | op =>
        if ls.any fun l => s.heldOff none l.1 l.2 then none
        else
          let old := ls.flatMap fun l => s.bytesAt l.1 l.2
          match s.meetEach ls with
          | (true, t) => some (t.reply a false [])
          | (false, t) => some ((match peerNew op old with | some bs => t.putEach ls bs | none => t).reply a true old)

/-! ### Refusals, acknowledgements, failed peers -/

/-- A read or an atomic of this device that waits for a peer: the k-th open question of a group, the k-th lane left of its atomic, or the step or the
look at a ring of the command at the head of a queue. -/
inductive PeerRead
  | asked (r : GRef) (k : Nat)
  | atomic (r : GRef) (k : Nat)
  | land (q : QRef)
  deriving DecidableEq, Repr

/-- Reads of peers in flight: each group's questions and its atomic's lanes, then the engines' land steps. -/
def State.peerReads (s : State) : List PeerRead :=
  let gs := s.wgs.flatMap fun w => w.groups.map fun g => (({ ctx := w.ctx, lnum := w.lnum, wg := w.wg, grp := g.id } : GRef), w, g)
  (gs.flatMap fun p =>
    ((List.range ((s.questions p.1 p.2.1 p.2.2).length + p.2.2.pendAsks.length)).map fun k => .asked p.1 k) ++
    match p.2.2.wait with
    | .atomic q => (q.alive p.2.2.live).lanes.zipIdx.filterMap fun (a, k) => if a.peer.isSome && !q.red then some (.atomic p.1 k) else none
    | _ => []) ++
  (List.range 256).flatMap fun c => (List.range 5).filterMap fun q => match s.head { core := c, q } with
    | some e => if (e.asked.isSome && e.reply.isNone) || (s.peeks { core := c, q } e).isSome then some (.land { core := c, q }) else none
    | none => none

/-- Poison arrives for a read or an atomic in flight (06 R131). -/
def State.poison (s : State) : PeerRead → Option State
  | .asked r k => s.acting r (s.peerReply r k none)
  | .atomic r k => s.acting r (s.atomicPerform r k [])
  | .land q => s.peerLanded q none

/-- PEER_REFUSAL_REPLY: n counts the writes that await an acknowledgement, then the reads in flight. -/
def State.refusal (s : State) (n : Nat) : Option State :=
  match s.peerWrites[n]? with
  | some p => some (({ s with peerWrites := s.peerWrites.eraseIdx n } : State).losePeerWrite p)
  | none => match s.peerReads[n - s.peerWrites.length]? with
    | some x => s.poison x
    | none => none

/-- Copies of the lines that a packet writes at its peer go (05 R119). -/
def State.dropFor (s : State) (k : OutKind) : State := k.peerRanges.foldl (fun t u => t.dropPeer u.1 u.2.1 u.2.2) s

/-- Who put a question to a peer still waits for the answer. -/
def State.awaitsAnswer (s : State) : OutKind → Bool
  | .peerAtom fep pctx pa op ty arg new x => match s.group? x.r with
    | some (_, g) => match g.wait with
      | .atomic q => (q.alive g.live).lanes.any fun a => q.isAsk x.r g.pc.toNat a (.peerAtom fep pctx pa op ty arg new x)
      | _ => false
    | none => false
  | .peerObj a x =>
    (match s.group? x.r with | some (w, g) => (s.questions x.r w g).contains a | none => false) ||
    (List.range 5).any fun q => match s.head { core := x.core, q } with
      | some e => e.asked == some a && e.reply.isNone && e.writer x.core == x
      | none => false
  | _ => false

/-- PEER_WRITE_ACK (05 R118): the write has performed, and no copy of its lines that is older stays (R119). Beyond the writes, n counts the steps of
atomics and objects at peers: one whose answer nobody waits for any more is done with. -/
def State.writeAck (s : State) (n : Nat) : Option State :=
  match s.peerWrites[n]? with
  | some p => some (({ s with peerWrites := s.peerWrites.eraseIdx n } : State).dropFor p.kind)
  | none =>
    let i := n - s.peerWrites.length
    match s.peerSteps[i]? with
    | some p => if s.awaitsAnswer p.kind then none else some (({ s with peerSteps := s.peerSteps.eraseIdx i } : State).dropFor p.kind)
    | none => none

/-- PEER_COPY_EXPIRY: 2 µs after the copy's bytes were asked for (05 R119). DESIGN CHOICE (log entry 75): a copy is replaced in the L2 before then where
a move of the schedule says so (`Move.evictPeer`), and never else; 02 R52 leaves the replacement open. -/
def State.copyExpiry (s : State) (n : Nat) : Option State :=
  match s.peerCopies[n]? with
  | some c => if c.at_ + 8000 ≤ s.now then some { s with peerCopies := s.peerCopies.eraseIdx n } else none
  | none => none

/-- Recovery of a port has lasted 500 ms. -/
def Port.lost (p : Port) (now : Nat) : Bool := match p.link with | .recovery t => t + 2000000000 ≤ now | .down => true | _ => false

/-- PEER_FAILED, of a peer whose every port has been in recovery for 500 ms (so at once of one that no port reaches): writes to the peer are
discarded, each with a record; its reads meet poison when they are delivered. -/
def State.peerFail (s : State) (fep : Nat) : Option State :=
  if s.failedPeers.contains fep || !((s.portsTo fep).all fun p => p.lost s.now) then none
  else
    let mine (p : OutPkt) : Bool := OutKind.fep p.kind == some fep
    let gone := s.peerWrites.filter mine
    let s : State := { s with failedPeers := s.failedPeers ++ [fep]
                              peerWrites := s.peerWrites.filter fun p => !mine p
                              peerSteps := s.peerSteps.filter fun p => !mine p }
    some (gone.foldl (fun t p => t.losePeerWrite p) s)

/-! ### Links (21 R364, R365) -/

/-- LANE_SHED: one step narrower, or into recovery below 2 lanes. -/
def State.laneShed (s : State) (n lanes : Nat) : Option State :=
  let p := s.port n
  if n ≥ 16 || p.link != .up then none
  else if p.lanes > 2 && lanes == p.lanes / 2 then some (s.setPort n { p with lanes, link := .retraining })
  else if p.lanes == 2 && lanes == 0 then some (s.setPort n { p with link := .recovery s.now })
  else none

def State.retrained (s : State) (n : Nat) : Option State :=
  let p := s.port n
  if p.link == .retraining then some (s.setPort n { p with link := .up, quietSince := s.now }) else none

/-- UPSHIFT_TRY: after 60 s without error at a shed width, an automatic port tries one step up. -/
def State.upshift (s : State) (n : Nat) (holds : Bool) : Option State :=
  let p := s.port n
  if n < 16 && p.link == .up && p.mode == 0 && p.lanes < 8 && p.quietSince + 240000000000 ≤ s.now then
    some (s.setPort n { p with lanes := if holds then 2 * p.lanes else p.lanes, link := .retraining })
  else none

/-- The width a port trains to. -/
def Port.full (p : Port) : Nat := if p.mode == 0 then 8 else p.mode

/-- A port's recovery succeeds, before it has lasted the 500 ms at which it is abandoned (21 R365), and the peers that it reaches are no longer failed
(R363). -/
def State.recovered (s : State) (n : Nat) : Option State :=
  let p := s.port n
  if p.lost s.now then none else
  match p.link with
  | .recovery _ => some { (s.setPort n { p with link := .up, lanes := p.full, quietSince := s.now }) with
      failedPeers := s.failedPeers.filter fun f => !p.reaches f }
  | _ => none

/-- The endpoints that a port reaches change (log entry 54). -/
def State.rewire (s : State) (n : Nat) (reach : Option (List Nat)) : State :=
  let p : Port := { s.port n with reach }
  { (s.setPort n p) with failedPeers := if p.recovering then s.failedPeers else s.failedPeers.filter fun f => !p.reaches f }

def State.abandoned (s : State) (n : Nat) : Option State :=
  let p := s.port n
  match p.link with
  | .recovery t => if t + 2000000000 ≤ s.now then some (s.setPort n { p with link := .down }) else none
  | _ => none

/-- The SEQQUERY event of a channel: last executed CSEQ, last ESEQ sent; it carries ESEQ 0. -/
def State.seqEvent (s : State) (c : Nat) (tag cseq : Word) : State :=
  s.send [] c 0 (mkEvent c 0x86 0 tag cseq (leBytes 4 (s.chan c).last.toNat ++ leBytes 4 (s.chan c).eseq.toNat))

def State.reconnect (s : State) (c : Nat) : Option State := if c < 65 then some (s.seqEvent c tagNone 0) else none

def execEgressRelease (n : Nat) (s : State) : Host.Outcome State Fault Refusal := .next ((s.egress n).getD s)
def execPeerAccess (a : PeerAccess) (s : State) : Host.Outcome State Fault Refusal := .next ((s.peerAccess a).getD s)
def execPeerRefusalReply (n : Nat) (s : State) : Host.Outcome State Fault Refusal := .next ((s.refusal n).getD s)
def execPeerWriteAck (n : Nat) (s : State) : Host.Outcome State Fault Refusal := .next ((s.writeAck n).getD s)
def execPeerCopyExpiry (n : Nat) (s : State) : Host.Outcome State Fault Refusal := .next ((s.copyExpiry n).getD s)
def execPeerFailed (fep : Nat) (s : State) : Host.Outcome State Fault Refusal := .next ((s.peerFail fep).getD s)
def execLaneShed (port lanes : Nat) (s : State) : Host.Outcome State Fault Refusal := .next ((s.laneShed port lanes).getD s)
def execRetrainComplete (port : Nat) (s : State) : Host.Outcome State Fault Refusal := .next ((s.retrained port).getD s)
def execUpshiftTry (port : Nat) (holds : Bool) (s : State) : Host.Outcome State Fault Refusal := .next ((s.upshift port holds).getD s)
def execLinkRecoverySuccess (port : Nat) (s : State) : Host.Outcome State Fault Refusal := .next ((s.recovered port).getD s)
def execLinkRecoveryAbandon (port : Nat) (s : State) : Host.Outcome State Fault Refusal := .next ((s.abandoned port).getD s)
def execConnectionReestablished (channel : Nat) (s : State) : Host.Outcome State Fault Refusal := .next ((s.reconnect channel).getD s)

end Sys2Proof.Machine
end

