-- ==== Sys2Proof/Machine/Image.lean ====
section
/-!
DEFINITION. The save image of a group (12 R281, Tables 12.8 and 12.9): writing it and reading it back.
-/

namespace Sys2Proof.Machine

/-! ### Writing -/

/-- The 64 bytes of a walker. -/
def Walker.image (k : Walker) : List Byte :=
  leBytes 8 k.base.toNat ++ (k.n.toList.flatMap fun x => leBytes 4 x.toNat) ++ (k.stride.toList.flatMap fun x => leBytes 5 x.toNat) ++
  (k.i.toList.flatMap fun x => leBytes 4 x.toNat) ++ [BitVec.ofNat 8 (tyNat k.ty), BitVec.ofNat 8 (k.eod.toNat + if k.done then 16 else 0)] ++
  List.replicate 7 0

/-- The bytes of a register in an image: its stored map and values, padded to a multiple of 8. -/
def vregImage (r : VReg) : List Byte :=
  let m := vmap r
  leBytes 8 m.toNat ++ ((lanesOf m).flatMap fun l => leBytes 4 (vget r l).toNat) ++ (if popc m % 2 == 1 then leBytes 4 0 else [])

/-- Header fields that an image states apart from the group's registers. -/
structure ImageHead where
  pc : DWord
  mstep : Nat
  hm : Bool

/-- A group's save image. -/
def Group.image (g : Group) (nreg : Nat) (h : ImageHead) : List Byte :=
  let dir := ofBits 128 fun n => vmap (g.vreg n) != 0
  let body := (g.s.toList.flatMap fun x => leBytes 4 x.toNat) ++ ((List.range 14).flatMap fun k => leBytes 8 (g.m[k]?.getD 0).toNat) ++
    ((List.range 8).flatMap fun k => (g.walker k).image) ++ (g.tid.toList.flatMap fun x => leBytes 4 x.toNat) ++ leBytes 16 dir ++
    ((List.range 128).flatMap fun n => if dir.testBit n then vregImage (g.vreg n) else [])
  let frame := if h.hm then
      leBytes 8 g.tpc.toNat ++ leBytes 8 g.taddr.toNat ++ leBytes 8 g.tmap.toNat ++ leBytes 4 g.tcause.toNat ++ leBytes 4 g.taux.toNat ++
        List.replicate 32 0
    else []
  let size := 64 + body.length + frame.length
  let pred := (List.range 7).foldl (fun a k => if g.preg k then a + 2 ^ k else a) 128
  let tok := (List.range 6).foldl (fun a k => if g.tokBusy k then a + 2 ^ k else a) 0
  let head := fields
    [(1, 0, 8), (nreg, 8, 8), (size, 16, 16), (pred, 32, 8), (tok, 40, 6), (if h.hm then 1 else 0, 46, 1), (h.mstep, 48, 8),
     (h.pc.toNat, 64, 48), (g.live.toNat, 128, 64), (g.dead.toNat, 192, 64), (g.gstat.toNat, 256, 32), (g.srseed.toNat, 288, 32),
     (g.srn.toNat, 320, 32), (g.mstat.toNat, 352, 32), (g.wdog.toNat, 384, 32), (g.waitCnt / 4000, 416, 32),
     (if g.chk then 1 else 0, 457, 1), (if g.trapb.getLsbD 0 then 1 else 0, 458, 1), (bits g.trapb.toNat 47 11, 459, 37),
     (g.runCnt / 4000000, 496, 16)]
  leBytes 64 head ++ body ++ frame

/-! ### Reading -/

def Walker.ofImage (bs : List Byte) : Walker :=
  let v := leNat bs
  let f (lo n : Nat) : Nat := v / 256 ^ lo % 256 ^ n
  let w (lo : Nat) : Word := BitVec.ofNat 32 (f lo 4)
  let st (lo : Nat) : BitVec 40 := BitVec.ofNat 40 (f lo 5)
  { base := BitVec.ofNat 64 (f 0 8), ty := tyOfNat (f 55 1 % 16), n := #v[w 8, w 12, w 16, w 20], stride := #v[st 24, st 29, st 34]
    i := #v[w 39, w 43, w 47, w 51], eod := BitVec.ofNat 4 (f 56 1), done := f 56 1 / 16 % 2 == 1 }

/-- Registers of an image from the first on, for the directory's set bits: the registers and the bytes that follow; none where the bytes
end too soon. -/
def readVregs (dir : Nat) : List Nat → List Byte → Option (List (Nat × VReg) × List Byte)
  | [], bs => some ([], bs)
  | n :: ns, bs =>
    if !dir.testBit n then readVregs dir ns bs
    else if bs.length < 8 then none
    else
      let m : LaneMap := BitVec.ofNat 64 (leNat (bs.take 8))
      let len := (4 * popc m + 7) / 8 * 8
      let d := bs.drop 8
      if d.length < len then none
      else
        let r : VReg := (lanesOf m).zipIdx.map fun (l, i) => (l, BitVec.ofNat 32 (leNat ((d.drop (4 * i)).take 4)))
        (readVregs dir ns (d.drop len)).map fun (rs, t) => ((n, r) :: rs, t)

/-- The group that GREST restores from the bytes of an image; none for a save-image fault (12 R285): a reserved bit may stand in the header, in GSTAT
or in MSTAT. -/
def Group.ofImage (g : Group) (nreg : Nat) (bs : List Byte) : Option (Group × Nat) :=
  let h := leNat (bs.take 64)
  let size := bits h 31 16
  let dir := leNat ((bs.drop 1200).take 16)
  let live : LaneMap := BitVec.ofNat 64 (bits h 191 128)
  let dead : LaneMap := BitVec.ofNat 64 (bits h 255 192)
  let flags := bits h 287 263 != 0 || bits h 383 359 != 0 || h.testBit 355
  if flags || bits h 7 0 != 1 || bits h 15 8 != nreg % 256 || bs.length < 1216 || size < 1216 || bits h 456 448 != 0 || bits h 127 112 != 0 || bits h 63 56 != 0 ||
      bits h 47 47 != 0 || bits h 46 46 != 0 || live == 0 || live &&& dead != 0 || dir ≥ 2 ^ nreg then none
  else match readVregs dir (List.range 128) ((bs.take size).drop 1216) with
    | some (rs, []) =>
      let word (lo : Nat) : Word := BitVec.ofNat 32 (leNat ((bs.drop lo).take 4))
      let dword (lo : Nat) : DWord := BitVec.ofNat 64 (leNat ((bs.drop lo).take 8))
      let g1 : Group := { g with
        pc := BitVec.ofNat 64 (bits h 111 64)
        v := Vector.ofFn fun (n : Fin 128) => ((rs.find? fun p => p.1 == n.val).map (·.2)).getD []
        vbad := []
        s := Vector.ofFn fun (n : Fin 64) => word (64 + 4 * n.val)
        m := Vector.ofFn fun (n : Fin 14) => dword (320 + 8 * n.val)
        w := Vector.ofFn fun (n : Fin 8) => Walker.ofImage ((bs.drop (432 + 64 * n.val)).take 64)
        tid := Vector.ofFn fun (n : Fin 64) => word (944 + 4 * n.val)
        p := Vector.ofFn fun (n : Fin 7) => h.testBit (32 + n.val)
        live, dead
        gstat := BitVec.ofNat 32 (bits h 287 256), srseed := BitVec.ofNat 32 (bits h 319 288), srn := BitVec.ofNat 32 (bits h 351 320)
        mstat := BitVec.ofNat 32 (bits h 383 352), wdog := BitVec.ofNat 32 (bits h 415 384), waitCnt := 4000 * bits h 447 416
        chk := h.testBit 457
        trapb := BitVec.ofNat 64 (bits h 495 459 * 2048 + bits h 458 458)
        runCnt := 0, handler := false, tok := Vector.replicate 6 false, tokAt := [], mcall := none }
      some (g1, bits h 55 48)
    | _ => none

end Sys2Proof.Machine
end

