-- ==== Sys2Proof/Machine/Column.lean ====
section
/-!
DEFINITION. Columns (05 R111-R116): epochs and their confirmation, the landing buffer's drain, strike reports and rollbacks
(20 R341-R346), the refetch of a clean L2 line and the end of a scrub.
-/

namespace Sys2Proof.Machine

/-- The state of a column that a rollback restores, as an epoch begins (02 R49). -/
def State.snap (s : State) (c epoch : Nat) : Snap :=
  { epoch, wgs := s.wgs.filter fun w => columnOf w.core == c
    cores := (coresOf c).map fun k => (k, s.core k)
    fifos := (clustersOfCol c).map fun k => (k, (s.cluster k).fifos) }

/-! ### Epochs (05 R111) -/

/-- EPOCH_END: 128 ns after its start an epoch ends and the next begins. -/
def State.epochEnd (s : State) (c : Nat) : Option State :=
  let k := s.col c
  if c ≥ 32 || k.rolling || s.now < k.start + 512 then none
  else some (s.setCol c { k with ended := k.ended ++ [(k.epoch, k.start + 512)], epoch := k.epoch + 1, start := k.start + 512
                                 snaps := k.snaps ++ [s.snap c (k.epoch + 1)] })

def Undo.epoch : Undo → Nat | .mem e .. | .ident e .. | .bad e .. => e

/-- A retained command may go: every step of it is confirmed; of a joint operation, every step of every member (05 R100, 11 R265). -/
def State.keptDone (s : State) (core : Nat) (e : Entry) : Bool :=
  let own (core : Nat) (e : Entry) : Bool :=
    let k := s.col (columnOf core)
    k.confirmed e.epoch && (e.data ++ e.lands).all fun r => k.confirmed r.epoch
  match e.cmd with
  | .mloopj .. => own core e && (List.range 4).all fun m => (memberCores (standOf core) m).all fun c =>
      !((s.core c).mx.any fun x => x.seq == e.partner m) &&
      (s.core c).kept.all fun x => x.seq != e.partner m || own c x
  | _ => own core e && e.index.all fun r => (s.col (columnOf core)).confirmed r.epoch

/-- Items of a SPAWN enter their deck together, and their reservation ends (06 R136); a cancelled launch takes none. -/
def State.itemsEnter (s : State) (ctx lnum k : Nat) (items : List Item) : State :=
  let dead := ((s.launchOf ctx lnum).map (·.cancelled)).getD true
  s.modDeck ctx lnum k fun d =>
    { d with reserved := d.reserved - items.length
             items := if dead then d.items else d.items ++ items.map fun i => { i with at_ := s.now } }

/-- The SPAWNs of a confirmed epoch leave the landing buffer for their decks: items enter in the order of confirmation (06 R136). -/
def State.enterDecks (s : State) (c e : Nat) : State :=
  let k := s.col c
  let due (x : LbEntry) : Bool := x.epoch ≤ e && match x.kind with | .spawn .. => true | _ => false
  (k.lb.filter due).foldl (fun t x => match x.kind with
    | .spawn ctx lnum d items => t.itemsEnter ctx lnum d items
    | _ => t) (s.setCol c { k with lb := k.lb.filter fun x => !due x })

/-- Operand bytes of joint loops go with the last entry of the operation on their core (11 R265). -/
def State.dropKData (s : State) : State :=
  { s with kdata := s.kdata.filter fun d => ((s.core d.core).mx ++ (s.core d.core).kept).any fun e => e.seq == d.seq }

/-- Releases what the confirmation of an epoch of a column lets go: slots of retired groups, retained commands, workgroups (02 R33, R49,
05 R100, 08 R177). -/
def State.confirmRelease (s : State) (c e : Nat) : State :=
  let gone (g : Group) : Bool := match g.retired with | some r => r ≤ e | none => false
  let s : State := { s with wgs := s.wgs.map fun w => if columnOf w.core == c then
    { w with groups := w.groups.filter fun g => !gone g } else w }
  let s := (coresOf c).foldl (fun t n =>
    let k := t.core n
    if k.kept.isEmpty then t else t.setCore n { k with kept := k.kept.filter fun x => !s.keptDone n x }) s
  s.dropKData.reap

/-- EPOCH_CONFIRMATION: no report came up to and including 100 ns after the end of the oldest epoch. -/
def State.confirmEpoch (s : State) (c : Nat) : Option State :=
  let k := s.col c
  match k.ended with
  | [] => none
  | (e, t) :: rest =>
    if k.rolling || s.now ≤ t + 400 then none
    else some (((s.setCol c { k with ended := rest, undo := k.undo.filter fun u => e < u.epoch
                                     snaps := k.snaps.filter fun n => e < n.epoch }).enterDecks c e).confirmRelease c e)

/-! ### The landing buffer's drain (05 R113) -/

/-- Performs one confirmed entry at its home; none where it must wait there. A FORK's child keeps its decks as `mkLaunch` does (log entry 70). -/
def State.drainOne (s : State) (c : Nat) (e : LbEntry) : Option State :=
  match e.kind with
  | .store l bs => if s.drainHeld c l bs.length then none else some (s.put l bs).reap
  | .red op ty sc l v x mark =>
    if l.store == .dram then some { s with wq := s.wq ++ [{ op, ty, sc, loc := l, operand := v, x, mark }] }
    else if s.redHeld c op ty mark l then none
    else match s.meet l (tyBytes ty) with
      | (some b, t) => some (t.sendRecord none x.r.ctx x.r.lnum (lostRedRecord x b)).reap
      | (none, t) => some (t.put l (leBytes (tyBytes ty) (atomOp op ty (leNat (t.bytesAt l (tyBytes ty))) v.toNat))).reap
  | .spawn ctx lnum k items => some (s.itemsEnter ctx lnum k items)
  | .fork ctx parent desc macros targets x => some (s.takeFork ctx parent { desc, macros, targets } x)
  | .cancel ctx object => some (s.cancelAt ctx object)

/-- LANDING_BUFFER_DRAIN: the oldest entry of a column's buffer, once its epoch is confirmed. -/
def State.drain (s : State) (c : Nat) : Option State :=
  let k := s.col c
  match k.lb with
  | [] => none
  | e :: rest => if k.confirmed e.epoch then (s.setCol c { k with lb := rest }).drainOne c e else none

/-! ### Rollback (05 R115, 20 R342) -/

/-- Undoes one provisional change. -/
def State.undoOne (s : State) : Undo → State
  | .mem _ l old _ => s.withMem l.store (writeRange (s.mem l.store) l.addr old)
  | .ident _ ctx n old =>
    let k := s.ctx ctx
    let rest := k.idents.filter fun p => p.1 != n
    s.setCtx ctx { k with idents := match old with | some r => (n, r) :: rest | none => rest }
  | .bad _ old l2 => { s with bad := s.bad ++ old.filter fun b => !s.bad.contains b
                              l2bad := s.l2bad ++ l2.filter fun b => !s.l2bad.contains b }

/-- A workgroup at its snapshot, where what its groups had been told of walks is void (01 R24). -/
def Workgroup.restore (w old : Workgroup) : Workgroup :=
  { w with groups := old.groups.map fun g => { g with xf := [] }, ngroup := old.ngroup, ending := old.ending, vfMark := old.vfMark }

/-- A core at its snapshot, where what its commands had been told of walks is void (01 R24); retained commands released since then stay released. -/
def Core.restore (k old : Core) : Core :=
  let fresh (es : List Entry) : List Entry := es.map fun e => { e with xf := [] }
  { k with y := old.y.map fresh, mx := fresh old.mx, kept := old.kept.filter fun e => k.kept.any fun x => x.seq == e.seq
           up := old.up, down := old.down }

/-- A cluster's bank FIFOs at their snapshot. -/
def Cluster.restoreFifos (k : Cluster) (old : List BankFifo) : Cluster :=
  { k with fifos := k.fifos.map fun f => match old.find? fun o => o.ctx == f.ctx && o.lnum == f.lnum && o.k == f.k && o.bank == f.bank with
      | some o => { f with q := o.q }
      | none => { f with q := {} } }

/-- The column's agents at the snapshot of the horizon. -/
def State.restoreSnap (s : State) (c : Nat) (n : Snap) : State :=
  let s : State := { s with wgs := s.wgs.map fun w => if columnOf w.core == c then
      (match n.wgs.find? fun o => o.isOf w.ctx w.lnum w.wg with
        | some o => w.restore o
        | none => w)
    else w }
  let s := (coresOf c).foldl (fun t k =>
    t.setCore k ((t.core k).restore (((n.cores.find? fun p => p.1 == k).map (·.2)).getD Core.reset))) s
  (clustersOfCol c).foldl (fun t k =>
    t.setCluster k ((t.cluster k).restoreFifos (((n.fifos.find? fun p => p.1 == k).map (·.2)).getD []))) s

/-- DRAM lines that the column's provisional steps have written. -/
def Column.wroteLines (k : Column) : List Nat :=
  (k.undo.flatMap fun u => match u with | .mem _ l old _ => lines256 l old.length | _ => []) ++
  (k.lb.filter fun e => !k.confirmed e.epoch).flatMap fun e => match e.kind.range with | some (l, n) => lines256 l n | none => []

/-- The cluster caches of a column without the lines written in an unconfirmed epoch (Table 2.7). -/
def State.dropWrote (s : State) (c : Nat) : State :=
  let ls := (s.col c).wroteLines
  (clustersOfCol c).foldl (fun t n => t.setCluster n { t.cluster n with copies := (t.cluster n).copies.filter fun x => !ls.contains x.line }) s

/-- ROLLBACK: every provisional step of a column is deleted and its state is the horizon's again; the column stays stopped until
ROLLBACK_RESUME (log entry 27). -/
def State.rollback (s : State) (c : Nat) : State :=
  let k := s.col c
  let lost := k.lb.filter fun e => !k.confirmed e.epoch
  let s := k.undo.foldl (fun t u => t.undoOne u) (s.dropWrote c)
  let s := match k.snaps with | n :: _ => s.restoreSnap c n | [] => s
  let s := lost.foldl (fun t e => match e.kind with
    | .spawn ctx lnum d items => t.modDeck ctx lnum d fun x => { x with reserved := x.reserved - items.length }
    | _ => t) s
  let s : State := { s with out := s.out.filter fun p => !(p.deps.any fun d => d.1 == c && !k.confirmed d.2) }
  let s := s.setCol c { k with rollbk := k.rollbk + 1, rolling := true, ended := [], undo := [], snaps := k.snaps.take 1
                               lb := k.lb.filter fun e => k.confirmed e.epoch }
  (s.discard fun e => !(s.wgs.any fun w => w.isOf e.poster.ctx e.poster.lnum e.poster.wg)).sweep

/-! ### Strikes (20 R340, R341, R344-R346) -/

/-- The distance from a coordinate to an interval. -/
def gap (x lo hi : Nat) : Nat := if x < lo then lo - x else x - hi

/-- A circle meets a rectangle of the floor plan: they share at least one point, boundary included. -/
def circleMeets (x y r x0 x1 y0 y1 : Nat) : Bool := gap x x0 x1 ^ 2 + gap y y0 y1 ^ 2 ≤ r ^ 2

/-- The cell of column k of a tower in the floor plan (20 R340). -/
def cellOf (k : Nat) : Nat × Nat := (2 * bits k 2 2 + bits k 0 0, 2 * bits k 3 3 + bits k 1 1)

/-- A circle meets the cell of column k: 6.5 mm by 6.5 mm. -/
def meetsCell (x y r k : Nat) : Bool :=
  circleMeets x y r (6500 * (cellOf k).1) (6500 * (cellOf k).1 + 6500) (6500 * (cellOf k).2) (6500 * (cellOf k).2 + 6500)

/-- A circle meets the spine strip. -/
def meetsSpine (x y r : Nat) : Bool := circleMeets x y r 0 26000 26000 30800

/-- The places of a tower that a circle on a die meets: columns, on tier L the spine. -/
def strikePlaces (tower : Nat) (die : Die) (x y r : Nat) : List StrikeSite :=
  match die with
  | .dram => []
  | _ => (((List.range 16).filter (meetsCell x y r)).map fun k => .column (16 * tower + k)) ++
      if die == .tierL && meetsSpine x y r then [.spine tower] else []

/-- STRIKE_REPORT. A circle becomes a report for each place that it meets, which the device takes next, one step each (05 R115); on a DRAM layer the
rows under it are scrubbed. -/
def State.strike (s : State) : StrikeSite → State
  | .circle tower .dram _ _ _ rows =>
    { (s.count (tower % 2) 0 1) with scrubs := s.scrubs ++ rows.map fun row => (tower % 2, row, s.now + 200000) }
  | .circle tower die x y r _ =>
    { s with moves := (strikePlaces (tower % 2) die x y r).map (fun p => .event (.strikeReport p)) ++ s.moves }
  | .column c =>
    let k := s.col c
    let s := s.setCol c { k with strk := k.strk + 1 }
    if c ≥ 32 || k.gated || k.rolling then s else s.rollback c
  | .spine tower => s.count (tower % 2) 1 1
  | .dram tower row => { (s.count (tower % 2) 0 1) with scrubs := s.scrubs ++ [(tower % 2, row, s.now + 200000)] }

/-- ROLLBACK_RESUME: the column's agents go on in a new epoch. -/
def State.rollbackResume (s : State) (c : Nat) : Option State :=
  let k := s.col c
  if !k.rolling then none
  else
    let s1 := s.setCol c { k with rolling := false, epoch := k.epoch + 1, start := s.now }
    some (s1.setCol c { s1.col c with snaps := [s1.snap c (k.epoch + 1)] })

/-! ### The spine and the DRAM (20 R345, R346) -/

/-- L2_REFETCH: a clean line's uncorrectable sector is fetched from DRAM again. -/
def State.l2Refetch (s : State) (l : Loc) : Option State :=
  let a := l.addr / 32 * 32
  if l.store == .dram && s.l2bad.contains (a, false) then
    some { (s.count (locTower l) 4 1) with l2bad := s.l2bad.erase (a, false) }
  else none

def State.scrubDone (s : State) (n : Nat) : Option State :=
  if n < s.scrubs.length then some { s with scrubs := s.scrubs.eraseIdx n } else none

def execEpochEnd (c : Nat) (s : State) : Host.Outcome State Fault Refusal := .next ((s.epochEnd c).getD s)
def execEpochConfirmation (c : Nat) (s : State) : Host.Outcome State Fault Refusal := .next ((s.confirmEpoch c).getD s)
def execLandingBufferDrain (c : Nat) (s : State) : Host.Outcome State Fault Refusal := .next ((s.drain c).getD s)
def execStrikeReport (site : StrikeSite) (s : State) : Host.Outcome State Fault Refusal := .next (s.strike site)
def execRollbackResume (c : Nat) (s : State) : Host.Outcome State Fault Refusal := .next ((s.rollbackResume c).getD s)
def execScrubComplete (n : Nat) (s : State) : Host.Outcome State Fault Refusal := .next ((s.scrubDone n).getD s)
def execL2Refetch (l : Loc) (s : State) : Host.Outcome State Fault Refusal := .next ((s.l2Refetch l).getD s)

end Sys2Proof.Machine
end

