-- ==== Sys2Proof/Machine/Placement.lean ====
section
/-!
DEFINITION. The dispatcher's choices (13 R287-R290): what is ready, where it fits (02 R34, R37-R40, 08 R176), placement (06 R123, R127), and
the Bucker (06 R137).
-/

namespace Sys2Proof.Machine

/-! ### What is ready (13 R288, R289) -/

/-- A workgroup that waits to be placed: the launch's next one, one the Bucker has formed, or a saved one. -/
inductive Front
  | new (wg : Nat)
  | formed (f : Formed) (target : Desc)
  | back (w : Workgroup)
  deriving DecidableEq, Repr

/-- A front workgroup with its launch, the time from which it counts as ready and the time since which it has been in front. -/
structure Cand where
  l : Launch
  front : Front
  readyAt : Nat
  since : Nat
  deriving DecidableEq, Repr

def Cand.desc (c : Cand) : Desc := match c.front with | .new _ => c.l.desc | .formed _ t => t | .back w => w.desc

/-- Groups that hold threads in workgroup w of a launch (06 R123). -/
def Desc.groupsOf (d : Desc) (w : Nat) : Nat := min d.groups ((d.n - 64 * d.groups * w + 63) / 64)

def Cand.ngroups (c : Cand) : Nat := match c.front with
  | .new w => c.l.desc.groupsOf w
  | .formed .. => 1
  | .back w => w.groups.length

/-- Lexicographic minimum of a list by a key of numbers; the first one among equals. -/
def lexLt : List Nat → List Nat → Bool
  | a :: as, b :: bs => a < b || (a == b && lexLt as bs)
  | [], _ :: _ => true
  | _, _ => false
def minBy {α : Type} (key : α → List Nat) : List α → Option α
  | [] => none
  | x :: xs => some (xs.foldl (fun a b => if lexLt (key b) (key a) then b else a) x)

/-- The first unplaced workgroup of a launch, resumed ones ahead of new ones, then ascending ID.WG. -/
def State.frontOf (s : State) (l : Launch) : Option Cand :=
  match l.readyAt with
  | none => none
  | some t =>
    if l.cancelled || !l.live || (s.ctx l.ctx).held then none
    else
      let fresh : Option Front :=
        if l.nextWg < l.desc.nwg then some (.new l.nextWg)
        else match l.formed with
          | f :: _ => ((l.decks.getD f.deck none).map fun d => .formed f d.target)
          | [] => none
      let backs := s.away.filter fun w => w.ctx == l.ctx && w.lnum == l.lnum && !w.saving
      let first := backs.foldl (fun a w => min a w.placedAt) ((backs.head?.map (·.placedAt)).getD 0)
      match minBy (fun w => [w.wg]) backs, fresh with
      | some w, none => some { l, front := .back w, readyAt := first, since := w.placedAt }
      | some w, some _ => some { l, front := .back w, readyAt := t, since := w.placedAt }
      | none, some f => some { l, front := f, readyAt := t, since := l.waitSince }
      | none, none => none

/-- The order in which the dispatcher takes launches: priority, then the time of entering the ready set. -/
def Cand.before (a b : Cand) : Bool := b.l.prio < a.l.prio || (a.l.prio == b.l.prio && a.readyAt ≤ b.readyAt)
def State.fronts (s : State) : List Cand := sortBy Cand.before (s.launches.filterMap s.frontOf)

/-! ### Cluster SRAM (02 R37-R40) -/

/-- Pinned lines that a bank holds; a line that two contexts pin counts once (02 R40). -/
def Cluster.pinsIn (k : Cluster) (bank : Nat) : Nat := ((k.pins.filter fun p => p.way == bank).map (·.line)).eraseDups.length

/-- The run that an allocation of `size` bytes takes: its base and the cache banks to convert. -/
def Cluster.run (k : Cluster) (allocs : List (Nat × Nat)) (size : Nat) : Option (Nat × List Nat) :=
  if size == 0 then some (0, [])
  else
    let tries := (List.range (2048 - size / 4096 + 1)).filterMap fun u =>
      let base := u * 4096
      let banks := (List.range ((base + size - 1) / 2 ^ 17 - base / 2 ^ 17 + 1)).map fun i => base / 2 ^ 17 + i
      if allocs.any fun a => a.1 < base + size && base < a.1 + a.2 then none
      else if banks.any fun b => match k.modes[b]?.getD .cache with | .fifo .. => true | _ => false then none
      else some (base, banks.filter fun b => k.modes[b]?.getD .cache == .cache)
    minBy (fun r => [r.2.length, (r.2.map k.pinsIn).foldl (· + ·) 0, r.1]) tries

/-- n cache banks for FIFOs, those with the fewest pinned lines first, none of a list. DESIGN CHOICE (log entry 57): among banks that hold equally
many, the lowest number goes first, and scratch banks are chosen before FIFO banks. -/
def Cluster.fifoBanks (k : Cluster) (skip : List Nat) (n : Nat) : Option (List Nat) :=
  let free := sortBy (fun a b => !lexLt [k.pinsIn b, b] [k.pinsIn a, a])
    ((List.range 64).filter fun b => k.modes[b]?.getD .cache == .cache && !skip.contains b)
  if free.length < n then none else some (free.take n)

/-- A cluster with cache banks converted: their pins are dropped, each set loses a way for each, and pins beyond CACHEB − 1 in a set go
from the highest way down (02 R39, R43). DESIGN CHOICE (log entry 71): no fill of an unpinned line has a way of its own, so the copies that go are the
least recently used of those for which a set has no room left. -/
def Cluster.convert (k : Cluster) (banks : List Nat) (mode : Nat → BankMode) : Cluster :=
  let k1 := { k with modes := Vector.ofFn fun i : Fin 64 => if banks.contains i.val then mode i.val else k.modes[i.val]?.getD .cache
                     pins := k.pins.filter fun p => !banks.contains p.way }
  let keep (p : Pin) : Bool :=
    let ways := ((k1.pins.filter fun q => lineSet q.line == lineSet p.line).map (·.way)).eraseDups
    (ways.filter fun b => b < p.way).length + 1 < k1.cacheB
  let k2 := { k1 with pins := k1.pins.filter keep }
  let gone (c : Copy) : Bool := k.pins.any fun p => p.line == c.line && banks.contains p.way
  let room (set : Nat) : Nat := k2.cacheB - (k2.pinnedIn set).length
  { k2 with copies := k2.copies.foldl (fun a c =>
      if k2.pinned c.line then a ++ [c]
      else if gone c then a
      else if (a.filter fun d => lineSet d.line == lineSet c.line && !k2.pinned d.line).length < room (lineSet c.line) then a ++ [c] else a) [] }

/-! ### Eligible cores (13 R289) -/

def State.groupsOn (s : State) (core : Nat) : List Group := (s.wgs.filter fun w => w.core == core).flatMap (·.groups)

/-- Slabs reserved on a core (02 R34). -/
def State.slabsOn (s : State) (core : Nat) : Nat :=
  ((s.wgs.filter fun w => w.core == core).map fun w => w.groups.length * 4 * w.desc.nreg).foldl (· + ·) 0

/-- Resident groups of a tier of a column; a group that has retired is resident no more (log entry 33). -/
def State.tierCount (s : State) (col : Nat) (upper : Bool) : Nat :=
  ((s.wgs.filter fun w => columnOf w.core == col && isUpper w.core == upper).map fun w =>
    (w.groups.filter fun g => g.retired.isNone).length).foldl (· + ·) 0
def State.colCount (s : State) (col : Nat) : Nat := s.tierCount col false + s.tierCount col true

/-- Schedulers and slots for n more groups, spread as evenly as they will go; none where a core has not the slots. -/
def slotsFor (held : List (Nat × Nat)) : Nat → Option (List (Nat × Nat))
  | 0 => some []
  | n + 1 =>
    let load (i : Nat) : Nat := (held.filter fun h => h.1 == i).length
    match minBy (fun i => [load i]) [0, 1, 2, 3] with
    | some i =>
      if load i ≥ 8 then none
      else
        let slot := ((List.range 8).find? fun j => !held.contains (i, j)).getD 0
        (slotsFor (held ++ [(i, slot)]) n).map fun r => (i, slot) :: r
    | none => none

/-- Words of a macro table. -/
def macroWords (ms : List (List InstrWord)) : Nat := (ms.map (·.length)).foldl (· + ·) 0

/-- What a placement takes on a core: scratch base, cache banks to convert for scratch and for FIFOs, scheduler slots. -/
structure Fit where
  base : Nat
  conv : List Nat
  fifo : List Nat
  slots : List (Nat × Nat)
  deriving DecidableEq, Repr

/-- Allocations of a cluster. -/
def State.allocsIn (s : State) (cl : Nat) : List (Nat × Nat) :=
  (s.wgs.filter fun w => clusterOf w.core == cl && w.scrSize != 0).map fun w => (w.scrBase, w.scrSize)

/-- Two tiers' currents lie within 10 % of the larger (13 R295). -/
def within (l u : Nat) : Bool := 10 * (max l u - min l u) ≤ max l u

/-- The groups of a column that are resident, with their cores. -/
def State.residents (s : State) (col : Nat) : List (Nat × GRef) :=
  (s.wgs.filter fun w => columnOf w.core == col).flatMap fun w =>
    (w.groups.filter fun g => g.retired.isNone).map fun g => (w.core, { ctx := w.ctx, lnum := w.lnum, wg := w.wg, grp := g.id })

/-- Cores of a column that are gated. -/
def State.gatedIn (s : State) (col : Nat) : List Nat := (coresOf col).filter fun n => (s.core n).gate == .gated

/-- The predicted currents of a column's tiers: as last measured, with the groups that have come and the cores that were powered up since, and without
those that have gone and those that were gated (13 R295, log entry 29). None before a measurement. -/
def State.predicted (s : State) (col : Nat) : Option (Nat × Nat) :=
  let k := s.col col
  let now := s.residents col
  let gated := s.gatedIn col
  let groups (up : Bool) (gs : List (Nat × GRef)) : Nat :=
    ((gs.filter fun p => isUpper p.1 == up).map fun p => Config.groupCurrent p.1 1 s.now).foldl (· + ·) 0
  let idle (cs : List Nat) : Nat := (cs.map fun n => Config.gateCurrent n s.now).foldl (· + ·) 0
  let tier (up : Bool) (i : Nat) : Nat := i + groups up (now.filter fun p => !k.curOf.contains p) - groups up (k.curOf.filter fun p => !now.contains p)
  k.cur.map fun m =>
    (tier false m.1, tier true m.2 + idle (k.gatedOf.filter fun n => !gated.contains n) - idle (gated.filter fun n => !k.gatedOf.contains n))

/-- The balance controller does not refuse n more groups on a core: their predicted current does not make its tier the heavier one by more than 10 %
(13 R295). It predicts nothing where no group is resident from whose current to predict, and refuses no placement that leaves the core's tier with no more
groups than the other one, as 18 R334 has it (log entry 29). -/
def State.balanceAllows (s : State) (core n : Nat) : Bool :=
  let c := columnOf core
  let up := isUpper core
  match s.predicted c with
  | none => true
  | some (l, u) =>
    let d := Config.groupCurrent core n s.now
    (s.residents c).isEmpty || s.tierCount c up + n ≤ s.tierCount c (!up) ||
    if up then u + d ≤ l || within l (u + d) else l + d ≤ u || within (l + d) u

/-- A core is eligible for a workgroup; `limits` whether the column's limit counts. -/
def State.fit (s : State) (c : Cand) (limits : Bool) (core : Nat) : Option Fit :=
  let d := c.desc
  let up := isUpper core
  let col := s.col (columnOf core)
  let cl := clusterOf core
  let k := s.cluster cl
  let n := c.ngroups
  let mine (f : BankFifo) : Bool := f.ctx == c.l.ctx && f.lnum == c.l.lnum
  let has := k.fifos.any mine
  let elsewhere := (List.range 64).any fun x => x != cl && (s.cluster x).fifos.any mine
  let tables := (s.core core).tables
  let words := (tables.map fun t => macroWords (s.macrosOf t.1 t.2)).foldl (· + ·) 0
  if !(d.tier == 2 || (d.tier == 1) == up) || (d.mx && !up) then none
  else if (s.core core).gate != .open || col.gateReq || col.gated then none
  else if s.slabsOn core + n * 4 * d.nreg > 9216 then none
  else if limits && s.tierCount (columnOf core) up + n > (if up then col.limU else col.limL) then none
  else if limits && s.colCount (columnOf core) + n > col.limL + col.limU then none
  else if limits && !s.balanceAllows core n then none
  else if elsewhere then none
  else if !(c.l.macros.isEmpty || tables.contains (c.l.ctx, c.l.lnum)) && (tables.length ≥ 16 || words + macroWords c.l.macros > 4096) then none
  else match slotsFor ((s.groupsOn core).map fun g => (g.sched, g.slot)) n, k.run (s.allocsIn cl) d.scrsz with
    | some slots, some (base, conv) =>
      match k.fifoBanks conv (if has then 0 else d.nfifo) with
      | some fifo =>
        if (conv.isEmpty && fifo.isEmpty) || k.cmin + conv.length + fifo.length ≤ k.cacheB then some { base, conv, fifo, slots } else none
      | none => none
    | _, _ => none

/-- Whether a column has more unspent tokens than another: T − w × R (13 R289). -/
def Column.moreTokens (a : Column) (ra : Nat) (b : Column) (rb : Nat) : Bool :=
  decide (((b.grant : Int) * b.wDen - b.wNum * rb) * a.wDen < ((a.grant : Int) * a.wDen - a.wNum * ra) * b.wDen)

/-- The better of two eligible cores: balance of the column, then unspent tokens, then the lower ID.CORE (log entry 29). -/
def State.betterCore (s : State) (n a b : Nat) : Bool :=
  let diff (core : Nat) : Nat :=
    let l := s.tierCount (columnOf core) false + if isUpper core then 0 else n
    let u := s.tierCount (columnOf core) true + if isUpper core then n else 0
    max l u - min l u
  let tok (x y : Nat) : Bool := (s.col (columnOf x)).moreTokens (s.colCount (columnOf x)) (s.col (columnOf y)) (s.colCount (columnOf y))
  if diff a != diff b then diff a < diff b
  else if tok a b then true else if tok b a then false else a < b

/-- The core a workgroup would be placed on. -/
def State.choose (s : State) (c : Cand) : Option (Nat × Fit) :=
  let el := (List.range 256).filterMap fun k => (s.fit c true k).map fun f => (k, f)
  match el with
  | [] => none
  | x :: xs => some (xs.foldl (fun a b => if s.betterCore c.ngroups b.1 a.1 then b else a) x)

/-- The next placement: the first front workgroup that has an eligible core, and that core. -/
def State.nextPlacement (s : State) : Option (Cand × Nat × Fit) :=
  s.fronts.findSome? fun c => (s.choose c).map fun p => (c, p.1, p.2)

/-! ### Groups at their start (06 R123, R127, R137) -/

/-- A group as it starts (log entry 4). -/
def startGroup (d : Desc) (wdog : Word) (id : Nat) (live : LaneMap) (tids : Nat → Word) (sched slot now half : Nat) : Group :=
  { id, pc := BitVec.ofNat 64 d.entry, v := Vector.replicate 128 [], vbad := []
    s := Vector.ofFn fun k : Fin 64 => if k.val < 16 then d.args.getD k.val 0 else 0
    m := Vector.replicate 14 0, p := Vector.replicate 7 false, live, dead := 0, w := Vector.replicate 8 {}
    tid := Vector.ofFn fun k : Fin 64 => tids k.val
    gstat := 0, srseed := 0, srn := 0, chk := false
    trapb := if d.trap == 0 then 0 else BitVec.ofNat 64 (d.trap + 1)
    tpc := 0, tcause := 0, taddr := 0, tmap := 0, taux := 0, handler := false, wdog, waitCnt := 0, runCnt := 0, hold := 0
    tok := Vector.replicate 6 false, tokAt := [], seq := false, paired := false, mcall := none, rstep := 0, entry := true, mstat := 0, pend := [], hist := [], lines := [], wait := .none
    xf := [], got := [], wgot := [], fgot := [], met := {}, waitFep := none, blocked := [], sched, slot, nextAt := now, issuedAt := none, lastIssue := half, ready := [], retired := none, lastEpoch := 0 }

/-- Workgroup w of a launch. -/
def newWg (l : Launch) (wdog : Word) (w core now half : Nat) (f : Fit) : Workgroup :=
  let d := l.desc
  let gs := (List.range (d.groupsOf w)).map fun g =>
    let t0 := 64 * d.groups * w + 64 * g
    let (i, j) := f.slots.getD g (0, 0)
    startGroup d wdog g (lowLanes (min 64 (d.n - t0))) (fun k => BitVec.ofNat 32 (t0 + k)) i j now half
  { ctx := l.ctx, lnum := l.lnum, wg := w, core, desc := d, nwg := d.nwg, ngroup := gs.length, scrBase := f.base, scrSize := d.scrsz
    groups := gs, placedAt := now, ending := none, saving := false, vfMark := none, slot := none, toFill := d.scrsz / 256 }

/-- A workgroup of spawned threads: V0 to V2 hold the items' words. -/
def spawnedWg (l : Launch) (x : Formed) (d : Desc) (wdog : Word) (core now half : Nat) (f : Fit) : Workgroup :=
  let (i, j) := f.slots.getD 0 (0, 0)
  let g := startGroup d wdog 0 (lowLanes x.items.length) (fun k => ((x.items[k]?).map (·.2)).getD 0) i j now half
  let reg (w : Item → Word) : VReg := x.items.zipIdx.map fun (it, k) => (k, w it.1)
  { ctx := l.ctx, lnum := l.lnum, wg := x.wg, core, desc := d, nwg := l.desc.nwg, ngroup := 1, scrBase := f.base, scrSize := d.scrsz
    groups := [((g.setV 0 (reg (·.a))).setV 1 (reg (·.b))).setV 2 (reg (·.c))]
    placedAt := now, ending := none, saving := false, vfMark := none, slot := none, toFill := d.scrsz / 256 }

/-- A saved workgroup on its new core. -/
def resumedWg (w : Workgroup) (core now half : Nat) (f : Fit) (epoch : Nat) : Workgroup :=
  { w with core, scrBase := f.base, placedAt := now, saving := false, slot := none, vfMark := none, cmds := [], sScr := [], sBs := [], sAc := []
           groups := w.groups.zipIdx.map fun (g, k) =>
             let (i, j) := f.slots.getD k (0, 0)
             { g with sched := i, slot := j, nextAt := now, issuedAt := none, lastIssue := half, lastEpoch := epoch } }

/-! ### PLACEMENT -/

/-- Memory with a list of bytes by offset from an address laid over it. -/
def layOver (m : Mem) (base : Nat) (saved : Mem) : Mem := saved.foldl (fun a c => writeByte a (base + c.1) c.2) m

/-- Sets a range of a store: zero but for what is saved, with every unit good. -/
def State.fillRange (s : State) (l : Loc) (n : Nat) (saved : Mem) : State :=
  let t := s.withMem l.store (layOver (zeroRange (s.mem l.store) l.addr n) l.addr saved)
  { t with bad := t.bad.filter fun b => !(b.store == l.store && l.addr ≤ b.addr && b.addr + sectorSize b.store ≤ l.addr + n) }

/-- A saved command as it is reposted on another core. -/
def Entry.repost (e : Entry) (scr : Nat × Nat) (epoch now : Nat) : Entry :=
  let re (r : StepRec) : StepRec := { r with epoch }
  { e with scr, epoch, since := now, data := e.data.map re, index := e.index.map re, lands := e.lands.map re, held := [], xf := [], seen := [], peek := none }

/-- Reposts commands on a core, now and in the snapshots. -/
def State.repost (s : State) (core : Nat) (es : List Entry) : State :=
  let add (k : Core) : Core := es.foldl (fun k e => k.setQueue e.q (k.queue e.q ++ [e])) k
  let c := columnOf core
  let s := s.setCore core (add (s.core core))
  s.setCol c { s.col c with snaps := (s.col c).snaps.map fun n =>
    let old := ((n.cores.find? fun p => p.1 == core).map (·.2)).getD Core.reset
    { n with cores := (core, add old) :: n.cores.filter fun p => p.1 != core } }

/-- Places a workgroup: banks convert, FIFO banks are set up, the macro table is loaded, the scratch of a saved one is restored; that of a new one is
filled with zeros line by line in the steps that follow (04 R81). -/
def State.place (s : State) (c : Cand) (core : Nat) (f : Fit) : State :=
  let cl := clusterOf core
  let col := columnOf core
  let wdog := (s.ctx c.l.ctx).wdog
  let k := s.cluster cl
  let kMode (b : Nat) : BankMode := if f.fifo.contains b then .fifo c.l.ctx c.l.lnum (f.fifo.idxOf b) else .scratch none
  let k := if f.conv.isEmpty && f.fifo.isEmpty then k else k.convert (f.conv ++ f.fifo) kMode
  -- banks that now hold an allocation
  let inRun (b : Nat) : Bool := c.desc.scrsz != 0 && b * 2 ^ 17 < f.base + c.desc.scrsz && f.base < (b + 1) * 2 ^ 17
  let k := { k with
    modes := Vector.ofFn fun i : Fin 64 => match k.modes[i.val]?.getD .cache with
      | .scratch t => if inRun i.val then .scratch none else .scratch t
      | m => m
    fifos := k.fifos ++ f.fifo.zipIdx.map fun (b, j) => { ctx := c.l.ctx, lnum := c.l.lnum, k := j, bank := b, q := {} } }
  let s := s.setCluster cl k
  let w := match c.front with
    | .new n => newWg c.l wdog n core s.now (s.col col).cyc2 f
    | .formed x t => spawnedWg c.l x t wdog core s.now (s.col col).cyc2 f
    | .back w => resumedWg w core s.now (s.col col).cyc2 f (s.col col).epoch
  let old := match c.front with | .back w => some w | _ => none
  let s := match old with
    | some o =>
      let t := s.fillRange (sramLoc cl f.base) c.desc.scrsz o.sScr
      if o.desc.mx then (t.fillRange (bsLoc core 0) 0x200000 o.sBs).fillRange (acLoc core 0) 0x80000 o.sAc else t
    | none => s
  let x := s.core core
  let s := s.setCore core { x with tables := if c.l.macros.isEmpty || x.tables.contains (c.l.ctx, c.l.lnum) then x.tables
                                             else x.tables ++ [(c.l.ctx, c.l.lnum)] }
  let s := { s with wgs := s.wgs ++ [w], away := s.away.filter fun v => !v.isOf w.ctx w.lnum w.wg }
  let s := s.setCol col { s.col col with snaps := (s.col col).snaps.map fun n => { n with wgs := n.wgs ++ [w] } }
  let s := match old with
    | some o => s.repost core (o.cmds.map fun (e : Entry) => e.repost (f.base, c.desc.scrsz) (s.col col).epoch s.now)
    | none => s
  s.modLaunch c.l.ctx c.l.lnum fun l =>
    { l with nextWg := (match c.front with | .new n => n + 1 | _ => l.nextWg)
             formed := (match c.front with | .formed .. => l.formed.drop 1 | _ => l.formed)
             placedAt := s.now, waitSince := s.now }

/-- The dispatcher fills the next 256-byte line of a workgroup's scratch with zeros (02 R37, 04 R81), once no provisional write or lock is on it (05
R112). -/
def State.fillLineOf (s : State) (r : WRef) : Option State :=
  match s.wgs.find? fun w => w.isOf r.ctx r.lnum r.wg with
  | none => none
  | some w =>
    if w.toFill == 0 then none
    else
      let l := locPlus (sramLoc (clusterOf w.core) w.scrBase) (w.scrSize - 256 * w.toFill)
      let t := s.fillRange l 256 []
      if s.heldOff none l 256 then none
      else some { t with wgs := t.wgs.map fun v => if v.isOf r.ctx r.lnum r.wg then { v with toFill := v.toFill - 1 } else v }

/-- PLACEMENT on a core: the next placement, where it goes to that core. No workgroup is placed below D0. -/
def State.placement (s : State) (core : Nat) : Option State :=
  if s.pstate != .d0 then none
  else match s.nextPlacement with
    | some (c, k, f) => if k == core then some (s.place c k f) else none
    | none => none

/-! ### The Bucker (06 R137) -/

/-- Forms a group of the first n items of a deck. -/
def State.form (s : State) (ctx lnum k n : Nat) : State :=
  s.modLaunch ctx lnum fun l =>
    match l.decks.getD k none with
    | none => l
    | some d =>
      let its := (d.items.take n).zipIdx.map fun (it, i) => (it, BitVec.ofNat 32 (2 ^ 31 + 2 ^ 28 * k + (d.seq + i) % 2 ^ 28))
      let idle := l.nextWg ≥ l.desc.nwg && l.formed.isEmpty
      { l with decks := l.decks.zipIdx.map fun (x, j) => if j == k then x.map fun d => { d with items := d.items.drop n, seq := d.seq + n } else x
               formed := l.formed ++ [{ deck := k, wg := l.desc.nwg + l.spawned, items := its }]
               spawned := l.spawned + 1, waitSince := if idle then s.now else l.waitSince }

def State.buckerFull (s : State) (ctx lnum k : Nat) : Option State :=
  match s.deckOf ctx lnum k with
  | some d => if d.items.length ≥ 64 then some (s.form ctx lnum k 64) else none
  | none => none

def State.buckerPartial (s : State) (ctx lnum k : Nat) : Option State :=
  match s.deckOf ctx lnum k with
  | some d =>
    match d.items with
    | x :: _ => if d.items.length < 64 && x.at_ + 8000 ≤ s.now then some (s.form ctx lnum k d.items.length) else none
    | [] => none
  | none => none

/-- BANK_RETURN_TIMEOUT (02 R40). -/
def State.bankReturn (s : State) (cl bank : Nat) : Option State :=
  match (s.cluster cl).modes[bank]?.getD .cache with
  | .scratch (some t) =>
    if cl < 64 && t + 40000 ≤ s.now && !s.bankUsed cl bank then some (s.releaseBank cl bank) else none
  | _ => none

def execPlacement (core : Nat) (s : State) : Host.Outcome State Fault Refusal := .next ((s.placement core).getD s)
def execBuckerFullGroup (ctx lnum deck : Nat) (s : State) : Host.Outcome State Fault Refusal := .next ((s.buckerFull ctx lnum deck).getD s)
def execBuckerPartialGroup (ctx lnum deck : Nat) (s : State) : Host.Outcome State Fault Refusal :=
  .next ((s.buckerPartial ctx lnum deck).getD s)
def execBankReturnTimeout (cluster bank : Nat) (s : State) : Host.Outcome State Fault Refusal := .next ((s.bankReturn cluster bank).getD s)

end Sys2Proof.Machine
end

