-- ==== Sys2Proof/Machine/Saves.lean ====
section
/-!
DEFINITION. Saving workgroups (12 R280-R282, 06 R139): what a save waits for, the record, swap-out, pre-emption and its victim (13 R290), and
becoming ready again.
-/

namespace Sys2Proof.Machine

/-! ### What a save waits for (Table 12.7) -/

/-- A group stands between instructions, or in a wait, a REGROUP or a fault, with every instruction before it complete and none under way (log entry
49). -/
def Group.savable (g : Group) : Bool :=
  g.retired.isNone && g.pend.isEmpty && g.tokAt.isEmpty && !g.midway && match g.wait with
    | .inval _ | .refetch _ => false
    | _ => true

/-- Every entry the workgroup pushed into its core's outbound vertical FIFO has been popped (06 R139). -/
def State.pushesGone (s : State) (w : Workgroup) : Bool :=
  match w.vfMark with
  | none => true
  | some m =>
    let left := (m - (s.vfOut w.core).popped).toNat
    left == 0 || left ≥ 2 ^ 31

/-- Commands of a workgroup in the queues of its core, in queue order. -/
def State.queuedOf (s : State) (w : Workgroup) : List Entry :=
  let k := s.core w.core
  (k.y.toList.flatten ++ k.mx).filter fun e => w.isOf e.poster.ctx e.poster.lnum e.poster.wg

/-- A command that a save takes along: one with no step, or an MLOOP or MLOOPS between K-steps. -/
def Entry.savable (e : Entry) : Bool :=
  e.failed.isNone && !e.joint && match e.cmd with
    | .mloopj .. => false
    | .mloop .. | .mloops .. => e.lands.isEmpty && !e.dataDone
    | _ => e.fresh

/-- Every step of a command is confirmed. -/
def Entry.confirmedIn (e : Entry) (k : Column) : Bool := (e.data ++ e.index ++ e.lands).all fun r => k.confirmed r.epoch

/-- Everything a save of a resident workgroup waits for, but its save slot. A loop stops between K-steps and is saved once those it has taken are
confirmed, as its stores are saved at the horizon (12 R280, R282). -/
def State.saveReady (s : State) (w : Workgroup) : Bool :=
  let k := s.col (columnOf w.core)
  !k.rolling && w.ending.isNone && w.toFill == 0 && (w.groups.all fun g => g.savable && k.confirmed g.lastEpoch) &&
  s.pushesGone w && !s.scratchBusy w && ((s.queuedOf w).all fun e => e.savable && e.confirmedIn k) &&
  !((s.core w.core).kept.any fun e => w.isOf e.poster.ctx e.poster.lnum e.poster.wg)

/-- The lowest free slot of a workgroup's save area (12 R282). -/
def State.freeSlot (s : State) (w : Workgroup) : Option Nat :=
  let used := (s.wgs ++ s.away).filterMap fun v =>
    if v.ctx == w.ctx && v.lnum == w.lnum && v.desc.save == w.desc.save then v.slot else none
  (List.range (w.desc.savesz * 4096 / saveSlot w.desc)).find? fun i => !used.contains i

/-! ### The record (12 R282) -/

/-- A column's state without its provisional changes: the last confirmed epoch boundary. -/
def State.atHorizon (s : State) (c : Nat) : State := (s.col c).undo.foldl (fun t u => t.undoOne u) s

/-- Rounds a byte string up to a multiple of 64 with zeros. -/
def pad64 (bs : List Byte) : List Byte := bs ++ List.replicate ((64 - bs.length % 64) % 64) 0

/-- A group's image in a record. -/
def Group.savedImage (g : Group) (nreg : Nat) : List Byte :=
  pad64 (g.image nreg { pc := g.pc, mstep := (g.mcall.map (·.2)).getD g.rstep, hm := g.handler })

/-- The identifier entry a command captured. -/
def Cmd.ident : Cmd → Option (BitVec 512)
  | .tile _ _ r _ _ _ | .rput r _ _ _ _ | .mloop r _ _ _ | .mloopj r _ _ _ | .mloops _ r _ _ _ _ => some r
  | _ => none

/-- The 128 bytes of a saved command: 64 of command fields, whose layout the spec does not give, and the identifier entry. -/
def Entry.image (e : Entry) : List Byte :=
  (List.range 64).map (fun i => Config.freeBytes e.seq i) ++
  match e.cmd.ident with
  | some r => leBytes 64 r.toNat
  | none => (List.range 64).map fun i => Config.freeBytes e.seq (64 + i)

/-- A workgroup save record. -/
def State.wgRecord (s : State) (w : Workgroup) : List Byte :=
  let gs := sortBy (fun a b => a.id ≤ b.id) w.groups
  let images := gs.flatMap fun g => g.savedImage w.desc.nreg
  let es := s.queuedOf w
  let soff := 64 + images.length
  let coff := soff + w.scrSize
  let moff := coff + 128 * es.length
  let t := s.atHorizon (columnOf w.core)
  let head := fields
    [(1, 0, 8), (gs.length, 8, 8), (es.length, 16, 16), (w.wg, 32, 32), (w.lnum, 64, 32), (if w.desc.mx then 1 else 0, 96, 1),
     (soff, 128, 32), (coff, 160, 32), (if w.desc.mx then moff else 0, 192, 32)]
  leBytes 64 head ++ images ++ s.bytesAt w.scratch.1 w.scrSize ++ es.flatMap Entry.image ++
  if w.desc.mx then t.bytesAt (bsLoc w.core 0) 0x200000 ++ t.bytesAt (acLoc w.core 0) 0x80000 else []

/-- Listed bytes of a range of a store, by offset. -/
def cellsOf (m : Mem) (a n : Nat) : Mem := (m.filter fun c => a ≤ c.1 && c.1 < a + n).map fun c => (c.1 - a, c.2)

/-- A group as it is saved: the counts as the image holds them (12 R279), fetched lines and what it was told of its translations gone. A phase wait whose
first load step a peer has not answered is issued again. -/
def Group.saved (g : Group) : Group :=
  { g with
    wait := match g.wait with | .object .. => .none | x => x
    pipes := [], lines := [], xf := [], ready := [], got := [], wgot := [], fgot := [], met := {}, blocked := []
    waitCnt := g.waitCnt / 4000 * 4000, runCnt := g.runCnt / 4000000 * 4000000 }

/-- A save or a resumption that met an error in storage is tried again later (20 R349, R350). -/
def State.retry (s : State) (r : WRef) : State :=
  let later (v : Workgroup) : Workgroup := if v.isOf r.ctx r.lnum r.wg then { v with retryAt := s.now + 1 } else v
  { s with wgs := s.wgs.map later, away := s.away.map later }

/-- What a read or a write of the dispatcher has met in storage stays. -/
def State.metMore (s t : State) : Bool := t.injc != s.injc || t.counters != s.counters

/-- Saves a resident workgroup: the record is written, and its resources are free. `asleep`: it awaits a phase. None where the save must
wait, for a slot or for the memory of its save area (log entry 28). -/
def State.saveWg (s : State) (w : Workgroup) (asleep : Bool) : Option State :=
  match s.freeSlot w with
  | none => none
  | some i =>
    match s.dispWrite w.ctx (w.desc.save + i * saveSlot w.desc) (s.wgRecord w) with
    | .error .held => none
    | .error (.more t) => some t
    | .error (.fault _ t) => if s.metMore t then some ((s.metBy t).retry { ctx := w.ctx, lnum := w.lnum, wg := w.wg }) else none
    | .ok t =>
      let h := s.atHorizon (columnOf w.core)
      let kept : Workgroup := { w with
        saving := asleep, slot := some i, placedAt := s.now, retryAt := 0, vfMark := none, cmds := s.queuedOf w
        groups := w.groups.map Group.saved
        sScr := cellsOf s.sram w.scratch.1.addr w.scrSize
        sBs := if w.desc.mx then cellsOf h.bs (bsLoc w.core 0).addr 0x200000 else []
        sAc := if w.desc.mx then cellsOf h.ac (acLoc w.core 0).addr 0x80000 else [] }
      let t : State := { t with away := t.away ++ [kept] }
      let t := t.discard fun e => w.isOf e.poster.ctx e.poster.lnum e.poster.wg
      some (t.dropWg w)

/-! ### SWAP_OUT, WORKGROUP_SAVE, SWAP_RESUME -/

/-- A group parked in WAITPH.SWAP. -/
def Group.asleep (g : Group) : Bool := match g.wait with | .phase _ _ _ true _ _ _ => true | _ => false

def State.findWg (s : State) (r : WRef) : Option Workgroup := s.wgs.find? fun w => w.isOf r.ctx r.lnum r.wg

/-- SWAP_OUT (06 R139). -/
def State.swapOut (s : State) (r : WRef) : Option State :=
  match s.findWg r with
  | none => none
  | some w =>
    if w.saving || s.now < w.retryAt || w.groups.isEmpty || !(w.groups.all Group.asleep) || !(s.cmdsOf w).isEmpty || !s.saveReady w then none
    else s.saveWg w true

/-- WORKGROUP_SAVE of a workgroup that a pre-emption or CTXSAVE has chosen. -/
def State.preempt (s : State) (r : WRef) : Option State :=
  match s.findWg r with
  | none => none
  | some w => if !w.saving || s.now < w.retryAt || w.groups.isEmpty || !s.saveReady w then none else s.saveWg w false

/-- The awaited phase of a saved group has advanced, of an object in G, in the scratch aperture, or in its saved scratch, with the state after the read;
a wait that cannot be read is retaken on resume (06 R139). A peer tells of its object (`peerWake`). None while the read must wait. -/
def State.awaited (s : State) (w : Workgroup) (g : Group) : Option (Bool × State) :=
  match g.wait with
  | .phase false addr p true _ _ _ =>
    if g.waitFep.isSome then some (false, s)
    else
      let x : Except Stop (List Byte × State) :=
        if (s.ctx w.ctx).inAperture addr && s.apertureHeld w.ctx addr 4 then s.dispTake [(apertureLoc addr, 4)] else s.dispRead w.ctx addr 4
      match x with
      | .error .held => none
      | .error (.more t) => some (false, t)
      | .error (.fault _ t) => some (true, t)
      | .ok (bs, t) => some (leNat bs != p.toNat, t)
  | .phase true addr p true _ _ _ => some (leNat (readRange w.sScr addr 4) != p.toNat, s)
  | _ => some (false, s)

/-- A read of the dispatcher has left something: a step of its walk, the entry's A bit, an error that was met in storage. -/
def State.movedBy (s t : State) : Bool := t.pwalks != s.pwalks || t.dram != s.dram || s.metMore t

/-- A swapped-out workgroup becomes ready. -/
def State.wakeWg (s : State) (r : WRef) : State :=
  { s with away := s.away.map fun v => if v.isOf r.ctx r.lnum r.wg then { v with saving := false, placedAt := s.now } else v }

/-- SWAP_RESUME: a swapped-out workgroup is ready once a phase that one of its groups awaits has advanced. -/
def State.swapResume (s : State) (r : WRef) : Option State :=
  match s.away.find? fun w => w.isOf r.ctx r.lnum r.wg && w.saving && w.retryAt ≤ s.now with
  | none => none
  | some w => w.groups.findSome? fun g => match s.awaited w g with
    | some (true, t) => some (t.wakeWg r)
    | some (false, t) => if s.movedBy t then some (if s.metMore t then t.retry r else t) else none
    | none => none

/-- A peer tells the phase of the object that a group of a swapped-out workgroup awaits there (06 R139). -/
def State.peerWake (s : State) (r : WRef) (grp : Nat) (phase : Word) : Option State :=
  match s.away.find? fun w => w.isOf r.ctx r.lnum r.wg && w.saving with
  | none => none
  | some w => (w.groups.find? fun g => g.id == grp).bind fun g => match g.wait, g.waitFep with
    | .phase _ _ p true _ _ _, some fep => if phase != p && !s.cut fep && !s.failedPeers.contains fep then some (s.wakeWg r) else none
    | _, _ => none

/-! ### PREEMPTION_VICTIM_CHOICE (13 R290) -/

/-- A workgroup that priority pre-emption may save (12 R280): its save area has a free slot (21 R361). -/
def State.mayPreempt (s : State) (w : Workgroup) : Bool :=
  (s.freeSlot w).isSome && !w.desc.mx && w.ending.isNone && !w.groups.isEmpty && s.pushesGone w &&
  !((s.cmdsOf w).any fun e => match e.cmd with | .mloopj .. => true | _ => false)

/-- A fast victim: no Yarder command of it is under way, its record holds at most 4 MiB, and its save area has a free slot. -/
def State.fastVictim (s : State) (w : Workgroup) : Bool :=
  (s.freeSlot w).isSome && (s.queuedOf w).all (fun e => e.q == 4 || e.fresh) && (s.wgRecord w).length ≤ 0x400000

/-- A ready workgroup has been without an eligible core for 1 µs. -/
def State.starved (s : State) (c : Cand) : Bool := c.since + 4000 ≤ s.now && (s.choose c).isNone

/-- The state once a workgroup has been saved: it is off its core, and its launch keeps its FIFO banks (06 R139). -/
def State.without (s : State) (w : Workgroup) : State := ({ s with away := s.away ++ [w] } : State).dropWg w

/-- The victim a starved workgroup chooses: one whose removal gives it a core. -/
def State.victim (s : State) (c : Cand) : Option Workgroup :=
  let vs := s.wgs.filter fun w => !w.saving && w.desc.prio < c.l.prio && s.mayPreempt w && ((s.without w).choose c).isSome
  minBy (fun w => [if s.fastVictim w then 0 else 1, w.desc.prio, s.now - w.placedAt]) vs

/-- The highest starved workgroup chooses a victim; one is saved at a time, beside those of contexts that are being saved whole. -/
def State.chooseVictim (s : State) : Option State :=
  if s.wgs.any fun w => w.saving && !(s.ctx w.ctx).held then none
  else (s.fronts.filter fun c => s.starved c).findSome? fun c => (s.victim c).map fun w =>
    s.everyWg (fun v => v.isOf w.ctx w.lnum w.wg) fun v => { v with saving := true }

def execSwapOut (w : WRef) (s : State) : Host.Outcome State Fault Refusal := .next ((s.swapOut w).getD s)
def execWorkgroupSave (w : WRef) (s : State) : Host.Outcome State Fault Refusal := .next ((s.preempt w).getD s)
def execSwapResume (w : WRef) (s : State) : Host.Outcome State Fault Refusal := .next ((s.swapResume w).getD s)
def execPreemptionVictimChoice (s : State) : Host.Outcome State Fault Refusal := .next (s.chooseVictim.getD s)

end Sys2Proof.Machine
end

