-- ==== Sys2Proof/Machine/Flow.lean ====
section
/-!
DEFINITION. Flow forms (08 R170-R178): branches, calls, macros, exits, traps, returns.
-/

namespace Sys2Proof.Machine

/-- The target an IMM32 carries (07 R144). -/
def immTarget (pc : DWord) (imm : BitVec 32) : DWord := branchTarget pc (sext 29 (imm.toNat / 8)) (imm.toNat % 8)

/-- A conditional transfer: the group as it stands either way, the condition, the target. DESIGN CHOICE (log entry 74): a target that is not canonical
raises its fault only where the branch is taken. -/
def branchIf (s : State) (g : Group) (taken : Bool) (t : DWord) : Act := if taken then .jump g t true else .done s g

/-! ### NOP, YIELD -/

def execNop (c : Ctl) (o : OpsR) (s : State) : Host.Outcome State Fault Refusal :=
  issueWord (.nop c o) s false false fun _ e s => .done s e.g

/-- YIELD acts on the age of the group, which is 0 after any issue (13 R291). -/
def execYield (c : Ctl) (o : OpsR) (s : State) : Host.Outcome State Fault Refusal :=
  issueWord (.yield c o) s false false fun _ e s => .done s e.g

/-! ### Branches (08 R170-R174) -/

def execBra (c : Ctl) (o : OpsI) (s : State) : Host.Outcome State Fault Refusal :=
  issueWord (.bra c o) s false false fun _ e _ => .jump e.g (immTarget e.g.pc o.imm) true

def execBrxAbs (c : Ctl) (o : OpsR) (s : State) : Host.Outcome State Fault Refusal :=
  issueWord (.brxAbs c o) s false false fun _ e _ => .jump e.g (BitVec.ofNat 64 (e.pair o.a)) true

def execBrxRel (c : Ctl) (o : OpsR) (s : State) : Host.Outcome State Fault Refusal :=
  issueWord (.brxRel c o) s false false fun _ e _ =>
    .jump e.g (branchTarget e.g.pc (sext 29 (e.u o.a / 8)) (e.u o.a % 8)) true

/-- CALL writes the address of the next instruction in the issue that transfers (08 R171). -/
def execCall (c : Ctl) (o : OpsI) (s : State) : Host.Outcome State Fault Refusal :=
  issueWord (.call c o) s false false fun _ e _ =>
    .jump (e.g.writeS .i64 o.d (nextPc e.g.pc).toNat) (immTarget e.g.pc o.imm) true

def execRet (c : Ctl) (o : OpsR) (s : State) : Host.Outcome State Fault Refusal :=
  issueWord (.ret c o) s false false fun _ e _ => .jump e.g (BitVec.ofNat 64 (e.pair o.a)) false

/-- BRM's conditions on an effective map (Table 8.1). -/
def mapTest (fn : Nat) (m live : LaneMap) : Bool :=
  match fn with | 0 => m == 0 | 1 => m != 0 | 2 => m == live | _ => m != live

def execBrm (c : Ctl) (o : OpsI) (s : State) : Host.Outcome State Fault Refusal :=
  issueWord (.brm c o) s false false fun _ e s =>
    branchIf s e.g (mapTest c.fn.toNat (e.map o.a) e.g.live) (immTarget e.g.pc o.imm)

/-- BRW tests and clears a flag of a walker (08 R173). -/
def execBrw (c : Ctl) (o : OpsR) (s : State) : Host.Outcome State Fault Refusal :=
  issueWord (.brw c o) s false false fun _ e s =>
    match o.a with
    | .walk n =>
      let k := c.fn.toNat % 4
      let w := e.g.walker n
      let g := e.g.setW n { w with eod := w.eod &&& ~~~(1#4 <<< k) }
      branchIf s g (w.eod.getLsbD k != decide (c.fn.toNat ≥ 4)) (branchTarget e.g.pc (sext 7 (o.x.toNat / 8)) (o.x.toNat % 8))
    | _ => .done s e.g

def execBrdec (c : Ctl) (o : OpsI) (s : State) : Host.Outcome State Fault Refusal :=
  issueWord (.brdec c o) s false false fun _ e s =>
    let n : Word := BitVec.ofNat 32 (e.u o.d) - 1
    branchIf s (e.g.writeS .ui32 o.d n.toNat) (n != 0) (immTarget e.g.pc o.imm)

/-! ### Macros, exits, traps, returns (08 R176-R178, 12 R276) -/

/-- MCALL: the group stands at the MCALL while the body's words issue; an undefined macro is an illegal variant. -/
def execMcall (c : Ctl) (o : OpsR) (s : State) : Host.Outcome State Fault Refusal :=
  issueWord (.mcall c o) s false false fun _ e s =>
    let m := o.x.toNat % 256
    if ((s.macrosOf e.r.ctx e.r.lnum).getD m []).isEmpty then .trap .illegalVariant
    else .park s { e.g with mcall := some (m, 0) }

/-- EXIT takes lanes out of LIVE; a group with none left retires. The last of its workgroup waits for room for the decrement (05 R113). -/
def execExit (c : Ctl) (o : OpsR) (s : State) : Host.Outcome State Fault Refusal :=
  issueWord (.exit c o) s false false fun _ e s =>
    let live := e.g.live &&& ~~~(e.map o.a)
    if live == 0 then
      (if (e.w.groups.all fun g => g.retired.isSome || g.id == e.r.grp) && !s.reqRoom (columnOf e.w.core) then .stay [] .write
       else .ends ((s.setGroup e.r { e.g with live := 0 }).retire e.r e.w.core))
    else .done s { e.g with live }

def execTrap (c : Ctl) (o : OpsI) (s : State) : Host.Outcome State Fault Refusal :=
  issueWord (.trap c o) s false false fun _ _ _ => .fault { cause := .softwareTrap, aux := o.imm }

/-- A group placed at its pc, at a step of the macro called there. -/
def State.placedAt (s : State) (g : Group) (step : Nat) : Act := .placed s { g with mcall := none, rstep := step }

/-- RFT returns from an exception: the group leaves handler mode and goes on at TPC, with no check of TGT. A TPC that is no
instruction address faults on the RFT (07 R143). -/
def execRft (c : Ctl) (o : OpsR) (s : State) : Host.Outcome State Fault Refusal :=
  issueWord (.rft c o) s false false fun _ e _ =>
    .jump { e.g.leave with rstep := bits e.g.tcause.toNat 15 8 } e.g.tpc false

end Sys2Proof.Machine
end

