-- ==== Sys2Proof/Machine/System.lean ====
section
/-!
DEFINITION. System forms (12 R283-R285): control and status registers, invalidations, cache operations, gate requests, save images, clocks,
breakpoints.
-/

namespace Sys2Proof.Machine

/-! ### Control and status registers (12 R284, Table 12.11) -/

def Cluster.count (k : Cluster) (p : BankMode → Bool) : Nat := (k.modes.toList.filter p).length
def BankMode.isScratch : BankMode → Bool | .scratch _ => true | _ => false
def BankMode.isFifo : BankMode → Bool | .fifo .. => true | _ => false

/-- CLBANK (Table 2.4). -/
def Cluster.clbank (k : Cluster) : Nat :=
  k.cmin % 128 * 2 ^ 24 + k.count BankMode.isFifo * 2 ^ 16 + k.count BankMode.isScratch * 2 ^ 8 + k.cacheB

/-- SCRAP (Table 1.4). -/
def State.scrap (s : State) (w : Workgroup) : Nat :=
  if (s.ctx w.ctx).sae then (s.ctx w.ctx).sab * 2 ^ 29 + clusterOf w.core * 2 ^ 23 + w.scrBase else 0

/-- The value of a CSR. -/
def State.csr (s : State) (w : Workgroup) (g : Group) (n : Nat) : Nat :=
  let k := s.col (columnOf w.core)
  match n with
  | 0x010 => g.gstat.toNat
  | 0x011 => g.srseed.toNat
  | 0x012 => if g.chk then 1 else 0
  | 0x020 => g.trapb.toNat
  | 0x021 => g.tpc.toNat
  | 0x022 => g.tcause.toNat
  | 0x023 => g.taddr.toNat
  | 0x024 => g.tmap.toNat
  | 0x025 => g.taux.toNat
  | 0x030 => g.wdog.toNat
  | 0x031 => w.ctx
  | 0x032 => k.epoch % 2 ^ 32
  | 0x033 => k.strk.toNat
  | 0x034 => k.rollbk.toNat
  | 0x035 => (s.core w.core).tdrep.toNat
  | 0x040 => s.inja.toNat
  | 0x041 => s.injc.toNat
  | 0x050 => s.scrap w
  | 0x051 => w.scrSize
  | 0x052 => (s.ctx w.ctx).pinq.toNat
  | _ => (s.cluster (clusterOf w.core)).clbank

/-- Writes a CSR; reserved bits are not written (00 R3). -/
def State.csrWrite (s : State) (g : Group) (n v : Nat) : State × Group :=
  let w : Word := BitVec.ofNat 32 v
  let d : DWord := BitVec.ofNat 64 v
  match n with
  | 0x010 => (s, { g with gstat := w &&& 0x7F })
  | 0x011 => (s, { g with srseed := w, srn := 0 })
  | 0x012 => (s, { g with chk := w.getLsbD 0 })
  | 0x020 => (s, { g with trapb := d &&& 0x0000FFFFFFFFF801 })
  | 0x021 => (s, { g with tpc := d })
  | 0x022 => (s, { g with tcause := w &&& 0x00FFFFFF })
  | 0x023 => (s, { g with taddr := d })
  | 0x024 => (s, { g with tmap := d })
  | 0x025 => (s, { g with taux := w })
  | 0x030 => (s, { g with wdog := w, runCnt := 0 })
  | 0x040 => ({ s with inja := d &&& 0x0000FFFFFFFFFFE0 }, g)
  | 0x041 => ({ s with injc := w &&& 7 }, g)
  | _ => (s, g)

def execCsrr (c : Ctl) (o : OpsI) (s : State) : Host.Outcome State Fault Refusal :=
  issueWord (.csrr c o) s false false fun _ e s =>
    .done s (e.g.writeS (csrTy o.imm.toNat) o.d (s.csr e.w e.g o.imm.toNat))

/-- CSRW writes the operand, a pair for a 64-bit CSR. -/
def csrwBody (o : OpsI) (e : Env) (s : State) : Act :=
  let n := o.imm.toNat
  let (s, g) := s.csrWrite e.g n (if csrWidth n == some 64 then e.pair o.a else e.u o.a)
  .done s g

def execCsrw (c : Ctl) (o : OpsI) (s : State) : Host.Outcome State Fault Refusal :=
  issueWord (.csrw c o) s false false fun _ e s => csrwBody o e s
/-- CSRW of SRSEED clears the stochastic counter (03 R65). -/
def execSrseedWrite (c : Ctl) (o : OpsI) (s : State) : Host.Outcome State Fault Refusal :=
  issueWord (.srseedWrite c o) s false false fun _ e s => csrwBody o e s
/-- CSRW of WDOG returns the run count to 0 (12 R279). -/
def execWdogWrite (c : Ctl) (o : OpsI) (s : State) : Host.Outcome State Fault Refusal :=
  issueWord (.wdogWrite c o) s false false fun _ e s => csrwBody o e s
/-- CSRW of INJC arms or disarms the device's injector (20 R350). -/
def execInjcWrite (c : Ctl) (o : OpsI) (s : State) : Host.Outcome State Fault Refusal :=
  issueWord (.injcWrite c o) s false false fun _ e s => csrwBody o e s

/-- CSRX: the old value to D, and the new one in one action. -/
def csrxBody (o : OpsR) (new : Nat → Nat → Nat) (e : Env) (s : State) : Act :=
  let n := o.x.toNat
  let old := s.csr e.w e.g n
  let (s, g) := s.csrWrite e.g n (new old (e.u o.a))
  .done s (g.writeS .ui32 o.d old)

def execCsrxSet (c : Ctl) (o : OpsR) (s : State) : Host.Outcome State Fault Refusal :=
  issueWord (.csrxSet c o) s false false fun _ e s => csrxBody o (fun old a => old ||| a) e s
def execCsrxClr (c : Ctl) (o : OpsR) (s : State) : Host.Outcome State Fault Refusal :=
  issueWord (.csrxClr c o) s false false fun _ e s => csrxBody o (fun old a => old &&& (2 ^ 32 - 1 - a)) e s
def execCsrxSwap (c : Ctl) (o : OpsR) (s : State) : Host.Outcome State Fault Refusal :=
  issueWord (.csrxSwap c o) s false false fun _ e s => csrxBody o (fun _ a => a) e s

/-! ### Invalidations (01 R26) -/

/-- A page lies in an invalidation's range. -/
def Inval.covers (v : Inval) (ctx page size : Nat) : Bool :=
  v.ctx == ctx && (v.pages == 0 || (page < v.page + v.pages * 4096 && v.page < page + size))

/-- What a command has learned of an invalidation's range without holding it: its walks' faults, and which pages are no peer's. -/
def Entry.unlearned (e : Entry) (v : Inval) : Entry :=
  if e.poster.ctx == v.ctx then
    { e with xf := e.xf.filter fun f => !v.covers v.ctx f.page 4096, seen := e.seen.filter fun p => !v.covers v.ctx p.1 4096 }
  else e

/-- A walk in flight may end in a translation, or in an entry of the walk cache, that covers an address of the range: its 1 GiB block, the span of the
largest leaf and of a level-1 entry (Table 1.8), meets the range. -/
def Inval.meets (v : Inval) (w : Walk) : Bool := v.covers w.ctx (w.page / 2 ^ 30 * 2 ^ 30) (2 ^ 30)

/-- Drops the translations that entries of a core hold in a range, where the command has not begun to use them. -/
def Core.dropHeld (k : Core) (v : Inval) : Core :=
  let f (e : Entry) : Entry := if e.data.isEmpty && e.index.isEmpty then
      { e with held := e.held.filter fun x => !v.covers x.ctx x.page x.size } else e
  (k.mapEntries f).mapEntries fun e => e.unlearned v

/-- Starts an invalidation: cached translations of the range go, walks that could still find one start again, and copies of held translations in the
snapshots go. Commands that hold one keep it until they have performed (INVALIDATION_COMPLETE waits for them). -/
def State.invalidate (s : State) (ctx page pages : Nat) (by_ : InvalBy) : State :=
  let v : Inval := { n := s.nextInval, ctx, page, pages, by_, marks := s.cols.toList.map (·.epoch) }
  let drop (g : Group) : Group := { g with xf := g.xf.filter fun f => !v.covers ctx f.page 4096 }
  { s with nextInval := s.nextInval + 1, invals := s.invals ++ [v]
           tlb := s.tlb.filter fun x => !v.covers x.ctx x.page x.size
           wcache := s.wcache.filter fun x => !v.covers x.ctx x.va (levelSpan x.level)
           walks := s.walks.map fun w => if v.meets w then { w with st := .queued } else w
           pwalks := s.pwalks.filter fun w => w.ctx != ctx
           cores := s.cores.map fun k => k.mapEntries fun e => e.unlearned v
           wgs := s.wgs.map fun w => if w.ctx == ctx then { w with groups := w.groups.map drop } else w
           cols := s.cols.map fun k => { k with snaps := k.snaps.map fun p => { p with cores := p.cores.map fun c => (c.1, c.2.dropHeld v) } } }

/-- A step of a column was taken before an invalidation began. -/
def Inval.before (v : Inval) (col epoch : Nat) : Bool := epoch ≤ v.marks.getD col 0

/-- A packet to a peer that carries an access of the invalidation's context from before it. -/
def Inval.packet (v : Inval) (p : OutPkt) : Bool :=
  p.ctx == v.ctx && (match p.kind with | .event .. | .peerReply .. => false | _ => true) && p.deps.any fun d => v.before d.1 d.2

/-- A group that has accesses translated before an invalidation still to perform: lanes that have not taken their step, or loads that a peer has not
answered. -/
def Inval.group (v : Inval) (col : Nat) (g : Group) : Bool :=
  (match g.wait with | .atomic _ | .lanes _ | .object .. => true | _ => false) ||
  g.pend.any fun p => v.before col p.epoch && p.lanes.any fun l => match l.2 with | .peer .. => true | _ => false

/-- Nothing uses a translation from before an invalidation any more (01 R26): no held translation of the range is left, in no core and no snapshot,
and the context's accesses from before it have performed, wherever they wait, a host's with those lines that it has translated (log entry 55). -/
def State.invalDone (s : State) (v : Inval) : Bool :=
  let free (k : Core) : Bool := (k.y.toList.flatten ++ k.mx).all fun e => e.held.all fun x => !v.covers x.ctx x.page x.size
  let quiet (ws : List Workgroup) : Bool := ws.all fun w => w.ctx != v.ctx || w.groups.all fun g => !v.group (columnOf w.core) g
  s.cores.toList.all free && quiet s.wgs && (s.chans[v.ctx]?).all (·.prog.isNone) &&
  (s.cols.toList.zipIdx.all fun (k, c) =>
    (k.snaps.all fun n => (n.cores.all fun x => free x.2) && (!v.before c n.epoch || quiet n.wgs)) &&
    k.lb.all fun e => e.ctx != v.ctx || e.kind.range.isNone || !v.before c e.epoch) &&
  (s.out ++ s.peerWrites).all (fun p => !v.packet p) && s.wq.all fun q => q.x.r.ctx != v.ctx

def execTlbinvRange (c : Ctl) (o : OpsR) (s : State) : Host.Outcome State Fault Refusal :=
  issueWord (.tlbinvRange c o) s false false fun _ e s =>
    let va := e.pair o.a
    let n := e.u o.b
    if n == 0 || n > 2 ^ 20 then .trap .illegalVariant
    else if va ≥ 2 ^ 48 || va / 4096 * 4096 + 4096 * n > 2 ^ 48 then .fault { cause := .nonCanonical, addr := va }
    else .park (s.invalidate e.r.ctx (va / 4096 * 4096) n (.group e.r)) { e.g with wait := .inval s.nextInval }

def execTlbinvAll (c : Ctl) (o : OpsR) (s : State) : Host.Outcome State Fault Refusal :=
  issueWord (.tlbinvAll c o) s false false fun _ e s =>
    .park (s.invalidate e.r.ctx 0 0 (.group e.r)) { e.g with wait := .inval s.nextInval }

/-! ### Cache operations (12 R285) -/

/-- The copies of a cluster without a range of physical lines. -/
def Cluster.dropLines (k : Cluster) (ls : List Nat) : Cluster := { k with copies := k.copies.filter fun c => !ls.contains c.line }

/-- CACHEOP.drop: a page that does not translate holds no copy. -/
def execCacheopDrop (c : Ctl) (o : OpsR) (s : State) : Host.Outcome State Fault Refusal :=
  issueWord (.cacheopDrop c o) s false false fun _ e s =>
    let cl := clusterOf e.w.core
    let va := e.pair o.a
    let parts := (cut4k va (e.u o.b)).map fun p => s.resolve e.r.ctx e.w.core e.g.xf p.1 p.2 .read
    let misses := parts.flatMap fun r => match r with | .miss ps => ps | _ => []
    if !misses.isEmpty then .stay misses.eraseDups .read
    else
      let ls := parts.flatMap fun r => match r with
        | .ok ps => ps.flatMap fun p => match p.1 with | .mem l _ => lines256 l p.2 | .peer .. => []
        | _ => []
      .done (s.setCluster cl ((s.cluster cl).dropLines ls)) { e.g with xf := [] }

/-- CACHEOP.dropall. A copy records no context, so every copy goes (log entry 15). -/
def execCacheopDropall (c : Ctl) (o : OpsR) (s : State) : Host.Outcome State Fault Refusal :=
  issueWord (.cacheopDropall c o) s false false fun _ e s =>
    let cl := clusterOf e.w.core
    .done (s.setCluster cl { s.cluster cl with copies := [] }) e.g

/-! ### Gate requests (13 R297) -/

/-- A gate request for an upper core: the status and the state (12 R285). -/
def State.gateCore (s : State) (core : Nat) : Nat × State :=
  let k := s.core core
  match k.gate with
  | .gated => (1, s)
  | .requested => (0, s)
  | _ => (0, s.setCore core { k with gate := .requested })

/-- An ungate request: it withdraws a deferred gate, or powers a gated core up, ready 20 µs later. -/
def State.ungateCore (s : State) (core : Nat) : Nat × State :=
  let k := s.core core
  match k.gate with
  | .requested => (0, s.setCore core { k with gate := .closed })
  | .gated => (0, s.setCore core { k with gate := .waking (s.now + 80000) })
  | .waking _ => (0, s)
  | _ => (1, s)

/-- PGREQ: the core must be an upper one; status 2 where the host has disabled requests. -/
def pgreqBody (o : OpsR) (req : State → Nat → Nat × State) (e : Env) (s : State) : Act :=
  let n := e.u o.a
  if n ≥ 256 || !isUpper n then .trap .illegalVariant
  else if s.power.gdis then .done s (e.g.writeS .ui32 o.d 2)
  else
    let (st, s) := req s n
    .done s (e.g.writeS .ui32 o.d st)

def execPgreqGate (c : Ctl) (o : OpsR) (s : State) : Host.Outcome State Fault Refusal :=
  issueWord (.pgreqGate c o) s false false fun _ e s => pgreqBody o State.gateCore e s
def execPgreqUngate (c : Ctl) (o : OpsR) (s : State) : Host.Outcome State Fault Refusal :=
  issueWord (.pgreqUngate c o) s false false fun _ e s => pgreqBody o State.ungateCore e s

/-! ### GSAVE and GREST -/

/-- GSAVE writes the image as one tile step: PC is TPC, and the image is not in handler mode (log entry 39). -/
def execGsave (c : Ctl) (o : OpsR) (s : State) : Host.Outcome State Fault Refusal :=
  issueWord (.gsave c o) s false false fun _ e s =>
    let va := e.pair o.a
    if va % 64 != 0 then .fault { cause := .objectAlign, addr := va }
    else if !e.g.quiet then .stay [] .write
    else
      let bs := e.g.image e.w.desc.nreg { pc := e.g.tpc, mstep := bits e.g.tcause.toNat 15 8, hm := false }
      match s.uniAccess e.r e.w e.g 0 .write va bs.length with
      | .fault f => .fault f
      | .miss ps => .stay ps .write
      | .ok as =>
        let ps := as.flatMap (·.2)
        if s.anyHeld e.w.core as || !s.objDrained e.w.core ps || !s.roomFor (columnOf e.w.core) (peersIn as) then .stay [] .write
        else
          let t := (ps.foldl (fun (a : State × List Byte) p =>
            (match p.1 with
              | .mem l _ => a.1.putProv (columnOf e.w.core) l (a.2.take p.2) (locColumn l != some (columnOf e.w.core))
              | .peer .. => a.1.storePieces e.uniWriter [p] (a.2.take p.2), a.2.drop p.2)) (s, bs)).1
          .done t { e.g.writeS .ui32 o.d bs.length with xf := [] }

/-- GREST reads the image as one tile step, checks it, and goes on at its PC (log entry 39). -/
def execGrest (c : Ctl) (o : OpsR) (s : State) : Host.Outcome State Fault Refusal :=
  issueWord (.grest c o) s false false fun _ e s =>
    let va := e.pair o.a
    if va % 64 != 0 then .fault { cause := .objectAlign, addr := va }
    else if !e.g.pend.isEmpty then .stay [] .read
    else match s.uniAccess e.r e.w e.g 0 .read va 64 with
      | .fault f => .fault f
      | .miss ps => .stay ps .read
      | .ok hs =>
        -- the header's SIZE gives the footprint
        if s.anyHeld e.w.core hs then .stay [] .read
        else match s.uniRead e .read (hs.flatMap (·.2)) with
          | .error a => a
          | .ok (head, t) =>
            match s.uniAccess e.r e.w e.g 0 .read va (max 1216 (bits (leNat head) 31 16)) with
            | .fault f => .faultWith (s.metBy t) f
            | .miss ps => .stay ps .read
            | .ok as =>
              if s.anyHeld e.w.core as then .stay [] .read
              else match s.uniRead e .read (as.flatMap (·.2)) with
                | .error a => a
                | .ok (bs, t) =>
                  match e.g.ofImage e.w.desc.nreg bs with
                  | some (g, step) => t.placedAt { g with xf := [] } step
                  | none => .faultWith (s.metBy t) { cause := .saveImage }

/-! ### Clocks and breakpoints -/

def execClockCyc (c : Ctl) (o : OpsR) (s : State) : Host.Outcome State Fault Refusal :=
  issueWord (.clockCyc c o) s false false fun _ e s => .done s (e.g.writeS .i64 o.d ((s.col (columnOf e.w.core)).cyc2 / 2))
def execClockNs (c : Ctl) (o : OpsR) (s : State) : Host.Outcome State Fault Refusal :=
  issueWord (.clockNs c o) s false false fun _ e s => .done s (e.g.writeS .i64 o.d (s.now / 4))
def execClockEpoch (c : Ctl) (o : OpsR) (s : State) : Host.Outcome State Fault Refusal :=
  issueWord (.clockEpoch c o) s false false fun _ e s => .done s (e.g.writeS .ui32 o.d (s.col (columnOf e.w.core)).epoch)

def execBkpt (c : Ctl) (o : OpsR) (s : State) : Host.Outcome State Fault Refusal :=
  issueWord (.bkpt c o) s false false fun _ _ _ => .fault { cause := .breakpoint, aux := BitVec.ofNat 32 o.x.toNat }

end Sys2Proof.Machine
end

