-- ==== Sys2Proof/Machine/Power.lean ====
section
/-!
DEFINITION. Power (13 R293-R303): the token market, column balance, gating, droop and timing replay, device states. Readings are in
milliamperes of a tier of a column; a reading of column 32 is the reserve F in milliwatts (log entry 17).
-/

namespace Sys2Proof.Machine

/-! ### The market (13 R293) -/

/-- Twice a common multiple of 1 to 32, so that shares among columns and their halves stay whole. -/
def shareUnit : Nat := 288807105787200

/-- Columns in which a workgroup has an eligible core, its limit left out. -/
def State.eligibleCols (s : State) (c : Cand) : List Nat :=
  (List.range 32).filter fun k => (coresOf k).any fun core => (s.fit c false core).isSome

/-- What the unplaced workgroups of a ready launch bid for: (workgroup, groups), those of one shape together. -/
def State.unplaced (s : State) (l : Launch) : List (Cand × Nat) :=
  match l.readyAt with
  | none => []
  | some t =>
    if l.cancelled || !l.live || (s.ctx l.ctx).held then []
    else
      let mk (f : Front) : Cand := { l, front := f, readyAt := t, since := t }
      let last := l.desc.nwg - 1
      let new := if l.nextWg < l.desc.nwg then
          [(mk (.new last), l.desc.groupsOf last)] ++ if l.nextWg < last then [(mk (.new l.nextWg), (last - l.nextWg) * l.desc.groups)] else []
        else []
      let formed := l.formed.filterMap fun f => (l.decks.getD f.deck none).map fun d => (mk (.formed f d.target), 1)
      let back := (s.away.filter fun w => w.ctx == l.ctx && w.lnum == l.lnum && !w.saving).map fun w => (mk (.back w), w.groups.length)
      new ++ formed ++ back

/-- b(c) of every column, times shareUnit. -/
def State.bids (s : State) : List Nat :=
  let shares := s.launches.flatMap fun l => (s.unplaced l).map fun p =>
    let cols := s.eligibleCols p.1
    (cols, (l.prio + 1) * p.2 * shareUnit / max 1 cols.length)
  (List.range 32).map fun c =>
    let res := ((s.wgs.filter fun w => columnOf w.core == c).map fun w =>
      (w.desc.prio + 1) * (w.groups.filter fun g => g.retired.isNone).length).foldl (· + ·) 0
    let b := res * shareUnit + ((shares.filter fun p => p.1.contains c).map (·.2)).foldl (· + ·) 0
    if s.power.droop == 2 && (s.col c).shed then b / 2 else b

/-- Grants from a pool of milliwatts, 250 to a token, before the ramp: only the grants are rounded. -/
def grantsOf (pool : Nat) (bids : List Nat) : List Nat :=
  let n := (bids.filter (· != 0)).length
  let sum := bids.foldl (· + ·) 0
  bids.map fun b => if b == 0 then 0 else if pool ≥ 4000 * n then 16 + (pool - 4000 * n) * b / (250 * sum) else pool / (250 * n)

/-- The ramp: every grant scaled by one factor where the total climbs too far. RAMP W per ms is RAMP / 25 tokens in 10 µs. -/
def ramped (ramp prev : Nat) (gs : List Nat) : List Nat :=
  let total := gs.foldl (· + ·) 0
  if ramp == 0 || 25 * total ≤ 25 * prev + ramp then gs else gs.map fun g => g * (25 * prev + ramp) / (25 * total)

/-- The reading of a tier of a column. -/
def readingOf (rs : List PowerReading) (c t : Nat) : Option Nat := (rs.find? fun r => r.column == c && r.tier == t).map (·.amps)

/-- w(c) from a column's measured power over the period and its time-averaged count (13 R293 step 5): 0.75 V on each tier, tokens of
0.25 W, never below one half. -/
def Column.rate (k : Column) (rs : List PowerReading) (c : Nat) : Nat × Nat :=
  if k.occ == 0 then (2, 1)
  else match readingOf rs c 0, readingOf rs c 1 with
    | some l, some u =>
      let num := 3 * (l + u) * 40000
      let den := 1000 * k.occ
      if 2 * num < den then (1, 2) else (num, den)
    | _, _ => (k.wNum, k.wDen)

/-- A column after a market clear. -/
def Column.cleared (k : Column) (rs : List PowerReading) (c grant : Nat) : Column :=
  let (wNum, wDen) := k.rate rs c
  let lim := min 256 (max 8 (grant * wDen / wNum))
  { k with grant, wNum, wDen, limL := lim / 2, limU := (lim + 1) / 2, occ := 0, shed := false }

/-- MARKET_CLEAR, every 10 µs. -/
def State.marketClear (s : State) (rs : List PowerReading) : Option State :=
  if s.now < s.nextClear then none
  else
    let f := (readingOf rs 32 0).getD s.reserve
    let gs := ramped s.power.ramp s.prevTotal (grantsOf (1000 * s.power.cap - f) s.bids)
    let open' (k : Core) : Core := if k.gate == .closed then { k with gate := .open } else k
    some { s with
      cols := Vector.ofFn fun c : Fin 32 => (s.col c.val).cleared rs c.val (gs.getD c.val 0)
      cores := s.cores.map open', reserve := f, prevTotal := gs.foldl (· + ·) 0, nextClear := s.nextClear + 40000 }

/-! ### Balance (13 R295) -/

/-- A column after its currents have been measured: ballast on the tier that falls below 90 % of the other, up to 30 % of its current. A placement that is
refused for the balance moves limit from its tier, which it would make the heavier one, to the other (`refused`: on the lower tier, on the upper one), as
does a gate that waits for balance from the lower tier beneath it (`gate`, 13 R297); without either and in balance the split is equal again. What is beyond
ballast is an excursion (log entry 29). -/
def Column.balanced (k : Column) (l u : Nat) (gate : Bool := false) (refused : Bool × Bool := (false, false)) : Column :=
  let heavy := max l u
  let light := min l u
  let out := 10 * light < 9 * heavy
  let sum := k.limL + k.limU
  let up := gate || refused.1
  let (a, b) := if !out && !up && !refused.2 then (sum / 2, (sum + 1) / 2)
    else if refused.2 && !up && k.limU != 0 then (k.limL + 1, k.limU - 1)
    else if up && !refused.2 && k.limL != 0 then (k.limL - 1, k.limU + 1)
    else (k.limL, k.limU)
  { k with ballast := (out && l < u, out && u < l), limL := a, limU := b, excursion := 13 * light < 9 * heavy, cur := some (l, u) }

/-- The controller predicts the mismatch that a core's gate leaves within 10 % (13 R297); before a measurement it predicts nothing. -/
def State.gateAllows (s : State) (core : Nat) : Bool :=
  match s.predicted (columnOf core) with
  | none => true
  | some (l, u) => within l (u - Config.gateCurrent core s.now)

/-- A gate request of a column waits for balance. -/
def State.gateWaits (s : State) (c : Nat) : Bool :=
  (coresOf c).any fun n => isUpper n && (s.core n).gate == .requested && !s.gateAllows n

/-- A placement on a tier of a column is refused for the balance alone (13 R295). -/
def State.balanceRefuses (s : State) (c : Nat) (up : Bool) : Bool :=
  let k := s.col c
  s.fronts.any fun x => ((coresOf c).filter fun n => isUpper n == up).any fun core =>
    !s.balanceAllows core x.ngroups && (s.fit x false core).isSome &&
      decide (s.tierCount c up + x.ngroups ≤ (if up then k.limU else k.limL) ∧ s.colCount c + x.ngroups ≤ k.limL + k.limU)

/-- BALANCE_MEASUREMENT, every 1 µs, of the columns whose tiers both have a reading. -/
def State.balance (s : State) (rs : List PowerReading) : State :=
  if s.now < s.nextBalance then s
  else { s with
    nextBalance := s.nextBalance + 4000
    cols := Vector.ofFn fun c : Fin 32 =>
      match readingOf rs c.val 0, readingOf rs c.val 1 with
      | some l, some u => { (s.col c.val).balanced l u (s.gateWaits c.val) (s.balanceRefuses c.val false, s.balanceRefuses c.val true) with
          curOf := s.residents c.val, gatedOf := s.gatedIn c.val }
      | _, _ => s.col c.val }

/-! ### Droop (13 R298-R300) -/

/-- The times at which a group's issue, pipes, results and tokens are due, counted in cycles of its column, where a cycle becomes twice as long or half as long
now (13 R298, log entry 77). -/
def Group.rescaled (g : Group) (now : Nat) (slow : Bool) : Group :=
  let t (x : Nat) : Nat := if x ≤ now then x else now + if slow then 2 * (x - now) else (x - now + 1) / 2
  { g with nextAt := t g.nextAt, ready := g.ready.map fun r => (r.1, t r.2), tokAt := g.tokAt.map fun r => (r.1, t r.2)
           pipes := g.pipes.map fun r => (r.1, t r.2) }

/-- The groups of a column at a change of its clock. -/
def State.rescale (s : State) (c : Nat) (slow : Bool) : State :=
  { s with wgs := s.wgs.map fun w => if columnOf w.core == c then { w with groups := w.groups.map fun g => g.rescaled s.now slow } else w }

/-- A column's detector trips: the clear time starts again; an entry sends a DROOP event under policy 1 and 2. -/
def State.droopIn (s : State) (c : Nat) : State :=
  let k := s.col c
  let s0 := if k.droop then s else s.rescale c true
  let s1 := s0.setCol c { k with droop := true, clearAt := some s.now, shed := k.shed || !k.droop }
  if k.droop || s.power.droop == 0 then s1
  else s1.send [] 64 0 (mkEvent 64 0x85 0 tagNone 0 (leBytes 1 c ++ leBytes 8 (s.now / 4)))

def State.droopTrip (s : State) (c : Nat) : Option State := if c < 32 then some (s.droopIn c) else none

/-- DROOP_EXIT: 2 µs clear, and no excursion. -/
def State.droopExit (s : State) (c : Nat) : Option State :=
  let k := s.col c
  match k.clearAt with
  | some t => if k.droop && !k.excursion && t + 8000 ≤ s.now then
      some ((s.rescale c false).setCol c { k with droop := false, clearAt := none }) else none
  | none => none

/-- TIMING_REPLAY: counts in TDREP; 16 within 1 µs put the column into droop (20 R348). -/
def State.replay (s : State) (core : Nat) : Option State :=
  if core ≥ 256 then none
  else
    let k := s.core core
    let recent := (k.replays.filter fun t => s.now < t + 4000) ++ [s.now]
    let s1 := s.setCore core { k with tdrep := k.tdrep + 1, replays := recent }
    some (if recent.length ≥ 16 then s1.droopIn (columnOf core) else s1)

/-! ### Gates (13 R296, R297) -/

/-- A core's B store and accumulator store lose their contents. -/
def State.loseStores (s : State) (core : Nat) : State :=
  if isUpper core then (s.fillRange (bsLoc core 0) 0x200000 []).fillRange (acLoc core 0) 0x80000 [] else s

/-- A core holds no group, the steps of its last one are confirmed, and its MX queue and its retention store are empty. -/
def State.coreEmpty (s : State) (core : Nat) : Bool :=
  let k := s.core core
  (s.groupsOn core).isEmpty && k.mx.isEmpty && k.kept.isEmpty

/-- Both vertical FIFOs of a pair are empty (02 R51). -/
def State.fifosEmpty (s : State) (core : Nat) : Bool :=
  let p := s.core (lowerOf core)
  p.up.entries.isEmpty && p.down.entries.isEmpty

/-- CORE_GATE: the deferral conditions hold (13 R297). -/
def State.coreGate (s : State) (core : Nat) : Option State :=
  let k := s.core core
  if core < 256 && isUpper core && k.gate == .requested && !(s.col (columnOf core)).rolling && s.coreEmpty core && s.fifosEmpty core &&
      s.gateAllows core then
    some ((s.setCore core { k with gate := .gated }).loseStores core)
  else none

/-- COLUMN_GATE: neither cluster holds a group, the queues of the eight cores and their vertical FIFOs are empty, and what was admitted to the column's
scratch has performed (13 R296, 02 R51, 01 R12). -/
def State.columnGate (s : State) (c : Nat) : Option State :=
  let k := s.col c
  let empty (n : Nat) : Bool := s.coreEmpty n && s.fifosEmpty n && (s.core n).y.toList.all fun q => q.isEmpty
  if c < 32 && k.gateReq && !k.gated && !k.rolling && (coresOf c).all empty && !(s.admitted fun l _ => locColumn l == some c) then
    let s := (clustersOfCol c).foldl (fun t n => t.setCluster n { t.cluster n with copies := [] }) s
    let s := (coresOf c).foldl (fun t n => if isUpper n then (t.setCore n { t.core n with gate := .gated }).loseStores n else t) s
    some (s.setCol c { s.col c with gated := true })
  else none

/-- UNGATE_READY. -/
def State.ungateReady (s : State) (core : Nat) : Option State :=
  let k := s.core core
  match k.gate with
  | .waking t => if t ≤ s.now then some (s.setCore core { k with gate := .open }) else none
  | _ => none

/-- A host gate of a whole column. -/
def State.gateColumn (s : State) (c : Nat) : State := s.setCol c { s.col c with gateReq := true }

/-- A host ungate of a whole column follows R297 for each of its upper cores: it powers up those that are gated, and withdraws requests; where the
column's own gate was still deferred, the others become eligible again with those. -/
def State.ungateColumn (s : State) (c : Nat) : State :=
  let k := s.col c
  let up (t : State) (n : Nat) : State :=
    match (t.core n).gate with
    | .requested | .gated => (t.ungateCore n).2
    | .open => if k.gateReq && !k.gated then t.setCore n { t.core n with gate := .closed } else t
    | _ => t
  let s := ((coresOf c).filter fun n => isUpper n).foldl up s
  s.setCol c { s.col c with gateReq := false, gated := false }

/-! ### Device states (13 R302, R303) -/

/-- The device is idle: no work, no command outstanding, every landing buffer drained, no step unconfirmed (log entry 30). -/
def State.idle (s : State) : Bool :=
  s.launches.all (fun l => !l.live) && s.wgs.isEmpty && s.away.isEmpty &&
  (s.cores.toList.all fun k => k.mx.isEmpty && k.kept.isEmpty && k.y.toList.all fun q => q.isEmpty) &&
  s.cols.toList.all fun k => k.lb.isEmpty && k.undo.isEmpty

/-- The lowest state whose wake time does not exceed TOL. -/
def stateFor (tol : Nat) : Power := if tol ≥ 20000 then .d3 else if tol ≥ 200 then .d2 else if tol ≥ 2 then .d1 else .d0

/-- What D2 and D3 lose: cluster SRAM, B stores, accumulator stores, cached copies; D3 writes modified L2 lines back first (log entry 30). -/
def State.loseBelowD1 (s : State) (d3 : Bool) : State :=
  let scr (m : BankMode) : BankMode := match m with | .scratch _ => .cache | m => m
  let bad := s.bad.filter fun b => b.store == .dram
  { s with sram := [], bs := [], ac := [], tlb := [], wcache := [], peerCopies := if d3 then [] else s.peerCopies
           clusters := s.clusters.map fun (k : Cluster) => { k with copies := [], modes := k.modes.map scr }
           bad := if d3 then bad ++ (s.l2bad.filter (·.2)).map fun b => ⟨.dram, b.1⟩ else bad
           l2bad := if d3 then [] else s.l2bad }

/-- IDLE_ENTRY. -/
def State.idleEntry (s : State) : Option State :=
  match s.idleSince with
  | some t =>
    if s.pstate == .d0 && s.idle && t + 40000 ≤ s.now then
      match stateFor s.power.tol with
      | .d0 => none
      | .d1 => some { s with pstate := .d1 }
      | p => some { (s.loseBelowD1 (p == .d3)) with pstate := p }
    else none
  | none => none

/-- Wake time of a state. -/
def wakeTime : Power → Nat | .d1 => 8000 | .d2 => 800000 | .d3 => 80000000 | _ => 0

/-- DEVICE_WAKE: a command packet has come; the wake time counts from its arrival. -/
def State.wake (s : State) : Option State :=
  if wakeTime s.pstate != 0 && (s.called.isSome || s.chans.toList.any fun c => !c.queue.isEmpty) then
    some { s with pstate := .waking (s.called.getD s.now + wakeTime s.pstate), called := none }
  else none

/-- The pinned lines of a cluster are fetched again, as loads would fetch them (13 R303, 20 R350). -/
def State.refetchPins (s : State) (cl : Nat) : State :=
  let k := s.cluster cl
  (((k.pins.map (·.line)).eraseDups.filter fun l => !(k.copies.any fun c => c.line == l))).foldl (fun t l => t.fillWhole cl .normal (l, 0)) s

/-- WAKE_COMPLETE: D0 again; pinned lines are refetched into the ways that their records name. -/
def State.wakeDone (s : State) : Option State :=
  match s.pstate with
  | .waking t => if t ≤ s.now then
      some ((List.range 64).foldl State.refetchPins { s with pstate := .d0, idleSince := none })
    else none
  | _ => none

def execMarketClear (rs : List PowerReading) (s : State) : Host.Outcome State Fault Refusal := .next ((s.marketClear rs).getD s)
def execBalanceMeasurement (rs : List PowerReading) (s : State) : Host.Outcome State Fault Refusal := .next (s.balance rs)
def execCoreGate (core : Nat) (s : State) : Host.Outcome State Fault Refusal := .next ((s.coreGate core).getD s)
def execColumnGate (c : Nat) (s : State) : Host.Outcome State Fault Refusal := .next ((s.columnGate c).getD s)
def execUngateReady (core : Nat) (s : State) : Host.Outcome State Fault Refusal := .next ((s.ungateReady core).getD s)
def execIdleEntry (s : State) : Host.Outcome State Fault Refusal := .next (s.idleEntry.getD s)
def execDeviceWake (s : State) : Host.Outcome State Fault Refusal := .next (s.wake.getD s)
def execWakeComplete (s : State) : Host.Outcome State Fault Refusal := .next (s.wakeDone.getD s)
def execDroopTrip (c : Nat) (s : State) : Host.Outcome State Fault Refusal := .next ((s.droopTrip c).getD s)
def execDroopExit (c : Nat) (s : State) : Host.Outcome State Fault Refusal := .next ((s.droopExit c).getD s)
def execTimingReplay (core : Nat) (s : State) : Host.Outcome State Fault Refusal := .next ((s.replay core).getD s)

end Sys2Proof.Machine
end

