-- ==== Sys2Proof/Machine/Host.lean ====
section
/-!
DEFINITION. The host's commands (21 R354-R361, R373, Table 21.2). The checks come in the order header, channel, boot stage, then the
command's own; layouts of payloads the spec does not give are in log entry 16.
-/

namespace Sys2Proof.Machine

/-! ### Performing a command -/

/-- Little-endian field of a payload. -/
def Packet.le (p : Packet) (at_ n : Nat) : Nat := leNat ((p.payload.drop at_).take n)

/-- A wrong VER, a reserved field, a status, or a LEN that does not fit (21 R355). -/
def Packet.malformed (p : Packet) (fits : Nat → Bool) : Bool :=
  p.ver != 1 || p.rsv1 != 0 || p.rsv0 != 0 || p.status != 0 || p.len.toNat != p.payload.length || !fits p.len.toNat

/-- The command has performed: the next one of its channel may follow. SEQQUERY carries no CSEQ and is taken when it comes, whatever its channel is
about (21 R359, log entry 68). -/
def State.performed (s : State) (p : Packet) : State :=
  let k := s.chan p.ch.toNat
  if p.op == 0x0C then s
  else { s.setChan p.ch.toNat { k with last := p.seq, busy := none, prog := none
                                       queue := if k.queue.head? == some p then k.queue.tail else k.queue } with
         pgot := s.pgot.filter fun x => x.ctx != p.ch.toNat }

/-- Performs a command with its one answering event, TAG echoed (21 R357). -/
def State.answer (s : State) (p : Packet) (op status : Nat) (payload : List Byte) : State :=
  (s.send [] p.ch.toNat 0 (mkEvent p.ch.toNat op status p.tag p.seq payload)).performed p

/-- Answers with STATUS. -/
def State.status (s : State) (p : Packet) (st : Nat) : State := s.answer p 0x81 st []

/-- A command's turn: it heads its channel's queue, and nothing that later commands wait for is under way (05 R121, 21 R357). -/
def State.turn (s : State) (p : Packet) : Bool :=
  let k := s.chan p.ch.toNat
  p.op == 0x0C || (k.queue.head? == some p && k.busy.isNone && !(p.ch == 64 && s.selftest.isSome))

/-- The common checks; `stage1` for what the boot ROM accepts (21 R366). None where the device does not perform commands now (log entry 8). -/
def State.perform (s : State) (p : Packet) (fits channels : Nat → Bool) (stage1 : Bool) (body : State → Option State) : Option State :=
  if p.ch.toNat > 64 || !s.supply || s.inReset || s.boot == 0 || s.pstate != .d0 || !s.turn p then none
  else if Packet.malformed p fits then some (s.status p 2)
  else if !channels p.ch.toNat then some (s.status p 3)
  else if s.boot == 1 && !stage1 then some (s.status p 8)
  else body s

/-- Channels of contexts, and the management channel. -/
def ctxChannel (c : Nat) : Bool := c < 64
def mgmtChannel (c : Nat) : Bool := c == 64
def anyChannel (_ : Nat) : Bool := true

/-! ### Host access to memory -/

/-- Cuts ranges at 256-byte lines: the port steps of an access. -/
def cutLines (ls : List (Loc × Nat)) : List (Loc × Nat) :=
  ls.flatMap fun p =>
    if p.2 == 0 then []
    else (List.range ((p.1.addr + p.2 - 1) / 256 - p.1.addr / 256 + 1)).map fun i =>
      let lo := max p.1.addr ((p.1.addr / 256 + i) * 256)
      (⟨p.1.store, lo⟩, min (p.1.addr + p.2) ((p.1.addr / 256 + i + 1) * 256) - lo)

/-- Why a host access does not go on: it must wait, one step of its walks or reads has been taken, or it answers a status in the state its reads
left. -/
inductive HostStop
  | held
  | more (s : State)
  | status (st : Nat) (s : State)
  deriving DecidableEq, Repr

/-- Translates parts of a range for the port agent in turn. -/
def State.hostEach (s : State) (ctx : Nat) (acc : Access) : List (Nat × Nat) → Except HostStop (List (Loc × Nat) × State)
  | [] => .ok ([], s)
  | (va, n) :: rest =>
    let here : Except HostStop (Loc × State) :=
      if va + n ≤ 2 ^ 48 && (s.ctx ctx).inAperture va then
        (if s.apertureOk ctx va n then .ok (apertureLoc va, s) else .error (.status 6 s))
      else match s.walkNow ctx va acc true with
        | .blocked => .error .held
        | .more t => .error (.more t)
        | .fault _ _ t => .error (.status 6 t)
        | .ok pa t => .ok (⟨.dram, pa⟩, t)
    match here with
    | .error e => .error e
    | .ok (l, t) =>
      match State.hostEach t ctx acc rest with
      | .ok (ls, t) => .ok ((l, n) :: ls, t)
      | .error e => .error e

/-- Translates a range in a context for the port agent, which needs V alone of each page (21 R356): none while it must wait, or a status (log
entry 10). -/
def State.hostRange (s : State) (ctx : Nat) (acc : Access) (rs : List (Nat × Nat)) : Except HostStop (List (Loc × Nat) × State) :=
  match s.hostEach ctx acc rs with
  | .ok (ls, t) => .ok (ls, t.dropWalks ctx)
  | .error (.status st t) => .error (.status st (t.dropWalks ctx))
  | .error e => .error e

/-- One port step of a write; the answer with the last. -/
def State.writeLine (s : State) (p : Packet) : Option State :=
  let k := s.chan p.ch.toNat
  match k.prog with
  | none => none
  | some { todo := [], .. } => some (s.status p 0)
  | some { todo := (l, n) :: rest, data } =>
    if s.heldOff none l n then none
    else
      let t := s.put l (data.take n)
      if rest.isEmpty then some (t.status p 0)
      else some (t.setChan p.ch.toNat { k with prog := some { todo := rest, data := data.drop n } })

/-- One port step of a read; DATA with the last, status 7 at uncorrectable data (20 R347). -/
def State.readLine (s : State) (p : Packet) : Option State :=
  let k := s.chan p.ch.toNat
  match k.prog with
  | none => none
  | some { todo := [], data } => some (s.answer p 0x82 0 data)
  | some { todo := (l, n) :: rest, data } =>
    if s.heldOff none l n then none
    else
      match s.meet l n with
      | (some _, t) => some (t.status p 7)
      | (none, t) =>
        let got := data ++ s.bytesAt l n
        if rest.isEmpty then some (t.answer p 0x82 0 got)
        else some (t.setChan p.ch.toNat { k with prog := some { todo := rest, data := got } })

/-- Begins a host access, or goes on with the one in progress; its first port step follows at once where nothing holds it off, unless its steps are
taken one by one. -/
def State.access (s : State) (p : Packet) (start : Except HostStop (List (Loc × Nat) × State)) (data : List Byte)
    (line : State → Option State) : Option State :=
  if (s.chan p.ch.toNat).prog.isSome then line s
  else match start with
    | .error .held => none
    | .error (.more t) => some t
    | .error (.status st t) => some (t.status p st)
    | .ok (ls, t) =>
      let t := t.setChan p.ch.toNat { t.chan p.ch.toNat with prog := some { todo := cutLines ls, data } }
      some (if t.split then t else (line t).getD t)

/-- A physical range for the port agent: DRAM. -/
def State.hostPhys (s : State) (pa n : Nat) : Except HostStop (List (Loc × Nat) × State) :=
  if pa + n ≤ dramEnd then .ok ([(⟨.dram, pa⟩, n)], s) else .error (.status 2 s)

/-- The device control region of Table 1.7. -/
def inControl (pa n : Nat) : Bool := 0xFF0000000000 ≤ pa && pa + n ≤ 0xFF0001000000

/-- A tower's reliability counters, 64 bytes (Table 20.2). -/
def State.counterBlock (s : State) (tower : Nat) : List Byte :=
  (s.counters[tower]?.getD (Vector.replicate 8 0)).toList.flatMap fun v => leBytes 8 v.toNat

/-- A byte of the control region: the counter blocks (20 R349); the spec gives nothing of the rest (log entry 25). -/
def State.controlByte (s : State) (pa : Nat) : Byte :=
  let o := pa - 0xFF0000100000
  if 0xFF0000100000 ≤ pa && o < 128 then (s.counterBlock (o / 64)).getD (o % 64) 0
  else Config.freeBytes s.free pa

def State.writeVa (s : State) (p : Packet) : Option State :=
  s.perform p (fun n => 9 ≤ n && n ≤ 4104) ctxChannel false fun s =>
    let c := p.ch.toNat
    if !(s.ctx c).valid && (s.chan c).prog.isNone then some (s.status p 4)
    else s.access p (s.hostRange c .write (cut4k (Packet.le p 0 8) (p.payload.length - 8))) (p.payload.drop 8) fun t => t.writeLine p

def State.writePa (s : State) (p : Packet) : Option State :=
  s.perform p (fun n => 9 ≤ n && n ≤ 4104) anyChannel false fun s =>
    let pa := Packet.le p 0 8
    let n := p.payload.length - 8
    if inControl pa n then some (s.status p (if p.ch == 64 then 0 else 3))
    else s.access p (s.hostPhys pa n) (p.payload.drop 8) fun t => t.writeLine p

/-- The length field of a read. -/
def readLenOk (p : Packet) : Bool := 1 ≤ Packet.le p 8 4 && Packet.le p 8 4 ≤ 4096

def State.readVa (s : State) (p : Packet) : Option State :=
  s.perform p (· == 12) ctxChannel false fun s =>
    let c := p.ch.toNat
    if !(s.ctx c).valid && (s.chan c).prog.isNone then some (s.status p 4)
    else if !readLenOk p then some (s.status p 2)
    else s.access p (s.hostRange c .read (cut4k (Packet.le p 0 8) (Packet.le p 8 4))) [] fun t => t.readLine p

def State.readPa (s : State) (p : Packet) : Option State :=
  s.perform p (· == 12) anyChannel false fun s =>
    let pa := Packet.le p 0 8
    let n := Packet.le p 8 4
    if !readLenOk p then some (s.status p 2)
    else if inControl pa n then
      (if p.ch == 64 then
        some (({ s with free := s.free + 1 } : State).answer p 0x82 0 ((List.range n).map fun i => s.controlByte (pa + i)))
      else some (s.status p 3))
    else s.access p (s.hostPhys pa n) [] fun t => t.readLine p

/-! ### LAUNCH (21 R360) -/

/-- The port agent's reads of a launch's tables (log entry 22); where they are taken one by one, what has been read is kept until the command has
performed. -/
def State.portRead (ctx : Nat) : Reader HostStop := fun va size s =>
  match s.pgot.find? fun x => x.ctx == ctx && x.va == va && x.n == size x.bytes with
  | some x => .ok (x.bytes, s)
  | none =>
    let read (n : Nat) (s : State) : Except HostStop (List Byte × State) := match s.hostRange ctx .read (cut4k va n) with
      | .error e => .error e
      | .ok (ls, t) =>
        if ls.any fun p => t.heldOff none p.1 p.2 then .error .held
        else match t.meetAll ls with
          | (some _, u) => .error (.status 7 u)
          | (none, u) => .ok (ls.flatMap fun p => t.bytesAt p.1 p.2, u)
    match readGrown read size s 4 [] s with
    | .error e => .error e
    | .ok (bs, u) =>
      if s.split && !bs.isEmpty then .error (.more { u with pgot := u.pgot ++ [{ ctx, va, n := bs.length, bytes := bs }] }) else .ok (bs, u)

/-- Fields of Table 21.4. -/
structure GraphBlock where
  lnum : Nat
  npred : Nat
  close : Bool
  pclose : Bool
  preds : List Nat
  gcompl : Nat
  pcompl : Nat
  deriving DecidableEq, Repr

def graphBlock (g : Nat) : GraphBlock :=
  { lnum := bits g 24 0, npred := bits g 27 25, close := g.testBit 28, pclose := g.testBit 29
    preds := (List.range 4).map fun i => bits g (63 + 32 * i) (32 + 32 * i)
    gcompl := bits g 207 160, pcompl := bits g 255 208 }

/-- The graph or the phase a block names (log entry 24). -/
def State.unitOf (s : State) (ctx : Nat) (kind : UnitKind) (object : Nat) : Option WorkUnit :=
  s.units.find? fun u => u.ctx == ctx && u.kind == kind && u.object == object

/-- A launch accepted in a graph of a context. -/
def State.inGraph (s : State) (ctx graph n : Nat) : Bool :=
  (s.launches.any fun l => l.ctx == ctx && l.lnum == n && l.parent.isNone && l.graph == graph) ||
  (s.ctx ctx).past.any fun u => u.kind == .graph && u.object == graph && u.lnums.contains n

/-- The graph block's own checks. The sizes of Table 6.1 (a graph of up to 4,096 launches, a phase of up to 256 graphs) are not among them: DESIGN
CHOICE (log entry 67), a launch beyond them is accepted, as R360 names no refusal for it. -/
def State.graphOk (s : State) (ctx g : Nat) : Bool :=
  let b := graphBlock g
  bits g 31 30 == 0 && b.npred ≤ 4 && b.gcompl != 0 && b.gcompl % 16 == 0 && b.pcompl != 0 && b.pcompl % 16 == 0 &&
  !((s.ctx ctx).lnums.contains b.lnum) && (b.preds.drop b.npred).all (· == 0) &&
  (b.preds.take b.npred).all (s.inGraph ctx b.gcompl) &&
  (match s.unitOf ctx .graph b.gcompl with | some u => u.inPhase == b.pcompl | none => true) &&
  (s.ctx ctx).past.all fun u => u.kind != .graph || u.object != b.gcompl || u.inPhase == b.pcompl

/-- A graph or a phase of a context accepts launches until it is closed, cancelled or complete (21 R360). -/
def State.unitAccepts (s : State) (ctx : Nat) (kind : UnitKind) (object : Nat) : Bool :=
  (match s.unitOf ctx kind object with
    | none => true
    | some u => u.status == .running && !u.closed) &&
  !((s.ctx ctx).past.any fun u => u.kind == kind && u.object == object)

/-- The units of an accepted launch: its graph and its phase, new or closed by it, and the context's job. The first launch after a job
has completed begins a new one, with JOBEND 0 (21 R373, log entry 24). -/
def State.joinUnits (s : State) (ctx : Nat) (b : GraphBlock) : State :=
  let k := s.ctx ctx
  let live (u : WorkUnit) : Bool := u.status == .running || u.status == .cancelling
  let fresh := !(s.units.any fun u => u.ctx == ctx && u.kind == .job && live u)
  let after := s.units.any fun u => u.ctx == ctx && u.kind == .job
  let s := if fresh && after then s.setCtx ctx { k with jobEnd := false } else s
  let mk (kind : UnitKind) (object inPhase : Nat) (closed : Bool) : WorkUnit :=
    { kind, ctx, object, inPhase, closed, cancelled := false, status := .running }
  let us := if fresh then (s.units.filter fun u => u.ctx != ctx || u.kind != .job) ++ [mk .job k.jobObj 0 false] else s.units
  let join (us : List WorkUnit) (kind : UnitKind) (object inPhase : Nat) (close : Bool) : List WorkUnit :=
    if us.any fun u => u.ctx == ctx && u.kind == kind && u.object == object then
      us.map fun u => if u.ctx == ctx && u.kind == kind && u.object == object then { u with closed := u.closed || close } else u
    else us ++ [mk kind object inPhase close]
  { s with units := join (join us .phase b.pcompl 0 b.pclose) .graph b.gcompl b.pcompl b.close }

/-- An accepted launch. One that has completed and is kept for its graph under the same number gives way to it (log entry 24). -/
def State.accept (s : State) (ctx : Nat) (b : GraphBlock) (c : Checked) (tag : Word) : State :=
  let k := s.ctx ctx
  let s := (s.setCtx ctx { k with lnums := k.lnums ++ [b.lnum] }).joinUnits ctx b
  let preds := b.preds.take b.npred
  let old := s.launches.filter fun p => p.ctx == ctx && preds.contains p.lnum
  let l := mkLaunch ctx b.lnum c c.desc.prio s.now
  let s : State := { s with launches := (s.launches.filter fun p => p.ctx != ctx || p.lnum != b.lnum || p.live) ++ [{ l with
      graph := b.gcompl, phase := b.pcompl, preds, tag
      readyAt := if !k.held && old.all fun p => p.status == .clean then some s.now else none }] }
  if (old.any fun p => !p.live && p.status != .clean) ||
      s.units.any fun u => u.ctx == ctx && u.cancelled && s.inUnit ctx b.lnum (.unit u.kind u.object) then
    s.cancelUnit ctx (.launch b.lnum)
  else s

def State.launchCmd (s : State) (p : Packet) : Option State :=
  s.perform p (· == 160) ctxChannel false fun s =>
    let c := p.ch.toNat
    let g := Packet.le p 0 32
    let b := graphBlock g
    let bs := p.payload.drop 32
    if !(s.ctx c).valid then some (s.status p 4)
    else if !descOk false bs then some (s.status p 2)
    else match readLaunch (State.portRead c) bs s with
      | .error .held => none
      | .error (.more t) => some t
      | .error (.status st t) => some (t.status p st)
      | .ok (none, t) => some (t.status p 2)
      | .ok (some k, t) =>
        if !s.graphOk c g then some (t.status p 2)
        else if !s.unitAccepts c .graph b.gcompl || !s.unitAccepts c .phase b.pcompl then some (t.status p 5)
        else if s.pendingLaunches c ≥ 4096 then some (t.status p 1)
        else some ((t.accept c b k p.tag).status p 0)

/-! ### RESUME, CANCEL, INVAL -/

/-- The agent a fault record names (Table 12.4): a group by its number, an engine command by its queue and its address. -/
structure RecordKey where
  kind : Nat
  ctx : Nat
  lnum : Nat
  wg : Nat
  grp : Nat
  queue : Nat
  iaddr : Nat
  deriving DecidableEq, Repr

def recordKey (r : Nat) : RecordKey :=
  { kind := bits r 7 0, ctx := bits r 23 18, lnum := bits r 63 32, wg := bits r 95 64, grp := bits r 99 96
    queue := bits r 103 100, iaddr := bits r 175 128 }

def RecordKey.namesWg (k : RecordKey) (w : Workgroup) : Bool := w.isOf k.ctx k.lnum k.wg
/-- The parked group that a record of kind 1 names. -/
def RecordKey.namesGroup (k : RecordKey) (g : Group) : Bool :=
  k.kind == 1 && g.isId k.grp && match g.wait with | .parked _ => true | _ => false
/-- The parked command that a record of kind 2 names. -/
def RecordKey.namesEntry (k : RecordKey) (e : Entry) : Bool :=
  k.kind == 2 && e.parked.isSome && e.poster.ctx == k.ctx && e.poster.lnum == k.lnum && e.poster.wg == k.wg && e.q == k.queue &&
  e.iaddr == k.iaddr

/-- Reissues a parked agent from its start; what it was told of its translations is void (01 R30). -/
def State.resumeAgent (s : State) (k : RecordKey) : Option State :=
  let group (g : Group) : Group := if k.namesGroup g then { g with wait := .none, xf := [] } else g
  let entry (e : Entry) : Entry := if k.namesEntry e then { e with parked := none, xf := [], seen := [] } else e
  let wg (w : Workgroup) : Workgroup := { w with groups := w.groups.map group, cmds := w.cmds.map entry }
  let hit := (s.wgs ++ s.away).any (fun w => k.namesWg w && (w.groups.any k.namesGroup || w.cmds.any k.namesEntry)) ||
    s.cores.toList.any fun c => (c.y.toList.flatten ++ c.mx ++ c.kept).any k.namesEntry
  if !hit then none
  else
    let s : State := { s with away := s.away.map fun w => if k.namesWg w then wg w else w }
    some ((s.everyWg k.namesWg wg).everyEntry entry)

def State.resumeCmd (s : State) (p : Packet) : Option State :=
  s.perform p (· == 64) ctxChannel false fun s =>
    let k := recordKey (Packet.le p 0 64)
    if k.ctx != p.ch.toNat then some (s.status p 2)
    else match s.resumeAgent k with
      | some t => some (t.status p 0)
      | none => some (s.status p 2)

def State.cancelCmd (s : State) (p : Packet) : Option State :=
  s.perform p (· == 8) ctxChannel false fun s =>
    match s.unitAt p.ch.toNat (Packet.le p 0 8) with
    | none | some (.pending ..) => some (s.status p 2)
    | some _ => some ((s.cancelAt p.ch.toNat (Packet.le p 0 8)).status p 0)

/-- INVAL: the status follows completion, and later commands of the channel wait for it (21 R357, log entry 9). -/
def State.invalCmd (s : State) (p : Packet) : Option State :=
  s.perform p (· == 12) ctxChannel false fun s =>
    let c := p.ch.toNat
    let va := Packet.le p 0 8 / 4096 * 4096
    let n := Packet.le p 8 4
    if (s.chan c).busy.isSome then none
    else if n != 0 && va + 4096 * n > 2 ^ 48 then some (s.status p 2)
    else
      let t := s.invalidate c va n (.channel c p.tag p.seq)
      let k := t.chan c
      some (t.setChan c { k with busy := some s.nextInval, queue := if k.queue.head? == some p then k.queue.tail else k.queue })

/-- INVALIDATION_COMPLETE: the group that asked goes on; a channel answers. -/
def State.invalComplete (s : State) (n : Nat) : Option State :=
  match s.invals.find? fun v => v.n == n with
  | none => none
  | some v =>
    if !s.invalDone v then none
    else
      let s : State := { s with invals := s.invals.filter fun x => x.n != n }
      match v.by_ with
      | .channel c tag cseq =>
        let s := s.send [] c 0 (mkEvent c 0x81 0 tag cseq [])
        some (s.setChan c { s.chan c with busy := none, last := cseq })
      | .group r =>
        let f (g : Group) : Group := if g.wait == .inval n then { g with wait := .none }.stepOn (s.macrosOf r.ctx r.lnum) else g
        some (s.everyWg (fun w => w.isOf r.ctx r.lnum r.wg) fun w => { w with groups := w.groups.map f })

/-! ### Context commands -/

/-- CTXSAVE: every resident workgroup is to be saved, and none of the context is placed until CTXRUN (12 R280, log entry 23). -/
def State.ctxsaveCmd (s : State) (p : Packet) : Option State :=
  s.perform p (· == 0) ctxChannel false fun s =>
    let c := p.ch.toNat
    let s := s.setCtx c { s.ctx c with held := true }
    some ((s.everyWg (fun w => w.ctx == c) fun w => { w with saving := true }).status p 0)

/-- CTXRUN: the context's launches may enter the ready set again (13 R288). -/
def State.ctxrunCmd (s : State) (p : Packet) : Option State :=
  s.perform p (· == 0) ctxChannel false fun s =>
    let c := p.ch.toNat
    let s := s.setCtx c { s.ctx c with held := false }
    some (((s.launches.filter fun l => l.ctx == c && l.live).foldl (fun t l => t.enterReady l) s).status p 0)

/-- CTXSET (21 R373, Table 21.8). -/
def State.ctxsetCmd (s : State) (p : Packet) : Option State :=
  s.perform p (· == 32) ctxChannel false fun s =>
    let c := p.ch.toNat
    let k := s.ctx c
    let b := Packet.le p 0 32
    let reserved := bits b 255 201 != 0 || bits b 199 176 != 0 || bits b 127 96 != 0 || bits b 63 48 != 0 || bits b 31 4 != 0
    let obj := bits b 175 128
    let running := s.units.any fun u => u.ctx == c && u.kind == .job && (u.status == .running || u.status == .cancelling)
    if reserved || (b.testBit 2 && obj % 16 != 0) then some (s.status p 2)
    else if b.testBit 2 && running then some (s.status p 1)
    else
      let k := if b.testBit 0 then { k with pinq := BitVec.ofNat 16 (bits b 47 32) } else k
      let k := if b.testBit 1 then { k with wdog := BitVec.ofNat 32 (bits b 95 64) } else k
      let k := if b.testBit 2 then { k with jobObj := obj } else k
      let k := if b.testBit 3 then { k with jobEnd := b.testBit 200 } else k
      some ((s.setCtx c k).status p 0)

/-- Bits of Table 1.2 that are not reserved. -/
def descMask : Nat := fields [(1, 0, 1), (2 ^ 36 - 1, 12, 36), (1, 64, 1), (2 ^ 19 - 1, 93, 19), (2 ^ 12 - 1, 128, 12), (2 ^ 36 - 1, 140, 36)]

/-- A context is quiet (01 R10): no group of it is resident or swapped out, and no engine command of it is queued. A group that has retired is not
resident (log entry 33), and a retained command is off its queue (05 R100). -/
def State.quiet (s : State) (c : Nat) : Bool :=
  !(s.wgs.any fun w => w.ctx == c && w.groups.any fun g => g.retired.isNone) && !(s.away.any fun w => w.ctx == c) &&
  s.cores.toList.all fun k => (k.y.toList.flatten ++ k.mx).all fun e => e.poster.ctx != c

/-- The tables of a descriptor that says V lie in DRAM (01 R10). -/
def Context.inDram (k : Context) : Bool :=
  k.root + 4096 ≤ dramEnd && (k.peern == 0 || k.peert + 16 * (k.peern + 1) ≤ dramEnd)

/-- CTXDESC: a descriptor that makes the context exist also gives its settings their values at context creation (log entry 23), and no launch and unit
of before is remembered. A context that exists keeps its units, a completed job among them, and with a graph that is not complete the launches accepted
in it, which later ones may still name (21 R360); its other launches that have completed are forgotten, and launch numbers start afresh but for those
still in use (log entry 24). -/
def State.ctxdescCmd (s : State) (p : Packet) : Option State :=
  s.perform p (· == 65) mgmtChannel false fun s =>
    let c := Packet.le p 0 1
    let desc : BitVec 512 := BitVec.ofNat 512 (Packet.le p 1 64 &&& descMask)
    if c ≥ 64 then some (s.status p 2)
    else if !s.quiet c then some (s.status p 1)
    else
      let k := s.ctx c
      let used := (s.launches.filter fun l => l.ctx == c && l.live && l.parent.isNone).map (·.lnum)
      let new := !k.valid && desc.getLsbD 0
      let live (u : WorkUnit) : Bool := u.status == .running || u.status == .cancelling
      let open_ (l : Launch) : Bool := l.parent.isNone && s.units.any fun u => u.ctx == c && u.kind == .graph && u.object == l.graph && live u
      let k' : Context := if new then { Context.reset with desc, lnums := used }
        else { k with desc, lnums := used, past := k.past ++ (s.pastOf c).filter fun x => !(s.units.any fun u => u.ctx == c && u.kind == x.kind && u.object == x.object && live u) }
      if k'.valid && !k'.inDram then some (s.status p 2)
      else
        let s : State := { s.dropWalks c with
          tlb := s.tlb.filter fun x => x.ctx != c, wcache := s.wcache.filter fun x => x.ctx != c, walks := s.walks.filter fun w => w.ctx != c
          launches := (s.launches.filter fun l => l.ctx != c || l.live || (!new && open_ l)).map fun l =>
            if l.ctx == c then { l with preds := l.preds.filter used.contains } else l
          units := s.units.filter fun u => u.ctx != c || live u || (!new && u.kind == .job) }
        some ((s.setCtx c k').status p 0)

/-! ### Device commands -/

/-- SEQQUERY (21 R359): the answer, then every retained event above the host's number, with its ESEQ. -/
def State.seqqueryCmd (s : State) (p : Packet) : Option State :=
  s.perform p (· == 4) anyChannel true fun s =>
    let c := p.ch.toNat
    let above := (s.chan c).log.filter fun e => Packet.le p 0 4 < e.eseq.toNat
    let s := (s.seqEvent c p.tag p.seq).performed p
    some (above.foldl (fun t e => t.send [] c 0 (.event c e)) s)

/-- POWER (Table 13.2). -/
def State.powerCmd (s : State) (p : Packet) : Option State :=
  s.perform p (· == 8) mgmtChannel false fun s =>
    let b := Packet.le p 0 8
    let cap := bits b 31 20
    if bits b 63 48 != 0 || bits b 4 0 != 0 || cap < 300 || 2200 < cap || bits b 7 6 == 3 then some (s.status p 2)
    else
      some (({ s with power := { tol := bits b 47 32, cap, ramp := bits b 19 8, droop := bits b 7 6, gdis := b.testBit 5 } } : State).status p 0)

/-- GATE of an upper core or of a column (13 R296, R297). -/
def State.gateCmd (s : State) (p : Packet) : Option State :=
  s.perform p (· == 3) mgmtChannel false fun s =>
    let kind := Packet.le p 0 1
    let n := Packet.le p 1 1
    let un := Packet.le p 2 1
    if un > 1 then some (s.status p 2)
    else match kind with
      | 0 => if !isUpper n then some (s.status p 2)
             else some ((if un == 1 then (s.ungateCore n).2 else (s.gateCore n).2).status p 0)
      | 1 => if n ≥ 32 then some (s.status p 2)
             else some ((if un == 1 then s.ungateColumn n else s.gateColumn n).status p 0)
      | _ => some (s.status p 2)

def State.cminCmd (s : State) (p : Packet) : Option State :=
  s.perform p (· == 2) mgmtChannel false fun s =>
    let cl := Packet.le p 0 1
    if cl ≥ 64 then some (s.status p 2) else some ((s.setCmin cl (Packet.le p 1 1)).status p 0)

def State.countersCmd (s : State) (p : Packet) : Option State :=
  s.perform p (· == 0) mgmtChannel false fun s => some (s.answer p 0x82 0 (s.counterBlock 0 ++ s.counterBlock 1))

/-- LINK: a fixed width other than the present one retrains the port, or gives the width to a retraining under way (21 R364). -/
def State.linkCmd (s : State) (p : Packet) : Option State :=
  s.perform p (· == 2) mgmtChannel false fun s =>
    let n := Packet.le p 0 1
    let mode := Packet.le p 1 1
    if n ≥ 16 || !([0, 8, 4, 2].contains mode) then some (s.status p 2)
    else
      let q := s.port n
      let q' : Port := if mode == 0 || mode == q.lanes || !(q.link == .up || q.link == .retraining) then { q with mode }
        else { q with mode, lanes := mode, link := .retraining }
      some ((s.setPort n q').status p 0)

def execWriteVa (p : Packet) (s : State) : Host.Outcome State Fault Refusal := .next ((s.writeVa p).getD s)
def execWritePa (p : Packet) (s : State) : Host.Outcome State Fault Refusal := .next ((s.writePa p).getD s)
def execReadVa (p : Packet) (s : State) : Host.Outcome State Fault Refusal := .next ((s.readVa p).getD s)
def execReadPa (p : Packet) (s : State) : Host.Outcome State Fault Refusal := .next ((s.readPa p).getD s)
def execLaunch (p : Packet) (s : State) : Host.Outcome State Fault Refusal := .next ((s.launchCmd p).getD s)
def execResume (p : Packet) (s : State) : Host.Outcome State Fault Refusal := .next ((s.resumeCmd p).getD s)
def execCancelCommand (p : Packet) (s : State) : Host.Outcome State Fault Refusal := .next ((s.cancelCmd p).getD s)
def execInval (p : Packet) (s : State) : Host.Outcome State Fault Refusal := .next ((s.invalCmd p).getD s)
def execInvalidationComplete (n : Nat) (s : State) : Host.Outcome State Fault Refusal := .next ((s.invalComplete n).getD s)
def execCtxsave (p : Packet) (s : State) : Host.Outcome State Fault Refusal := .next ((s.ctxsaveCmd p).getD s)
def execCtxrun (p : Packet) (s : State) : Host.Outcome State Fault Refusal := .next ((s.ctxrunCmd p).getD s)
def execCtxset (p : Packet) (s : State) : Host.Outcome State Fault Refusal := .next ((s.ctxsetCmd p).getD s)
def execSeqquery (p : Packet) (s : State) : Host.Outcome State Fault Refusal := .next ((s.seqqueryCmd p).getD s)
def execCtxdesc (p : Packet) (s : State) : Host.Outcome State Fault Refusal := .next ((s.ctxdescCmd p).getD s)
def execPower (p : Packet) (s : State) : Host.Outcome State Fault Refusal := .next ((s.powerCmd p).getD s)
def execGate (p : Packet) (s : State) : Host.Outcome State Fault Refusal := .next ((s.gateCmd p).getD s)
def execCmin (p : Packet) (s : State) : Host.Outcome State Fault Refusal := .next ((s.cminCmd p).getD s)
def execCounters (p : Packet) (s : State) : Host.Outcome State Fault Refusal := .next ((s.countersCmd p).getD s)
def execLink (p : Packet) (s : State) : Host.Outcome State Fault Refusal := .next ((s.linkCmd p).getD s)

end Sys2Proof.Machine
end

