-- ==== Sys2Proof/Machine/Sm.lean ====
section
/-!
DEFINITION. SM3 and SM2 as GB/T 32905 and GB/T 32918 give them, with the choices of 21 R369 (log entry 18).
-/

namespace Sys2Proof.Machine

/-! ### Big-endian byte strings -/

def beNat (bs : List Byte) : Nat := bs.foldl (fun a b => 256 * a + b.toNat) 0
def beBytes (n v : Nat) : List Byte := (leBytes n v).reverse

/-! ### SM3 -/

def rotl32 (x : Word) (k : Nat) : Word := x.rotateLeft (k % 32)
def sm3P0 (x : Word) : Word := x ^^^ rotl32 x 9 ^^^ rotl32 x 17
def sm3P1 (x : Word) : Word := x ^^^ rotl32 x 15 ^^^ rotl32 x 23

/-- The eight working words. -/
structure Sm3 where
  a : Word
  b : Word
  c : Word
  d : Word
  e : Word
  f : Word
  g : Word
  h : Word
  deriving DecidableEq, Repr

def Sm3.iv : Sm3 :=
  ⟨0x7380166f, 0x4914b2b9, 0x172442d7, 0xda8a0600, 0xa96f30bc, 0x163138aa, 0xe38dee4d, 0xb0fb0e4e⟩

/-- Message words W0 to W67, newest first, from 16 words newest first. -/
def sm3Expand : Nat → List Word → List Word
  | 0, ws => ws
  | n + 1, ws =>
    let w (k : Nat) : Word := ws.getD (k - 1) 0
    sm3Expand n ((sm3P1 (w 16 ^^^ w 9 ^^^ rotl32 (w 3) 15) ^^^ rotl32 (w 13) 7 ^^^ w 6) :: ws)

def sm3Round (ws : List Word) (j : Nat) (v : Sm3) : Sm3 :=
  let t : Word := if j < 16 then 0x79cc4519 else 0x7a879d8a
  let ss1 := rotl32 (rotl32 v.a 12 + v.e + rotl32 t j) 7
  let ss2 := ss1 ^^^ rotl32 v.a 12
  let ff := if j < 16 then v.a ^^^ v.b ^^^ v.c else (v.a &&& v.b) ||| (v.a &&& v.c) ||| (v.b &&& v.c)
  let gg := if j < 16 then v.e ^^^ v.f ^^^ v.g else (v.e &&& v.f) ||| (~~~v.e &&& v.g)
  let w := ws.getD j 0
  let tt1 := ff + v.d + ss2 + (w ^^^ ws.getD (j + 4) 0)
  let tt2 := gg + v.h + ss1 + w
  ⟨tt1, v.a, rotl32 v.b 9, v.c, sm3P0 tt2, v.e, rotl32 v.f 19, v.g⟩

/-- Compression of one 64-byte block. -/
def sm3Block (v : Sm3) (blk : List Byte) : Sm3 :=
  let ws := (sm3Expand 52 (((List.range 16).map fun i => BitVec.ofNat 32 (beNat ((blk.drop (4 * i)).take 4))).reverse)).reverse
  let x := (List.range 64).foldl (fun u j => sm3Round ws j u) v
  ⟨x.a ^^^ v.a, x.b ^^^ v.b, x.c ^^^ v.c, x.d ^^^ v.d, x.e ^^^ v.e, x.f ^^^ v.f, x.g ^^^ v.g, x.h ^^^ v.h⟩

/-- The digest of a byte string, as a number. -/
def sm3 (m : List Byte) : Nat :=
  let padded := m ++ [0x80] ++ List.replicate ((119 - m.length % 64) % 64) 0 ++ beBytes 8 (8 * m.length)
  let v := (List.range (padded.length / 64)).foldl (fun v i => sm3Block v ((padded.drop (64 * i)).take 64)) Sm3.iv
  [v.a, v.b, v.c, v.d, v.e, v.f, v.g, v.h].foldl (fun n w => 2 ^ 32 * n + w.toNat) 0

/-! ### The curve of GB/T 32918.5 -/

def sm2p : Nat := 0xFFFFFFFEFFFFFFFFFFFFFFFFFFFFFFFFFFFFFFFF00000000FFFFFFFFFFFFFFFF
def sm2a : Nat := sm2p - 3
def sm2b : Nat := 0x28E9FA9E9D9F5E344D5A9E4BCF6509A7F39789F515AB8F92DDBCBD414D940E93
def sm2n : Nat := 0xFFFFFFFEFFFFFFFFFFFFFFFFFFFFFFFF7203DF6B21C6052B53BBF40939D54123
def sm2g : Nat × Nat :=
  (0x32C4AE2C1F1981195F9904466A39C9948FE30BBFF2660BE1715A4589334C74C7,
   0xBC3736A2F4F6779C59BDCEE36B692153D0A9877CC62A474002DF32E52139F0A0)

/-- b^e mod m over 256 bits of e. -/
def powMod (m b e : Nat) : Nat :=
  ((List.range 256).foldl (fun (acc : Nat × Nat) i => (if e.testBit i then acc.1 * acc.2 % m else acc.1, acc.2 * acc.2 % m)) (1, b % m)).1

def invMod (m x : Nat) : Nat := powMod m x (m - 2)

/-- Addition of points; none is the point at infinity. -/
def ecAdd : Option (Nat × Nat) → Option (Nat × Nat) → Option (Nat × Nat)
  | none, q => q
  | p, none => p
  | some (x1, y1), some (x2, y2) =>
    if x1 == x2 && (y1 + y2) % sm2p == 0 then none
    else
      let k := if x1 == x2 then (3 * x1 * x1 + sm2a) * invMod sm2p (2 * y1) % sm2p
        else (y2 + sm2p - y1) * invMod sm2p (x2 + sm2p - x1) % sm2p
      let x3 := (k * k + 2 * sm2p - x1 - x2) % sm2p
      some (x3, (k * (x1 + sm2p - x3) + sm2p - y1) % sm2p)

/-- k times a point. -/
def ecMul (k : Nat) (p : Option (Nat × Nat)) : Option (Nat × Nat) :=
  ((List.range 256).foldl (fun (acc : Option (Nat × Nat) × Option (Nat × Nat)) i =>
    (if k.testBit i then ecAdd acc.1 acc.2 else acc.1, ecAdd acc.2 acc.2)) (none, p)).1

/-! ### SM2 signatures -/

/-- Z_A of a public key point under the default user identifier. -/
def sm2za (x y : Nat) : List Byte :=
  let ident : List Byte := [0x31, 0x32, 0x33, 0x34, 0x35, 0x36, 0x37, 0x38, 0x31, 0x32, 0x33, 0x34, 0x35, 0x36, 0x37, 0x38]
  beBytes 32 (sm3 (beBytes 2 128 ++ ident ++ [sm2a, sm2b, sm2g.1, sm2g.2, x, y].flatMap fun v => beBytes 32 v))

/-- e of a message under a public key. -/
def sm2e (x y : Nat) (m : List Byte) : Nat := sm3 (sm2za x y ++ m)

/-- A public key of 65 bytes. -/
def keyPoint (k : List Byte) : Option (Nat × Nat) :=
  if k.length == 65 && k.head? == some 4 then some (beNat ((k.drop 1).take 32), beNat (k.drop 33)) else none

/-- Verification of the 64-byte signature of a message. -/
def sm2Verify (key m sig : List Byte) : Bool :=
  match keyPoint key with
  | none => false
  | some (x, y) =>
    let r := beNat (sig.take 32)
    let s := beNat ((sig.drop 32).take 32)
    let t := (r + s) % sm2n
    if r == 0 || sm2n ≤ r || s == 0 || sm2n ≤ s || t == 0 then false
    else match ecAdd (ecMul s (some sm2g)) (ecMul t (some (x, y))) with
      | some (x1, _) => (sm2e x y m + x1) % sm2n == r
      | none => false

/-- A signature with a private key, the first usable of the random numbers offered. -/
def sm2Sign (d : Nat) (m : List Byte) : List Nat → List Byte
  | [] => List.replicate 64 0
  | k :: ks =>
    match ecMul d (some sm2g), ecMul k (some sm2g) with
    | some (x, y), some (x1, _) =>
      let r := (sm2e x y m + x1) % sm2n
      let s := invMod sm2n (1 + d) * (k + sm2n * d - r * d) % sm2n
      if r == 0 || (r + k) % sm2n == 0 || s == 0 then sm2Sign d m ks else beBytes 32 r ++ beBytes 32 s
    | _, _ => sm2Sign d m ks

end Sys2Proof.Machine
end

