-- ==== Sys2Proof/Machine/Boot.lean ====
section
/-!
DEFINITION. Reset, boot, firmware, attestation and self-test (21 R366-R371), and the module's connections.
-/

namespace Sys2Proof.Machine

/-! ### Reset (21 R366) -/

/-- Full reset: the state after reset, but for the schedule of what is to come and the count of free values drawn. -/
def State.fullReset (s : State) : State := { State.reset with moves := s.moves, free := s.free }

/-- RESET yields no event. -/
def State.resetCmd (s : State) (p : Packet) : Option State :=
  s.perform p (· == 0) mgmtChannel true fun s => some s.fullReset

/-- BOOT on the management channel (Table 21.3): the stage and the firmware version (log entry 16). -/
def State.bootEvent (s : State) : State :=
  s.send [] 64 0 (mkEvent 64 0x89 0 tagNone 0 (leBytes 1 s.boot ++ leBytes 4 s.fw.version.toNat))

/-- BOOT_ROM_READY: every port is trained, to the lanes named (8 for a port not named); stage 1. -/
def State.bootRomReady (s : State) (trained : List Nat) : Option State :=
  if s.boot == 0 && s.supply && !s.inReset then
    let width (n : Nat) : Nat := match trained[n]? with | some 4 => 4 | some 2 => 2 | _ => 8
    let s : State := { s with boot := 1, ports := Vector.ofFn fun i : Fin 16 => { s.port i.val with lanes := width i.val, link := .up } }
    some s.bootEvent
  else none

/-! ### Firmware (21 R367) -/

/-- A chunk of an image at its offset. -/
def State.fwloadCmd (s : State) (p : Packet) : Option State :=
  s.perform p (· == 4100) mgmtChannel true fun s =>
    if s.boot != 1 then some (s.status p 8)
    else
      let o := Packet.le p 0 4
      let s : State := { s with fw := { s.fw with chunks := (s.fw.chunks.filter fun c => c.1 != o) ++ [(o, p.payload.drop 4)] } }
      some (s.status p 0)

/-- A byte of the loaded image: the chunk loaded last counts. -/
def Firmware.byte (f : Firmware) (i : Nat) : Option Byte :=
  match f.chunks.reverse.find? fun c => c.1 ≤ i && i < c.1 + c.2.length with
  | some c => c.2[i - c.1]?
  | none => none

def Firmware.range (f : Firmware) (a n : Nat) : Option (List Byte) := ((List.range n).map fun i => f.byte (a + i)).foldr
  (fun b r => match b, r with | some x, some xs => some (x :: xs) | _, _ => none) (some [])

/-- An image that passes every check: its version and the digest of its header and body. The image length counts the header and the body, and
the signer's public key follows (log entry 18). -/
def Firmware.check (f : Firmware) : Option (Word × BitVec 256) :=
  match f.range 0 96 with
  | none => none
  | some hd =>
    let version := leNat ((hd.drop 4).take 4)
    let len := leNat ((hd.drop 8).take 4)
    if hd.take 4 != [0x59, 0x46, 0x57, 0x31] || !((hd.drop 12).take 20).all (· == 0) || len < 96 then none
    else match f.range 96 (len - 96), f.range len 65 with
      | some body, some key =>
        if BitVec.ofNat 256 (sm3 key) == Config.fuse 0 && sm2Verify key (hd.take 32 ++ body) (hd.drop 32) &&
            (Config.fuse 2).toNat % 2 ^ 32 ≤ version then
          some (BitVec.ofNat 32 version, BitVec.ofNat 256 (sm3 (hd ++ body)))
        else none
      | _, _ => none

/-- FWSTART: any failure leaves the ROM in stage 1. -/
def State.fwstartCmd (s : State) (p : Packet) : Option State :=
  s.perform p (· == 0) mgmtChannel true fun s =>
    if s.boot != 1 || s.fw.running then some (s.status p 8)
    else match s.fw.check with
      | none => some (s.status p 2)
      | some (version, digest) =>
        some (({ s with fw := { chunks := s.fw.chunks, running := true, version, digest } } : State).status p 0)

/-- FIRMWARE_READY: the DRAM is trained, stage 2, every channel is open. -/
def State.firmwareReady (s : State) : Option State :=
  if s.boot == 1 && s.fw.running && s.supply && !s.inReset then some ({ s with boot := 2 } : State).bootEvent else none

/-! ### Attestation (21 R368, R369) -/

/-- The payload before the signature, the digest with its least significant byte first as every number of several bytes has it (00 R2; 21 R369 excepts r, s
and the coordinates of points alone). -/
def State.attestation (s : State) : List Byte :=
  let cert := Config.certificate.take 1024
  leBytes 2 cert.length ++ cert ++ leBytes 4 s.fw.version.toNat ++ leBytes 32 (if s.boot == 2 then s.fw.digest.toNat else 0) ++
  leBytes 8 (Config.fuse 3).toNat

def State.attestCmd (s : State) (p : Packet) : Option State :=
  s.perform p (· == 32) mgmtChannel true fun s =>
    let body := s.attestation
    let k (i : Nat) : Nat := 1 + leNat ((List.range 32).map fun j => Config.freeBytes (s.free + i) j) % (sm2n - 1)
    let sig := sm2Sign (Config.fuse 1).toNat (p.payload ++ body) ((List.range 8).map k)
    some (({ s with free := s.free + 8 } : State).answer p 0x88 0 (body ++ sig))

/-! ### Self-test (21 R370) -/

def State.selftestCmd (s : State) (p : Packet) : Option State :=
  s.perform p (· == 2) mgmtChannel false fun s =>
    if s.selftest.isSome then none
    else if !s.idle then some (s.status p 1)
    else
      let k := s.chan 64
      let s : State := { s with selftest := some (Packet.le p 0 2, p.tag, p.seq) }
      some (s.setChan 64 { k with queue := if k.queue.head? == some p then k.queue.tail else k.queue })

/-- SELFTEST_DONE: what the stages found, 34 bytes for each port of the mask in ascending order: the pass bits, the usable lane count, each
lane's error count. A port is left at its usable width. -/
def State.selftestDone (s : State) (results : List Byte) : Option State :=
  match s.selftest with
  | none => none
  | some (mask, tag, cseq) =>
    let ports := (List.range 16).filter mask.testBit
    let width (n : Nat) : Option Nat := (ports.idxOf? n).bind fun i => (results[34 * i + 1]?).map BitVec.toNat
    let s : State := { s with selftest := none
                              ports := Vector.ofFn fun i : Fin 16 => match width i.val with
                                | some w => { s.port i.val with lanes := if w ≥ 8 then 8 else if w ≥ 4 then 4 else 2 }
                                | none => s.port i.val }
    let s := s.send [] 64 0 (mkEvent 64 0x87 0 tag cseq (results.take (34 * ports.length)))
    some (s.setChan 64 { s.chan 64 with last := cseq })

/-! ### The module (21 R371, 13 R302) -/

/-- The supply goes: all state is lost, and the device hears nothing. -/
def State.supplyOff (s : State) : State := { s.fullReset with supply := false }
/-- MRST_N low holds the device in reset. -/
def State.mrst (s : State) : State := { s.fullReset with supply := s.supply, inReset := true }
/-- The release of the reset pin is a full reset; the module switches its supply on before it. -/
def State.pinRelease (s : State) : State := s.fullReset

def execReset (p : Packet) (s : State) : Host.Outcome State Fault Refusal := .next ((s.resetCmd p).getD s)
def execResetPin (s : State) : Host.Outcome State Fault Refusal := .next s.pinRelease
def execBootRomReady (trained : List Nat) (s : State) : Host.Outcome State Fault Refusal := .next ((s.bootRomReady trained).getD s)
def execFwload (p : Packet) (s : State) : Host.Outcome State Fault Refusal := .next ((s.fwloadCmd p).getD s)
def execFwstart (p : Packet) (s : State) : Host.Outcome State Fault Refusal := .next ((s.fwstartCmd p).getD s)
def execFirmwareReady (s : State) : Host.Outcome State Fault Refusal := .next (s.firmwareReady.getD s)
def execAttest (p : Packet) (s : State) : Host.Outcome State Fault Refusal := .next ((s.attestCmd p).getD s)
def execSelftest (p : Packet) (s : State) : Host.Outcome State Fault Refusal := .next ((s.selftestCmd p).getD s)
def execSelftestDone (results : List Byte) (s : State) : Host.Outcome State Fault Refusal := .next ((s.selftestDone results).getD s)
def execModuleSupplyOff (s : State) : Host.Outcome State Fault Refusal := .next s.supplyOff
def execMrstNAssert (s : State) : Host.Outcome State Fault Refusal := .next s.mrst
/-- THERM_N goes low; the device keeps running. -/
def execOverTemperature (s : State) : Host.Outcome State Fault Refusal := .next { s with hot := true }

end Sys2Proof.Machine
end

