-- ==== Sys2Proof/Machine/Convert.lean ====
section
/-!
DEFINITION. Conversions (09 R215-R221) and stochastic rounding (03 R64).
-/

namespace Sys2Proof.Machine

/-- z of 03 R64 for a lane. -/
def srZ (g : Group) (l : Nat) : Nat := (mix (g.srseed ^^^ BitVec.ofNat 32 (64 * g.srn.toNat + l))).toNat
/-- The counter after a stochastic conversion. -/
def Group.srNext (g : Group) (sr : Bool) : Group := if sr then { g with srn := g.srn + 1 } else g

/-- Types converted as floating point. -/
def fltTy : Ty → Bool
  | .f32 | .f16 | .bf16 | .f16x2 | .bf16x2 | .e4m3x4 | .e5m2x4 => true
  | _ => false

/-- Converts element k of a source to one element of a destination type (09 R216): the element's bits, or register contents for an
unpacked integer. The saturation of a result in floating point is that of a conversion between floating types. -/
def cvtOne (src dst : Ty) (sat : Bool) (r : Rnd) (x k : Nat) : Nat × Flags :=
  let v : FVal := if fltTy src then fdec src x k else ofInt (if src == .i8x4 then sext 8 (elemAt src x k) else intOf src x)
  if fltTy dst then roundF (fmtOf dst) r (sat && fltTy src) v
  else
    let put (y : Int) : Nat := if dst == .i8x4 then wrap 8 y else intBits dst y
    if fltTy src then
      let (y, f) := toIntSat r (intMin dst) (intMax dst) v
      (put y, f)
    else
      let y := if src == .i8x4 then sext 8 (elemAt src x k) else intOf src x
      (put (if sat then satI dst y else y), 0)

/-- CVT (Table 9.5): a scalar or unpacked value per lane, or a packed value from two or four sources. -/
def execCvt (c : Ctl) (o : OpsR) (s : State) : Host.Outcome State Fault Refusal :=
  issueWord (.cvt c o) s false false fun _ e s =>
    let fn := c.fn.toNat
    let src := tyOfNat (cvtSrc o.x)
    let rnd (l : Nat) : Rnd := if fn ≥ 2 then .sr (srZ e.g l) else .mode (modeOf o.x.toNat)
    let one (op : Operand) (l k : Nat) : Nat × Flags := cvtOne src c.ty (fn % 2 == 1) (rnd l) (e.val src op l) k
    let g := e.compute c.ty o.d e.m fun l =>
      match cvtKind (tyNat c.ty) (cvtSrc o.x) fn with
      | .pack 2 => packElems c.ty [one o.a l 0, one o.b l 0]
      | .pack _ => packElems c.ty [one o.a l 0, one o.b l 0, one o.c l 0, one o.e l 0]
      | _ => one o.a l (cvtElem o.x)
    .done s (g.srNext (fn ≥ 2))

/-- CVTB converts blocks of 32 lanes (09 R217). -/
def execCvtb (c : Ctl) (o : OpsR) (s : State) : Host.Outcome State Fault Refusal :=
  issueWord (.cvtb c o) s false false fun _ e s =>
    let fn := c.fn.toNat % 8
    let sr := c.fn.toNat ≥ 8
    let rnd (l : Nat) : Rnd := if sr then .sr (srZ e.g l) else .mode (modeOf o.x.toNat)
    let block (k : Nat) : BlockCodes :=
      cvtBlock fn rnd (((lanesOf e.m).filter fun l => l / 32 == k).map fun l => (l, FP32.decode (e.val .f32 o.a l)))
    let b0 := block 0
    let b1 := block 1
    let g := match o.d with
      | .vec n => e.g.writeV .b32 n (b0.codes ++ b1.codes)
      | _ => e.g
    .done s (((g.writeS (sideTy c.fn.toNat) o.e (placeSides fn b0.side b1.side)).flag (b0.flags ||| b1.flags)).srNext sr)

/-- DECB decodes codes to f32 (09 R221). -/
def execDecb (c : Ctl) (o : OpsR) (s : State) : Host.Outcome State Fault Refusal :=
  issueWord (.decb c o) s false false fun _ e s =>
    let fn := c.fn.toNat
    let sides := if sideTy fn == .i64 then e.pair o.b else e.u o.b
    .done s (e.compute .f32 o.d e.m fun l =>
      let other := if e.m.getLsbD (l ^^^ 1) then e.val .b32 o.a (l ^^^ 1) else 0
      let (v, f) := blockVal fn (sideOf fn sides (l / 32)) (e.val .b32 o.a l) other
      let (r, h) := roundF FP32 (.mode (modeOf o.x.toNat)) false v
      (r, f ||| h))

end Sys2Proof.Machine
end

