-- ==== Sys2Proof/Machine/Floats.lean ====
section
/-!
DEFINITION. Floating-point arithmetic and special functions (09 R206-R213).
-/

namespace Sys2Proof.Machine

/-- The rounding mode in X[1:0]. -/
def xm (o : OpsR) : Mode := modeOf o.x.toNat

def execFadd (c : Ctl) (o : OpsR) (s : State) : Host.Outcome State Fault Refusal :=
  laneForm (.fadd c o) c.ty o.d s fun e l => faddV c.ty (xm o) (e.val c.ty o.a l) (e.val c.ty o.b l)
def execFsub (c : Ctl) (o : OpsR) (s : State) : Host.Outcome State Fault Refusal :=
  laneForm (.fsub c o) c.ty o.d s fun e l => fsubV c.ty (xm o) (e.val c.ty o.a l) (e.val c.ty o.b l)
def execFmul (c : Ctl) (o : OpsR) (s : State) : Host.Outcome State Fault Refusal :=
  laneForm (.fmul c o) c.ty o.d s fun e l => fmulV c.ty (xm o) (e.val c.ty o.a l) (e.val c.ty o.b l)
def execFfma (c : Ctl) (o : OpsR) (s : State) : Host.Outcome State Fault Refusal :=
  laneForm (.ffma c o) c.ty o.d s fun e l =>
    ffmaV c.ty (xm o) (e.val c.ty o.a l) (e.val c.ty o.b l) (e.val c.ty o.c l)
def execFmin (c : Ctl) (o : OpsR) (s : State) : Host.Outcome State Fault Refusal :=
  laneForm (.fmin c o) c.ty o.d s fun e l => fminMax false c.ty (e.val c.ty o.a l) (e.val c.ty o.b l)
def execFmax (c : Ctl) (o : OpsR) (s : State) : Host.Outcome State Fault Refusal :=
  laneForm (.fmax c o) c.ty o.d s fun e l => fminMax true c.ty (e.val c.ty o.a l) (e.val c.ty o.b l)
def execFcmp (c : Ctl) (o : OpsR) (s : State) : Host.Outcome State Fault Refusal :=
  splitForm (.fcmp c o) o.d o.e s (varies o.a || varies o.b) fun e l =>
    fCmp c.fn.toNat c.ty (e.val c.ty o.a l) (e.val c.ty o.b l)
def execFrcp (c : Ctl) (o : OpsR) (s : State) : Host.Outcome State Fault Refusal :=
  laneForm (.frcp c o) .f32 o.d s fun e l => frcpF (FP32.decode (e.val .f32 o.a l))
def execFrsq (c : Ctl) (o : OpsR) (s : State) : Host.Outcome State Fault Refusal :=
  laneForm (.frsq c o) .f32 o.d s fun e l => frsqF (FP32.decode (e.val .f32 o.a l))
def execFexp2 (c : Ctl) (o : OpsR) (s : State) : Host.Outcome State Fault Refusal :=
  laneForm (.fexp2 c o) .f32 o.d s fun e l => fexp2F (FP32.decode (e.val .f32 o.a l))
def execFlog2 (c : Ctl) (o : OpsR) (s : State) : Host.Outcome State Fault Refusal :=
  laneForm (.flog2 c o) .f32 o.d s fun e l => flog2F (FP32.decode (e.val .f32 o.a l))
def execFsin (c : Ctl) (o : OpsR) (s : State) : Host.Outcome State Fault Refusal :=
  laneForm (.fsin c o) .f32 o.d s fun e l => trigF false (FP32.decode (e.val .f32 o.a l))
def execFcos (c : Ctl) (o : OpsR) (s : State) : Host.Outcome State Fault Refusal :=
  laneForm (.fcos c o) .f32 o.d s fun e l => trigF true (FP32.decode (e.val .f32 o.a l))
def execFtanh (c : Ctl) (o : OpsR) (s : State) : Host.Outcome State Fault Refusal :=
  laneForm (.ftanh c o) .f32 o.d s fun e l => ftanhF (FP32.decode (e.val .f32 o.a l))
def execFsqrt (c : Ctl) (o : OpsR) (s : State) : Host.Outcome State Fault Refusal :=
  laneForm (.fsqrt c o) .f32 o.d s fun e l => fsqrtF (.mode (xm o)) (FP32.decode (e.val .f32 o.a l))
def execFdiv (c : Ctl) (o : OpsR) (s : State) : Host.Outcome State Fault Refusal :=
  laneForm (.fdiv c o) .f32 o.d s fun e l =>
    fdivF (.mode (xm o)) (FP32.decode (e.val .f32 o.a l)) (FP32.decode (e.val .f32 o.b l))
def execFrnd (c : Ctl) (o : OpsR) (s : State) : Host.Outcome State Fault Refusal :=
  laneForm (.frnd c o) c.ty o.d s fun e l => frndV c.ty (xm o) (e.val c.ty o.a l)
def execFscale (c : Ctl) (o : OpsR) (s : State) : Host.Outcome State Fault Refusal :=
  laneForm (.fscale c o) c.ty o.d s fun e l => fscaleV c.ty (xm o) (e.val c.ty o.a l) (e.val .i32 o.b l)
def execFclass (c : Ctl) (o : OpsR) (s : State) : Host.Outcome State Fault Refusal :=
  laneForm (.fclass c o) .ui32 o.d s fun e l => (fclassV c.ty (e.val c.ty o.a l), 0)
/-- FCLASS.m sorts lanes by a class mask (09 R211). -/
def execFclassM (c : Ctl) (o : OpsR) (s : State) : Host.Outcome State Fault Refusal :=
  splitForm (.fclassM c o) o.d o.e s (varies o.a) fun e l =>
    fclassV c.ty (e.val c.ty o.a l) &&& e.u o.b % 512 != 0
def execFdot2 (c : Ctl) (o : OpsR) (s : State) : Host.Outcome State Fault Refusal :=
  laneForm (.fdot2 c o) .f32 o.d s fun e l =>
    fdot2V c.ty (xm o) (e.val c.ty o.a l) (e.val c.ty o.b l) (e.val .f32 o.c l)
end Sys2Proof.Machine
end

