-- ==== Sys2Proof/Machine/Lanes.lean ====
section
/-!
DEFINITION. Lane forms (08 R187-R192).
-/

namespace Sys2Proof.Machine

/-- The position of the live lane with a thread identifier (08 R188). -/
def Group.posOf (g : Group) (t : Nat) : Option Nat := (lanesOf g.live).find? fun l => (g.tidOf l).toNat == t

/-! ### PULL, PUSH, BCAST (08 R188-R190) -/

/-- The lane a lane takes its value from; none where the rule names none (08 R188). -/
def pullFrom (g : Group) (fn l v : Nat) : Option Nat :=
  match fn with
  | 0 => some v
  | 1 => if v ≤ l then some (l - v) else none
  | 2 => some (l + v)
  | 3 => some (l ^^^ v)
  | _ => g.posOf v

/-- A source lane that lies in a map. -/
def inMap (m : LaneMap) : Option Nat → Option Nat
  | some s => if m.getLsbD s then some s else none
  | none => none

def execPull (c : Ctl) (o : OpsR) (s : State) : Host.Outcome State Fault Refusal :=
  issueWord (.pull c o) s true true fun v e s =>
    let cand := e.g.omap (rd [.val] .ui32) o.b
    let ma := e.g.omap (rd [.v] c.ty) o.a
    let src (l : Nat) : Option Nat := inMap ma (pullFrom e.g c.fn.toNat l (e.val .ui32 o.b l))
    if c.mc && (lanesOf cand).any fun l => (src l).isNone then .trap .mapMismatch
    else
      let m := mapOf ((lanesOf cand).filter fun l => (src l).isSome)
      .done s (e.compute c.ty v.d m fun l => (((src l).map fun k => e.val c.ty o.a k).getD 0, 0))

/-- Destinations and sources of a PUSH in ascending source position (08 R189). -/
def pushPairs (e : Env) (o : OpsR) (fn : Nat) (src : LaneMap) : List (Nat × Nat) :=
  (lanesOf src).filterMap fun l =>
    (inMap e.g.live (if fn == 0 then some (e.val .ui32 o.b l) else e.g.posOf (e.val .ui32 o.b l))).map fun t => (t, l)

def execPush (c : Ctl) (o : OpsR) (s : State) : Host.Outcome State Fault Refusal :=
  issueWord (.push c o) s false false fun v e s =>
    let ps := pushPairs e o c.fn.toNat e.m
    .done s (e.compute c.ty v.d (mapOf (ps.map (·.1))) fun t =>
      (((ps.reverse.find? fun p => p.1 == t).map fun p => e.val c.ty o.a p.2).getD 0, 0))

def execBcast (c : Ctl) (o : OpsR) (s : State) : Host.Outcome State Fault Refusal :=
  issueWord (.bcast c o) s true false fun v e s =>
    let ma := e.g.omap (rd [.v] c.ty) o.a
    match inMap ma (if c.fn == 0 then some (e.u o.b) else e.g.posOf (e.u o.b)) with
    | some k => .done s (e.compute c.ty v.d e.g.live fun _ => (e.val c.ty o.a k, 0))
    | none => if c.mc then .trap .mapMismatch else .done s (e.compute c.ty v.d 0 fun _ => (0, 0))

/-! ### LANEMAP (08 R190) -/

/-- A vector result on the lanes of the result map for which a value is given. -/
def Env.partialV (e : Env) (d : Operand) (f : Nat → Option Nat) : Group :=
  e.compute .b32 d (mapOf ((lanesOf e.m).filter fun l => (f l).isSome)) fun l => ((f l).getD 0, 0)

def execLanemapPos (c : Ctl) (o : OpsR) (s : State) : Host.Outcome State Fault Refusal :=
  issueWord (.lanemapPos c o) s false false fun _ e s =>
    .done s (e.partialV o.d fun l => e.g.posOf (e.val .ui32 o.a l))

def execLanemapTid (c : Ctl) (o : OpsR) (s : State) : Host.Outcome State Fault Refusal :=
  issueWord (.lanemapTid c o) s false false fun _ e s =>
    .done s (e.partialV o.d fun l => (inMap e.g.live (some (e.val .ui32 o.a l))).map fun p => (e.g.tidOf p).toNat)

/-! ### VOTE (08 R191) -/

def execVote (c : Ctl) (o : OpsR) (s : State) : Host.Outcome State Fault Refusal :=
  issueWord (.vote c o) s false false fun _ e s =>
    let ls := lanesOf e.m
    let x (l : Nat) : Nat := e.val c.ty o.a l
    match c.fn.toNat with
    | 0 => .done s (e.g.writeP o.d (ls.any fun l => x l != 0))
    | 1 => .done s (e.g.writeP o.d (ls.all fun l => x l != 0))
    | 2 => .done s (e.g.writeP o.d (ls.all fun l => x l == x (ls.headD 0)))
    | _ =>
      let m := mapOf (ls.filter fun l => x l != 0)
      .done s ((e.g.writeM o.d m).writeS .i64 o.d m.toNat)

/-! ### REDUCE, SCAN (08 R192) -/

/-- The identity of an operation (Table 8.7). -/
def redIdent (op : Nat) (ty : Ty) : Nat :=
  match op, ty with
  | 1, .f32 => FP32.infCode false
  | 2, .f32 => FP32.infCode true
  | 1, _ => intBits ty (intMax ty)
  | 2, _ => intBits ty (intMin ty)
  | 3, .i64 => 2 ^ 64 - 1
  | 3, _ => 2 ^ 32 - 1
  | _, _ => 0

/-- An operation over a list of values in ascending lane position, with the flags of an f32 sum, rounded once. -/
def redOver (op : Nat) (ty : Ty) (mode : Mode) (xs : List Nat) : Nat × Flags :=
  match xs with
  | [] => (redIdent op ty, 0)
  | x :: t =>
    match op, ty with
    | 0, .f32 =>
      let (v, f) := sumExact mode (xs.map FP32.decode)
      let (r, g) := roundF FP32 (.mode mode) false v
      (r, f ||| g)
    | 0, _ => (intBits ty ((xs.map fun x => intOf ty x).foldl (· + ·) 0), 0)
    | 1, .f32 => ((roundF FP32 rne false (t.foldl (fun a y => fminV a (FP32.decode y)) (FP32.decode x))).1, 0)
    | 2, .f32 => ((roundF FP32 rne false (t.foldl (fun a y => fmaxV a (FP32.decode y)) (FP32.decode x))).1, 0)
    | 1, _ => (t.foldl (fun a y => if intOf ty y < intOf ty a then y else a) x, 0)
    | 2, _ => (t.foldl (fun a y => if intOf ty a < intOf ty y then y else a) x, 0)
    | 3, _ => (t.foldl (fun a y => a &&& y) x, 0)
    | 4, _ => (t.foldl (fun a y => a ||| y) x, 0)
    | _, _ => (t.foldl (fun a y => a ^^^ y) x, 0)

def execReduce (c : Ctl) (o : OpsR) (s : State) : Host.Outcome State Fault Refusal :=
  issueWord (.reduce c o) s false false fun _ e s =>
    let (r, f) := redOver c.fn.toNat c.ty (modeOf o.x.toNat) ((lanesOf e.m).map fun l => e.val c.ty o.a l)
    .done s (((e.g.writeS c.ty o.d r).writeP o.e (e.m != 0)).flag f)

/-- SCAN writes the prefix over lanes at or below each lane, strictly below for .excl, and the total. -/
def execScan (c : Ctl) (o : OpsR) (s : State) : Host.Outcome State Fault Refusal :=
  issueWord (.scan c o) s false false fun _ e s =>
    let op := c.fn.toNat % 8
    let ls := lanesOf e.m
    let pre (p : Nat → Bool) : Nat × Flags :=
      redOver op c.ty (modeOf o.x.toNat) ((ls.filter p).map fun l => e.val c.ty o.a l)
    let g := e.compute c.ty o.d e.m fun l => pre fun k => if c.fn.toNat ≥ 8 then k < l else k ≤ l
    let (r, f) := pre fun _ => true
    -- the total meets a flag's condition only where E takes it (03 R66)
    .done s (if o.e == .none then g else (g.writeS c.ty o.e r).flag f)

end Sys2Proof.Machine
end

