-- ==== Sys2Proof/Machine/Sparse.lean ====
section
/-!
DEFINITION. PRUNE, the intersect unit and IDOT4 (11 R269, R270).
-/

namespace Sys2Proof.Machine

/-! ### PRUNE (11 R269) -/

/-- Saliency of a lane as an order key: the magnitude code of the rounded product, NaN above infinity. -/
def saliency (a b : Nat) : Nat := (roundF BF16 rne false (mulExact (BF16.decode a) (BF16.decode b)).1).1 % 2 ^ 15

/-- Lanes of a group from the best: in P by saliency, ties and the rest by lower lane. -/
def salInsert (key : Nat → Option Nat) (l : Nat) : List Nat → List Nat
  | [] => [l]
  | m :: ms =>
    let before := match key l, key m with
      | some x, some y => decide (y < x)
      | some _, none => true
      | _, _ => false
    if before then l :: m :: ms else m :: salInsert key l ms

/-- The lanes that group q keeps, in ascending position. -/
def keptLanes (n m q : Nat) (key : Nat → Option Nat) : List Nat :=
  let best := ((List.range m).foldl (fun a j => salInsert key (q * m + j) a) []).take n
  ((List.range m).map fun j => q * m + j).filter best.contains

def execPrune (c : Ctl) (o : OpsR) (s : State) : Host.Outcome State Fault Refusal :=
  issueWord (.prune c o) s false false fun _ e s =>
    let fn := c.fn.toNat
    let n := nOf fn
    let m := mOf fn
    if e.m == 0 then .done s e.g
    else
      let key (l : Nat) : Option Nat :=
        if e.m.getLsbD l then some (saliency (e.val .bf16 o.a l % 65536) (e.val .bf16 o.b l % 65536)) else none
      let kept := (List.range (64 / m)).flatMap fun q => (keptLanes n m q key).map fun l => (l, l - q * m)
      let vals := kept.zipIdx.map fun (p, j) => (j, if e.m.getLsbD p.1 then e.val .bf16 o.a p.1 % 65536 else 0)
      let md := kept.zipIdx.foldl (fun a (p, j) => a + p.2 * 16 ^ j) 0
      match o.d, o.e with
      | .vec d, .sca k =>
        .done s ((List.range (64 * n / m / 8)).foldl (fun g i => g.setS (k + i) (BitVec.ofNat 32 (md / 2 ^ (32 * i))))
          (e.g.writeV .b32 d vals))
      | _, _ => .done s e.g

/-! ### ISECT, RANK, IDOT4 (11 R270) -/

def execIsect (c : Ctl) (o : OpsR) (s : State) : Host.Outcome State Fault Refusal :=
  issueWord (.isect c o) s false false fun _ e s =>
    let rs := (lanesOf e.m).map fun l => (l, e.val .b32 o.a l &&& e.val .b32 o.b l)
    match o.d with
    | .vec d =>
      .done s ((e.g.writeV .b32 d (rs.filter fun p => p.2 != 0)).writeM o.e (mapOf ((rs.filter fun p => p.2 == 0).map (·.1))))
    | _ => .done s e.g

def execRank (c : Ctl) (o : OpsR) (s : State) : Host.Outcome State Fault Refusal :=
  issueWord (.rank c o) s false false fun _ e s =>
    e.result s .b32 o.d fun l => (popcV 32 (e.val .b32 o.a l % 2 ^ min (e.val .ui32 o.b l) 32), 0)

/-- The dot product of four bytes and an addend, modular or clamped. -/
def idot4V (fn a b c : Nat) : Nat :=
  let el (signed : Bool) (v k : Nat) : Int := if signed then sext 8 (v / 256 ^ k) else ((v / 256 ^ k % 256 : Nat) : Int)
  let sum := (List.range 4).foldl (fun (x : Int) k => x + el (fn % 4 == 0) a k * el (fn % 4 != 2) b k) (sext 32 c)
  if fn ≥ 4 then wrap 32 (clampI (-(2 ^ 31)) (2 ^ 31 - 1) sum) else wrap 32 sum

def execIdot4 (c : Ctl) (o : OpsR) (s : State) : Host.Outcome State Fault Refusal :=
  issueWord (.idot4 c o) s false false fun _ e s =>
    e.result s .i32 o.d fun l => (idot4V c.fn.toNat (e.val .i8x4 o.a l) (e.val .i8x4 o.b l) (e.val .i32 o.c l), 0)

end Sys2Proof.Machine
end

