-- ==== Sys2Proof/Machine/Dispatch.lean ====
section
/-! DEFINITION. The dispatch: one arm per instruction or step, each one call of its meaning. -/

namespace Sys2Proof.Machine

def exec (i : Instr) (s : State) : Host.Outcome State Fault Refusal :=
  match i with
  | .nop c o => Sys2Proof.Machine.execNop c o s
  | .bra c o => Sys2Proof.Machine.execBra c o s
  | .brxAbs c o => Sys2Proof.Machine.execBrxAbs c o s
  | .brxRel c o => Sys2Proof.Machine.execBrxRel c o s
  | .call c o => Sys2Proof.Machine.execCall c o s
  | .ret c o => Sys2Proof.Machine.execRet c o s
  | .brm c o => Sys2Proof.Machine.execBrm c o s
  | .brw c o => Sys2Proof.Machine.execBrw c o s
  | .brdec c o => Sys2Proof.Machine.execBrdec c o s
  | .mcall c o => Sys2Proof.Machine.execMcall c o s
  | .exit c o => Sys2Proof.Machine.execExit c o s
  | .yield c o => Sys2Proof.Machine.execYield c o s
  | .trap c o => Sys2Proof.Machine.execTrap c o s
  | .rft c o => Sys2Proof.Machine.execRft c o s
  | .spawn c o => Sys2Proof.Machine.execSpawn c o s
  | .fork c o => Sys2Proof.Machine.execFork c o s
  | .regroup c o => Sys2Proof.Machine.execRegroup c o s
  | .cancel c o => Sys2Proof.Machine.execCancel c o s
  | .cntrdCount c o => Sys2Proof.Machine.execCntrdCount c o s
  | .cntrdStatus c o => Sys2Proof.Machine.execCntrdStatus c o s
  | .mand c o => Sys2Proof.Machine.execMand c o s
  | .mor c o => Sys2Proof.Machine.execMor c o s
  | .mandn c o => Sys2Proof.Machine.execMandn c o s
  | .mxor c o => Sys2Proof.Machine.execMxor c o s
  | .mnot c o => Sys2Proof.Machine.execMnot c o s
  | .mmov c o => Sys2Proof.Machine.execMmov c o s
  | .mpop c o => Sys2Proof.Machine.execMpop c o s
  | .mfind c o => Sys2Proof.Machine.execMfind c o s
  | .msetPair c o => Sys2Proof.Machine.execMsetPair c o s
  | .msetFirst c o => Sys2Proof.Machine.execMsetFirst c o s
  | .mget c o => Sys2Proof.Machine.execMget c o s
  | .mtst c o => Sys2Proof.Machine.execMtst c o s
  | .mof c o => Sys2Proof.Machine.execMof c o s
  | .restrict c o => Sys2Proof.Machine.execRestrict c o s
  | .merge c o => Sys2Proof.Machine.execMerge c o s
  | .fill c o => Sys2Proof.Machine.execFill c o s
  | .compact c o => Sys2Proof.Machine.execCompact c o s
  | .pull c o => Sys2Proof.Machine.execPull c o s
  | .push c o => Sys2Proof.Machine.execPush c o s
  | .bcast c o => Sys2Proof.Machine.execBcast c o s
  | .vote c o => Sys2Proof.Machine.execVote c o s
  | .reduce c o => Sys2Proof.Machine.execReduce c o s
  | .scan c o => Sys2Proof.Machine.execScan c o s
  | .lanemapPos c o => Sys2Proof.Machine.execLanemapPos c o s
  | .lanemapTid c o => Sys2Proof.Machine.execLanemapTid c o s
  | .iadd c o => Sys2Proof.Machine.execIadd c o s
  | .isub c o => Sys2Proof.Machine.execIsub c o s
  | .imul c o => Sys2Proof.Machine.execImul c o s
  | .imulh c o => Sys2Proof.Machine.execImulh c o s
  | .imad c o => Sys2Proof.Machine.execImad c o s
  | .idiv c o => Sys2Proof.Machine.execIdiv c o s
  | .irem c o => Sys2Proof.Machine.execIrem c o s
  | .imin c o => Sys2Proof.Machine.execImin c o s
  | .imax c o => Sys2Proof.Machine.execImax c o s
  | .iabs c o => Sys2Proof.Machine.execIabs c o s
  | .ineg c o => Sys2Proof.Machine.execIneg c o s
  | .iadds c o => Sys2Proof.Machine.execIadds c o s
  | .icmp c o => Sys2Proof.Machine.execIcmp c o s
  | .lea c o => Sys2Proof.Machine.execLea c o s
  | .mov c o => Sys2Proof.Machine.execMov c o s
  | .movi c o => Sys2Proof.Machine.execMovi c o s
  | .and c o => Sys2Proof.Machine.execAnd c o s
  | .or c o => Sys2Proof.Machine.execOr c o s
  | .xor c o => Sys2Proof.Machine.execXor c o s
  | .andn c o => Sys2Proof.Machine.execAndn c o s
  | .tril c o => Sys2Proof.Machine.execTril c o s
  | .shl c o => Sys2Proof.Machine.execShl c o s
  | .shr c o => Sys2Proof.Machine.execShr c o s
  | .sar c o => Sys2Proof.Machine.execSar c o s
  | .fshl c o => Sys2Proof.Machine.execFshl c o s
  | .fshr c o => Sys2Proof.Machine.execFshr c o s
  | .bfx c o => Sys2Proof.Machine.execBfx c o s
  | .bfi c o => Sys2Proof.Machine.execBfi c o s
  | .popc c o => Sys2Proof.Machine.execPopc c o s
  | .clz c o => Sys2Proof.Machine.execClz c o s
  | .ctz c o => Sys2Proof.Machine.execCtz c o s
  | .brev c o => Sys2Proof.Machine.execBrev c o s
  | .fadd c o => Sys2Proof.Machine.execFadd c o s
  | .fsub c o => Sys2Proof.Machine.execFsub c o s
  | .fmul c o => Sys2Proof.Machine.execFmul c o s
  | .ffma c o => Sys2Proof.Machine.execFfma c o s
  | .fmin c o => Sys2Proof.Machine.execFmin c o s
  | .fmax c o => Sys2Proof.Machine.execFmax c o s
  | .fcmp c o => Sys2Proof.Machine.execFcmp c o s
  | .frcp c o => Sys2Proof.Machine.execFrcp c o s
  | .frsq c o => Sys2Proof.Machine.execFrsq c o s
  | .fsqrt c o => Sys2Proof.Machine.execFsqrt c o s
  | .fdiv c o => Sys2Proof.Machine.execFdiv c o s
  | .fexp2 c o => Sys2Proof.Machine.execFexp2 c o s
  | .flog2 c o => Sys2Proof.Machine.execFlog2 c o s
  | .fsin c o => Sys2Proof.Machine.execFsin c o s
  | .fcos c o => Sys2Proof.Machine.execFcos c o s
  | .ftanh c o => Sys2Proof.Machine.execFtanh c o s
  | .frnd c o => Sys2Proof.Machine.execFrnd c o s
  | .fclass c o => Sys2Proof.Machine.execFclass c o s
  | .fclassM c o => Sys2Proof.Machine.execFclassM c o s
  | .fscale c o => Sys2Proof.Machine.execFscale c o s
  | .fdot2 c o => Sys2Proof.Machine.execFdot2 c o s
  | .cvt c o => Sys2Proof.Machine.execCvt c o s
  | .cvtb c o => Sys2Proof.Machine.execCvtb c o s
  | .decb c o => Sys2Proof.Machine.execDecb c o s
  | .ld c o => Sys2Proof.Machine.execLd c o s
  | .st c o => Sys2Proof.Machine.execSt c o s
  | .ldm c o => Sys2Proof.Machine.execLdm c o s
  | .stm c o => Sys2Proof.Machine.execStm c o s
  | .wbind c o => Sys2Proof.Machine.execWbind c o s
  | .wstat c o => Sys2Proof.Machine.execWstat c o s
  | .atom c o => Sys2Proof.Machine.execAtom c o s
  | .atomc c o => Sys2Proof.Machine.execAtomc c o s
  | .red c o => Sys2Proof.Machine.execRed c o s
  | .pref c o => Sys2Proof.Machine.execPref c o s
  | .pinOn c o => Sys2Proof.Machine.execPinOn c o s
  | .pinOff c o => Sys2Proof.Machine.execPinOff c o s
  | .tbind c o => Sys2Proof.Machine.execTbind c o s
  | .tinfo c o => Sys2Proof.Machine.execTinfo c o s
  | .tld c o => Sys2Proof.Machine.execTld c o s
  | .tst c o => Sys2Proof.Machine.execTst c o s
  | .ycopy c o => Sys2Proof.Machine.execYcopy c o s
  | .ygath c o => Sys2Proof.Machine.execYgath c o s
  | .yscat c o => Sys2Proof.Machine.execYscat c o s
  | .yfence c o => Sys2Proof.Machine.execYfence c o s
  | .barinit c o => Sys2Proof.Machine.execBarinit c o s
  | .arrive c o => Sys2Proof.Machine.execArrive c o s
  | .arriveBytes c o => Sys2Proof.Machine.execArriveBytes c o s
  | .waitph c o => Sys2Proof.Machine.execWaitph c o s
  | .waitphSwap c o => Sys2Proof.Machine.execWaitphSwap c o s
  | .waitphVin c o => Sys2Proof.Machine.execWaitphVin c o s
  | .waitphVout c o => Sys2Proof.Machine.execWaitphVout c o s
  | .waitphBankFifo c o => Sys2Proof.Machine.execWaitphBankFifo c o s
  | .phaseWaitComplete g => Sys2Proof.Machine.execPhaseWaitComplete g s
  | .barq c o => Sys2Proof.Machine.execBarq c o s
  | .rinit c o => Sys2Proof.Machine.execRinit c o s
  | .rawait c o => Sys2Proof.Machine.execRawait c o s
  | .rput c o => Sys2Proof.Machine.execRput c o s
  | .rrel c o => Sys2Proof.Machine.execRrel c o s
  | .seminc c o => Sys2Proof.Machine.execSeminc c o s
  | .semdec c o => Sys2Proof.Machine.execSemdec c o s
  | .sfence c o => Sys2Proof.Machine.execSfence c o s
  | .vpush c o => Sys2Proof.Machine.execVpush c o s
  | .vpop c o => Sys2Proof.Machine.execVpop c o s
  | .vfree c o => Sys2Proof.Machine.execVfree c o s
  | .fpush c o => Sys2Proof.Machine.execFpush c o s
  | .fpop c o => Sys2Proof.Machine.execFpop c o s
  | .bankmodeCmin c o => Sys2Proof.Machine.execBankmodeCmin c o s
  | .bankmodeRelease c o => Sys2Proof.Machine.execBankmodeRelease c o s
  | .mloop c o => Sys2Proof.Machine.execMloop c o s
  | .mloopj c o => Sys2Proof.Machine.execMloopj c o s
  | .mloops c o => Sys2Proof.Machine.execMloops c o s
  | .mzero c o => Sys2Proof.Machine.execMzero c o s
  | .mrd c o => Sys2Proof.Machine.execMrd c o s
  | .mwr c o => Sys2Proof.Machine.execMwr c o s
  | .mscale c o => Sys2Proof.Machine.execMscale c o s
  | .prune c o => Sys2Proof.Machine.execPrune c o s
  | .isect c o => Sys2Proof.Machine.execIsect c o s
  | .rank c o => Sys2Proof.Machine.execRank c o s
  | .idot4 c o => Sys2Proof.Machine.execIdot4 c o s
  | .mqstatFlags c o => Sys2Proof.Machine.execMqstatFlags c o s
  | .mqstatClr c o => Sys2Proof.Machine.execMqstatClr c o s
  | .mqstatDepth c o => Sys2Proof.Machine.execMqstatDepth c o s
  | .csrr c o => Sys2Proof.Machine.execCsrr c o s
  | .csrw c o => Sys2Proof.Machine.execCsrw c o s
  | .csrxSet c o => Sys2Proof.Machine.execCsrxSet c o s
  | .csrxClr c o => Sys2Proof.Machine.execCsrxClr c o s
  | .csrxSwap c o => Sys2Proof.Machine.execCsrxSwap c o s
  | .srseedWrite c o => Sys2Proof.Machine.execSrseedWrite c o s
  | .wdogWrite c o => Sys2Proof.Machine.execWdogWrite c o s
  | .injcWrite c o => Sys2Proof.Machine.execInjcWrite c o s
  | .tlbinvRange c o => Sys2Proof.Machine.execTlbinvRange c o s
  | .tlbinvAll c o => Sys2Proof.Machine.execTlbinvAll c o s
  | .cacheopDrop c o => Sys2Proof.Machine.execCacheopDrop c o s
  | .cacheopDropall c o => Sys2Proof.Machine.execCacheopDropall c o s
  | .pgreqGate c o => Sys2Proof.Machine.execPgreqGate c o s
  | .pgreqUngate c o => Sys2Proof.Machine.execPgreqUngate c o s
  | .gsave c o => Sys2Proof.Machine.execGsave c o s
  | .grest c o => Sys2Proof.Machine.execGrest c o s
  | .clockCyc c o => Sys2Proof.Machine.execClockCyc c o s
  | .clockNs c o => Sys2Proof.Machine.execClockNs c o s
  | .clockEpoch c o => Sys2Proof.Machine.execClockEpoch c o s
  | .bkpt c o => Sys2Proof.Machine.execBkpt c o s
  | .instructionFetch g => Sys2Proof.Machine.execInstructionFetch g s
  | .lineRefetch g => Sys2Proof.Machine.execLineRefetch g s
  | .loadDataDelivery g n ext => Sys2Proof.Machine.execLoadDataDelivery g n ext s
  | .atomicPerform g ext => Sys2Proof.Machine.execAtomicPerform g ext s
  | .reductionPerform l plan => Sys2Proof.Machine.execReductionPerform l plan s
  | .pageWalk n => Sys2Proof.Machine.execPageWalk n s
  | .walkEntryRead n => Sys2Proof.Machine.execWalkEntryRead n s
  | .adUpdate n => Sys2Proof.Machine.execAdUpdate n s
  | .peerTableRead n => Sys2Proof.Machine.execPeerTableRead n s
  | .peerAdmissionReply n admits => Sys2Proof.Machine.execPeerAdmissionReply n admits s
  | .peerQueryTimeout n => Sys2Proof.Machine.execPeerQueryTimeout n s
  | .invalidationComplete n => Sys2Proof.Machine.execInvalidationComplete n s
  | .tilePretranslate q => Sys2Proof.Machine.execTilePretranslate q s
  | .tileStep q => Sys2Proof.Machine.execTileStep q s
  | .landStep q n => Sys2Proof.Machine.execLandStep q n s
  | .ycopyLineStep q k ext => Sys2Proof.Machine.execYcopyLineStep q k ext s
  | .gatherIndexRead q k ext => Sys2Proof.Machine.execGatherIndexRead q k ext s
  | .gatherRowStep q k ext => Sys2Proof.Machine.execGatherRowStep q k ext s
  | .rputClaim q => Sys2Proof.Machine.execRputClaim q s
  | .yfenceRelease q => Sys2Proof.Machine.execYfenceRelease q s
  | .kStep q k => Sys2Proof.Machine.execKStep q k s
  | .mzeroLineStep q k => Sys2Proof.Machine.execMzeroLineStep q k s
  | .jointStart stand => Sys2Proof.Machine.execJointStart stand s
  | .jointMismatchTimeout q => Sys2Proof.Machine.execJointMismatchTimeout q s
  | .jointCompletion stand => Sys2Proof.Machine.execJointCompletion stand s
  | .engineTermination q => Sys2Proof.Machine.execEngineTermination q s
  | .epochEnd column => Sys2Proof.Machine.execEpochEnd column s
  | .epochConfirmation column => Sys2Proof.Machine.execEpochConfirmation column s
  | .landingBufferDrain column => Sys2Proof.Machine.execLandingBufferDrain column s
  | .egressRelease n => Sys2Proof.Machine.execEgressRelease n s
  | .strikeReport site => Sys2Proof.Machine.execStrikeReport site s
  | .rollbackResume column => Sys2Proof.Machine.execRollbackResume column s
  | .scrubComplete n => Sys2Proof.Machine.execScrubComplete n s
  | .l2Refetch l => Sys2Proof.Machine.execL2Refetch l s
  | .timingReplay core => Sys2Proof.Machine.execTimingReplay core s
  | .droopTrip column => Sys2Proof.Machine.execDroopTrip column s
  | .droopExit column => Sys2Proof.Machine.execDroopExit column s
  | .placement core => Sys2Proof.Machine.execPlacement core s
  | .preemptionVictimChoice => Sys2Proof.Machine.execPreemptionVictimChoice s
  | .swapOut w => Sys2Proof.Machine.execSwapOut w s
  | .workgroupSave w => Sys2Proof.Machine.execWorkgroupSave w s
  | .swapResume w => Sys2Proof.Machine.execSwapResume w s
  | .bankReturnTimeout cluster bank => Sys2Proof.Machine.execBankReturnTimeout cluster bank s
  | .buckerFullGroup ctx lnum deck => Sys2Proof.Machine.execBuckerFullGroup ctx lnum deck s
  | .buckerPartialGroup ctx lnum deck => Sys2Proof.Machine.execBuckerPartialGroup ctx lnum deck s
  | .workgroupTermination w => Sys2Proof.Machine.execWorkgroupTermination w s
  | .unitCompletion ctx object => Sys2Proof.Machine.execUnitCompletion ctx object s
  | .trapDelivery g => Sys2Proof.Machine.execTrapDelivery g s
  | .watchdogWait g => Sys2Proof.Machine.execWatchdogWait g s
  | .watchdogPeer g => Sys2Proof.Machine.execWatchdogPeer g s
  | .watchdogRun g => Sys2Proof.Machine.execWatchdogRun g s
  | .marketClear readings => Sys2Proof.Machine.execMarketClear readings s
  | .balanceMeasurement readings => Sys2Proof.Machine.execBalanceMeasurement readings s
  | .coreGate core => Sys2Proof.Machine.execCoreGate core s
  | .columnGate column => Sys2Proof.Machine.execColumnGate column s
  | .ungateReady core => Sys2Proof.Machine.execUngateReady core s
  | .idleEntry => Sys2Proof.Machine.execIdleEntry s
  | .deviceWake => Sys2Proof.Machine.execDeviceWake s
  | .wakeComplete => Sys2Proof.Machine.execWakeComplete s
  | .peerAccess a => Sys2Proof.Machine.execPeerAccess a s
  | .peerRefusalReply n => Sys2Proof.Machine.execPeerRefusalReply n s
  | .peerWriteAck n => Sys2Proof.Machine.execPeerWriteAck n s
  | .peerCopyExpiry n => Sys2Proof.Machine.execPeerCopyExpiry n s
  | .peerFailed fep => Sys2Proof.Machine.execPeerFailed fep s
  | .laneShed port lanes => Sys2Proof.Machine.execLaneShed port lanes s
  | .retrainComplete port => Sys2Proof.Machine.execRetrainComplete port s
  | .upshiftTry port holds => Sys2Proof.Machine.execUpshiftTry port holds s
  | .linkRecoverySuccess port => Sys2Proof.Machine.execLinkRecoverySuccess port s
  | .linkRecoveryAbandon port => Sys2Proof.Machine.execLinkRecoveryAbandon port s
  | .connectionReestablished channel => Sys2Proof.Machine.execConnectionReestablished channel s
  | .writeVa p => Sys2Proof.Machine.execWriteVa p s
  | .writePa p => Sys2Proof.Machine.execWritePa p s
  | .readVa p => Sys2Proof.Machine.execReadVa p s
  | .readPa p => Sys2Proof.Machine.execReadPa p s
  | .launch p => Sys2Proof.Machine.execLaunch p s
  | .resume p => Sys2Proof.Machine.execResume p s
  | .cancelCommand p => Sys2Proof.Machine.execCancelCommand p s
  | .inval p => Sys2Proof.Machine.execInval p s
  | .ctxsave p => Sys2Proof.Machine.execCtxsave p s
  | .ctxrun p => Sys2Proof.Machine.execCtxrun p s
  | .ctxset p => Sys2Proof.Machine.execCtxset p s
  | .seqquery p => Sys2Proof.Machine.execSeqquery p s
  | .ctxdesc p => Sys2Proof.Machine.execCtxdesc p s
  | .power p => Sys2Proof.Machine.execPower p s
  | .gate p => Sys2Proof.Machine.execGate p s
  | .cmin p => Sys2Proof.Machine.execCmin p s
  | .counters p => Sys2Proof.Machine.execCounters p s
  | .link p => Sys2Proof.Machine.execLink p s
  | .selftest p => Sys2Proof.Machine.execSelftest p s
  | .selftestDone results => Sys2Proof.Machine.execSelftestDone results s
  | .attest p => Sys2Proof.Machine.execAttest p s
  | .fwload p => Sys2Proof.Machine.execFwload p s
  | .fwstart p => Sys2Proof.Machine.execFwstart p s
  | .firmwareReady => Sys2Proof.Machine.execFirmwareReady s
  | .reset p => Sys2Proof.Machine.execReset p s
  | .resetPin => Sys2Proof.Machine.execResetPin s
  | .bootRomReady trained => Sys2Proof.Machine.execBootRomReady trained s
  | .moduleSupplyOff => Sys2Proof.Machine.execModuleSupplyOff s
  | .mrstNAssert => Sys2Proof.Machine.execMrstNAssert s
  | .overTemperature => Sys2Proof.Machine.execOverTemperature s

end Sys2Proof.Machine
end

