-- ==== Sys2Proof/Machine/Schedule.lean ====
section
/-!
DEFINITION. What happens next (04 R83, log entry 1): a step that the spec puts at one time, once that time has come; else the head of `moves`, or
where it is empty a schedule of the model's own: the first internal step that is due, then an issue, then the passing of time. Also the arrival of packets (21 R357, R359) and of errors (02 R54), and where a
first instruction is placed.
-/

namespace Sys2Proof.Machine

/-! ### Packets (21 R359) -/

/-- Performs a command by its OP (Table 21.2); an OP that is not listed gives status 2. -/
def State.runCommand (s : State) (p : Packet) : Option State :=
  match p.op.toNat with
  | 0x01 => s.writeVa p | 0x02 => s.writePa p | 0x03 => s.readVa p | 0x04 => s.readPa p
  | 0x05 => s.launchCmd p | 0x06 => s.resumeCmd p | 0x07 => s.cancelCmd p | 0x08 => s.invalCmd p
  | 0x09 => s.ctxsaveCmd p | 0x0A => s.ctxrunCmd p | 0x0B => s.ctxsetCmd p | 0x0C => s.seqqueryCmd p
  | 0x20 => s.ctxdescCmd p | 0x21 => s.powerCmd p | 0x22 => s.gateCmd p | 0x23 => s.cminCmd p
  | 0x24 => s.countersCmd p | 0x25 => s.linkCmd p | 0x26 => s.selftestCmd p | 0x27 => s.attestCmd p
  | 0x28 => s.fwloadCmd p | 0x29 => s.fwstartCmd p | 0x2A => s.resetCmd p
  | _ => s.perform p (fun _ => false) anyChannel false fun _ => none

/-- The next command of a channel: none while one is under way that later ones wait for (21 R357). -/
def State.nextCommand (s : State) (c : Nat) : Option State :=
  let k := s.chan c
  if k.busy.isSome || (c == 64 && s.selftest.isSome) then none
  else match k.queue with
    | p :: _ => s.runCommand p
    | [] => none

/-- Commands of a queue that carry a CSEQ. -/
def numbered (ps : List Packet) : Nat := (ps.filter fun p => p.op != 0x0C).length

/-- The CSEQ that a channel takes next. -/
def Channel.expects (k : Channel) (inFlight : Nat) : Word := k.last + BitVec.ofNat 32 (inFlight + numbered k.queue + 1)

/-- Takes commands that arrived early once their turn has come; with `fuel` for how many are held. -/
def Channel.absorb : Nat → Channel → Nat → Channel
  | 0, k, _ => k
  | n + 1, k, f =>
    match k.early.find? fun p => p.seq == k.expects f with
    | some p => Channel.absorb n { k with queue := k.queue ++ [p], early := k.early.filter fun x => x.seq != p.seq } f
    | none => k

/-- An event is the first answer to a command: no resend of one, nor an event that no command asked for. -/
def Event.answers (e : Event) (cseq : Word) : Bool := e.cseq == cseq && e.status != 9 && e.op != 0x83 && e.tag != tagNone

/-- The answering event of a command that was executed, among the last 4,096 of its channel or still at the egress gate. -/
def State.eventOf (s : State) (c : Nat) (cseq : Word) : Option Event :=
  match (s.chan c).log.find? fun e => e.answers cseq with
  | some e => some e
  | none => s.out.findSome? fun p => match p.kind with
    | .event d e => if d == c && e.eseq == 0 && e.answers cseq then some e else none
    | _ => none

/-- A channel takes a packet: in order it queues, early it is held among up to 64, executed already its event is sent again with status 9, or 5 where
the event is no longer retained. SEQQUERY has no CSEQ and is performed at once. -/
def State.take (s : State) (p : Packet) : State :=
  let c := p.ch.toNat
  let k := s.chan c
  -- an INVAL or a SELFTEST under way has left the queue and not yet performed
  let f := (if k.busy.isSome then 1 else 0) + (if c == 64 && s.selftest.isSome then 1 else 0)
  if p.op == 0x0C then (s.runCommand p).getD s
  else if p.seq == k.expects f then
    s.setChan c (Channel.absorb k.early.length { k with queue := k.queue ++ [p] } f)
  else if (k.last - p.seq).toNat < 2 ^ 31 then
    match s.eventOf c p.seq with
    | some e => s.send [] c 0 (.event c { e with eseq := 0, status := 9 })
    | none => s.send [] c 0 (mkEvent c 0x81 5 p.tag 0 [])
  else if (p.seq - k.expects f).toNat < 2 ^ 31 && k.early.length < 64 && !(k.early.any fun x => x.seq == p.seq) then
    s.setChan c { k with early := k.early ++ [p] }
  else s

/-- A packet arrives. Below D0 it calls the device, whatever it is, and is taken once the device has woken (13 R302). -/
def State.receive (s : State) (p : Packet) : State :=
  let c := p.ch.toNat
  if c > 64 || !s.supply || s.inReset || s.boot == 0 then s
  else if s.pstate == .d0 then s.take p
  else
    let s := s.setChan c { s.chan c with inbox := (s.chan c).inbox ++ [p] }
    match s.pstate with
    | .waking _ => s
    | _ => { s with called := some (s.called.getD s.now) }

/-! ### Errors that arise in storage (02 R54, 20 R345, R347) -/

/-- The lanes of a 64-bit word of a packed register: positions 2k and 2k + 1 of what is stored (02 R32). -/
def wordLanes (r : VReg) (k : Nat) : LaneMap := mapOf (((r.drop (2 * k)).take 2).map (·.1))

def VFifo.spoil (q : VFifo) (entry word : Nat) : VFifo :=
  { q with entries := q.entries.zipIdx.map fun (e, i) => if i == entry then (e.1, e.2 ||| wordLanes e.1 word) else e }

/-- A sector of a store becomes uncorrectable. -/
def State.softError (s : State) (l : Loc) : State :=
  let u : Loc := ⟨l.store, l.addr / sectorSize l.store * sectorSize l.store⟩
  if s.bad.contains u then s else { s with bad := s.bad ++ [u] }

def State.l2Error (s : State) (sector : Nat) (modified : Bool) : State :=
  let u := sector / 32 * 32
  if s.l2bad.any fun b => b.1 == u then s else { s with l2bad := s.l2bad ++ [(u, modified)] }

/-- A word becomes uncorrectable in a copy that holds its sector (02 R36, R54). -/
def State.cacheError (s : State) (cluster copy word : Nat) : State :=
  let k := s.cluster cluster
  s.setCluster cluster { k with copies := k.copies.zipIdx.map fun (c, i) =>
    if i == copy && word < 32 && c.sectors.getLsbD (word / 4) && !c.bad.contains word then { c with bad := c.bad ++ [word] } else c }

def State.slabError (s : State) (r : GRef) (reg word : Nat) : State :=
  s.modGroup r fun g => if reg < 128 then { g with vbad := g.vbad ++ [(reg, wordLanes (g.vreg reg) word)] } else g

def State.fifoError (s : State) (core : Nat) (up : Bool) (entry word : Nat) : State :=
  let k := s.core core
  s.setCore core (if up then { k with up := k.up.spoil entry word } else { k with down := k.down.spoil entry word })

def State.bankFifoError (s : State) (cluster fifo entry word : Nat) : State :=
  let k := s.cluster cluster
  s.setCluster cluster { k with fifos := k.fifos.zipIdx.map fun (f, i) => if i == fifo then { f with q := f.q.spoil entry word } else f }

/-! ### Time -/

/-- A column after n units of 0.25 ns. -/
def Column.tick (k : Column) (n resident : Nat) : Column :=
  { k with cyc2 := k.cyc2 + (if k.droop then n else 2 * n), occ := k.occ + resident * n }

/-- Device time passes: the clocks, the watchdog counts, the tokens of results that are ready, the time since the device became idle (log entry 7). -/
def State.tick (s : State) (n : Nat) : State :=
  let resident (c : Nat) : Nat := ((s.wgs.filter fun w => columnOf w.core == c).map fun w =>
    (w.groups.filter fun g => g.retired.isNone).length).foldl (· + ·) 0
  { s with
    now := s.now + n
    idleSince := if s.idle then some (s.idleSince.getD s.now) else none
    wgs := s.wgs.map fun w => { w with groups := w.groups.map fun g => (g.watched (s.peerCut g) n).settle (s.now + n) }
    cols := Vector.ofFn fun c : Fin 32 => (s.col c.val).tick n (resident c.val) }

/-- The device acts at all: it has its supply and is not held in reset (13 R302, 21 R371). -/
def State.alive (s : State) : Bool := s.supply && !s.inReset

/-- Times at which something happens that the spec puts at that time: the end and the confirmation of an epoch (05 R111), the last moment of a copy of
a peer's line (R119), a market clear and a balance measurement (13 R293, R295), and the limit of a watchdog's count (12 R279). -/
def State.deadlines (s : State) : List Nat :=
  s.nextClear :: s.nextBalance ::
    (s.cols.toList.flatMap fun k => if k.rolling then [] else (k.start + 512) :: (k.ended.head?.map fun e => e.2 + 401).toList) ++
    (s.peerCopies.map fun c => c.at_ + 8000) ++
    (s.wgs.filter fun w => w.ending.isNone && w.toFill == 0).flatMap fun w => w.groups.flatMap fun g =>
      if g.retired.isNone then (g.watchAt (s.peerCut g) s.now).filter fun t => s.now < t else []

/-- Time passes, no further than to the next of these times. -/
def State.pass (s : State) (n : Nat) : State :=
  s.tick (if s.alive then s.deadlines.foldl (fun a t => min a (t - s.now)) n else n)

/-- The first that answers. -/
def firstOf {α : Type} (f : α → Option State) : List α → Option State
  | [] => none
  | x :: xs => match f x with | some t => some t | none => firstOf f xs

/-- The first of a list of steps that is due. -/
def firstDue (fs : List (Unit → Option State)) : Option State := firstOf (fun f => f ()) fs

/-- A packet that arrived before the device woke is taken. -/
def State.unpack (s : State) (c : Nat) : Option State :=
  match (s.chan c).inbox with
  | [] => none
  | p :: rest => some ((s.setChan c { s.chan c with inbox := rest }).take p)

/-- A group as it is named. -/
def Workgroup.refOf (w : Workgroup) (g : Group) : GRef := { ctx := w.ctx, lnum := w.lnum, wg := w.wg, grp := g.id }

/-- The step that comes before every other: a packet that has been waiting for the device to wake, the end of an epoch, its confirmation, the
expiry of a copy of a peer's line, the boundary of a cancelled group's instruction, and a watchdog, each once its time has come. -/
def State.due (s : State) : Option State :=
  if !s.alive then none
  else firstDue
    [fun _ => if s.pstate == .d0 then firstOf s.unpack (List.range 65) else none,
     fun _ => firstOf (fun c => (s.confirmEpoch c).or (s.epochEnd c)) (List.range 32),
     fun _ => firstOf s.copyExpiry (List.range s.peerCopies.length),
     fun _ => s.sweepDue,
     fun _ => firstOf (fun (w : Workgroup) => firstOf (fun (g : Group) =>
       if g.retired.isSome then none else s.acting (w.refOf g) (s.watch (w.refOf g))) w.groups) s.wgs]

/-! ### Moves -/

/-- The counters of Table 20.2 that count corrections: SPV, CCOL, CL2, CDRAM. The others count a strike or a delivery, where that happens. -/
def correctedCounts : List Nat := [1, 2, 4, 6]

/-- A move that is no instruction: what arrives from outside an agent's program, and the steps of agents that no instruction or event names. -/
def State.outside (s : State) : Move → State
  | .packet p => s.receive p
  | .tick n => s.pass n
  | .lane r k ext => (s.acting r (s.stepLane r k ext)).getD s
  | .half r k => (s.acting r (s.atomicHalf r k)).getD s
  | .halfRed n => (s.redHalf n).getD s
  | .redAlone n => (s.redAlone n).getD s
  | .peerData r k ext => (s.acting r (s.peerReply r k ext)).getD s
  | .peerWake w grp phase => (s.peerWake w grp phase).getD s
  | .peerLand q ext => if (s.col (columnOf q.core)).rolling then s else (s.peerLanded q ext).getD s
  | .fill w => (s.fillLineOf w).getD s
  | .softError l => s.softError l
  | .l2Error sector modified => s.l2Error sector modified
  | .cacheError cluster copy word => s.cacheError cluster copy word
  | .slabError g reg word => s.slabError g reg word
  | .fifoError core up entry word => s.fifoError core up entry word
  | .bankFifoError cluster fifo entry word => s.bankFifoError cluster fifo entry word
  | .corrected tower i => if tower < 2 && correctedCounts.contains i then s.count tower i 1 else s
  | .evict n => { s with tlb := s.tlb.eraseIdx n }
  | .evictPeer n => { s with peerCopies := s.peerCopies.eraseIdx n }
  | .evictWalk n => { s with wcache := s.wcache.eraseIdx n }
  | .fillCore core n => s.fillCore core n
  | .wire port reach => if port < 16 then s.rewire port reach else s
  | .issue .. | .issueSteps .. | .event _ | .eventSteps _ => s

/-- An issue of a core's scheduler (13 R291); a REGROUP that can be performed goes first. Neither happens while the column rolls back (20 R342). -/
def State.issueNext (s : State) (core sched : Nat) : Ahead :=
  match if (s.col (columnOf core)).rolling then none else s.regroupReady core with
  | some t => .done t
  | none => s.pick core sched

/-! ### The model's own schedule -/

/-- Steps of the translation service for walk n. -/
def State.autoWalk (s : State) (n : Nat) : Option State :=
  firstDue [fun _ => s.startWalk n, fun _ => s.entryRead n, fun _ => s.adUpdate n, fun _ => s.peerTable n, fun _ => s.peerTimeout n]

/-- Whether result n of a group needs no bytes of a peer, or only of a failed one. -/
def Group.pendHere (g : Group) (failed : List Nat) (n : Nat) : Bool :=
  match g.pend[n]? with
  | some p => p.lanes.all fun v => match v.2.unlessFailed failed with | .peer .. => false | _ => true
  | none => false

/-- The lanes of a group's atomic that need no answer of a peer, by their place among those left. -/
def State.lanesHere (s : State) (g : Group) : List Nat :=
  match g.wait with
  | .atomic q =>
    let ls := (q.alive g.live).lanes
    if ls.isEmpty then [0]
    else ls.zipIdx.filterMap fun (a, k) => match a.peer with
      | none => some k
      | some (fep, _) => if q.red || s.failedPeers.contains fep then some k else none
  | .lanes _ | .bind .. => [0]
  | _ => []

/-- Steps of a group that no instruction issues. -/
def State.autoGroup (s : State) (w : Workgroup) (g : Group) : Option State :=
  let r := w.refOf g
  if g.retired.isSome then none
  else s.acting r (firstDue
    [fun _ => s.trapDeliver r, fun _ => s.phaseWait r, fun _ => s.askFailed r, fun _ => s.fetchNext r, fun _ => s.refetch r,
     fun _ => if g.pendHere s.failedPeers 0 then s.deliverData r 0 [] else none,
     fun _ => firstOf (fun k => s.stepLane r k []) (s.lanesHere g)])

/-- The first number of a range that a list of steps taken does not hold. -/
def firstLeft (taken : List StepRec) (n : Nat) : Option Nat := (List.range (min n (taken.length + 1))).find? fun k => !Entry.has taken k

/-- Rows whose index has been read and that have not moved. -/
def Entry.rowLeft (e : Entry) : Option Nat :=
  (e.index.find? fun r => match e.cmd with
    | .gather _ _ _ _ _ _ _ limit _ => r.val < limit && !Entry.has e.data r.k
    | _ => false).map (·.k)

/-- A source that a command reads lies at a peer, which must answer first. -/
def State.fromPeer (s : State) (q : QRef) (e : Entry) (space va n : Nat) : Bool :=
  match s.engAccess q e space va n .read with
  | .ok ps => ps.any fun p => match s.engFar q.core p with | some (fep, _) => !s.failedPeers.contains fep | none => false
  | _ => false

/-- The next data step of a command at the head of a queue, where it needs no answer of a peer. -/
def State.autoData (s : State) (q : QRef) (e : Entry) : Option State :=
  match e.cmd with
  | .tile .. => s.tileStep q
  | .rput .. => if e.data.isEmpty then s.claim q else s.tileStep q
  | .ycopy _ ssp dst src len => (firstLeft e.data (copyLines dst len)).bind fun k =>
    let (off, n) := copyPart dst len k
    if s.fromPeer q e ssp (src + off) n then none else s.copyLine q k []
  | .gather scatter _ table rowBytes stride idx _ _ _ => firstDue
    [fun _ => e.rowLeft.bind fun k =>
       if !scatter && s.fromPeer q e 0 (table + Entry.valOf e.index k * stride) rowBytes then none else s.rowStep q k [],
     fun _ => if s.fromPeer q e 0 (idx + 4 * e.index.length) 4 then none else s.indexRead q e.index.length []]
  | .fence _ => s.fenceRelease q
  | .mloop .. | .mloops .. => s.kStep q e.data.length
  | .mloopj _ _ b _ => (firstLeft e.data (blkU b 3)).bind fun k => s.kStep q k
  | .mzero .. => s.zeroLine q e.data.length

/-- Steps of the engine at a queue. -/
def State.autoQueue (s : State) (q : QRef) : Option State :=
  match s.head q with
  | none => none
  | some e =>
    if (s.queue q).any fun x => x.failed.isSome then s.engineEnd q
    else firstDue
      [fun _ => s.pretranslate q, fun _ => s.autoData q e,
       fun _ => (List.range (min e.landCount (e.data.length + e.index.length + 1))).findSome? fun n => s.land q n,
       fun _ => s.jointTimeout q]

/-- Steps of a column. -/
def State.autoColumn (s : State) (c : Nat) : Option State :=
  firstDue [fun _ => s.rollbackResume c, fun _ => s.drain c,
    -- a balance excursion halves the clock (13 R295, R298)
    fun _ => if (s.col c).excursion && !(s.col c).droop then s.droopTrip c else none, fun _ => s.droopExit c]

/-- Steps of the dispatcher, the saves and the Bucker. -/
def State.autoDispatch (s : State) : Option State :=
  firstDue
    [fun _ => firstOf (fun (l : Launch) => firstOf (fun k => firstDue
        [fun _ => s.buckerFull l.ctx l.lnum k, fun _ => s.buckerPartial l.ctx l.lnum k]) (List.range l.decks.length)) s.launches,
     fun _ => firstOf (fun (w : Workgroup) =>
        let r : WRef := { ctx := w.ctx, lnum := w.lnum, wg := w.wg }
        firstDue [fun _ => s.terminateWg r, fun _ => s.swapOut r, fun _ => s.preempt r]) s.wgs,
     fun _ => firstOf (fun (w : Workgroup) => s.swapResume { ctx := w.ctx, lnum := w.lnum, wg := w.wg }) s.away,
     fun _ => firstOf (fun (l : Launch) => if s.launchDue l then s.unitCompletion l.ctx l.desc.compl else none) s.launches,
     fun _ => firstOf (fun (u : WorkUnit) => if s.unitDue u then s.unitCompletion u.ctx u.object else none) s.units,
     fun _ => firstOf (fun (w : Workgroup) => s.fillLineOf { ctx := w.ctx, lnum := w.lnum, wg := w.wg }) s.wgs,
     fun _ => if s.pstate == .d0 then s.nextPlacement.map fun x => s.place x.1 x.2.1 x.2.2 else none,
     fun _ => s.chooseVictim]

/-- Steps of the power control and of storage in the clusters. -/
def State.autoPower (s : State) : Option State :=
  firstDue
    [fun _ => s.marketClear [], fun _ => if s.nextBalance ≤ s.now then some (s.balance []) else none,
     fun _ => firstOf s.columnGate ((List.range 32).filter fun c => (s.col c).gateReq),
     fun _ => firstOf (fun k => firstDue [fun _ => s.coreGate k, fun _ => s.ungateReady k])
        ((List.range 256).filter fun k => match (s.core k).gate with | .requested | .waking _ => true | _ => false),
     fun _ => firstOf (fun cl => firstOf (s.bankReturn cl) ((List.range 64).filter fun b =>
        match (s.cluster cl).modes[b]?.getD .cache with | .scratch (some _) => true | _ => false)) (List.range 64),
     fun _ => match s.scrubs.findIdx? fun x => x.2.2 ≤ s.now with | some n => s.scrubDone n | none => none,
     fun _ => s.idleEntry]

/-- The first internal step that is due. -/
def State.autoEvent (s : State) : Option State :=
  firstDue
    [fun _ => s.bootRomReady [], fun _ => s.firmwareReady, fun _ => s.wakeDone, fun _ => s.wake,
     fun _ => firstOf s.nextCommand ((List.range 65).filter fun c => !(s.chan c).queue.isEmpty),
     fun _ => firstOf s.autoWalk (List.range s.walks.length),
     fun _ => firstOf s.invalComplete (s.invals.map (·.n)),
     fun _ => firstOf (fun (w : Workgroup) => firstOf (s.autoGroup w) w.groups) s.wgs,
     fun _ => firstOf (fun (q : QRef) => s.autoQueue q)
        ((List.range 256).flatMap fun c => (List.range 5).filterMap fun q =>
          if (s.queue { core := c, q }).isEmpty then none else some { core := c, q }),
     fun _ => firstOf (fun n => firstDue [fun _ => s.jointStart n, fun _ => s.jointComplete n])
        (((List.range 256).filter fun c => !(s.core c).mx.isEmpty).map standOf).eraseDups,
     fun _ => firstOf s.autoColumn (List.range 32),
     fun _ => firstOf s.redAlone (List.range s.wq.length),
     fun _ => firstOf (fun (b : Nat × Bool) => if b.2 then none else s.l2Refetch ⟨.dram, b.1⟩) s.l2bad,
     fun _ => firstOf s.egress (List.range s.out.length),
     fun _ => firstOf (fun p => firstDue [fun _ => s.retrained p, fun _ => s.abandoned p]) (List.range 16),
     fun _ => firstOf (fun (p : OutPkt) => (OutKind.fep p.kind).bind s.peerFail) s.toPeers,
     fun _ => s.autoDispatch, fun _ => s.autoPower]

/-- Cores and schedulers with a group that may issue now, and cores with a REGROUP to perform. -/
def State.readyIssues (s : State) : List (Nat × Nat) :=
  (s.wgs.flatMap fun w => (w.groups.filter fun g => g.retired.isNone).map fun g => (w.core, g.sched)).eraseDups.filter fun p =>
    !(s.candidates p.1 p.2).isEmpty || (!(s.col (columnOf p.1)).rolling && (s.regroupReady p.1).isSome)

/-- Units of time until something may be due: the next issue, the next token of a result, or another try of a save. -/
def State.untilDue (s : State) : Nat :=
  let groups := s.wgs.flatMap fun w => w.groups.filter fun g => g.retired.isNone && g.wait == .none
  let times := (groups.map (·.nextAt)) ++ (groups.flatMap fun g => g.tokAt.map (·.2)) ++ (s.wgs ++ s.away).map (·.retryAt)
  (times.filter fun t => s.now < t).foldl (fun a t => min a (t - s.now)) 512

/-- What happens where nothing is scheduled. -/
def State.auto (s : State) : Ahead :=
  if !s.alive then .done (s.pass 512)
  else match s.autoEvent with
    | some t => .done t
    | none =>
      match s.readyIssues with
      | p :: _ => s.issueNext p.1 p.2
      | [] => .done (s.pass s.untilDue)

/-- A move of the schedule. -/
def State.move (s : State) (m : Move) : Ahead :=
  match m with
  | .event i => if s.alive then .run i s else match i with
      | .resetPin | .moduleSupplyOff | .mrstNAssert => .run i s
      | _ => .done s
  | .eventSteps i => if s.alive then .run i { s with split := true } else .done s
  | .issue core sched => if s.alive then s.issueNext core sched else .done s
  | .issueSteps core sched =>
    if !s.alive then .done s
    else match { s with split := true }.issueNext core sched with
      | .run i t => .run i t
      | .done t => .done { t with split := false }
  | .tick n => .done (s.pass n)
  | m => if s.alive then .done (s.outside m) else .done s

/-- What happens next: an instruction or a step to execute, with the state it is executed in, or a state. -/
def State.begin (s : State) : Ahead :=
  match s.due with
  | some t => .done t
  | none => match s.moves with
    | [] => s.auto
    | m :: ms => { s with moves := ms }.move m

/-! ### A first instruction -/

/-- The 64-byte line with a word in slot 0, NOPs behind it, every slot a legal target, and its parity (07 R142, R148). -/
def lineWith (word : Nat) : List Byte :=
  let nop : List Byte := leBytes 12 0x078077000003FFFFFFFFFC00
  let code := leBytes 12 word ++ nop ++ nop ++ nop ++ nop
  let par := code.foldl (fun a b => a ^^^ b) (0 : Byte)
  code ++ leBytes 4 (par.toNat + 31 * 2 ^ 27)

/-- The launch and the workgroup of one group, 64 live lanes, that withFetchWord stands for. -/
def probeDesc : Desc := { nreg := 128, groups := 1, tier := 1, mx := true, n := 64, scrsz := 4096, entry := 0x1000 }
def probeLaunch : Launch :=
  { mkLaunch 0 1 { desc := probeDesc, macros := [], targets := [] } 0 0 with nextWg := 1, graph := 16, phase := 32 }
def probeGroup (word : Nat) : Group :=
  { startGroup probeDesc Context.reset.wdog 0 (BitVec.allOnes 64) (fun l => BitVec.ofNat 32 l) 0 0 0 0 with
    entry := false, lines := [{ addr := 0x1000, bytes := lineWith word, checked := true, second := false }] }
def probeWg (word : Nat) : Workgroup :=
  { ctx := 0, lnum := 1, wg := 0, core := 64, desc := probeDesc, nwg := 1, ngroup := 1, scrBase := 0, scrSize := 4096
    groups := [probeGroup word], placedAt := 0, ending := none, saving := false, vfMark := none, slot := none }

/-- The state in which the next step issues a word as the first instruction of a launch (log entry 19): nothing else is due before it. -/
def State.placeWord (s : State) (word : Nat) : State :=
  { s with boot := 2, supply := true, inReset := false, pstate := .d0
           ctxs := s.ctxs.setIfInBounds 0 { s.ctx 0 with desc := 1 }
           cols := s.cols.map fun (k : Column) => { k with start := s.now, ended := [], rolling := false }
           chans := s.chans.map fun (k : Channel) => { k with inbox := [] }
           peerCopies := [], peerSteps := [], split := false
           launches := [probeLaunch], wgs := [probeWg word], moves := [.issue 64 0] }

end Sys2Proof.Machine
end

