-- ==== Sys2Proof/Machine/Step.lean ====
section
/-!
DEFINITION. One step of the device: what happens next is executed; `cur` names the issuing group while it is, and `split` ends with it.
-/

namespace Sys2Proof.Machine

/-- One step. -/
def step (s : State) : Host.Outcome State Fault Refusal :=
  match s.begin with
  | .done t => .next t
  | .run i t =>
    match exec i t with
    | .next u => .next { u with cur := none, split := false }
    | .fault f => .fault f
    | .refused r => .refused r

/-- s with an instruction word stored where the next step fetches it: in slot 0 of a line that a group of a launch has fetched. A word
has 96 bits, and a table row's bits above them are none (log entry 19). -/
def State.withFetchWord (s : State) (_nbits w : Nat) : State := s.placeWord (w % 2 ^ 96)

end Sys2Proof.Machine
end

