-- ==== Sys2Proof/Safety.lean ====
section
/-!
DEFINITION. What claims are stated in: the invariants of the device, and an instruction word in issue.
-/

namespace Sys2Proof.Machine

/-- Every store is in its canonical form. -/
def State.memOk (s : State) : Bool := Memory.wf s.dram && Memory.wf s.sram && Memory.wf s.bs && Memory.wf s.ac

/-- An instruction word whose own meaning runs: the group that issues it with its workgroup, its fields and its form, and what the
meaning sees, the state it runs in among them (07 R168). -/
structure Issuing where
  r : GRef
  w : Workgroup
  g : Group
  v : View
  f : Form
  e : Env
  t : State

/-- The word is issued in a state: the group of `cur` is resident, checks 2 to 6 pass, the tokens it waits on are clear, its guards are
true, the token it takes is free, the interlock holds nothing, check 7 passes, and lanes and walkers leave it lanes to act on. -/
def State.issuing (s : State) (i : Instr) (own all : Bool) : Option Issuing :=
  match s.cur with
  | none => none
  | some r =>
    match s.group? r, viewForm i with
    | some (w, g), some (v, f) =>
      match s.checks r w g v f own all with
      | .go e t => some { r, w, g, v, f, e, t }
      | .stop _ => none
    | _, _ => none

/-- The state after the meaning's answer. -/
def Issuing.next (x : Issuing) (s : State) (a : Act) : State := s.conclude x.t x.r x.w x.g x.v x.f a

/-- The state after a transfer whose target passed its checks in a state u. -/
def Issuing.landed (x : Issuing) (s u : State) (g' : Group) (pc : DWord) : State :=
  u.modGroup x.r fun k => { g'.after x.v x.f (s.clock x.w.core) (s.col (columnOf x.w.core)).epoch true (x.g.dsts x.v x.f) with pc, lines := k.lines }

/-- A range can be read now by an agent of a column (none: of no column): nothing holds it off, no unit of it is uncorrectable, and no
injected error is armed for it. -/
def State.readable (s : State) (me : Option Nat) (l : Loc) (n : Nat) : Prop :=
  s.heldOff me l n = false ∧ s.badAll l n = [] ∧ s.injHits [(l, n)] = false

/-- What an instruction or a step that raises a cause on a group in a state `s0` does where the group has a trap table entry to go to: it waits for no
walk any more, and enters its handler, whose address and TGT it checks when it stands there (12 R274, 07 R146). The table's
entry is read as by any agent of the column. -/
def TakesTrapAt (i : Instr) (s s0 : State) (r : GRef) (w : Workgroup) (g : Group) (k : Cause) (aux : Word) : Prop :=
  let pc := (g.resumeOf (s0.macrosOf r.ctx r.lnum) k).1
  let st := (g.resumeOf (s0.macrosOf r.ctx r.lnum) k).2
  let f : FaultInfo := { cause := k, aux, mstep := (g.mcall.map (·.2)).getD g.rstep, resume := pc, rstep := st }
  let s1 := (s0.forget (.group r)).modGroup r fun g => { g with wait := .fault f, xf := [], got := [], wgot := [], fgot := [], met := {}, blocked := [] }
  ∀ l mt entry, g.handler = false → g.trapb.getLsbD 0 = true →
    s1.resolve r.ctx w.core [] (bits g.trapb.toNat 47 11 * 2048 + 8 * k.code) 8 .read = .ok [(.mem l mt, 8)] →
    s1.readable (some (columnOf w.core)) l 8 →
    leNat (s1.colRead (columnOf w.core) l 8) = entry → entry ≠ 0 →
    exec i s = .next ((s1.look (columnOf w.core) [(l, 8)]).modGroup r fun g =>
      { g with handler := true, pc := BitVec.ofNat 64 entry, tpc := pc, tmap := 0, taddr := 0, taux := aux
               tcause := BitVec.ofNat 32 (255 * 65536 + st % 256 * 256 + k.code)
               mcall := none, rstep := 0, entry := true, seq := false, paired := false
               wait := .none, xf := [], got := [], wgot := [], fgot := [], met := {}, blocked := [], waitCnt := 0, runCnt := 0, hold := 0
               nextAt := max g.nextAt (s.now + 1), lastEpoch := (s.col (columnOf w.core)).epoch })

/-- The same of an instruction in issue, in the state its walkers' reads leave the error injector and the counters in. -/
def TakesTrap (i : Instr) (s : State) (x : Issuing) (k : Cause) (aux : Word) : Prop := TakesTrapAt i s (s.metBy x.t) x.r x.w x.g k aux

/-- g' is g with a result of a type in a destination: a vector destination holds it on exactly the lanes of m, with a pair's high half in
the register after it; a scalar one holds what lane 0 computes; the computing lanes' flags are set; nothing else differs. -/
structure Written (g g' : Group) (ty : Ty) (d : Operand) (m : LaneMap) (f : Nat → Nat × Flags) : Prop where
  vec : ∀ n : Fin 128, d = .vec n → ∀ l, l < 64 →
    vget? (g'.vreg n) l = if m.getLsbD l then some (BitVec.ofNat 32 (f l).1) else none
  vecHigh : ∀ n : Fin 128, d = .vec n → ty = .i64 → n.val + 1 < 128 → ∀ l, l < 64 →
    vget? (g'.vreg (n + 1)) l = if m.getLsbD l then some (BitVec.ofNat 32 ((f l).1 / 2 ^ 32)) else none
  sca : ∀ n : Fin 64, d = .sca n → ty ≠ .i64 → g'.sreg n = BitVec.ofNat 32 (f 0).1
  scaPair : ∀ n : Fin 64, d = .sca n → ty = .i64 → n.val + 1 < 64 → g'.spair n = BitVec.ofNat 64 (f 0).1
  vecFlags : ∀ n : Fin 128, d = .vec n → ∀ b,
    g'.gstat.getLsbD b = (g.gstat.getLsbD b || (lanesOf m).any fun l => (f l).2.getLsbD b)
  scaFlags : ∀ n : Fin 64, d = .sca n → g'.gstat = g.gstat ||| (f 0).2
  keepV : ∀ k, (∀ n : Fin 128, d = .vec n → k ≠ n.val ∧ (ty = .i64 → k ≠ n.val + 1)) → g'.vreg k = g.vreg k
  keepS : ∀ k, (∀ n : Fin 64, d = .sca n → k ≠ n.val ∧ (ty = .i64 → k ≠ n.val + 1)) → g'.sreg k = g.sreg k
  rest : { g' with v := g.v, vbad := g.vbad, s := g.s, gstat := g.gstat } = g

/-- An instruction completes wherever it issues, with its result on the lanes of its result map. -/
def Computes (i : Instr) (ty : Ty) (d : Operand) (f : Env → Nat → Nat × Flags) : Prop :=
  ∀ s x, s.issuing i false false = some x →
    ∃ g', exec i s = .next (x.next s (.done x.t g')) ∧ Written x.e.g g' ty d x.e.m (f x.e)

/-- An instruction completes wherever it issues, and its group becomes `g' e`. -/
def Makes (i : Instr) (own : Bool) (g' : Env → Group) : Prop :=
  ∀ s x, s.issuing i own false = some x → exec i s = .next (x.next s (.done x.t (g' x.e)))

/-- A compare completes wherever it issues: two maps split the result map by a condition on each lane, or two predicates receive the
condition and its negation. -/
def Splits (i : Instr) (d e2 : Operand) (lanes : Bool) (p : Env → Nat → Bool) : Prop :=
  ∀ s x, s.issuing i false false = some x →
    (lanes = true → ∃ yes no : LaneMap,
      (∀ l, l < 64 → yes.getLsbD l = (x.e.m.getLsbD l && p x.e l) ∧ no.getLsbD l = (x.e.m.getLsbD l && !p x.e l)) ∧
      exec i s = .next (x.next s (.done x.t ((x.e.g.writeM d yes).writeM e2 no)))) ∧
    (lanes = false → exec i s = .next (x.next s (.done x.t ((x.e.g.writeP d (p x.e 0)).writeP e2 (!p x.e 0)))))

/-- Accesses that lie in this device, each in one piece: a lane, where it is, its page's MT, and n bytes. -/
def onePiece (n : Nat) (ls : List (Nat × Loc × Nat)) : List (Nat × List Piece) := ls.map fun p => (p.1, [(.mem p.2.1 p.2.2, n)])

/-- The atomic steps of lanes one after another (04 R85): each lane reads its location, stores what its operation makes of the value (10 R232, R233),
and receives the old value; a lane whose location met an uncorrectable unit in `bad` stores nothing (20 R347). -/
def State.laneAtoms (s : State) (x : Nat → Writer) (op : Nat) (ty : Ty) (arg new : Nat → DWord) (bad : Nat → Option (Loc × Nat)) :
    List (Nat × Loc × Nat) → List (Nat × LaneVal) × State
  | [] => ([], s)
  | (l, u, _) :: rest =>
    let old := leNat (s.colRead (columnOf (x l).core) u (tyBytes ty))
    let step : LaneVal × State := match bad l, atomNew op ty old (arg l) (new l) with
      | some b, _ => (.bad b.1 b.2, s)
      | none, some v => (.ok (regWords ty (leBytes (tyBytes ty) old)),
          s.colStore (columnOf (x l).core) (x l).r.ctx (x l).r.lnum u (leBytes (tyBytes ty) v))
      | none, none => (.ok (regWords ty (leBytes (tyBytes ty) old)), s)
    let after := step.2.laneAtoms x op ty arg new bad rest
    ((l, step.1) :: after.1, after.2)

/-- The requests of an atomic's lanes to peers, in the lanes' order: each leaves through the egress gate, and the L2's copies of its line go. -/
def State.atomAsks (s : State) (e : Env) (op : Nat) (ty : Ty) : List AtomLane → State
  | [] => s
  | a :: rest => match a.peer with
    | none => s.atomAsks e op ty rest
    | some (fep, pctx) =>
      ((s.dropPeer fep a.loc.addr (tyBytes ty)).send [(columnOf e.w.core, (s.col (columnOf e.w.core)).epoch)] e.r.ctx e.r.lnum
        (.peerAtom fep pctx a.loc.addr op ty a.arg a.new (e.writer a.lane))).atomAsks e op ty rest

/-- What a read of lanes' accesses met at a lane. -/
def badAt (gs : List (Nat × Got)) (l : Nat) : Option (Loc × Nat) := (gs.find? fun g => g.1 == l).bind fun g => g.2.bad

/-- An atomic with return completes. In the column, where its lanes' steps are not left to later moves, they perform at issue in ascending order
(DESIGN CHOICE, log entries 34 and 59), and the old values are in flight, one for each lane. Where a lane performs elsewhere, or the steps are taken
one by one, and the landing buffer has room for the requests to peers, the group waits with each lane's location and operands, those requests are on
their way, and no byte has changed yet. -/
def AtomCompletes (i : Instr) (op : Nat) (c : Ctl) (o : OpsR) : Prop :=
  ∀ s x as, s.issuing i false false = some x →
    x.e.atomAccess x.t c o (if o.d.isSca then [0] else lanesOf x.e.m) o.d.isSca = .ok as →
    let arg (l : Nat) : DWord := BitVec.ofNat 64 (x.e.val c.ty o.c l)
    let new (l : Nat) : DWord := if op = 7 then BitVec.ofNat 64 (x.e.val c.ty o.e l) else 0
    let far := as.any fun a => a.2.any fun p => isFar (columnOf x.e.w.core) (nearScope c.sc) p.1
    (∀ ls, as = onePiece (tyBytes c.ty) ls → far = false → x.t.split = false → x.t.anyHeld x.e.w.core as = false →
      x.t.roomFor (columnOf x.e.w.core) as = true → x.t.anyHalfway x.e.r x.e.w.core c.sc c.ty as = false →
      let read := x.t.readAll x.e.w.core (.unit c.ch) as x.e.met
      let after := read.2.2.laneAtoms x.e.writer op c.ty arg new (badAt read.1) ls
      exec i s = .next (x.next s (.done after.2 (x.e.defer (clearDst x.e.g (dstOf o.d).1 (dstOf o.d).2 c.ty) (dstOf o.d).1
          ((dstOf o.d).2.getD 0) (dstRegsN (dstOf o.d).2 c.ty) after.1)))) ∧
    ((far = true ∨ x.t.split = true ∧ as ≠ []) → x.t.roomFor (columnOf x.e.w.core) (peersIn as) = true →
      exec i s = .next (x.next s (.park (x.t.atomAsks x.e op c.ty (atomLanes as arg new)) { x.e.g.takeTok c with
          wait := .atomic { op, ty := c.ty, sc := c.sc, near := nearScope c.sc, red := false, lanes := atomLanes as arg new, got := []
                            vec := (dstOf o.d).1, dst := (dstOf o.d).2, token := setTok? c, met := x.e.met, ch := c.ch, at_ := x.t.now } })))

/-- The entry of a command as its group posts it to a queue (10 R237): no step taken, its number the device's next. -/
def Issuing.entry (x : Issuing) (q : Nat) (cmd : Cmd) (bar : Option Bar) (failed : Option FaultInfo) : Entry :=
  { q, cmd, poster := x.e.r, scr := (x.e.w.scrBase, x.e.w.scrSize), iaddr := x.e.g.pc.toNat, mstep := (x.e.g.mcall.map (·.2)).getD 0
    token := setTok? x.e.c, bar, scope := x.e.c.sc, seq := x.t.nextSeq, epoch := (x.t.col (columnOf x.e.w.core)).epoch
    data := [], index := [], lands := [], held := [], xf := [], parked := none, failed, since := x.t.now, joint := false, hint := x.e.c.ch }

/-- An engine command is posted to a queue of its core where the queue has room: its entry stands last, its token is taken; a command of no
step that finds the queue empty is gone at once. -/
def Posts (i : Instr) (s : State) (x : Issuing) (q : Nat) (cmd : Cmd) (bar : Option Bar) : Prop :=
  let en := x.entry q cmd bar none
  let qr : QRef := { core := x.e.w.core, q }
  let t : State := { x.t with nextSeq := x.t.nextSeq + 1 }
  (x.t.core x.e.w.core).slots q < queueCap q →
    (en.complete && (x.t.queue qr).isEmpty → exec i s = .next (x.next s (.done t x.e.g))) ∧
    (¬(en.complete && (x.t.queue qr).isEmpty) →
      exec i s = .next (x.next s (.done (t.setQueue qr (x.t.queue qr ++ [en])) (x.e.g.takeTok x.e.c))))

/-- The words of the lanes of a map in w lines of the accumulator store from an offset. -/
def accLines (e : Env) (off w : Nat) (m : LaneMap) : List (Nat × List Piece) :=
  (lanesOf m).map fun l => (l, (List.range w).map fun k => (.mem (acLoc e.w.core (off + 256 * k + 4 * l)) 0, 4))

/-- The steps of such lanes' lines taken one by one: the number `lane` gives a step of a lane and a line, and the bytes it brings along. -/
def lineSteps (as : List (Nat × List Piece)) (lane : Nat → Nat → Nat) (data : Nat → Nat → List Byte) : List LaneStep :=
  as.flatMap fun p => p.2.zipIdx.map fun q => { lane := lane p.1 q.2, ps := [q.1], data := data p.1 q.2, regs := [] }

/-- A word of MSCALE (11 R267): the word as its FN says, times the lane's factor, rounded once to FP32. -/
def mscaleWord (c : Ctl) (o : OpsR) (b v : Nat) : Nat × Flags :=
  let p := mulExact (if c.fn.toNat ≥ 4 then ofInt (sext 32 v) else FP32.decode v) (FP32.decode b)
  let r := roundF FP32 (.mode (modeOf o.x.toNat)) false p.1
  (r.1, p.2 ||| r.2)

/-- A pipe of a form's class can take it now (07 R164, 13 R291): none of its scheduler is occupied, or its result map is empty and it needs none. -/
def State.pipeOpen (s : State) (w : Workgroup) (g : Group) (v : View) (f : Form) (own : Bool) : Prop :=
  (own = false ∧ (∃ n, RegName.v n ∈ dstRegs v f) ∧ g.rmap v f = 0) ∨
  ∀ k ∈ s.wgs, k.core = w.core → ∀ h ∈ k.groups, h.sched = g.sched → ∀ p ∈ h.pipes, p.1 = f.pipe → p.2 ≤ s.now

/-- A group is resident and its column does not roll back: steps of it are taken. -/
def State.stands (s : State) (r : GRef) (w : Workgroup) (g : Group) : Prop :=
  s.group? r = some (w, g) ∧ (s.col (columnOf w.core)).rolling = false

/-- The operands that a K-step reads: the tile and the panel, where it has not taken them before, and a structured step's records. -/
def KArgs.operands (x : KArgs) : List Piece :=
  (if x.data = none then [(.mem x.a 0, aExtent x.ra), (.mem x.b 0, bExtent x.rb)] else []) ++ x.md

/-- What K-step k of the head of an MX queue works on (11 R256, R260-R264): a loop's next step; or, of a joint operation, any step that this
core has not added, once step k - 2 has been added at every core, its operands those of the member that supplies it, or their bytes as this core took
them before a rollback (11 R265). A loop whose workgroup is to be saved takes no further step (12 R280). -/
def State.kArgs (s : State) (q : QRef) (e : Entry) (k : Nat) (x : KArgs) : Prop :=
  let off (blk : List Word) (b i s : Nat) : Int := (blkU blk b : Int) + s * blkI blk i
  let col := columnOf q.core
  match e.cmd with
  | .mloop ra rb blk ovw => k = e.data.length ∧ k < blkU blk 3 ∧ s.holdsAll q e = true ∧ s.saveWaits e = false ∧
    x = { ra, rb, a := e.sLoc q.core (off blk 0 4 k), b := bsLoc q.core (off blk 1 5 k).toNat, kept := fun _ => allTerms
          zero := fun _ _ => false, md := [], first := k == 0 && ovw, ac := blkU blk 2 }
  | .mloops fn ra rb blk ovw zm => k = e.data.length ∧ k < blkU blk 3 ∧ s.holdsAll q e = true ∧ s.saveWaits e = false ∧
    let z := 32 * nOf fn / mOf fn
    let md := e.sLoc q.core (off blk 6 7 k)
    let zl := e.sLoc q.core (off blk 8 9 k)
    let map := if zm then leNat (s.colRead col zl 8) else 0
    x = { ra, rb, a := e.sLoc q.core (off blk 0 4 k), b := bsLoc q.core (off blk 1 5 k).toNat
          kept := fun i => keptTerms fn (leNat (s.colRead col (locPlus md (i * z)) z))
          zero := fun i c => map.testBit (i / 64) || map.testBit (8 + c / 64)
          md := (.mem md 0, loopTM ra * z) :: if zm then [(.mem zl 0, 8)] else [], first := k == 0 && ovw, ac := blkU blk 2 }
  | .mloopj _ _ blk ovw => e.joint = true ∧ k < blkU blk 3 ∧ Entry.has e.data k = false ∧
    (2 ≤ k → s.jointAdded e (standOf q.core) (k - 2) = true) ∧
    ∃ y sa sb sblk o, s.jointAt ((memberCores (standOf q.core) (k % 4)).headD 0) (e.partner (k % 4)) = some y ∧
      y.cmd = .mloopj sa sb sblk o ∧
      x = { ra := sa, rb := sb
            a := y.sLoc ((memberCores (standOf q.core) (k % 4)).headD 0)
              (off sblk 0 4 (k / 4) + ((2 * (col % 4 / 2) + q.core % 4 / 2 : Nat) : Int) * blkI sblk 6)
            b := bsLoc ((memberCores (standOf q.core) (k % 4)).getD (2 * (col % 4 % 2) + q.core % 4 % 2) 0) (off sblk 1 5 (k / 4)).toNat
            kept := fun _ => allTerms, zero := fun _ _ => false, md := [], first := k == 0 && ovw, ac := blkU blk 2, shared := true
            data := (s.kdata.find? fun d => d.core == q.core && d.seq == e.seq && d.k == k).map fun d => (d.a, d.b) }
  | _ => False

/-- A command packet whose turn it is on its channel is performed: the device runs and is in D0, the channel is open at this boot stage, and the
header is as 21 R355 wants it, with a LEN that fits. -/
def State.performs (s : State) (p : Packet) (lenOk : Prop) (stage1 : Bool) : Prop :=
  s.turn p = true ∧ s.supply = true ∧ s.inReset = false ∧ s.pstate = .d0 ∧ (s.boot = 2 ∨ s.boot = 1 ∧ stage1 = true) ∧
  p.ver = 1 ∧ p.rsv1 = 0 ∧ p.rsv0 = 0 ∧ p.status = 0 ∧ p.len.toNat = p.payload.length ∧ lenOk

/-- The state after the port step that writes one line of a host write; the last one answers status 0. -/
def State.lineWritten (u : State) (p : Packet) (l : Loc) (n : Nat) (rest : List (Loc × Nat)) (data : List Byte) : State :=
  let t := u.put l (data.take n)
  if rest.isEmpty then t.status p 0
  else t.setChan p.ch.toNat { u.chan p.ch.toNat with prog := some { todo := rest, data := data.drop n } }

/-- The state after the port step that reads one line of a host read; the last one answers DATA. -/
def State.lineRead (u : State) (p : Packet) (l : Loc) (n : Nat) (rest : List (Loc × Nat)) (data : List Byte) : State :=
  if rest.isEmpty then u.answer p 0x82 0 (data ++ u.bytesAt l n)
  else u.setChan p.ch.toNat { u.chan p.ch.toNat with prog := some { todo := rest, data := data ++ u.bytesAt l n } }

/-- A host access as it has just begun: what its lines address, and the bytes it carries. -/
def State.begun (t : State) (p : Packet) (ls : List (Loc × Nat)) (data : List Byte) : State :=
  t.setChan p.ch.toNat { t.chan p.ch.toNat with prog := some { todo := cutLines ls, data } }

/-- What a scheduler of a core runs next: nothing of its core's REGROUPs can be performed, g of w is the group it chooses (13 R291), and g stands at a
slot of a line l that it has fetched and whose check passes, a legal target where that is still to be checked (07 R143, R146, R148). -/
def State.chooses (s : State) (core sched : Nat) (w : Workgroup) (g : Group) (l : FLine) : Prop :=
  s.regroupReady core = none ∧
  (∃ c cs, s.candidates core sched = c :: cs ∧
    cs.foldl (fun a b => if better (s.clock core).half prioOf b a then b else a) c = (w, g)) ∧
  g.pc.toNat < 2 ^ 48 ∧ slotAligned g.pc.toNat = true ∧ g.lines.find? (fun k => k.addr == lineOf g.pc.toNat) = some l ∧
  (l.checked = true ∨ lineReservedOk l.bytes = true ∧ parityOk l.bytes = true) ∧
  (g.entry = false ∨ tgtBit l.bytes (slotOf g.pc.toNat) = true) ∧ g.rstep = 0

/-- The group as its instruction issues: its line is checked, and so is a start or handler address. -/
def Group.asIssued (g : Group) (l : FLine) : Group :=
  { g with entry := false, lines := g.lines.map fun k => if k.addr == l.addr then { k with checked := true } else k }

/-- Words whose MC acts as their own meaning says, not as 06 R128 does for the rest. -/
def ownMaps : Instr → Bool
  | .mand .. | .mor .. | .mandn .. | .mxor .. | .mnot .. | .mmov .. | .mpop .. | .mfind .. | .msetPair .. | .msetFirst .. | .mget ..
  | .mtst .. | .mof .. | .restrict .. | .merge .. | .fill .. | .pull .. | .bcast .. | .regroup .. => true
  | _ => false

/-- The forms that 07 R167 names privileged, and the CSR accesses that Table 12.11 marks so. -/
def privileged : Instr → Bool
  | .rft .. | .tlbinvRange .. | .tlbinvAll .. | .gsave .. | .grest .. | .pgreqGate .. | .pgreqUngate .. => true
  | .csrr _ o => csrPriv o.imm.toNat false
  | .csrw _ o | .srseedWrite _ o | .wdogWrite _ o | .injcWrite _ o => csrPriv o.imm.toNat true
  | .csrxSet _ o | .csrxClr _ o | .csrxSwap _ o => csrPriv o.x.toNat true
  | _ => false

/-- The matrix forms of upper cores (07 R167). -/
def upperOnly : Instr → Bool
  | .mloop .. | .mloopj .. | .mloops .. | .mzero .. | .mrd .. | .mwr .. | .mscale .. | .mqstatFlags .. | .mqstatClr .. | .mqstatDepth .. => true
  | _ => false

/-- Every store holds the same bytes in two states. -/
def State.sameMem (s t : State) : Prop := t.dram = s.dram ∧ t.sram = s.sram ∧ t.bs = s.bs ∧ t.ac = s.ac

/-- The words that write no byte of memory: all but the stores, the atomics, the writers of synchronisation objects and of the accumulator
store, GSAVE, the commands of an engine, whose steps write, and REGROUP (10 R224-R246, 11 R249-R267, 12 R285). -/
def keepsMemory : Instr → Bool
  | .st .. | .stm .. | .atom .. | .atomc .. | .red .. | .tld .. | .tst .. | .ycopy .. | .ygath .. | .yscat .. | .barinit ..
  | .arrive .. | .arriveBytes .. | .rinit .. | .rput .. | .rrel .. | .seminc .. | .semdec ..
  | .mloop .. | .mloopj .. | .mloops .. | .mzero .. | .mwr .. | .mscale .. | .gsave .. | .regroup .. => false
  | i => (viewForm i).isSome

end Sys2Proof.Machine
end

