-- ==== Sys2Proof/WellFormed.lean ====
section
/-!
DEFINITION. Which terms of Instr are well formed: an instruction word whose constructor is the row that its OPC, FN and CSR
number select, and which passes the word checks of 07 R168 (reserved-field and illegal-variant) on an upper core; a step
whose arguments lie in the ranges of the agents they name.
-/

namespace Sys2Proof

open Sys2Proof.Machine

/-- The constructor is the row its FN, CSRW's number, or a command's OP (Table 21.2) selects (07 R166, spec/opcode_table.json). -/
def rowSelected : Instr → Bool
  | .nop _ _ => true
  | .bra _ _ => true
  | .brxAbs c _ => !fnIn c [1]
  | .brxRel c _ => fnIn c [1]
  | .call _ _ => true
  | .ret _ _ => true
  | .brm _ _ => true
  | .brw _ _ => true
  | .brdec _ _ => true
  | .mcall _ _ => true
  | .exit _ _ => true
  | .yield _ _ => true
  | .trap _ _ => true
  | .rft _ _ => true
  | .spawn _ _ => true
  | .fork _ _ => true
  | .regroup _ _ => true
  | .cancel _ _ => true
  | .cntrdCount c _ => !fnIn c [1]
  | .cntrdStatus c _ => fnIn c [1]
  | .mand _ _ => true
  | .mor _ _ => true
  | .mandn _ _ => true
  | .mxor _ _ => true
  | .mnot _ _ => true
  | .mmov _ _ => true
  | .mpop _ _ => true
  | .mfind _ _ => true
  | .msetPair c _ => !fnIn c [1]
  | .msetFirst c _ => fnIn c [1]
  | .mget _ _ => true
  | .mtst _ _ => true
  | .mof _ _ => true
  | .restrict _ _ => true
  | .merge _ _ => true
  | .fill _ _ => true
  | .compact _ _ => true
  | .pull _ _ => true
  | .push _ _ => true
  | .bcast _ _ => true
  | .vote _ _ => true
  | .reduce _ _ => true
  | .scan _ _ => true
  | .lanemapPos c _ => !fnIn c [1]
  | .lanemapTid c _ => fnIn c [1]
  | .iadd _ _ => true
  | .isub _ _ => true
  | .imul _ _ => true
  | .imulh _ _ => true
  | .imad _ _ => true
  | .idiv _ _ => true
  | .irem _ _ => true
  | .imin _ _ => true
  | .imax _ _ => true
  | .iabs _ _ => true
  | .ineg _ _ => true
  | .iadds _ _ => true
  | .icmp _ _ => true
  | .lea _ _ => true
  | .mov _ _ => true
  | .movi _ _ => true
  | .and _ _ => true
  | .or _ _ => true
  | .xor _ _ => true
  | .andn _ _ => true
  | .tril _ _ => true
  | .shl _ _ => true
  | .shr _ _ => true
  | .sar _ _ => true
  | .fshl _ _ => true
  | .fshr _ _ => true
  | .bfx _ _ => true
  | .bfi _ _ => true
  | .popc _ _ => true
  | .clz _ _ => true
  | .ctz _ _ => true
  | .brev _ _ => true
  | .fadd _ _ => true
  | .fsub _ _ => true
  | .fmul _ _ => true
  | .ffma _ _ => true
  | .fmin _ _ => true
  | .fmax _ _ => true
  | .fcmp _ _ => true
  | .frcp _ _ => true
  | .frsq _ _ => true
  | .fsqrt _ _ => true
  | .fdiv _ _ => true
  | .fexp2 _ _ => true
  | .flog2 _ _ => true
  | .fsin _ _ => true
  | .fcos _ _ => true
  | .ftanh _ _ => true
  | .frnd _ _ => true
  | .fclass c _ => !fnIn c [1]
  | .fclassM c _ => fnIn c [1]
  | .fscale _ _ => true
  | .fdot2 _ _ => true
  | .cvt _ _ => true
  | .cvtb _ _ => true
  | .decb _ _ => true
  | .ld _ _ => true
  | .st _ _ => true
  | .ldm _ _ => true
  | .stm _ _ => true
  | .wbind _ _ => true
  | .wstat _ _ => true
  | .atom _ _ => true
  | .atomc _ _ => true
  | .red _ _ => true
  | .pref _ _ => true
  | .pinOn c _ => !fnIn c [1]
  | .pinOff c _ => fnIn c [1]
  | .tbind _ _ => true
  | .tinfo _ _ => true
  | .tld _ _ => true
  | .tst _ _ => true
  | .ycopy _ _ => true
  | .ygath _ _ => true
  | .yscat _ _ => true
  | .yfence _ _ => true
  | .barinit _ _ => true
  | .arrive c _ => !fnIn c [1]
  | .arriveBytes c _ => fnIn c [1]
  | .waitph c _ => !fnIn c [1, 2, 3, 4, 5, 6, 7, 8, 9, 10, 11]
  | .waitphSwap c _ => fnIn c [1]
  | .waitphVin c _ => fnIn c [2]
  | .waitphVout c _ => fnIn c [3]
  | .waitphBankFifo c _ => fnIn c [4, 5, 6, 7, 8, 9, 10, 11]
  | .phaseWaitComplete _ => true
  | .barq _ _ => true
  | .rinit _ _ => true
  | .rawait _ _ => true
  | .rput _ _ => true
  | .rrel _ _ => true
  | .seminc _ _ => true
  | .semdec _ _ => true
  | .sfence _ _ => true
  | .vpush _ _ => true
  | .vpop _ _ => true
  | .vfree _ _ => true
  | .fpush _ _ => true
  | .fpop _ _ => true
  | .bankmodeCmin c _ => !fnIn c [1]
  | .bankmodeRelease c _ => fnIn c [1]
  | .mloop _ _ => true
  | .mloopj _ _ => true
  | .mloops _ _ => true
  | .mzero _ _ => true
  | .mrd _ _ => true
  | .mwr _ _ => true
  | .mscale _ _ => true
  | .prune _ _ => true
  | .isect _ _ => true
  | .rank _ _ => true
  | .idot4 _ _ => true
  | .mqstatFlags c _ => !fnIn c [1, 2]
  | .mqstatClr c _ => fnIn c [1]
  | .mqstatDepth c _ => fnIn c [2]
  | .csrr _ _ => true
  | .csrw _ o => o.imm != 0x11 && o.imm != 0x30 && o.imm != 0x41
  | .csrxSet c _ => !fnIn c [1, 2]
  | .csrxClr c _ => fnIn c [1]
  | .csrxSwap c _ => fnIn c [2]
  | .srseedWrite _ o => o.imm == 0x11
  | .wdogWrite _ o => o.imm == 0x30
  | .injcWrite _ o => o.imm == 0x41
  | .tlbinvRange c _ => !fnIn c [1]
  | .tlbinvAll c _ => fnIn c [1]
  | .cacheopDrop c _ => !fnIn c [1]
  | .cacheopDropall c _ => fnIn c [1]
  | .pgreqGate c _ => !fnIn c [1]
  | .pgreqUngate c _ => fnIn c [1]
  | .gsave _ _ => true
  | .grest _ _ => true
  | .clockCyc c _ => !fnIn c [1, 2]
  | .clockNs c _ => fnIn c [1]
  | .clockEpoch c _ => fnIn c [2]
  | .bkpt _ _ => true
  | .instructionFetch _ => true
  | .lineRefetch _ => true
  | .loadDataDelivery _ _ _ => true
  | .atomicPerform _ _ => true
  | .reductionPerform _ _ => true
  | .pageWalk _ => true
  | .walkEntryRead _ => true
  | .adUpdate _ => true
  | .peerTableRead _ => true
  | .peerAdmissionReply _ _ => true
  | .peerQueryTimeout _ => true
  | .invalidationComplete _ => true
  | .tilePretranslate _ => true
  | .tileStep _ => true
  | .landStep _ _ => true
  | .ycopyLineStep _ _ _ => true
  | .gatherIndexRead _ _ _ => true
  | .gatherRowStep _ _ _ => true
  | .rputClaim _ => true
  | .yfenceRelease _ => true
  | .kStep _ _ => true
  | .mzeroLineStep _ _ => true
  | .jointStart _ => true
  | .jointMismatchTimeout _ => true
  | .jointCompletion _ => true
  | .engineTermination _ => true
  | .epochEnd _ => true
  | .epochConfirmation _ => true
  | .landingBufferDrain _ => true
  | .egressRelease _ => true
  | .strikeReport _ => true
  | .rollbackResume _ => true
  | .scrubComplete _ => true
  | .l2Refetch _ => true
  | .timingReplay _ => true
  | .droopTrip _ => true
  | .droopExit _ => true
  | .placement _ => true
  | .preemptionVictimChoice => true
  | .swapOut _ => true
  | .workgroupSave _ => true
  | .swapResume _ => true
  | .bankReturnTimeout _ _ => true
  | .buckerFullGroup _ _ _ => true
  | .buckerPartialGroup _ _ _ => true
  | .workgroupTermination _ => true
  | .unitCompletion _ _ => true
  | .trapDelivery _ => true
  | .watchdogWait _ => true
  | .watchdogPeer _ => true
  | .watchdogRun _ => true
  | .marketClear _ => true
  | .balanceMeasurement _ => true
  | .coreGate _ => true
  | .columnGate _ => true
  | .ungateReady _ => true
  | .idleEntry => true
  | .deviceWake => true
  | .wakeComplete => true
  | .peerAccess _ => true
  | .peerRefusalReply _ => true
  | .peerWriteAck _ => true
  | .peerCopyExpiry _ => true
  | .peerFailed _ => true
  | .laneShed _ _ => true
  | .retrainComplete _ => true
  | .upshiftTry _ _ => true
  | .linkRecoverySuccess _ => true
  | .linkRecoveryAbandon _ => true
  | .connectionReestablished _ => true
  | .writeVa p => p.op == 0x01
  | .writePa p => p.op == 0x02
  | .readVa p => p.op == 0x03
  | .readPa p => p.op == 0x04
  | .launch p => p.op == 0x05
  | .resume p => p.op == 0x06
  | .cancelCommand p => p.op == 0x07
  | .inval p => p.op == 0x08
  | .ctxsave p => p.op == 0x09
  | .ctxrun p => p.op == 0x0a
  | .ctxset p => p.op == 0x0b
  | .seqquery p => p.op == 0x0c
  | .ctxdesc p => p.op == 0x20
  | .power p => p.op == 0x21
  | .gate p => p.op == 0x22
  | .cmin p => p.op == 0x23
  | .counters p => p.op == 0x24
  | .link p => p.op == 0x25
  | .selftest p => p.op == 0x26
  | .selftestDone _ => true
  | .attest p => p.op == 0x27
  | .fwload p => p.op == 0x28
  | .fwstart p => p.op == 0x29
  | .firmwareReady => true
  | .reset p => p.op == 0x2a
  | .resetPin => true
  | .bootRomReady _ => true
  | .moduleSupplyOff => true
  | .mrstNAssert => true
  | .overTemperature => true

/-- Cores, columns, clusters, stands, ports and channels exist (00 R1, 21 R353, R354). -/
def stepArgsOk : Instr → Bool
  | .tilePretranslate q | .tileStep q | .landStep q _ | .ycopyLineStep q _ _ | .gatherIndexRead q _ _
  | .gatherRowStep q _ _ | .rputClaim q | .yfenceRelease q | .kStep q _ | .mzeroLineStep q _
  | .jointMismatchTimeout q | .engineTermination q => q.core < 256 && q.q < 5
  | .jointStart n | .jointCompletion n => n < 8
  | .epochEnd n | .epochConfirmation n | .landingBufferDrain n | .rollbackResume n | .droopTrip n | .droopExit n
  | .columnGate n => n < 32
  | .timingReplay n | .placement n | .coreGate n | .ungateReady n => n < 256
  | .bankReturnTimeout c b => c < 64 && b < 64
  | .laneShed p l => p < 16 && l < 8
  | .retrainComplete p | .upshiftTry p _ | .linkRecoverySuccess p | .linkRecoveryAbandon p => p < 16
  | .connectionReestablished n => n < 65
  | .buckerFullGroup c _ d | .buckerPartialGroup c _ d => c < 64 && d < 4
  | _ => true

/-- Well-formedness. -/
def Instr.wf (i : Instr) : Bool :=
  rowSelected i &&
  match viewForm i with
  | some (v, f) => reservedOk v f && variantOk v f
  | none => stepArgsOk i

end Sys2Proof
end

