-- ==== Sys2Proof/Certificates/Slice0/Obligations.lean ====
section
/-!
DEFINITION. The statements for the provers. Each completion statement says that a word, or a step of the device, answers a next state
under premises on the state and the operands alone, and gives that state; `Issuing`, `Computes`, `Written` and the rest of its terms
are defined in `Sys2Proof.Safety`.
-/

open Sys2Proof Sys2Proof.Machine

/-- Integer forms (09 R194, R196-R198, R200): wherever one issues it completes, and its destination holds the value on the lanes of the
result map and nothing else changes. -/
def Obligations.IntegerFormsComplete : Prop :=
  (∀ (c : Ctl) (o : OpsR), Computes (.iadd c o) c.ty o.d fun e l => (intOp c.ty (· + ·) (e.val c.ty o.a l) (e.val c.ty o.b l), 0)) ∧
  (∀ (c : Ctl) (o : OpsR), Computes (.isub c o) c.ty o.d fun e l => (intOp c.ty (· - ·) (e.val c.ty o.a l) (e.val c.ty o.b l), 0)) ∧
  (∀ (c : Ctl) (o : OpsR), Computes (.imul c o) c.ty o.d fun e l => (intOp c.ty (· * ·) (e.val c.ty o.a l) (e.val c.ty o.b l), 0)) ∧
  (∀ (c : Ctl) (o : OpsR), Computes (.imulh c o) c.ty o.d fun e l => (intBits c.ty (Int.fdiv (intOf c.ty (e.val c.ty o.a l) * intOf c.ty (e.val c.ty o.b l)) ((2 ^ intWidth c.ty : Nat) : Int)), 0)) ∧
  (∀ (c : Ctl) (o : OpsR), Computes (.imad c o) c.ty o.d fun e l => (intBits c.ty (intOf c.ty (e.val c.ty o.a l) * intOf c.ty (e.val c.ty o.b l) + intOf c.ty (e.val c.ty o.c l)), 0)) ∧
  (∀ (c : Ctl) (o : OpsR), Computes (.idiv c o) c.ty o.d fun e l => 
      (if intOf c.ty (e.val c.ty o.b l) = 0 then (intBits c.ty (if tySigned c.ty then -1 else intMax c.ty), fDZ)
       else (intBits c.ty (Int.tdiv (intOf c.ty (e.val c.ty o.a l)) (intOf c.ty (e.val c.ty o.b l))), 0))) ∧
  (∀ (c : Ctl) (o : OpsR), Computes (.irem c o) c.ty o.d fun e l => 
      (if intOf c.ty (e.val c.ty o.b l) = 0 then (intBits c.ty (intOf c.ty (e.val c.ty o.a l)), fDZ)
       else (intBits c.ty (Int.tmod (intOf c.ty (e.val c.ty o.a l)) (intOf c.ty (e.val c.ty o.b l))), 0))) ∧
  (∀ (c : Ctl) (o : OpsR), Computes (.imin c o) c.ty o.d fun e l => (intOp c.ty min (e.val c.ty o.a l) (e.val c.ty o.b l), 0)) ∧
  (∀ (c : Ctl) (o : OpsR), Computes (.imax c o) c.ty o.d fun e l => (intOp c.ty max (e.val c.ty o.a l) (e.val c.ty o.b l), 0)) ∧
  (∀ (c : Ctl) (o : OpsR), Computes (.iabs c o) c.ty o.d fun e l => (intBits c.ty (intOf c.ty (e.val c.ty o.a l)).natAbs, 0)) ∧
  (∀ (c : Ctl) (o : OpsR), Computes (.ineg c o) c.ty o.d fun e l => (intBits c.ty (-(intOf c.ty (e.val c.ty o.a l))), 0)) ∧
  (∀ (c : Ctl) (o : OpsR), Computes (.iadds c o) c.ty o.d fun e l => (intOp c.ty (fun x y => satI c.ty (if c.fn = 0 then x + y else x - y)) (e.val c.ty o.a l) (e.val c.ty o.b l), 0)) ∧
  (∀ (c : Ctl) (o : OpsR), Computes (.lea c o) .i64 o.d fun e l => 
      (wrap 64 ((e.val .i64 o.a l : Int) + intOf c.ty (e.val c.ty o.b l) * 2 ^ o.x.toNat), 0)) ∧
  (∀ (c : Ctl) (o : OpsR), Computes (.mov c o) c.ty o.d fun e l => ((e.val c.ty o.a l), 0)) ∧
  (∀ (c : Ctl) (o : OpsI), Computes (.movi c o) c.ty o.d fun _ _ => (if c.ty = .i64 then wrap 64 (sext 32 o.imm.toNat) else o.imm.toNat, 0))

/-- Logic, shift, bit-field and count forms (09 R201-R205), RANK and IDOT4 (11 R270). -/
def Obligations.BitFormsComplete : Prop :=
  (∀ (c : Ctl) (o : OpsR), Computes (.and c o) c.ty o.d fun e l => ((e.val c.ty o.a l) &&& (e.val c.ty o.b l), 0)) ∧
  (∀ (c : Ctl) (o : OpsR), Computes (.or c o) c.ty o.d fun e l => ((e.val c.ty o.a l) ||| (e.val c.ty o.b l), 0)) ∧
  (∀ (c : Ctl) (o : OpsR), Computes (.xor c o) c.ty o.d fun e l => ((e.val c.ty o.a l) ^^^ (e.val c.ty o.b l), 0)) ∧
  (∀ (c : Ctl) (o : OpsR), Computes (.andn c o) c.ty o.d fun e l => (ofBits (bitW c.ty) fun i => (e.val c.ty o.a l).testBit i && !(e.val c.ty o.b l).testBit i, 0)) ∧
  (∀ (c : Ctl) (o : OpsR), Computes (.tril c o) c.ty o.d fun e l => (ofBits (bitW c.ty) fun i => trilBit o.x.toNat (e.val c.ty o.a l) (e.val c.ty o.b l) (e.val c.ty o.c l) i, 0)) ∧
  (∀ (c : Ctl) (o : OpsR), Computes (.shl c o) c.ty o.d fun e l => (if (e.val .ui32 o.b l) ≥ bitW c.ty then 0 else (e.val c.ty o.a l) * 2 ^ (e.val .ui32 o.b l) % 2 ^ bitW c.ty, 0)) ∧
  (∀ (c : Ctl) (o : OpsR), Computes (.shr c o) c.ty o.d fun e l => (if (e.val .ui32 o.b l) ≥ bitW c.ty then 0 else (e.val c.ty o.a l) % 2 ^ bitW c.ty / 2 ^ (e.val .ui32 o.b l), 0)) ∧
  (∀ (c : Ctl) (o : OpsR), Computes (.sar c o) c.ty o.d fun e l => (wrap (bitW c.ty) (Int.fdiv (sext (bitW c.ty) (e.val c.ty o.a l)) ((2 ^ min (e.val .ui32 o.b l) (bitW c.ty) : Nat) : Int)), 0)) ∧
  (∀ (c : Ctl) (o : OpsR), Computes (.fshl c o) c.ty o.d fun e l => (fshlV c.fn.toNat (e.val c.ty o.a l) (e.val c.ty o.b l) (e.val .ui32 o.c l), 0)) ∧
  (∀ (c : Ctl) (o : OpsR), Computes (.fshr c o) c.ty o.d fun e l => (fshrV c.fn.toNat (e.val c.ty o.a l) (e.val c.ty o.b l) (e.val .ui32 o.c l), 0)) ∧
  (∀ (c : Ctl) (o : OpsR), Computes (.bfx c o) c.ty o.d fun e l => (bfxV (c.ty == .i32) (e.val c.ty o.a l) (e.val .ui32 o.b l) (e.val .ui32 o.c l), 0)) ∧
  (∀ (c : Ctl) (o : OpsR), Computes (.bfi c o) c.ty o.d fun e l => (bfiV (e.val c.ty o.a l) (e.val c.ty o.b l) (e.val .ui32 o.c l) (e.val .ui32 o.e l), 0)) ∧
  (∀ (c : Ctl) (o : OpsR), Computes (.popc c o) c.ty o.d fun e l => (popcV (bitW c.ty) (e.val c.ty o.a l), 0)) ∧
  (∀ (c : Ctl) (o : OpsR), Computes (.clz c o) c.ty o.d fun e l => (clzV (bitW c.ty) (e.val c.ty o.a l), 0)) ∧
  (∀ (c : Ctl) (o : OpsR), Computes (.ctz c o) c.ty o.d fun e l => (ctzV (bitW c.ty) (e.val c.ty o.a l), 0)) ∧
  (∀ (c : Ctl) (o : OpsR), Computes (.brev c o) c.ty o.d fun e l => (brevV (bitW c.ty) (e.val c.ty o.a l), 0)) ∧
  (∀ (c : Ctl) (o : OpsR), Computes (.rank c o) .b32 o.d fun e l => (popcV 32 (e.val .b32 o.a l % 2 ^ min (e.val .ui32 o.b l) 32), 0)) ∧
  (∀ (c : Ctl) (o : OpsR), Computes (.idot4 c o) .i32 o.d fun e l => (idot4V c.fn.toNat (e.val .i8x4 o.a l) (e.val .i8x4 o.b l) (e.val .i32 o.c l), 0))

/-- Floating-point forms (09 R206-R213). -/
def Obligations.FloatFormsComplete : Prop :=
  (∀ (c : Ctl) (o : OpsR), Computes (.fadd c o) c.ty o.d fun e l => faddV c.ty (xm o) (e.val c.ty o.a l) (e.val c.ty o.b l)) ∧
  (∀ (c : Ctl) (o : OpsR), Computes (.fsub c o) c.ty o.d fun e l => fsubV c.ty (xm o) (e.val c.ty o.a l) (e.val c.ty o.b l)) ∧
  (∀ (c : Ctl) (o : OpsR), Computes (.fmul c o) c.ty o.d fun e l => fmulV c.ty (xm o) (e.val c.ty o.a l) (e.val c.ty o.b l)) ∧
  (∀ (c : Ctl) (o : OpsR), Computes (.ffma c o) c.ty o.d fun e l => ffmaV c.ty (xm o) (e.val c.ty o.a l) (e.val c.ty o.b l) (e.val c.ty o.c l)) ∧
  (∀ (c : Ctl) (o : OpsR), Computes (.fmin c o) c.ty o.d fun e l => fminMax false c.ty (e.val c.ty o.a l) (e.val c.ty o.b l)) ∧
  (∀ (c : Ctl) (o : OpsR), Computes (.fmax c o) c.ty o.d fun e l => fminMax true c.ty (e.val c.ty o.a l) (e.val c.ty o.b l)) ∧
  (∀ (c : Ctl) (o : OpsR), Computes (.frcp c o) .f32 o.d fun e l => frcpF (FP32.decode (e.val .f32 o.a l))) ∧
  (∀ (c : Ctl) (o : OpsR), Computes (.frsq c o) .f32 o.d fun e l => frsqF (FP32.decode (e.val .f32 o.a l))) ∧
  (∀ (c : Ctl) (o : OpsR), Computes (.fsqrt c o) .f32 o.d fun e l => fsqrtF (.mode (xm o)) (FP32.decode (e.val .f32 o.a l))) ∧
  (∀ (c : Ctl) (o : OpsR), Computes (.fdiv c o) .f32 o.d fun e l => fdivF (.mode (xm o)) (FP32.decode (e.val .f32 o.a l)) (FP32.decode (e.val .f32 o.b l))) ∧
  (∀ (c : Ctl) (o : OpsR), Computes (.fexp2 c o) .f32 o.d fun e l => fexp2F (FP32.decode (e.val .f32 o.a l))) ∧
  (∀ (c : Ctl) (o : OpsR), Computes (.flog2 c o) .f32 o.d fun e l => flog2F (FP32.decode (e.val .f32 o.a l))) ∧
  (∀ (c : Ctl) (o : OpsR), Computes (.fsin c o) .f32 o.d fun e l => trigF false (FP32.decode (e.val .f32 o.a l))) ∧
  (∀ (c : Ctl) (o : OpsR), Computes (.fcos c o) .f32 o.d fun e l => trigF true (FP32.decode (e.val .f32 o.a l))) ∧
  (∀ (c : Ctl) (o : OpsR), Computes (.ftanh c o) .f32 o.d fun e l => ftanhF (FP32.decode (e.val .f32 o.a l))) ∧
  (∀ (c : Ctl) (o : OpsR), Computes (.frnd c o) c.ty o.d fun e l => frndV c.ty (xm o) (e.val c.ty o.a l)) ∧
  (∀ (c : Ctl) (o : OpsR), Computes (.fscale c o) c.ty o.d fun e l => fscaleV c.ty (xm o) (e.val c.ty o.a l) (e.val .i32 o.b l)) ∧
  (∀ (c : Ctl) (o : OpsR), Computes (.fclass c o) .ui32 o.d fun e l => (fclassV c.ty (e.val c.ty o.a l), 0)) ∧
  (∀ (c : Ctl) (o : OpsR), Computes (.fdot2 c o) .f32 o.d fun e l => fdot2V c.ty (xm o) (e.val c.ty o.a l) (e.val c.ty o.b l) (e.val .f32 o.c l))

/-- Compare forms (06 R129, 09 R199, R210, R211): with a source that varies by lane the two maps split the result map by the condition;
otherwise the two predicates receive the condition and its negation. -/
def Obligations.CompareFormsComplete : Prop :=
  (∀ (c : Ctl) (o : OpsR), Splits (.icmp c o) o.d o.e (varies o.a || varies o.b) fun e l =>
    condHolds c.fn.toNat (decide (intOf c.ty (e.val c.ty o.a l) < intOf c.ty (e.val c.ty o.b l)))
      (decide (intOf c.ty (e.val c.ty o.a l) = intOf c.ty (e.val c.ty o.b l)))) ∧
  (∀ (c : Ctl) (o : OpsR), Splits (.fcmp c o) o.d o.e (varies o.a || varies o.b) fun e l =>
    fCmp c.fn.toNat c.ty (e.val c.ty o.a l) (e.val c.ty o.b l)) ∧
  (∀ (c : Ctl) (o : OpsR), Splits (.fclassM c o) o.d o.e (varies o.a) fun e l =>
    fclassV c.ty (e.val c.ty o.a l) &&& e.u o.b % 512 != 0)

/-- Conversion forms (09 R215-R217, R221, 03 R64). CVT writes one converted element, or two or four packed ones, and a stochastic CVT
steps SRN; DECB decodes a lane's code with its block's side information; CVTB writes the codes and the side information of the two
blocks, sets their flags, and steps SRN where it rounds stochastically. -/
def Obligations.ConversionFormsComplete : Prop :=
  (∀ (c : Ctl) (o : OpsR) (s : State) (x : Issuing), s.issuing (.cvt c o) false false = some x →
    ∃ g', exec (.cvt c o) s = .next (x.next s (.done x.t (g'.srNext (c.fn.toNat ≥ 2)))) ∧
      Written x.e.g g' c.ty o.d x.e.m fun l =>
        let rnd : Rnd := if c.fn.toNat ≥ 2 then .sr (srZ x.e.g l) else .mode (modeOf o.x.toNat)
        let one (p : Operand) (k : Nat) : Nat × Flags :=
          cvtOne (tyOfNat (cvtSrc o.x)) c.ty (c.fn.toNat % 2 == 1) rnd (x.e.val (tyOfNat (cvtSrc o.x)) p l) k
        match cvtKind (tyNat c.ty) (cvtSrc o.x) c.fn.toNat with
        | .pack 2 => packElems c.ty [one o.a 0, one o.b 0]
        | .pack _ => packElems c.ty [one o.a 0, one o.b 0, one o.c 0, one o.e 0]
        | _ => one o.a (cvtElem o.x)) ∧
  (∀ (c : Ctl) (o : OpsR), Computes (.decb c o) .f32 o.d fun e l =>
    let other := if e.m.getLsbD (l ^^^ 1) then e.val .b32 o.a (l ^^^ 1) else 0
    let v := blockVal c.fn.toNat (sideOf c.fn.toNat (if sideTy c.fn.toNat = .i64 then e.pair o.b else e.u o.b) (l / 32))
      (e.val .b32 o.a l) other
    let r := roundF FP32 (.mode (modeOf o.x.toNat)) false v.1
    (r.1, v.2 ||| r.2)) ∧
  (∀ (c : Ctl) (o : OpsR) (n : Fin 128) (s : State) (x : Issuing), o.d = .vec n → s.issuing (.cvtb c o) false false = some x →
    let rnd (l : Nat) : Rnd := if c.fn.toNat ≥ 8 then .sr (srZ x.e.g l) else .mode (modeOf o.x.toNat)
    let block (k : Nat) : BlockCodes := cvtBlock (c.fn.toNat % 8) rnd
      (((lanesOf x.e.m).filter fun l => l / 32 == k).map fun l => (l, FP32.decode (x.e.val .f32 o.a l)))
    exec (.cvtb c o) s = .next (x.next s (.done x.t
      ((((x.e.g.writeV .b32 n ((block 0).codes ++ (block 1).codes)).writeS (sideTy c.fn.toNat) o.e
        (placeSides (c.fn.toNat % 8) (block 0).side (block 1).side)).flag ((block 0).flags ||| (block 1).flags)).srNext
          (c.fn.toNat ≥ 8)))))

/-- Map forms (08 R184): each writes the map, the scalar or the predicate that its row gives, computed from effective maps, which read
as the stored map within LIVE (06 R126). -/
def Obligations.MapFormsComplete : Prop :=
  (∀ (c : Ctl) (o : OpsR), Makes (.mand c o) true fun e => e.g.writeM o.d (e.map o.a &&& e.map o.b)) ∧
  (∀ (c : Ctl) (o : OpsR), Makes (.mor c o) true fun e => e.g.writeM o.d (e.map o.a ||| e.map o.b)) ∧
  (∀ (c : Ctl) (o : OpsR), Makes (.mandn c o) true fun e => e.g.writeM o.d (e.map o.a &&& ~~~(e.map o.b))) ∧
  (∀ (c : Ctl) (o : OpsR), Makes (.mxor c o) true fun e => e.g.writeM o.d (e.map o.a ^^^ e.map o.b)) ∧
  (∀ (c : Ctl) (o : OpsR), Makes (.mnot c o) true fun e => e.g.writeM o.d (~~~(e.map o.a))) ∧
  (∀ (c : Ctl) (o : OpsR), Makes (.mmov c o) true fun e => e.g.writeM o.d (e.map o.a)) ∧
  (∀ (c : Ctl) (o : OpsR), Makes (.mof c o) true fun e => e.g.writeM o.d (e.map o.a)) ∧
  (∀ (c : Ctl) (o : OpsR), Makes (.msetPair c o) true fun e => e.g.writeM o.d (BitVec.ofNat 64 (e.pair o.a))) ∧
  (∀ (c : Ctl) (o : OpsR), Makes (.msetFirst c o) true fun e => e.g.writeM o.d (lowLanes (e.u o.a))) ∧
  (∀ (c : Ctl) (o : OpsR), Makes (.mpop c o) true fun e => e.g.writeS .ui32 o.d (lanesOf (e.map o.a)).length) ∧
  (∀ (c : Ctl) (o : OpsR), Makes (.mfind c o) true fun e => e.g.writeS .ui32 o.d
    ((if c.fn = 1 then (lanesOf (e.map o.a)).getLast? else (lanesOf (e.map o.a)).head?).getD 64)) ∧
  (∀ (c : Ctl) (o : OpsR), Makes (.mget c o) true fun e => e.g.writeS .i64 o.d (e.map o.a).toNat) ∧
  (∀ (c : Ctl) (o : OpsR), Makes (.mtst c o) true fun e => e.g.writeP o.d
    (if c.fn = 0 then e.map o.a != 0 else if c.fn = 1 then e.map o.a == 0 else if c.fn = 2 then e.map o.a == e.g.live
     else e.map o.a != e.g.live))

/-- Forms that build registers from maps (08 R185, R186): RESTRICT, MERGE where MC admits its operands, FILL, and COMPACT once nothing is in flight to
the group, which packs the live lanes into the lowest positions: every register holds nothing at or above their number, and no map has a bit there. -/
def Obligations.MapRegisterFormsComplete : Prop :=
  (∀ (c : Ctl) (o : OpsR) (s : State) (x : Issuing), s.issuing (.restrict c o) true false = some x →
    ∃ g', exec (.restrict c o) s = .next (x.next s (.done x.t g')) ∧
      Written x.e.g g' c.ty o.d (x.e.g.omap (rd [.v] c.ty) o.a &&& x.e.map o.b) fun l => (x.e.val c.ty o.a l, 0)) ∧
  (∀ (c : Ctl) (o : OpsR) (s : State) (x : Issuing), s.issuing (.merge c o) true false = some x →
    (c.mc = false ∨ x.e.g.omap (rd [.v] c.ty) o.a &&& x.e.g.omap (rd [.v] c.ty) o.b = 0) →
    ∃ g', exec (.merge c o) s = .next (x.next s (.done x.t g')) ∧
      Written x.e.g g' c.ty o.d (x.e.g.omap (rd [.v] c.ty) o.a ||| x.e.g.omap (rd [.v] c.ty) o.b) fun l =>
        (if (x.e.g.omap (rd [.v] c.ty) o.a).getLsbD l then x.e.val c.ty o.a l else x.e.val c.ty o.b l, 0)) ∧
  (∀ (c : Ctl) (o : OpsR) (s : State) (x : Issuing), s.issuing (.fill c o) true false = some x →
    ∃ g', exec (.fill c o) s = .next (x.next s (.done x.t g')) ∧
      Written x.e.g g' c.ty o.d (x.e.map o.b) fun l => (x.e.val c.ty o.a l, 0)) ∧
  (∀ (c : Ctl) (o : OpsR) (s : State) (x : Issuing), s.issuing (.compact c o) false false = some x →
    x.e.g.pend = [] → (∀ k, x.e.g.tokBusy k = false) →
    ∃ g', exec (.compact c o) s = .next (x.next s (.done x.t g')) ∧
      g'.live = lowLanes (lanesOf x.e.g.live).length ∧ g'.dead = 0 ∧
      (∀ k l, (lanesOf x.e.g.live)[k]? = some l → g'.tidOf k = x.e.g.tidOf l ∧
        (∀ n, n < 128 → vget? (g'.vreg n) k = vget? (x.e.g.vreg n) l) ∧
        (∀ n, n < 14 → (g'.m[n]?.getD 0).getLsbD k = (x.e.g.m[n]?.getD 0).getLsbD l)) ∧
      (∀ k, (lanesOf x.e.g.live).length ≤ k →
        (∀ n, n < 128 → vget? (g'.vreg n) k = none) ∧ ∀ n, n < 14 → (g'.m[n]?.getD 0).getLsbD k = false) ∧
      { g' with v := x.e.g.v, vbad := x.e.g.vbad, m := x.e.g.m, tid := x.e.g.tid, live := x.e.g.live, dead := x.e.g.dead } = x.e.g)

/-- Lane forms (08 R188-R192). PULL and BCAST take each lane from the source lane its rule names, PUSH sends each lane to one, the highest
source winning; with MC set a lane without a source is no completion. VOTE, REDUCE and SCAN combine the lanes of the result map; SCAN's total, and the
flags that it meets, go where E takes it. -/
def Obligations.LaneFormsComplete : Prop :=
  (∀ (c : Ctl) (o : OpsR) (s : State) (x : Issuing), s.issuing (.pull c o) true true = some x →
    let ma := x.e.g.omap (rd [.v] c.ty) o.a
    let cand := x.e.g.omap (rd [.val] .ui32) o.b
    let src (l : Nat) : Option Nat := inMap ma (pullFrom x.e.g c.fn.toNat l (x.e.val .ui32 o.b l))
    (c.mc = true → ∀ l, l < 64 → cand.getLsbD l = true → (src l).isSome = true) →
    ∃ g' m, exec (.pull c o) s = .next (x.next s (.done x.t g')) ∧
      (∀ l, l < 64 → m.getLsbD l = (cand.getLsbD l && (src l).isSome)) ∧
      Written x.e.g g' c.ty o.d m fun l => (((src l).map fun k => x.e.val c.ty o.a k).getD 0, 0)) ∧
  (∀ (c : Ctl) (o : OpsR) (s : State) (x : Issuing), s.issuing (.push c o) false false = some x →
    let dst (l : Nat) : Option Nat :=
      inMap x.e.g.live (if c.fn = 0 then some (x.e.val .ui32 o.b l) else x.e.g.posOf (x.e.val .ui32 o.b l))
    ∃ g' m, exec (.push c o) s = .next (x.next s (.done x.t g')) ∧
      (∀ t, t < 64 → m.getLsbD t = (lanesOf x.e.m).any fun l => dst l == some t) ∧
      Written x.e.g g' c.ty o.d m fun t =>
        (((((lanesOf x.e.m).filter fun l => dst l == some t).getLast?).map fun l => x.e.val c.ty o.a l).getD 0, 0)) ∧
  (∀ (c : Ctl) (o : OpsR) (s : State) (x : Issuing), s.issuing (.bcast c o) true false = some x →
    let src := inMap (x.e.g.omap (rd [.v] c.ty) o.a) (if c.fn = 0 then some (x.e.u o.b) else x.e.g.posOf (x.e.u o.b))
    (c.mc = true → src.isSome = true) →
    ∃ g', exec (.bcast c o) s = .next (x.next s (.done x.t g')) ∧
      Written x.e.g g' c.ty o.d (if src.isSome then x.e.g.live else 0) fun _ => ((src.map fun k => x.e.val c.ty o.a k).getD 0, 0)) ∧
  (∀ (c : Ctl) (o : OpsR) (s : State) (x : Issuing), s.issuing (.lanemapPos c o) false false = some x →
    ∃ g' m, exec (.lanemapPos c o) s = .next (x.next s (.done x.t g')) ∧
      (∀ l, l < 64 → m.getLsbD l = (x.e.m.getLsbD l && (x.e.g.posOf (x.e.val .ui32 o.a l)).isSome)) ∧
      Written x.e.g g' .b32 o.d m fun l => ((x.e.g.posOf (x.e.val .ui32 o.a l)).getD 0, 0)) ∧
  (∀ (c : Ctl) (o : OpsR) (s : State) (x : Issuing), s.issuing (.lanemapTid c o) false false = some x →
    let pos (l : Nat) : Option Nat := inMap x.e.g.live (some (x.e.val .ui32 o.a l))
    ∃ g' m, exec (.lanemapTid c o) s = .next (x.next s (.done x.t g')) ∧
      (∀ l, l < 64 → m.getLsbD l = (x.e.m.getLsbD l && (pos l).isSome)) ∧
      Written x.e.g g' .b32 o.d m fun l => (((pos l).map fun p => (x.e.g.tidOf p).toNat).getD 0, 0)) ∧
  (∀ (c : Ctl) (o : OpsR), Makes (.vote c o) false fun e =>
    let v (l : Nat) : Nat := e.val c.ty o.a l
    let m := mapOf ((lanesOf e.m).filter fun l => v l != 0)
    if c.fn = 0 then e.g.writeP o.d ((lanesOf e.m).any fun l => v l != 0)
    else if c.fn = 1 then e.g.writeP o.d ((lanesOf e.m).all fun l => v l != 0)
    else if c.fn = 2 then e.g.writeP o.d ((lanesOf e.m).all fun l => v l == v ((lanesOf e.m).headD 0))
    else (e.g.writeM o.d m).writeS .i64 o.d m.toNat) ∧
  (∀ (c : Ctl) (o : OpsR), Makes (.reduce c o) false fun e =>
    let r := redOver c.fn.toNat c.ty (modeOf o.x.toNat) ((lanesOf e.m).map fun l => e.val c.ty o.a l)
    ((e.g.writeS c.ty o.d r.1).writeP o.e (e.m != 0)).flag r.2) ∧
  (∀ (c : Ctl) (o : OpsR) (s : State) (x : Issuing), s.issuing (.scan c o) false false = some x →
    let acc (p : Nat → Bool) : Nat × Flags := redOver (c.fn.toNat % 8) c.ty (modeOf o.x.toNat)
      (((lanesOf x.e.m).filter p).map fun l => x.e.val c.ty o.a l)
    let all := acc fun _ => true
    ∃ g', exec (.scan c o) s = .next (x.next s (.done x.t (if o.e = .none then g' else (g'.writeS c.ty o.e all.1).flag all.2))) ∧
      Written x.e.g g' c.ty o.d x.e.m fun l => acc fun k => if c.fn.toNat ≥ 8 then k < l else k ≤ l)

/-- PRUNE and ISECT (11 R269, R270): PRUNE keeps the n most salient lanes of each group of m, packs their BF16 values and writes their
positions; ISECT writes the nonempty intersections and the map of the empty ones. -/
def Obligations.SparseFormsComplete : Prop :=
  (∀ (c : Ctl) (o : OpsR) (d : Fin 128) (k : Fin 64) (s : State) (x : Issuing), o.d = .vec d → o.e = .sca k →
    s.issuing (.prune c o) false false = some x → x.e.m ≠ 0 →
    let n := nOf c.fn.toNat
    let m := mOf c.fn.toNat
    let key (l : Nat) : Option Nat := if x.e.m.getLsbD l then
      some (saliency (x.e.val .bf16 o.a l % 65536) (x.e.val .bf16 o.b l % 65536)) else none
    let kept := (List.range (64 / m)).flatMap fun q => keptLanes n m q key
    let at_ (l : Nat) : Nat := l % m
    ∃ g', exec (.prune c o) s = .next (x.next s (.done x.t ((List.range (64 * n / m / 8)).foldl (fun g i => g.setS (k + i)
        (BitVec.ofNat 32 (((kept.zipIdx.map fun p => at_ p.1 * 16 ^ p.2).sum) / 2 ^ (32 * i)))) g'))) ∧
      g' = x.e.g.writeV .b32 d (kept.zipIdx.map fun p => (p.2, if x.e.m.getLsbD p.1 then x.e.val .bf16 o.a p.1 % 65536 else 0))) ∧
  (∀ (c : Ctl) (o : OpsR) (s : State) (x : Issuing), s.issuing (.prune c o) false false = some x → x.e.m = 0 →
    exec (.prune c o) s = .next (x.next s (.done x.t x.e.g))) ∧
  (∀ (c : Ctl) (o : OpsR) (d : Fin 128) (s : State) (x : Issuing), o.d = .vec d → s.issuing (.isect c o) false false = some x →
    let v (l : Nat) : Nat := x.e.val .b32 o.a l &&& x.e.val .b32 o.b l
    ∃ m r, exec (.isect c o) s = .next (x.next s (.done x.t ((x.e.g.setV d r).writeM o.e m))) ∧
      (∀ l, l < 64 → m.getLsbD l = (x.e.m.getLsbD l && v l == 0)) ∧
      (∀ l, l < 64 → vget? r l = if x.e.m.getLsbD l && v l != 0 then some (BitVec.ofNat 32 (v l)) else none))

/-- NOP, YIELD, the branches, CALL, RET, RFT and MCALL (08 R170-R178, 12 R276). A transfer whose target passes its checks leaves the group
at the target, its line among the group's lines; an untaken branch leaves it at the next instruction; BRW has cleared the flag it
tests, BRDEC has written the count, CALL the address of the next instruction; RET and RFT do not check TGT; RFT leaves
handler mode; EXIT takes lanes out of LIVE, and with none left its group
retires (06 R133), the last group of its workgroup once the landing buffer has room for the decrement (05 R113, log entry 62). -/
def Obligations.FlowFormsComplete : Prop :=
  (∀ (c : Ctl) (o : OpsR), Makes (.nop c o) false fun e => e.g) ∧
  (∀ (c : Ctl) (o : OpsR), Makes (.yield c o) false fun e => e.g) ∧
  (∀ (c : Ctl) (o : OpsI) (s u : State) (x : Issuing), s.issuing (.bra c o) false false = some x →
    let t := branchTarget x.e.g.pc (sext 29 (o.imm.toNat / 8)) (o.imm.toNat % 8)
    x.t.checkTarget x.r x.w x.g t true = .ok u → exec (.bra c o) s = .next (x.landed s u x.e.g t)) ∧
  (∀ (c : Ctl) (o : OpsR) (s u : State) (x : Issuing), s.issuing (.brxAbs c o) false false = some x →
    let t := BitVec.ofNat 64 (x.e.pair o.a)
    x.t.checkTarget x.r x.w x.g t true = .ok u → exec (.brxAbs c o) s = .next (x.landed s u x.e.g t)) ∧
  (∀ (c : Ctl) (o : OpsR) (s u : State) (x : Issuing), s.issuing (.brxRel c o) false false = some x →
    let t := branchTarget x.e.g.pc (sext 29 (x.e.u o.a / 8)) (x.e.u o.a % 8)
    x.t.checkTarget x.r x.w x.g t true = .ok u → exec (.brxRel c o) s = .next (x.landed s u x.e.g t)) ∧
  (∀ (c : Ctl) (o : OpsI) (s u : State) (x : Issuing), s.issuing (.call c o) false false = some x →
    let t := branchTarget x.e.g.pc (sext 29 (o.imm.toNat / 8)) (o.imm.toNat % 8)
    x.t.checkTarget x.r x.w x.g t true = .ok u →
    exec (.call c o) s = .next (x.landed s u (x.e.g.writeS .i64 o.d (nextPc x.e.g.pc).toNat) t)) ∧
  (∀ (c : Ctl) (o : OpsR) (s u : State) (x : Issuing), s.issuing (.ret c o) false false = some x →
    let t := BitVec.ofNat 64 (x.e.pair o.a)
    x.t.checkTarget x.r x.w x.g t false = .ok u → exec (.ret c o) s = .next (x.landed s u x.e.g t)) ∧
  (∀ (c : Ctl) (o : OpsI) (s u : State) (x : Issuing), s.issuing (.brm c o) false false = some x →
    let t := branchTarget x.e.g.pc (sext 29 (o.imm.toNat / 8)) (o.imm.toNat % 8)
    let m := x.e.map o.a
    let taken := if c.fn = 0 then m == 0 else if c.fn = 1 then m != 0 else if c.fn = 2 then m == x.e.g.live else m != x.e.g.live
    (taken = false → exec (.brm c o) s = .next (x.next s (.done x.t x.e.g))) ∧
    (taken = true → x.t.checkTarget x.r x.w x.g t true = .ok u → exec (.brm c o) s = .next (x.landed s u x.e.g t))) ∧
  (∀ (c : Ctl) (o : OpsR) (n : Fin 8) (s u : State) (x : Issuing), o.a = .walk n → s.issuing (.brw c o) false false = some x →
    let t := branchTarget x.e.g.pc (sext 7 (o.x.toNat / 8)) (o.x.toNat % 8)
    let w := x.e.g.walker n
    let k := c.fn.toNat % 4
    let g' := x.e.g.setW n { w with eod := w.eod &&& ~~~(1#4 <<< k) }
    let taken := w.eod.getLsbD k != decide (c.fn.toNat ≥ 4)
    (taken = false → exec (.brw c o) s = .next (x.next s (.done x.t g'))) ∧
    (taken = true → x.t.checkTarget x.r x.w x.g t true = .ok u → exec (.brw c o) s = .next (x.landed s u g' t))) ∧
  (∀ (c : Ctl) (o : OpsI) (s u : State) (x : Issuing), s.issuing (.brdec c o) false false = some x →
    let t := branchTarget x.e.g.pc (sext 29 (o.imm.toNat / 8)) (o.imm.toNat % 8)
    let n : Word := BitVec.ofNat 32 (x.e.u o.d) - 1
    let g' := x.e.g.writeS .ui32 o.d n.toNat
    (n = 0 → exec (.brdec c o) s = .next (x.next s (.done x.t g'))) ∧
    (n ≠ 0 → x.t.checkTarget x.r x.w x.g t true = .ok u → exec (.brdec c o) s = .next (x.landed s u g' t))) ∧
  (∀ (c : Ctl) (o : OpsR) (s u : State) (x : Issuing), s.issuing (.rft c o) false false = some x →
    x.t.checkTarget x.r x.w x.g x.e.g.tpc false = .ok u →
    exec (.rft c o) s = .next (x.landed s u { x.e.g with handler := false, pc := x.e.g.tpc, mcall := none, runCnt := 0,
                                                         rstep := bits x.e.g.tcause.toNat 15 8 } x.e.g.tpc)) ∧
  (∀ (c : Ctl) (o : OpsR) (s : State) (x : Issuing), s.issuing (.mcall c o) false false = some x →
    (x.t.macrosOf x.e.r.ctx x.e.r.lnum).getD (o.x.toNat % 256) [] ≠ [] →
    exec (.mcall c o) s = .next (x.next s (.park x.t { x.e.g with mcall := some (o.x.toNat % 256, 0) }))) ∧
  (∀ (c : Ctl) (o : OpsR) (s : State) (x : Issuing), s.issuing (.exit c o) false false = some x →
    let live := x.e.g.live &&& ~~~(x.e.map o.a)
    (live ≠ 0 → exec (.exit c o) s = .next (x.next s (.done x.t { x.e.g with live }))) ∧
    (live = 0 → ((∃ k ∈ x.e.w.groups, k.retired = none ∧ k.id ≠ x.e.r.grp) ∨ x.t.reqRoom (columnOf x.e.w.core) = true) →
      exec (.exit c o) s = .next ((x.t.setGroup x.e.r { x.e.g with live := 0 }).retire x.e.r x.e.w.core)))

/-- TRAP and BKPT take an exception (08 R178, 12 R274, R276, R279, R285): with a trap table, outside a handler, and an entry that is translated, can
be read and is not 0, the group is in handler mode at the entry, whose TGT it checks as it stands there (07 R146); TPC holds the address of the next
instruction, or the MCALL's while a body step remains, TCAUSE the cause with that step, TAUX the immediate, and both watchdog counts are 0. -/
def Obligations.TrapFormsComplete : Prop :=
  (∀ (c : Ctl) (o : OpsI) (s : State) (x : Issuing), s.issuing (.trap c o) false false = some x →
    TakesTrap (.trap c o) s x .softwareTrap o.imm) ∧
  (∀ (c : Ctl) (o : OpsR) (s : State) (x : Issuing), s.issuing (.bkpt c o) false false = some x →
    TakesTrap (.bkpt c o) s x .breakpoint (BitVec.ofNat 32 o.x.toNat))

/-- LD and ST (10 R225, R226, 04 R84). A lane's address is base + offset × 2^SCL + DISP. Where every lane's address is admitted and no other
column's step stands on it: LD's registers are empty until its data are delivered, and what its lanes read is in flight under the token it takes; ST
stores each lane's bytes in ascending lane order and changes no register. 04 R84 makes each lane a step of its own, between which other agents' steps
may fall (R85); that every lane performs at issue is the model's choice where the schedule does not ask for lane steps (DESIGN CHOICE, log entry 59).
Where it does (`split`), the group waits with one step for each lane still to take. -/
def Obligations.LoadStoreComplete : Prop :=
  (∀ (c : Ctl) (o : OpsM) (d : Fin 128) (s : State) (x : Issuing) (as : List (Nat × List Piece)),
    o.d = .vec d → s.issuing (.ld c o) false false = some x →
    x.t.laneAccess x.e.r x.e.w x.e.g (c.fn.toNat % 4) .read ((lanesOf x.e.m).map fun l => (l, x.e.memAddr c o l, memBytes c)) = .ok as →
    x.t.anyHeld x.e.w.core as = false →
    let got := x.t.readAll x.e.w.core (.load c.ch) as x.e.met
    let g' := (List.range (memRegs c)).foldl (fun g k => g.setV (d + k) []) x.e.g
    ((x.t.split = false ∨ as = []) → exec (.ld c o) s = .next (x.next s (.done got.2.2
      (x.e.defer g' true d (memRegs c) (got.1.map fun p => (p.1, p.2.laneVal c.ty)))))) ∧
    (x.t.split = true → as ≠ [] → exec (.ld c o) s = .next (x.next s (.park x.t
      (x.e.byLane (g'.takeTok c) (.load c.ty) (laneSteps as) true d (memRegs c)))))) ∧
  (∀ (c : Ctl) (o : OpsM) (d : Fin 64) (s : State) (x : Issuing) (as : List (Nat × List Piece)),
    o.d = .sca d → s.issuing (.ld c o) false false = some x →
    x.t.uniAccess x.e.r x.e.w x.e.g (c.fn.toNat % 4) .read (x.e.memAddr c o 0) (memBytes c) = .ok as →
    x.t.anyHeld x.e.w.core as = false →
    let got := x.t.readAll x.e.w.core (.load c.ch) as x.e.met
    ((x.t.split = false ∨ as = []) → exec (.ld c o) s = .next (x.next s (.done got.2.2
      (x.e.defer x.e.g false d (memRegs c) (got.1.map fun p => (p.1, p.2.laneVal c.ty)))))) ∧
    (x.t.split = true → as ≠ [] → exec (.ld c o) s = .next (x.next s (.park x.t
      (x.e.byLane (x.e.g.takeTok c) (.load c.ty) (laneSteps as) false d (memRegs c)))))) ∧
  (∀ (c : Ctl) (o : OpsM) (s : State) (x : Issuing) (as : List (Nat × List Piece)),
    s.issuing (.st c o) false false = some x →
    x.t.laneAccess x.e.r x.e.w x.e.g (c.fn.toNat % 4) .write ((lanesOf x.e.m).map fun l => (l, x.e.memAddr c o l, memBytes c)) = .ok as →
    x.t.anyHeld x.e.w.core as = false → x.t.roomFor (columnOf x.e.w.core) as = true →
    ((x.t.split = false ∨ as = []) → exec (.st c o) s = .next (x.next s (.done
      (as.foldl (fun s p => s.storePieces (x.e.writer p.1) p.2 (x.e.stData c o.d p.1)) x.t) x.e.g))) ∧
    (x.t.split = true → as ≠ [] → exec (.st c o) s = .next (x.next s (.park x.t (x.e.byLane x.e.g (.store false)
      (as.map fun p => { lane := p.1, ps := p.2, data := x.e.stData c o.d p.1, regs := [] }) true 0 0)))))

/-- LDM and STM (10 R227, R228): where the identifier names a record without blocks whose layout the base admits, and the fragment lies in
its space, each register's lanes whose four bytes lie in the tile are read, or stored. LDM's registers are empty until the data come; for each of them
the lanes of the fragment that take part in it are in flight with their four bytes of what was read, or with the uncorrectable unit they met. That
every lane performs at issue is the model's choice (log entry 59); with `split` the group waits with its lanes' steps to take. -/
def Obligations.FragmentFormsComplete : Prop :=
  (∀ (c : Ctl) (o : OpsR) (d : Fin 128) (s : State) (x : Issuing) (r : Rec) (as : List (Nat × List Piece)),
    o.d = .vec d → s.issuing (.ldm c o) false false = some x → x.t.ident x.e.w.core x.e.r.ctx (x.e.u o.a) = .ok r →
    isBlock r = false → 8 ≤ recBits r → (c.fn.toNat / 2 = 0 → swzOk r (x.e.u o.b) = true) →
    let n := o.x.toNat % 8 + 1
    let fr := x.e.fragment c o r fun _ => x.e.g.live
    x.e.fragAccess (c.fn.toNat / 2 + 1) (x.e.u o.b) fr = .ok as → x.t.anyHeld x.e.w.core as = false →
    let got := x.t.readAll x.e.w.core (.load c.ch) as x.e.met
    let regs := fr.map fun p => (p.1, p.2.map (·.1))
    let empty := (List.range n).foldl (fun g k => g.setV (d + k) []) x.e.g
    ((x.t.split = false ∨ as = []) → exec (.ldm c o) s = .next (x.next s (.done got.2.2
      ((List.range n).foldl (fun g k => x.e.defer g true (d + k) 1 (fragLanes regs got.1 k)) empty)))) ∧
    (x.t.split = true → as ≠ [] → exec (.ldm c o) s = .next (x.next s (.park x.t
      (x.e.byLane (empty.takeTok c) .frag (laneSteps as) true d n regs))))) ∧
  (∀ (c : Ctl) (o : OpsR) (d : Fin 128) (s : State) (x : Issuing) (r : Rec) (as : List (Nat × List Piece)),
    o.d = .vec d → s.issuing (.stm c o) false false = some x → x.t.ident x.e.w.core x.e.r.ctx (x.e.u o.a) = .ok r →
    isBlock r = false → 8 ≤ recBits r → (c.fn.toNat / 2 = 0 → swzOk r (x.e.u o.b) = true) →
    let fr := x.e.fragment c o r fun k => x.e.g.vm (d + k)
    let data (p : Nat × List (Nat × List Nat)) : List Byte := p.2.flatMap fun q => leBytes 4 (vget (x.e.g.vreg (d + q.1)) p.1).toNat
    x.e.fragAccess (c.fn.toNat / 2 + 1) (x.e.u o.b) fr = .ok as → x.t.anyHeld x.e.w.core as = false →
    ((x.t.split = false ∨ as = []) → exec (.stm c o) s = .next (x.next s (.done
      ((as.zip fr).foldl (fun s p => s.storePieces (x.e.writer p.1.1) p.1.2 (data p.2)) x.t) x.e.g))) ∧
    (x.t.split = true → as ≠ [] → exec (.stm c o) s = .next (x.next s (.park x.t (x.e.byLane x.e.g (.store false)
      ((as.zip fr).map fun p => { lane := p.1.1, ps := p.1.2, data := data p.2, regs := [] }) true 0 0)))))

/-- Walkers and tensor identifiers (10 R229, R236, 03 R77): WBIND binds a walker from its block or from the record of an identifier, with indices and
flags 0; WSTAT reads an index or the flags; TBIND binds an identifier to a sealed, well-formed record; TINFO reads a field. The element type of a
record's walker is log entry 13's (DEDUCED), and that WBIND's cache hint governs the walker's reads is log entry 63's (DEDUCED); that TBIND takes its
two steps at issue is the model's choice (log entry 59): with `split` the group waits with the bytes of the record, its second step to take. -/
def Obligations.WalkerAndRecordFormsComplete : Prop :=
  (∀ (c : Ctl) (o : OpsR) (s : State) (x : Issuing), s.issuing (.wbind c o) false false = some x → c.fn.toNat ≥ 8 →
    let w (j : Nat) : Word := BitVec.ofNat 32 (x.e.blk o.a j)
    exec (.wbind c o) s = .next (x.next s (.done x.t (x.e.g.setW (c.fn.toNat % 8)
      { base := BitVec.ofNat 64 (x.e.pair o.b), ty := c.ty, n := #v[w 0, w 1, w 2, w 3], i := #v[0, 0, 0, 0], eod := 0
        stride := #v[(w 4).signExtend 40, (w 5).signExtend 40, (w 6).signExtend 40]
        done := w 0 == 0 || w 1 == 0 || w 2 == 0 || w 3 == 0, ch := c.ch })))) ∧
  (∀ (c : Ctl) (o : OpsR) (s : State) (x : Issuing) (r : Rec), s.issuing (.wbind c o) false false = some x → c.fn.toNat < 8 →
    x.t.ident x.e.w.core x.e.r.ctx (x.e.u o.a) = .ok r → isBlock r = false → 8 ≤ recBits r →
    let w (j : Nat) : Word := BitVec.ofNat 32 (recDim r j)
    let t (j : Nat) : BitVec 40 := BitVec.ofNat 40 (recStride r j)
    exec (.wbind c o) s = .next (x.next s (.done x.t (x.e.g.setW (c.fn.toNat % 8)
      { base := BitVec.ofNat 64 (x.e.pair o.b), ty := walkTy (recFmt r), n := #v[w 0, w 1, w 2, w 3], i := #v[0, 0, 0, 0], eod := 0
        stride := #v[t 1, t 2, t 3], done := w 0 == 0 || w 1 == 0 || w 2 == 0 || w 3 == 0, ch := c.ch })))) ∧
  (∀ (c : Ctl) (o : OpsR) (n : Fin 8), o.a = .walk n → Makes (.wstat c o) false fun e =>
    e.g.writeS .ui32 o.d (if c.fn.toNat < 4 then ((e.g.walker n).i[c.fn.toNat]?.getD 0).toNat else (e.g.walker n).eod.toNat)) ∧
  (∀ (c : Ctl) (o : OpsR) (s : State) (x : Issuing) (as : List (Nat × List Piece)), s.issuing (.tbind c o) false false = some x →
    x.e.u o.a ≤ 255 → x.e.pair o.b % 64 = 0 → x.t.uniAccess x.e.r x.e.w x.e.g 0 .read (x.e.pair o.b) 64 = .ok as →
    x.t.anyHeld x.e.w.core as = false → x.t.ident x.e.w.core x.e.r.ctx (x.e.u o.a) ≠ .held →
    ∀ got, x.t.uniRead x.e .read (as.flatMap (·.2)) = .ok got →
    let r : Rec := BitVec.ofNat 512 (leNat got.1)
    (got.2.split = false → recSealed r = true → recWellFormed r = true →
      exec (.tbind c o) s = .next (x.next s (.done (got.2.setIdent x.e.w.core x.e.r.ctx (x.e.u o.a) (some r)) x.e.g))) ∧
    (got.2.split = true → exec (.tbind c o) s = .next (x.next s (.park got.2 { x.e.g with wait := .bind (x.e.u o.a) got.1 })))) ∧
  (∀ (c : Ctl) (o : OpsR) (s : State) (x : Issuing) (r : Rec), s.issuing (.tinfo c o) false false = some x →
    x.t.ident x.e.w.core x.e.r.ctx (x.e.u o.a) = .ok r →
    exec (.tinfo c o) s = .next (x.next s (.done x.t
      (x.e.g.writeS (if c.fn.toNat ∈ [8, 9, 10, 13] then .i64 else .ui32) o.d (tinfoField c.fn.toNat r))))) ∧
  (∀ (c : Ctl) (o : OpsR) (s : State) (x : Issuing), s.issuing (.tinfo c o) false false = some x → c.fn.toNat = 12 →
    x.t.ident x.e.w.core x.e.r.ctx (x.e.u o.a) = .unbound →
    exec (.tinfo c o) s = .next (x.next s (.done x.t (x.e.g.writeS .ui32 o.d 0))))

/-- PREF and PIN (10 R235, 02 R36, R42-R44): where every lane's page is translated or faults, PREF.cl fills the lines that lie in device memory into
the cluster's cache as a load of its hint does, but for sectors that their home cannot supply, a line that is not held whole meeting the injected error
of its sector (20 R350, log entry 20, DEDUCED); PIN.on requests the
lanes' lines one after another, and sets PINREF where one is refused; PIN.off removes the context's pins of the lines and leaves everything else of
the cluster, their copies and CMIN too. No register but GSTAT changes. The way that a new pin takes is log entry 56's (DESIGN CHOICE). -/
def Obligations.CacheLineFormsComplete : Prop :=
  (∀ (c : Ctl) (o : OpsR) (s : State) (x : Issuing) (ts : List (Option Target)), s.issuing (.pref c o) false false = some x →
    x.e.linesOf o x.t = .ok ts →
    let cl := clusterOf x.e.w.core
    let fill (t : State) (a : Nat × Nat) : State :=
      let alloc := c.ch != .noAlloc && a.2 == 0
      let u := if alloc && !(t.cluster cl).serves ⟨.dram, a.1⟩ 256 a.1 && t.injHits [(⟨.dram, a.1⟩, 256)] then t.injTake else t
      u.setCluster cl ((u.cluster cl).touch a.1 (t.goodSectors a.1) c.ch alloc)
    exec (.pref c o) s = .next (x.next s (.done (if c.fn = 0 then (ts.filterMap lineOfTarget).foldl fill x.t else x.t)
      { x.e.g with xf := [] }))) ∧
  (∀ (c : Ctl) (o : OpsR) (s : State) (x : Issuing) (ts : List (Option Target)), s.issuing (.pinOn c o) false false = some x →
    x.e.linesOf o x.t = .ok ts →
    let pin (t : State) (l : Option Target) := t.pinOne (clusterOf x.e.w.core) x.e.r.ctx (x.t.ctx x.e.r.ctx).pinq.toNat c.ch l
    let k := ts.foldl (fun (a : State × Bool) l => ((pin a.1 l).1, a.2 || (pin a.1 l).2)) (x.t, false)
    exec (.pinOn c o) s = .next (x.next s (.done k.1 { x.e.g with xf := [], gstat := x.e.g.gstat ||| if k.2 then fPINREF else 0 }))) ∧
  (∀ (c : Ctl) (o : OpsR) (s : State) (x : Issuing) (ts : List (Option Target)), s.issuing (.pinOff c o) false false = some x →
    x.e.linesOf o x.t = .ok ts →
    ∃ k, exec (.pinOff c o) s = .next (x.next s (.done (x.t.setCluster (clusterOf x.e.w.core) k) { x.e.g with xf := [] })) ∧
      (∀ p, p ∈ k.pins ↔ p ∈ (x.t.cluster (clusterOf x.e.w.core)).pins ∧
        ¬(p.ctx = x.e.r.ctx ∧ ∃ l mt, some (.mem l mt) ∈ ts ∧ l.store = .dram ∧ l.addr / 256 * 256 = p.line)) ∧
      { k with pins := [] } = { x.t.cluster (clusterOf x.e.w.core) with pins := [] })

/-- ATOM, ATOMC and RED (10 R232-R234, 04 R91, 05 R108, R113, R114). Where every lane performs in the column, each lane reads its location, stores
what its operation makes of the value, and its old value is in flight; where a lane performs elsewhere the group waits with its requests while they
perform one by one. RED's lanes perform in the column, or leave through the landing buffer or towards a peer, and change no register. That the lanes
perform in ascending order where that is not given is log entry 34's, and that they do so at issue is the model's choice (log entry 59); the fill of
the cluster's lines is log entry 58's (DEDUCED). -/
def Obligations.AtomicFormsComplete : Prop :=
  (∀ (c : Ctl) (o : OpsR), AtomCompletes (.atom c o) c.fn.toNat c o) ∧
  (∀ (c : Ctl) (o : OpsR), AtomCompletes (.atomc c o) 7 c o) ∧
  (∀ (c : Ctl) (o : OpsR) (s : State) (x : Issuing) (as : List (Nat × List Piece)), s.issuing (.red c o) false false = some x →
    x.e.atomAccess x.t c o (lanesOf x.e.m) false = .ok as →
    let arg (l : Nat) : DWord := BitVec.ofNat 64 (x.e.val c.ty o.c l)
    let here := as.filter fun a => !(a.2.any fun p => isFar (columnOf x.e.w.core) (nearScope c.sc) p.1)
    x.t.anyHeld x.e.w.core here = false → x.t.roomFor (columnOf x.e.w.core) as = true →
    x.t.anyHalfway x.e.r x.e.w.core c.sc c.ty here = false →
    let got := x.t.readAll x.e.w.core (.unit c.ch) here x.e.met
    x.t.recRoom (columnOf x.e.w.core) (got.1.filter fun g => g.2.bad.isSome).length = true →
    ((x.t.split = false ∨ as = []) → exec (.red c o) s = .next (x.next s (.done (as.foldl (fun s a => match a.2 with
      | (t, _) :: _ => s.redLane (x.e.writer a.1) c.fn.toNat c.ty c.sc (arg a.1) (badAt got.1 a.1) got.2.1 t
      | [] => s) got.2.2) x.e.g))) ∧
    (x.t.split = true → as ≠ [] → exec (.red c o) s = .next (x.next s (.park x.t { x.e.g with
      wait := .atomic { op := c.fn.toNat, ty := c.ty, sc := c.sc, near := nearScope c.sc, red := true, lanes := atomLanes as arg fun _ => 0
                        got := [], vec := true, dst := none, token := none, met := x.e.met, ch := c.ch, at_ := x.t.now } }))))

/-- MRD, MWR, MSCALE and MQSTAT (11 R267, R268): word l of each line goes with lane l. R267 makes each word of a lane a step of its own; that they are
all taken at issue is the model's choice (log entry 59), and with `split` the group waits with one step for each lane and line still to take. -/
def Obligations.AccumulatorFormsComplete : Prop :=
  (∀ (c : Ctl) (o : OpsR) (d : Fin 128) (s : State) (x : Issuing), o.d = .vec d → s.issuing (.mrd c o) false false = some x →
    let w := 2 ^ (c.fn.toNat % 4)
    let as := accLines x.e (x.e.u o.a) w x.e.g.live
    x.e.u o.a % 256 = 0 → x.e.u o.a + 256 * w ≤ 0x80000 → x.t.anyHeld x.e.w.core as = false →
    let got := x.t.readAll x.e.w.core .none as x.e.met
    let empty := (List.range w).foldl (fun g k => g.setV (d + k) []) x.e.g
    ((x.t.split = false ∨ as = []) → exec (.mrd c o) s = .next (x.next s (.done got.2.2
      (x.e.defer empty true d w (got.1.map fun p => (p.1, p.2.laneVal .b32)))))) ∧
    (x.t.split = true → as ≠ [] → exec (.mrd c o) s = .next (x.next s (.park x.t
      (x.e.byLane (empty.takeTok c) .acc (lineSteps as (fun l k => l + 64 * k) fun _ _ => []) true d w))))) ∧
  (∀ (c : Ctl) (o : OpsR) (d : Fin 128) (s : State) (x : Issuing), o.d = .vec d → s.issuing (.mwr c o) false false = some x →
    let w := 2 ^ (c.fn.toNat % 4)
    let as := accLines x.e (x.e.u o.a) w x.e.m
    x.e.u o.a % 256 = 0 → x.e.u o.a + 256 * w ≤ 0x80000 → x.t.anyHeld x.e.w.core as = false →
    let word (l k : Nat) : List Byte := leBytes 4 (vget (x.e.g.vreg (d + k)) l).toNat
    ((x.t.split = false ∨ as = []) → exec (.mwr c o) s = .next (x.next s (.done
      (as.foldl (fun s p => s.storePieces (x.e.writer p.1) p.2 ((List.range w).flatMap fun k => word p.1 k)) x.t) x.e.g))) ∧
    (x.t.split = true → as ≠ [] → exec (.mwr c o) s = .next (x.next s (.park x.t
      (x.e.byLane x.e.g (.store false) (lineSteps as (fun l _ => l) word) true 0 0))))) ∧
  (∀ (c : Ctl) (o : OpsR) (s : State) (x : Issuing), s.issuing (.mscale c o) false false = some x →
    let w := 2 ^ (c.fn.toNat % 4)
    let as := accLines x.e (x.e.u o.a) w x.e.m
    x.e.u o.a % 256 = 0 → x.e.u o.a + 256 * w ≤ 0x80000 → x.t.anyHeld x.e.w.core as = false →
    (x.t.split = true → as ≠ [] → exec (.mscale c o) s = .next (x.next s (.park x.t (x.e.byLane x.e.g
      (.scale (decide (c.fn.toNat ≥ 4)) o.x.toNat) (lineSteps as (fun l _ => l) fun l _ => leBytes 4 (x.e.val .f32 o.b l)) true 0 0)))) ∧
    ((x.t.split = false ∨ as = []) →
    let got := x.t.readAll x.e.w.core .none as x.e.met
    (got.1.all fun g => g.2.bad.isNone) = true →
    let out (p : Nat × List Piece) : List (Nat × Flags) := p.2.map fun q => mscaleWord c o (x.e.val .f32 o.b p.1) (leNat (match q.1 with
      | .mem l _ => got.2.2.colRead (columnOf x.e.w.core) l 4
      | .peer .. => []))
    let u := as.foldl (fun s p => s.storePieces (x.e.writer p.1) p.2 ((out p).flatMap fun y => leBytes 4 y.1)) got.2.2
    ∀ w k, u.group? x.e.r = some (w, k) →
      exec (.mscale c o) s = .next (x.next s (.done u { x.e.g.flag
        (as.foldl (fun f p => (out p).foldl (fun f y => f ||| y.2) f) 0) with live := k.live, dead := k.dead })))) ∧
  (∀ (c : Ctl) (o : OpsR), Makes (.mqstatFlags c o) false fun e => e.g.writeS .ui32 o.d e.g.mstat.toNat) ∧
  (∀ (c : Ctl) (o : OpsR), Makes (.mqstatClr c o) false fun e => { e.g.writeS .ui32 o.d e.g.mstat.toNat with mstat := 0 }) ∧
  (∀ (c : Ctl) (o : OpsR) (s : State) (x : Issuing), s.issuing (.mqstatDepth c o) false false = some x →
    exec (.mqstatDepth c o) s = .next (x.next s (.done x.t (x.e.g.writeS .ui32 o.d (x.t.core x.e.w.core).mx.length))))

/-- Barrier, ring, semaphore and fence forms (10 R243-R246, 05 R101-R107, R118). Where the object is aligned and reached, lies in the storage of its
scope, carries SC, a peer that holds it has answered, and its column's writes to it have drained: BARINIT and RINIT write the objects whole; ARRIVE
and ARRIVE.bytes perform one arrive step and return PHASE as read; WAITPH and RAWAIT go on where PHASE differs and wait where it does not, and WAITPH
waits also while a peer has not answered its first load step, which a failed peer never does (21 R363, R372; DEDUCED, log entry 76); BARQ reads a
field; RREL advances RPTR; SEMINC and SEMDEC change COUNT by n and return it; SFENCE goes on once the group's peer writes are acknowledged and its
last step confirmed. -/
def Obligations.SyncFormsComplete : Prop :=
  (∀ (c : Ctl) (o : OpsR) (s : State) (x : Issuing) (ps : List Piece), s.issuing (.barinit c o) false false = some x →
    x.e.objAt x.t o.x (x.e.objAddr o.a o.x) 16 .write = .ok ps → (ps.all fun p => storageOk x.e.w.core (scNat c) p.1) = true →
    x.e.u o.b ≤ 65535 → x.t.roomFor (columnOf x.e.w.core) [(0, ps)] = true →
    exec (.barinit c o) s = .next (x.next s (.done
      (x.t.storePieces x.e.uniWriter ps (leBytes 16 (barNew (scNat c) false (x.e.u o.b)))) x.e.g))) ∧
  (∀ (c : Ctl) (o : OpsR) (s : State) (x : Issuing) (ps : List Piece) (b b' : Nat) (t : State), x.t.objDrained x.e.w.core ps = true →
    (s.issuing (.arrive c o) false false = some x → x.e.barAt x.t c o.x (x.e.objAddr o.a o.x) .write (.arrive 0) = .ok (b, ps, t) →
      barArrive b 0 = some b' → exec (.arrive c o) s = .next (x.next s (.done (t.objPut x.e.uniWriter ps (leBytes 16 b')) (x.e.g.writeS .ui32 o.d (barPhase b))))) ∧
    (s.issuing (.arriveBytes c o) false false = some x →
      x.e.barAt x.t c o.x (x.e.objAddr o.a o.x) .write (.arrive (x.e.u o.b)) = .ok (b, ps, t) → x.e.u o.b < 2 ^ 31 → barArrive b (x.e.u o.b) = some b' →
      exec (.arriveBytes c o) s = .next (x.next s (.done (t.objPut x.e.uniWriter ps (leBytes 16 b'))
        (x.e.g.writeS .ui32 o.d (barPhase b)))))) ∧
  (∀ (c : Ctl) (o : OpsR) (s : State) (x : Issuing) (ps : List Piece) (b : Nat) (t : State),
    let addr := x.e.objAddr o.a o.x
    ∀ i swap, (i, swap) ∈ [(Instr.waitph c o, false), (Instr.waitphSwap c o, true)] → s.issuing i false false = some x →
      (x.e.barAt x.t c o.x addr .read .read (some swap) = .ok (b, ps, t) →
        (barPhase b ≠ x.e.u o.b % 2 ^ 32 → exec i s = .next (x.next s (.done t { x.e.g with waitCnt := 0, hold := 0 }))) ∧
        (barPhase b = x.e.u o.b % 2 ^ 32 → exec i s = .next (x.next s (.park t { x.e.g with
          wait := .phase (o.x.toNat % 2 == 1) addr (BitVec.ofNat 32 (x.e.u o.b)) swap false none 0, waitFep := peerOf ps })))) ∧
      (x.e.objAt x.t o.x addr 16 .read = .ok ps → (ps.all fun p => storageOk x.e.w.core (scNat c) p.1) = true →
        x.t.objAsks x.e .read ps (some swap) ≠ [] → s.lbFits (columnOf x.w.core) [] = true →
        exec i s = .next (s.modGroup x.r fun g => { g with wait := .object (x.t.objAsks x.e .read ps (some swap)).eraseDups (some swap) }))) ∧
  (∀ (c : Ctl) (o : OpsR) (s : State) (x : Issuing) (ps : List Piece), s.issuing (.barq c o) false false = some x →
    x.e.objAt x.t o.x (x.e.objAddr o.a o.x) 16 .read = .ok ps → x.t.uniAsk x.e .read ps = [] →
    let got := x.t.objRead x.e .read ps
    exec (.barq c o) s = .next (x.next s (.done got.2 (x.e.g.writeS .ui32 o.d
      (if c.fn = 0 then barPhase got.1 else if c.fn = 1 then barLeft got.1 else if c.fn = 2 then bits got.1 95 64 else barExp got.1))))) ∧
  (∀ (c : Ctl) (o : OpsR) (s : State) (x : Issuing) (ps : List Piece) (as : List (Nat × List Piece)),
    s.issuing (.rinit c o) false false = some x →
    let addr := x.e.objAddr o.a o.x
    let slots := x.e.objAddr o.b o.x
    let bars := x.e.objAddr o.c o.x
    let n := x.e.u o.e % 2 ^ 11
    let z := x.e.u o.e / 2 ^ 16 % 2 ^ 9
    addr % 32 = 0 → bars % 16 = 0 → slots % 256 = 0 → 1 ≤ n → n ≤ 1024 → 1 ≤ z → z ≤ 256 →
    bits (x.e.u o.e) 15 11 = 0 → bits (x.e.u o.e) 31 25 = 0 → x.e.objAt x.t o.x addr 32 .write = .ok ps →
    x.t.uniAccess x.e.r x.e.w x.e.g (if o.x.toNat % 2 = 1 then 1 else 0) .write bars (16 * n) = .ok as →
    ((ps ++ as.flatMap (·.2)).all fun p => storageOk x.e.w.core (scNat c) p.1) = true → x.t.anyHeld x.e.w.core as = false →
    x.t.roomFor (columnOf x.e.w.core) ((0, ps) :: as) = true →
    let ring := leBytes 32 (slots % 2 ^ 48 + bars % 2 ^ 48 * 2 ^ 64 + z * 256 * 2 ^ 128 + n * 2 ^ 160)
    let bar := leBytes 16 (barNew (scNat c) true 0)
    (x.t.split = false → exec (.rinit c o) s = .next (x.next s (.done ((x.t.storePieces x.e.uniWriter ps ring).storePieces
      x.e.uniWriter (as.flatMap (·.2)) ((List.range n).flatMap fun _ => bar)) x.e.g))) ∧
    (x.t.split = true → exec (.rinit c o) s = .next (x.next s (.park x.t (x.e.byLane x.e.g (.store true)
      ({ lane := 0, ps, data := ring, regs := [] } ::
        (objects16 (as.flatMap (·.2))).map fun q => { lane := 0, ps := q, data := bar, regs := [] }) false 0 0))))) ∧
  (∀ (c : Ctl) (o : OpsR) (d : Option Nat) (s : State) (x : Issuing) (ps : List Piece) (r b : Nat) (qs : List Piece) (t : State),
    s.issuing (.rawait c o) false false = some x → x.e.ringAt x.t c o.x (x.e.objAddr o.a o.x) .read (some false) = .ok ((r, ps), (b, qs), t) →
    (d = match o.d with | .sca n => some n.val | _ => none) →
    (barPhase b ≠ ringR r / ringN r → exec (.rawait c o) s = .next (x.next s (.done t
      { x.e.g.writeS .ui32 o.d (ringR r % ringN r) with waitCnt := 0, hold := 0 }))) ∧
    (barPhase b = ringR r / ringN r → exec (.rawait c o) s = .next (x.next s (.park t { x.e.g with
      wait := .phase (o.x.toNat % 2 == 1) (ringBars r + 16 * (ringR r % ringN r)) (BitVec.ofNat 32 (ringR r / ringN r)) false true d
        (BitVec.ofNat 32 (ringR r % ringN r)), waitFep := peerOf qs })))) ∧
  (∀ (c : Ctl) (o : OpsR) (s : State) (x : Issuing) (ps : List Piece) (r0 r : Nat) (q : Nat × List Piece) (t u : State),
    s.issuing (.rrel c o) false false = some x → x.e.ringAt x.t c o.x (x.e.objAddr o.a o.x) .write = .ok ((r0, ps), q, t) →
    (atPeer ps = false → r = r0 ∧ u = t) → (atPeer ps = true → t.uniAsk x.e .release ps = [] ∧ (r, u) = t.objRead x.e .release ps) →
    x.t.objDrained x.e.w.core ps = true → ringR r ≠ ringW r →
    exec (.rrel c o) s = .next (x.next s (.done (u.objPut x.e.uniWriter ps
      (leBytes 32 (r % 2 ^ 224 + (ringR r + 1) % ringQ r * 2 ^ 224))) x.e.g))) ∧
  (∀ (c : Ctl) (o : OpsR) (s : State) (x : Issuing) (ps : List Piece),
    x.e.objAt x.t o.x (x.e.objAddr o.a o.x) 8 .write = .ok ps → (ps.all fun p => storageOk x.e.w.core (scNat c) p.1) = true →
    let n := x.e.u o.b
    x.t.objDrained x.e.w.core ps = true → n < 2 ^ 31 →
    (let got := x.t.objRead x.e (.sem true n) ps
     s.issuing (.seminc c o) false false = some x → x.t.uniAsk x.e (.sem true n) ps = [] → semScope got.1 = scNat c → semCount got.1 + n < 2 ^ 31 →
      exec (.seminc c o) s = .next (x.next s (.done (got.2.objPut x.e.uniWriter ps
        (leBytes 8 (got.1 / 2 ^ 32 * 2 ^ 32 + (semCount got.1 + n)))) (x.e.g.writeS .ui32 o.d (semCount got.1 + n))))) ∧
    (let got := x.t.objRead x.e (.sem false n) ps
     s.issuing (.semdec c o) false false = some x → x.t.uniAsk x.e (.sem false n) ps = [] → semScope got.1 = scNat c → n ≤ semCount got.1 →
      exec (.semdec c o) s = .next (x.next s (.done (got.2.objPut x.e.uniWriter ps
        (leBytes 8 (got.1 / 2 ^ 32 * 2 ^ 32 + (semCount got.1 - n)))) (x.e.g.writeS .ui32 o.d (semCount got.1 - n)))))) ∧
  (∀ (c : Ctl) (o : OpsR) (s : State) (x : Issuing), s.issuing (.sfence c o) false false = some x → x.t.peerOut x.e.r = false →
    (x.t.col (columnOf x.e.w.core)).confirmed x.e.g.lastEpoch = true →
    exec (.sfence c o) s = .next (x.next s (.done x.t x.e.g)))

/-- FIFO, count and bank-mode forms (10 R247-R250, 02 R38-R41, R50). A push into a FIFO with room appends the register's lanes and advances
PUSHED, a push into a full one changes no FIFO; a pop takes the oldest entry and advances POPPED; E receives whether it was done. -/
def Obligations.FifoFormsComplete : Prop :=
  (∀ (c : Ctl) (o : OpsR) (s : State) (x : Issuing), s.issuing (.vpush c o) false false = some x →
    let f := x.t.vfOut x.e.w.core
    ((f.pushed - f.popped).toNat < 16 → exec (.vpush c o) s = .next (x.next s (.done
      ((x.t.setVfOut x.e.w.core { f with entries := f.entries ++ [(x.e.pushed o.a, 0)], pushed := f.pushed + 1 }).modWg x.e.r
        fun w => { w with vfMark := some (f.pushed + 1) }) (x.e.g.writeP o.e true)))) ∧
    (16 ≤ (f.pushed - f.popped).toNat → exec (.vpush c o) s = .next (x.next s (.done x.t (x.e.g.writeP o.e false))))) ∧
  (∀ (c : Ctl) (o : OpsR) (d : Fin 128) (s : State) (x : Issuing), o.d = .vec d → s.issuing (.vpop c o) false false = some x →
    let f := x.t.vfIn x.e.w.core
    (f.entries = [] → exec (.vpop c o) s = .next (x.next s (.done x.t (x.e.g.writeP o.e false)))) ∧
    (∀ r rest, f.entries = (r, 0) :: rest → exec (.vpop c o) s = .next (x.next s (.done
      (x.t.setVfIn x.e.w.core { f with entries := rest, popped := f.popped + 1 })
      ((x.e.g.setV d (r.filter fun p => x.e.g.live.getLsbD p.1)).writeP o.e true))))) ∧
  (∀ (c : Ctl) (o : OpsR) (s : State) (x : Issuing) (f : BankFifo), s.issuing (.fpush c o) false false = some x →
    x.e.bankFifo x.t c.fn.toNat = .ok f →
    ((f.q.pushed - f.q.popped).toNat < 480 → exec (.fpush c o) s = .next (x.next s (.done (x.t.setBankFifo x.e.w c.fn.toNat
      { f.q with entries := f.q.entries ++ [(x.e.pushed o.a, 0)], pushed := f.q.pushed + 1 }) (x.e.g.writeP o.e true)))) ∧
    (480 ≤ (f.q.pushed - f.q.popped).toNat → exec (.fpush c o) s = .next (x.next s (.done x.t (x.e.g.writeP o.e false))))) ∧
  (∀ (c : Ctl) (o : OpsR) (d : Fin 128) (s : State) (x : Issuing) (f : BankFifo), o.d = .vec d →
    s.issuing (.fpop c o) false false = some x → x.e.bankFifo x.t c.fn.toNat = .ok f →
    (f.q.entries = [] → exec (.fpop c o) s = .next (x.next s (.done x.t (x.e.g.writeP o.e false)))) ∧
    (∀ r rest, f.q.entries = (r, 0) :: rest → exec (.fpop c o) s = .next (x.next s (.done
      (x.t.setBankFifo x.e.w c.fn.toNat { f.q with entries := rest, popped := f.q.popped + 1 })
      ((x.e.g.setV d (r.filter fun p => x.e.g.live.getLsbD p.1)).writeP o.e true))))) ∧
  (∀ (c : Ctl) (o : OpsR) (s : State) (x : Issuing), s.issuing (.vfree c o) false false = some x →
    let fn := c.fn.toNat
    let out := x.t.vfOut x.e.w.core
    let inb := x.t.vfIn x.e.w.core
    (fn < 4 → exec (.vfree c o) s = .next (x.next s (.done x.t (x.e.g.writeS .ui32 o.d
      (if fn = 0 then 16 - (out.pushed - out.popped).toNat else if fn = 1 then (inb.pushed - inb.popped).toNat
       else if fn = 2 then out.popped.toNat else inb.pushed.toNat))))) ∧
    (∀ f, 4 ≤ fn → x.e.bankFifo x.t (fn % 4) = .ok f → exec (.vfree c o) s = .next (x.next s (.done x.t
      (x.e.g.writeS .ui32 o.d (if fn < 8 then f.q.pushed.toNat else f.q.popped.toNat)))))) ∧
  (∀ (c : Ctl) (o : OpsR) (s : State) (x : Issuing) (f : BankFifo) (i : Instr) (k : FifoCount) (n : Word),
    ((i = .waitphVin c o ∧ k = .vin ∧ n = (x.t.vfIn x.e.w.core).pushed) ∨
     (i = .waitphVout c o ∧ k = .vout ∧ n = (x.t.vfOut x.e.w.core).popped) ∨
     (i = .waitphBankFifo c o ∧ x.e.bankFifo x.t (c.fn.toNat % 4) = .ok f ∧
       ((c.fn.toNat < 8 ∧ k = .fpushed (c.fn.toNat % 4) ∧ n = f.q.pushed) ∨
        (8 ≤ c.fn.toNat ∧ k = .fpopped (c.fn.toNat % 4) ∧ n = f.q.popped)))) →
    s.issuing i false false = some x →
    (n ≠ BitVec.ofNat 32 (x.e.u o.b) → exec i s = .next (x.next s (.done x.t x.e.g))) ∧
    (n = BitVec.ofNat 32 (x.e.u o.b) → exec i s = .next (x.next s (.park x.t { x.e.g with wait := .fifo k n })))) ∧
  (∀ (c : Ctl) (o : OpsR) (s : State) (x : Issuing), s.issuing (.bankmodeCmin c o) false false = some x →
    exec (.bankmodeCmin c o) s = .next (x.next s (.done (x.t.setCluster (clusterOf x.e.w.core)
      { x.t.cluster (clusterOf x.e.w.core) with cmin := min (x.e.u o.a) 48 }) x.e.g))) ∧
  (∀ (c : Ctl) (o : OpsR) (s : State) (x : Issuing), x.e.w.core < 256 → s.issuing (.bankmodeRelease c o) false false = some x →
    ∃ u, exec (.bankmodeRelease c o) s = .next (x.next s (.done u x.e.g)) ∧
      let cl := clusterOf x.e.w.core
      ∀ b, b < 64 → (u.cluster cl).modes[b]?.getD .cache = if ((x.t.cluster cl).modes[b]?.getD .cache).isScratch &&
        !x.t.bankUsed cl b then .cache else (x.t.cluster cl).modes[b]?.getD .cache)

/-- The Yarder's commands (10 R237-R241). Under the posting checks of its row (the identifier bound, the origin within the dimensions, the
local range within its space, the layout admitted, the descriptor's limits, the barrier or ring aligned and within S), a command is
posted with the values its operands have now. -/
def Obligations.YarderCommandsComplete : Prop :=
  (∀ (c : Ctl) (o : OpsR) (s : State) (x : Issuing) (r : Rec) (load : Bool) (i : Instr),
    ((i = .tld c o ∧ load = true) ∨ (i = .tst c o ∧ load = false)) → s.issuing i false false = some x →
    x.t.ident x.e.w.core x.e.r.ctx (x.e.u o.a) = .ok r → originOk r (x.e.origin o.c) = true →
    x.e.blk o.c 4 + localExtent r (c.fn.toNat == 1) ≤ spaceSize x.e.w c.fn.toNat →
    (c.fn.toNat = 1 → swzOk r (x.e.blk o.c 4) = true) → x.e.barCheck (x.e.barOf o.x o.e) 16 = none →
    Posts i s x (o.x.toNat % 4) (.tile load c.fn.toNat r (x.e.pair o.b) (x.e.origin o.c) (x.e.blk o.c 4)) (x.e.barOf o.x o.e)) ∧
  (∀ (c : Ctl) (o : OpsR) (s : State) (x : Issuing), s.issuing (.ycopy c o) false false = some x →
    let dst := x.e.engAddr (c.fn.toNat % 4) o.a
    let src := x.e.engAddr (c.fn.toNat / 4) o.b
    (c.fn.toNat % 4 ≠ 0 → dst + x.e.u o.c ≤ spaceSize x.e.w (c.fn.toNat % 4)) →
    (c.fn.toNat / 4 ≠ 0 → src + x.e.u o.c ≤ spaceSize x.e.w (c.fn.toNat / 4)) → x.e.barCheck (x.e.barOf o.x o.e) 16 = none →
    Posts (.ycopy c o) s x (o.x.toNat % 4) (.ycopy (c.fn.toNat % 4) (c.fn.toNat / 4) dst src (x.e.u o.c)) (x.e.barOf o.x o.e)) ∧
  (∀ (c : Ctl) (o : OpsR) (s : State) (x : Issuing) (scatter : Bool) (i : Instr),
    ((i = .ygath c o ∧ scatter = false) ∨ (i = .yscat c o ∧ scatter = true)) → s.issuing i false false = some x →
    let w (k : Nat) : Nat := x.e.blk o.a k
    let off := x.e.engAddr c.fn.toNat o.b
    w 2 % 4 = 0 → 4 ≤ w 2 → w 2 ≤ 65536 → (w 4 + 2 ^ 32 * w 5) % 4 = 0 →
    (c.fn.toNat ≠ 0 → off + w 2 * w 6 ≤ spaceSize x.e.w c.fn.toNat) → x.e.barCheck (x.e.barOf o.x o.e) 16 = none →
    Posts i s x (o.x.toNat % 4)
      (.gather scatter c.fn.toNat (w 0 + 2 ^ 32 * w 1) (w 2) (w 3) (w 4 + 2 ^ 32 * w 5) (w 6) (w 7) off) (x.e.barOf o.x o.e)) ∧
  (∀ (c : Ctl) (o : OpsR) (s : State) (x : Issuing) (r : Rec), s.issuing (.rput c o) false false = some x →
    x.t.ident x.e.w.core x.e.r.ctx (x.e.u o.a) = .ok r → originOk r (x.e.origin o.c) = true →
    (bits o.x.toNat 3 2 = 1 → recSwz r = 0 ∨ recWrow r = swzRow (recSwz r)) → x.e.barCheck (x.e.barOf o.x o.e) 32 = none →
    Posts (.rput c o) s x (o.x.toNat % 4)
      (.rput r (x.e.pair o.b) (x.e.origin o.c) (bits o.x.toNat 3 2 == 1) (((x.e.barOf o.x o.e).map (·.addr)).getD 0)) none) ∧
  (∀ (c : Ctl) (o : OpsR) (s : State) (x : Issuing), s.issuing (.yfence c o) false false = some x →
    Posts (.yfence c o) s x (bits o.x.toNat 7 5) (.fence (o.x.toNat % 32)) none)

/-- The matrix engine's commands (11 R251-R257, R263, R266). Under the posting checks MLOOP, MLOOPS and MZERO stand in their core's MX
queue, and MLOOPJ in the MX queues of the cluster's four cores under one number, failed where its tag stands there already. -/
def Obligations.MatrixCommandsComplete : Prop :=
  (∀ (c : Ctl) (o : OpsR) (s : State) (x : Issuing) (ra rb : Rec), s.issuing (.mloop c o) false false = some x →
    x.e.loopRecs x.t o = .ok (ra, rb) →
    let blk : List Word := (List.range 6).map fun k => BitVec.ofNat 32 (x.e.blk o.c k)
    let at_ (k j n : Nat) : Int := (blkU blk k : Int) + n * blkI blk j
    let ks := ends (blkU blk 3)
    loopCheck x.e ra rb 64 true (blkU blk 3) (blkU blk 2) (ks.map fun n => at_ 0 4 n) (ks.map fun n => at_ 1 5 n) []
      [(blkU blk 0 : Int), blkI blk 4] [((blkU blk 1 : Int), 512), ((blkU blk 2 : Int), 256), (blkI blk 5, 512)] = none →
    x.e.barCheck (x.e.barOf o.x o.e) 16 = none →
    Posts (.mloop c o) s x 4 (.mloop ra rb blk (o.x.getLsbD 4)) (x.e.barOf o.x o.e)) ∧
  (∀ (c : Ctl) (o : OpsR) (s : State) (x : Issuing) (ra rb : Rec), s.issuing (.mloops c o) false false = some x →
    x.e.loopRecs x.t o = .ok (ra, rb) →
    let fn := c.fn.toNat
    let zm := o.x.getLsbD 5
    let ka := 64 * nOf fn / mOf fn
    let blk : List Word := (List.range 10).map fun k => BitVec.ofNat 32 (x.e.blk o.c k)
    let at_ (k j n : Nat) : Int := (blkU blk k : Int) + n * blkI blk j
    let ks := ends (blkU blk 3)
    loopCheck x.e ra rb ka false (blkU blk 3) (blkU blk 2) (ks.map fun n => at_ 0 4 n) (ks.map fun n => at_ 1 5 n)
      ((ks.map fun n => (at_ 6 7 n, loopTM ra * (ka / 2))) ++ if zm then ks.map fun n => (at_ 8 9 n, 8) else [])
      [(blkU blk 0 : Int), blkI blk 4]
      ([((blkU blk 1 : Int), 512), ((blkU blk 2 : Int), 256), (blkI blk 5, 512)] ++ [((blkU blk 6 : Int), 8), (blkI blk 7, 8)] ++
        if zm then [((blkU blk 8 : Int), 8), (blkI blk 9, 8)] else []) = none →
    x.e.barCheck (x.e.barOf o.x o.e) 16 = none →
    Posts (.mloops c o) s x 4 (.mloops fn ra rb blk (o.x.getLsbD 4) zm) (x.e.barOf o.x o.e)) ∧
  (∀ (c : Ctl) (o : OpsR) (s : State) (x : Issuing) (ra rb : Rec), s.issuing (.mloopj c o) false false = some x →
    x.e.loopRecs x.t o = .ok (ra, rb) →
    let blk : List Word := (List.range 8).map fun k => BitVec.ofNat 32 (x.e.blk o.c k)
    let m := columnOf x.e.w.core % 4
    let mine := ends ((blkU blk 3 + 3 - m) / 4)
    loopCheck x.e ra rb 64 true (blkU blk 3) (blkU blk 2)
      (mine.flatMap fun (j : Nat) => (List.range 4).map fun (p : Nat) => (blkU blk 0 : Int) + j * blkI blk 4 + p * blkI blk 6)
      (mine.map fun (j : Nat) => (blkU blk 1 : Int) + j * blkI blk 5) [] [(blkU blk 0 : Int), blkI blk 4, blkI blk 6]
      [((blkU blk 1 : Int), 512), ((blkU blk 2 : Int), 256), (blkI blk 5, 512)] = none →
    x.e.barCheck (x.e.barOf o.x o.e) 16 = none →
    let cs := clusterCores x.e.w.core
    (∀ k ∈ cs, (x.t.core k).slots 4 < 16) →
    let dup := (x.t.core (cs.headD 0)).mx.any fun y => y.tag == some (blk.getD 7 0)
    exec (.mloopj c o) s = .next (x.next s (.done
      (cs.foldl (fun t k => t.setQueue { core := k, q := 4 } (t.queue { core := k, q := 4 } ++ [x.entry 4
        (.mloopj ra rb blk (o.x.getLsbD 4)) (x.e.barOf o.x o.e) (if dup then some { cause := .jointMismatch, queue := 4 } else none)]))
        { x.t with nextSeq := x.t.nextSeq + 1 }) (x.e.g.takeTok x.e.c)))) ∧
  (∀ (c : Ctl) (o : OpsR) (s : State) (x : Issuing), s.issuing (.mzero c o) false false = some x →
    x.e.u o.a + 256 * x.e.u o.b ≤ 0x80000 → x.e.u o.a < 0x80000 → x.e.u o.a % 256 = 0 → x.e.barCheck (x.e.barOf o.x o.e) 16 = none →
    Posts (.mzero c o) s x 4 (.mzero (x.e.u o.a) (x.e.u o.b)) (x.e.barOf o.x o.e))

/-- CSRR, CSRW and CSRX (12 R284, Table 12.11, 03 R65, 12 R279, 20 R350). A read writes the register's value to its destination; a write
changes the register alone, SRSEED's also clears the stochastic counter and WDOG's the run count; CSRX returns the old value and
writes the old one with bits set, with bits cleared, or the operand. -/
def Obligations.RegisterAccessComplete : Prop :=
  (∀ (c : Ctl) (o : OpsI) (s : State) (x : Issuing), s.issuing (.csrr c o) false false = some x →
    exec (.csrr c o) s = .next (x.next s (.done x.t (x.e.g.writeS (csrTy o.imm.toNat) o.d (x.t.csr x.e.w x.e.g o.imm.toNat))))) ∧
  (∀ (c : Ctl) (o : OpsI) (s : State) (x : Issuing), s.issuing (.csrw c o) false false = some x →
    let w : Word := BitVec.ofNat 32 (x.e.u o.a)
    let d : DWord := BitVec.ofNat 64 (x.e.pair o.a)
    (o.imm = 0x10 → exec (.csrw c o) s = .next (x.next s (.done x.t { x.e.g with gstat := w &&& 0x7F }))) ∧
    (o.imm = 0x12 → exec (.csrw c o) s = .next (x.next s (.done x.t { x.e.g with chk := w.getLsbD 0 }))) ∧
    (o.imm = 0x20 → exec (.csrw c o) s = .next (x.next s (.done x.t { x.e.g with trapb := d &&& 0x0000FFFFFFFFF801 }))) ∧
    (o.imm = 0x21 → exec (.csrw c o) s = .next (x.next s (.done x.t { x.e.g with tpc := d }))) ∧
    (o.imm = 0x22 → exec (.csrw c o) s = .next (x.next s (.done x.t { x.e.g with tcause := w &&& 0x00FFFFFF }))) ∧
    (o.imm = 0x23 → exec (.csrw c o) s = .next (x.next s (.done x.t { x.e.g with taddr := d }))) ∧
    (o.imm = 0x24 → exec (.csrw c o) s = .next (x.next s (.done x.t { x.e.g with tmap := d }))) ∧
    (o.imm = 0x25 → exec (.csrw c o) s = .next (x.next s (.done x.t { x.e.g with taux := w }))) ∧
    (o.imm = 0x40 → exec (.csrw c o) s = .next (x.next s (.done { x.t with inja := d &&& 0x0000FFFFFFFFFFE0 } x.e.g)))) ∧
  (∀ (c : Ctl) (o : OpsI) (s : State) (x : Issuing), o.imm = 0x11 → s.issuing (.srseedWrite c o) false false = some x →
    exec (.srseedWrite c o) s = .next (x.next s (.done x.t { x.e.g with srseed := BitVec.ofNat 32 (x.e.u o.a), srn := 0 }))) ∧
  (∀ (c : Ctl) (o : OpsI) (s : State) (x : Issuing), o.imm = 0x30 → s.issuing (.wdogWrite c o) false false = some x →
    exec (.wdogWrite c o) s = .next (x.next s (.done x.t { x.e.g with wdog := BitVec.ofNat 32 (x.e.u o.a), runCnt := 0 }))) ∧
  (∀ (c : Ctl) (o : OpsI) (s : State) (x : Issuing), o.imm = 0x41 → s.issuing (.injcWrite c o) false false = some x →
    exec (.injcWrite c o) s = .next (x.next s (.done { x.t with injc := BitVec.ofNat 32 (x.e.u o.a) &&& 7 } x.e.g))) ∧
  (∀ (c : Ctl) (o : OpsR) (s : State) (x : Issuing) (i : Instr) (new : Nat),
    let old := x.t.csr x.e.w x.e.g o.x.toNat
    ((i = .csrxSet c o ∧ new = old ||| x.e.u o.a) ∨ (i = .csrxClr c o ∧ new = old &&& (2 ^ 32 - 1 - x.e.u o.a)) ∨
      (i = .csrxSwap c o ∧ new = x.e.u o.a)) → s.issuing i false false = some x →
    exec i s = .next (x.next s (.done (x.t.csrWrite x.e.g o.x.toNat new).1
      ((x.t.csrWrite x.e.g o.x.toNat new).2.writeS .ui32 o.d old))))

/-- Invalidations, cache operations, gate requests, save images and clocks (12 R285, 01 R26, 13 R297, 04 R94). TLBINV starts an invalidation that the
group awaits; CACHEOP drops copies of the cluster's cache and no memory; PGREQ asks for an upper core's gate or withdraws it, status 2 where the host
has disabled requests; GSAVE writes the group's image in one step and returns its length; GREST goes on as the image it reads says; CLOCK reads
cycles, nanoseconds or the epoch. The model's choices among these: CACHEOP.dropall drops every copy (DEDUCED, log entry 15); GSAVE writes TPC as PC,
and where GREST goes on (DEDUCED, log entry 39). -/
def Obligations.SystemFormsComplete : Prop :=
  (∀ (c : Ctl) (o : OpsR) (s : State) (x : Issuing), s.issuing (.tlbinvRange c o) false false = some x →
    let va := x.e.pair o.a
    let n := x.e.u o.b
    1 ≤ n → n ≤ 2 ^ 20 → va < 2 ^ 48 → va / 4096 * 4096 + 4096 * n ≤ 2 ^ 48 →
    exec (.tlbinvRange c o) s = .next (x.next s (.park (x.t.invalidate x.e.r.ctx (va / 4096 * 4096) n (.group x.e.r))
      { x.e.g with wait := .inval x.t.nextInval }))) ∧
  (∀ (c : Ctl) (o : OpsR) (s : State) (x : Issuing), s.issuing (.tlbinvAll c o) false false = some x →
    exec (.tlbinvAll c o) s = .next (x.next s (.park (x.t.invalidate x.e.r.ctx 0 0 (.group x.e.r))
      { x.e.g with wait := .inval x.t.nextInval }))) ∧
  (∀ (c : Ctl) (o : OpsR) (s : State) (x : Issuing), s.issuing (.cacheopDrop c o) false false = some x →
    let parts := (cut4k (x.e.pair o.a) (x.e.u o.b)).map fun p => x.t.resolve x.e.r.ctx x.e.w.core x.e.g.xf p.1 p.2 .read
    (∀ r ∈ parts, ∀ ps, r ≠ .miss ps) →
    ∃ k, exec (.cacheopDrop c o) s = .next (x.next s (.done (x.t.setCluster (clusterOf x.e.w.core) k) { x.e.g with xf := [] })) ∧
      (∀ y, y ∈ k.copies ↔ y ∈ (x.t.cluster (clusterOf x.e.w.core)).copies ∧
        ¬∃ ps l mt n, Resolved.ok ps ∈ parts ∧ (Target.mem l mt, n) ∈ ps ∧ y.line ∈ lines256 l n) ∧
      { k with copies := [] } = { x.t.cluster (clusterOf x.e.w.core) with copies := [] }) ∧
  (∀ (c : Ctl) (o : OpsR) (s : State) (x : Issuing), s.issuing (.cacheopDropall c o) false false = some x →
    exec (.cacheopDropall c o) s = .next (x.next s (.done (x.t.setCluster (clusterOf x.e.w.core)
      { x.t.cluster (clusterOf x.e.w.core) with copies := [] }) x.e.g))) ∧
  (∀ (c : Ctl) (o : OpsR) (s : State) (x : Issuing), s.issuing (.pgreqGate c o) false false = some x →
    let n := x.e.u o.a
    let k := x.t.core n
    let put (st : Nat) : Machine.Group := x.e.g.writeS .ui32 o.d st
    n < 256 → isUpper n = true →
    (x.t.power.gdis = true → exec (.pgreqGate c o) s = .next (x.next s (.done x.t (put 2)))) ∧
    (x.t.power.gdis = false →
      (k.gate = .gated → exec (.pgreqGate c o) s = .next (x.next s (.done x.t (put 1)))) ∧
      (k.gate = .requested → exec (.pgreqGate c o) s = .next (x.next s (.done x.t (put 0)))) ∧
      (k.gate = .open ∨ k.gate = .closed ∨ (∃ u, k.gate = .waking u) → exec (.pgreqGate c o) s =
        .next (x.next s (.done (x.t.setCore n { k with gate := .requested }) (put 0)))))) ∧
  (∀ (c : Ctl) (o : OpsR) (s : State) (x : Issuing), s.issuing (.pgreqUngate c o) false false = some x →
    let n := x.e.u o.a
    let k := x.t.core n
    let put (st : Nat) : Machine.Group := x.e.g.writeS .ui32 o.d st
    n < 256 → isUpper n = true →
    (x.t.power.gdis = true → exec (.pgreqUngate c o) s = .next (x.next s (.done x.t (put 2)))) ∧
    (x.t.power.gdis = false →
      (k.gate = .requested → exec (.pgreqUngate c o) s =
        .next (x.next s (.done (x.t.setCore n { k with gate := .closed }) (put 0)))) ∧
      (k.gate = .gated → exec (.pgreqUngate c o) s =
        .next (x.next s (.done (x.t.setCore n { k with gate := .waking (x.t.now + 80000) }) (put 0)))) ∧
      ((∃ u, k.gate = .waking u) → exec (.pgreqUngate c o) s = .next (x.next s (.done x.t (put 0)))) ∧
      (k.gate = .open ∨ k.gate = .closed → exec (.pgreqUngate c o) s = .next (x.next s (.done x.t (put 1)))))) ∧
  (∀ (c : Ctl) (o : OpsR) (s : State) (x : Issuing) (as : List (Nat × List Piece)), s.issuing (.gsave c o) false false = some x →
    let va := x.e.pair o.a
    let bs := x.e.g.image x.e.w.desc.nreg { pc := x.e.g.tpc, mstep := bits x.e.g.tcause.toNat 15 8, hm := false }
    va % 64 = 0 → x.e.g.quiet = true → x.t.uniAccess x.e.r x.e.w x.e.g 0 .write va bs.length = .ok as →
    x.t.anyHeld x.e.w.core as = false → x.t.objDrained x.e.w.core (as.flatMap (·.2)) = true →
    x.t.roomFor (columnOf x.e.w.core) (peersIn as) = true →
    ∃ u, exec (.gsave c o) s = .next (x.next s (.done u { x.e.g.writeS .ui32 o.d bs.length with xf := [] })) ∧
      u = ((as.flatMap (·.2)).foldl (fun (a : State × List Byte) p =>
        (match p.1 with
          | .mem l _ => a.1.putProv (columnOf x.e.w.core) l (a.2.take p.2) (locColumn l != some (columnOf x.e.w.core))
          | .peer .. => a.1.storePieces x.e.uniWriter [p] (a.2.take p.2), a.2.drop p.2)) (x.t, bs)).1) ∧
  (∀ (c : Ctl) (o : OpsR) (s : State) (x : Issuing) (hs as : List (Nat × List Piece)) (g' : Machine.Group) (step : Nat),
    s.issuing (.grest c o) false false = some x →
    let va := x.e.pair o.a
    va % 64 = 0 → x.e.g.pend = [] → x.t.uniAccess x.e.r x.e.w x.e.g 0 .read va 64 = .ok hs →
    x.t.anyHeld x.e.w.core hs = false → x.t.uniAsk x.e .read (hs.flatMap (·.2)) = [] →
    let head := (x.t.uniBytes x.e .read (hs.flatMap (·.2))).1
    x.t.uniAccess x.e.r x.e.w x.e.g 0 .read va (max 1216 (bits (leNat head) 31 16)) = .ok as →
    x.t.anyHeld x.e.w.core as = false → x.t.uniAsk x.e .read (as.flatMap (·.2)) = [] →
    let got := x.t.uniBytes x.e .read (as.flatMap (·.2))
    x.e.g.ofImage x.e.w.desc.nreg got.1 = some (g', step) →
    exec (.grest c o) s = .next (x.next s (.placed got.2 { g' with xf := [], mcall := none, rstep := step }))) ∧
  (∀ (c : Ctl) (o : OpsR) (s : State) (x : Issuing),
    (s.issuing (.clockCyc c o) false false = some x → exec (.clockCyc c o) s =
      .next (x.next s (.done x.t (x.e.g.writeS .i64 o.d ((x.t.col (columnOf x.e.w.core)).cyc2 / 2))))) ∧
    (s.issuing (.clockNs c o) false false = some x → exec (.clockNs c o) s =
      .next (x.next s (.done x.t (x.e.g.writeS .i64 o.d (x.t.now / 4))))) ∧
    (s.issuing (.clockEpoch c o) false false = some x → exec (.clockEpoch c o) s =
      .next (x.next s (.done x.t (x.e.g.writeS .ui32 o.d (x.t.col (columnOf x.e.w.core)).epoch)))))

/-- Work forms (06 R136, R138, R140, 08 R180-R183, 03 R66). SPAWN reserves its items and requests their entry, FORK and CANCEL request theirs in the
column's landing buffer, to take effect when the epoch is confirmed; REGROUP waits for every participant, the last to arrive letting all go on; CNTRD
reads a unit's count or status. How many blocks of the landing buffer a request takes is log entry 62's (DESIGN CHOICE), and that FORK checks the
descriptor before the limits is log entry 74's. At the last arrival of a REGROUP, with every participant waiting at it, nothing in flight to any and
none in handler mode, their uniform state equal or MC clear on all, and no other column's step standing on the barrier's counts, the live lanes of
all, in ascending (ID.GROUP, ID.LANE) order, stand 64 to a group in the survivors 0 to k - 1. Each lane has its thread identifier, its words and its map bits at its new position, and no lane stands elsewhere;
a survivor has the lowest participant's uniform state and goes on behind the REGROUP, GSTAT and the matrix status are the OR of all, the run count is
the largest, and DEAD is 0. The other participants retire, and the barrier's ARR_EXP and ARR_LEFT are k. -/
def Obligations.WorkFormsComplete : Prop :=
  (∀ (c : Ctl) (o : OpsR) (s : State) (x : Issuing) (d : Deck), s.issuing (.spawn c o) false false = some x →
    let k := c.fn.toNat
    let n := (lanesOf x.e.m).length
    x.t.deckOf x.e.r.ctx x.e.r.lnum k = some d → d.items.length + d.reserved + n ≤ d.cap → n ≠ 0 →
    x.t.reqRoom (columnOf x.e.w.core) = true →
    let w (op : Operand) (l : Nat) : Word := BitVec.ofNat 32 (x.e.val .b32 op l)
    exec (.spawn c o) s = .next (x.next s (.done
      ((x.t.modDeck x.e.r.ctx x.e.r.lnum k fun d => { d with reserved := d.reserved + n }).request (columnOf x.e.w.core) x.e.r.ctx
        x.e.r.lnum (.spawn x.e.r.ctx x.e.r.lnum k
          ((lanesOf x.e.m).map fun l => ({ a := w o.a l, b := w o.b l, c := w o.c l, at_ := 0 } : Item)))) x.e.g))) ∧
  (∀ (c : Ctl) (o : OpsR) (s t u v : State) (x : Issuing) (bs ph : List Byte) (k : Checked),
    s.issuing (.fork c o) false false = some x →
    let va := x.e.pair o.a
    let rd := x.e.globalRead
    va % 64 = 0 → rd va (fun _ => 128) x.t = .ok (bs, t) → readLaunch rd bs t = .ok (some k, u) →
    u.forksOut x.e.r.ctx < 1024 → ((u.launchOf x.e.r.ctx x.e.r.lnum).map (·.depth)).getD 0 < 16 → u.pendingLaunches x.e.r.ctx < 4096 →
    (if o.e = .none then .ok ([], u) else rd k.desc.compl (fun _ => 4) u) = .ok (ph, v) → v.reqRoom (columnOf x.e.w.core) = true →
    exec (.fork c o) s = .next (x.next s (.done (v.request (columnOf x.e.w.core) x.e.r.ctx x.e.r.lnum
      (.fork x.e.r.ctx x.e.r.lnum k.desc k.macros k.targets))
      ((x.e.g.writeS .i64 o.d k.desc.compl).writeS .ui32 o.e (leNat ph))))) ∧
  (∀ (c : Ctl) (o : OpsR) (s : State) (x : Issuing) (as : List (Nat × List Piece)), s.issuing (.regroup c o) true false = some x →
    let off := x.e.u o.a
    let p : Word := BitVec.ofNat 32 (x.e.u o.b)
    off % 16 = 0 → x.t.uniAccess x.e.r x.e.w x.e.g 1 .read off 16 = .ok as → x.t.anyHeld x.e.w.core as = false →
    let got := x.t.uniBytes x.e .read (as.flatMap (·.2))
    let sc := (scopeBits c.sc).toNat
    sc = 2 ∨ sc = 3 → bits (leNat got.1) 127 125 = sc → bits (leNat got.1) 31 0 ≠ p.toNat →
    (∀ g ∈ participants x.e.w, ∀ a q m k, g.wait = .regroup a q m k → a = off ∧ q = p) →
    let g' : Machine.Group := { x.e.g with wait := .regroup off p c.mc c.sc }
    let t := got.2.setGroup x.e.r (g'.after x.v x.f (got.2.clock x.e.w.core) x.e.epoch false (x.e.g.dsts x.v x.f))
    ∀ w, t.wgOf x.e.r = some w →
    (t.tryRegroup w = none → exec (.regroup c o) s = .next (x.next s (.park got.2 g'))) ∧
    (∀ u, t.tryRegroup w = some u → exec (.regroup c o) s = .next u)) ∧
  (∀ (c : Ctl) (o : OpsR) (s : State) (x : Issuing) (n : UnitRef), s.issuing (.cancel c o) false false = some x →
    let addr := x.e.pair o.a
    x.t.unitAt x.e.r.ctx addr = some n → x.t.reqRoom (columnOf x.e.w.core) = true →
    let t := x.t.request (columnOf x.e.w.core) x.e.r.ctx x.e.r.lnum (.cancel x.e.r.ctx addr)
    (t.inUnit x.e.r.ctx x.e.r.lnum n = false → exec (.cancel c o) s = .next (x.next s (.done t x.e.g))) ∧
    (t.inUnit x.e.r.ctx x.e.r.lnum n = true → exec (.cancel c o) s = .next ((t.setGroup x.e.r x.e.g).retire x.e.r x.e.w.core))) ∧
  (∀ (c : Ctl) (o : OpsR) (s : State) (x : Issuing) (n : UnitRef), x.t.unitAt x.e.r.ctx (x.e.pair o.a) = some n →
    (s.issuing (.cntrdCount c o) false false = some x → exec (.cntrdCount c o) s = .next (x.next s (.done x.t
      (x.e.g.writeS .ui32 o.d (min 0xFFFFFFFF (x.t.unitRead x.e.r.ctx n).1))))) ∧
    (s.issuing (.cntrdStatus c o) false false = some x → exec (.cntrdStatus c o) s = .next (x.next s (.done x.t
      (x.e.g.writeS .ui32 o.d (x.t.unitRead x.e.r.ctx n).2))))) ∧
  (∀ (c : Ctl) (o : OpsR) (s : State) (x : Issuing) (as : List (Nat × List Piece)) (w : Workgroup),
    s.issuing (.regroup c o) true false = some x →
    let off := x.e.u o.a
    let p : Word := BitVec.ofNat 32 (x.e.u o.b)
    off % 16 = 0 → x.t.uniAccess x.e.r x.e.w x.e.g 1 .read off 16 = .ok as → x.t.anyHeld x.e.w.core as = false →
    let got := x.t.uniBytes x.e .read (as.flatMap (·.2))
    let sc := (scopeBits c.sc).toNat
    sc = 2 ∨ sc = 3 → bits (leNat got.1) 127 125 = sc → bits (leNat got.1) 31 0 ≠ p.toNat →
    (∀ g ∈ participants x.e.w, ∀ a q m k, g.wait = .regroup a q m k → a = off ∧ q = p) →
    (got.2.setGroup x.e.r (({ x.e.g with wait := .regroup off p c.mc c.sc } : Machine.Group).after x.v x.f (got.2.clock x.e.w.core) x.e.epoch false
      (x.e.g.dsts x.v x.f))).wgOf x.e.r = some w →
    let ps := participants w
    w.runs = true → got.2.heldOff (some (columnOf w.core)) (localLoc w 1 (off + 4)) 4 = false →
    (∀ g ∈ ps, g.handler = false ∧ g.pend = [] ∧ (∀ k, g.tokBusy k = false) ∧ ∃ a q m k, g.wait = .regroup a q m k) →
    (∀ g ∈ ps, ∀ a q k, g.wait ≠ .regroup a q true k) ∨ (∀ g ∈ ps, ∀ h ∈ ps, g.s = h.s ∧ g.p = h.p ∧ g.w = h.w ∧ g.pc = h.pc ∧
      g.srseed = h.srseed ∧ g.srn = h.srn ∧ g.chk = h.chk ∧ g.wdog = h.wdog) →
    let ls := ps.flatMap fun g => (lanesOf g.live).map fun l => (g, l)
    let n := (ls.length + 63) / 64
    ∃ u v, exec (.regroup c o) s = .next u ∧ u.wgOf x.e.r = some v ∧ v.ngroup = n ∧
      (∀ k f, k < n → ps.head? = some f → ∃ h, v.grp k = some h ∧ h.live = lowLanes (min 64 (ls.length - 64 * k)) ∧ h.dead = 0 ∧
        h.retired = none ∧ h.wait = .none ∧ h.mcall = none ∧ h.pc = nextPc f.pc ∧ h.s = f.s ∧ h.p = f.p ∧ h.w = f.w ∧
        h.srseed = f.srseed ∧ h.srn = f.srn ∧ h.chk = f.chk ∧ h.wdog = f.wdog ∧ h.waitCnt = 0 ∧
        (∀ b, h.gstat.getLsbD b = ps.any fun g => g.gstat.getLsbD b) ∧ (∀ b, h.mstat.getLsbD b = ps.any fun g => g.mstat.getLsbD b) ∧
        ((∀ g ∈ ps, g.runCnt ≤ h.runCnt) ∧ ∃ g ∈ ps, g.runCnt = h.runCnt) ∧
        (∀ j q, j < 64 → ls[64 * k + j]? = some q → h.tidOf j = q.1.tidOf q.2 ∧
          (∀ r, r < 128 → vget? (h.vreg r) j = vget? (q.1.vreg r) q.2) ∧
          ∀ r, r < 14 → (h.m[r]?.getD 0).getLsbD j = (q.1.m[r]?.getD 0).getLsbD q.2) ∧
        ∀ j, j < 64 → ls.length ≤ 64 * k + j →
          (∀ r, r < 128 → vget? (h.vreg r) j = none) ∧ ∀ r, r < 14 → (h.m[r]?.getD 0).getLsbD j = false) ∧
      (∀ g ∈ ps.drop n, ∃ h ∈ v.groups, h.id = g.id ∧ h.live = 0 ∧ h.retired.isSome) ∧
      let b := localLoc w 1 (off + 4)
      (locColumn b = some (columnOf w.core) → u.bytesAt b 4 = leBytes 2 n ++ leBytes 2 n))

/-- Steps of groups that no instruction issues (04 R86, 06 R131, 07 R148, 05 R104, R108, R114). A fetch reads the line of the next
instruction, and a second fetch replaces a line whose parity failed; a delivery writes what arrived and clears its token; a lane of an
atomic writes its result at its home and hands the old value on; the reductions of an entry perform as one write, each location of the line with its own
part of the merge order; a wait ends at a value that differs. When a line is fetched is log entry 61's (DESIGN CHOICE). -/
def Obligations.GroupStepsComplete : Prop :=
  (∀ (s : State) (r : GRef) (w : Workgroup) (g : Machine.Group) (l : Loc) (mt : Nat), s.stands r w g → g.wait = .none → w.runs = true →
    g.pc.toNat < 2 ^ 48 → (∀ k ∈ g.lines, k.addr ≠ lineOf g.pc.toNat) →
    s.resolve r.ctx w.core g.xf (lineOf g.pc.toNat) 64 .exec = .ok [(.mem l mt, 64)] →
    s.readable (some (columnOf w.core)) l 64 →
    exec (.instructionFetch r) s = .next ((s.look (columnOf w.core) [(l, 64)]).modGroup r fun k => { k with lines := k.lines ++
      [{ addr := lineOf g.pc.toNat, bytes := s.colRead (columnOf w.core) l 64, checked := false, second := false }] })) ∧
  (∀ (s : State) (r : GRef) (w : Workgroup) (g : Machine.Group) (l : Loc) (mt line : Nat), s.stands r w g → g.wait = .refetch line →
    line % 64 = 0 → s.resolve r.ctx w.core g.xf line 64 .exec = .ok [(.mem l mt, 64)] →
    s.readable (some (columnOf w.core)) l 64 →
    exec (.lineRefetch r) s = .next ((s.look (columnOf w.core) [(l, 64)]).modGroup r fun k => { k with wait := .none, lines := (k.lines.filter fun f => f.addr != line) ++
      [{ addr := line, bytes := s.colRead (columnOf w.core) l 64, checked := false, second := true }] })) ∧
  (∀ (s : State) (r : GRef) (w : Workgroup) (g : Machine.Group) (n : Nat) (p : Pend) (ext : List Byte), s.stands r w g →
    g.pend[n]? = some p → (∀ v ∈ p.lanes, ∃ ws, v.2 = .ok ws) →
    let rest := g.pend.eraseIdx n
    let got := g.receive p (p.lanes.map fun v => (v.1, match v.2 with | .ok ws => ws | _ => []))
    let held : Bool := p.regs.any g.blocked.contains
    let g1 : Machine.Group := { got with
      pend := rest, blocked := if held then [] else g.blocked
      nextAt := if held then max g.nextAt (s.now + 2 * (s.clock w.core).cyc) else g.nextAt }
    exec (.loadDataDelivery r n ext) s = .next (s.setGroup r (match p.token with
      | some k => if rest.any fun q => q.token == some k then g1 else g1.setTok k false
      | none => g1))) ∧
  (∀ (s : State) (r : GRef) (w : Workgroup) (g : Machine.Group) (q : AtomReq) (a : AtomLane) (rest : List AtomLane) (ext : List Byte),
    s.stands r w g → g.wait = .atomic q → q.lanes = a :: rest → q.red = false → a.peer = none → a.old = none → q.met.inj = [] →
    (∀ b ∈ q.lanes, q.vec = true → g.live.getLsbD b.lane = true) → q.behind a = false →
    let col := columnOf w.core
    let n := tyBytes q.ty
    let old := leNat (s.bytesAt a.loc n)
    isFar col q.near (.mem a.loc 0) = true → s.readable (some col) a.loc n → s.mustDrain col a.loc n = false →
    s.halfway (some (r, a.lane)) (q.key r w.core a) a.loc n = false →
    exec (.atomicPerform r ext) s = .next ((s.putProv col a.loc (match atomNew q.op q.ty old a.arg a.new with
      | some v => leBytes n v
      | none => s.bytesAt a.loc n) true).atomicGot r w.core q a.lane (.ok (regWords q.ty (leBytes n old)))
        { q.met with seen := q.met.seen.eraseDups })) ∧
  (∀ (s : State) (l : Loc) (q0 : WqRed) (rest : List WqRed) (plan : MergePlan), s.wqAt l = q0 :: rest → q0.old = none →
    2 ≤ (planLeaves plan).length → (planLeaves plan).length ≤ rest.length + 2 →
    (∀ i, i < (planLeaves plan).length → i ∈ planLeaves plan) →
    let n := tyBytes q0.ty
    let qs := (q0 :: rest).take ((planLeaves plan).length - 1)
    let locs := (qs.map (·.loc)).eraseDups
    (∀ q ∈ qs, s.redReady q = true ∧ q.mark.met = none) → (∀ u ∈ locs, s.badAll u n = [] ∧ s.injHits [(u, n)] = false) →
    exec (.reductionPerform l plan) s = .next (locs.foldl (fun t u =>
      match planKeep (fun i => i == 0 || (qs[i - 1]?.map (·.loc)) == some u) plan with
      | some p => t.put u (leBytes n (planValue q0.op q0.ty (leNat (t.bytesAt u n) :: qs.map fun (q : WqRed) => q.operand.toNat) p))
      | none => t) { s with wq := qs.foldl (fun w q => w.erase q) s.wq })) ∧
  (∀ (s t : State) (r : GRef) (w : Workgroup) (g : Machine.Group) (p v : Word), s.stands r w g → w.runs = true →
    g.wait.leaves = some p → s.waitReads r w g g.wait = some (v, t) → v ≠ p →
    exec (.phaseWaitComplete r) s = .next (t.modGroup r fun k =>
      { (match k.wait with | .phase _ _ _ _ _ (some d) h => k.setS d h | _ => k) with
        wait := .none, waitFep := none, got := [], waitCnt := 0, hold := 0, lastEpoch := (s.col (columnOf w.core)).epoch }.stepOn (s.macrosOf r.ctx r.lnum)))

/-- Walks (01 R15, R17-R25). A tower starts a walk where it and the walk's context have room, its contexts served in turn, below what its walk cache
holds of the address or at the root; an entry read descends to the table an entry names, to the address's own entry, to a compare-and-swap that sets
A and D, or to a cached translation, and the misses that a leaf does not permit fault; a peer page asks its peer before its leaf is touched, and a miss
that has merged meanwhile faults where the leaf does not permit it. Over what the 128 slots are counted is log entry 53's (DESIGN CHOICE), what the
caches replace log entry 52's (DESIGN CHOICE), and when a peer's 500 ms begin log entry 54's (DESIGN CHOICE). -/
def Obligations.WalkStepsComplete : Prop :=
  let cached (s : State) (k : Walk) (e size : Nat) (peer : Option (Nat × Nat)) : List Xlat := k.holders.foldl (fun t h => cacheXlat t
    { ctx := k.ctx, page := k.page / size * size, size, pa := ptePA e, w := pteW e, x := pteX e, d := pteD e, mt := pteMT e, peer, holder := h }) s.tlb
  (∀ (s : State) (n : Nat) (k : Walk), s.walks[n]? = some k → k.st = .queued →
    ((s.walks.filter Walk.running).filter fun x => x.tower == k.tower).length < 256 → s.nextServed k.tower = some k.ctx →
    ((s.walks.take n).any fun x => x.tower == k.tower && x.ctx == k.ctx && !x.running) = false → (s.ctx k.ctx).valid = true →
    (exec (.pageWalk n) s = .next (({ s with served := s.served.setIfInBounds k.tower k.ctx } : State).setWalk n
      { k with st := .read (s.walkStart k).1 (s.walkStart k).2 })) ∧
    ((∀ x ∈ s.wcache, ¬(x.tower = k.tower ∧ x.ctx = k.ctx)) → s.walkStart k = (0, (s.ctx k.ctx).root))) ∧
  (∀ (s : State) (n : Nat) (k : Walk) (level table a e : Nat) (first : Bool), s.walks[n]? = some k →
    (k.st = .read level table ∧ first = (level == 3) ∨ k.st = .own table ∧ level = 3 ∧ first = false) →
    a = table + 8 * (if first then walkIndex level k.page / 16 * 16 else walkIndex level k.page) →
    s.readable none ⟨.dram, a⟩ 8 → e = leNat (s.bytesAt ⟨.dram, a⟩ 8) →
    (∀ c, checkEntry level first e = .fault c → exec (.walkEntryRead n) s = .next (s.walkFault n k c 0)) ∧
    (checkEntry level first e = .own → exec (.walkEntryRead n) s = .next (s.setWalk n { k with st := .own table })) ∧
    (∀ base, checkEntry level first e = .table base →
      let x : WalkEntry := { tower := k.tower, ctx := k.ctx, level, va := k.page / levelSpan level * levelSpan level, table := base }
      exec (.walkEntryRead n) s = .next (({ s with wcache := cacheTable s.wcache x } : State).setWalk n
        { k with st := .read (level + 1) base })) ∧
    (∀ size, checkEntry level first e = .leaf size →
      let t := (k.reqs.filter fun r => (leafPermits e r.acc).isSome).foldl
        (fun (t : State) r => t.tellFaults k.page ((leafPermits e r.acc).getD .notPresent) 0 [r]) s
      let k' : Walk := { k with reqs := k.reqs.filter fun r => (leafPermits e r.acc).isNone }
      (k'.reqs = [] → exec (.walkEntryRead n) s = .next { t with walks := s.walks.eraseIdx n }) ∧
      (k'.reqs ≠ [] →
        (ptePeer e ≠ 0 → exec (.walkEntryRead n) s = .next (t.setWalk n { k' with st := .peerTable a (BitVec.ofNat 64 e) size })) ∧
        (ptePeer e = 0 → k'.updated e ≠ e → exec (.walkEntryRead n) s = .next (t.setWalk n { k' with
          st := .update a (BitVec.ofNat 64 e) (BitVec.ofNat 64 (k'.updated e)) size none })) ∧
        (ptePeer e = 0 → k'.updated e = e →
          exec (.walkEntryRead n) s = .next { t with walks := s.walks.eraseIdx n, tlb := cached s k' e size none })))) ∧
  (∀ (s : State) (n : Nat) (k : Walk) (a size : Nat) (old new : DWord) (peer : Option (Nat × Nat)), s.walks[n]? = some k →
    k.st = .update a old new size peer → s.readable none ⟨.dram, a⟩ 8 →
    (leNat (s.bytesAt ⟨.dram, a⟩ 8) = old.toNat → ∃ t, exec (.adUpdate n) s = .next t ∧
      t.bytesAt ⟨.dram, a⟩ 8 = leBytes 8 new.toNat ∧ t.walks = s.walks.eraseIdx n ∧ t.tlb = cached s k new.toNat size peer) ∧
    (leNat (s.bytesAt ⟨.dram, a⟩ 8) ≠ old.toNat →
      exec (.adUpdate n) s = .next (s.setWalk n { k with st := .read 0 (s.ctx k.ctx).root }))) ∧
  (∀ (s : State) (n : Nat) (k : Walk) (at_ : Nat) (entry : DWord) (size : Nat), s.walks[n]? = some k → k.st = .peerTable at_ entry size →
    let p := ptePeer entry.toNat
    let a := (s.ctx k.ctx).peert + 16 * p
    let e := leNat (s.bytesAt ⟨.dram, a⟩ 16)
    ((s.ctx k.ctx).peern < p → exec (.peerTableRead n) s = .next (s.walkFault n k .peerInvalid 0)) ∧
    (p ≤ (s.ctx k.ctx).peern → s.readable none ⟨.dram, a⟩ 16 →
      (e.testBit 63 = false → exec (.peerTableRead n) s = .next (s.walkFault n k .peerInvalid 0)) ∧
      (e.testBit 63 = true →
        exec (.peerTableRead n) s = .next (s.setWalk n { k with st := .peerAsk at_ entry size (bits e 31 0) (bits e 37 32) s.now })))) ∧
  (∀ (s : State) (n : Nat) (k : Walk) (at_ : Nat) (entry : DWord) (size fep pctx since : Nat), s.walks[n]? = some k →
    k.st = .peerAsk at_ entry size fep pctx since →
    (s.cut fep = false → fep ∉ s.failedPeers →
      let t := (k.reqs.filter fun r => (leafPermits entry.toNat r.acc).isSome).foldl
        (fun (t : State) r => t.tellFaults k.page ((leafPermits entry.toNat r.acc).getD .notPresent) 0 [r]) s
      let k' : Walk := { k with reqs := k.reqs.filter fun r => (leafPermits entry.toNat r.acc).isNone }
      (k'.reqs = [] → exec (.peerAdmissionReply n true) s = .next { t with walks := s.walks.eraseIdx n }) ∧
      (k'.reqs ≠ [] → k'.updated entry.toNat = entry.toNat → exec (.peerAdmissionReply n true) s = .next { t with
        walks := s.walks.eraseIdx n, tlb := cached s k' entry.toNat size (some (fep, pctx)) }) ∧
      (k'.reqs ≠ [] → k'.updated entry.toNat ≠ entry.toNat → exec (.peerAdmissionReply n true) s = .next (t.setWalk n { k' with
        st := .update at_ (BitVec.ofNat 64 entry.toNat) (BitVec.ofNat 64 (k'.updated entry.toNat)) size (some (fep, pctx)) }))) ∧
    (s.cut fep = false → exec (.peerAdmissionReply n false) s = .next (s.walkFault n k .peerInvalid 0)) ∧
    (s.cut fep = true → since + 2000000000 ≤ s.now → exec (.peerQueryTimeout n) s = .next (s.walkFault n k .peerInvalid 0)))

/-- Steps of the Yarder's queues (01 R27, 04 R92-R95, 05 R98, R103, R106). A head asks for a page it lacks, or holds the translation that is cached; a
tile moves whole in one step; a copy, a gather and a scatter move a line or a row a step, the index of a row read first; RPUT looks at its ring, and
claims a slot there once the ring, as it was looked at, has room (log entry 79 where ring and barrier have different homes, a DESIGN CHOICE: no clause
is about that); a ring at a peer is claimed by a step at the peer, which answers; a tile's translations go with its step, its barrier's stays; a land
step subtracts its bytes from its barrier, and a peer that holds the barrier takes the step when it is asked; a fence leaves once no earlier entry of
a queue it names is left. What a ring in space G holds in a slot is log entry 38's (DEDUCED), and that the reads of a command with a cache hint go
through the cluster cache log entry 65's (DEDUCED). -/
def Obligations.YarderStepsComplete : Prop :=
  (∀ (s : State) (q : QRef) (e : Entry) (n : Need), s.head q = some e → e.toTranslate = true →
    e.translates q.core = true → s.needs q e = .pages [n] → n.addr < 2 ^ 48 → e.xf = [] →
    (∀ x ∈ e.held, x.serves e.poster.ctx q.core n.addr n.acc = false) →
    (∀ x, s.tlb.find? (fun x => x.serves e.poster.ctx q.core n.addr n.acc) = some x → (n.data && x.peer.isSome) = false →
      ((s.setHead q e).core q.core).holder < 2048 →
      let page := n.addr / 4096 * 4096
      exec (.tilePretranslate q) s = .next (s.setHead q { e with
        held := e.held ++ [x], seen := if (page, n.acc, n.data) ∈ e.seen then e.seen else e.seen ++ [(page, n.acc, n.data)] })) ∧
    (s.tlb.find? (fun x => x.serves e.poster.ctx q.core n.addr n.acc) = none →
      (∀ w ∈ s.walks, w.waits e.poster.ctx (n.addr / 4096 * 4096) { who := .queue q e.seq, acc := n.acc, core := q.core } = false) →
      exec (.tilePretranslate q) s = .next ((s.setHead q e).ask e.poster.ctx q.core [n.addr / 4096 * 4096] n.acc (.queue q e.seq)))) ∧
  (∀ (s t : State) (q : QRef) (e : Entry) (r : Rec) (base : Nat) (org : List Nat) (src dst : List Piece) (bs : List Byte),
    s.head q = some e → e.able = true →
    ((∃ sp off, e.cmd = .tile true sp r base org off ∧ e.data = [] ∧ s.holdsAll q e = true ∧ src = s.tileG q e r base org .read ∧
        dst = e.tileL q.core sp off r) ∨
     (∃ sp off, e.cmd = .tile false sp r base org off ∧ e.data = [] ∧ s.holdsAll q e = true ∧ src = e.tileL q.core sp off r ∧
        dst = s.tileG q e r base org .write) ∨
     (∃ inS ring d, e.cmd = .rput r base org inS ring ∧ e.data = [d] ∧ src = s.tileG q e r base org .read ∧
        dst = s.slotPieces q e r inS)) →
    s.engHeld q.core src = false → s.engHeld q.core dst = false → s.engDrain q.core dst = false →
    s.engRead q.core (.load e.hint) src [] = (some bs, t) →
    exec (.tileStep q) s = .next (((t.engCommit q.core dst bs).setHead q
      { e with data := e.data ++ [{ k := e.data.length, epoch := (s.col (columnOf q.core)).epoch, val := 0 }]
               held := e.held.filter fun x => e.landBar.any fun b => !b.inS && x.page ≤ b.addr && b.addr < x.page + x.size }).settle q)) ∧
  (∀ (s t : State) (q : QRef) (e : Entry) (k : Nat) (ext bs : List Byte) (i : Instr) (ssp src dsp dst n : Nat) (sp dp : List Piece),
    s.head q = some e → e.able = true → s.holdsAll q e = true → Entry.has e.data k = false →
    ((i = .ycopyLineStep q k ext ∧ ∃ d r len, e.cmd = .ycopy dsp ssp d r len ∧ k < copyLines d len ∧
        src = r + (copyPart d len k).1 ∧ dst = d + (copyPart d len k).1 ∧ n = (copyPart d len k).2) ∨
     (i = .gatherRowStep q k ext ∧ ∃ sc spc table stride idx cnt limit off, e.cmd = .gather sc spc table n stride idx cnt limit off ∧
        Entry.has e.index k = true ∧ Entry.valOf e.index k < limit ∧
        ((sc = false ∧ ssp = 0 ∧ src = table + Entry.valOf e.index k * stride ∧ dsp = spc ∧ dst = off + k * n) ∨
         (sc = true ∧ ssp = spc ∧ src = off + k * n ∧ dsp = 0 ∧ dst = table + Entry.valOf e.index k * stride)))) →
    s.engAccess q e ssp src n .read = .ok sp → s.engAccess q e dsp dst n .write = .ok dp →
    s.engHeld q.core sp = false → s.engHeld q.core dp = false → s.engAway q.core sp = false →
    s.roomFor (columnOf q.core) [(0, dp)] = true → s.engRead q.core (.load e.hint) sp ext = (some bs, t) →
    exec i s = .next (((t.storePieces (e.writer q.core) dp bs).setHead q { e with
      data := e.data ++ [{ k, epoch := (s.col (columnOf q.core)).epoch, val := 0 }], xf := [] }).settle q)) ∧
  (∀ (s t : State) (q : QRef) (e : Entry) (k : Nat) (ext bs : List Byte) (sc : Bool) (sp table z stride idx n limit off : Nat)
    (ps : List Piece), s.head q = some e → e.cmd = .gather sc sp table z stride idx n limit off → e.able = true → k < n →
    Entry.has e.index k = false → (∀ j, j < k → Entry.has e.index j = true) → s.holdsAll q e = true →
    s.engAccess q e 0 (idx + 4 * k) 4 .read = .ok ps → s.engHeld q.core ps = false → s.engAway q.core ps = false →
    s.engRead q.core (.load e.hint) ps ext = (some bs, t) →
    exec (.gatherIndexRead q k ext) s = .next ((t.setHead q { e with
      index := e.index ++ [{ k, epoch := (s.col (columnOf q.core)).epoch, val := leNat bs }], xf := [] }).settle q)) ∧
  (∀ (s t : State) (q : QRef) (e : Entry) (r : Rec) (base addr : Nat) (org : List Nat) (inS : Bool) (d : List Byte),
    s.head q = some e → e.cmd = .rput r base org inS addr → e.able = true → e.data = [] → e.index = [] → e.peek = none →
    let ps := s.ringPieces q e inS addr
    ps ≠ [] → (∀ p ∈ ps, ∃ l mt, p.1 = .mem l mt) → s.engHeld q.core ps = false → s.engRead q.core .none ps [] = (some d, t) →
    exec (.rputClaim q) s = .next (t.setHead q { e with peek := some (leNat d) })) ∧
  (∀ (s t : State) (q : QRef) (e : Entry) (r : Rec) (base addr seen : Nat) (org : List Nat) (inS : Bool) (d : List Byte),
    s.head q = some e → e.cmd = .rput r base org inS addr → e.able = true → e.data = [] → e.index = [] → e.peek = some seen →
    e.asked = none → ringFault e r inS seen = none → s.holdsAll q e = true → ringUsed seen < ringN seen →
    let ps := s.ringPieces q e inS addr
    let bs := s.barPieces q e { inS, addr := slotBar seen }
    bs ≠ [] → (∀ p ∈ ps ++ bs, ∃ l mt, p.1 = .mem l mt) → s.engHeld q.core (ps ++ bs) = false → s.engDrain q.core (ps ++ bs) = false →
    s.engRead q.core .none (ps ++ bs) [] = (some d, t) →
    let ring := leNat (d.take 32)
    let b := leNat (d.drop 32)
    (ring % 2 ^ 224 ≠ seen % 2 ^ 224 → exec (.rputClaim q) s = .next (t.setHead q { e with peek := some ring })) ∧
    (ring % 2 ^ 224 = seen % 2 ^ 224 → ringN ring ≠ 0 → ringUsed ring < ringN ring → bytesFit (barBytes b + ringSize ring) = true →
      exec (.rputClaim q) s = .next (((t.engCommit q.core ps
          (leBytes 32 (bits ring 255 224 * 2 ^ 224 + (ringW ring + 1) % ringQ ring * 2 ^ 192 + ring % 2 ^ 192))).engCommit q.core bs
          (leBytes 16 (barWith b (barPhase b) (barLeft b) (barBytes b + ringSize ring)))).setHead q
        { e with data := [{ k := 0, epoch := (s.col (columnOf q.core)).epoch, val := ring }] }))) ∧
  (∀ (s : State) (q : QRef) (e : Entry) (r : Rec) (base addr seen fep pctx pa mt len a' mt' z : Nat) (org : List Nat) (inS : Bool),
    s.head q = some e → e.cmd = .rput r base org inS addr → e.able = true → e.data = [] → e.index = [] → e.peek = some seen →
    ringFault e r inS seen = none → s.ringPieces q e inS addr = [(.peer fep pctx pa mt, len)] → fep ∉ s.failedPeers →
    let col := columnOf q.core
    let a : PeerAsk := { fep, pctx, pa, len := 32, op := .fill seen (some a') }
    (e.asked = none → s.holdsAll q e = true → ringUsed seen < ringN seen →
      s.barPieces q e { inS, addr := slotBar seen } = [(.peer fep pctx a' mt', z)] →
      s.lbFits col (peerKeys (s.col col).epoch fep pa 32 ++ peerKeys (s.col col).epoch fep a' 16) = true →
      exec (.rputClaim q) s = .next ((s.send [(col, (s.col col).epoch)] e.poster.ctx e.poster.lnum
        (.peerObj a (e.writer q.core))).setHead q { e with asked := some a, reply := none })) ∧
    (∀ d, e.asked = some a → e.reply = some (some d) →
      let ring := leNat (d.take 32)
      ring % 2 ^ 224 = seen % 2 ^ 224 → ringN ring ≠ 0 → ringUsed ring < ringN ring →
      bytesFit (barBytes (leNat (d.drop 32)) + ringSize ring) = true →
      exec (.rputClaim q) s = .next (s.setHead q { e with
        data := [{ k := 0, epoch := (s.col col).epoch, val := ring }], asked := none, reply := none }))) ∧
  (∀ (s t : State) (q : QRef) (e : Entry) (n z v' : Nat) (b : Bar) (bs : List Byte), s.head q = some e → e.able = true →
    (e.fresh = true ∨ e.cmd.loops = true → s.holdsAll q e = true) → e.landAmount n = some z → e.landBar = some b →
    let ps := s.barPieces q e b
    ps ≠ [] → (∀ p ∈ ps, ∃ l mt, p.1 = .mem l mt) → s.engHeld q.core ps = false → s.engDrain q.core ps = false →
    s.engRead q.core .none ps [] = (some bs, t) →
    (∀ p ∈ ps, 2 ≤ barScope (leNat bs) ∧ storageOk q.core (barScope (leNat bs)) p.1 = true) → barLand (leNat bs) z = some v' →
    exec (.landStep q n) s = .next (((t.objPut (e.writer q.core) ps (leBytes 16 v')).setHead q
      { e with lands := e.lands ++ [{ k := n, epoch := (s.col (columnOf q.core)).epoch, val := 0 }], asked := none, reply := none }).settle q)) ∧
  (∀ (s : State) (q : QRef) (e : Entry) (n z len fep pctx pa mt : Nat) (b : Bar), s.head q = some e → e.able = true →
    (e.fresh = true ∨ e.cmd.loops = true → s.holdsAll q e = true) → e.landAmount n = some z → e.landBar = some b →
    s.barPieces q e b = [(.peer fep pctx pa mt, len)] → fep ∉ s.failedPeers →
    let a : PeerAsk := { fep, pctx, pa, len, op := .land z }
    (e.asked = none → s.lbFits (columnOf q.core) (peerKeys (s.col (columnOf q.core)).epoch fep pa len) = true →
      exec (.landStep q n) s = .next ((s.send [(columnOf q.core, (s.col (columnOf q.core)).epoch)] e.poster.ctx
        e.poster.lnum (.peerObj a (e.writer q.core))).setHead q { e with asked := some a, reply := none })) ∧
    (∀ bs v', e.asked = some a → e.reply = some (some bs) → barScope (leNat bs) = 6 → barLand (leNat bs) z = some v' →
      exec (.landStep q n) s = .next (((s.dropPeer fep pa len).setHead q { e with
        lands := e.lands ++ [{ k := n, epoch := (s.col (columnOf q.core)).epoch, val := 0 }], asked := none, reply := none }).settle q))) ∧
  (∀ (s : State) (q : QRef) (e : Entry) (names : Nat), s.head q = some e → e.cmd = .fence names →
    (∀ k, k < 5 → k ≠ q.q → names.testBit k = true → ∀ x ∈ s.queue { core := q.core, q := k }, e.seq < x.seq) →
    exec (.yfenceRelease q) s = .next ((s.leave q e).settle q))

/-- Steps of the MX queues and of failed commands (11 R256-R266, 12 R273). A K-step adds its products to the whole result tile, in ascending order for
a loop of its own; a joint operation starts when its four entries at their heads agree and can act, and each ends if they disagree, parked or not; it ends when every core
has added every K-step, where each member lands on its barrier and its entry leaves, and it fails when an entry, parked or not, has stood 500 µs while
a partner is absent; a failed command ends its workgroup. That the operation begins once the postings are confirmed,
which no rollback takes back, and that a core keeps the operand bytes it has taken, is log entry 37's (DEDUCED). -/
def Obligations.MatrixStepsComplete : Prop :=
  (∀ (s t : State) (q : QRef) (e : Entry) (k : Nat) (x : KArgs) (bs : List Byte), s.head q = some e → e.able = true → q.q = 4 →
    s.kArgs q e k x →
    (x.shared = true → x.data = none → s.heldOff none x.a (aExtent x.ra) = false ∧ s.heldOff none x.b (bExtent x.rb) = false) →
    s.engHeld q.core (x.operands ++ accRows q.core x.ac (loopTM x.ra) (loopTN x.rb)) = false →
    s.engRead q.core .none (x.operands ++ if x.first then [] else accRows q.core x.ac (loopTM x.ra) (loopTN x.rb)) [] = (some bs, t) →
    let col := columnOf q.core
    let ab := x.data.getD (s.colRead col x.a (aExtent x.ra), s.colRead col x.b (bExtent x.rb))
    let r := kStepRows x.ra x.rb (fun i => (ab.1.getD i 0).toNat) (fun i => (ab.2.getD i 0).toNat) x.kept x.zero x.first
      fun i c => leNat (s.colRead col (acLoc q.core (x.ac + 1024 * i + 4 * c)) 4)
    let u := (t.engCommit q.core (accRows q.core x.ac (loopTM x.ra) (loopTN x.rb))
      (r.1.flatMap fun r => r.flatMap fun w => leBytes 4 w)).modGroup e.poster fun g => { g with mstat := g.mstat ||| r.2 }
    let u' : State := if x.shared = true ∧ x.data = none then
      { u with kdata := u.kdata ++ [{ core := q.core, seq := e.seq, k, a := ab.1, b := ab.2 }] } else u
    exec (.kStep q k) s = .next ((u'.setHead q
      { e with data := e.data ++ [{ k, epoch := (s.col col).epoch, val := 0 }] }).settle q)) ∧
  (∀ (s : State) (q : QRef) (e : Entry) (k off n : Nat), s.head q = some e → e.able = true → e.cmd = .mzero off n → k = e.data.length →
    k < n → s.holdsAll q e = true →
    exec (.mzeroLineStep q k) s = .next (((s.engCommit q.core [(.mem (acLoc q.core (off + 256 * k)) 0, 256)] (List.replicate 256 0)).setHead q
      { e with data := e.data ++ [{ k, epoch := (s.col (columnOf q.core)).epoch, val := 0 }] }).settle q)) ∧
  (∀ (s : State) (stand : Nat) (es : List Entry), es.length = 4 →
    (∀ m e, es[m]? = some e → s.memberHead stand m = some e ∧ e.failed = none ∧ e.joint = false ∧
      (s.col (4 * stand + m)).confirmed e.epoch = true) →
    ((∀ a, es.head? = some a → ∀ e ∈ es, jointAgrees a e = true) →
      (∀ m e, es[m]? = some e → e.parked = none ∧ s.holdsAll { core := (memberCores stand m).headD 0, q := 4 } e = true) → exec (.jointStart stand) s = .next
      (es.zipIdx.foldl (fun t p => t.keepHeld ((memberCores stand p.2).headD 0) p.1) (s.everyEntry fun x =>
        if es.any fun e => e.seq == x.seq then
          { x with joint := true, index := es.zipIdx.map fun p => { k := p.2, epoch := p.1.epoch, val := p.1.seq } } else x))) ∧
    ((∃ a e, es.head? = some a ∧ e ∈ es ∧ jointAgrees a e = false) → exec (.jointStart stand) s = .next (es.zipIdx.foldl
      (fun t p => t.fail { core := (memberCores stand p.2).headD 0, q := 4 } p.1 { cause := .jointMismatch, queue := 4 }) s))) ∧
  (∀ (s : State) (q : QRef) (e x : Entry), s.head q = some e → e.tag.isSome = true → e.joint = false → q.q = 4 →
    (∀ c ∈ clusterCores q.core, ∃ h, s.head { core := c, q := 4 } = some h ∧ h.seq = e.seq ∧ h.failed = none ∧ h.since + 2000000 ≤ s.now) →
    2000000 ≤ s.now → (∃ m, m < 4 ∧ s.memberHead (standOf q.core) m = none) →
    s.head { core := (clusterCores q.core).headD 0, q := 4 } = some x → exec (.jointMismatchTimeout q) s = .next (s.fail { core := (clusterCores q.core).headD 0, q := 4 } x
      { cause := .jointMismatch, queue := 4 })) ∧
  (∀ (s : State) (stand n : Nat) (T : Nat → State), T 0 = s →
    (∀ m, m < 4 → ∃ e ra rb b o, s.memberHead stand m = some e ∧ e.able = true ∧ e.joint = true ∧ e.cmd = .mloopj ra rb b o ∧ blkU b 3 = n ∧
      (∀ m', m' < 4 → ∀ c ∈ memberCores stand m', ∃ x, s.jointAt c (e.partner m') = some x ∧ x.data.length = n) ∧
      let q : QRef := { core := (memberCores stand m).headD 0, q := 4 }
      let leaves (t : State) : State := (memberCores stand m).foldl (fun t c => match t.head { core := c, q := 4 } with
        | some x => (t.leave { core := c, q := 4 } x).settle { core := c, q := 4 }
        | none => t) t
      (∀ bar, e.bar = some bar → ∀ p ∈ s.barPieces q e bar, ∃ l mt, p.1 = .mem l mt) ∧
      ((e.bar = none ∧ T (m + 1) = leaves (T m)) ∨
       (∃ bar bs v' u, e.bar = some bar ∧
        let ps := (T m).barPieces q e bar
        ps ≠ [] ∧ (∀ p ∈ ps, ∃ l mt, p.1 = .mem l mt) ∧ (T m).engHeld q.core ps = false ∧ (T m).engDrain q.core ps = false ∧
        (T m).engRead q.core .none ps [] = (some bs, u) ∧
        (∀ p ∈ ps, 2 ≤ barScope (leNat bs) ∧ storageOk q.core (barScope (leNat bs)) p.1 = true) ∧
        barLand (leNat bs) (16 * loopTM ra * loopTN rb) = some v' ∧
        let t := u.objPut (e.writer q.core) ps (leBytes 16 v')
        T (m + 1) = leaves (t.modMember stand m fun x => { x with lands := [{ k := 0, epoch := (t.col (columnOf q.core)).epoch, val := 0 }] })))) →
    exec (.jointCompletion stand) s = .next (T 4)) ∧
  (∀ (s : State) (q : QRef) (e : Entry) (f : FaultInfo) (w : Workgroup), (s.queue q).find? (fun e => e.failed.isSome) = some e →
    e.failed = some f → e.tag = none →
    let es := (s.clearTok e).queue q
    let u := (s.clearTok e).setQueue q (reheaded s.now es (es.filter fun x => x.seq != e.seq))
    let report := mkRecord 2 false e.poster q.core q.q e.iaddr e.mstep 0 f
    u.wgOf e.poster = some w →
    (w.ending = none → exec (.engineTermination q) s = .next ((u.endWg e.poster report).settle q)) ∧
    (w.ending ≠ none → exec (.engineTermination q) s = .next
      ((u.sendRecord (some (columnOf q.core)) e.poster.ctx e.poster.lnum report).settle q)))

/-- Steps of a column (05 R111-R117, 20 R341-R346): an epoch ends 128 ns after its start and is confirmed more than 100 ns after its end; a confirmed
entry of the landing buffer performs at its home, a reduction to DRAM in the write queue; a report of a stopped column is only counted, and of any
other rolls it back, and a circle on a tier reports every column whose cell of the floor plan it meets; a rolled-back column goes on in a new epoch; a
scrub ends and a clean line is fetched again. What the write of a failed peer reports is log entry 31's (DEDUCED). -/
def Obligations.ColumnStepsComplete : Prop :=
  (∀ (s : State) (c : Nat), c < 32 → (s.col c).rolling = false → (s.col c).start + 512 ≤ s.now →
    exec (.epochEnd c) s = .next (s.setCol c { s.col c with
      ended := (s.col c).ended ++ [((s.col c).epoch, (s.col c).start + 512)], epoch := (s.col c).epoch + 1
      start := (s.col c).start + 512, snaps := (s.col c).snaps ++ [s.snap c ((s.col c).epoch + 1)] })) ∧
  (∀ (s : State) (c e t : Nat) (rest : List (Nat × Nat)), (s.col c).ended = (e, t) :: rest → (s.col c).rolling = false →
    t + 400 < s.now → exec (.epochConfirmation c) s = .next (((s.setCol c { s.col c with
      ended := rest, undo := (s.col c).undo.filter fun u => e < u.epoch
      snaps := (s.col c).snaps.filter fun n => e < n.epoch }).enterDecks c e).confirmRelease c e)) ∧
  (∀ (s : State) (c : Nat) (e : LbEntry) (rest : List LbEntry), (s.col c).lb = e :: rest → (s.col c).confirmed e.epoch = true →
    let t := s.setCol c { s.col c with lb := rest }
    (∀ l bs, e.kind = .store l bs → t.drainHeld c l bs.length = false →
      exec (.landingBufferDrain c) s = .next (t.put l bs).reap) ∧
    (∀ op ty sc l v x m, e.kind = .red op ty sc l v x m → l.store = .dram →
      exec (.landingBufferDrain c) s = .next { t with wq := t.wq ++ [{ op, ty, sc, loc := l, operand := v, x, mark := m }] }) ∧
    (∀ op ty sc l v x m, e.kind = .red op ty sc l v x m → l.store ≠ .dram → t.redHeld c op ty m l = false →
      t.badAll l (tyBytes ty) = [] → t.injHits [(l, tyBytes ty)] = false → exec (.landingBufferDrain c) s = .next
        (t.put l (leBytes (tyBytes ty) (atomOp op ty (leNat (t.bytesAt l (tyBytes ty))) v.toNat))).reap) ∧
    (∀ ctx parent desc macros targets x, e.kind = .fork ctx parent desc macros targets x →
      exec (.landingBufferDrain c) s = .next (t.takeFork ctx parent { desc, macros, targets } x)) ∧
    (∀ ctx object, e.kind = .cancel ctx object → exec (.landingBufferDrain c) s = .next (t.cancelAt ctx object)) ∧
    (∀ ctx lnum k items l, e.kind = .spawn ctx lnum k items → t.launchOf ctx lnum = some l → l.cancelled = false →
      exec (.landingBufferDrain c) s = .next (t.modDeck ctx lnum k fun d => { d with
        reserved := d.reserved - items.length, items := d.items ++ items.map fun i => { i with at_ := t.now } }))) ∧
  (∀ (s : State) (c e ctx lnum k : Nat) (items : List Item) (x : LbEntry) (l : Launch), (s.col c).lb = [x] → x.epoch ≤ e →
    x.kind = .spawn ctx lnum k items → s.launchOf ctx lnum = some l → l.cancelled = false →
    s.enterDecks c e = (s.setCol c { s.col c with lb := [] }).modDeck ctx lnum k fun d => { d with
      reserved := d.reserved - items.length, items := d.items ++ items.map fun i => { i with at_ := s.now } }) ∧
  (∀ (s : State) (n : Nat) (p : OutPkt), s.out[n]? = some p → s.cleared p = true →
    (∀ q ∈ s.out.take n, (OutKind.stream q.kind == OutKind.stream p.kind) = true → s.cleared q = false) →
    let t : State := { s with out := s.out.eraseIdx n }
    (∀ c e, p.kind = .event c e → (∃ k ∈ s.ports.toList, k.link = .up) → e.op ≠ 0x86 → e.eseq = 0 → exec (.egressRelease n) s = .next (t.setChan c { t.chan c with
      eseq := (t.chan c).eseq + 1
      log := ((t.chan c).log ++ [{ e with eseq := (t.chan c).eseq + 1 }]).drop ((t.chan c).log.length + 1 - 4096) })) ∧
    (∀ f pctx pa bs x, p.kind = .peerWrite f pctx pa bs x →
      ((∃ k ∈ s.portsTo f, k.link = .up) → f ∉ s.failedPeers →
        exec (.egressRelease n) s = .next { t with peerWrites := t.peerWrites ++ [p] }) ∧
      (f ∈ s.failedPeers → exec (.egressRelease n) s = .next (t.sendRecord none p.ctx p.lnum (mkRecord 4 false x.r x.core 15 x.iaddr 0 x.tid
        { cause := .lostReduction, addr := pa, lanes := (x.lane.map fun l => 1#64 <<< l).getD 0 })))) ∧
    (∀ f, (∃ k ∈ s.portsTo f, k.link = .up) → f ∉ s.failedPeers →
      ((∃ pctx pa op ty arg new x, p.kind = .peerAtom f pctx pa op ty arg new x) ∨ (∃ a x, p.kind = .peerObj a x ∧ a.fep = f)) →
      exec (.egressRelease n) s = .next { t with peerSteps := t.peerSteps ++ [p] })) ∧
  (∀ (s : State) (tower x y r : Nat) (die : Die) (rows : List Nat),
    (die ≠ .dram → exec (.strikeReport (.circle tower die x y r rows)) s = .next
      { s with moves := (strikePlaces (tower % 2) die x y r).map (fun p => .event (.strikeReport p)) ++ s.moves }) ∧
    (die = .dram → exec (.strikeReport (.circle tower die x y r rows)) s = .next
      { s.count (tower % 2) 0 1 with scrubs := s.scrubs ++ rows.map fun row => (tower % 2, row, s.now + 200000) })) ∧
  (∀ (tower k x y r : Nat) (die : Die), tower < 2 → k < 16 → die ≠ .dram →
    ((.column (16 * tower + k)) ∈ strikePlaces tower die x y r ↔
      ∃ px py, 6500 * (cellOf k).1 ≤ px ∧ px ≤ 6500 * (cellOf k).1 + 6500 ∧ 6500 * (cellOf k).2 ≤ py ∧ py ≤ 6500 * (cellOf k).2 + 6500 ∧
        ((px : Int) - x) ^ 2 + ((py : Int) - y) ^ 2 ≤ (r : Int) ^ 2)) ∧
  (∀ (s : State) (c : Nat), c < 32 → let t := s.setCol c { s.col c with strk := (s.col c).strk + 1 }
    ((s.col c).gated = true ∨ (s.col c).rolling = true → exec (.strikeReport (.column c)) s = .next t) ∧
    ((s.col c).gated = false → (s.col c).rolling = false → exec (.strikeReport (.column c)) s = .next (t.rollback c))) ∧
  (∀ (s : State) (tower row : Nat), tower < 2 → exec (.strikeReport (.spine tower)) s = .next (s.count tower 1 1) ∧
    exec (.strikeReport (.dram tower row)) s = .next { s.count tower 0 1 with scrubs := s.scrubs ++ [(tower, row, s.now + 200000)] }) ∧
  (∀ (s : State) (c : Nat), (s.col c).rolling = true →
    let t := s.setCol c { s.col c with rolling := false, epoch := (s.col c).epoch + 1, start := s.now }
    exec (.rollbackResume c) s = .next (t.setCol c { t.col c with snaps := [t.snap c ((s.col c).epoch + 1)] })) ∧
  (∀ (s : State) (n : Nat), n < s.scrubs.length → exec (.scrubComplete n) s = .next { s with scrubs := s.scrubs.eraseIdx n }) ∧
  (∀ (s : State) (a : Nat), (a / 32 * 32, false) ∈ s.l2bad → exec (.l2Refetch ⟨.dram, a⟩) s = .next
    { s.count (locTower ⟨.dram, a⟩) 4 1 with l2bad := s.l2bad.erase (a / 32 * 32, false) })

/-- Steps of the dispatcher (06 R123, R133, R137, R139, 13 R287-R290, 12 R280-R282, 02 R40, 06 R124). The first front workgroup with an eligible core
is placed; a starved one chooses a victim; a workgroup whose groups all sleep, or one chosen for saving, is saved and later ready again; the Bucker
forms groups of 64 items, or of what has waited 2 µs; a bank held empty 10 µs returns to cache mode; a termination reports, with a record of every
participant, and clears the workgroup; a unit whose counter is zero completes. When what is saved, in which slot, and what a saved group keeps is the
model's choice (log entries 28, 40, 49), and so is the status a cancelled unit's parts take (log entry 26). -/
def Obligations.DispatchStepsComplete : Prop :=
  (∀ (s : State) (c : Cand) (core : Nat) (f : Fit), s.pstate = .d0 → s.nextPlacement = some (c, core, f) →
    exec (.placement core) s = .next (s.place c core f)) ∧
  (∀ (s : State) (c : Cand) (cs : List Cand) (w : Workgroup), (∀ v ∈ s.wgs, v.saving = true → (s.ctx v.ctx).held = true) →
    (s.fronts.filter fun c => s.starved c) = c :: cs → s.victim c = some w →
    exec .preemptionVictimChoice s = .next (s.everyWg (fun v => v.isOf w.ctx w.lnum w.wg) fun v => { v with saving := true })) ∧
  (∀ (s t : State) (r : WRef) (w : Workgroup) (i : Instr) (n : Nat) (asleep : Bool), s.findWg r = some w → w.groups ≠ [] →
    s.saveReady w = true → w.retryAt ≤ s.now →
    ((i = .swapOut r ∧ asleep = true ∧ w.saving = false ∧ (∀ g ∈ w.groups, g.asleep = true) ∧ s.cmdsOf w = []) ∨
     (i = .workgroupSave r ∧ asleep = false ∧ w.saving = true)) →
    s.freeSlot w = some n → s.dispWrite w.ctx (w.desc.save + n * saveSlot w.desc) (s.wgRecord w) = .ok t →
    let kept : Workgroup := { w with
      saving := asleep, slot := some n, placedAt := s.now, retryAt := 0, vfMark := none, cmds := s.queuedOf w
      groups := w.groups.map fun g => { g with
        wait := match g.wait with | .object .. => .none | x => x
        pipes := [], lines := [], xf := [], ready := [], got := [], wgot := [], fgot := [], met := {}, blocked := []
        waitCnt := g.waitCnt / 4000 * 4000, runCnt := g.runCnt / 4000000 * 4000000 }
      sScr := cellsOf s.sram w.scratch.1.addr w.scrSize
      sBs := if w.desc.mx then cellsOf (s.atHorizon (columnOf w.core)).bs (bsLoc w.core 0).addr 0x200000 else []
      sAc := if w.desc.mx then cellsOf (s.atHorizon (columnOf w.core)).ac (acLoc w.core 0).addr 0x80000 else [] }
    exec i s = .next ((({ t with away := t.away ++ [kept] } : State).discard
      fun e => w.isOf e.poster.ctx e.poster.lnum e.poster.wg).dropWg w)) ∧
  (∀ (s t : State) (r : WRef) (w : Workgroup) (g : Machine.Group) (gs : List Machine.Group),
    (s.away.find? fun w => w.isOf r.ctx r.lnum r.wg && w.saving && w.retryAt ≤ s.now) = some w → w.groups = g :: gs → s.awaited w g = some (true, t) →
    exec (.swapResume r) s = .next { t with
      away := t.away.map fun v => if v.isOf r.ctx r.lnum r.wg then { v with saving := false, placedAt := s.now } else v }) ∧
  (∀ (s : State) (cl bank t : Nat), cl < 64 → (s.cluster cl).modes[bank]?.getD .cache = .scratch (some t) → t + 40000 ≤ s.now →
    s.bankUsed cl bank = false → exec (.bankReturnTimeout cl bank) s = .next (s.releaseBank cl bank)) ∧
  (∀ (s : State) (ctx lnum k : Nat) (d : Deck), s.deckOf ctx lnum k = some d →
    (64 ≤ d.items.length → exec (.buckerFullGroup ctx lnum k) s = .next (s.form ctx lnum k 64)) ∧
    (∀ x rest, d.items = x :: rest → d.items.length < 64 → x.at_ + 8000 ≤ s.now →
      exec (.buckerPartialGroup ctx lnum k) s = .next (s.form ctx lnum k d.items.length))) ∧
  (∀ (s : State) (r : WRef) (w : Workgroup) (e : Ending), s.findWg r = some w → w.ending = some e →
    (s.col (columnOf w.core)).confirmed e.epoch = true → (s.col (columnOf w.core)).rolling = false →
    (∀ g ∈ w.groups, g.retired.isSome = true ∨ g.midway = false) →
    exec (.workgroupTermination r) s = .next (((((e.records.foldl (fun t k => t.sendRecord none r.ctx r.lnum k) s).everyWg
        (fun v => v.isOf r.ctx r.lnum r.wg) fun v => { v with groups := [], ending := none, saving := false }).modLaunch r.ctx r.lnum
        fun l => { l with lost := true }).discardWork fun x => w.isOf x.poster.ctx x.poster.lnum x.poster.wg).reap)) ∧
  (∀ (s t : State) (ctx object : Nat),
    (∀ l, (s.launches.find? fun l => l.ctx == ctx && l.desc.compl == object && s.launchDue l) = some l →
      s.advanceObject l.ctx l.lnum l.desc.compl = some (true, t) →
      exec (.unitCompletion ctx object) s = .next (((t.modLaunch l.ctx l.lnum fun x =>
        { x with status := s.launchStatus l, finalCount := 0 }).done l.ctx .launch l.desc.compl (s.launchStatus l) l.tag).tellDependents
          { l with status := s.launchStatus l })) ∧
    (∀ u, (s.launches.find? fun l => l.ctx == ctx && l.desc.compl == object && s.launchDue l) = none →
      (s.units.find? fun u => u.ctx == ctx && u.object == object && s.unitDue u) = some u → u.kind ≠ .job →
      s.advanceObject u.ctx 0 u.object = some (true, t) →
      exec (.unitCompletion ctx object) s = .next (({ t with
        units := t.units.map fun x => if x.ctx == u.ctx && x.kind == u.kind && x.object == u.object then
          { x with status := s.unitStatus u } else x } : State).done u.ctx u.kind u.object (s.unitStatus u) tagNone)))

/-- The delivery of a fault that waits for its trap table entry, and the watchdog's three causes (12 R274, R279): the group enters its handler with
its frame written, where the table lies here or at a peer that has answered, and a fault that a host resumes parks it once the landing buffer has room
for the record (05 R113). A counted wait of WAITL x 100 µs, RUNL ms without one, and 500 ms of a wait on a peer that is cut off against 500 ms. In
which stalls the run count fires is log entry 64's (DESIGN CHOICE), and what the counts take in log entry 41's. -/
def Obligations.DeliveryAndWatchdogComplete : Prop :=
  (∀ (s : State) (r : GRef) (w : Workgroup) (g : Machine.Group) (f : FaultInfo),
    s.stands r w g → g.wait = .fault f →
    (f.cause.resumable = true → s.recRoom (columnOf w.core) = true → exec (.trapDelivery r) s = .next ((s.modGroup r fun g =>
      { g with wait := .parked f, xf := [], got := [], wgot := [], fgot := [], met := {}, blocked := []
               lastEpoch := (s.col (columnOf w.core)).epoch }).sendRecord (some (columnOf w.core)) r.ctx r.lnum (groupRecord w g r true f))) ∧
    (f.cause.resumable = false → g.handler = false → g.trapb.getLsbD 0 = true →
    (∀ l mt entry, s.resolve r.ctx w.core g.xf (bits g.trapb.toNat 47 11 * 2048 + 8 * f.cause.code) 8 .read = .ok [(.mem l mt, 8)] →
      s.readable (some (columnOf w.core)) l 8 → leNat (s.colRead (columnOf w.core) l 8) = entry → entry ≠ 0 →
      exec (.trapDelivery r) s = .next ((s.look (columnOf w.core) [(l, 8)]).modGroup r fun g =>
        { g with handler := true, pc := BitVec.ofNat 64 entry, tpc := f.resume, tmap := f.lanes, taddr := BitVec.ofNat 64 f.addr, taux := f.aux
                 tcause := BitVec.ofNat 32 (f.queue % 256 * 65536 + f.rstep % 256 * 256 + f.cause.code)
                 mcall := none, rstep := 0, entry := true, seq := false, paired := false
                 wait := .none, xf := [], got := [], wgot := [], fgot := [], met := {}, blocked := [], waitCnt := 0, runCnt := 0, hold := 0
                 nextAt := max g.nextAt (s.now + 1), lastEpoch := (s.col (columnOf w.core)).epoch })) ∧
    (∀ fep pctx pa mt x bs, s.resolve r.ctx w.core g.xf (bits g.trapb.toNat 47 11 * 2048 + 8 * f.cause.code) 8 .read =
        .ok [(.peer fep pctx pa mt, 8)] →
      (g.got.find? fun x => x.ask == { fep, pctx, pa, len := 8, op := .read }) = some x → x.bytes = some bs → leNat bs ≠ 0 →
      exec (.trapDelivery r) s = .next (s.modGroup r fun g =>
        { g.enter f (BitVec.ofNat 64 (leNat bs)) s.now with lastEpoch := (s.col (columnOf w.core)).epoch })))) ∧
  (∀ (s : State) (r : GRef) (w : Workgroup) (g : Machine.Group), s.stands r w g → w.ending = none → w.toFill = 0 →
    (g.wait.counted = true → bits g.wdog.toNat 15 0 ≠ 0 → bits g.wdog.toNat 15 0 * 400000 ≤ g.waitCnt →
      TakesTrapAt (.watchdogWait r) s s r w g .watchdogWait 0) ∧
    (g.wait.counted = true → 2000000000 ≤ g.hold → TakesTrapAt (.watchdogPeer r) s s r w g .watchdogPeer 0) ∧
    (g.wait.stalls = true → bits g.wdog.toNat 31 16 ≠ 0 → bits g.wdog.toNat 31 16 * 4000000 ≤ g.runCnt →
      TakesTrapAt (.watchdogRun r) s s r w g .watchdogRun 0))

/-- Power, droop and replay steps (13 R293-R303, 20 R348). A market clear grants tokens from the pool by bids and sets every column's rate and limits;
a balance measurement moves limits and sets ballast; a requested gate takes place once its core or column is empty and loses the stores; an idle
device goes to the lowest state its TOL admits, a command wakes it and D0 follows; a detector trip puts a column into droop mode and 2 µs clear end
it; a replay counts, and the sixteenth within 1 µs trips. What the prediction of a gate's current is, and when the limit moves for it, is the model's
choice (DESIGN CHOICE, log entry 29), and so are what idleness and the low states take in (log entry 30) and where the readings come from (log entry
17); what a change of a column's clock makes of the times left of its groups is log entry 77's (DEDUCED). -/
def Obligations.PowerStepsComplete : Prop :=
  (∀ (s : State) (rs : List PowerReading), s.nextClear ≤ s.now →
    let f := (readingOf rs 32 0).getD s.reserve
    let gs := ramped s.power.ramp s.prevTotal (grantsOf (1000 * s.power.cap - f) s.bids)
    ∃ t, exec (.marketClear rs) s = .next t ∧ t.prevTotal = gs.foldl (· + ·) 0 ∧ t.reserve = f ∧ t.nextClear = s.nextClear + 40000 ∧
      (∀ c, c < 32 → (t.col c).grant = gs.getD c 0 ∧ (t.col c).wNum = ((s.col c).rate rs c).1 ∧ (t.col c).wDen = ((s.col c).rate rs c).2 ∧
        (t.col c).limL + (t.col c).limU =
          min 256 (max 8 (gs.getD c 0 * ((s.col c).rate rs c).2 / ((s.col c).rate rs c).1)) ∧
        (t.col c).limL ≤ (t.col c).limU ∧ (t.col c).limU ≤ (t.col c).limL + 1 ∧ (t.col c).occ = 0 ∧ (t.col c).shed = false) ∧
      ∀ c, (t.core c).gate = if (s.core c).gate = .closed then .open else (s.core c).gate) ∧
  (∀ (s : State) (rs : List PowerReading), s.nextBalance ≤ s.now →
    ∃ t, exec (.balanceMeasurement rs) s = .next t ∧ t.wgs = s.wgs ∧ t.cores = s.cores ∧ t.nextBalance = s.nextBalance + 4000 ∧
    (∀ c l u, c < 32 → readingOf rs c 0 = some l → readingOf rs c 1 = some u →
      ((t.col c).ballast.1 = true ↔ 10 * l < 9 * u) ∧ ((t.col c).ballast.2 = true ↔ 10 * u < 9 * l) ∧
      ((t.col c).excursion = true ↔ 13 * min l u < 9 * max l u) ∧ (t.col c).limL + (t.col c).limU = (s.col c).limL + (s.col c).limU ∧
      (t.col c).cur = some (l, u) ∧ (t.col c).curOf = s.residents c ∧ (t.col c).gatedOf = s.gatedIn c ∧
      let out := 10 * min l u < 9 * max l u
      let up := s.gateWaits c = true ∨ s.balanceRefuses c false = true
      let down := s.balanceRefuses c true = true
      (¬out → ¬up → ¬down → (t.col c).limL = ((s.col c).limL + (s.col c).limU) / 2) ∧
      (down → ¬up → (s.col c).limU ≠ 0 → (t.col c).limL = (s.col c).limL + 1) ∧
      (up → ¬down → (s.col c).limL ≠ 0 → (t.col c).limU = (s.col c).limU + 1) ∧
      (up ∧ down ∨ out ∧ ¬up ∧ ¬down → (t.col c).limL = (s.col c).limL ∧ (t.col c).limU = (s.col c).limU)) ∧
    (∀ c, c < 32 → readingOf rs c 0 = none → t.col c = s.col c)) ∧
  (∀ (s : State) (core : Nat), core < 256 → isUpper core = true → (s.core core).gate = .requested →
    (s.col (columnOf core)).rolling = false → s.coreEmpty core = true → (s.core (lowerOf core)).up.entries = [] →
    (s.core (lowerOf core)).down.entries = [] →
    (∀ l u, s.predicted (columnOf core) = some (l, u) →
      10 * min l (u - Config.gateCurrent core s.now) ≥ 9 * max l (u - Config.gateCurrent core s.now)) →
    exec (.coreGate core) s = .next ((s.setCore core { s.core core with gate := .gated }).loseStores core)) ∧
  (∀ (s : State) (c : Nat), c < 32 → (s.col c).gateReq = true → (s.col c).gated = false → (s.col c).rolling = false →
    (∀ n ∈ coresOf c, s.coreEmpty n = true ∧ s.fifosEmpty n = true ∧ ∀ q ∈ (s.core n).y.toList, q = []) →
    s.admitted (fun l _ => locColumn l == some c) = false →
    let t := (coresOf c).foldl (fun t n => if isUpper n then (t.setCore n { t.core n with gate := .gated }).loseStores n else t)
      ((clustersOfCol c).foldl (fun t n => t.setCluster n { t.cluster n with copies := [] }) s)
    exec (.columnGate c) s = .next (t.setCol c { t.col c with gated := true })) ∧
  (∀ (s : State) (core t : Nat), (s.core core).gate = .waking t → t ≤ s.now →
    exec (.ungateReady core) s = .next (s.setCore core { s.core core with gate := .open })) ∧
  (∀ (s : State) (t : Nat), s.idleSince = some t → s.pstate = .d0 → s.idle = true → t + 40000 ≤ s.now → 2 ≤ s.power.tol →
    (s.power.tol < 200 → exec .idleEntry s = .next { s with pstate := .d1 }) ∧
    (200 ≤ s.power.tol → s.power.tol < 20000 → exec .idleEntry s = .next { s.loseBelowD1 false with pstate := .d2 }) ∧
    (20000 ≤ s.power.tol → exec .idleEntry s = .next { s.loseBelowD1 true with pstate := .d3 })) ∧
  (∀ (s : State) (p : Power) (t : Nat), s.pstate = p → (p = .d1 ∧ t = 8000 ∨ p = .d2 ∧ t = 800000 ∨ p = .d3 ∧ t = 80000000) →
    (∀ a, s.called = some a → exec .deviceWake s = .next { s with pstate := .waking (a + t), called := none }) ∧
    (s.called = none → (∃ c ∈ s.chans.toList, c.queue ≠ []) →
      exec .deviceWake s = .next { s with pstate := .waking (s.now + t), called := none })) ∧
  (∀ (s : State) (t : Nat), s.pstate = .waking t → t ≤ s.now → ∃ u, exec .wakeComplete s = .next u ∧
    { u with clusters := s.clusters, counters := s.counters, injc := s.injc } = { s with pstate := .d0, idleSince := none } ∧
    ∀ k, k < 64 → { u.cluster k with copies := [] } = { s.cluster k with copies := [] } ∧
      (∀ p ∈ (s.cluster k).pins, ∃ c ∈ (u.cluster k).copies, c.line = p.line) ∧ ∀ c ∈ (s.cluster k).copies, c ∈ (u.cluster k).copies) ∧
  (∀ (s : State) (c : Nat), c < 32 →
    let t := (if (s.col c).droop then s else s.rescale c true).setCol c { s.col c with
      droop := true, clearAt := some s.now, shed := (s.col c).shed || !(s.col c).droop }
    ((s.col c).droop = true ∨ s.power.droop = 0 → exec (.droopTrip c) s = .next t) ∧
    ((s.col c).droop = false → s.power.droop ≠ 0 → exec (.droopTrip c) s = .next
      (t.send [] 64 0 (mkEvent 64 0x85 0 tagNone 0 (leBytes 1 c ++ leBytes 8 (s.now / 4)))))) ∧
  (∀ (s : State) (c t : Nat), (s.col c).clearAt = some t → (s.col c).droop = true → (s.col c).excursion = false → t + 8000 ≤ s.now →
    exec (.droopExit c) s = .next ((s.rescale c false).setCol c { s.col c with droop := false, clearAt := none })) ∧
  (∀ (g : Machine.Group) (now : Nat), now ≤ g.nextAt → (g.rescaled now true).nextAt - now = 2 * (g.nextAt - now) ∧
    2 * ((g.rescaled now false).nextAt - now) - (g.nextAt - now) ≤ 1 ∧ g.nextAt - now ≤ 2 * ((g.rescaled now false).nextAt - now)) ∧
  (∀ (s : State) (core : Nat), core < 256 →
    let recent := ((s.core core).replays.filter fun t => s.now < t + 4000) ++ [s.now]
    let t := s.setCore core { s.core core with tdrep := (s.core core).tdrep + 1, replays := recent }
    (recent.length < 16 → exec (.timingReplay core) s = .next t) ∧
    (16 ≤ recent.length → exec (.timingReplay core) s = .next (t.droopIn (columnOf core))))

/-- Peer traffic and links (05 R102, R118, R119, 21 R359, R362-R365). A peer's access is admitted by the peer table of the context it names and
performs as a port step, an object's step among them, or is refused, as is one outside DRAM; a refusal loses a write with a record, an acknowledgement
ends one, and with it the copies of its lines go, as they do when an atomic or an object's step that nobody waits for any more is done; a copy expires after 2 µs; a peer fails when every port to it has been in recovery for 500 ms; a port sheds lanes, retrains, tries one step
up after 60 s without error, recovers at its full width before 500 ms have passed, or is abandoned then; a connection that comes back sends the
channel's two sequence numbers (R359). Which endpoints a port reaches is told from outside (DESIGN CHOICE, log entry 54), so a peer that no port
reaches fails at once; the order in which a peer table is searched is log entry 44's (DEDUCED), that no recovery
succeeds after 500 ms log entry 76's and when copies of a written line go log entry 75's (both DEDUCED). -/
def Obligations.PeerAndLinkStepsComplete : Prop :=
  (∀ (s u : State) (a : PeerAccess) (adm : Bool), s.admitsFrom a.ctx a.fep = some (adm, u) →
    let l : Loc := ⟨.dram, a.pa⟩
    let done (u : State) (ok : Bool) (bs : List Byte) : State := u.send [] a.ctx 0 (.peerReply a.fep a.tag ok bs)
    (a.op = .ask → exec (.peerAccess a) s = .next (done u (adm && decide (a.pa + max 1 a.len ≤ dramEnd)) [])) ∧
    (∀ bs, a.op = .write bs → adm = true → a.pa + max 1 bs.length ≤ dramEnd → u.heldOff none l bs.length = false →
      exec (.peerAccess a) s = .next (done (u.put l bs) true [])) ∧
    (a.op = .read → adm = true → a.pa + max 1 a.len ≤ dramEnd → u.readable none l a.len →
      exec (.peerAccess a) s = .next (done u true (u.bytesAt l a.len))) ∧
    (∀ op ty arg new v, a.op = .atomic op ty arg new → adm = true → a.pa + tyBytes ty ≤ dramEnd →
      u.readable none l (tyBytes ty) → atomNew op ty (leNat (u.bytesAt l (tyBytes ty))) arg new = some v →
      exec (.peerAccess a) s = .next (done (u.put l (leBytes (tyBytes ty) v)) true (u.bytesAt l (tyBytes ty)))) ∧
    (∀ n v', adm = true → a.pa + 16 ≤ dramEnd → u.readable none l 16 → barScope (leNat (u.bytesAt l 16)) = 6 →
      (a.op = .arrive n ∧ n < 2 ^ 31 ∧ barArrive (leNat (u.bytesAt l 16)) n = some v' ∨
       a.op = .land n ∧ barLand (leNat (u.bytesAt l 16)) n = some v') →
      exec (.peerAccess a) s = .next (done (u.put l (leBytes 16 v')) true (u.bytesAt l 16))) ∧
    (let v := leNat (u.bytesAt l 32)
     a.op = .release → adm = true → a.pa + 32 ≤ dramEnd → u.readable none l 32 → ringN v ≠ 0 → ringR v ≠ ringW v →
      exec (.peerAccess a) s = .next (done (u.put l (leBytes 32 (v % 2 ^ 224 + (ringR v + 1) % ringQ v * 2 ^ 224))) true (u.bytesAt l 32))) ∧
    (∀ up n, let v := leNat (u.bytesAt l 8)
      a.op = .semaphore up n → adm = true → a.pa + 8 ≤ dramEnd → u.readable none l 8 → semScope v = 6 → n < 2 ^ 31 →
      (up = true → semCount v + n < 2 ^ 31) → (up = false → n ≤ semCount v) →
      exec (.peerAccess a) s = .next (done (u.put l (leBytes 8 (v / 2 ^ 32 * 2 ^ 32 + if up then semCount v + n else semCount v - n))) true
        (u.bytesAt l 8))) ∧
    (∀ n, let v := leNat (u.bytesAt l 16)
      a.op = .add n → adm = true → a.pa + 16 ≤ dramEnd → u.readable none l 16 → bytesFit (barBytes v + n) = true →
      exec (.peerAccess a) s = .next (done (u.put l (leBytes 16 (barWith v (barPhase v) (barLeft v) (barBytes v + n)))) true (u.bytesAt l 16))) ∧
    (∀ seen bar, let v := leNat (u.bytesAt l 32)
      let b := leNat (u.bytesAt ⟨.dram, bar⟩ 16)
      a.op = .fill seen (some bar) → adm = true → a.pa + 32 ≤ dramEnd → bar + 16 ≤ dramEnd → u.readable none l 32 →
      u.readable none ⟨.dram, bar⟩ 16 → v % 2 ^ 224 = seen % 2 ^ 224 → ringN v ≠ 0 → ringUsed v < ringN v → bytesFit (barBytes b + ringSize v) = true →
      exec (.peerAccess a) s = .next (done ((u.put l (leBytes 32
        (bits v 255 224 * 2 ^ 224 + (ringW v + 1) % ringQ v * 2 ^ 192 + v % 2 ^ 192))).put ⟨.dram, bar⟩
          (leBytes 16 (barWith b (barPhase b) (barLeft b) (barBytes b + ringSize v)))) true (u.bytesAt l 32 ++ u.bytesAt ⟨.dram, bar⟩ 16))) ∧
    (adm = false ∨ dramEnd ≤ a.pa → exec (.peerAccess a) s = .next (done u false []))) ∧
  (∀ (s : State) (ctx fep : Nat), ctx < 64 → (s.ctx ctx).valid = true → (s.ctx ctx).peern ≠ 0 →
    s.readable none ⟨.dram, (s.ctx ctx).peert⟩ (16 * ((s.ctx ctx).peern + 1)) →
    s.admitsFrom ctx fep = some (decide (∃ i, i ≤ (s.ctx ctx).peern ∧
      (leNat (s.bytesAt ⟨.dram, (s.ctx ctx).peert + 16 * i⟩ 16)).testBit 63 = true ∧
      bits (leNat (s.bytesAt ⟨.dram, (s.ctx ctx).peert + 16 * i⟩ 16)) 31 0 = fep), s)) ∧
  (∀ (s : State) (n : Nat) (p : OutPkt) (rec : BitVec 512), s.peerWrites[n]? = some p → lostPeerWrite p.kind = some rec →
    exec (.peerRefusalReply n) s = .next (({ s with peerWrites := s.peerWrites.eraseIdx n } : State).sendRecord none p.ctx p.lnum rec)) ∧
  (∀ (s : State) (n : Nat) (r : GRef) (w : Workgroup) (g : Machine.Group) (k : Nat) (q : AtomReq) (a : AtomLane) (t : State),
    s.peerWrites.length ≤ n → s.stands r w g →
    (s.peerReads[n - s.peerWrites.length]? = some (.asked r k) → s.peerReply r k none = some t → exec (.peerRefusalReply n) s = .next t) ∧
    (s.peerReads[n - s.peerWrites.length]? = some (.atomic r k) → g.wait = .atomic q → (q.alive g.live).lanes[k]? = some a →
      s.atomicPerform r k [] = some t → exec (.peerRefusalReply n) s = .next t)) ∧
  (∀ (s : State) (r : GRef) (w : Workgroup) (g : Machine.Group) (k n lane part fep pctx pa len : Nat), s.group? r = some (w, g) →
    g.pendAsks[k]? = some (n, lane, part, .there fep pctx pa len) →
    (fep ∈ s.failedPeers ∨ s.peerHeld (columnOf w.core) fep pa len = false) →
    s.peerReply r ((s.questions r w g).length + k) none = some (s.modGroup r fun g => { g with pend := g.pend.zipIdx.map fun (p, i) =>
      if i == n then { p with lanes := p.lanes.map fun v => if v.1 == lane then (v.1, v.2.answered part none) else v } else p })) ∧
  (∀ (s : State) (n : Nat) (p : OutPkt) (fep pctx pa : Nat) (bs : List Byte) (x : Writer), s.peerWrites[n]? = some p →
    p.kind = .peerWrite fep pctx pa bs x → exec (.peerWriteAck n) s = .next { s with
      peerWrites := s.peerWrites.eraseIdx n
      peerCopies := s.peerCopies.filter fun c => !(c.fep == fep && pa / 256 ≤ c.line && c.line ≤ (pa + bs.length - 1) / 256) }) ∧
  (∀ (s : State) (n : Nat) (p : OutPkt), s.peerSteps[n]? = some p → s.awaitsAnswer p.kind = false →
    exec (.peerWriteAck (s.peerWrites.length + n)) s = .next (({ s with peerSteps := s.peerSteps.eraseIdx n } : State).dropFor p.kind)) ∧
  (∀ (s : State) (n : Nat) (c : PeerCopy), s.peerCopies[n]? = some c → c.at_ + 8000 ≤ s.now →
    exec (.peerCopyExpiry n) s = .next { s with peerCopies := s.peerCopies.eraseIdx n }) ∧
  (∀ (s : State) (fep : Nat), fep ∉ s.failedPeers → (∀ p ∈ s.portsTo fep, p.lost s.now = true) →
    exec (.peerFailed fep) s = .next ((s.peerWrites.filter fun p => OutKind.fep p.kind == some fep).foldl (fun t p => t.losePeerWrite p)
      { s with failedPeers := s.failedPeers ++ [fep]
               peerWrites := s.peerWrites.filter fun p => !(OutKind.fep p.kind == some fep)
               peerSteps := s.peerSteps.filter fun p => !(OutKind.fep p.kind == some fep) })) ∧
  (∀ (s : State) (n : Nat), n < 16 → (s.port n).link = .up →
    (2 < (s.port n).lanes → exec (.laneShed n ((s.port n).lanes / 2)) s = .next
      (s.setPort n { s.port n with lanes := (s.port n).lanes / 2, link := .retraining })) ∧
    ((s.port n).lanes = 2 → exec (.laneShed n 0) s = .next (s.setPort n { s.port n with link := .recovery s.now })) ∧
    ((s.port n).mode = 0 → (s.port n).lanes < 8 → (s.port n).quietSince + 240000000000 ≤ s.now → ∀ holds,
      exec (.upshiftTry n holds) s = .next (s.setPort n { s.port n with
        lanes := if holds then 2 * (s.port n).lanes else (s.port n).lanes, link := .retraining }))) ∧
  (∀ (s : State) (n : Nat), (s.port n).link = .retraining →
    exec (.retrainComplete n) s = .next (s.setPort n { s.port n with link := .up, quietSince := s.now })) ∧
  (∀ (s : State) (n t : Nat), (s.port n).link = .recovery t →
    (s.now < t + 2000000000 → exec (.linkRecoverySuccess n) s = .next { s.setPort n { s.port n with
      link := .up, lanes := if (s.port n).mode = 0 then 8 else (s.port n).mode, quietSince := s.now } with
        failedPeers := s.failedPeers.filter fun f => !(s.port n).reaches f }) ∧
    (t + 2000000000 ≤ s.now → exec (.linkRecoveryAbandon n) s = .next (s.setPort n { s.port n with link := .down }))) ∧
  (∀ (s : State) (c : Nat), c < 65 → exec (.connectionReestablished c) s = .next (s.send [] c 0
    (mkEvent c 0x86 0 tagNone 0 (leBytes 4 (s.chan c).last.toNat ++ leBytes 4 (s.chan c).eseq.toNat))))

/-- Host accesses to memory (21 R356, R357). A write and a read are cut at 256-byte lines, one port step a line; the first step follows at once
where nothing holds it off, unless the schedule takes the access's steps one by one (DESIGN CHOICE, log entry 59); the last step answers status 0 or
DATA. The control region is read on the management channel, and a write there is accepted. -/
def Obligations.HostAccessesComplete : Prop :=
  (∀ (s : State) (p : Packet), p.ch.toNat < 64 → s.performs p (9 ≤ p.payload.length ∧ p.payload.length ≤ 4104) false →
    (∀ l n rest data, (s.chan p.ch.toNat).prog = some { todo := (l, n) :: rest, data } → s.heldOff none l n = false →
      exec (.writeVa p) s = .next (s.lineWritten p l n rest data)) ∧
    (∀ ls t l n rest, (s.ctx p.ch.toNat).valid = true → (s.chan p.ch.toNat).prog = none →
      s.hostRange p.ch.toNat .write (cut4k (leNat (p.payload.take 8)) (p.payload.length - 8)) = .ok (ls, t) →
      cutLines ls = (l, n) :: rest → t.split = false → (t.begun p ls (p.payload.drop 8)).heldOff none l n = false →
      exec (.writeVa p) s = .next ((t.begun p ls (p.payload.drop 8)).lineWritten p l n rest (p.payload.drop 8)))) ∧
  (∀ (s : State) (p : Packet), p.ch.toNat ≤ 64 → s.performs p (9 ≤ p.payload.length ∧ p.payload.length ≤ 4104) false →
    let pa := leNat (p.payload.take 8)
    let n := p.payload.length - 8
    let u := s.begun p [(⟨.dram, pa⟩, n)] (p.payload.drop 8)
    (inControl pa n = true → p.ch = 64 → exec (.writePa p) s = .next (s.status p 0)) ∧
    (∀ l k rest data, inControl pa n = false → (s.chan p.ch.toNat).prog = some { todo := (l, k) :: rest, data } →
      s.heldOff none l k = false → exec (.writePa p) s = .next (s.lineWritten p l k rest data)) ∧
    (∀ l k rest, pa + n ≤ dramEnd → (s.chan p.ch.toNat).prog = none → cutLines [(⟨.dram, pa⟩, n)] = (l, k) :: rest → s.split = false →
      u.heldOff none l k = false → exec (.writePa p) s = .next (u.lineWritten p l k rest (p.payload.drop 8)))) ∧
  (∀ (s : State) (p : Packet), p.ch.toNat < 64 → s.performs p (p.payload.length = 12) false →
    let n := leNat ((p.payload.drop 8).take 4)
    1 ≤ n → n ≤ 4096 →
    (∀ l k rest data, (s.chan p.ch.toNat).prog = some { todo := (l, k) :: rest, data } →
      s.readable none l k → exec (.readVa p) s = .next (s.lineRead p l k rest data)) ∧
    (∀ ls t l k rest, (s.ctx p.ch.toNat).valid = true → (s.chan p.ch.toNat).prog = none →
      s.hostRange p.ch.toNat .read (cut4k (leNat (p.payload.take 8)) n) = .ok (ls, t) → cutLines ls = (l, k) :: rest →
      t.split = false → (t.begun p ls []).readable none l k → exec (.readVa p) s = .next ((t.begun p ls []).lineRead p l k rest []))) ∧
  (∀ (s : State) (p : Packet), p.ch.toNat ≤ 64 → s.performs p (p.payload.length = 12) false →
    let pa := leNat (p.payload.take 8)
    let n := leNat ((p.payload.drop 8).take 4)
    let u := s.begun p [(⟨.dram, pa⟩, n)] []
    1 ≤ n → n ≤ 4096 →
    (inControl pa n = true → p.ch = 64 → exec (.readPa p) s = .next (({ s with free := s.free + 1 } : State).answer p 0x82 0
      ((List.range n).map fun i => s.controlByte (pa + i)))) ∧
    (∀ l k rest data, inControl pa n = false → (s.chan p.ch.toNat).prog = some { todo := (l, k) :: rest, data } →
      s.readable none l k → exec (.readPa p) s = .next (s.lineRead p l k rest data)) ∧
    (∀ l k rest, pa + n ≤ dramEnd → (s.chan p.ch.toNat).prog = none → cutLines [(⟨.dram, pa⟩, n)] = (l, k) :: rest → s.split = false →
      u.readable none l k → exec (.readPa p) s = .next (u.lineRead p l k rest [])))

/-- The commands of a context's channel (21 R357-R361, R373, 01 R26, R30, 12 R280). Each answers with its TAG, status 0 where it is accepted: LAUNCH
once its descriptor, tables and graph block pass; RESUME reissues the agent its record names; CANCEL cancels the unit its object names; INVAL answers
when it has completed; CTXSAVE, CTXRUN and CTXSET act on the context; SEQQUERY answers with the two sequence numbers and sends again what the host has
not received, and leaves what its channel is about. The payloads' layouts are log entry 16's (DESIGN CHOICE); when a LAUNCH reads its tables, what
CTXSAVE and CTXDESC set, which units a launch joins, the bits of an INVAL's range, what an invalidation waits for, and that SEQQUERY performs at once
are log entries 22, 23, 24, 9, 55 and 68's. -/
def Obligations.ContextCommandsComplete : Prop :=
  (∀ (s t : State) (p : Packet) (k : Checked), p.ch.toNat < 64 → s.performs p (p.payload.length = 160) false →
    let c := p.ch.toNat
    let g := leNat (p.payload.take 32)
    let b := graphBlock g
    (s.ctx c).valid = true → descOk false (p.payload.drop 32) = true →
    readLaunch (State.portRead c) (p.payload.drop 32) s = .ok (some k, t) → s.graphOk c g = true →
    s.unitAccepts c .graph b.gcompl = true → s.unitAccepts c .phase b.pcompl = true → s.pendingLaunches c < 4096 →
    exec (.launch p) s = .next ((t.accept c b k p.tag).status p 0)) ∧
  (∀ (s t : State) (p : Packet), p.ch.toNat < 64 → s.performs p (p.payload.length = 64) false →
    (recordKey (leNat (p.payload.take 64))).ctx = p.ch.toNat → s.resumeAgent (recordKey (leNat (p.payload.take 64))) = some t →
    exec (.resume p) s = .next (t.status p 0)) ∧
  (∀ (s : State) (p : Packet) (u : UnitRef), p.ch.toNat < 64 → s.performs p (p.payload.length = 8) false →
    s.unitAt p.ch.toNat (leNat (p.payload.take 8)) = some u → (∀ d x, u ≠ .pending d x) →
    exec (.cancelCommand p) s = .next ((s.cancelAt p.ch.toNat (leNat (p.payload.take 8))).status p 0)) ∧
  (∀ (s : State) (p : Packet), p.ch.toNat < 64 → s.performs p (p.payload.length = 12) false →
    let c := p.ch.toNat
    let va := leNat (p.payload.take 8) / 4096 * 4096
    let n := leNat ((p.payload.drop 8).take 4)
    let t := s.invalidate c va n (.channel c p.tag p.seq)
    (s.chan c).busy = none → (n = 0 ∨ va + 4096 * n ≤ 2 ^ 48) →
    exec (.inval p) s = .next (t.setChan c { t.chan c with
      busy := some s.nextInval, queue := if (t.chan c).queue.head? == some p then (t.chan c).queue.tail else (t.chan c).queue })) ∧
  (∀ (s : State) (n : Nat) (v : Inval), (s.invals.find? fun v => v.n == n) = some v → s.invalDone v = true →
    let t : State := { s with invals := s.invals.filter fun x => x.n != n }
    (∀ c tag cseq, v.by_ = .channel c tag cseq → exec (.invalidationComplete n) s = .next
      ((t.send [] c 0 (mkEvent c 0x81 0 tag cseq [])).setChan c { s.chan c with busy := none, last := cseq })) ∧
    (∀ r, v.by_ = .group r → exec (.invalidationComplete n) s = .next (t.everyWg (fun w => w.isOf r.ctx r.lnum r.wg) fun w =>
      { w with groups := w.groups.map fun g =>
        if g.wait == .inval n then { g with wait := .none }.stepOn (t.macrosOf r.ctx r.lnum) else g }))) ∧
  (∀ (s : State) (p : Packet), p.ch.toNat < 64 → s.performs p (p.payload.length = 0) false →
    let c := p.ch.toNat
    exec (.ctxsave p) s = .next (((s.setCtx c { s.ctx c with held := true }).everyWg (fun w => w.ctx == c)
      fun w => { w with saving := true }).status p 0) ∧
    exec (.ctxrun p) s = .next ((((s.launches.filter fun l => l.ctx == c && l.live).foldl (fun t l =>
      if !(t.ctx l.ctx).held && (t.predsOf l).all (fun p => p.status == .clean) then t.modLaunch l.ctx l.lnum fun x =>
        if x.readyAt.isNone then { x with readyAt := some t.now, waitSince := t.now } else x
      else t) (s.setCtx c { s.ctx c with held := false }))).status p 0)) ∧
  (∀ (s : State) (p : Packet), p.ch.toNat < 64 → s.performs p (p.payload.length = 32) false →
    let c := p.ch.toNat
    let b := leNat (p.payload.take 32)
    bits b 255 201 = 0 → bits b 199 176 = 0 → bits b 127 96 = 0 → bits b 63 48 = 0 → bits b 31 4 = 0 →
    (b.testBit 2 = true → bits b 175 128 % 16 = 0 ∧
      ∀ u ∈ s.units, u.ctx = c → u.kind = .job → u.status ≠ .running ∧ u.status ≠ .cancelling) →
    exec (.ctxset p) s = .next ((s.setCtx c { s.ctx c with
      pinq := if b.testBit 0 then BitVec.ofNat 16 (bits b 47 32) else (s.ctx c).pinq
      wdog := if b.testBit 1 then BitVec.ofNat 32 (bits b 95 64) else (s.ctx c).wdog
      jobObj := if b.testBit 2 then bits b 175 128 else (s.ctx c).jobObj
      jobEnd := if b.testBit 3 then b.testBit 200 else (s.ctx c).jobEnd }).status p 0)) ∧
  (∀ (s : State) (p : Packet), p.ch.toNat ≤ 64 → s.performs p (p.payload.length = 4) true →
    let c := p.ch.toNat
    exec (.seqquery p) s = .next (((s.chan c).log.filter fun e => leNat (p.payload.take 4) < e.eseq.toNat).foldl
      (fun t e => t.send [] c 0 (.event c e)) ((s.send [] c 0 (mkEvent c 0x86 0 p.tag p.seq
        (leBytes 4 (s.chan c).last.toNat ++ leBytes 4 (s.chan c).eseq.toNat))).performed p)) ∧
    (p.op = 0x0C → ∀ u : State, u.performed p = u))

/-- The commands of the management channel (21 R364, R367-R370, 13 R296, R297, Table 2.4, Table 13.2, 01 R10, 20 R349), performed on channel 64: each
acts on the device and answers status 0, or DATA, or its own event; a self-test answers when it is done. The payloads' layouts, the control region
beyond the counters, the digest's and signature's details, and what a new descriptor keeps are log entries 16 and 25's (DESIGN CHOICE), 18's
(PRESUMED) and 23 and 24's (DEDUCED). -/
def Obligations.ManagementCommandsComplete : Prop :=
  (∀ (s : State) (p : Packet), p.ch = 64 → s.performs p (p.payload.length = 65) false →
    let c := leNat (p.payload.take 1)
    let desc : BitVec 512 := BitVec.ofNat 512 (leNat ((p.payload.drop 1).take 64) &&& descMask)
    let used := (s.launches.filter fun l => l.ctx == c && l.live && l.parent.isNone).map (·.lnum)
    let new := !(s.ctx c).valid && desc.getLsbD 0
    let live (u : WorkUnit) : Bool := u.status == .running || u.status == .cancelling
    let k : Context := if new then { Context.reset with desc, lnums := used } else { s.ctx c with
      desc, lnums := used
      past := (s.ctx c).past ++ (s.pastOf c).filter fun x => !(s.units.any fun u => u.ctx == c && u.kind == x.kind && u.object == x.object && live u) }
    let kept (l : Launch) : Bool := l.parent.isNone && s.units.any fun u => u.ctx == c && u.kind == .graph && u.object == l.graph && live u
    c < 64 → s.quiet c = true → (k.valid = true → k.inDram = true) →
    exec (.ctxdesc p) s = .next ((({ s with
      tlb := s.tlb.filter fun x => x.ctx != c, wcache := s.wcache.filter fun x => x.ctx != c, walks := s.walks.filter fun w => w.ctx != c
      pwalks := s.pwalks.filter fun w => w.ctx != c
      launches := (s.launches.filter fun l => l.ctx != c || l.live || (!new && kept l)).map fun l =>
        if l.ctx == c then { l with preds := l.preds.filter used.contains } else l
      units := s.units.filter fun u => u.ctx != c || live u || (!new && u.kind == .job) } : State).setCtx c k).status p 0)) ∧
  (∀ (s : State) (p : Packet), p.ch = 64 → s.performs p (p.payload.length = 8) false →
    let b := leNat (p.payload.take 8)
    bits b 63 48 = 0 → bits b 4 0 = 0 → 300 ≤ bits b 31 20 → bits b 31 20 ≤ 2200 → bits b 7 6 ≠ 3 →
    exec (.power p) s = .next (({ s with power := { tol := bits b 47 32, cap := bits b 31 20, ramp := bits b 19 8, droop := bits b 7 6
                                                    gdis := b.testBit 5 } } : State).status p 0)) ∧
  (∀ (s : State) (p : Packet), p.ch = 64 → s.performs p (p.payload.length = 3) false →
    let kind := leNat (p.payload.take 1)
    let n := leNat ((p.payload.drop 1).take 1)
    let un := leNat ((p.payload.drop 2).take 1)
    (kind = 0 → isUpper n = true → (un = 0 → exec (.gate p) s = .next ((s.gateCore n).2.status p 0)) ∧
      (un = 1 → exec (.gate p) s = .next ((s.ungateCore n).2.status p 0))) ∧
    (kind = 1 → n < 32 → (un = 0 → exec (.gate p) s = .next ((s.setCol n { s.col n with gateReq := true }).status p 0)) ∧
      (un = 1 → exec (.gate p) s = .next ((s.ungateColumn n).status p 0)))) ∧
  (∀ (s : State) (p : Packet), p.ch = 64 → s.performs p (p.payload.length = 2) false →
    let n := leNat (p.payload.take 1)
    let v := leNat ((p.payload.drop 1).take 1)
    (n < 64 → exec (.cmin p) s = .next ((s.setCluster n { s.cluster n with cmin := min v 48 }).status p 0)) ∧
    (n < 16 → v ∈ [0, 8, 4, 2] → (s.port n).link = .up ∨ (s.port n).link = .retraining → v ≠ 0 → v ≠ (s.port n).lanes →
      exec (.link p) s = .next ((s.setPort n { s.port n with mode := v, lanes := v, link := .retraining }).status p 0)) ∧
    (n < 16 → v ∈ [0, 8, 4, 2] → v = 0 ∨ v = (s.port n).lanes ∨ ((s.port n).link ≠ .up ∧ (s.port n).link ≠ .retraining) →
      exec (.link p) s = .next ((s.setPort n { s.port n with mode := v }).status p 0)) ∧
    (s.selftest = none → s.idle = true → exec (.selftest p) s = .next (({ s with
      selftest := some (leNat (p.payload.take 2), p.tag, p.seq) } : State).setChan 64 { s.chan 64 with
        queue := if (s.chan 64).queue.head? == some p then (s.chan 64).queue.tail else (s.chan 64).queue }))) ∧
  (∀ (s : State) (p : Packet), p.ch = 64 → s.performs p (p.payload.length = 0) false →
    exec (.counters p) s = .next (s.answer p 0x82 0 (s.counterBlock 0 ++ s.counterBlock 1))) ∧
  (∀ (s : State) (results : List Byte) (mask : Nat) (tag cseq : Word), s.selftest = some (mask, tag, cseq) →
    ∃ t, exec (.selftestDone results) s = .next t ∧ t.selftest = none ∧ (t.chan 64).last = cseq ∧
      t.out = s.out ++ [{ deps := [], ctx := 64, lnum := 0
                          kind := mkEvent 64 0x87 0 tag cseq (results.take (34 * ((List.range 16).filter mask.testBit).length)) }]) ∧
  (∀ (s : State) (p : Packet), p.ch = 64 → s.performs p (p.payload.length = 32) true →
    ∃ sig, exec (.attest p) s = .next (({ s with free := s.free + 8 } : State).answer p 0x88 0 (s.attestation ++ sig))) ∧
  (∀ (s : State) (p : Packet), p.ch = 64 → s.performs p (p.payload.length = 4100) true → s.boot = 1 →
    let o := leNat (p.payload.take 4)
    exec (.fwload p) s = .next (({ s with fw := { s.fw with
      chunks := (s.fw.chunks.filter fun c => c.1 != o) ++ [(o, p.payload.drop 4)] } } : State).status p 0)) ∧
  (∀ (s : State) (p : Packet), p.ch = 64 → s.performs p (p.payload.length = 0) true → s.boot = 1 → s.fw.running = false →
    exec (.fwstart p) s = .next (match s.fw.check with
      | some (version, digest) => ({ s with fw := { s.fw with running := true, version, digest } } : State).status p 0
      | none => s.status p 2))

/-- Reset, boot and the module (21 R353, R366, R367, R371, 13 R302). A reset leaves the state after reset; the boot ROM opens the management channel in
stage 1, each port trained to the width it holds; verified firmware opens every channel in stage 2; both send BOOT. MRST_N low and the
loss of the supply hold the device; THERM_N only shows. The schedule of what is to come and the count of free values are the model's own
and stand (log entries 1 and 2). -/
def Obligations.ResetAndBootComplete : Prop :=
  (∀ (s : State) (p : Packet), p.ch = 64 → s.performs p (p.payload.length = 0) true →
    exec (.reset p) s = .next { State.reset with moves := s.moves, free := s.free }) ∧
  (∀ s : State, exec .resetPin s = .next { State.reset with moves := s.moves, free := s.free } ∧
    exec .moduleSupplyOff s = .next { State.reset with moves := s.moves, free := s.free, supply := false } ∧
    exec .mrstNAssert s = .next { State.reset with moves := s.moves, free := s.free, supply := s.supply, inReset := true } ∧
    exec .overTemperature s = .next { s with hot := true }) ∧
  (∀ (s : State) (trained : List Nat), s.boot = 0 → s.supply = true → s.inReset = false →
    ∃ t, exec (.bootRomReady trained) s = .next t ∧ t.boot = 1 ∧
      (∀ n, n < 16 → t.port n = { s.port n with
        lanes := if trained[n]? = some 4 then 4 else if trained[n]? = some 2 then 2 else 8, link := .up }) ∧
      t.out = s.out ++ [{ deps := [], ctx := 64, lnum := 0
                          kind := mkEvent 64 0x89 0 tagNone 0 (leBytes 1 1 ++ leBytes 4 s.fw.version.toNat) }]) ∧
  (∀ s : State, s.boot = 1 → s.fw.running = true → s.supply = true → s.inReset = false →
    exec .firmwareReady s = .next (({ s with boot := 2 } : State).send [] 64 0
      (mkEvent 64 0x89 0 tagNone 0 (leBytes 1 2 ++ leBytes 4 s.fw.version.toNat))))

/-- A step executes the instruction that is next and clears what named its group; where a state is next, it is that state (04 R83). A step of an engine,
a column, the dispatcher or a port runs as the schedule names it, its walks and table reads at once or one by one (log entry 59). An issue
scheduler runs the word that its group's slot holds, or, within a macro, the word of the body step it has reached (07 R142, R148, 08 R176,
13 R291); a word of an unassigned opcode raises an illegal-opcode fault (07 R166). The order of the agents' steps is `moves`, log entry 1. -/
def Obligations.StepRunsTheDecodedInstruction : Prop :=
  (∀ (s t : State) (i : Instr), s.begin = .run i t →
    step s = match exec i t with | .next u => .next { u with cur := none, split := false } | .fault f => .fault f | .refused r => .refused r) ∧
  (∀ (s t : State), s.begin = .done t → step s = .next t) ∧
  (∀ (s : State) (i : Instr) (steps : Bool) (ms : List Move), s.moves = (if steps then .eventSteps i else .event i) :: ms → s.alive = true → s.due = none →
    step s = match exec i { s with moves := ms, split := steps || s.split } with
      | .next u => .next { u with cur := none, split := false } | .fault f => .fault f | .refused r => .refused r) ∧
  (∀ (s : State) (core sched : Nat) (steps : Bool) (ms : List Move) (w : Workgroup) (g : Machine.Group) (l : FLine),
    s.moves = (if steps then .issueSteps core sched else .issue core sched) :: ms → s.supply = true → s.inReset = false → s.due = none →
    let s0 : State := { s with moves := ms, split := steps || s.split }
    s0.chooses core sched w g l →
    (∀ i rest, g.mcall = none → decode (l.bytes.drop (12 * slotOf g.pc.toNat)) = .ok (i, rest) →
      let t : State := { s0.modGroup (w.refOf g) fun k => { k.asIssued l with mcall := none, rstep := 0 } with cur := some (w.refOf g) }
      step s = match exec i t with | .next u => .next { u with cur := none, split := false } | .fault f => .fault f | .refused r => .refused r) ∧
    (∀ m k i, g.mcall = some (m, k) → decodeWord (((s.macrosOf w.ctx w.lnum).getD m []).getD k 0) = some i →
      let t : State := { s0.modGroup (w.refOf g) fun k' => { k'.asIssued l with mcall := some (m, k), rstep := 0 } with cur := some (w.refOf g) }
      step s = match exec i t with | .next u => .next { u with cur := none, split := false } | .fault f => .fault f | .refused r => .refused r) ∧
    (∀ w' g', g.mcall = none → decode (l.bytes.drop (12 * slotOf g.pc.toNat)) = .error .illegalOpcode →
      let t := s0.modGroup (w.refOf g) fun k => { k.asIssued l with mcall := none, rstep := 0 }
      let u := t.raise (w.refOf g) w' g' { cause := .illegalOpcode }
      t.group? (w.refOf g) = some (w', g') → step s = .next (if steps then { u with split := false } else u)))

/-- An instruction word issues exactly as its checks allow (07 R149, R150, R159-R162, R164, R168): where no check of the word fails, the tokens of
WAIT are clear, both guards are true, the token of SET is free, no result in flight is named, a pipe of its class is free, maps agree or MC is clear,
the checking scoreboard finds nothing, no lane's word is uncorrectable and a lane is live, the word runs on the lanes of its result map: in the same
state where it reads no walker; where it reads one, with the element that the walker gives each lane of that map (of LIVE where the form reads it
whole), and the walker goes on (10 R230): along dimension 0 by 64 elements, past its end by one along the next dimension that has not ended, each end
of a dimension setting its flag, and past the last one it is done, reads nothing and sets the last flag. How many pipes a scheduler has is the model's
choice (DESIGN CHOICE, log entry 78), and that a record's strides have a sign is log entry 69's. -/
def Obligations.IssuesWhereChecksPass : Prop :=
  (∀ (s : State) (i : Instr) (own all : Bool) (r : GRef) (w : Workgroup) (g : Machine.Group) (v : View) (f : Form),
    s.cur = some r → s.group? r = some (w, g) → viewForm i = some (v, f) →
    staticFault (isUpper w.core) g.handler w.desc.nreg v f = none →
    (∀ k, k < 6 → v.c.wait.getLsbD k = true → g.tokBusy k = false) →
    g.guard v.c.g1 = true → g.guard v.c.g2 = true → (∀ k, setTok? v.c = some k → g.tokBusy k = false) →
    (∀ x ∈ g.named v f ++ guardRegs v.c, (∀ p ∈ g.pend, x ∉ p.regs) ∧ ∀ t, (x, t) ∈ g.ready → t ≤ s.now) → s.pipeOpen w g v f own →
    (own = false → v.c.mc = true → g.mapsDiffer v f = false) →
    (g.markWaited v.c).stallShort (g.named v f ++ guardRegs v.c) = false →
    (∀ b ∈ g.vbad, RegName.v b.1 ∈ srcRegs v f → b.2 &&& g.live = 0) → g.live ≠ 0 →
    let col := columnOf w.core
    let g1 := g.markWaited v.c
    let e : Env := { r, w, g := g1, c := v.c, m := g.rmap v f, wv := [], fr := s.free, epoch := (s.col col).epoch, met := g.met, now := s.now }
    (walkersRead v f = [] → s.issuing i own all = some { r, w, g, v, f, e, t := s }) ∧
    (∀ (n : Nat) (as : List (Nat × List Piece)), ((walkersRead v f).map (·.val)).eraseDups = [n] → s.split = false → g.wgot = [] → g.met = {} →
      let k := g.walker n
      s.laneAccess r w g1 0 .read ((lanesOf (if all then g.live else g.rmap v f)).filterMap fun l =>
        (k.elem l).map fun a => (l, a, tyBytes k.ty)) = .ok as →
      (∀ p ∈ as, ∀ q ∈ p.2, ∃ l mt, q.1 = .mem l mt ∧ s.readable (some col) l q.2 ∧ (s.cluster (clusterOf w.core)).badWords l q.2 = []) →
      let y := s.readAll w.core (.load k.ch) as {}
      s.issuing i own all = some { r, w, g, v, f, t := y.2.2.modGroup r fun h => h.setW n k.advance, e := { e with
        g := { g.setW n k.advance with hist := g1.hist }, met := y.2.1
        wv := [(n, as.map fun p => (p.1, (regWords k.ty (p.2.flatMap fun q => match q.1 with
          | .mem l _ => s.colRead col l q.2
          | .peer .. => [])).headD 0))] } })) ∧
  (∀ (k : Walker) (l : Nat),
    let n (j : Nat) : Nat := (k.n[j]?.getD 0).toNat
    let i (j : Nat) : Nat := (k.i[j]?.getD 0).toNat
    let d (j : Nat) : Int := (k.stride[j]?.getD 0).toInt
    let at_ (a b c d : Nat) : Vector Word 4 := #v[BitVec.ofNat 32 a, BitVec.ofNat 32 b, BitVec.ofNat 32 c, BitVec.ofNat 32 d]
    (k.done = true → k.elem l = none ∧ k.advance = { k with eod := k.eod ||| 8 }) ∧
    (k.done = false →
      k.elem l = (if i 0 + l < n 0 then some (k.base.toNat + (i 0 + l) * tyBytes k.ty + i 1 * d 0 + i 2 * d 1 + i 3 * d 2) else none) ∧
      (i 0 + 64 < n 0 → k.advance = { k with i := at_ (i 0 + 64) (i 1) (i 2) (i 3) }) ∧
      (n 0 ≤ i 0 + 64 → i 1 + 1 < n 1 → k.advance = { k with i := at_ 0 (i 1 + 1) (i 2) (i 3), eod := k.eod ||| 1 }) ∧
      (n 0 ≤ i 0 + 64 → n 1 ≤ i 1 + 1 → i 2 + 1 < n 2 → k.advance = { k with i := at_ 0 0 (i 2 + 1) (i 3), eod := k.eod ||| 3 }) ∧
      (n 0 ≤ i 0 + 64 → n 1 ≤ i 1 + 1 → n 2 ≤ i 2 + 1 → i 3 + 1 < n 3 →
        k.advance = { k with i := at_ 0 0 0 (i 3 + 1), eod := k.eod ||| 7 }) ∧
      (n 0 ≤ i 0 + 64 → n 1 ≤ i 1 + 1 → n 2 ≤ i 2 + 1 → n 3 ≤ i 3 + 1 →
        k.advance = { k with i := at_ 0 0 0 0, eod := k.eod ||| 15, done := true })))

/-- What a check that fails makes of an instruction word (07 R150, R160-R162, R168, 06 R128): a check of the word raises its fault, guards true or
not; a busy token of WAIT, or a result in flight to a guard, leaves the group where it is until later; false guards take one issue slot, change no
register and no other state, and go on to the next instruction after STL cycles; a busy token of SET, a result in flight to a register it names, or
an occupied pipe leaves it where it is, and the results that hold it are noted, so that it issues two cycles after they are delivered; MC with differing maps and a
stall count too short raise their faults. -/
def Obligations.ChecksStopAWord : Prop :=
  ∀ (s : State) (i : Instr) (r : GRef) (w : Workgroup) (g : Machine.Group) (v : View) (f : Form),
    s.cur = some r → s.group? r = some (w, g) → viewForm i = some (v, f) →
    let cyc := (s.col (columnOf w.core)).cyc
    (∀ k, staticFault (isUpper w.core) g.handler w.desc.nreg v f = some k → exec i s = .next (s.raise r w g { cause := k })) ∧
    (staticFault (isUpper w.core) g.handler w.desc.nreg v f = none →
      (g.waitOk v.c = false ∨ s.now < g.interlock s.now cyc (guardRegs v.c) →
        ∃ t, s.now < t ∧ exec i s = .next (s.modGroup r fun k => { k with nextAt := max k.nextAt t })) ∧
      (g.waitOk v.c = true → g.interlock s.now cyc (guardRegs v.c) ≤ s.now →
        (g.guards v.c = false → ∃ g', exec i s = .next (s.setGroup r g') ∧
          { g' with
            pc := g.pc, mcall := g.mcall, hist := g.hist, ready := g.ready, lastIssue := g.lastIssue, nextAt := g.nextAt,
            lastEpoch := g.lastEpoch, issuedAt := g.issuedAt, seq := g.seq, paired := g.paired, got := g.got, wgot := g.wgot, fgot := g.fgot, met := g.met
            blocked := g.blocked } = g ∧
          (g.mcall = none → g'.pc = nextPc g.pc) ∧ g'.seq = true ∧ g'.issuedAt = some s.now ∧
          g'.nextAt = s.now + (if g.pairs v f s.now then 0 else max v.c.stl.toNat 1) * cyc) ∧
        (g.guards v.c = true → g.setOk v.c = false ∨ s.now < g.interlock s.now cyc (g.named v f) ∨ ¬ s.pipeOpen w g v f (ownMaps i) →
          ∃ t, s.now < t ∧ exec i s = .next (s.modGroup r fun k => { k with
            nextAt := max k.nextAt t, blocked := (k.pend.flatMap Pend.regs).filter (g.named v f).contains })) ∧
        (g.guards v.c = true → g.setOk v.c = true → g.interlock s.now cyc (g.named v f) ≤ s.now → s.pipeOpen w g v f (ownMaps i) →
          (ownMaps i = false → v.c.mc = true → g.mapsDiffer v f = true → exec i s = .next (s.raise r w g { cause := .mapMismatch })) ∧
          (ownMaps i = true ∨ v.c.mc = false ∨ g.mapsDiffer v f = false →
            (g.markWaited v.c).stallShort (g.named v f ++ guardRegs v.c) = true →
            exec i s = .next (s.raise r w g { cause := .stallShort })))))

/-- Restricted forms (07 R167): MLOOP, MLOOPJ, MLOOPS, MZERO, MRD, MWR, MSCALE and MQSTAT raise an illegal-opcode fault on a lower core;
PRUNE, ISECT, RANK and IDOT4 run on every core; RFT, TLBINV, GSAVE, GREST, PGREQ and the privileged CSR accesses raise a privilege fault
outside handler mode, and no other word does. -/
def Obligations.RestrictedFormsRaise : Prop :=
  ∀ (i : Instr) (v : View) (f : Form), viewForm i = some (v, f) →
    (∀ (s : State) (r : GRef) (w : Workgroup) (g : Machine.Group), s.cur = some r → s.group? r = some (w, g) →
      (upperOnly i = true → isUpper w.core = false → exec i s = .next (s.raise r w g { cause := .illegalOpcode })) ∧
      (privileged i = true → reservedOk v f = true → variantOk v f = true → g.handler = false →
        exec i s = .next (s.raise r w g { cause := .privilege }))) ∧
    (∀ (handler : Bool) (nreg : Nat),
      ((∃ c o, i = .prune c o ∨ i = .isect c o ∨ i = .rank c o ∨ i = .idot4 c o) →
        staticFault true handler nreg v f = staticFault false handler nreg v f) ∧
      (∀ up, staticFault up handler nreg v f = some .privilege → privileged i = true ∧ handler = false))

/-- Taking an exception (12 R272, R274, R275, 01 R30): the group waits for no walk any more; a fault a host resumes parks it and sends a record, as
soon as the landing buffer has room for that (05 R113); in handler mode any other is a double fault, which ends the workgroup with a record of cause
0x36 whose AUX is the inner cause; without a trap table, or where the entry is 0, the workgroup ends with the fault's own record; otherwise the
group's registers stay, TPC, TCAUSE, TADDR, TMAP and TAUX hold what Table 12.1 gives, and the group is in handler mode at the entry's address, where
its next step checks it as a transfer's target; an entry that cannot be read is a double fault. -/
def Obligations.ExceptionsAreTaken : Prop :=
  ∀ (s : State) (r : GRef) (w : Workgroup) (g : Machine.Group) (f : FaultInfo),
    let res := g.resumeOf (s.macrosOf r.ctx r.lnum) f.cause
    let f1 : FaultInfo := { f with mstep := (g.mcall.map (·.2)).getD g.rstep, resume := res.1, rstep := res.2 }
    let s1 := (s.forget (.group r)).modGroup r fun k => { k with wait := .fault f1, xf := [], got := [], wgot := [], fgot := [], met := {}, blocked := [] }
    let held : Machine.Group := { g with wait := .fault f1, xf := [], got := [], wgot := [], fgot := [], met := {}, blocked := [] }
    let ended (x : FaultInfo) (u : State) : State := (u.modGroup r fun k => { k with wait := .none }).endWg r (groupRecord w held r false x)
    let double : FaultInfo := { f1 with cause := .doubleFault, aux := BitVec.ofNat 32 f.cause.code, paddr := 0 }
    (f.cause.resumable = true →
      (s1.recRoom (columnOf w.core) = true → s.raise r w g f = (s1.modGroup r fun k =>
        { k with wait := .parked f1, xf := [], got := [], wgot := [], fgot := [], met := {}, blocked := []
                 lastEpoch := (s1.col (columnOf w.core)).epoch }).sendRecord
          (some (columnOf w.core)) r.ctx r.lnum (groupRecord w held r true f1)) ∧
      (s1.recRoom (columnOf w.core) = false → s.raise r w g f = s1)) ∧
    (f.cause.resumable = false →
      (g.handler = true → s.raise r w g f = ended double s1) ∧
      (g.handler = false → g.trapb.getLsbD 0 = false → s.raise r w g f = ended f1 s1) ∧
      (g.handler = false → g.trapb.getLsbD 0 = true →
        (∀ k a pa, s1.resolve r.ctx w.core [] (bits g.trapb.toNat 47 11 * 2048 + 8 * f.cause.code) 8 .read = .fault k a pa →
          s.raise r w g f = ended double s1) ∧
        (∀ l mt, s1.resolve r.ctx w.core [] (bits g.trapb.toNat 47 11 * 2048 + 8 * f.cause.code) 8 .read = .ok [(.mem l mt, 8)] →
          s1.heldOff (some (columnOf w.core)) l 8 = false →
          (∀ b bs u, s1.readAs (columnOf w.core) l 8 = (some b, bs, u) → s.raise r w g f = ended double u) ∧
          (∀ bs u, s1.readAs (columnOf w.core) l 8 = (none, bs, u) →
            (leNat bs = 0 → s.raise r w g f = ended f1 u) ∧
            (leNat bs ≠ 0 → s.raise r w g f = u.modGroup r fun k =>
              { k with
                handler := true, pc := BitVec.ofNat 64 (leNat bs), tpc := res.1, taddr := BitVec.ofNat 64 f.addr, tmap := f.lanes, taux := f.aux
                tcause := BitVec.ofNat 32 (f.queue % 256 * 65536 + res.2 % 256 * 256 + f.cause.code)
                mcall := none, rstep := 0, entry := true, seq := false, paired := false
                wait := .none, xf := [], got := [], wgot := [], fgot := [], met := {}, blocked := [], waitCnt := 0, runCnt := 0, hold := 0
                nextAt := max k.nextAt (u.now + 1), lastEpoch := (s1.col (columnOf w.core)).epoch })))))

/-- What follows a performed instruction (07 R143, R160, 08 R176, 05 R111): its group stands at the next slot of its line, after slot 4 at slot 0
of the line 64 bytes higher; within a macro at the next body step, after the last at the instruction after the MCALL; it issues again after
max(STL, 1) cycles, or at once where the two issue as a pair (R147); a result of fixed latency holds the token that SET names until it is ready, and
one with an empty result map holds none (R161); a pipe of its class is occupied for a cycle for each 16 lanes of its result map (R164); no
other register of the group changes, and nothing outside the group. Which pairs issue together, and when a token of no stated latency clears, are the
model's choices (DESIGN CHOICE, log entry 60). -/
def Obligations.PerformedWordGoesOn : Prop :=
  ∀ (s u : State) (i : Instr) (own all : Bool) (x : Issuing) (g' : Machine.Group), s.issuing i own all = some x →
    ∃ h : Machine.Group, x.next s (.done u g') = u.setGroup x.r h ∧
      { h with
        pc := g'.pc, mcall := g'.mcall, hist := g'.hist, ready := g'.ready, lastIssue := g'.lastIssue, nextAt := g'.nextAt, xf := g'.xf,
        lastEpoch := g'.lastEpoch, issuedAt := g'.issuedAt, seq := g'.seq, paired := g'.paired, got := g'.got, wgot := g'.wgot, fgot := g'.fgot, met := g'.met
        blocked := g'.blocked, tok := g'.tok, tokAt := g'.tokAt, pipes := g'.pipes } = g' ∧
      h.xf = [] ∧ h.got = [] ∧ h.wgot = [] ∧ h.fgot = [] ∧ h.met = {} ∧ h.blocked = [] ∧ h.seq = true ∧ h.issuedAt = some s.now ∧ h.paired = g'.pairs x.v x.f s.now ∧
      h.nextAt = s.now + (if g'.pairs x.v x.f s.now then 0 else max x.v.c.stl.toNat 1) * (s.col (columnOf x.w.core)).cyc ∧
      (∀ k, setTok? x.v.c ≠ some k → h.tokBusy k = g'.tokBusy k) ∧
      (g'.resultMap (x.g.dsts x.v x.f) = some 0 → h.tok = g'.tok ∧ h.tokAt = g'.tokAt) ∧
      (∀ k n, setTok? x.v.c = some k → x.f.lat = .fixed n → x.g.dsts x.v x.f ≠ [] → g'.resultMap (x.g.dsts x.v x.f) ≠ some 0 →
        g'.tokBusy k = false →
        h.tokBusy k = true ∧ h.tokAt = g'.tokAt ++ [(k, s.now + n * (s.col (columnOf x.w.core)).cyc)]) ∧
      (∀ p ∈ h.pipes, p ∈ g'.pipes ∨ p.1 = x.f.pipe) ∧
      (∀ m, g'.resultMap (x.g.dsts x.v x.f) = some m →
        let n := ((lanesOf m).length + 15) / 16 * (if x.v.c.ty = .i64 then 2 else 1) * if x.f.pipe = .f ∧ isUpper x.w.core = true then 4 else 1
        1 < n → (x.f.pipe, s.now + n * (s.col (columnOf x.w.core)).cyc) ∈ h.pipes) ∧
      h.lastEpoch = (s.col (columnOf x.w.core)).epoch ∧
      (g'.mcall = none → h.mcall = none ∧
        (∀ line slot, g'.pc.toNat = 64 * line + 12 * slot → slot < 4 → g'.pc.toNat + 64 < 2 ^ 64 → h.pc.toNat = 64 * line + 12 * (slot + 1)) ∧
        (∀ line, g'.pc.toNat = 64 * line + 48 → g'.pc.toNat + 64 < 2 ^ 64 → h.pc.toNat = 64 * (line + 1))) ∧
      (∀ m k, g'.mcall = some (m, k) →
        (k + 1 < ((s.macrosOf x.r.ctx x.r.lnum).getD m []).length → h.pc = g'.pc ∧ h.mcall = some (m, k + 1)) ∧
        (((s.macrosOf x.r.ctx x.r.lnum).getD m []).length ≤ k + 1 → h.pc = nextPc g'.pc ∧ h.mcall = none))

/-- No byte of memory changes when a word that stores nothing leaves a next state, whether it is performed, waits or takes an exception: every
word but those that `keepsMemory` leaves out (08, 09, 10 R224-R246, 11 R267, 12 R284, R285). -/
def Obligations.WordsThatStoreNothingKeepMemory : Prop :=
  ∀ (i : Instr) (s t : State), keepsMemory i = true → exec i s = .next t →
    ∀ (st : Store) (a : Nat), readByte (t.mem st) a = readByte (s.mem st) a

/-- ST and STM write the bytes their accesses address and no others (10 R226, R228, 05 R113): the addresses are those that the meaning resolves
for each lane; every byte outside them reads as before; no register, map, predicate, walker or special register of the group changes. -/
def Obligations.StoresReachOnlyTheirBytes : Prop :=
  ∀ (s t : State) (i : Instr) (x : Issuing) (as : List (Nat × List Piece)), s.issuing i false false = some x →
    ((∃ c o, i = .st c o ∧
        x.t.laneAccess x.e.r x.e.w x.e.g (c.fn.toNat % 4) .write ((lanesOf x.e.m).map fun l => (l, x.e.memAddr c o l, memBytes c)) = .ok as ∧
        x.t.anyHeld x.e.w.core as = false ∧ x.t.roomFor (columnOf x.e.w.core) as = true) ∨
      (∃ (c : Ctl) (o : OpsR) (d : Fin 128) (r : Rec), i = .stm c o ∧ o.d = .vec d ∧ x.t.ident x.e.w.core x.e.r.ctx (x.e.u o.a) = .ok r ∧
        isBlock r = false ∧ 8 ≤ recBits r ∧ (c.fn.toNat / 2 = 0 → swzOk r (x.e.u o.b) = true) ∧
        x.e.fragAccess (c.fn.toNat / 2 + 1) (x.e.u o.b) (x.e.fragment c o r fun k => x.e.g.vm (d + k)) = .ok as ∧
        x.t.anyHeld x.e.w.core as = false)) →
    exec i s = .next t →
    (∀ (st : Store) (a : Nat),
      (∀ p ∈ as, ∀ q ∈ p.2, ∀ l mt, q.1 = .mem l mt → ¬(l.store = st ∧ l.addr ≤ a ∧ a < l.addr + q.2)) →
      readByte (t.mem st) a = readByte (x.t.mem st) a) ∧
    ∃ u h, t = Machine.State.setGroup u x.r h ∧ h.v = x.e.g.v ∧ h.s = x.e.g.s ∧ h.m = x.e.g.m ∧ h.p = x.e.g.p ∧ h.w = x.e.g.w ∧
      h.gstat = x.e.g.gstat ∧ h.live = x.e.g.live ∧ h.trapb = x.e.g.trapb ∧ h.tpc = x.e.g.tpc ∧ h.tcause = x.e.g.tcause ∧
      h.taddr = x.e.g.taddr ∧ h.tmap = x.e.g.tmap ∧ h.taux = x.e.g.taux ∧ h.wdog = x.e.g.wdog ∧ h.handler = x.e.g.handler ∧
      h.srseed = x.e.g.srseed ∧ h.srn = x.e.g.srn ∧ h.chk = x.e.g.chk ∧ h.mstat = x.e.g.mstat ∧ h.dead = x.e.g.dead ∧ h.tid = x.e.g.tid

/-- Decoding undoes encoding: for every well-formed instruction word, with every operand and field at every value its format admits, the decoder
reads the instruction back from the word, and every well-formed instruction word has one; the steps and commands that are no words have none (07 R142,
R149, R153, R166, Tables 7.4, 7.5, 7.6 and 7.10). -/
def Obligations.EncodeThenDecode : Prop :=
  (∀ (i : Instr) (w : InstrWord), i.wf = true → encode i = some w → decodeWord w = some i) ∧
  (∀ i : Instr, i.wf = true → (viewForm i).isSome = true → ∃ w, encode i = some w ∧ decodeWord w = some i) ∧
  (∀ i : Instr, viewForm i = none → encode i = none)

/-- The twelve bytes of a well-formed instruction word, whatever follows them, decode to it and leave the rest (07 R142, 00 R2); and a command
packet's bytes read back as the packet (21 R355). -/
def Obligations.BytesReadBack : Prop :=
  (∀ (i : Instr) (bs rest : List Byte), i.wf = true → encodeBytes i = some bs → decode (bs ++ rest) = .ok (i, rest)) ∧
  (∀ (p : Packet), packetOf (packetBytes p) = some p)

/-- Words written out from the encodings of the spec decode to the instructions they stand for: IADD, ISUB and NOP of the line of 07 R148, and words
of the programs of chapters 14 to 19 for loads, stores, compares, map forms, a tile command, EXIT and REGROUP (Tables 7.4, 7.5, 7.6, 7.10). -/
def Obligations.WordsDecodeAsWritten : Prop :=
  let k : Ctl := { stl := 1, set := 7, wait := 0, yld := false, g1 := { neg := false, p := 7 }, g2 := { neg := false, p := 7 }
                   ch := .normal, mc := false, fn := 0, ty := .b32, sc := .thread }
  let r : OpsR := { d := .none, a := .none, b := .none, c := .none, e := .none, x := 0 }
  decodeWord 0x1380770800A00C040BFFFC00 = some (.iadd { k with stl := 4, ty := .i32 } { r with d := .vec 3, a := .vec 1, b := .vec 2 }) ∧
  decodeWord 0x0780770820A0100FCBFFFC00 = some (.isub { k with ty := .i32 } { r with d := .vec 4, a := .vec 3, b := .int 10 }) ∧
  decodeWord 0x078077000003FFFFFFFFFC00 = some (.nop k r) ∧
  decodeWord 0x0400771000A0078601000000 = some (.ld { k with set := 0, ty := .i32 }
    { d := .vec 1, a := .ident .thread, b := .sca 0, imm := 0x400000, z := 0 }) ∧
  decodeWord 0x1382770984A30007A3FF0400 = some (.icmp { k with stl := 4, wait := 1, fn := 2, ty := .i32 }
    { r with d := .map 0, a := .vec 1, b := .int 0, e := .map 1 }) ∧
  decodeWord 0x138077058000080703FFFC00 = some (.restrict { k with stl := 4 } { r with d := .vec 2, a := .vec 1, b := .map 0 }) ∧
  decodeWord 0x13807725A000140C13FFFC00 = some (.merge { k with stl := 4, mc := true } { r with d := .vec 5, a := .vec 3, b := .vec 4 }) ∧
  decodeWord 0x0780771020A0178609000000 = some (.st { k with ty := .i32 }
    { d := .vec 5, a := .ident .thread, b := .sca 2, imm := 0x400000, z := 0 }) ∧
  decodeWord 0x078077012003FFFFFFFFFC00 = some (.exit k r) ∧
  decodeWord 0x07800711A217FFA212422008 = some (.tld { k with g1 := { neg := false, p := 0 }, fn := 1, sc := .device }
    { r with a := .int 0, b := .sca 4, c := .sca 16, e := .sca 8, x := 8 }) ∧
  decodeWord 0x07807721E00BFFA21BFFFC00 = some (.regroup { k with mc := true, sc := .wg } { r with a := .int 0, b := .sca 6 })

/-- Every step keeps every store in its canonical form: addresses strictly rising, no listed byte equal to what an unlisted one reads as, so that
equal memories are equal data, whatever instruction, step, command or error comes next. -/
def Obligations.EveryStepKeepsStoresCanonical : Prop :=
  ∀ (s t : State), s.memOk = true → step s = .next t → t.memOk = true

/-- The state right after reset: stores canonical, boot stage 0, no work, every context, identifier table, channel, sequence number and cache cleared
(21 R366, 01 R9), the WDOG setting of Table 12.6 (12 R279), ports at 8 lanes in automatic mode (21 R353, R364), CMIN 16 and 64 cache banks in every
cluster (02 R40, R41, Table 2.4), a grant of 0 and limits of 8 split 4 and 4 (13 R293, R295), and the default power settings (13 R301, Table 13.2). -/
def Obligations.ResetLeaves : Prop :=
  let s := State.reset
  s.memOk = true ∧ s.boot = 0 ∧ s.wgs = [] ∧ s.away = [] ∧ s.launches = [] ∧ s.units = [] ∧ s.walks = [] ∧
  s.tlb = [] ∧ s.wcache = [] ∧ s.peerCopies = [] ∧ s.peerSteps = [] ∧
  (∀ c, c < 64 → (s.ctx c).desc = 0 ∧ (s.ctx c).idents = [] ∧ (s.ctx c).wdog = 0xEA602710) ∧
  (∀ c, c < 65 → (s.chan c).last = 0 ∧ (s.chan c).eseq = 0 ∧ (s.chan c).queue = [] ∧ (s.chan c).log = [] ∧ (s.chan c).early = []) ∧
  (∀ c, c < 64 → (s.cluster c).cmin = 16 ∧ (s.cluster c).copies = [] ∧ (s.cluster c).pins = [] ∧ (s.cluster c).cacheB = 64) ∧
  (∀ p, p < 16 → (s.port p).lanes = 8 ∧ (s.port p).mode = 0) ∧
  (∀ c, c < 32 → (s.col c).grant = 0 ∧ (s.col c).limL = 4 ∧ (s.col c).limU = 4) ∧
  s.power.tol = 0 ∧ s.power.cap = 2200 ∧ s.power.ramp = 50 ∧ s.power.droop = 0 ∧ s.power.gdis = false

/-- A write at a home is what its bytes read as afterwards; every other byte of every store reads as before; a code unit that the write covers
whole is good again (04 R84, 20 R375). -/
def Obligations.MemoryReadsWhatWasWritten : Prop :=
  ∀ (s : State) (l : Loc) (bs : List Byte), s.memOk = true →
    (s.put l bs).bytesAt l bs.length = bs ∧
    (∀ (st : Store) (a : Nat), ¬(st = l.store ∧ l.addr ≤ a ∧ a < l.addr + bs.length) →
      readByte ((s.put l bs).mem st) a = readByte (s.mem st) a) ∧
    (∀ b : Loc, b.store = l.store → l.addr ≤ b.addr → b.addr + sectorSize b.store ≤ l.addr + bs.length → b ∉ (s.put l bs).bad)

/-- A store by an agent of a column (05 R111-R113): at a location of the column it stands there at once; elsewhere no byte of memory changes,
and the column's own loads read the stored bytes from its landing buffer. Either way every agent outside the column must wait for the
location. -/
def Obligations.ProvisionalStoresAreHeld : Prop :=
  ∀ (s : State) (c ctx lnum : Nat) (l : Loc) (bs : List Byte), s.memOk = true → c < 32 → bs ≠ [] →
    let t := s.colStore c ctx lnum l bs
    (locColumn l = some c → t.bytesAt l bs.length = bs) ∧
    (locColumn l ≠ some c → (∀ st, t.mem st = s.mem st) ∧ t.colRead c l bs.length = bs ∧
      ∀ d, d ≠ c → ∀ u n, t.colRead d u n = s.colRead d u n) ∧
    (∀ me, me ≠ some c → t.heldOff me l bs.length = true)

/-- A rollback undoes a provisional write (05 R115, 02 R49, 20 R342): a strike against a column that has made one provisional write leaves every
byte of every store as it stood before the write, and stops the column's agents. -/
def Obligations.ProvisionalWritesAreUndone : Prop :=
  ∀ (s t : State) (c : Nat) (l : Loc) (bs : List Byte) (locked : Bool), s.memOk = true → c < 32 → (s.col c).rolling = false →
    (s.col c).gated = false → (s.col c).undo = [] → exec (.strikeReport (.column c)) (s.putProv c l bs locked) = .next t →
    (∀ (st : Store) (a : Nat), readByte (t.mem st) a = readByte (s.mem st) a) ∧ (t.col c).rolling = true ∧
    (t.col c).strk = (s.col c).strk + 1 ∧ (t.col c).rollbk = (s.col c).rollbk + 1

/-- Arrive, land and advance on a barrier object (05 R103): an arrival at ARR_LEFT 0, or a count that leaves the i32 range, changes nothing;
otherwise ARR_LEFT and BYTES_LEFT move as the rule says; when both are 0 the phase advances, modulo 2^22 for a ring's, ARR_LEFT returns to
ARR_EXP and BYTES_LEFT is 0; ARR_EXP, RING and SCOPE never change. -/
def Obligations.BarrierStepsAsStated : Prop :=
  ∀ (b n : Nat), b < 2 ^ 128 →
    let next := (barPhase b + 1) % (if barRing b then 2 ^ 22 else 2 ^ 32)
    let same (v : Nat) : Prop := v < 2 ^ 128 ∧ barExp v = barExp b ∧ barRing v = barRing b ∧ barScope v = barScope b
    (barLeft b = 0 ∨ 2 ^ 31 ≤ barBytes b + n → barArrive b n = none) ∧
    (barLeft b ≠ 0 → barBytes b + n < 2 ^ 31 → ∃ v, barArrive b n = some v ∧ same v ∧
      (barLeft b = 1 ∧ barBytes b + n = 0 → barPhase v = next ∧ barLeft v = barExp b ∧ barBytes v = 0) ∧
      (¬(barLeft b = 1 ∧ barBytes b + n = 0) → barPhase v = barPhase b ∧ barLeft v + 1 = barLeft b ∧ barBytes v = barBytes b + n)) ∧
    (barBytes b - n < -(2 ^ 31) → barLand b n = none) ∧
    (-(2 ^ 31) ≤ barBytes b - n → ∃ v, barLand b n = some v ∧ same v ∧
      (barLeft b = 0 ∧ barBytes b - n = 0 → barPhase v = next ∧ barLeft v = barExp b ∧ barBytes v = 0) ∧
      (¬(barLeft b = 0 ∧ barBytes b - n = 0) → barPhase v = barPhase b ∧ barLeft v = barLeft b ∧ barBytes v = barBytes b - n))

/-- IDIV and IREM (09 R198): wherever one issues it completes, each lane of the result map dividing independently, truncating towards zero, with
the remainder's sign the dividend's; a zero divisor gives all ones or minus one with the dividend as remainder and sets DZ; the most
negative value divided by minus one gives itself with remainder 0. -/
def Obligations.DivisionTruncatesTowardsZero : Prop :=
  ∀ (c : Ctl) (o : OpsR), c.ty = .i32 ∨ c.ty = .ui32 ∨ c.ty = .i64 →
    let w := if c.ty = .i64 then 64 else 32
    let signed := c.ty ≠ .ui32
    let num (v : Nat) : Int := if signed then sext w v else (v % 2 ^ w : Nat)
    Computes (.idiv c o) c.ty o.d (fun e l =>
      let a := num (e.val c.ty o.a l)
      let b := num (e.val c.ty o.b l)
      if b = 0 then (2 ^ w - 1, fDZ)
      else if signed ∧ a = -(2 ^ (w - 1)) ∧ b = -1 then (2 ^ (w - 1), 0)
      else (wrap w (Int.tdiv a b), 0)) ∧
    Computes (.irem c o) c.ty o.d (fun e l =>
      let a := num (e.val c.ty o.a l)
      let b := num (e.val c.ty o.b l)
      if b = 0 then (wrap w a, fDZ)
      else if signed ∧ a = -(2 ^ (w - 1)) ∧ b = -1 then (0, 0)
      else (wrap w (a - b * Int.tdiv a b), 0))

/-- The special registers read as Table 12.11 lists them (12 R284): GSTAT and SRSEED 03 R65 and R66, TDREP 13 R299, CLBANK 02 R41 with Table 2.4, PINQ
02 R44, SCRAP and SCRSZ 01 R13 and 02 R37, the injector's 20 R350. -/
def Obligations.SpecialRegistersRead : Prop :=
  ∀ (s : State) (w : Workgroup) (g : Machine.Group),
    let k := s.col (columnOf w.core)
    s.csr w g 0x010 = g.gstat.toNat ∧ s.csr w g 0x011 = g.srseed.toNat ∧ s.csr w g 0x012 = (if g.chk then 1 else 0) ∧
    s.csr w g 0x020 = g.trapb.toNat ∧ s.csr w g 0x021 = g.tpc.toNat ∧ s.csr w g 0x022 = g.tcause.toNat ∧
    s.csr w g 0x023 = g.taddr.toNat ∧ s.csr w g 0x024 = g.tmap.toNat ∧ s.csr w g 0x025 = g.taux.toNat ∧
    s.csr w g 0x030 = g.wdog.toNat ∧ s.csr w g 0x031 = w.ctx ∧ s.csr w g 0x032 = k.epoch % 2 ^ 32 ∧
    s.csr w g 0x033 = k.strk.toNat ∧ s.csr w g 0x034 = k.rollbk.toNat ∧ s.csr w g 0x035 = (s.core w.core).tdrep.toNat ∧
    s.csr w g 0x040 = s.inja.toNat ∧ s.csr w g 0x041 = s.injc.toNat ∧ s.csr w g 0x051 = w.scrSize ∧
    s.csr w g 0x052 = (s.ctx w.ctx).pinq.toNat ∧
    (let b := s.csr w g 0x053
     let modes := (s.cluster (clusterOf w.core)).modes.toList
     bits b 31 31 = 0 ∧ bits b 30 24 = (s.cluster (clusterOf w.core)).cmin % 128 ∧ bits b 23 16 = (modes.filter fun m => m.isFifo).length ∧
     bits b 15 8 = (modes.filter fun m => m.isScratch).length ∧ bits b 7 0 = (modes.filter fun m => m == .cache).length) ∧
    s.csr w g 0x050 = (if (s.ctx w.ctx).sae then (s.ctx w.ctx).sab * 2 ^ 29 + clusterOf w.core * 2 ^ 23 + w.scrBase else 0)

/-- How the groups of a workgroup start (06 R127, R123): group n of workgroup v exists where it holds a thread; LIVE holds the lanes that hold
threads; DEAD, the maps, the predicates, GSTAT, SRSEED and S16 to S63 are clear; S0 to S15 hold the argument block; each lane has its thread's
identifier; every vector register is empty, but for V0 to V2 of a spawned group, which hold its items' words on LIVE. A spawned group's thread
identifiers are those its items were formed with, and the registers of a group that 06 R127 gives no value start as log entry 4 says (DESIGN CHOICE).
-/
def Obligations.GroupsStartAsStated : Prop :=
  (∀ (l : Launch) (wdog : Word) (v core now half : Nat) (f : Fit), 0 < l.desc.groups →
    let gs := (newWg l wdog v core now half f).groups
    ∀ n, ((gs[n]?).isSome ↔ n < l.desc.groups ∧ 64 * l.desc.groups * v + 64 * n < l.desc.n) ∧
      ∀ g, gs[n]? = some g → g.id = n ∧
        (∀ k, k < 64 → g.live.getLsbD k = decide (64 * l.desc.groups * v + 64 * n + k < l.desc.n) ∧
          g.tidOf k = BitVec.ofNat 32 (64 * l.desc.groups * v + 64 * n + k)) ∧
        g.dead = 0 ∧ (∀ k, k < 14 → g.mreg k = 0) ∧ (∀ k, k < 128 → g.vreg k = []) ∧ (∀ k, k < 7 → g.preg k = false) ∧
        (∀ k, k < 16 → g.sreg k = l.desc.args.getD k 0) ∧ (∀ k, 16 ≤ k → k < 64 → g.sreg k = 0) ∧ g.gstat = 0 ∧ g.srseed = 0) ∧
  (∀ (l : Launch) (x : Formed) (d : Desc) (wdog : Word) (core now half : Nat) (f : Fit), x.items.length ≤ 64 →
    ∃ g, (spawnedWg l x d wdog core now half f).groups = [g] ∧
      (∀ k, k < 64 → g.live.getLsbD k = decide (k < x.items.length)) ∧
      (∀ k, k < x.items.length → ∃ it : Item × Word, x.items[k]? = some it ∧ g.tidOf k = it.2 ∧
        vget? (g.vreg 0) k = some it.1.a ∧ vget? (g.vreg 1) k = some it.1.b ∧ vget? (g.vreg 2) k = some it.1.c) ∧
      (∀ n, n < 3 → vmap (g.vreg n) = g.live) ∧ (∀ n, 3 ≤ n → n < 128 → g.vreg n = []) ∧
      g.dead = 0 ∧ (∀ k, k < 14 → g.mreg k = 0) ∧ (∀ k, k < 7 → g.preg k = false) ∧
      (∀ k, k < 16 → g.sreg k = d.args.getD k 0) ∧ (∀ k, 16 ≤ k → k < 64 → g.sreg k = 0) ∧ g.gstat = 0 ∧ g.srseed = 0)

/-- Nothing is refused: every instruction word and every step of every agent answers a next state wherever it is executed, but for an
instruction word in a state whose `cur` names no resident group, which is no moment of the machine and stops by name (07 R168, 04 R83). -/
def Obligations.NothingIsRefused : Prop :=
  ∀ (i : Instr) (s : State),
    (∃ t, exec i s = .next t) ∨
    (exec i s = .fault .noIssuingGroup ∧ (viewForm i).isSome = true ∧ ∀ r, s.cur = some r → s.group? r = none)

/-- The steps of a memory instruction taken one by one (04 R83-R85, 11 R267): each move performs one lane that is left, of a load, a fragment load, a
walker read or an MRD what the lane reads, of a store or an MWR its bytes, of an MSCALE its word times its factor; between two of them any other
agent's step may come; after the last one a load's results are in flight and the group stands at its next instruction. Which of an instruction's lanes
perform at issue and which one by one is for the schedule to say (DESIGN CHOICE, log entry 59). -/
def Obligations.LaneStepsTakeOneLane : Prop :=
  (∀ (s : State) (ms : List Move) (r : GRef) (w : Workgroup) (g : Machine.Group) (q : LaneReq) (k : Nat) (a : LaneStep) (ext : List Byte),
    s.moves = .lane r k ext :: ms → s.alive = true → s.due = none →
    let s0 : State := { s with moves := ms }
    s0.stands r w g → g.wait = .lanes q → (∀ b ∈ q.todo, g.live.getLsbD (b.lane % 64) = true) → q.todo[k]? = some a → q.waits k a = false →
    s0.anyHeld w.core [(a.lane, a.ps)] = false →
    let rest := q.todo.eraseIdx k
    let epoch := (s.col (columnOf w.core)).epoch
    ((∀ o, q.kind ≠ .store o) → (∀ int mode, q.kind ≠ .scale int mode) →
      let y := s0.readLane w.core (if q.kind = .acc then .none else .load q.hint) a.ps q.met
      let q' : LaneReq := { q with todo := rest, got := q.got ++ [(a.lane, y.1)], met := y.2.1 }
      (rest ≠ [] → step s = .next (y.2.2.modGroup r fun g => { g with wait := .lanes q', lastEpoch := epoch })) ∧
      (rest = [] → step s = .next (y.2.2.lanesDone r w.core q'))) ∧
    (∀ o, q.kind = .store o → s0.roomFor (columnOf w.core) [(a.lane, a.ps)] = true →
      let x : Writer := { r, core := w.core, tid := (g.tidOf a.lane).toNat, iaddr := g.pc.toNat, lane := if o then none else some a.lane }
      let u := s0.storePieces x a.ps a.data
      (rest ≠ [] → step s = .next (u.modGroup r fun g => { g with wait := .lanes { q with todo := rest }, lastEpoch := epoch })) ∧
      (rest = [] → step s = .next (u.lanesDone r w.core { q with todo := rest }))) ∧
    (∀ int mode, q.kind = .scale int mode →
      let y := s0.readLane w.core .none a.ps q.met
      let v := scaleWord int mode (leNat y.1.bytes) (leNat a.data)
      let x : Writer := { r, core := w.core, tid := (g.tidOf a.lane).toNat, iaddr := g.pc.toNat, lane := some a.lane }
      let u := (y.2.2.storePieces x a.ps (leBytes 4 v.1)).modGroup r fun g => g.flag v.2
      let q' : LaneReq := { q with todo := rest, met := y.2.1 }
      y.1.bad = none → (∀ p ∈ q.got, p.2.bad = none) →
      (rest ≠ [] → step s = .next (u.modGroup r fun g => { g with wait := .lanes q', lastEpoch := epoch })) ∧
      (rest = [] → step s = .next (u.lanesDone r w.core q')))) ∧
  (∀ (s : State) (core : Nat) (h : Fill) (l : Loc) (mt n : Nat), s.readable (some (columnOf core)) l n →
    (s.cluster (clusterOf core)).badWords l n = [] →
    (s.readLane core h [(.mem l mt, n)] {}).1 = { parts := [.here (s.colRead (columnOf core) l n)], bad := none }) ∧
  (∀ (s : State) (r : GRef) (core : Nat) (q : LaneReq) (ty : Ty), q.kind = .load ty → q.got ≠ [] →
    (∀ l, s.launchOf r.ctx r.lnum = some l → l.cancelled = false) → s.lanesDone r core q = s.modGroup r fun g => ({ g with
      wait := .none, lastEpoch := (s.col (columnOf core)).epoch
      pend := g.pend ++ [{ vec := q.vec, first := q.dst, n := q.n, lanes := q.got.map fun p => (p.1, p.2.laneVal ty), token := q.token
                           iaddr := g.pc.toNat, mstep := (g.mcall.map (·.2)).getD 0, epoch := (s.col (columnOf core)).epoch }] } :
        Machine.Group).stepOn (s.macrosOf r.ctx r.lnum))

/-- An epoch ends 128 ns after its start and is confirmed once 100 ns more have passed (05 R111, 20 R341): while such a step is due nothing else is
taken and no time passes, and so it is of a watchdog whose count is at its limit (12 R279); and time stops at the next of these moments, at the last
moment of a copy of a peer's line (05 R119) and at the next market clear and balance measurement (13 R293, R295). -/
def Obligations.EpochsEndOnTime : Prop :=
  (∀ (s t : State), s.due = some t → step s = .next t ∧ t.now = s.now ∧ t.moves = s.moves) ∧
  (∀ (s : State) (c : Nat), s.alive = true → c < 32 → (s.col c).rolling = false →
    ((s.col c).start + 512 ≤ s.now ∨ ∃ e t rest, (s.col c).ended = (e, t) :: rest ∧ t + 400 < s.now) → s.due ≠ none) ∧
  (∀ (s : State) (w : Workgroup) (g : Machine.Group), s.alive = true → w ∈ s.wgs → g ∈ w.groups → g.retired = none → w.ending = none → w.toFill = 0 →
    s.stands (w.refOf g) w g →
    (g.wait.counted = true ∧ (bits g.wdog.toNat 15 0 ≠ 0 ∧ bits g.wdog.toNat 15 0 * 400000 ≤ g.waitCnt ∨ 2000000000 ≤ g.hold) ∨
     g.wait.stalls = true ∧ bits g.wdog.toNat 31 16 ≠ 0 ∧ bits g.wdog.toNat 31 16 * 4000000 ≤ g.runCnt) → s.due ≠ none) ∧
  (∀ (s : State) (ms : List Move) (n : Nat), s.alive = true → s.due = none → s.moves = .tick n :: ms →
    ∃ t, step s = .next t ∧ s.now ≤ t.now ∧ t.now ≤ s.now + n ∧
      (∀ c, c < 32 → (s.col c).rolling = false → t.now ≤ (s.col c).start + 512 ∧
        ∀ e u rest, (s.col c).ended = (e, u) :: rest → t.now ≤ u + 401) ∧
      (s.now ≤ s.nextClear → t.now ≤ s.nextClear) ∧ (s.now ≤ s.nextBalance → t.now ≤ s.nextBalance) ∧
      (∀ k ∈ s.peerCopies, s.now ≤ k.at_ + 8000 → t.now ≤ k.at_ + 8000))
end

