-- ==== Sys2Proof/Laws/Decode.lean ====
section
/-!
SUPPORT. Fields of a word and of a byte string read back as they were laid in.
-/

namespace Sys2Proof

/-! ### Fields -/

set_option maxRecDepth 8000 in
theorem operandOf_bits (o : Operand) : operandOf (operandBits o) = o := by
  cases o with
  | vec n => revert n; decide +kernel
  | sca n => revert n; decide +kernel
  | map n => revert n; decide +kernel
  | walk n => revert n; decide +kernel
  | pred n => revert n; decide +kernel
  | ident n => cases n <;> rfl
  | int n => revert n; decide +kernel
  | _ => rfl

theorem guardOf_bits (g : Guard) : guardOf (guardBits g) = g := by
  obtain ⟨n, p⟩ := g
  revert n p; decide +kernel

theorem hintOf_bits (h : Hint) : hintOf (hintBits h) = h := by cases h <;> rfl
theorem scopeOf_bits (s : Scope) : scopeOf (scopeBits s) = s := by cases s <;> rfl
theorem tyOf_bits (t : Ty) : tyOf (tyBits t) = t := by cases t <;> rfl

/-! ### Fields of a join -/

/-- Format R, read back: the widths are sums here, as a join of fields has them. -/
theorem fieldsR (d a b c e : BitVec 8) (x : BitVec 10) :
    let z := d ++ (a ++ (b ++ (c ++ (e ++ x))))
    z.extractLsb' 42 8 = d ∧ z.extractLsb' 34 8 = a ∧ z.extractLsb' 26 8 = b ∧ z.extractLsb' 18 8 = c ∧ z.extractLsb' 10 8 = e ∧
      z.extractLsb' 0 10 = x := by
  refine ⟨?_, ?_, ?_, ?_, ?_, ?_⟩ <;> (
    apply BitVec.eq_of_getLsbD_eq
    intro k hk
    simp only [BitVec.getLsbD_extractLsb', BitVec.getLsbD_append, hk, decide_true, Bool.true_and]
    repeat first | rw [if_neg (by omega)] | rw [if_pos (by omega)]
    first | rfl | (congr 1; omega))

theorem fieldsI (d a : BitVec 8) (i : BitVec 32) (x : BitVec 2) :
    let z := d ++ (a ++ (i ++ x))
    z.extractLsb' 42 8 = d ∧ z.extractLsb' 34 8 = a ∧ z.extractLsb' 2 32 = i ∧ z.extractLsb' 0 2 = x := by
  refine ⟨?_, ?_, ?_, ?_⟩ <;> (
    apply BitVec.eq_of_getLsbD_eq
    intro k hk
    simp only [BitVec.getLsbD_extractLsb', BitVec.getLsbD_append, hk, decide_true, Bool.true_and]
    repeat first | rw [if_neg (by omega)] | rw [if_pos (by omega)]
    first | rfl | (congr 1; omega))

theorem fieldsM (d a b : BitVec 8) (i : BitVec 24) (x : BitVec 2) :
    let z := d ++ (a ++ (b ++ (i ++ x)))
    z.extractLsb' 42 8 = d ∧ z.extractLsb' 34 8 = a ∧ z.extractLsb' 26 8 = b ∧ z.extractLsb' 2 24 = i ∧ z.extractLsb' 0 2 = x := by
  refine ⟨?_, ?_, ?_, ?_, ?_⟩ <;> (
    apply BitVec.eq_of_getLsbD_eq
    intro k hk
    simp only [BitVec.getLsbD_extractLsb', BitVec.getLsbD_append, hk, decide_true, Bool.true_and]
    repeat first | rw [if_neg (by omega)] | rw [if_pos (by omega)]
    first | rfl | (congr 1; omega))

theorem opsR_areaR (o : OpsR) : opsR (areaR o) = o := by
  obtain ⟨h1, h2, h3, h4, h5, h6⟩ := fieldsR (operandBits o.d) (operandBits o.a) (operandBits o.b) (operandBits o.c) (operandBits o.e) o.x
  obtain ⟨d, a, b, c, e, x⟩ := o
  unfold opsR
  congr 1
  exacts [(congrArg operandOf h1).trans (operandOf_bits d), (congrArg operandOf h2).trans (operandOf_bits a),
    (congrArg operandOf h3).trans (operandOf_bits b), (congrArg operandOf h4).trans (operandOf_bits c),
    (congrArg operandOf h5).trans (operandOf_bits e)]

theorem opsI_areaI (o : OpsI) : opsI (areaI o) = o := by
  obtain ⟨h1, h2, h3, h4⟩ := fieldsI (operandBits o.d) (operandBits o.a) o.imm o.z
  obtain ⟨d, a, i, z⟩ := o
  unfold opsI
  congr 1
  exacts [(congrArg operandOf h1).trans (operandOf_bits d), (congrArg operandOf h2).trans (operandOf_bits a)]

theorem opsM_areaM (o : OpsM) : opsM (areaM o) = o := by
  obtain ⟨h1, h2, h3, h4, h5⟩ := fieldsM (operandBits o.d) (operandBits o.a) (operandBits o.b) o.imm o.z
  obtain ⟨d, a, b, i, z⟩ := o
  unfold opsM
  congr 1
  exacts [(congrArg operandOf h1).trans (operandOf_bits d), (congrArg operandOf h2).trans (operandOf_bits a),
    (congrArg operandOf h3).trans (operandOf_bits b)]

theorem fieldsWord (stl wait : BitVec 6) (set sc : BitVec 3) (y mc : BitVec 1) (g1 g2 fn ty : BitVec 4) (ch : BitVec 2) (p : BitVec 8)
    (a : BitVec 50) :
    let z := stl ++ (set ++ (wait ++ (y ++ (g1 ++ (g2 ++ (ch ++ (mc ++ (p ++ (fn ++ (ty ++ (sc ++ a)))))))))))
    z.extractLsb' 90 6 = stl ∧ z.extractLsb' 87 3 = set ∧ z.extractLsb' 81 6 = wait ∧ z.extractLsb' 80 1 = y ∧ z.extractLsb' 76 4 = g1 ∧
      z.extractLsb' 72 4 = g2 ∧ z.extractLsb' 70 2 = ch ∧ z.extractLsb' 69 1 = mc ∧ z.extractLsb' 61 8 = p ∧ z.extractLsb' 57 4 = fn ∧
      z.extractLsb' 53 4 = ty ∧ z.extractLsb' 50 3 = sc ∧ z.extractLsb' 0 50 = a := by
  refine ⟨?_, ?_, ?_, ?_, ?_, ?_, ?_, ?_, ?_, ?_, ?_, ?_, ?_⟩ <;> (
    apply BitVec.eq_of_getLsbD_eq
    intro k hk
    simp only [BitVec.getLsbD_extractLsb', BitVec.getLsbD_append, hk, decide_true, Bool.true_and]
    repeat first | rw [if_neg (by omega)] | rw [if_pos (by omega)]
    first | rfl | (congr 1; omega))

theorem opcOf_word (c : Ctl) (p : BitVec 8) (a : BitVec 50) : opcOf (word c p a) = p :=
  (fieldsWord c.stl c.wait c.set (scopeBits c.sc) (BitVec.ofBool c.yld) (BitVec.ofBool c.mc) (guardBits c.g1) (guardBits c.g2) c.fn
    (tyBits c.ty) (hintBits c.ch) p a).2.2.2.2.2.2.2.2.1

theorem areaOf_word (c : Ctl) (p : BitVec 8) (a : BitVec 50) : areaOf (word c p a) = a :=
  (fieldsWord c.stl c.wait c.set (scopeBits c.sc) (BitVec.ofBool c.yld) (BitVec.ofBool c.mc) (guardBits c.g1) (guardBits c.g2) c.fn
    (tyBits c.ty) (hintBits c.ch) p a).2.2.2.2.2.2.2.2.2.2.2.2

theorem ctlOf_word (c : Ctl) (p : BitVec 8) (a : BitVec 50) : ctlOf (word c p a) = c := by
  have hb : ∀ b : Bool, (BitVec.ofBool b == 1#1) = b := by decide
  obtain ⟨h1, h2, h3, h4, h5, h6, h7, h8, -, h10, h11, h12, -⟩ := fieldsWord c.stl c.wait c.set (scopeBits c.sc) (BitVec.ofBool c.yld)
    (BitVec.ofBool c.mc) (guardBits c.g1) (guardBits c.g2) c.fn (tyBits c.ty) (hintBits c.ch) p a
  obtain ⟨stl, set, wait, yld, g1, g2, ch, mc, fn, ty, sc⟩ := c
  rw [ctlOf, Ctl.mk.injEq]
  exact ⟨h1, h2, h3, (congrArg (· == 1#1) h4).trans (hb yld), (congrArg guardOf h5).trans (guardOf_bits g1),
    (congrArg guardOf h6).trans (guardOf_bits g2), (congrArg hintOf h7).trans (hintOf_bits ch), (congrArg (· == 1#1) h8).trans (hb mc), h10,
    (congrArg tyOf h11).trans (tyOf_bits ty), (congrArg scopeOf h12).trans (scopeOf_bits sc)⟩

/-- A word that is built from its fields decodes by its opcode, its common fields and its operand area. -/
theorem decodeWord_word (c : Ctl) (p : BitVec 8) (a : BitVec 50) : decodeWord (word c p a) = decodeOpc p.toNat c a := by
  rw [decodeWord, opcOf_word, ctlOf_word, areaOf_word]

/-! ### Bytes -/

theorem length_leBytes (n v : Nat) : (leBytes n v).length = n := by
  induction n generalizing v with
  | zero => rfl
  | succ n ih => simp [leBytes, ih]

theorem leNat_leBytes (n v : Nat) : leNat (leBytes n v) = v % 256 ^ n := by
  induction n generalizing v with
  | zero => simp [leBytes, leNat, Nat.mod_one]
  | succ n ih =>
    have h : (BitVec.ofNat 8 v).toNat = v % 256 := BitVec.toNat_ofNat v 8
    rw [leBytes, leNat, ih, h, Nat.pow_succ, Nat.mul_comm (256 ^ n) 256, Nat.mod_mul]

/-- The twelve bytes of a word, and what follows them, decode as the word does. -/
theorem decode_leBytes (w : InstrWord) (rest : List Byte) :
    decode (leBytes 12 w.toNat ++ rest) = match decodeWord w with | some i => .ok (i, rest) | none => .error .illegalOpcode := by
  have hl := length_leBytes 12 w.toNat
  have ht : (leBytes 12 w.toNat ++ rest).take 12 = leBytes 12 w.toNat := by rw [List.take_append_of_le_length (by omega), List.take_of_length_le (by omega)]
  have hd : (leBytes 12 w.toNat ++ rest).drop 12 = rest := by rw [List.drop_append_of_le_length (by omega), List.drop_of_length_le (by omega)]; rfl
  unfold decode
  rw [if_neg (by rw [List.length_append]; omega), ht, hd, leNat_leBytes, Nat.mod_eq_of_lt (by have := w.isLt; omega), BitVec.ofNat_toNat, BitVec.setWidth_eq]
  first | done | rfl

end Sys2Proof
end

