-- ==== Sys2Proof/Laws/Issue.lean ====
section
/-! SUPPORT. An instruction word in issue: every word of the table goes through the one set of checks, and what those checks answer. -/

namespace Sys2Proof.Machine

theorem issueWord_of_issuing {s : State} {i : Instr} {own all : Bool} {x : Issuing} (body : View → Env → State → Act)
    (h : s.issuing i own all = some x) : issueWord i s own all body = .next (x.next s (body x.v x.e x.t)) := by
  unfold State.issuing at h
  unfold issueWord
  split at h
  · cases h
  · split at h
    · split at h
      · cases h
        simp only [*, Issuing.next, State.issue]
      · cases h
    · cases h

theorem issuing_view {s : State} {i : Instr} {own all : Bool} {x : Issuing} (h : s.issuing i own all = some x) :
    viewForm i = some (x.v, x.f) := by
  unfold State.issuing at h
  split at h
  · cases h
  · split at h
    · split at h
      · cases h; assumption
      · cases h
    · cases h

/-- A field of the word as its view has it. -/
theorem issuing_field {s : State} {i : Instr} {own all : Bool} {x : Issuing} {v : View} {f : Form} {α : Type} (k : View → α)
    (h : s.issuing i own all = some x) (hv : viewForm i = some (v, f)) : k x.v = k v := by
  have := (issuing_view h).symm.trans hv
  simp only [Option.some.injEq, Prod.mk.injEq] at this
  rw [this.1]

/-- Every instruction word passes the same checks before its own meaning runs. -/
theorem exec_issues {i : Instr} (h : (viewForm i).isSome) :
    ∃ all body, ∀ s, exec i s = issueWord i s (ownMaps i) all body := by
  cases i
  all_goals first
    | (cases h; done)
    | exact ⟨_, _, fun s => rfl⟩

theorem issueWord_eq {s : State} {i : Instr} {own all : Bool} {r : GRef} {w : Workgroup} {g : Group} {v : View} {f : Form}
    (body : View → Env → State → Act) (hc : s.cur = some r) (hg : s.group? r = some (w, g)) (hv : viewForm i = some (v, f)) :
    issueWord i s own all body = .next (s.issue r w g v f own all (body v)) := by
  simp only [issueWord, hc, hg, hv]

/-- A word whose checks stop it leaves the state they leave. -/
theorem exec_of_stop {s t : State} {i : Instr} {r : GRef} {w : Workgroup} {g : Group} {v : View} {f : Form}
    (hc : s.cur = some r) (hg : s.group? r = some (w, g)) (hv : viewForm i = some (v, f))
    (h : ∀ all, s.checks r w g v f (ownMaps i) all = .stop t) : exec i s = .next t := by
  obtain ⟨all, body, he⟩ := exec_issues (i := i) (by rw [hv]; rfl)
  rw [he, issueWord_eq body hc hg hv, State.issue, h]

/-- Registers that no result in flight names hold nothing up. -/
theorem interlock_le {g : Group} {now cyc : Nat} {regs : List RegName}
    (h : ∀ x ∈ regs, (∀ p ∈ g.pend, x ∉ p.regs) ∧ ∀ t, (x, t) ∈ g.ready → t ≤ now) : g.interlock now cyc regs = now := by
  have h1 : (g.ready.filter fun r => now < r.2 && regs.contains r.1) = [] := by
    rw [List.filter_eq_nil_iff]
    rintro ⟨x, t⟩ hx hc
    simp only [Bool.and_eq_true, decide_eq_true_eq, List.contains_iff_mem] at hc
    have := (h x hc.2).2 t hx
    omega
  have h2 : (g.pend.any fun p => p.regs.any regs.contains) = false := by
    rw [Bool.eq_false_iff]
    intro hc
    simp only [List.any_eq_true, List.contains_iff_mem] at hc
    obtain ⟨p, hp, x, hx, hr⟩ := hc
    exact (h x hr).1 p hp hx
  simp only [Group.interlock, h1, h2]
  simp

end Sys2Proof.Machine
end

