-- ==== Sys2Proof/Laws/Frames.lean ====
section
/-!
SUPPORT. What the shared operations leave alone: the checks before an instruction word, the fetch of a line, the raising of a fault and what
follows a meaning's answer write no byte of memory.
-/

namespace Sys2Proof.Machine

theorem sameMem_refl (s : State) : s.sameMem s := ⟨rfl, rfl, rfl, rfl⟩
theorem sameMem_trans {s t u : State} (h : s.sameMem t) (k : t.sameMem u) : s.sameMem u :=
  ⟨k.1.trans h.1, k.2.1.trans h.2.1, k.2.2.1.trans h.2.2.1, k.2.2.2.trans h.2.2.2⟩
theorem sameMem_mem {s t : State} (h : s.sameMem t) (st : Store) : t.mem st = s.mem st := by
  obtain ⟨h1, h2, h3, h4⟩ := h; cases st <;> assumption

/-- Two states whose four stores agree. -/
theorem sameMem_of {s t : State} (h1 : t.dram = s.dram) (h2 : t.sram = s.sram) (h3 : t.bs = s.bs) (h4 : t.ac = s.ac) : s.sameMem t := ⟨h1, h2, h3, h4⟩

theorem modWg_sameMem (s : State) (r : GRef) (f : Workgroup → Workgroup) : s.sameMem (s.modWg r f) := sameMem_of rfl rfl rfl rfl
theorem modGroup_sameMem (s : State) (r : GRef) (f : Group → Group) : s.sameMem (s.modGroup r f) := sameMem_of rfl rfl rfl rfl
theorem setGroup_sameMem (s : State) (r : GRef) (g : Group) : s.sameMem (s.setGroup r g) := sameMem_of rfl rfl rfl rfl
theorem setCol_sameMem (s : State) (c : Nat) (k : Column) : s.sameMem (s.setCol c k) := sameMem_of rfl rfl rfl rfl
theorem setCluster_sameMem (s : State) (c : Nat) (k : Cluster) : s.sameMem (s.setCluster c k) := sameMem_of rfl rfl rfl rfl
theorem setCore_sameMem (s : State) (c : Nat) (k : Core) : s.sameMem (s.setCore c k) := sameMem_of rfl rfl rfl rfl
theorem setCtx_sameMem (s : State) (c : Nat) (k : Context) : s.sameMem (s.setCtx c k) := sameMem_of rfl rfl rfl rfl
theorem count_sameMem (s : State) (t i n : Nat) : s.sameMem (s.count t i n) := sameMem_of rfl rfl rfl rfl
theorem endWg_sameMem (s : State) (r : GRef) (x : BitVec 512) : s.sameMem (s.endWg r x) := sameMem_of rfl rfl rfl rfl
theorem retire_sameMem (s : State) (r : GRef) (c : Nat) : s.sameMem (s.retire r c) := sameMem_of rfl rfl rfl rfl
theorem sendRecord_sameMem (s : State) (c : Option Nat) (x l : Nat) (r : BitVec 512) : s.sameMem (s.sendRecord c x l r) :=
  sameMem_of rfl rfl rfl rfl
theorem lost_sameMem (s : State) (r : GRef) (w : Workgroup) (g : Group) (f : FaultInfo) : s.sameMem (s.lost r w g f) :=
  sameMem_of rfl rfl rfl rfl
theorem doubleFault_sameMem (s : State) (r : GRef) (w : Workgroup) (g : Group) (f : FaultInfo) : s.sameMem (s.doubleFault r w g f) :=
  sameMem_of rfl rfl rfl rfl

theorem foldl_sameMem {α : Type} (f : State → α → State) (h : ∀ (s : State) a, s.sameMem (f s a)) (l : List α) (s : State) :
    s.sameMem (l.foldl f s) := by
  induction l generalizing s with
  | nil => exact sameMem_refl s
  | cons a t ih => exact sameMem_trans (h s a) (ih (f s a))

theorem ask_sameMem (s : State) (c h : Nat) (ps : List Nat) (a : Access) (w : Requester) : s.sameMem (s.ask c h ps a w) :=
  foldl_sameMem _ (fun (s : State) p => by dsimp only; split <;> exact sameMem_of rfl rfl rfl rfl) _ _

theorem injTake_sameMem (s : State) : s.sameMem s.injTake := by
  unfold State.injTake
  dsimp only
  split <;> split <;> split <;> exact sameMem_of rfl rfl rfl rfl

theorem countBad_sameMem (s : State) (bs : List Loc) : s.sameMem (s.countBad bs) :=
  foldl_sameMem _ (fun (s : State) b => by
    split
    · split
      · exact count_sameMem ..
      · split
        · exact count_sameMem ..
        · exact sameMem_refl s
    · exact count_sameMem ..) _ _

theorem meetBut_sameMem (s : State) (p : Loc → Bool) (l : Loc) (n : Nat) : s.sameMem (s.meetBut p l n).2 := by
  unfold State.meetBut
  dsimp only
  refine sameMem_trans ?_ (countBad_sameMem ..)
  split
  · exact injTake_sameMem s
  · exact sameMem_refl s

theorem look_sameMem (s : State) (c : Nat) (rs : List (Loc × Nat)) : s.sameMem (s.look c rs) := by
  unfold State.look
  split
  · exact setCol_sameMem ..
  · exact sameMem_refl s

/-- A read of a range changes no byte. -/
theorem readAs_sameMem (s : State) (c : Nat) (l : Loc) (n : Nat) : s.sameMem (s.readAs c l n).2.2 := by
  unfold State.readAs
  split
  · exact look_sameMem ..
  · exact sameMem_trans (meetBut_sameMem ..) (look_sameMem ..)

/-- The state that the fetch of a line leaves. -/
def FetchRes.state : FetchRes → State | .ok _ s | .fault _ s | .wait s => s

theorem fetchLine_sameMem (s : State) (r : GRef) (w : Workgroup) (g : Group) (a : Nat) : s.sameMem (s.fetchLine r w g a).state := by
  unfold State.fetchLine
  dsimp only
  split
  · exact sameMem_refl s
  · split
    · exact sameMem_refl s
    · exact ask_sameMem ..
    · split
      · split
        · exact sameMem_refl s
        · have h := readAs_sameMem s (columnOf w.core) ‹Loc› 64
          split <;> rename_i k <;> rw [k] at h
          · exact h
          · exact sameMem_trans h (modGroup_sameMem ..)
      · exact sameMem_refl s

/-- The state a checked target leaves. -/
def Landing.state : Landing → State | .ok s | .fault _ s | .wait s => s

theorem checkTarget_sameMem (s : State) (r : GRef) (w : Workgroup) (g : Group) (t : DWord) (k : Bool) :
    s.sameMem (s.checkTarget r w g t k).state := by
  unfold State.checkTarget
  dsimp only
  split
  · exact sameMem_refl s
  · split
    · exact sameMem_refl s
    · split
      · exact sameMem_refl s
      · have h := fetchLine_sameMem s r w g t.toNat
        split <;> rename_i k <;> rw [k] at h
        · split <;> exact h
        · exact h
        · exact h

/-- The state that the read of a trap table's entry leaves. -/
def TrapEntry.state (s : State) : TrapEntry → State | .val _ t | .fail t | .wait t => t | .stay => s

theorem trapEntry_sameMem (s : State) (r : GRef) (w : Workgroup) (g : Group) (k : Cause) :
    s.sameMem ((s.trapEntry r w g k).state s) := by
  unfold State.trapEntry
  split
  · exact sameMem_refl s
  · split
    · exact sameMem_refl s
    · exact ask_sameMem ..
  · split
    · exact sameMem_refl s
    · rename_i l _ n _ _
      have h := readAs_sameMem s (columnOf w.core) l n
      split <;> rename_i k <;> rw [k] at h <;> exact h
  · split
    · exact sameMem_refl s
    · exact sameMem_refl s
    · split <;> exact sameMem_refl s
  · exact sameMem_refl s

theorem deliver_sameMem {s t : State} {r : GRef} {w : Workgroup} {g : Group} {f : FaultInfo} (h : s.deliver r w g f = some t) :
    s.sameMem t := by
  have k := trapEntry_sameMem s r w g f.cause
  unfold State.deliver at h
  split at h
  · split at h
    · cases h; exact sameMem_trans (modGroup_sameMem ..) (sendRecord_sameMem ..)
    · cases h
  · split at h
    · cases h; exact doubleFault_sameMem ..
    · split at h
      · cases h; exact lost_sameMem ..
      · split at h <;> rename_i e <;> rw [e] at k <;> cases h
        · exact k
        · exact sameMem_trans k (doubleFault_sameMem ..)
        · split
          · exact sameMem_trans k (lost_sameMem ..)
          · exact sameMem_trans k (modGroup_sameMem ..)

theorem forget_sameMem (s : State) (who : Requester) : s.sameMem (s.forget who) := sameMem_of rfl rfl rfl rfl

/-- Raising a fault writes no byte. -/
theorem raise_sameMem (s : State) (r : GRef) (w : Workgroup) (g : Group) (f : FaultInfo) : s.sameMem (s.raise r w g f) := by
  unfold State.raise
  dsimp only
  generalize hf : ({ f with mstep := (g.mcall.map (·.2)).getD g.rstep
                            resume := (g.resumeOf (s.macrosOf r.ctx r.lnum) f.cause).1
                            rstep := (g.resumeOf (s.macrosOf r.ctx r.lnum) f.cause).2 } : FaultInfo) = f'
  have h : s.sameMem ((s.forget (.group r)).modGroup r fun g => g.faulted (.fault f')) :=
    sameMem_trans (forget_sameMem s _) (modGroup_sameMem ..)
  cases hd : State.deliver ((s.forget (.group r)).modGroup r fun g => g.faulted (.fault f')) r w (g.faulted (.fault f')) f' with
  | none => exact h
  | some u => exact sameMem_trans h (deliver_sameMem hd)

theorem kill_sameMem (s : State) (r : GRef) (m : LaneMap) (a b c d : Nat) : s.sameMem (s.kill r m a b c d) := by
  unfold State.kill
  split
  · exact sameMem_refl s
  · dsimp only
    split
    · exact sameMem_refl s
    · split <;> exact sameMem_of rfl rfl rfl rfl

theorem killBad_sameMem (s : State) (r : GRef) (bad : List (Nat × Loc × Nat)) (a b : Nat) : s.sameMem (s.killBad r bad a b) := by
  unfold State.killBad
  split
  · exact sameMem_refl s
  · exact kill_sameMem ..

theorem copyPeer_sameMem (s : State) (tower f a mt : Nat) : s.sameMem (s.copyPeer tower f a mt) := by
  unfold State.copyPeer
  split <;> exact sameMem_of rfl rfl rfl rfl

theorem countMet_sameMem (s : State) (core : Nat) (old new : Met) : s.sameMem (s.countMet core old new) := by
  unfold State.countMet
  extract_lets t ws
  have h : s.sameMem t := sameMem_trans (by split; exacts [sameMem_refl s, injTake_sameMem s]) (countBad_sameMem ..)
  split
  · exact h
  · exact sameMem_trans h (count_sameMem ..)

/-- What the reads of an instruction meet changes no byte. -/
theorem meets_sameMem (s : State) (core : Nat) (h : Fill) (cached : Bool) (mems : List (Loc × Nat × Nat)) (m : Met) :
    s.sameMem (s.meets core h cached mems m).2.2 :=
  sameMem_trans (sameMem_trans (countMet_sameMem ..) (look_sameMem ..)) (setCluster_sameMem ..)

theorem readAll_sameMem (s : State) (core : Nat) (h : Fill) (ls : List (Nat × List Piece)) (m : Met) :
    s.sameMem (s.readAll core h ls m).2.2 := by
  have hm := meets_sameMem s core h true (ls.flatMap fun p => memsOf p.2) m
  unfold State.readAll
  generalize s.meets core h true (ls.flatMap fun p => memsOf p.2) m = x at hm ⊢
  obtain ⟨units, m', t⟩ := x
  refine sameMem_trans hm (foldl_sameMem _ (fun t p => foldl_sameMem _ (fun u q => ?_) _ _) _ _)
  split
  · exact copyPeer_sameMem ..
  · exact sameMem_refl u

/-- The state that reading walkers leaves. -/
def WalkersRes.state (s : State) : WalkersRes → State | .ok _ t | .park t => t | _ => s

theorem walkerDone_sameMem (s : State) (e : Env) (m : LaneMap) (n : Nat) (gs : List (Nat × Got)) :
    s.sameMem ((s.walkerDone e m n gs).state s) := by
  unfold State.walkerDone
  extract_lets k vals bad s1
  split
  · exact sameMem_refl s
  · exact sameMem_trans (modGroup_sameMem ..) (killBad_sameMem ..)

theorem readWalker_sameMem (s : State) (e : Env) (m : LaneMap) (n : Nat) : s.sameMem ((s.readWalker e m n).state s) := by
  have hw : ∀ (t : State) (e : Env) (gs : List (Nat × Got)), s.sameMem t → s.sameMem (WalkersRes.state s (t.walkerDone e m n gs)) := fun t e gs h => by
    have k := walkerDone_sameMem t e m n gs
    cases hx : t.walkerDone e m n gs with
    | ok | park => rw [hx] at k; exact sameMem_trans h k
    | fault | miss | held | ask => exact sameMem_refl s
  have hf : ∀ (t : State) (met : Met) (gs : List (Nat × Got)), s.sameMem t → s.sameMem (WalkersRes.state s
      (if (gs.flatMap fun p => s.missing e.g .read p.2).isEmpty then t.walkerDone { e with met } m n (gs.map fun p => (p.1, s.settled e.g .read p.2))
       else .ask (gs.flatMap fun p => s.missing e.g .read p.2))) := fun t met gs h => by
    split
    · exact hw t _ _ h
    · exact sameMem_refl s
  unfold State.readWalker
  split
  · exact hf s _ _ (sameMem_refl s)
  · split
    · exact sameMem_refl s
    · exact sameMem_refl s
    · split
      · exact sameMem_refl s
      · exact hf _ _ _ (readAll_sameMem ..)

theorem readEach_sameMem (ns : List Nat) (s : State) (e : Env) (m : LaneMap) : s.sameMem ((s.readEach e m ns).state s) := by
  induction ns generalizing s e with
  | nil => exact sameMem_refl s
  | cons n ns ih =>
    have h := readWalker_sameMem s e m n
    rw [State.readEach]
    split
    · rename_i e' t k
      rw [k] at h
      have h2 := ih t e'
      generalize State.readEach t e' m ns = x at h2 ⊢
      cases x with
      | ok | park => exact sameMem_trans h h2
      | fault | miss | held | ask => exact sameMem_refl s
    · exact h

theorem readWalkers_sameMem (ns : List Nat) (s : State) (e : Env) (m : LaneMap) : s.sameMem ((s.readWalkers e m ns).state s) := by
  unfold State.readWalkers
  split
  · rename_i t h
    unfold State.walkersPark at h
    split at h
    · cases h
    · obtain ⟨n, _, hn⟩ := List.exists_of_findSome?_eq_some h
      split at hn
      · cases hn
      · split at hn
        · split at hn
          · cases hn
          · cases hn; exact modGroup_sameMem ..
        · cases hn
  · exact readEach_sameMem ..

theorem send_sameMem (s : State) (d : List (Nat × Nat)) (c l : Nat) (k : OutKind) : s.sameMem (s.send d c l k) := sameMem_of rfl rfl rfl rfl

theorem askPeers_sameMem (s : State) (e : Env) (as : List PeerAsk) (waits : Option Bool) : s.sameMem (s.askPeers e as waits) := by
  unfold State.askPeers
  dsimp only
  split
  · exact modGroup_sameMem ..
  · exact sameMem_trans (modGroup_sameMem ..) (foldl_sameMem _ (fun _ _ => send_sameMem ..) _ _)

/-- The state that the checks before a meaning leave. -/
def Admit.state : Admit → State | .stop s | .go _ s => s

theorem stay_sameMem (s : State) (r : GRef) (n : Nat) : s.sameMem (s.stay r n) := modGroup_sameMem ..

theorem stayFor_sameMem (s : State) (r : GRef) (n : Nat) (regs : List RegName) : s.sameMem (s.stayFor r n regs) :=
  sameMem_trans (stay_sameMem ..) (modGroup_sameMem ..)

/-- What a read met, without the rest of the state it left, is no change of memory. -/
theorem metBy_sameMem (s t : State) : s.sameMem (s.metBy t) := sameMem_of rfl rfl rfl rfl

theorem readied_sameMem (s : State) (r : GRef) (w : Workgroup) (g g1 : Group) (v : View) (f : Form) (all : Bool) :
    s.sameMem (s.readied r w g g1 v f all).state := by
  unfold State.readied
  extract_lets m0 words bad s1 g2 e0
  have h1 : s.sameMem s1 := by
    dsimp only [s1]
    split
    · exact sameMem_refl s
    · exact sameMem_trans (count_sameMem ..) (kill_sameMem ..)
  split
  · exact stay_sameMem ..
  split
  · exact h1
  · have h2 := readWalkers_sameMem ((walkersRead v f).map (·.val)).eraseDups s1 e0 m0
    generalize s1.readWalkers e0 m0 _ = x at h2 ⊢
    cases x with
    | fault y t => exact sameMem_trans (metBy_sameMem ..) (raise_sameMem ..)
    | miss ps => exact sameMem_trans (ask_sameMem s ..) (stay_sameMem ..)
    | held => exact stay_sameMem ..
    | ask ps => exact askPeers_sameMem ..
    | park t => exact sameMem_trans h1 h2
    | ok e t => dsimp only; split <;> exact sameMem_trans h1 h2

/-- The checks before a meaning write no byte. -/
theorem admit_sameMem (s : State) (r : GRef) (w : Workgroup) (g : Group) (v : View) (f : Form) (own all : Bool) :
    s.sameMem (s.checks r w g v f own all).state := by
  have hr : ∀ f, s.sameMem (Admit.stop (s.raise r w g f)).state := fun f => raise_sameMem s r w g f
  have hs : ∀ n, s.sameMem (Admit.stop (s.stay r n)).state := fun n => stay_sameMem s r n
  unfold State.checks
  dsimp only
  split
  · exact hr _
  split
  · exact hs _
  split
  · exact setGroup_sameMem s r _
  split
  · exact stayFor_sameMem ..
  split
  · exact hr _
  split
  · exact hr _
  · exact readied_sameMem ..

/-- The state in which a meaning's answer takes effect. -/
def Act.stateIn (t : State) : Act → State
  | .done u _ | .placed u _ | .park u _ | .ends u | .faultWith u _ => u
  | _ => t

/-- What follows a meaning's answer writes no byte of its own. -/
theorem conclude_sameMem {s t : State} (r : GRef) (w : Workgroup) (g : Group) (v : View) (f : Form) (a : Act) (ht : s.sameMem t)
    (ha : t.sameMem (a.stateIn t)) : s.sameMem (s.conclude t r w g v f a) := by
  have hu := sameMem_trans ht ha
  unfold State.conclude
  dsimp only
  cases a with
  | done u g' => exact sameMem_trans hu (setGroup_sameMem ..)
  | placed u g' => exact sameMem_trans hu (setGroup_sameMem ..)
  | park u g' => exact sameMem_trans hu (setGroup_sameMem ..)
  | ends u => exact hu
  | fault x => exact sameMem_trans (metBy_sameMem s t) (raise_sameMem ..)
  | faultWith u x => exact sameMem_trans hu (raise_sameMem ..)
  | stay ps acc => exact sameMem_trans (ask_sameMem ..) (stay_sameMem ..)
  | ask ps => exact askPeers_sameMem ..
  | jump g' pc chk =>
    have hc := sameMem_trans ht (checkTarget_sameMem t r w g pc chk)
    dsimp only
    split <;> rename_i k <;> rw [k] at hc
    · exact sameMem_trans hc (modGroup_sameMem ..)
    · exact sameMem_trans hc (raise_sameMem ..)
    · exact sameMem_trans hc (stay_sameMem ..)

/-- An instruction word writes no byte but what its own meaning writes. -/
theorem issueWord_sameMem {i : Instr} {s t : State} {own all : Bool} {body : View → Env → State → Act}
    (h : issueWord i s own all body = .next t) (hb : ∀ v e (u : State), u.sameMem ((body v e u).stateIn u)) : s.sameMem t := by
  unfold issueWord at h
  split at h
  · cases h
  · rename_i r _
    split at h
    · rename_i w g v f _ _
      cases h
      have ha := admit_sameMem s r w g v f own all
      unfold State.issue
      split <;> rename_i k <;> rw [k] at ha
      · exact ha
      · exact conclude_sameMem _ _ _ _ _ _ ha (hb ..)
    · cases h

end Sys2Proof.Machine
end

