-- ==== Sys2Proof/Laws/Memory.lean ====
section
/-!
SUPPORT. Memory: every operation keeps the canonical form, reading back what was written, and equal reads make equal memories.
-/

namespace Sys2Proof.Machine

/-! ### The canonical form -/

theorem wf_cons {c : Host.Cell} {t : Mem} :
    Memory.wf (c :: t) = true ↔ c.2 ≠ unlisted ∧ (∀ d ∈ t, c.1 < d.1) ∧ Memory.wf t = true := by
  induction t generalizing c with
  | nil => simp [Memory.wf]
  | cons d t ih =>
    rw [Memory.wf, Bool.and_eq_true, Bool.and_eq_true, ih]
    simp only [decide_eq_true_eq, bne_iff_ne, ne_eq, List.mem_cons, forall_eq_or_imp]
    constructor
    · rintro ⟨⟨h1, h2⟩, h3, h4, h5⟩
      exact ⟨h2, ⟨h1, fun e he => lt_trans h1 (h4 e he)⟩, h3, h4, h5⟩
    · rintro ⟨h2, ⟨h1, _⟩, h3, h4, h5⟩
      exact ⟨⟨h1, h2⟩, h3, h4, h5⟩

theorem readByte_below {m : Mem} {a : Nat} (h : ∀ d ∈ m, a < d.1) : readByte m a = unlisted := by
  induction m with
  | nil => rfl
  | cons c t ih =>
    rw [readByte, if_neg (Nat.ne_of_gt (h c (by simp))), ih fun d hd => h d (by simp [hd])]

theorem mem_writeByte {m : Mem} {a : Nat} {b : Byte} {d : Host.Cell} (h : d ∈ writeByte m a b) : d.1 = a ∨ d ∈ m := by
  induction m with
  | nil => simp only [writeByte] at h; split at h <;> simp_all
  | cons c t ih =>
    simp only [writeByte] at h
    split at h
    · split at h <;> simp_all
      rcases h with h | h | h <;> simp [h]
    · split at h
      · split at h <;> simp_all
        rcases h with h | h <;> simp [h]
      · rcases List.mem_cons.1 h with h | h
        · simp [h]
        · rcases ih h with h | h <;> simp [h]

/-- Writing one byte keeps the form. -/
theorem wf_writeByte {m : Mem} (h : Memory.wf m = true) (a : Nat) (b : Byte) : Memory.wf (writeByte m a b) = true := by
  induction m with
  | nil => simp only [writeByte]; split <;> simp_all [Memory.wf]
  | cons c t ih =>
    obtain ⟨h1, h2, h3⟩ := wf_cons.1 h
    simp only [writeByte]
    split
    · rename_i hlt
      split
      · exact h
      · rename_i hb
        refine wf_cons.2 ⟨hb, ?_, h⟩
        simp only [List.mem_cons, forall_eq_or_imp]
        exact ⟨hlt, fun d hd => lt_trans hlt (h2 d hd)⟩
    · split
      · rename_i heq
        split
        · exact h3
        · rename_i hb; exact wf_cons.2 ⟨hb, fun d hd => heq ▸ h2 d hd, h3⟩
      · rename_i hlt hne
        refine wf_cons.2 ⟨h1, fun d hd => ?_, ih h3⟩
        rcases mem_writeByte hd with hd | hd
        · omega
        · exact h2 d hd

theorem wf_writeRange {m : Mem} (h : Memory.wf m = true) (a : Nat) (bs : List Byte) : Memory.wf (writeRange m a bs) = true := by
  induction bs generalizing m a with
  | nil => exact h
  | cons b t ih => exact ih (wf_writeByte h a b) (a + 1)

theorem wf_filter {m : Mem} (h : Memory.wf m = true) (p : Host.Cell → Bool) : Memory.wf (m.filter p) = true := by
  induction m with
  | nil => rfl
  | cons c t ih =>
    obtain ⟨h1, h2, h3⟩ := wf_cons.1 h
    rw [List.filter_cons]
    split
    · exact wf_cons.2 ⟨h1, fun d hd => h2 d (List.mem_of_mem_filter hd), ih h3⟩
    · exact ih h3

theorem wf_zeroRange {m : Mem} (h : Memory.wf m = true) (a n : Nat) : Memory.wf (zeroRange m a n) = true := wf_filter h _

theorem wf_layOver {m : Mem} (h : Memory.wf m = true) (base : Nat) (saved : Mem) : Memory.wf (layOver m base saved) = true := by
  unfold layOver
  induction saved generalizing m with
  | nil => exact h
  | cons c t ih => exact ih (wf_writeByte h _ _)

/-! ### Reading back -/

theorem readByte_writeByte_eq {m : Mem} (h : Memory.wf m = true) (a : Nat) (b : Byte) : readByte (writeByte m a b) a = b := by
  induction m with
  | nil => simp only [writeByte]; split <;> simp_all [readByte]
  | cons c t ih =>
    obtain ⟨h1, h2, h3⟩ := wf_cons.1 h
    simp only [writeByte]
    split
    · rename_i hlt
      split
      · rename_i hb
        rw [hb]; refine readByte_below ?_
        simp only [List.mem_cons, forall_eq_or_imp]
        exact ⟨hlt, fun d hd => lt_trans hlt (h2 d hd)⟩
      · simp [readByte]
    · split
      · rename_i heq
        split
        · rename_i hb; rw [hb]; exact readByte_below (heq ▸ h2)
        · simp [readByte]
      · rename_i hlt hne
        rw [readByte, if_neg (Ne.symm hne), ih h3]

theorem readByte_writeByte_ne (m : Mem) {a k : Nat} (b : Byte) (hk : k ≠ a) : readByte (writeByte m a b) k = readByte m k := by
  induction m with
  | nil => simp only [writeByte]; split <;> simp [readByte, Ne.symm hk]
  | cons c t ih =>
    simp only [writeByte]
    split
    · split <;> simp [readByte, Ne.symm hk]
    · split
      · rename_i heq
        split <;> simp [readByte, ← heq, Ne.symm hk]
      · simp only [readByte, ih]

/-- A byte of a range written: what the range holds there inside it, what stood there outside. -/
theorem readByte_writeRange {m : Mem} (h : Memory.wf m = true) (a : Nat) (bs : List Byte) (k : Nat) :
    readByte (writeRange m a bs) k = if a ≤ k ∧ k < a + bs.length then bs.getD (k - a) 0 else readByte m k := by
  induction bs generalizing m a with
  | nil => rw [writeRange, if_neg (by simp only [List.length_nil]; omega)]
  | cons b t ih =>
    rw [writeRange, ih (wf_writeByte h a b)]
    by_cases hk : k = a
    · subst hk
      rw [if_neg (by omega), if_pos (by simp only [List.length_cons]; omega), readByte_writeByte_eq h]
      simp
    · rw [readByte_writeByte_ne m b hk]
      by_cases hin : a + 1 ≤ k ∧ k < a + 1 + t.length
      · rw [if_pos hin, if_pos (by simp only [List.length_cons]; omega)]
        have : k - a = (k - (a + 1)) + 1 := by omega
        rw [this]; rfl
      · rw [if_neg hin, if_neg (by simp only [List.length_cons]; omega)]

theorem readByte_filter {m : Mem} (h : Memory.wf m = true) (p : Nat → Bool) (k : Nat) :
    readByte (m.filter fun c => p c.1) k = if p k then readByte m k else unlisted := by
  induction m with
  | nil => simp [readByte]
  | cons c t ih =>
    obtain ⟨h1, h2, h3⟩ := wf_cons.1 h
    rw [List.filter_cons]
    by_cases hc : c.1 = k
    · by_cases hp : p k
      · simp [hc, hp, readByte]
      · have : p c.1 = false := by rw [hc]; simpa using hp
        rw [this, if_neg (by simp), ih h3, if_neg hp]
        simp [hp]
    · split
      · rw [readByte, if_neg hc, ih h3, readByte, if_neg hc]
      · rw [ih h3, readByte, if_neg hc]

theorem readByte_zeroRange {m : Mem} (h : Memory.wf m = true) (a n k : Nat) :
    readByte (zeroRange m a n) k = if a ≤ k ∧ k < a + n then unlisted else readByte m k := by
  rw [zeroRange, readByte_filter h (fun k => k < a || a + n ≤ k)]
  by_cases h1 : a ≤ k ∧ k < a + n
  · rw [if_pos h1, if_neg (by simp; omega)]
  · rw [if_neg h1, if_pos (by simp; omega)]

theorem length_readRange (m : Mem) (a n : Nat) : (readRange m a n).length = n := by
  induction n generalizing a with
  | zero => rfl
  | succ n ih => simp [readRange, ih]

theorem getD_readRange (m : Mem) (a n i : Nat) (h : i < n) : (readRange m a n).getD i 0 = readByte m (a + i) := by
  induction n generalizing a i with
  | zero => omega
  | succ n ih =>
    cases i with
    | zero => rfl
    | succ i =>
      rw [readRange, List.getD_cons_succ, ih (a + 1) i (by omega)]
      congr 1; omega

/-- What was written reads back. -/
theorem readRange_writeRange {m : Mem} (h : Memory.wf m = true) (a : Nat) (bs : List Byte) :
    readRange (writeRange m a bs) a bs.length = bs := by
  apply List.ext_getElem
  · rw [length_readRange]
  · intro i h1 h2
    have := getD_readRange (writeRange m a bs) a bs.length i h2
    rw [readByte_writeRange h, if_pos (by omega)] at this
    simpa [List.getD_eq_getElem?_getD, h1, h2] using this

/-- Equal reads make equal memories. -/
theorem eq_of_readByte {m n : Mem} (hm : Memory.wf m = true) (hn : Memory.wf n = true) (h : ∀ a, readByte m a = readByte n a) :
    m = n := by
  induction m generalizing n with
  | nil =>
    cases n with
    | nil => rfl
    | cons d t =>
      have := h d.1
      simp only [readByte, if_true] at this
      exact absurd this.symm (wf_cons.1 hn).1
  | cons c s ih =>
    obtain ⟨c1, c2, c3⟩ := wf_cons.1 hm
    cases n with
    | nil =>
      have := h c.1
      simp only [readByte, if_true] at this
      exact absurd this c1
    | cons d t =>
      obtain ⟨d1, d2, d3⟩ := wf_cons.1 hn
      have hc := h c.1
      have hd := h d.1
      rw [readByte, if_pos rfl] at hc
      rw [readByte.eq_def (d :: t) d.1] at hd
      simp only [if_true] at hd
      have he : c.1 = d.1 := by
        rcases Nat.lt_trichotomy c.1 d.1 with hlt | heq | hlt
        · rw [readByte_below (m := d :: t) (a := c.1)] at hc
          · exact absurd hc c1
          · simp only [List.mem_cons, forall_eq_or_imp]; exact ⟨hlt, fun e he => lt_trans hlt (d2 e he)⟩
        · exact heq
        · rw [readByte_below (m := c :: s) (a := d.1)] at hd
          · exact absurd hd.symm d1
          · simp only [List.mem_cons, forall_eq_or_imp]; exact ⟨hlt, fun e he => lt_trans hlt (c2 e he)⟩
      have hv : c = d := by
        rw [readByte, if_pos he.symm] at hc
        exact Prod.ext he hc
      subst hv
      rw [ih c3 d3]
      intro a
      by_cases ha : c.1 = a
      · rw [readByte_below (m := s) (ha ▸ c2), readByte_below (m := t) (ha ▸ d2)]
      · have := h a
        rw [readByte, if_neg ha, readByte, if_neg ha] at this
        exact this

/-! ### Stores of the device -/

theorem memOk_iff {s : State} : s.memOk = true ↔ ∀ st, Memory.wf (s.mem st) = true := by
  constructor
  · intro h st
    simp only [State.memOk, Bool.and_eq_true] at h
    cases st <;> simp [State.mem, h]
  · intro h
    have h1 := h .dram; have h2 := h .sram; have h3 := h .bs; have h4 := h .ac
    simp only [State.mem] at h1 h2 h3 h4
    simp [State.memOk, h1, h2, h3, h4]

@[simp] theorem mem_withMem (s : State) (st : Store) (m : Mem) (k : Store) :
    (s.withMem st m).mem k = if k = st then m else s.mem k := by
  cases st <;> cases k <;> rfl

theorem memOk_withMem {s : State} (h : s.memOk = true) (st : Store) {m : Mem} (hm : Memory.wf m = true) :
    (s.withMem st m).memOk = true := by
  rw [memOk_iff] at h ⊢
  intro k
  rw [mem_withMem]
  split
  · exact hm
  · exact h k

@[simp] theorem mem_put (s : State) (l : Loc) (bs : List Byte) (k : Store) :
    (s.put l bs).mem k = if k = l.store then writeRange (s.mem k) l.addr bs else s.mem k := by
  by_cases h : k = l.store
  · subst h
    show (s.withMem l.store _).mem l.store = _
    rw [mem_withMem]
  · show (s.withMem l.store _).mem k = _
    rw [mem_withMem, if_neg h, if_neg h]

theorem memOk_put {s : State} (h : s.memOk = true) (l : Loc) (bs : List Byte) : (s.put l bs).memOk = true := by
  rw [memOk_iff] at h ⊢
  intro k
  rw [mem_put]
  split
  · exact wf_writeRange (h k) _ _
  · exact h k

theorem memOk_fillRange {s : State} (h : s.memOk = true) (l : Loc) (n : Nat) (saved : Mem) : (s.fillRange l n saved).memOk = true := by
  have := memOk_withMem h l.store (wf_layOver (wf_zeroRange (memOk_iff.1 h l.store) l.addr n) l.addr saved)
  exact this

@[simp] theorem mem_setCol (s : State) (c : Nat) (k : Column) (st : Store) : (s.setCol c k).mem st = s.mem st := by cases st <;> rfl
@[simp] theorem memOk_setCol (s : State) (c : Nat) (k : Column) : (s.setCol c k).memOk = s.memOk := rfl

@[simp] theorem mem_setCluster (s : State) (c : Nat) (k : Cluster) (st : Store) : (s.setCluster c k).mem st = s.mem st := by cases st <;> rfl

/-- What a write does to the copies of its lines changes no byte of memory. -/
@[simp] theorem mem_renewCopies (s : State) (c : Nat) (l : Loc) (n : Nat) (st : Store) : (s.renewCopies c l n).mem st = s.mem st := by
  unfold State.renewCopies
  split
  · rfl
  · generalize clustersOfCol c = ks
    induction ks generalizing s with
    | nil => rfl
    | cons k ks ih => exact (ih _).trans (mem_setCluster ..)

@[simp] theorem memOk_renewCopies (s : State) (c : Nat) (l : Loc) (n : Nat) : (s.renewCopies c l n).memOk = s.memOk := by
  have h (st : Store) := mem_renewCopies s c l n st
  have h1 := h .dram; have h2 := h .sram; have h3 := h .bs; have h4 := h .ac
  simp only [State.mem] at h1 h2 h3 h4
  simp [State.memOk, h1, h2, h3, h4]

theorem memOk_putProv {s : State} (h : s.memOk = true) (c : Nat) (l : Loc) (bs : List Byte) (locked : Bool) :
    (s.putProv c l bs locked).memOk = true := (memOk_renewCopies ..).trans (memOk_put (s := s.setCol c _) h l bs)

theorem memOk_colStore {s : State} (h : s.memOk = true) (c ctx lnum : Nat) (l : Loc) (bs : List Byte) :
    (s.colStore c ctx lnum l bs).memOk = true := by
  unfold State.colStore
  split
  · exact h
  · split
    · exact memOk_putProv h ..
    · exact (memOk_renewCopies ..).trans h

/-- A write at a location is what reads there afterwards; no other byte changes. -/
theorem readByte_put {s : State} (h : s.memOk = true) (l : Loc) (bs : List Byte) (st : Store) (a : Nat) :
    readByte ((s.put l bs).mem st) a =
      if st = l.store ∧ l.addr ≤ a ∧ a < l.addr + bs.length then bs.getD (a - l.addr) 0 else readByte (s.mem st) a := by
  rw [mem_put]
  by_cases hs : st = l.store
  · subst hs; rw [if_pos rfl, readByte_writeRange (memOk_iff.1 h _)]; simp
  · rw [if_neg hs, if_neg (fun hc => hs hc.1)]

theorem reset_memOk : State.reset.memOk = true := rfl

end Sys2Proof.Machine
end

