-- ==== Sys2Proof/Laws/Registers.lean ====
section
/-! SUPPORT. Reading registers and lanes back after they are written. -/

namespace Sys2Proof.Machine

theorem mem_lanesOf {m : LaneMap} {l : Nat} : l ∈ lanesOf m ↔ l < 64 ∧ m.getLsbD l = true := by
  simp [lanesOf]

theorem getLsbD_mapOf (ls : List Nat) (l : Nat) : (mapOf ls).getLsbD l = (decide (l < 64) && ls.contains l) := by
  suffices h : ∀ m : LaneMap, (ls.foldl (fun m l => m ||| (1#64 <<< l)) m).getLsbD l =
      (m.getLsbD l || (decide (l < 64) && ls.contains l)) by
    simpa [mapOf] using h 0
  induction ls with
  | nil => simp
  | cons k t ih =>
    intro m
    rw [List.foldl_cons, ih, BitVec.getLsbD_or, Bool.or_assoc]
    congr 1
    by_cases hl : l < 64
    · by_cases hk : l = k
      · subst hk; simp [hl]
      · have : (1#64 <<< k).getLsbD l = false := by
          rw [Bool.eq_false_iff]
          simp only [BitVec.getLsbD_shiftLeft, BitVec.getLsbD_one, ne_eq, Bool.and_eq_true, Bool.not_eq_true', decide_eq_true_eq, decide_eq_false_iff_not]
          omega
        rw [this]
        simp [hl, hk]
    · simp [hl]

/-- The map of the lanes of a map that meet a condition. -/
theorem getLsbD_mapOf_filter (m : LaneMap) (p : Nat → Bool) {l : Nat} (hl : l < 64) :
    (mapOf ((lanesOf m).filter p)).getLsbD l = (m.getLsbD l && p l) := by
  rw [getLsbD_mapOf, Bool.eq_iff_iff]
  simp [hl, mem_lanesOf]

/-- A register built on the lanes of a list holds exactly those lanes. -/
theorem vget?_map (ls : List Nat) (f : Nat → Word) (l : Nat) :
    vget? (ls.map fun k => (k, f k)) l = if l ∈ ls then some (f l) else none := by
  induction ls with
  | nil => simp [vget?]
  | cons k ks ih =>
    rw [List.map_cons, vget?, List.find?_cons]
    by_cases h : k = l
    · subst h; simp
    · have hb : (k == l) = false := by simpa using h
      rw [hb]
      show vget? _ l = _
      rw [ih]; simp [Ne.symm h]

theorem vget?_lanes (m : LaneMap) (f : Nat → Word) (l : Nat) (h : l < 64) :
    vget? ((lanesOf m).map fun k => (k, f k)) l = if m.getLsbD l then some (f l) else none := by
  rw [vget?_map]; simp [mem_lanesOf, h]

theorem vreg_setV_eq (g : Group) (n : Nat) (r : VReg) (h : n < 128) : (g.setV n r).vreg n = r := by
  simp [Group.setV, Group.vreg, h]

theorem vreg_setV_ne (g : Group) {n k : Nat} (r : VReg) (h : k ≠ n) : (g.setV n r).vreg k = g.vreg k := by
  simp [Group.setV, Group.vreg, Ne.symm h]

theorem sreg_setS_eq (g : Group) (n : Nat) (v : Word) (h : n < 64) : (g.setS n v).sreg n = v := by
  simp [Group.setS, Group.sreg, h]

theorem sreg_setS_ne (g : Group) {n k : Nat} (v : Word) (h : k ≠ n) : (g.setS n v).sreg k = g.sreg k := by
  simp [Group.setS, Group.sreg, Ne.symm h]

theorem spair_setSP_eq (g : Group) (n : Nat) (v : DWord) (h : n + 1 < 64) : (g.setSP n v).spair n = v := by
  have h1 : n < 64 := by omega
  simp only [Group.setSP, Group.spair, sreg_setS_eq _ _ _ h, sreg_setS_ne _ _ (Nat.ne_of_lt (Nat.lt_succ_self n)), sreg_setS_eq _ _ _ h1]
  apply BitVec.eq_of_getLsbD_eq
  intro i hi
  rw [BitVec.getLsbD_append]
  by_cases hc : i < 32
  · simp [hc]
  · have h2 : i - 32 < 32 := by omega
    have h3 : 32 + (i - 32) = i := by omega
    simp [hc, h2, h3]

theorem flag_vreg (g : Group) (f : Flags) (n : Nat) : (g.flag f).vreg n = g.vreg n := rfl
theorem flag_sreg (g : Group) (f : Flags) (n : Nat) : (g.flag f).sreg n = g.sreg n := rfl
theorem flag_spair (g : Group) (f : Flags) (n : Nat) : (g.flag f).spair n = g.spair n := rfl
theorem setV_sreg (g : Group) (n k : Nat) (r : VReg) : (g.setV n r).sreg k = g.sreg k := rfl
theorem setS_vreg (g : Group) (n k : Nat) (v : Word) : (g.setS n v).vreg k = g.vreg k := rfl
theorem setV_gstat (g : Group) (n : Nat) (r : VReg) : (g.setV n r).gstat = g.gstat := rfl
theorem setS_gstat (g : Group) (n : Nat) (v : Word) : (g.setS n v).gstat = g.gstat := rfl

theorem foldl_or_flags (fs : List (Nat × (Nat × Flags))) (a : Flags) (b : Nat) :
    (fs.foldl (fun a p => a ||| p.2.2) a).getLsbD b = (a.getLsbD b || fs.any fun p => p.2.2.getLsbD b) := by
  induction fs generalizing a with
  | nil => simp
  | cons p t ih => simp [ih, Bool.or_assoc]

/-- What `compute` can do, said once. -/
theorem compute_written (e : Env) (ty : Ty) (d : Operand) (m : LaneMap) (f : Nat → Nat × Flags) :
    Written e.g (e.compute ty d m f) ty d m f := by
  constructor
  · rintro n rfl l hl
    simp only [Env.compute, flag_vreg, Group.writeV, List.map_map, Function.comp_def]
    split
    · rw [vreg_setV_ne _ _ (Nat.ne_of_lt (Nat.lt_succ_self _)), vreg_setV_eq _ _ _ n.isLt, vget?_lanes _ _ _ hl]
    · rw [vreg_setV_eq _ _ _ n.isLt, vget?_lanes _ _ _ hl]
  · rintro n rfl rfl hn l hl
    simp only [Env.compute, flag_vreg, Group.writeV, List.map_map, Function.comp_def, BEq.rfl, if_true]
    rw [vreg_setV_eq _ _ _ hn, vget?_lanes _ _ _ hl]
  · rintro n rfl h
    simp [Env.compute, flag_sreg, Group.writeS, h, sreg_setS_eq _ _ _ n.isLt]
  · rintro n rfl rfl hn
    simp [Env.compute, flag_spair, Group.writeS, spair_setSP_eq _ _ _ hn]
  · rintro n rfl b
    simp only [Env.compute, Group.flag, Group.writeV]
    split <;> simp [Group.setV, foldl_or_flags, List.any_map, Function.comp_def]
  · rintro n rfl
    simp only [Env.compute, Group.flag, Group.writeS]
    split <;> simp [Group.setSP, Group.setS]
  · intro k hk
    cases d
    case vec n =>
      have hn := hk n rfl
      simp only [Env.compute, flag_vreg, Group.writeV]
      split
      · rename_i ht
        rw [vreg_setV_ne _ _ (hn.2 (by simpa using ht)), vreg_setV_ne _ _ hn.1]
      · rw [vreg_setV_ne _ _ hn.1]
    all_goals
      simp only [Env.compute, flag_vreg, Group.writeS]
      try (split <;> simp [Group.setSP, setS_vreg])
  · intro k hk
    cases d
    case sca n =>
      have hn := hk n rfl
      simp only [Env.compute, flag_sreg, Group.writeS]
      split
      · rename_i ht
        rw [Group.setSP, sreg_setS_ne _ _ (hn.2 (by simpa using ht)), sreg_setS_ne _ _ hn.1]
      · rw [sreg_setS_ne _ _ hn.1]
    all_goals
      simp only [Env.compute, flag_sreg, Group.writeS, Group.writeV]
      try (split <;> simp [setV_sreg])
  · cases d <;> simp only [Env.compute, Group.flag, Group.writeS, Group.writeV] <;> try (split <;> rfl)

end Sys2Proof.Machine
end

