-- ==== Sys2Proof/Laws/State.lean ====
section
/-!
SUPPORT. What each update of the state, of a workgroup and of a group leaves in each field: one lemma per field per update, each true by
unfolding the update once.
-/

namespace Sys2Proof.Machine

/-! ### setCol -/

section
variable (s : State) (c : Nat) (k : Column)

@[simp] theorem State.setCol_wgs : (s.setCol c k).wgs = s.wgs := rfl
@[simp] theorem State.setCol_away : (s.setCol c k).away = s.away := rfl
@[simp] theorem State.setCol_launches : (s.setCol c k).launches = s.launches := rfl
@[simp] theorem State.setCol_units : (s.setCol c k).units = s.units := rfl
@[simp] theorem State.setCol_ctxs : (s.setCol c k).ctxs = s.ctxs := rfl
@[simp] theorem State.setCol_dram : (s.setCol c k).dram = s.dram := rfl
@[simp] theorem State.setCol_sram : (s.setCol c k).sram = s.sram := rfl
@[simp] theorem State.setCol_bs : (s.setCol c k).bs = s.bs := rfl
@[simp] theorem State.setCol_ac : (s.setCol c k).ac = s.ac := rfl
@[simp] theorem State.setCol_bad : (s.setCol c k).bad = s.bad := rfl
@[simp] theorem State.setCol_l2bad : (s.setCol c k).l2bad = s.l2bad := rfl
@[simp] theorem State.setCol_wq : (s.setCol c k).wq = s.wq := rfl
@[simp] theorem State.setCol_cores : (s.setCol c k).cores = s.cores := rfl
@[simp] theorem State.setCol_clusters : (s.setCol c k).clusters = s.clusters := rfl
@[simp] theorem State.setCol_cols : (s.setCol c k).cols = s.cols.setIfInBounds c k := rfl
@[simp] theorem State.setCol_tlb : (s.setCol c k).tlb = s.tlb := rfl
@[simp] theorem State.setCol_wcache : (s.setCol c k).wcache = s.wcache := rfl
@[simp] theorem State.setCol_pwalks : (s.setCol c k).pwalks = s.pwalks := rfl
@[simp] theorem State.setCol_pgot : (s.setCol c k).pgot = s.pgot := rfl
@[simp] theorem State.setCol_served : (s.setCol c k).served = s.served := rfl
@[simp] theorem State.setCol_kdata : (s.setCol c k).kdata = s.kdata := rfl
@[simp] theorem State.setCol_walks : (s.setCol c k).walks = s.walks := rfl
@[simp] theorem State.setCol_invals : (s.setCol c k).invals = s.invals := rfl
@[simp] theorem State.setCol_nextInval : (s.setCol c k).nextInval = s.nextInval := rfl
@[simp] theorem State.setCol_nextSeq : (s.setCol c k).nextSeq = s.nextSeq := rfl
@[simp] theorem State.setCol_nextBalance : (s.setCol c k).nextBalance = s.nextBalance := rfl
@[simp] theorem State.setCol_now : (s.setCol c k).now = s.now := rfl
@[simp] theorem State.setCol_inja : (s.setCol c k).inja = s.inja := rfl
@[simp] theorem State.setCol_injc : (s.setCol c k).injc = s.injc := rfl
@[simp] theorem State.setCol_counters : (s.setCol c k).counters = s.counters := rfl
@[simp] theorem State.setCol_power : (s.setCol c k).power = s.power := rfl
@[simp] theorem State.setCol_prevTotal : (s.setCol c k).prevTotal = s.prevTotal := rfl
@[simp] theorem State.setCol_reserve : (s.setCol c k).reserve = s.reserve := rfl
@[simp] theorem State.setCol_nextClear : (s.setCol c k).nextClear = s.nextClear := rfl
@[simp] theorem State.setCol_pstate : (s.setCol c k).pstate = s.pstate := rfl
@[simp] theorem State.setCol_idleSince : (s.setCol c k).idleSince = s.idleSince := rfl
@[simp] theorem State.setCol_boot : (s.setCol c k).boot = s.boot := rfl
@[simp] theorem State.setCol_called : (s.setCol c k).called = s.called := rfl
@[simp] theorem State.setCol_fw : (s.setCol c k).fw = s.fw := rfl
@[simp] theorem State.setCol_supply : (s.setCol c k).supply = s.supply := rfl
@[simp] theorem State.setCol_inReset : (s.setCol c k).inReset = s.inReset := rfl
@[simp] theorem State.setCol_hot : (s.setCol c k).hot = s.hot := rfl
@[simp] theorem State.setCol_chans : (s.setCol c k).chans = s.chans := rfl
@[simp] theorem State.setCol_out : (s.setCol c k).out = s.out := rfl
@[simp] theorem State.setCol_ports : (s.setCol c k).ports = s.ports := rfl
@[simp] theorem State.setCol_selftest : (s.setCol c k).selftest = s.selftest := rfl
@[simp] theorem State.setCol_failedPeers : (s.setCol c k).failedPeers = s.failedPeers := rfl
@[simp] theorem State.setCol_peerCopies : (s.setCol c k).peerCopies = s.peerCopies := rfl
@[simp] theorem State.setCol_peerWrites : (s.setCol c k).peerWrites = s.peerWrites := rfl
@[simp] theorem State.setCol_peerSteps : (s.setCol c k).peerSteps = s.peerSteps := rfl
@[simp] theorem State.setCol_scrubs : (s.setCol c k).scrubs = s.scrubs := rfl
@[simp] theorem State.setCol_moves : (s.setCol c k).moves = s.moves := rfl
@[simp] theorem State.setCol_cur : (s.setCol c k).cur = s.cur := rfl
@[simp] theorem State.setCol_split : (s.setCol c k).split = s.split := rfl
@[simp] theorem State.setCol_free : (s.setCol c k).free = s.free := rfl

end

/-! ### setCore -/

section
variable (s : State) (c : Nat) (k : Core)

@[simp] theorem State.setCore_wgs : (s.setCore c k).wgs = s.wgs := rfl
@[simp] theorem State.setCore_away : (s.setCore c k).away = s.away := rfl
@[simp] theorem State.setCore_launches : (s.setCore c k).launches = s.launches := rfl
@[simp] theorem State.setCore_units : (s.setCore c k).units = s.units := rfl
@[simp] theorem State.setCore_ctxs : (s.setCore c k).ctxs = s.ctxs := rfl
@[simp] theorem State.setCore_dram : (s.setCore c k).dram = s.dram := rfl
@[simp] theorem State.setCore_sram : (s.setCore c k).sram = s.sram := rfl
@[simp] theorem State.setCore_bs : (s.setCore c k).bs = s.bs := rfl
@[simp] theorem State.setCore_ac : (s.setCore c k).ac = s.ac := rfl
@[simp] theorem State.setCore_bad : (s.setCore c k).bad = s.bad := rfl
@[simp] theorem State.setCore_l2bad : (s.setCore c k).l2bad = s.l2bad := rfl
@[simp] theorem State.setCore_wq : (s.setCore c k).wq = s.wq := rfl
@[simp] theorem State.setCore_cores : (s.setCore c k).cores = s.cores.setIfInBounds c k := rfl
@[simp] theorem State.setCore_clusters : (s.setCore c k).clusters = s.clusters := rfl
@[simp] theorem State.setCore_cols : (s.setCore c k).cols = s.cols := rfl
@[simp] theorem State.setCore_tlb : (s.setCore c k).tlb = s.tlb := rfl
@[simp] theorem State.setCore_wcache : (s.setCore c k).wcache = s.wcache := rfl
@[simp] theorem State.setCore_pwalks : (s.setCore c k).pwalks = s.pwalks := rfl
@[simp] theorem State.setCore_pgot : (s.setCore c k).pgot = s.pgot := rfl
@[simp] theorem State.setCore_served : (s.setCore c k).served = s.served := rfl
@[simp] theorem State.setCore_kdata : (s.setCore c k).kdata = s.kdata := rfl
@[simp] theorem State.setCore_walks : (s.setCore c k).walks = s.walks := rfl
@[simp] theorem State.setCore_invals : (s.setCore c k).invals = s.invals := rfl
@[simp] theorem State.setCore_nextInval : (s.setCore c k).nextInval = s.nextInval := rfl
@[simp] theorem State.setCore_nextSeq : (s.setCore c k).nextSeq = s.nextSeq := rfl
@[simp] theorem State.setCore_nextBalance : (s.setCore c k).nextBalance = s.nextBalance := rfl
@[simp] theorem State.setCore_now : (s.setCore c k).now = s.now := rfl
@[simp] theorem State.setCore_inja : (s.setCore c k).inja = s.inja := rfl
@[simp] theorem State.setCore_injc : (s.setCore c k).injc = s.injc := rfl
@[simp] theorem State.setCore_counters : (s.setCore c k).counters = s.counters := rfl
@[simp] theorem State.setCore_power : (s.setCore c k).power = s.power := rfl
@[simp] theorem State.setCore_prevTotal : (s.setCore c k).prevTotal = s.prevTotal := rfl
@[simp] theorem State.setCore_reserve : (s.setCore c k).reserve = s.reserve := rfl
@[simp] theorem State.setCore_nextClear : (s.setCore c k).nextClear = s.nextClear := rfl
@[simp] theorem State.setCore_pstate : (s.setCore c k).pstate = s.pstate := rfl
@[simp] theorem State.setCore_idleSince : (s.setCore c k).idleSince = s.idleSince := rfl
@[simp] theorem State.setCore_boot : (s.setCore c k).boot = s.boot := rfl
@[simp] theorem State.setCore_called : (s.setCore c k).called = s.called := rfl
@[simp] theorem State.setCore_fw : (s.setCore c k).fw = s.fw := rfl
@[simp] theorem State.setCore_supply : (s.setCore c k).supply = s.supply := rfl
@[simp] theorem State.setCore_inReset : (s.setCore c k).inReset = s.inReset := rfl
@[simp] theorem State.setCore_hot : (s.setCore c k).hot = s.hot := rfl
@[simp] theorem State.setCore_chans : (s.setCore c k).chans = s.chans := rfl
@[simp] theorem State.setCore_out : (s.setCore c k).out = s.out := rfl
@[simp] theorem State.setCore_ports : (s.setCore c k).ports = s.ports := rfl
@[simp] theorem State.setCore_selftest : (s.setCore c k).selftest = s.selftest := rfl
@[simp] theorem State.setCore_failedPeers : (s.setCore c k).failedPeers = s.failedPeers := rfl
@[simp] theorem State.setCore_peerCopies : (s.setCore c k).peerCopies = s.peerCopies := rfl
@[simp] theorem State.setCore_peerWrites : (s.setCore c k).peerWrites = s.peerWrites := rfl
@[simp] theorem State.setCore_peerSteps : (s.setCore c k).peerSteps = s.peerSteps := rfl
@[simp] theorem State.setCore_scrubs : (s.setCore c k).scrubs = s.scrubs := rfl
@[simp] theorem State.setCore_moves : (s.setCore c k).moves = s.moves := rfl
@[simp] theorem State.setCore_cur : (s.setCore c k).cur = s.cur := rfl
@[simp] theorem State.setCore_split : (s.setCore c k).split = s.split := rfl
@[simp] theorem State.setCore_free : (s.setCore c k).free = s.free := rfl

end

/-! ### setCluster -/

section
variable (s : State) (c : Nat) (k : Cluster)

@[simp] theorem State.setCluster_wgs : (s.setCluster c k).wgs = s.wgs := rfl
@[simp] theorem State.setCluster_away : (s.setCluster c k).away = s.away := rfl
@[simp] theorem State.setCluster_launches : (s.setCluster c k).launches = s.launches := rfl
@[simp] theorem State.setCluster_units : (s.setCluster c k).units = s.units := rfl
@[simp] theorem State.setCluster_ctxs : (s.setCluster c k).ctxs = s.ctxs := rfl
@[simp] theorem State.setCluster_dram : (s.setCluster c k).dram = s.dram := rfl
@[simp] theorem State.setCluster_sram : (s.setCluster c k).sram = s.sram := rfl
@[simp] theorem State.setCluster_bs : (s.setCluster c k).bs = s.bs := rfl
@[simp] theorem State.setCluster_ac : (s.setCluster c k).ac = s.ac := rfl
@[simp] theorem State.setCluster_bad : (s.setCluster c k).bad = s.bad := rfl
@[simp] theorem State.setCluster_l2bad : (s.setCluster c k).l2bad = s.l2bad := rfl
@[simp] theorem State.setCluster_wq : (s.setCluster c k).wq = s.wq := rfl
@[simp] theorem State.setCluster_cores : (s.setCluster c k).cores = s.cores := rfl
@[simp] theorem State.setCluster_clusters : (s.setCluster c k).clusters = s.clusters.setIfInBounds c k := rfl
@[simp] theorem State.setCluster_cols : (s.setCluster c k).cols = s.cols := rfl
@[simp] theorem State.setCluster_tlb : (s.setCluster c k).tlb = s.tlb := rfl
@[simp] theorem State.setCluster_wcache : (s.setCluster c k).wcache = s.wcache := rfl
@[simp] theorem State.setCluster_pwalks : (s.setCluster c k).pwalks = s.pwalks := rfl
@[simp] theorem State.setCluster_pgot : (s.setCluster c k).pgot = s.pgot := rfl
@[simp] theorem State.setCluster_served : (s.setCluster c k).served = s.served := rfl
@[simp] theorem State.setCluster_kdata : (s.setCluster c k).kdata = s.kdata := rfl
@[simp] theorem State.setCluster_walks : (s.setCluster c k).walks = s.walks := rfl
@[simp] theorem State.setCluster_invals : (s.setCluster c k).invals = s.invals := rfl
@[simp] theorem State.setCluster_nextInval : (s.setCluster c k).nextInval = s.nextInval := rfl
@[simp] theorem State.setCluster_nextSeq : (s.setCluster c k).nextSeq = s.nextSeq := rfl
@[simp] theorem State.setCluster_nextBalance : (s.setCluster c k).nextBalance = s.nextBalance := rfl
@[simp] theorem State.setCluster_now : (s.setCluster c k).now = s.now := rfl
@[simp] theorem State.setCluster_inja : (s.setCluster c k).inja = s.inja := rfl
@[simp] theorem State.setCluster_injc : (s.setCluster c k).injc = s.injc := rfl
@[simp] theorem State.setCluster_counters : (s.setCluster c k).counters = s.counters := rfl
@[simp] theorem State.setCluster_power : (s.setCluster c k).power = s.power := rfl
@[simp] theorem State.setCluster_prevTotal : (s.setCluster c k).prevTotal = s.prevTotal := rfl
@[simp] theorem State.setCluster_reserve : (s.setCluster c k).reserve = s.reserve := rfl
@[simp] theorem State.setCluster_nextClear : (s.setCluster c k).nextClear = s.nextClear := rfl
@[simp] theorem State.setCluster_pstate : (s.setCluster c k).pstate = s.pstate := rfl
@[simp] theorem State.setCluster_idleSince : (s.setCluster c k).idleSince = s.idleSince := rfl
@[simp] theorem State.setCluster_boot : (s.setCluster c k).boot = s.boot := rfl
@[simp] theorem State.setCluster_called : (s.setCluster c k).called = s.called := rfl
@[simp] theorem State.setCluster_fw : (s.setCluster c k).fw = s.fw := rfl
@[simp] theorem State.setCluster_supply : (s.setCluster c k).supply = s.supply := rfl
@[simp] theorem State.setCluster_inReset : (s.setCluster c k).inReset = s.inReset := rfl
@[simp] theorem State.setCluster_hot : (s.setCluster c k).hot = s.hot := rfl
@[simp] theorem State.setCluster_chans : (s.setCluster c k).chans = s.chans := rfl
@[simp] theorem State.setCluster_out : (s.setCluster c k).out = s.out := rfl
@[simp] theorem State.setCluster_ports : (s.setCluster c k).ports = s.ports := rfl
@[simp] theorem State.setCluster_selftest : (s.setCluster c k).selftest = s.selftest := rfl
@[simp] theorem State.setCluster_failedPeers : (s.setCluster c k).failedPeers = s.failedPeers := rfl
@[simp] theorem State.setCluster_peerCopies : (s.setCluster c k).peerCopies = s.peerCopies := rfl
@[simp] theorem State.setCluster_peerWrites : (s.setCluster c k).peerWrites = s.peerWrites := rfl
@[simp] theorem State.setCluster_peerSteps : (s.setCluster c k).peerSteps = s.peerSteps := rfl
@[simp] theorem State.setCluster_scrubs : (s.setCluster c k).scrubs = s.scrubs := rfl
@[simp] theorem State.setCluster_moves : (s.setCluster c k).moves = s.moves := rfl
@[simp] theorem State.setCluster_cur : (s.setCluster c k).cur = s.cur := rfl
@[simp] theorem State.setCluster_split : (s.setCluster c k).split = s.split := rfl
@[simp] theorem State.setCluster_free : (s.setCluster c k).free = s.free := rfl

end

/-! ### setCtx -/

section
variable (s : State) (c : Nat) (k : Context)

@[simp] theorem State.setCtx_wgs : (s.setCtx c k).wgs = s.wgs := rfl
@[simp] theorem State.setCtx_away : (s.setCtx c k).away = s.away := rfl
@[simp] theorem State.setCtx_launches : (s.setCtx c k).launches = s.launches := rfl
@[simp] theorem State.setCtx_units : (s.setCtx c k).units = s.units := rfl
@[simp] theorem State.setCtx_ctxs : (s.setCtx c k).ctxs = s.ctxs.setIfInBounds c k := rfl
@[simp] theorem State.setCtx_dram : (s.setCtx c k).dram = s.dram := rfl
@[simp] theorem State.setCtx_sram : (s.setCtx c k).sram = s.sram := rfl
@[simp] theorem State.setCtx_bs : (s.setCtx c k).bs = s.bs := rfl
@[simp] theorem State.setCtx_ac : (s.setCtx c k).ac = s.ac := rfl
@[simp] theorem State.setCtx_bad : (s.setCtx c k).bad = s.bad := rfl
@[simp] theorem State.setCtx_l2bad : (s.setCtx c k).l2bad = s.l2bad := rfl
@[simp] theorem State.setCtx_wq : (s.setCtx c k).wq = s.wq := rfl
@[simp] theorem State.setCtx_cores : (s.setCtx c k).cores = s.cores := rfl
@[simp] theorem State.setCtx_clusters : (s.setCtx c k).clusters = s.clusters := rfl
@[simp] theorem State.setCtx_cols : (s.setCtx c k).cols = s.cols := rfl
@[simp] theorem State.setCtx_tlb : (s.setCtx c k).tlb = s.tlb := rfl
@[simp] theorem State.setCtx_wcache : (s.setCtx c k).wcache = s.wcache := rfl
@[simp] theorem State.setCtx_pwalks : (s.setCtx c k).pwalks = s.pwalks := rfl
@[simp] theorem State.setCtx_pgot : (s.setCtx c k).pgot = s.pgot := rfl
@[simp] theorem State.setCtx_served : (s.setCtx c k).served = s.served := rfl
@[simp] theorem State.setCtx_kdata : (s.setCtx c k).kdata = s.kdata := rfl
@[simp] theorem State.setCtx_walks : (s.setCtx c k).walks = s.walks := rfl
@[simp] theorem State.setCtx_invals : (s.setCtx c k).invals = s.invals := rfl
@[simp] theorem State.setCtx_nextInval : (s.setCtx c k).nextInval = s.nextInval := rfl
@[simp] theorem State.setCtx_nextSeq : (s.setCtx c k).nextSeq = s.nextSeq := rfl
@[simp] theorem State.setCtx_nextBalance : (s.setCtx c k).nextBalance = s.nextBalance := rfl
@[simp] theorem State.setCtx_now : (s.setCtx c k).now = s.now := rfl
@[simp] theorem State.setCtx_inja : (s.setCtx c k).inja = s.inja := rfl
@[simp] theorem State.setCtx_injc : (s.setCtx c k).injc = s.injc := rfl
@[simp] theorem State.setCtx_counters : (s.setCtx c k).counters = s.counters := rfl
@[simp] theorem State.setCtx_power : (s.setCtx c k).power = s.power := rfl
@[simp] theorem State.setCtx_prevTotal : (s.setCtx c k).prevTotal = s.prevTotal := rfl
@[simp] theorem State.setCtx_reserve : (s.setCtx c k).reserve = s.reserve := rfl
@[simp] theorem State.setCtx_nextClear : (s.setCtx c k).nextClear = s.nextClear := rfl
@[simp] theorem State.setCtx_pstate : (s.setCtx c k).pstate = s.pstate := rfl
@[simp] theorem State.setCtx_idleSince : (s.setCtx c k).idleSince = s.idleSince := rfl
@[simp] theorem State.setCtx_boot : (s.setCtx c k).boot = s.boot := rfl
@[simp] theorem State.setCtx_called : (s.setCtx c k).called = s.called := rfl
@[simp] theorem State.setCtx_fw : (s.setCtx c k).fw = s.fw := rfl
@[simp] theorem State.setCtx_supply : (s.setCtx c k).supply = s.supply := rfl
@[simp] theorem State.setCtx_inReset : (s.setCtx c k).inReset = s.inReset := rfl
@[simp] theorem State.setCtx_hot : (s.setCtx c k).hot = s.hot := rfl
@[simp] theorem State.setCtx_chans : (s.setCtx c k).chans = s.chans := rfl
@[simp] theorem State.setCtx_out : (s.setCtx c k).out = s.out := rfl
@[simp] theorem State.setCtx_ports : (s.setCtx c k).ports = s.ports := rfl
@[simp] theorem State.setCtx_selftest : (s.setCtx c k).selftest = s.selftest := rfl
@[simp] theorem State.setCtx_failedPeers : (s.setCtx c k).failedPeers = s.failedPeers := rfl
@[simp] theorem State.setCtx_peerCopies : (s.setCtx c k).peerCopies = s.peerCopies := rfl
@[simp] theorem State.setCtx_peerWrites : (s.setCtx c k).peerWrites = s.peerWrites := rfl
@[simp] theorem State.setCtx_peerSteps : (s.setCtx c k).peerSteps = s.peerSteps := rfl
@[simp] theorem State.setCtx_scrubs : (s.setCtx c k).scrubs = s.scrubs := rfl
@[simp] theorem State.setCtx_moves : (s.setCtx c k).moves = s.moves := rfl
@[simp] theorem State.setCtx_cur : (s.setCtx c k).cur = s.cur := rfl
@[simp] theorem State.setCtx_split : (s.setCtx c k).split = s.split := rfl
@[simp] theorem State.setCtx_free : (s.setCtx c k).free = s.free := rfl

end

/-! ### setChan -/

section
variable (s : State) (c : Nat) (k : Channel)

@[simp] theorem State.setChan_wgs : (s.setChan c k).wgs = s.wgs := rfl
@[simp] theorem State.setChan_away : (s.setChan c k).away = s.away := rfl
@[simp] theorem State.setChan_launches : (s.setChan c k).launches = s.launches := rfl
@[simp] theorem State.setChan_units : (s.setChan c k).units = s.units := rfl
@[simp] theorem State.setChan_ctxs : (s.setChan c k).ctxs = s.ctxs := rfl
@[simp] theorem State.setChan_dram : (s.setChan c k).dram = s.dram := rfl
@[simp] theorem State.setChan_sram : (s.setChan c k).sram = s.sram := rfl
@[simp] theorem State.setChan_bs : (s.setChan c k).bs = s.bs := rfl
@[simp] theorem State.setChan_ac : (s.setChan c k).ac = s.ac := rfl
@[simp] theorem State.setChan_bad : (s.setChan c k).bad = s.bad := rfl
@[simp] theorem State.setChan_l2bad : (s.setChan c k).l2bad = s.l2bad := rfl
@[simp] theorem State.setChan_wq : (s.setChan c k).wq = s.wq := rfl
@[simp] theorem State.setChan_cores : (s.setChan c k).cores = s.cores := rfl
@[simp] theorem State.setChan_clusters : (s.setChan c k).clusters = s.clusters := rfl
@[simp] theorem State.setChan_cols : (s.setChan c k).cols = s.cols := rfl
@[simp] theorem State.setChan_tlb : (s.setChan c k).tlb = s.tlb := rfl
@[simp] theorem State.setChan_wcache : (s.setChan c k).wcache = s.wcache := rfl
@[simp] theorem State.setChan_pwalks : (s.setChan c k).pwalks = s.pwalks := rfl
@[simp] theorem State.setChan_pgot : (s.setChan c k).pgot = s.pgot := rfl
@[simp] theorem State.setChan_served : (s.setChan c k).served = s.served := rfl
@[simp] theorem State.setChan_kdata : (s.setChan c k).kdata = s.kdata := rfl
@[simp] theorem State.setChan_walks : (s.setChan c k).walks = s.walks := rfl
@[simp] theorem State.setChan_invals : (s.setChan c k).invals = s.invals := rfl
@[simp] theorem State.setChan_nextInval : (s.setChan c k).nextInval = s.nextInval := rfl
@[simp] theorem State.setChan_nextSeq : (s.setChan c k).nextSeq = s.nextSeq := rfl
@[simp] theorem State.setChan_nextBalance : (s.setChan c k).nextBalance = s.nextBalance := rfl
@[simp] theorem State.setChan_now : (s.setChan c k).now = s.now := rfl
@[simp] theorem State.setChan_inja : (s.setChan c k).inja = s.inja := rfl
@[simp] theorem State.setChan_injc : (s.setChan c k).injc = s.injc := rfl
@[simp] theorem State.setChan_counters : (s.setChan c k).counters = s.counters := rfl
@[simp] theorem State.setChan_power : (s.setChan c k).power = s.power := rfl
@[simp] theorem State.setChan_prevTotal : (s.setChan c k).prevTotal = s.prevTotal := rfl
@[simp] theorem State.setChan_reserve : (s.setChan c k).reserve = s.reserve := rfl
@[simp] theorem State.setChan_nextClear : (s.setChan c k).nextClear = s.nextClear := rfl
@[simp] theorem State.setChan_pstate : (s.setChan c k).pstate = s.pstate := rfl
@[simp] theorem State.setChan_idleSince : (s.setChan c k).idleSince = s.idleSince := rfl
@[simp] theorem State.setChan_boot : (s.setChan c k).boot = s.boot := rfl
@[simp] theorem State.setChan_called : (s.setChan c k).called = s.called := rfl
@[simp] theorem State.setChan_fw : (s.setChan c k).fw = s.fw := rfl
@[simp] theorem State.setChan_supply : (s.setChan c k).supply = s.supply := rfl
@[simp] theorem State.setChan_inReset : (s.setChan c k).inReset = s.inReset := rfl
@[simp] theorem State.setChan_hot : (s.setChan c k).hot = s.hot := rfl
@[simp] theorem State.setChan_chans : (s.setChan c k).chans = s.chans.setIfInBounds c k := rfl
@[simp] theorem State.setChan_out : (s.setChan c k).out = s.out := rfl
@[simp] theorem State.setChan_ports : (s.setChan c k).ports = s.ports := rfl
@[simp] theorem State.setChan_selftest : (s.setChan c k).selftest = s.selftest := rfl
@[simp] theorem State.setChan_failedPeers : (s.setChan c k).failedPeers = s.failedPeers := rfl
@[simp] theorem State.setChan_peerCopies : (s.setChan c k).peerCopies = s.peerCopies := rfl
@[simp] theorem State.setChan_peerWrites : (s.setChan c k).peerWrites = s.peerWrites := rfl
@[simp] theorem State.setChan_peerSteps : (s.setChan c k).peerSteps = s.peerSteps := rfl
@[simp] theorem State.setChan_scrubs : (s.setChan c k).scrubs = s.scrubs := rfl
@[simp] theorem State.setChan_moves : (s.setChan c k).moves = s.moves := rfl
@[simp] theorem State.setChan_cur : (s.setChan c k).cur = s.cur := rfl
@[simp] theorem State.setChan_split : (s.setChan c k).split = s.split := rfl
@[simp] theorem State.setChan_free : (s.setChan c k).free = s.free := rfl

end

/-! ### setPort -/

section
variable (s : State) (n : Nat) (p : Port)

@[simp] theorem State.setPort_wgs : (s.setPort n p).wgs = s.wgs := rfl
@[simp] theorem State.setPort_away : (s.setPort n p).away = s.away := rfl
@[simp] theorem State.setPort_launches : (s.setPort n p).launches = s.launches := rfl
@[simp] theorem State.setPort_units : (s.setPort n p).units = s.units := rfl
@[simp] theorem State.setPort_ctxs : (s.setPort n p).ctxs = s.ctxs := rfl
@[simp] theorem State.setPort_dram : (s.setPort n p).dram = s.dram := rfl
@[simp] theorem State.setPort_sram : (s.setPort n p).sram = s.sram := rfl
@[simp] theorem State.setPort_bs : (s.setPort n p).bs = s.bs := rfl
@[simp] theorem State.setPort_ac : (s.setPort n p).ac = s.ac := rfl
@[simp] theorem State.setPort_bad : (s.setPort n p).bad = s.bad := rfl
@[simp] theorem State.setPort_l2bad : (s.setPort n p).l2bad = s.l2bad := rfl
@[simp] theorem State.setPort_wq : (s.setPort n p).wq = s.wq := rfl
@[simp] theorem State.setPort_cores : (s.setPort n p).cores = s.cores := rfl
@[simp] theorem State.setPort_clusters : (s.setPort n p).clusters = s.clusters := rfl
@[simp] theorem State.setPort_cols : (s.setPort n p).cols = s.cols := rfl
@[simp] theorem State.setPort_tlb : (s.setPort n p).tlb = s.tlb := rfl
@[simp] theorem State.setPort_wcache : (s.setPort n p).wcache = s.wcache := rfl
@[simp] theorem State.setPort_pwalks : (s.setPort n p).pwalks = s.pwalks := rfl
@[simp] theorem State.setPort_pgot : (s.setPort n p).pgot = s.pgot := rfl
@[simp] theorem State.setPort_served : (s.setPort n p).served = s.served := rfl
@[simp] theorem State.setPort_kdata : (s.setPort n p).kdata = s.kdata := rfl
@[simp] theorem State.setPort_walks : (s.setPort n p).walks = s.walks := rfl
@[simp] theorem State.setPort_invals : (s.setPort n p).invals = s.invals := rfl
@[simp] theorem State.setPort_nextInval : (s.setPort n p).nextInval = s.nextInval := rfl
@[simp] theorem State.setPort_nextSeq : (s.setPort n p).nextSeq = s.nextSeq := rfl
@[simp] theorem State.setPort_nextBalance : (s.setPort n p).nextBalance = s.nextBalance := rfl
@[simp] theorem State.setPort_now : (s.setPort n p).now = s.now := rfl
@[simp] theorem State.setPort_inja : (s.setPort n p).inja = s.inja := rfl
@[simp] theorem State.setPort_injc : (s.setPort n p).injc = s.injc := rfl
@[simp] theorem State.setPort_counters : (s.setPort n p).counters = s.counters := rfl
@[simp] theorem State.setPort_power : (s.setPort n p).power = s.power := rfl
@[simp] theorem State.setPort_prevTotal : (s.setPort n p).prevTotal = s.prevTotal := rfl
@[simp] theorem State.setPort_reserve : (s.setPort n p).reserve = s.reserve := rfl
@[simp] theorem State.setPort_nextClear : (s.setPort n p).nextClear = s.nextClear := rfl
@[simp] theorem State.setPort_pstate : (s.setPort n p).pstate = s.pstate := rfl
@[simp] theorem State.setPort_idleSince : (s.setPort n p).idleSince = s.idleSince := rfl
@[simp] theorem State.setPort_boot : (s.setPort n p).boot = s.boot := rfl
@[simp] theorem State.setPort_called : (s.setPort n p).called = s.called := rfl
@[simp] theorem State.setPort_fw : (s.setPort n p).fw = s.fw := rfl
@[simp] theorem State.setPort_supply : (s.setPort n p).supply = s.supply := rfl
@[simp] theorem State.setPort_inReset : (s.setPort n p).inReset = s.inReset := rfl
@[simp] theorem State.setPort_hot : (s.setPort n p).hot = s.hot := rfl
@[simp] theorem State.setPort_chans : (s.setPort n p).chans = s.chans := rfl
@[simp] theorem State.setPort_out : (s.setPort n p).out = s.out := rfl
@[simp] theorem State.setPort_ports : (s.setPort n p).ports = s.ports.setIfInBounds n p := rfl
@[simp] theorem State.setPort_selftest : (s.setPort n p).selftest = s.selftest := rfl
@[simp] theorem State.setPort_failedPeers : (s.setPort n p).failedPeers = s.failedPeers := rfl
@[simp] theorem State.setPort_peerCopies : (s.setPort n p).peerCopies = s.peerCopies := rfl
@[simp] theorem State.setPort_peerWrites : (s.setPort n p).peerWrites = s.peerWrites := rfl
@[simp] theorem State.setPort_peerSteps : (s.setPort n p).peerSteps = s.peerSteps := rfl
@[simp] theorem State.setPort_scrubs : (s.setPort n p).scrubs = s.scrubs := rfl
@[simp] theorem State.setPort_moves : (s.setPort n p).moves = s.moves := rfl
@[simp] theorem State.setPort_cur : (s.setPort n p).cur = s.cur := rfl
@[simp] theorem State.setPort_split : (s.setPort n p).split = s.split := rfl
@[simp] theorem State.setPort_free : (s.setPort n p).free = s.free := rfl

end

/-! ### setWalk -/

section
variable (s : State) (n : Nat) (w : Walk)

@[simp] theorem State.setWalk_wgs : (s.setWalk n w).wgs = s.wgs := rfl
@[simp] theorem State.setWalk_away : (s.setWalk n w).away = s.away := rfl
@[simp] theorem State.setWalk_launches : (s.setWalk n w).launches = s.launches := rfl
@[simp] theorem State.setWalk_units : (s.setWalk n w).units = s.units := rfl
@[simp] theorem State.setWalk_ctxs : (s.setWalk n w).ctxs = s.ctxs := rfl
@[simp] theorem State.setWalk_dram : (s.setWalk n w).dram = s.dram := rfl
@[simp] theorem State.setWalk_sram : (s.setWalk n w).sram = s.sram := rfl
@[simp] theorem State.setWalk_bs : (s.setWalk n w).bs = s.bs := rfl
@[simp] theorem State.setWalk_ac : (s.setWalk n w).ac = s.ac := rfl
@[simp] theorem State.setWalk_bad : (s.setWalk n w).bad = s.bad := rfl
@[simp] theorem State.setWalk_l2bad : (s.setWalk n w).l2bad = s.l2bad := rfl
@[simp] theorem State.setWalk_wq : (s.setWalk n w).wq = s.wq := rfl
@[simp] theorem State.setWalk_cores : (s.setWalk n w).cores = s.cores := rfl
@[simp] theorem State.setWalk_clusters : (s.setWalk n w).clusters = s.clusters := rfl
@[simp] theorem State.setWalk_cols : (s.setWalk n w).cols = s.cols := rfl
@[simp] theorem State.setWalk_tlb : (s.setWalk n w).tlb = s.tlb := rfl
@[simp] theorem State.setWalk_wcache : (s.setWalk n w).wcache = s.wcache := rfl
@[simp] theorem State.setWalk_pwalks : (s.setWalk n w).pwalks = s.pwalks := rfl
@[simp] theorem State.setWalk_pgot : (s.setWalk n w).pgot = s.pgot := rfl
@[simp] theorem State.setWalk_served : (s.setWalk n w).served = s.served := rfl
@[simp] theorem State.setWalk_kdata : (s.setWalk n w).kdata = s.kdata := rfl
@[simp] theorem State.setWalk_walks : (s.setWalk n w).walks = s.walks.set n w := rfl
@[simp] theorem State.setWalk_invals : (s.setWalk n w).invals = s.invals := rfl
@[simp] theorem State.setWalk_nextInval : (s.setWalk n w).nextInval = s.nextInval := rfl
@[simp] theorem State.setWalk_nextSeq : (s.setWalk n w).nextSeq = s.nextSeq := rfl
@[simp] theorem State.setWalk_nextBalance : (s.setWalk n w).nextBalance = s.nextBalance := rfl
@[simp] theorem State.setWalk_now : (s.setWalk n w).now = s.now := rfl
@[simp] theorem State.setWalk_inja : (s.setWalk n w).inja = s.inja := rfl
@[simp] theorem State.setWalk_injc : (s.setWalk n w).injc = s.injc := rfl
@[simp] theorem State.setWalk_counters : (s.setWalk n w).counters = s.counters := rfl
@[simp] theorem State.setWalk_power : (s.setWalk n w).power = s.power := rfl
@[simp] theorem State.setWalk_prevTotal : (s.setWalk n w).prevTotal = s.prevTotal := rfl
@[simp] theorem State.setWalk_reserve : (s.setWalk n w).reserve = s.reserve := rfl
@[simp] theorem State.setWalk_nextClear : (s.setWalk n w).nextClear = s.nextClear := rfl
@[simp] theorem State.setWalk_pstate : (s.setWalk n w).pstate = s.pstate := rfl
@[simp] theorem State.setWalk_idleSince : (s.setWalk n w).idleSince = s.idleSince := rfl
@[simp] theorem State.setWalk_boot : (s.setWalk n w).boot = s.boot := rfl
@[simp] theorem State.setWalk_called : (s.setWalk n w).called = s.called := rfl
@[simp] theorem State.setWalk_fw : (s.setWalk n w).fw = s.fw := rfl
@[simp] theorem State.setWalk_supply : (s.setWalk n w).supply = s.supply := rfl
@[simp] theorem State.setWalk_inReset : (s.setWalk n w).inReset = s.inReset := rfl
@[simp] theorem State.setWalk_hot : (s.setWalk n w).hot = s.hot := rfl
@[simp] theorem State.setWalk_chans : (s.setWalk n w).chans = s.chans := rfl
@[simp] theorem State.setWalk_out : (s.setWalk n w).out = s.out := rfl
@[simp] theorem State.setWalk_ports : (s.setWalk n w).ports = s.ports := rfl
@[simp] theorem State.setWalk_selftest : (s.setWalk n w).selftest = s.selftest := rfl
@[simp] theorem State.setWalk_failedPeers : (s.setWalk n w).failedPeers = s.failedPeers := rfl
@[simp] theorem State.setWalk_peerCopies : (s.setWalk n w).peerCopies = s.peerCopies := rfl
@[simp] theorem State.setWalk_peerWrites : (s.setWalk n w).peerWrites = s.peerWrites := rfl
@[simp] theorem State.setWalk_peerSteps : (s.setWalk n w).peerSteps = s.peerSteps := rfl
@[simp] theorem State.setWalk_scrubs : (s.setWalk n w).scrubs = s.scrubs := rfl
@[simp] theorem State.setWalk_moves : (s.setWalk n w).moves = s.moves := rfl
@[simp] theorem State.setWalk_cur : (s.setWalk n w).cur = s.cur := rfl
@[simp] theorem State.setWalk_split : (s.setWalk n w).split = s.split := rfl
@[simp] theorem State.setWalk_free : (s.setWalk n w).free = s.free := rfl

end

/-! ### modGroup -/

section
variable (s : State) (r : GRef) (f : Group → Group)

@[simp] theorem State.modGroup_wgs : (s.modGroup r f).wgs = s.wgs.map fun w => if w.isOf r.ctx r.lnum r.wg then w.modGrp r.grp f else w := rfl
@[simp] theorem State.modGroup_away : (s.modGroup r f).away = s.away := rfl
@[simp] theorem State.modGroup_launches : (s.modGroup r f).launches = s.launches := rfl
@[simp] theorem State.modGroup_units : (s.modGroup r f).units = s.units := rfl
@[simp] theorem State.modGroup_ctxs : (s.modGroup r f).ctxs = s.ctxs := rfl
@[simp] theorem State.modGroup_dram : (s.modGroup r f).dram = s.dram := rfl
@[simp] theorem State.modGroup_sram : (s.modGroup r f).sram = s.sram := rfl
@[simp] theorem State.modGroup_bs : (s.modGroup r f).bs = s.bs := rfl
@[simp] theorem State.modGroup_ac : (s.modGroup r f).ac = s.ac := rfl
@[simp] theorem State.modGroup_bad : (s.modGroup r f).bad = s.bad := rfl
@[simp] theorem State.modGroup_l2bad : (s.modGroup r f).l2bad = s.l2bad := rfl
@[simp] theorem State.modGroup_wq : (s.modGroup r f).wq = s.wq := rfl
@[simp] theorem State.modGroup_cores : (s.modGroup r f).cores = s.cores := rfl
@[simp] theorem State.modGroup_clusters : (s.modGroup r f).clusters = s.clusters := rfl
@[simp] theorem State.modGroup_cols : (s.modGroup r f).cols = s.cols := rfl
@[simp] theorem State.modGroup_tlb : (s.modGroup r f).tlb = s.tlb := rfl
@[simp] theorem State.modGroup_wcache : (s.modGroup r f).wcache = s.wcache := rfl
@[simp] theorem State.modGroup_pwalks : (s.modGroup r f).pwalks = s.pwalks := rfl
@[simp] theorem State.modGroup_pgot : (s.modGroup r f).pgot = s.pgot := rfl
@[simp] theorem State.modGroup_served : (s.modGroup r f).served = s.served := rfl
@[simp] theorem State.modGroup_kdata : (s.modGroup r f).kdata = s.kdata := rfl
@[simp] theorem State.modGroup_walks : (s.modGroup r f).walks = s.walks := rfl
@[simp] theorem State.modGroup_invals : (s.modGroup r f).invals = s.invals := rfl
@[simp] theorem State.modGroup_nextInval : (s.modGroup r f).nextInval = s.nextInval := rfl
@[simp] theorem State.modGroup_nextSeq : (s.modGroup r f).nextSeq = s.nextSeq := rfl
@[simp] theorem State.modGroup_nextBalance : (s.modGroup r f).nextBalance = s.nextBalance := rfl
@[simp] theorem State.modGroup_now : (s.modGroup r f).now = s.now := rfl
@[simp] theorem State.modGroup_inja : (s.modGroup r f).inja = s.inja := rfl
@[simp] theorem State.modGroup_injc : (s.modGroup r f).injc = s.injc := rfl
@[simp] theorem State.modGroup_counters : (s.modGroup r f).counters = s.counters := rfl
@[simp] theorem State.modGroup_power : (s.modGroup r f).power = s.power := rfl
@[simp] theorem State.modGroup_prevTotal : (s.modGroup r f).prevTotal = s.prevTotal := rfl
@[simp] theorem State.modGroup_reserve : (s.modGroup r f).reserve = s.reserve := rfl
@[simp] theorem State.modGroup_nextClear : (s.modGroup r f).nextClear = s.nextClear := rfl
@[simp] theorem State.modGroup_pstate : (s.modGroup r f).pstate = s.pstate := rfl
@[simp] theorem State.modGroup_idleSince : (s.modGroup r f).idleSince = s.idleSince := rfl
@[simp] theorem State.modGroup_boot : (s.modGroup r f).boot = s.boot := rfl
@[simp] theorem State.modGroup_called : (s.modGroup r f).called = s.called := rfl
@[simp] theorem State.modGroup_fw : (s.modGroup r f).fw = s.fw := rfl
@[simp] theorem State.modGroup_supply : (s.modGroup r f).supply = s.supply := rfl
@[simp] theorem State.modGroup_inReset : (s.modGroup r f).inReset = s.inReset := rfl
@[simp] theorem State.modGroup_hot : (s.modGroup r f).hot = s.hot := rfl
@[simp] theorem State.modGroup_chans : (s.modGroup r f).chans = s.chans := rfl
@[simp] theorem State.modGroup_out : (s.modGroup r f).out = s.out := rfl
@[simp] theorem State.modGroup_ports : (s.modGroup r f).ports = s.ports := rfl
@[simp] theorem State.modGroup_selftest : (s.modGroup r f).selftest = s.selftest := rfl
@[simp] theorem State.modGroup_failedPeers : (s.modGroup r f).failedPeers = s.failedPeers := rfl
@[simp] theorem State.modGroup_peerCopies : (s.modGroup r f).peerCopies = s.peerCopies := rfl
@[simp] theorem State.modGroup_peerWrites : (s.modGroup r f).peerWrites = s.peerWrites := rfl
@[simp] theorem State.modGroup_peerSteps : (s.modGroup r f).peerSteps = s.peerSteps := rfl
@[simp] theorem State.modGroup_scrubs : (s.modGroup r f).scrubs = s.scrubs := rfl
@[simp] theorem State.modGroup_moves : (s.modGroup r f).moves = s.moves := rfl
@[simp] theorem State.modGroup_cur : (s.modGroup r f).cur = s.cur := rfl
@[simp] theorem State.modGroup_split : (s.modGroup r f).split = s.split := rfl
@[simp] theorem State.modGroup_free : (s.modGroup r f).free = s.free := rfl

end

/-! ### setGroup -/

section
variable (s : State) (r : GRef) (g : Group)

@[simp] theorem State.setGroup_wgs : (s.setGroup r g).wgs = (s.modGroup r fun _ => g).wgs := rfl
@[simp] theorem State.setGroup_away : (s.setGroup r g).away = s.away := rfl
@[simp] theorem State.setGroup_launches : (s.setGroup r g).launches = s.launches := rfl
@[simp] theorem State.setGroup_units : (s.setGroup r g).units = s.units := rfl
@[simp] theorem State.setGroup_ctxs : (s.setGroup r g).ctxs = s.ctxs := rfl
@[simp] theorem State.setGroup_dram : (s.setGroup r g).dram = s.dram := rfl
@[simp] theorem State.setGroup_sram : (s.setGroup r g).sram = s.sram := rfl
@[simp] theorem State.setGroup_bs : (s.setGroup r g).bs = s.bs := rfl
@[simp] theorem State.setGroup_ac : (s.setGroup r g).ac = s.ac := rfl
@[simp] theorem State.setGroup_bad : (s.setGroup r g).bad = s.bad := rfl
@[simp] theorem State.setGroup_l2bad : (s.setGroup r g).l2bad = s.l2bad := rfl
@[simp] theorem State.setGroup_wq : (s.setGroup r g).wq = s.wq := rfl
@[simp] theorem State.setGroup_cores : (s.setGroup r g).cores = s.cores := rfl
@[simp] theorem State.setGroup_clusters : (s.setGroup r g).clusters = s.clusters := rfl
@[simp] theorem State.setGroup_cols : (s.setGroup r g).cols = s.cols := rfl
@[simp] theorem State.setGroup_tlb : (s.setGroup r g).tlb = s.tlb := rfl
@[simp] theorem State.setGroup_wcache : (s.setGroup r g).wcache = s.wcache := rfl
@[simp] theorem State.setGroup_pwalks : (s.setGroup r g).pwalks = s.pwalks := rfl
@[simp] theorem State.setGroup_pgot : (s.setGroup r g).pgot = s.pgot := rfl
@[simp] theorem State.setGroup_served : (s.setGroup r g).served = s.served := rfl
@[simp] theorem State.setGroup_kdata : (s.setGroup r g).kdata = s.kdata := rfl
@[simp] theorem State.setGroup_walks : (s.setGroup r g).walks = s.walks := rfl
@[simp] theorem State.setGroup_invals : (s.setGroup r g).invals = s.invals := rfl
@[simp] theorem State.setGroup_nextInval : (s.setGroup r g).nextInval = s.nextInval := rfl
@[simp] theorem State.setGroup_nextSeq : (s.setGroup r g).nextSeq = s.nextSeq := rfl
@[simp] theorem State.setGroup_nextBalance : (s.setGroup r g).nextBalance = s.nextBalance := rfl
@[simp] theorem State.setGroup_now : (s.setGroup r g).now = s.now := rfl
@[simp] theorem State.setGroup_inja : (s.setGroup r g).inja = s.inja := rfl
@[simp] theorem State.setGroup_injc : (s.setGroup r g).injc = s.injc := rfl
@[simp] theorem State.setGroup_counters : (s.setGroup r g).counters = s.counters := rfl
@[simp] theorem State.setGroup_power : (s.setGroup r g).power = s.power := rfl
@[simp] theorem State.setGroup_prevTotal : (s.setGroup r g).prevTotal = s.prevTotal := rfl
@[simp] theorem State.setGroup_reserve : (s.setGroup r g).reserve = s.reserve := rfl
@[simp] theorem State.setGroup_nextClear : (s.setGroup r g).nextClear = s.nextClear := rfl
@[simp] theorem State.setGroup_pstate : (s.setGroup r g).pstate = s.pstate := rfl
@[simp] theorem State.setGroup_idleSince : (s.setGroup r g).idleSince = s.idleSince := rfl
@[simp] theorem State.setGroup_boot : (s.setGroup r g).boot = s.boot := rfl
@[simp] theorem State.setGroup_called : (s.setGroup r g).called = s.called := rfl
@[simp] theorem State.setGroup_fw : (s.setGroup r g).fw = s.fw := rfl
@[simp] theorem State.setGroup_supply : (s.setGroup r g).supply = s.supply := rfl
@[simp] theorem State.setGroup_inReset : (s.setGroup r g).inReset = s.inReset := rfl
@[simp] theorem State.setGroup_hot : (s.setGroup r g).hot = s.hot := rfl
@[simp] theorem State.setGroup_chans : (s.setGroup r g).chans = s.chans := rfl
@[simp] theorem State.setGroup_out : (s.setGroup r g).out = s.out := rfl
@[simp] theorem State.setGroup_ports : (s.setGroup r g).ports = s.ports := rfl
@[simp] theorem State.setGroup_selftest : (s.setGroup r g).selftest = s.selftest := rfl
@[simp] theorem State.setGroup_failedPeers : (s.setGroup r g).failedPeers = s.failedPeers := rfl
@[simp] theorem State.setGroup_peerCopies : (s.setGroup r g).peerCopies = s.peerCopies := rfl
@[simp] theorem State.setGroup_peerWrites : (s.setGroup r g).peerWrites = s.peerWrites := rfl
@[simp] theorem State.setGroup_peerSteps : (s.setGroup r g).peerSteps = s.peerSteps := rfl
@[simp] theorem State.setGroup_scrubs : (s.setGroup r g).scrubs = s.scrubs := rfl
@[simp] theorem State.setGroup_moves : (s.setGroup r g).moves = s.moves := rfl
@[simp] theorem State.setGroup_cur : (s.setGroup r g).cur = s.cur := rfl
@[simp] theorem State.setGroup_split : (s.setGroup r g).split = s.split := rfl
@[simp] theorem State.setGroup_free : (s.setGroup r g).free = s.free := rfl

end

/-! ### modLaunch -/

section
variable (s : State) (c l : Nat) (f : Launch → Launch)

@[simp] theorem State.modLaunch_wgs : (s.modLaunch c l f).wgs = s.wgs := rfl
@[simp] theorem State.modLaunch_away : (s.modLaunch c l f).away = s.away := rfl
@[simp] theorem State.modLaunch_launches : (s.modLaunch c l f).launches = s.launches.map fun k => if k.ctx == c && k.lnum == l then f k else k := rfl
@[simp] theorem State.modLaunch_units : (s.modLaunch c l f).units = s.units := rfl
@[simp] theorem State.modLaunch_ctxs : (s.modLaunch c l f).ctxs = s.ctxs := rfl
@[simp] theorem State.modLaunch_dram : (s.modLaunch c l f).dram = s.dram := rfl
@[simp] theorem State.modLaunch_sram : (s.modLaunch c l f).sram = s.sram := rfl
@[simp] theorem State.modLaunch_bs : (s.modLaunch c l f).bs = s.bs := rfl
@[simp] theorem State.modLaunch_ac : (s.modLaunch c l f).ac = s.ac := rfl
@[simp] theorem State.modLaunch_bad : (s.modLaunch c l f).bad = s.bad := rfl
@[simp] theorem State.modLaunch_l2bad : (s.modLaunch c l f).l2bad = s.l2bad := rfl
@[simp] theorem State.modLaunch_wq : (s.modLaunch c l f).wq = s.wq := rfl
@[simp] theorem State.modLaunch_cores : (s.modLaunch c l f).cores = s.cores := rfl
@[simp] theorem State.modLaunch_clusters : (s.modLaunch c l f).clusters = s.clusters := rfl
@[simp] theorem State.modLaunch_cols : (s.modLaunch c l f).cols = s.cols := rfl
@[simp] theorem State.modLaunch_tlb : (s.modLaunch c l f).tlb = s.tlb := rfl
@[simp] theorem State.modLaunch_wcache : (s.modLaunch c l f).wcache = s.wcache := rfl
@[simp] theorem State.modLaunch_pwalks : (s.modLaunch c l f).pwalks = s.pwalks := rfl
@[simp] theorem State.modLaunch_pgot : (s.modLaunch c l f).pgot = s.pgot := rfl
@[simp] theorem State.modLaunch_served : (s.modLaunch c l f).served = s.served := rfl
@[simp] theorem State.modLaunch_kdata : (s.modLaunch c l f).kdata = s.kdata := rfl
@[simp] theorem State.modLaunch_walks : (s.modLaunch c l f).walks = s.walks := rfl
@[simp] theorem State.modLaunch_invals : (s.modLaunch c l f).invals = s.invals := rfl
@[simp] theorem State.modLaunch_nextInval : (s.modLaunch c l f).nextInval = s.nextInval := rfl
@[simp] theorem State.modLaunch_nextSeq : (s.modLaunch c l f).nextSeq = s.nextSeq := rfl
@[simp] theorem State.modLaunch_nextBalance : (s.modLaunch c l f).nextBalance = s.nextBalance := rfl
@[simp] theorem State.modLaunch_now : (s.modLaunch c l f).now = s.now := rfl
@[simp] theorem State.modLaunch_inja : (s.modLaunch c l f).inja = s.inja := rfl
@[simp] theorem State.modLaunch_injc : (s.modLaunch c l f).injc = s.injc := rfl
@[simp] theorem State.modLaunch_counters : (s.modLaunch c l f).counters = s.counters := rfl
@[simp] theorem State.modLaunch_power : (s.modLaunch c l f).power = s.power := rfl
@[simp] theorem State.modLaunch_prevTotal : (s.modLaunch c l f).prevTotal = s.prevTotal := rfl
@[simp] theorem State.modLaunch_reserve : (s.modLaunch c l f).reserve = s.reserve := rfl
@[simp] theorem State.modLaunch_nextClear : (s.modLaunch c l f).nextClear = s.nextClear := rfl
@[simp] theorem State.modLaunch_pstate : (s.modLaunch c l f).pstate = s.pstate := rfl
@[simp] theorem State.modLaunch_idleSince : (s.modLaunch c l f).idleSince = s.idleSince := rfl
@[simp] theorem State.modLaunch_boot : (s.modLaunch c l f).boot = s.boot := rfl
@[simp] theorem State.modLaunch_called : (s.modLaunch c l f).called = s.called := rfl
@[simp] theorem State.modLaunch_fw : (s.modLaunch c l f).fw = s.fw := rfl
@[simp] theorem State.modLaunch_supply : (s.modLaunch c l f).supply = s.supply := rfl
@[simp] theorem State.modLaunch_inReset : (s.modLaunch c l f).inReset = s.inReset := rfl
@[simp] theorem State.modLaunch_hot : (s.modLaunch c l f).hot = s.hot := rfl
@[simp] theorem State.modLaunch_chans : (s.modLaunch c l f).chans = s.chans := rfl
@[simp] theorem State.modLaunch_out : (s.modLaunch c l f).out = s.out := rfl
@[simp] theorem State.modLaunch_ports : (s.modLaunch c l f).ports = s.ports := rfl
@[simp] theorem State.modLaunch_selftest : (s.modLaunch c l f).selftest = s.selftest := rfl
@[simp] theorem State.modLaunch_failedPeers : (s.modLaunch c l f).failedPeers = s.failedPeers := rfl
@[simp] theorem State.modLaunch_peerCopies : (s.modLaunch c l f).peerCopies = s.peerCopies := rfl
@[simp] theorem State.modLaunch_peerWrites : (s.modLaunch c l f).peerWrites = s.peerWrites := rfl
@[simp] theorem State.modLaunch_peerSteps : (s.modLaunch c l f).peerSteps = s.peerSteps := rfl
@[simp] theorem State.modLaunch_scrubs : (s.modLaunch c l f).scrubs = s.scrubs := rfl
@[simp] theorem State.modLaunch_moves : (s.modLaunch c l f).moves = s.moves := rfl
@[simp] theorem State.modLaunch_cur : (s.modLaunch c l f).cur = s.cur := rfl
@[simp] theorem State.modLaunch_split : (s.modLaunch c l f).split = s.split := rfl
@[simp] theorem State.modLaunch_free : (s.modLaunch c l f).free = s.free := rfl

end

/-! ### send -/

section
variable (s : State) (ds : List (Nat × Nat)) (c l : Nat) (k : OutKind)

@[simp] theorem State.send_wgs : (s.send ds c l k).wgs = s.wgs := rfl
@[simp] theorem State.send_away : (s.send ds c l k).away = s.away := rfl
@[simp] theorem State.send_launches : (s.send ds c l k).launches = s.launches := rfl
@[simp] theorem State.send_units : (s.send ds c l k).units = s.units := rfl
@[simp] theorem State.send_ctxs : (s.send ds c l k).ctxs = s.ctxs := rfl
@[simp] theorem State.send_dram : (s.send ds c l k).dram = s.dram := rfl
@[simp] theorem State.send_sram : (s.send ds c l k).sram = s.sram := rfl
@[simp] theorem State.send_bs : (s.send ds c l k).bs = s.bs := rfl
@[simp] theorem State.send_ac : (s.send ds c l k).ac = s.ac := rfl
@[simp] theorem State.send_bad : (s.send ds c l k).bad = s.bad := rfl
@[simp] theorem State.send_l2bad : (s.send ds c l k).l2bad = s.l2bad := rfl
@[simp] theorem State.send_wq : (s.send ds c l k).wq = s.wq := rfl
@[simp] theorem State.send_cores : (s.send ds c l k).cores = s.cores := rfl
@[simp] theorem State.send_clusters : (s.send ds c l k).clusters = s.clusters := rfl
@[simp] theorem State.send_cols : (s.send ds c l k).cols = s.cols := rfl
@[simp] theorem State.send_tlb : (s.send ds c l k).tlb = s.tlb := rfl
@[simp] theorem State.send_wcache : (s.send ds c l k).wcache = s.wcache := rfl
@[simp] theorem State.send_pwalks : (s.send ds c l k).pwalks = s.pwalks := rfl
@[simp] theorem State.send_pgot : (s.send ds c l k).pgot = s.pgot := rfl
@[simp] theorem State.send_served : (s.send ds c l k).served = s.served := rfl
@[simp] theorem State.send_kdata : (s.send ds c l k).kdata = s.kdata := rfl
@[simp] theorem State.send_walks : (s.send ds c l k).walks = s.walks := rfl
@[simp] theorem State.send_invals : (s.send ds c l k).invals = s.invals := rfl
@[simp] theorem State.send_nextInval : (s.send ds c l k).nextInval = s.nextInval := rfl
@[simp] theorem State.send_nextSeq : (s.send ds c l k).nextSeq = s.nextSeq := rfl
@[simp] theorem State.send_nextBalance : (s.send ds c l k).nextBalance = s.nextBalance := rfl
@[simp] theorem State.send_now : (s.send ds c l k).now = s.now := rfl
@[simp] theorem State.send_inja : (s.send ds c l k).inja = s.inja := rfl
@[simp] theorem State.send_injc : (s.send ds c l k).injc = s.injc := rfl
@[simp] theorem State.send_counters : (s.send ds c l k).counters = s.counters := rfl
@[simp] theorem State.send_power : (s.send ds c l k).power = s.power := rfl
@[simp] theorem State.send_prevTotal : (s.send ds c l k).prevTotal = s.prevTotal := rfl
@[simp] theorem State.send_reserve : (s.send ds c l k).reserve = s.reserve := rfl
@[simp] theorem State.send_nextClear : (s.send ds c l k).nextClear = s.nextClear := rfl
@[simp] theorem State.send_pstate : (s.send ds c l k).pstate = s.pstate := rfl
@[simp] theorem State.send_idleSince : (s.send ds c l k).idleSince = s.idleSince := rfl
@[simp] theorem State.send_boot : (s.send ds c l k).boot = s.boot := rfl
@[simp] theorem State.send_called : (s.send ds c l k).called = s.called := rfl
@[simp] theorem State.send_fw : (s.send ds c l k).fw = s.fw := rfl
@[simp] theorem State.send_supply : (s.send ds c l k).supply = s.supply := rfl
@[simp] theorem State.send_inReset : (s.send ds c l k).inReset = s.inReset := rfl
@[simp] theorem State.send_hot : (s.send ds c l k).hot = s.hot := rfl
@[simp] theorem State.send_chans : (s.send ds c l k).chans = s.chans := rfl
@[simp] theorem State.send_out : (s.send ds c l k).out = s.out ++ [{ deps := ds, ctx := c, lnum := l, kind := k }] := rfl
@[simp] theorem State.send_ports : (s.send ds c l k).ports = s.ports := rfl
@[simp] theorem State.send_selftest : (s.send ds c l k).selftest = s.selftest := rfl
@[simp] theorem State.send_failedPeers : (s.send ds c l k).failedPeers = s.failedPeers := rfl
@[simp] theorem State.send_peerCopies : (s.send ds c l k).peerCopies = s.peerCopies := rfl
@[simp] theorem State.send_peerWrites : (s.send ds c l k).peerWrites = s.peerWrites := rfl
@[simp] theorem State.send_peerSteps : (s.send ds c l k).peerSteps = s.peerSteps := rfl
@[simp] theorem State.send_scrubs : (s.send ds c l k).scrubs = s.scrubs := rfl
@[simp] theorem State.send_moves : (s.send ds c l k).moves = s.moves := rfl
@[simp] theorem State.send_cur : (s.send ds c l k).cur = s.cur := rfl
@[simp] theorem State.send_split : (s.send ds c l k).split = s.split := rfl
@[simp] theorem State.send_free : (s.send ds c l k).free = s.free := rfl

end

/-! ### put -/

section
variable (s : State) (l : Loc) (bs : List Byte)

@[simp] theorem State.put_wgs : (s.put l bs).wgs = s.wgs := by cases l with | mk st a => cases st <;> rfl
@[simp] theorem State.put_away : (s.put l bs).away = s.away := by cases l with | mk st a => cases st <;> rfl
@[simp] theorem State.put_launches : (s.put l bs).launches = s.launches := by cases l with | mk st a => cases st <;> rfl
@[simp] theorem State.put_units : (s.put l bs).units = s.units := by cases l with | mk st a => cases st <;> rfl
@[simp] theorem State.put_ctxs : (s.put l bs).ctxs = s.ctxs := by cases l with | mk st a => cases st <;> rfl
@[simp] theorem State.put_wq : (s.put l bs).wq = s.wq := by cases l with | mk st a => cases st <;> rfl
@[simp] theorem State.put_cores : (s.put l bs).cores = s.cores := by cases l with | mk st a => cases st <;> rfl
@[simp] theorem State.put_clusters : (s.put l bs).clusters = s.clusters := by cases l with | mk st a => cases st <;> rfl
@[simp] theorem State.put_cols : (s.put l bs).cols = s.cols := by cases l with | mk st a => cases st <;> rfl
@[simp] theorem State.put_tlb : (s.put l bs).tlb = s.tlb := by cases l with | mk st a => cases st <;> rfl
@[simp] theorem State.put_wcache : (s.put l bs).wcache = s.wcache := by cases l with | mk st a => cases st <;> rfl
@[simp] theorem State.put_pwalks : (s.put l bs).pwalks = s.pwalks := by cases l with | mk st a => cases st <;> rfl
@[simp] theorem State.put_pgot : (s.put l bs).pgot = s.pgot := by cases l with | mk st a => cases st <;> rfl
@[simp] theorem State.put_served : (s.put l bs).served = s.served := by cases l with | mk st a => cases st <;> rfl
@[simp] theorem State.put_kdata : (s.put l bs).kdata = s.kdata := by cases l with | mk st a => cases st <;> rfl
@[simp] theorem State.put_walks : (s.put l bs).walks = s.walks := by cases l with | mk st a => cases st <;> rfl
@[simp] theorem State.put_invals : (s.put l bs).invals = s.invals := by cases l with | mk st a => cases st <;> rfl
@[simp] theorem State.put_nextInval : (s.put l bs).nextInval = s.nextInval := by cases l with | mk st a => cases st <;> rfl
@[simp] theorem State.put_nextSeq : (s.put l bs).nextSeq = s.nextSeq := by cases l with | mk st a => cases st <;> rfl
@[simp] theorem State.put_nextBalance : (s.put l bs).nextBalance = s.nextBalance := by cases l with | mk st a => cases st <;> rfl
@[simp] theorem State.put_now : (s.put l bs).now = s.now := by cases l with | mk st a => cases st <;> rfl
@[simp] theorem State.put_inja : (s.put l bs).inja = s.inja := by cases l with | mk st a => cases st <;> rfl
@[simp] theorem State.put_injc : (s.put l bs).injc = s.injc := by cases l with | mk st a => cases st <;> rfl
@[simp] theorem State.put_counters : (s.put l bs).counters = s.counters := by cases l with | mk st a => cases st <;> rfl
@[simp] theorem State.put_power : (s.put l bs).power = s.power := by cases l with | mk st a => cases st <;> rfl
@[simp] theorem State.put_prevTotal : (s.put l bs).prevTotal = s.prevTotal := by cases l with | mk st a => cases st <;> rfl
@[simp] theorem State.put_reserve : (s.put l bs).reserve = s.reserve := by cases l with | mk st a => cases st <;> rfl
@[simp] theorem State.put_nextClear : (s.put l bs).nextClear = s.nextClear := by cases l with | mk st a => cases st <;> rfl
@[simp] theorem State.put_pstate : (s.put l bs).pstate = s.pstate := by cases l with | mk st a => cases st <;> rfl
@[simp] theorem State.put_idleSince : (s.put l bs).idleSince = s.idleSince := by cases l with | mk st a => cases st <;> rfl
@[simp] theorem State.put_boot : (s.put l bs).boot = s.boot := by cases l with | mk st a => cases st <;> rfl
@[simp] theorem State.put_called : (s.put l bs).called = s.called := by cases l with | mk st a => cases st <;> rfl
@[simp] theorem State.put_fw : (s.put l bs).fw = s.fw := by cases l with | mk st a => cases st <;> rfl
@[simp] theorem State.put_supply : (s.put l bs).supply = s.supply := by cases l with | mk st a => cases st <;> rfl
@[simp] theorem State.put_inReset : (s.put l bs).inReset = s.inReset := by cases l with | mk st a => cases st <;> rfl
@[simp] theorem State.put_hot : (s.put l bs).hot = s.hot := by cases l with | mk st a => cases st <;> rfl
@[simp] theorem State.put_chans : (s.put l bs).chans = s.chans := by cases l with | mk st a => cases st <;> rfl
@[simp] theorem State.put_out : (s.put l bs).out = s.out := by cases l with | mk st a => cases st <;> rfl
@[simp] theorem State.put_ports : (s.put l bs).ports = s.ports := by cases l with | mk st a => cases st <;> rfl
@[simp] theorem State.put_selftest : (s.put l bs).selftest = s.selftest := by cases l with | mk st a => cases st <;> rfl
@[simp] theorem State.put_failedPeers : (s.put l bs).failedPeers = s.failedPeers := by cases l with | mk st a => cases st <;> rfl
@[simp] theorem State.put_peerCopies : (s.put l bs).peerCopies = s.peerCopies := by cases l with | mk st a => cases st <;> rfl
@[simp] theorem State.put_peerWrites : (s.put l bs).peerWrites = s.peerWrites := by cases l with | mk st a => cases st <;> rfl
@[simp] theorem State.put_peerSteps : (s.put l bs).peerSteps = s.peerSteps := by cases l with | mk st a => cases st <;> rfl
@[simp] theorem State.put_scrubs : (s.put l bs).scrubs = s.scrubs := by cases l with | mk st a => cases st <;> rfl
@[simp] theorem State.put_moves : (s.put l bs).moves = s.moves := by cases l with | mk st a => cases st <;> rfl
@[simp] theorem State.put_cur : (s.put l bs).cur = s.cur := by cases l with | mk st a => cases st <;> rfl
@[simp] theorem State.put_split : (s.put l bs).split = s.split := by cases l with | mk st a => cases st <;> rfl
@[simp] theorem State.put_free : (s.put l bs).free = s.free := by cases l with | mk st a => cases st <;> rfl

end

/-! ### modGrp -/

section
variable (w : Workgroup) (i : Nat) (f : Group → Group)

@[simp] theorem Workgroup.modGrp_ctx : (w.modGrp i f).ctx = w.ctx := rfl
@[simp] theorem Workgroup.modGrp_lnum : (w.modGrp i f).lnum = w.lnum := rfl
@[simp] theorem Workgroup.modGrp_wg : (w.modGrp i f).wg = w.wg := rfl
@[simp] theorem Workgroup.modGrp_core : (w.modGrp i f).core = w.core := rfl
@[simp] theorem Workgroup.modGrp_desc : (w.modGrp i f).desc = w.desc := rfl
@[simp] theorem Workgroup.modGrp_nwg : (w.modGrp i f).nwg = w.nwg := rfl
@[simp] theorem Workgroup.modGrp_ngroup : (w.modGrp i f).ngroup = w.ngroup := rfl
@[simp] theorem Workgroup.modGrp_scrBase : (w.modGrp i f).scrBase = w.scrBase := rfl
@[simp] theorem Workgroup.modGrp_scrSize : (w.modGrp i f).scrSize = w.scrSize := rfl
@[simp] theorem Workgroup.modGrp_groups : (w.modGrp i f).groups = w.groups.map fun g => if g.isId i then f g else g := rfl
@[simp] theorem Workgroup.modGrp_placedAt : (w.modGrp i f).placedAt = w.placedAt := rfl
@[simp] theorem Workgroup.modGrp_ending : (w.modGrp i f).ending = w.ending := rfl
@[simp] theorem Workgroup.modGrp_saving : (w.modGrp i f).saving = w.saving := rfl
@[simp] theorem Workgroup.modGrp_retryAt : (w.modGrp i f).retryAt = w.retryAt := rfl
@[simp] theorem Workgroup.modGrp_vfMark : (w.modGrp i f).vfMark = w.vfMark := rfl
@[simp] theorem Workgroup.modGrp_slot : (w.modGrp i f).slot = w.slot := rfl
@[simp] theorem Workgroup.modGrp_cmds : (w.modGrp i f).cmds = w.cmds := rfl
@[simp] theorem Workgroup.modGrp_toFill : (w.modGrp i f).toFill = w.toFill := rfl
@[simp] theorem Workgroup.modGrp_sScr : (w.modGrp i f).sScr = w.sScr := rfl
@[simp] theorem Workgroup.modGrp_sBs : (w.modGrp i f).sBs = w.sBs := rfl
@[simp] theorem Workgroup.modGrp_sAc : (w.modGrp i f).sAc = w.sAc := rfl

end

/-! ### setS -/

section
variable (g : Group) (n : Nat) (v : Word)

@[simp] theorem Group.setS_id : (g.setS n v).id = g.id := rfl
@[simp] theorem Group.setS_pc : (g.setS n v).pc = g.pc := rfl
@[simp] theorem Group.setS_v : (g.setS n v).v = g.v := rfl
@[simp] theorem Group.setS_vbad : (g.setS n v).vbad = g.vbad := rfl
@[simp] theorem Group.setS_s : (g.setS n v).s = g.s.setIfInBounds n v := rfl
@[simp] theorem Group.setS_m : (g.setS n v).m = g.m := rfl
@[simp] theorem Group.setS_p : (g.setS n v).p = g.p := rfl
@[simp] theorem Group.setS_live : (g.setS n v).live = g.live := rfl
@[simp] theorem Group.setS_dead : (g.setS n v).dead = g.dead := rfl
@[simp] theorem Group.setS_w : (g.setS n v).w = g.w := rfl
@[simp] theorem Group.setS_tid : (g.setS n v).tid = g.tid := rfl
@[simp] theorem Group.setS_gstat : (g.setS n v).gstat = g.gstat := rfl
@[simp] theorem Group.setS_srseed : (g.setS n v).srseed = g.srseed := rfl
@[simp] theorem Group.setS_srn : (g.setS n v).srn = g.srn := rfl
@[simp] theorem Group.setS_chk : (g.setS n v).chk = g.chk := rfl
@[simp] theorem Group.setS_trapb : (g.setS n v).trapb = g.trapb := rfl
@[simp] theorem Group.setS_tpc : (g.setS n v).tpc = g.tpc := rfl
@[simp] theorem Group.setS_tcause : (g.setS n v).tcause = g.tcause := rfl
@[simp] theorem Group.setS_taddr : (g.setS n v).taddr = g.taddr := rfl
@[simp] theorem Group.setS_tmap : (g.setS n v).tmap = g.tmap := rfl
@[simp] theorem Group.setS_taux : (g.setS n v).taux = g.taux := rfl
@[simp] theorem Group.setS_handler : (g.setS n v).handler = g.handler := rfl
@[simp] theorem Group.setS_wdog : (g.setS n v).wdog = g.wdog := rfl
@[simp] theorem Group.setS_waitCnt : (g.setS n v).waitCnt = g.waitCnt := rfl
@[simp] theorem Group.setS_runCnt : (g.setS n v).runCnt = g.runCnt := rfl
@[simp] theorem Group.setS_hold : (g.setS n v).hold = g.hold := rfl
@[simp] theorem Group.setS_tok : (g.setS n v).tok = g.tok := rfl
@[simp] theorem Group.setS_mcall : (g.setS n v).mcall = g.mcall := rfl
@[simp] theorem Group.setS_tokAt : (g.setS n v).tokAt = g.tokAt := rfl
@[simp] theorem Group.setS_seq : (g.setS n v).seq = g.seq := rfl
@[simp] theorem Group.setS_paired : (g.setS n v).paired = g.paired := rfl
@[simp] theorem Group.setS_rstep : (g.setS n v).rstep = g.rstep := rfl
@[simp] theorem Group.setS_entry : (g.setS n v).entry = g.entry := rfl
@[simp] theorem Group.setS_mstat : (g.setS n v).mstat = g.mstat := rfl
@[simp] theorem Group.setS_pend : (g.setS n v).pend = g.pend := rfl
@[simp] theorem Group.setS_hist : (g.setS n v).hist = g.hist := rfl
@[simp] theorem Group.setS_lines : (g.setS n v).lines = g.lines := rfl
@[simp] theorem Group.setS_wait : (g.setS n v).wait = g.wait := rfl
@[simp] theorem Group.setS_xf : (g.setS n v).xf = g.xf := rfl
@[simp] theorem Group.setS_sched : (g.setS n v).sched = g.sched := rfl
@[simp] theorem Group.setS_got : (g.setS n v).got = g.got := rfl
@[simp] theorem Group.setS_wgot : (g.setS n v).wgot = g.wgot := rfl
@[simp] theorem Group.setS_fgot : (g.setS n v).fgot = g.fgot := rfl
@[simp] theorem Group.setS_waitFep : (g.setS n v).waitFep = g.waitFep := rfl
@[simp] theorem Group.setS_blocked : (g.setS n v).blocked = g.blocked := rfl
@[simp] theorem Group.setS_met : (g.setS n v).met = g.met := rfl
@[simp] theorem Group.setS_pipes : (g.setS n v).pipes = g.pipes := rfl
@[simp] theorem Group.setS_issuedAt : (g.setS n v).issuedAt = g.issuedAt := rfl
@[simp] theorem Group.setS_slot : (g.setS n v).slot = g.slot := rfl
@[simp] theorem Group.setS_nextAt : (g.setS n v).nextAt = g.nextAt := rfl
@[simp] theorem Group.setS_lastIssue : (g.setS n v).lastIssue = g.lastIssue := rfl
@[simp] theorem Group.setS_ready : (g.setS n v).ready = g.ready := rfl
@[simp] theorem Group.setS_retired : (g.setS n v).retired = g.retired := rfl
@[simp] theorem Group.setS_lastEpoch : (g.setS n v).lastEpoch = g.lastEpoch := rfl

end

/-! ### setV -/

section
variable (g : Group) (n : Nat) (v : VReg)

@[simp] theorem Group.setV_id : (g.setV n v).id = g.id := rfl
@[simp] theorem Group.setV_pc : (g.setV n v).pc = g.pc := rfl
@[simp] theorem Group.setV_v : (g.setV n v).v = g.v.setIfInBounds n v := rfl
@[simp] theorem Group.setV_vbad : (g.setV n v).vbad = g.vbad.filter fun b => b.1 != n := rfl
@[simp] theorem Group.setV_s : (g.setV n v).s = g.s := rfl
@[simp] theorem Group.setV_m : (g.setV n v).m = g.m := rfl
@[simp] theorem Group.setV_p : (g.setV n v).p = g.p := rfl
@[simp] theorem Group.setV_live : (g.setV n v).live = g.live := rfl
@[simp] theorem Group.setV_dead : (g.setV n v).dead = g.dead := rfl
@[simp] theorem Group.setV_w : (g.setV n v).w = g.w := rfl
@[simp] theorem Group.setV_tid : (g.setV n v).tid = g.tid := rfl
@[simp] theorem Group.setV_gstat : (g.setV n v).gstat = g.gstat := rfl
@[simp] theorem Group.setV_srseed : (g.setV n v).srseed = g.srseed := rfl
@[simp] theorem Group.setV_srn : (g.setV n v).srn = g.srn := rfl
@[simp] theorem Group.setV_chk : (g.setV n v).chk = g.chk := rfl
@[simp] theorem Group.setV_trapb : (g.setV n v).trapb = g.trapb := rfl
@[simp] theorem Group.setV_tpc : (g.setV n v).tpc = g.tpc := rfl
@[simp] theorem Group.setV_tcause : (g.setV n v).tcause = g.tcause := rfl
@[simp] theorem Group.setV_taddr : (g.setV n v).taddr = g.taddr := rfl
@[simp] theorem Group.setV_tmap : (g.setV n v).tmap = g.tmap := rfl
@[simp] theorem Group.setV_taux : (g.setV n v).taux = g.taux := rfl
@[simp] theorem Group.setV_handler : (g.setV n v).handler = g.handler := rfl
@[simp] theorem Group.setV_wdog : (g.setV n v).wdog = g.wdog := rfl
@[simp] theorem Group.setV_waitCnt : (g.setV n v).waitCnt = g.waitCnt := rfl
@[simp] theorem Group.setV_runCnt : (g.setV n v).runCnt = g.runCnt := rfl
@[simp] theorem Group.setV_hold : (g.setV n v).hold = g.hold := rfl
@[simp] theorem Group.setV_tok : (g.setV n v).tok = g.tok := rfl
@[simp] theorem Group.setV_mcall : (g.setV n v).mcall = g.mcall := rfl
@[simp] theorem Group.setV_tokAt : (g.setV n v).tokAt = g.tokAt := rfl
@[simp] theorem Group.setV_seq : (g.setV n v).seq = g.seq := rfl
@[simp] theorem Group.setV_paired : (g.setV n v).paired = g.paired := rfl
@[simp] theorem Group.setV_rstep : (g.setV n v).rstep = g.rstep := rfl
@[simp] theorem Group.setV_entry : (g.setV n v).entry = g.entry := rfl
@[simp] theorem Group.setV_mstat : (g.setV n v).mstat = g.mstat := rfl
@[simp] theorem Group.setV_pend : (g.setV n v).pend = g.pend := rfl
@[simp] theorem Group.setV_hist : (g.setV n v).hist = g.hist := rfl
@[simp] theorem Group.setV_lines : (g.setV n v).lines = g.lines := rfl
@[simp] theorem Group.setV_wait : (g.setV n v).wait = g.wait := rfl
@[simp] theorem Group.setV_xf : (g.setV n v).xf = g.xf := rfl
@[simp] theorem Group.setV_sched : (g.setV n v).sched = g.sched := rfl
@[simp] theorem Group.setV_got : (g.setV n v).got = g.got := rfl
@[simp] theorem Group.setV_wgot : (g.setV n v).wgot = g.wgot := rfl
@[simp] theorem Group.setV_fgot : (g.setV n v).fgot = g.fgot := rfl
@[simp] theorem Group.setV_waitFep : (g.setV n v).waitFep = g.waitFep := rfl
@[simp] theorem Group.setV_blocked : (g.setV n v).blocked = g.blocked := rfl
@[simp] theorem Group.setV_met : (g.setV n v).met = g.met := rfl
@[simp] theorem Group.setV_pipes : (g.setV n v).pipes = g.pipes := rfl
@[simp] theorem Group.setV_issuedAt : (g.setV n v).issuedAt = g.issuedAt := rfl
@[simp] theorem Group.setV_slot : (g.setV n v).slot = g.slot := rfl
@[simp] theorem Group.setV_nextAt : (g.setV n v).nextAt = g.nextAt := rfl
@[simp] theorem Group.setV_lastIssue : (g.setV n v).lastIssue = g.lastIssue := rfl
@[simp] theorem Group.setV_ready : (g.setV n v).ready = g.ready := rfl
@[simp] theorem Group.setV_retired : (g.setV n v).retired = g.retired := rfl
@[simp] theorem Group.setV_lastEpoch : (g.setV n v).lastEpoch = g.lastEpoch := rfl

end

/-! ### setM -/

section
variable (g : Group) (n : Nat) (v : LaneMap)

@[simp] theorem Group.setM_id : (g.setM n v).id = g.id := rfl
@[simp] theorem Group.setM_pc : (g.setM n v).pc = g.pc := rfl
@[simp] theorem Group.setM_v : (g.setM n v).v = g.v := rfl
@[simp] theorem Group.setM_vbad : (g.setM n v).vbad = g.vbad := rfl
@[simp] theorem Group.setM_s : (g.setM n v).s = g.s := rfl
@[simp] theorem Group.setM_m : (g.setM n v).m = g.m.setIfInBounds n v := rfl
@[simp] theorem Group.setM_p : (g.setM n v).p = g.p := rfl
@[simp] theorem Group.setM_live : (g.setM n v).live = g.live := rfl
@[simp] theorem Group.setM_dead : (g.setM n v).dead = g.dead := rfl
@[simp] theorem Group.setM_w : (g.setM n v).w = g.w := rfl
@[simp] theorem Group.setM_tid : (g.setM n v).tid = g.tid := rfl
@[simp] theorem Group.setM_gstat : (g.setM n v).gstat = g.gstat := rfl
@[simp] theorem Group.setM_srseed : (g.setM n v).srseed = g.srseed := rfl
@[simp] theorem Group.setM_srn : (g.setM n v).srn = g.srn := rfl
@[simp] theorem Group.setM_chk : (g.setM n v).chk = g.chk := rfl
@[simp] theorem Group.setM_trapb : (g.setM n v).trapb = g.trapb := rfl
@[simp] theorem Group.setM_tpc : (g.setM n v).tpc = g.tpc := rfl
@[simp] theorem Group.setM_tcause : (g.setM n v).tcause = g.tcause := rfl
@[simp] theorem Group.setM_taddr : (g.setM n v).taddr = g.taddr := rfl
@[simp] theorem Group.setM_tmap : (g.setM n v).tmap = g.tmap := rfl
@[simp] theorem Group.setM_taux : (g.setM n v).taux = g.taux := rfl
@[simp] theorem Group.setM_handler : (g.setM n v).handler = g.handler := rfl
@[simp] theorem Group.setM_wdog : (g.setM n v).wdog = g.wdog := rfl
@[simp] theorem Group.setM_waitCnt : (g.setM n v).waitCnt = g.waitCnt := rfl
@[simp] theorem Group.setM_runCnt : (g.setM n v).runCnt = g.runCnt := rfl
@[simp] theorem Group.setM_hold : (g.setM n v).hold = g.hold := rfl
@[simp] theorem Group.setM_tok : (g.setM n v).tok = g.tok := rfl
@[simp] theorem Group.setM_mcall : (g.setM n v).mcall = g.mcall := rfl
@[simp] theorem Group.setM_tokAt : (g.setM n v).tokAt = g.tokAt := rfl
@[simp] theorem Group.setM_seq : (g.setM n v).seq = g.seq := rfl
@[simp] theorem Group.setM_paired : (g.setM n v).paired = g.paired := rfl
@[simp] theorem Group.setM_rstep : (g.setM n v).rstep = g.rstep := rfl
@[simp] theorem Group.setM_entry : (g.setM n v).entry = g.entry := rfl
@[simp] theorem Group.setM_mstat : (g.setM n v).mstat = g.mstat := rfl
@[simp] theorem Group.setM_pend : (g.setM n v).pend = g.pend := rfl
@[simp] theorem Group.setM_hist : (g.setM n v).hist = g.hist := rfl
@[simp] theorem Group.setM_lines : (g.setM n v).lines = g.lines := rfl
@[simp] theorem Group.setM_wait : (g.setM n v).wait = g.wait := rfl
@[simp] theorem Group.setM_xf : (g.setM n v).xf = g.xf := rfl
@[simp] theorem Group.setM_sched : (g.setM n v).sched = g.sched := rfl
@[simp] theorem Group.setM_got : (g.setM n v).got = g.got := rfl
@[simp] theorem Group.setM_wgot : (g.setM n v).wgot = g.wgot := rfl
@[simp] theorem Group.setM_fgot : (g.setM n v).fgot = g.fgot := rfl
@[simp] theorem Group.setM_waitFep : (g.setM n v).waitFep = g.waitFep := rfl
@[simp] theorem Group.setM_blocked : (g.setM n v).blocked = g.blocked := rfl
@[simp] theorem Group.setM_met : (g.setM n v).met = g.met := rfl
@[simp] theorem Group.setM_pipes : (g.setM n v).pipes = g.pipes := rfl
@[simp] theorem Group.setM_issuedAt : (g.setM n v).issuedAt = g.issuedAt := rfl
@[simp] theorem Group.setM_slot : (g.setM n v).slot = g.slot := rfl
@[simp] theorem Group.setM_nextAt : (g.setM n v).nextAt = g.nextAt := rfl
@[simp] theorem Group.setM_lastIssue : (g.setM n v).lastIssue = g.lastIssue := rfl
@[simp] theorem Group.setM_ready : (g.setM n v).ready = g.ready := rfl
@[simp] theorem Group.setM_retired : (g.setM n v).retired = g.retired := rfl
@[simp] theorem Group.setM_lastEpoch : (g.setM n v).lastEpoch = g.lastEpoch := rfl

end

/-! ### setP -/

section
variable (g : Group) (n : Nat) (v : Bool)

@[simp] theorem Group.setP_id : (g.setP n v).id = g.id := rfl
@[simp] theorem Group.setP_pc : (g.setP n v).pc = g.pc := rfl
@[simp] theorem Group.setP_v : (g.setP n v).v = g.v := rfl
@[simp] theorem Group.setP_vbad : (g.setP n v).vbad = g.vbad := rfl
@[simp] theorem Group.setP_s : (g.setP n v).s = g.s := rfl
@[simp] theorem Group.setP_m : (g.setP n v).m = g.m := rfl
@[simp] theorem Group.setP_p : (g.setP n v).p = g.p.setIfInBounds n v := rfl
@[simp] theorem Group.setP_live : (g.setP n v).live = g.live := rfl
@[simp] theorem Group.setP_dead : (g.setP n v).dead = g.dead := rfl
@[simp] theorem Group.setP_w : (g.setP n v).w = g.w := rfl
@[simp] theorem Group.setP_tid : (g.setP n v).tid = g.tid := rfl
@[simp] theorem Group.setP_gstat : (g.setP n v).gstat = g.gstat := rfl
@[simp] theorem Group.setP_srseed : (g.setP n v).srseed = g.srseed := rfl
@[simp] theorem Group.setP_srn : (g.setP n v).srn = g.srn := rfl
@[simp] theorem Group.setP_chk : (g.setP n v).chk = g.chk := rfl
@[simp] theorem Group.setP_trapb : (g.setP n v).trapb = g.trapb := rfl
@[simp] theorem Group.setP_tpc : (g.setP n v).tpc = g.tpc := rfl
@[simp] theorem Group.setP_tcause : (g.setP n v).tcause = g.tcause := rfl
@[simp] theorem Group.setP_taddr : (g.setP n v).taddr = g.taddr := rfl
@[simp] theorem Group.setP_tmap : (g.setP n v).tmap = g.tmap := rfl
@[simp] theorem Group.setP_taux : (g.setP n v).taux = g.taux := rfl
@[simp] theorem Group.setP_handler : (g.setP n v).handler = g.handler := rfl
@[simp] theorem Group.setP_wdog : (g.setP n v).wdog = g.wdog := rfl
@[simp] theorem Group.setP_waitCnt : (g.setP n v).waitCnt = g.waitCnt := rfl
@[simp] theorem Group.setP_runCnt : (g.setP n v).runCnt = g.runCnt := rfl
@[simp] theorem Group.setP_hold : (g.setP n v).hold = g.hold := rfl
@[simp] theorem Group.setP_tok : (g.setP n v).tok = g.tok := rfl
@[simp] theorem Group.setP_mcall : (g.setP n v).mcall = g.mcall := rfl
@[simp] theorem Group.setP_tokAt : (g.setP n v).tokAt = g.tokAt := rfl
@[simp] theorem Group.setP_seq : (g.setP n v).seq = g.seq := rfl
@[simp] theorem Group.setP_paired : (g.setP n v).paired = g.paired := rfl
@[simp] theorem Group.setP_rstep : (g.setP n v).rstep = g.rstep := rfl
@[simp] theorem Group.setP_entry : (g.setP n v).entry = g.entry := rfl
@[simp] theorem Group.setP_mstat : (g.setP n v).mstat = g.mstat := rfl
@[simp] theorem Group.setP_pend : (g.setP n v).pend = g.pend := rfl
@[simp] theorem Group.setP_hist : (g.setP n v).hist = g.hist := rfl
@[simp] theorem Group.setP_lines : (g.setP n v).lines = g.lines := rfl
@[simp] theorem Group.setP_wait : (g.setP n v).wait = g.wait := rfl
@[simp] theorem Group.setP_xf : (g.setP n v).xf = g.xf := rfl
@[simp] theorem Group.setP_sched : (g.setP n v).sched = g.sched := rfl
@[simp] theorem Group.setP_got : (g.setP n v).got = g.got := rfl
@[simp] theorem Group.setP_wgot : (g.setP n v).wgot = g.wgot := rfl
@[simp] theorem Group.setP_fgot : (g.setP n v).fgot = g.fgot := rfl
@[simp] theorem Group.setP_waitFep : (g.setP n v).waitFep = g.waitFep := rfl
@[simp] theorem Group.setP_blocked : (g.setP n v).blocked = g.blocked := rfl
@[simp] theorem Group.setP_met : (g.setP n v).met = g.met := rfl
@[simp] theorem Group.setP_pipes : (g.setP n v).pipes = g.pipes := rfl
@[simp] theorem Group.setP_issuedAt : (g.setP n v).issuedAt = g.issuedAt := rfl
@[simp] theorem Group.setP_slot : (g.setP n v).slot = g.slot := rfl
@[simp] theorem Group.setP_nextAt : (g.setP n v).nextAt = g.nextAt := rfl
@[simp] theorem Group.setP_lastIssue : (g.setP n v).lastIssue = g.lastIssue := rfl
@[simp] theorem Group.setP_ready : (g.setP n v).ready = g.ready := rfl
@[simp] theorem Group.setP_retired : (g.setP n v).retired = g.retired := rfl
@[simp] theorem Group.setP_lastEpoch : (g.setP n v).lastEpoch = g.lastEpoch := rfl

end

/-! ### setW -/

section
variable (g : Group) (n : Nat) (v : Walker)

@[simp] theorem Group.setW_id : (g.setW n v).id = g.id := rfl
@[simp] theorem Group.setW_pc : (g.setW n v).pc = g.pc := rfl
@[simp] theorem Group.setW_v : (g.setW n v).v = g.v := rfl
@[simp] theorem Group.setW_vbad : (g.setW n v).vbad = g.vbad := rfl
@[simp] theorem Group.setW_s : (g.setW n v).s = g.s := rfl
@[simp] theorem Group.setW_m : (g.setW n v).m = g.m := rfl
@[simp] theorem Group.setW_p : (g.setW n v).p = g.p := rfl
@[simp] theorem Group.setW_live : (g.setW n v).live = g.live := rfl
@[simp] theorem Group.setW_dead : (g.setW n v).dead = g.dead := rfl
@[simp] theorem Group.setW_w : (g.setW n v).w = g.w.setIfInBounds n v := rfl
@[simp] theorem Group.setW_tid : (g.setW n v).tid = g.tid := rfl
@[simp] theorem Group.setW_gstat : (g.setW n v).gstat = g.gstat := rfl
@[simp] theorem Group.setW_srseed : (g.setW n v).srseed = g.srseed := rfl
@[simp] theorem Group.setW_srn : (g.setW n v).srn = g.srn := rfl
@[simp] theorem Group.setW_chk : (g.setW n v).chk = g.chk := rfl
@[simp] theorem Group.setW_trapb : (g.setW n v).trapb = g.trapb := rfl
@[simp] theorem Group.setW_tpc : (g.setW n v).tpc = g.tpc := rfl
@[simp] theorem Group.setW_tcause : (g.setW n v).tcause = g.tcause := rfl
@[simp] theorem Group.setW_taddr : (g.setW n v).taddr = g.taddr := rfl
@[simp] theorem Group.setW_tmap : (g.setW n v).tmap = g.tmap := rfl
@[simp] theorem Group.setW_taux : (g.setW n v).taux = g.taux := rfl
@[simp] theorem Group.setW_handler : (g.setW n v).handler = g.handler := rfl
@[simp] theorem Group.setW_wdog : (g.setW n v).wdog = g.wdog := rfl
@[simp] theorem Group.setW_waitCnt : (g.setW n v).waitCnt = g.waitCnt := rfl
@[simp] theorem Group.setW_runCnt : (g.setW n v).runCnt = g.runCnt := rfl
@[simp] theorem Group.setW_hold : (g.setW n v).hold = g.hold := rfl
@[simp] theorem Group.setW_tok : (g.setW n v).tok = g.tok := rfl
@[simp] theorem Group.setW_mcall : (g.setW n v).mcall = g.mcall := rfl
@[simp] theorem Group.setW_tokAt : (g.setW n v).tokAt = g.tokAt := rfl
@[simp] theorem Group.setW_seq : (g.setW n v).seq = g.seq := rfl
@[simp] theorem Group.setW_paired : (g.setW n v).paired = g.paired := rfl
@[simp] theorem Group.setW_rstep : (g.setW n v).rstep = g.rstep := rfl
@[simp] theorem Group.setW_entry : (g.setW n v).entry = g.entry := rfl
@[simp] theorem Group.setW_mstat : (g.setW n v).mstat = g.mstat := rfl
@[simp] theorem Group.setW_pend : (g.setW n v).pend = g.pend := rfl
@[simp] theorem Group.setW_hist : (g.setW n v).hist = g.hist := rfl
@[simp] theorem Group.setW_lines : (g.setW n v).lines = g.lines := rfl
@[simp] theorem Group.setW_wait : (g.setW n v).wait = g.wait := rfl
@[simp] theorem Group.setW_xf : (g.setW n v).xf = g.xf := rfl
@[simp] theorem Group.setW_sched : (g.setW n v).sched = g.sched := rfl
@[simp] theorem Group.setW_got : (g.setW n v).got = g.got := rfl
@[simp] theorem Group.setW_wgot : (g.setW n v).wgot = g.wgot := rfl
@[simp] theorem Group.setW_fgot : (g.setW n v).fgot = g.fgot := rfl
@[simp] theorem Group.setW_waitFep : (g.setW n v).waitFep = g.waitFep := rfl
@[simp] theorem Group.setW_blocked : (g.setW n v).blocked = g.blocked := rfl
@[simp] theorem Group.setW_met : (g.setW n v).met = g.met := rfl
@[simp] theorem Group.setW_pipes : (g.setW n v).pipes = g.pipes := rfl
@[simp] theorem Group.setW_issuedAt : (g.setW n v).issuedAt = g.issuedAt := rfl
@[simp] theorem Group.setW_slot : (g.setW n v).slot = g.slot := rfl
@[simp] theorem Group.setW_nextAt : (g.setW n v).nextAt = g.nextAt := rfl
@[simp] theorem Group.setW_lastIssue : (g.setW n v).lastIssue = g.lastIssue := rfl
@[simp] theorem Group.setW_ready : (g.setW n v).ready = g.ready := rfl
@[simp] theorem Group.setW_retired : (g.setW n v).retired = g.retired := rfl
@[simp] theorem Group.setW_lastEpoch : (g.setW n v).lastEpoch = g.lastEpoch := rfl

end

/-! ### setTok -/

section
variable (g : Group) (n : Nat) (v : Bool)

@[simp] theorem Group.setTok_id : (g.setTok n v).id = g.id := rfl
@[simp] theorem Group.setTok_pc : (g.setTok n v).pc = g.pc := rfl
@[simp] theorem Group.setTok_v : (g.setTok n v).v = g.v := rfl
@[simp] theorem Group.setTok_vbad : (g.setTok n v).vbad = g.vbad := rfl
@[simp] theorem Group.setTok_s : (g.setTok n v).s = g.s := rfl
@[simp] theorem Group.setTok_m : (g.setTok n v).m = g.m := rfl
@[simp] theorem Group.setTok_p : (g.setTok n v).p = g.p := rfl
@[simp] theorem Group.setTok_live : (g.setTok n v).live = g.live := rfl
@[simp] theorem Group.setTok_dead : (g.setTok n v).dead = g.dead := rfl
@[simp] theorem Group.setTok_w : (g.setTok n v).w = g.w := rfl
@[simp] theorem Group.setTok_tid : (g.setTok n v).tid = g.tid := rfl
@[simp] theorem Group.setTok_gstat : (g.setTok n v).gstat = g.gstat := rfl
@[simp] theorem Group.setTok_srseed : (g.setTok n v).srseed = g.srseed := rfl
@[simp] theorem Group.setTok_srn : (g.setTok n v).srn = g.srn := rfl
@[simp] theorem Group.setTok_chk : (g.setTok n v).chk = g.chk := rfl
@[simp] theorem Group.setTok_trapb : (g.setTok n v).trapb = g.trapb := rfl
@[simp] theorem Group.setTok_tpc : (g.setTok n v).tpc = g.tpc := rfl
@[simp] theorem Group.setTok_tcause : (g.setTok n v).tcause = g.tcause := rfl
@[simp] theorem Group.setTok_taddr : (g.setTok n v).taddr = g.taddr := rfl
@[simp] theorem Group.setTok_tmap : (g.setTok n v).tmap = g.tmap := rfl
@[simp] theorem Group.setTok_taux : (g.setTok n v).taux = g.taux := rfl
@[simp] theorem Group.setTok_handler : (g.setTok n v).handler = g.handler := rfl
@[simp] theorem Group.setTok_wdog : (g.setTok n v).wdog = g.wdog := rfl
@[simp] theorem Group.setTok_waitCnt : (g.setTok n v).waitCnt = g.waitCnt := rfl
@[simp] theorem Group.setTok_runCnt : (g.setTok n v).runCnt = g.runCnt := rfl
@[simp] theorem Group.setTok_hold : (g.setTok n v).hold = g.hold := rfl
@[simp] theorem Group.setTok_tok : (g.setTok n v).tok = g.tok.setIfInBounds n v := rfl
@[simp] theorem Group.setTok_mcall : (g.setTok n v).mcall = g.mcall := rfl
@[simp] theorem Group.setTok_tokAt : (g.setTok n v).tokAt = g.tokAt := rfl
@[simp] theorem Group.setTok_seq : (g.setTok n v).seq = g.seq := rfl
@[simp] theorem Group.setTok_paired : (g.setTok n v).paired = g.paired := rfl
@[simp] theorem Group.setTok_rstep : (g.setTok n v).rstep = g.rstep := rfl
@[simp] theorem Group.setTok_entry : (g.setTok n v).entry = g.entry := rfl
@[simp] theorem Group.setTok_mstat : (g.setTok n v).mstat = g.mstat := rfl
@[simp] theorem Group.setTok_pend : (g.setTok n v).pend = g.pend := rfl
@[simp] theorem Group.setTok_hist : (g.setTok n v).hist = g.hist := rfl
@[simp] theorem Group.setTok_lines : (g.setTok n v).lines = g.lines := rfl
@[simp] theorem Group.setTok_wait : (g.setTok n v).wait = g.wait := rfl
@[simp] theorem Group.setTok_xf : (g.setTok n v).xf = g.xf := rfl
@[simp] theorem Group.setTok_sched : (g.setTok n v).sched = g.sched := rfl
@[simp] theorem Group.setTok_got : (g.setTok n v).got = g.got := rfl
@[simp] theorem Group.setTok_wgot : (g.setTok n v).wgot = g.wgot := rfl
@[simp] theorem Group.setTok_fgot : (g.setTok n v).fgot = g.fgot := rfl
@[simp] theorem Group.setTok_waitFep : (g.setTok n v).waitFep = g.waitFep := rfl
@[simp] theorem Group.setTok_blocked : (g.setTok n v).blocked = g.blocked := rfl
@[simp] theorem Group.setTok_met : (g.setTok n v).met = g.met := rfl
@[simp] theorem Group.setTok_pipes : (g.setTok n v).pipes = g.pipes := rfl
@[simp] theorem Group.setTok_issuedAt : (g.setTok n v).issuedAt = g.issuedAt := rfl
@[simp] theorem Group.setTok_slot : (g.setTok n v).slot = g.slot := rfl
@[simp] theorem Group.setTok_nextAt : (g.setTok n v).nextAt = g.nextAt := rfl
@[simp] theorem Group.setTok_lastIssue : (g.setTok n v).lastIssue = g.lastIssue := rfl
@[simp] theorem Group.setTok_ready : (g.setTok n v).ready = g.ready := rfl
@[simp] theorem Group.setTok_retired : (g.setTok n v).retired = g.retired := rfl
@[simp] theorem Group.setTok_lastEpoch : (g.setTok n v).lastEpoch = g.lastEpoch := rfl

end

/-! ### flag -/

section
variable (g : Group) (x : Flags)

@[simp] theorem Group.flag_id : (g.flag x).id = g.id := rfl
@[simp] theorem Group.flag_pc : (g.flag x).pc = g.pc := rfl
@[simp] theorem Group.flag_v : (g.flag x).v = g.v := rfl
@[simp] theorem Group.flag_vbad : (g.flag x).vbad = g.vbad := rfl
@[simp] theorem Group.flag_s : (g.flag x).s = g.s := rfl
@[simp] theorem Group.flag_m : (g.flag x).m = g.m := rfl
@[simp] theorem Group.flag_p : (g.flag x).p = g.p := rfl
@[simp] theorem Group.flag_live : (g.flag x).live = g.live := rfl
@[simp] theorem Group.flag_dead : (g.flag x).dead = g.dead := rfl
@[simp] theorem Group.flag_w : (g.flag x).w = g.w := rfl
@[simp] theorem Group.flag_tid : (g.flag x).tid = g.tid := rfl
@[simp] theorem Group.flag_gstat : (g.flag x).gstat = g.gstat ||| x := rfl
@[simp] theorem Group.flag_srseed : (g.flag x).srseed = g.srseed := rfl
@[simp] theorem Group.flag_srn : (g.flag x).srn = g.srn := rfl
@[simp] theorem Group.flag_chk : (g.flag x).chk = g.chk := rfl
@[simp] theorem Group.flag_trapb : (g.flag x).trapb = g.trapb := rfl
@[simp] theorem Group.flag_tpc : (g.flag x).tpc = g.tpc := rfl
@[simp] theorem Group.flag_tcause : (g.flag x).tcause = g.tcause := rfl
@[simp] theorem Group.flag_taddr : (g.flag x).taddr = g.taddr := rfl
@[simp] theorem Group.flag_tmap : (g.flag x).tmap = g.tmap := rfl
@[simp] theorem Group.flag_taux : (g.flag x).taux = g.taux := rfl
@[simp] theorem Group.flag_handler : (g.flag x).handler = g.handler := rfl
@[simp] theorem Group.flag_wdog : (g.flag x).wdog = g.wdog := rfl
@[simp] theorem Group.flag_waitCnt : (g.flag x).waitCnt = g.waitCnt := rfl
@[simp] theorem Group.flag_runCnt : (g.flag x).runCnt = g.runCnt := rfl
@[simp] theorem Group.flag_hold : (g.flag x).hold = g.hold := rfl
@[simp] theorem Group.flag_tok : (g.flag x).tok = g.tok := rfl
@[simp] theorem Group.flag_mcall : (g.flag x).mcall = g.mcall := rfl
@[simp] theorem Group.flag_tokAt : (g.flag x).tokAt = g.tokAt := rfl
@[simp] theorem Group.flag_seq : (g.flag x).seq = g.seq := rfl
@[simp] theorem Group.flag_paired : (g.flag x).paired = g.paired := rfl
@[simp] theorem Group.flag_rstep : (g.flag x).rstep = g.rstep := rfl
@[simp] theorem Group.flag_entry : (g.flag x).entry = g.entry := rfl
@[simp] theorem Group.flag_mstat : (g.flag x).mstat = g.mstat := rfl
@[simp] theorem Group.flag_pend : (g.flag x).pend = g.pend := rfl
@[simp] theorem Group.flag_hist : (g.flag x).hist = g.hist := rfl
@[simp] theorem Group.flag_lines : (g.flag x).lines = g.lines := rfl
@[simp] theorem Group.flag_wait : (g.flag x).wait = g.wait := rfl
@[simp] theorem Group.flag_xf : (g.flag x).xf = g.xf := rfl
@[simp] theorem Group.flag_sched : (g.flag x).sched = g.sched := rfl
@[simp] theorem Group.flag_got : (g.flag x).got = g.got := rfl
@[simp] theorem Group.flag_wgot : (g.flag x).wgot = g.wgot := rfl
@[simp] theorem Group.flag_fgot : (g.flag x).fgot = g.fgot := rfl
@[simp] theorem Group.flag_waitFep : (g.flag x).waitFep = g.waitFep := rfl
@[simp] theorem Group.flag_blocked : (g.flag x).blocked = g.blocked := rfl
@[simp] theorem Group.flag_met : (g.flag x).met = g.met := rfl
@[simp] theorem Group.flag_pipes : (g.flag x).pipes = g.pipes := rfl
@[simp] theorem Group.flag_issuedAt : (g.flag x).issuedAt = g.issuedAt := rfl
@[simp] theorem Group.flag_slot : (g.flag x).slot = g.slot := rfl
@[simp] theorem Group.flag_nextAt : (g.flag x).nextAt = g.nextAt := rfl
@[simp] theorem Group.flag_lastIssue : (g.flag x).lastIssue = g.lastIssue := rfl
@[simp] theorem Group.flag_ready : (g.flag x).ready = g.ready := rfl
@[simp] theorem Group.flag_retired : (g.flag x).retired = g.retired := rfl
@[simp] theorem Group.flag_lastEpoch : (g.flag x).lastEpoch = g.lastEpoch := rfl

end

end Sys2Proof.Machine
end

