-- ==== Sys2Proof/Tests/Slice0.lean ====
section
/-!
SUPPORT. Tests: words written out from the spec, ill-formed terms, one-step results calculated by hand from the rules, and for each
statement concrete states and operands that meet its premises.
-/

set_option Elab.async false

namespace Sys2Proof.Tests

open Sys2Proof Sys2Proof.Machine

/-! ### Building small states and words -/

def k0 : Ctl := { stl := 1, set := 7, wait := 0, yld := false, g1 := { neg := false, p := 7 }, g2 := { neg := false, p := 7 }
                  ch := .normal, mc := false, fn := 0, ty := .b32, sc := .thread }
def kT (ty : Ty) (fn : BitVec 4 := 0) : Ctl := { k0 with ty, fn }
def kF (fn : BitVec 4) (sc : Scope := .thread) : Ctl := { k0 with fn, sc }
def ops (d a : Operand) (b : Operand := .none) (c : Operand := .none) (e : Operand := .none) (x : BitVec 10 := 0) : OpsR :=
  { d, a, b, c, e, x }
def V (n : Fin 128) : Operand := .vec n
def S (n : Fin 64) : Operand := .sca n
def M (n : Fin 16) : Operand := .map n
def P (n : Fin 8) : Operand := .pred n
def W (n : Fin 8) : Operand := .walk n
def K (n : Fin 16) : Operand := .int n
def N : Operand := .none

def me : GRef := { ctx := 0, lnum := 1, wg := 0, grp := 0 }
def full (f : Nat → Nat) : VReg := (List.range 64).map fun l => (l, BitVec.ofNat 32 (f l))

/-- The test group in issue on a core: 64 live lanes, V0 to V7 full, V8 on the low 32 lanes, M0 the low 16 lanes, M1 the lanes above. -/
def at_ (core : Nat) (f : Group → Group) (t : State → State) : State :=
  let s := State.reset.placeWord 0
  let g0 (g : Group) : Group := { g with
    v := (List.range 8).foldl (fun v n => v.setIfInBounds n (full fun l => l + 64 * n)) (g.v.setIfInBounds 8 (full id |>.take 32))
    m := (g.m.setIfInBounds 0 0xFFFF).setIfInBounds 1 0xFFFFFFFFFFFF0000 }
  t { s with cur := some me, moves := [], wgs := s.wgs.map fun w => { w with core, groups := w.groups.map fun g => f (g0 g) } }

/-- Every word of a list is well formed and issues. -/
def issues (s : State) (is : List Instr) : Bool := is.all fun i => i.wf && (s.issuing i (ownMaps i) (match i with | .pull .. => true | _ => false)).isSome

/-- The word issues, and what issues meets a premise. -/
def issuesWith (s : State) (i : Instr) (p : Issuing → Bool) : Bool :=
  i.wf && match s.issuing i (ownMaps i) (match i with | .pull .. => true | _ => false) with
  | some x => p x
  | none => false

def up : State := at_ 64 id id

theorem test_integer_forms_issue : issues up [.iadd (kT .i32) (ops (V 9) (V 1) (V 2)), .isub (kT .i8x4) (ops (V 9) (V 1) (K 3)),
    .imul (kT .i64) (ops (V 10) (V 2) (V 4)), .imulh (kT .ui32) (ops (S 9) (S 1) (S 2)), .imad (kT .i32) (ops (V 9) (V 1) (V 2) (V 3)),
    .idiv (kT .i32) (ops (V 9) (V 1) (V 0)), .irem (kT .i64) (ops (S 10) (S 2) (S 4)), .imin (kT .i16) (ops (V 9) (V 8) (V 2)),
    .imax (kT .ui8) (ops (V 127) (V 1) (V 2)), .iabs (kT .i32) (ops (V 9) (V 1)), .ineg (kT .ui32) (ops (S 63) (S 1)),
    .iadds (kT .i32 1) (ops (V 9) (V 1) (V 2)), .lea (kT .i32) (ops (V 10) (S 2) (V 2) N N 31), .mov (kT .i64) (ops (V 126) (V 2)),
    .movi (kT .b32) { d := V 9, a := N, imm := 0xFFFFFFFF, z := 0 }] = true := by decide +kernel

theorem test_bit_forms_issue : issues up [.and (kT .b32) (ops (V 9) (V 1) (V 2)), .or (kT .i64) (ops (V 10) (V 2) (V 4)),
    .xor (kT .b32) (ops (V 1) (V 1) (V 1)), .andn (kT .b32) (ops (S 9) (S 1) (K 1)), .tril (kT .b32) (ops (V 9) (V 1) (V 2) (V 3) N 255),
    .shl (kT .b32) (ops (V 9) (V 1) (K 15)), .shr (kT .i64) (ops (V 10) (V 2) (V 4)), .sar (kT .b32) (ops (V 9) (V 1) (S 2)),
    .fshl (kT .b32 1) (ops (V 9) (V 1) (V 2) (V 3)), .fshr (kT .b32) (ops (V 9) (V 1) (V 2) (K 0)),
    .bfx (kT .i32) (ops (V 9) (V 1) (K 8) (K 8)), .bfi (kT .b32) (ops (V 9) (V 1) (V 2) (K 0) (K 15)), .popc (kT .b32) (ops (V 9) (V 1)),
    .clz (kT .i64) (ops (V 10) (V 2)), .ctz (kT .b32) (ops (V 9) (V 1)), .brev (kT .b32) (ops (S 9) (S 1)),
    .rank (kT .b32) (ops (V 9) (V 1) (K 15)), .idot4 (kT .i8x4 6) (ops (V 9) (V 1) (V 2) (V 3))] = true := by decide +kernel

theorem test_float_forms_issue : issues up [.fadd (kT .f32) (ops (V 9) (V 1) (V 2) N N 3), .fsub (kT .f16x2) (ops (V 9) (V 1) (V 2)),
    .fmul (kT .bf16) (ops (V 9) (V 1) .fTwo), .ffma (kT .f32) (ops (V 9) (V 1) (V 2) (V 3)), .fmin (kT .f16) (ops (V 9) (V 1) (V 2)),
    .fmax (kT .f32) (ops (S 9) (S 1) .fOne), .frcp (kT .f32) (ops (V 9) (V 1)), .frsq (kT .f32) (ops (V 9) (V 1)),
    .fsqrt (kT .f32) (ops (V 9) (V 1) N N N 2), .fdiv (kT .f32) (ops (V 9) (V 1) (V 2) N N 1), .fexp2 (kT .f32) (ops (V 9) (V 1)),
    .flog2 (kT .f32) (ops (V 9) (V 1)), .fsin (kT .f32) (ops (V 9) (V 1)), .fcos (kT .f32) (ops (S 9) .fHalf),
    .ftanh (kT .f32) (ops (V 9) (V 1)), .frnd (kT .f16) (ops (V 9) (V 1) N N N 3), .fscale (kT .f32) (ops (V 9) (V 1) (K 5)),
    .fclass (kT .f32) (ops (V 9) (V 1)), .fdot2 (kT .bf16x2) (ops (V 9) (V 1) (V 2) (V 3))] = true := by decide +kernel

/-- Both clauses: a source that varies by lane, and none. -/
theorem test_compare_forms_issue : issues up [.icmp (kT .i32 5) (ops (M 2) (V 1) (V 2) N (M 3)), .icmp (kT .i64) (ops (P 0) (S 2) (S 4)),
    .fcmp (kT .f32 6) (ops (M 13) (V 1) .fOne), .fcmp (kT .f16) (ops N (S 1) (S 2) N (P 6)),
    .fclassM (kT .f32 1) (ops (M 2) (V 1) (S 2)), .fclassM (kT .bf16 1) (ops (P 0) (S 1) (K 15) N (P 1))] = true := by decide +kernel

/-- CVT: a scalar conversion, a stochastic one, packs of two and four, an unpack; DECB with one and two side words; CVTB to each side. -/
theorem test_conversion_forms_issue : issues up [.cvt (kT .i32) (ops (V 9) (V 1) N N N (7 * 4)),
    .cvt (kT .bf16 2) (ops (V 9) (V 1) N N N (7 * 4)), .cvt (kT .f16x2) (ops (V 9) (V 1) (V 2) N N (7 * 4 + 3)),
    .cvt (kT .e4m3x4 3) (ops (V 9) (V 1) (V 2) (V 3) (V 4) (7 * 4)), .cvt (kT .f32) (ops (V 9) (V 1) N N N (3 * 64 + 13 * 4)),
    .decb (kT .f32 0) (ops (V 9) (V 1) (S 2)), .decb (kT .f32 5) (ops (V 9) (V 1) (S 2)), .cvtb (kT .f32 8) (ops (V 9) (V 1) N N (S 2)),
    .cvtb (kT .f32 5) (ops (V 9) (V 1) N N (S 62) 3)] = true := by decide +kernel

theorem test_map_forms_issue : issues up [.mand k0 (ops (M 2) (M 0) (M 1)), .mor { k0 with mc := true } (ops (M 13) (M 14) (M 15)),
    .mandn k0 (ops (M 2) (M 0) (M 1)), .mxor k0 (ops (M 2) (M 0) (M 1)), .mnot k0 (ops (M 2) (M 0)), .mmov k0 (ops (M 2) (M 0)),
    .mof k0 (ops (M 2) (V 8)), .msetPair k0 (ops (M 2) (S 62)), .msetFirst (kF 1) (ops (M 2) (K 15)), .mpop k0 (ops (S 9) (M 0)),
    .mfind (kF 1) (ops (S 9) (M 0)), .mget k0 (ops (S 10) (M 0)), .mtst (kF 3) (ops (P 0) (M 0))] = true := by decide +kernel

theorem test_map_registers_issue : issues up [.restrict (kT .b32) (ops (V 9) (V 1) (M 0)), .fill (kT .i64) (ops (V 10) (S 2) (M 0)),
    .fill (kT .b32) (ops (V 9) (K 1))] = true := by decide +kernel
/-- MERGE with MC of maps that do not meet, and without MC of maps that do. -/
theorem test_merge_admits :
    issuesWith (at_ 64 (fun g => { g with v := g.v.setIfInBounds 9 ((full id).drop 32) }) id)
      (.merge { kT .b32 with mc := true } (ops (V 10) (V 8) (V 9))) (fun x =>
        x.e.g.omap (rd [.v] .b32) (V 8) &&& x.e.g.omap (rd [.v] .b32) (V 9) == 0) = true ∧
    issues up [.merge (kT .b32) (ops (V 9) (V 1) (V 2))] = true := by decide +kernel
/-- COMPACT with nothing in flight, a dead lane among the live ones. -/
theorem test_compact_issues : issuesWith (at_ 64 (fun g => { g with live := 0xFFFFFFFFFFFFFFFE, dead := 1 }) id) (.compact k0 (ops N N))
    (fun x => x.e.g.pend == [] && (List.range 8).all fun k => !x.e.g.tokBusy k) = true := by decide +kernel

/-- PULL by position without and with MC, every candidate lane then having a source; BCAST likewise. -/
theorem test_pull_has_sources :
    issuesWith up (.pull (kT .b32) (ops (V 9) (V 8) (V 0))) (fun _ => true) = true ∧
    issuesWith up (.pull { kT .b32 3 with mc := true } (ops (V 9) (V 1) (K 1))) (fun x =>
      let ma := x.e.g.omap (rd [.v] .b32) (V 1)
      (List.range 64).all fun l => (inMap ma (pullFrom x.e.g 3 l (x.e.val .ui32 (K 1) l))).isSome) = true ∧
    issuesWith up (.bcast { kT .b32 with mc := true } (ops (V 9) (V 8) (K 15))) (fun x =>
      (inMap (x.e.g.omap (rd [.v] .b32) (V 8)) (some (x.e.u (K 15)))).isSome) = true ∧
    issuesWith up (.bcast (kT .i64 8) (ops (V 10) (V 2) (S 1))) (fun _ => true) = true := by decide +kernel
theorem test_lane_forms_issue : issues up [.push (kT .b32) (ops (V 9) (V 1) (V 0)), .push (kT .i64 8) (ops (V 10) (V 2) (V 0)),
    .lanemapPos k0 (ops (V 9) (V 0)), .lanemapTid (kF 1) (ops (V 9) (V 0)), .vote (kT .b32) (ops (P 0) (V 1)),
    .vote (kT .b32 1) (ops (P 0) (V 1)), .vote (kT .i64 2) (ops (P 0) (V 2)), .vote (kT .b32 3) (ops (M 2) (V 1)),
    .vote (kT .b32 3) (ops (S 2) (V 1)), .reduce (kT .f32) (ops (S 9) (V 1) N N (P 0) 3), .reduce (kT .i64 5) (ops (S 10) (V 2)),
    .scan (kT .i32) (ops (V 9) (V 1) N N (S 9)), .scan (kT .b32 11) (ops (V 9) (V 1))] = true := by decide +kernel

/-- PRUNE on lanes, PRUNE on none (both sources' maps do not meet), ISECT. -/
theorem test_sparse_forms_issue :
    issuesWith up (.prune (kT .bf16 1) (ops (V 9) (V 1) (V 2) N (S 60))) (fun x => x.e.m != 0) = true ∧
    issuesWith (at_ 64 (fun g => { g with v := g.v.setIfInBounds 9 [] }) id) (.prune (kT .bf16) (ops (V 10) (V 9) (V 1) N (S 62)))
      (fun x => x.e.m == 0) = true ∧
    issues up [.isect k0 (ops (V 9) (V 1) (V 2) N (M 2))] = true := by decide +kernel

/-! ### Control flow and exceptions -/

/-- Listed bytes from an address on. -/
def cells (a : Nat) (bs : List Byte) : Mem := (bs.zipIdx.filter fun p => p.1 != 0).map fun p => (a + p.2, p.1)

/-- Page 0 of 1 GiB is translated for a cluster; DRAM holds the line of the test word at 0x1000 and, at 0x2000, a trap table of entries 0x1000. -/
def mapped (cl : Nat) (s : State) : State :=
  let s : State := { s with tlb := [{ ctx := 0, page := 0, size := 2 ^ 30, pa := 0, w := true, x := true, d := true, mt := 0, peer := none
                                      holder := cl }] }
  { s with dram := cells 0x1000 (lineWith 0) ++ cells 0x2058 (leBytes 8 0x1000 ++ leBytes 8 0x1000) ++
                   cells 0x2198 (leBytes 8 0x1000 ++ leBytes 8 0x1000 ++ leBytes 8 0x1000) }

/-- The target passes the checks of a transfer. -/
def lands (x : Issuing) (t : Nat) (tgt : Bool) : Bool :=
  match x.t.checkTarget x.r x.w x.g (BitVec.ofNat 64 t) tgt with
  | .ok _ => true
  | _ => false

def flow (f : Group → Group) : State := at_ 64 (fun g => f ((g.setS 2 0x1000).setS 4 8)) (mapped 16)
def offs (n : BitVec 32) (a : Operand := .none) : OpsI := { d := N, a, imm := n, z := 0 }

theorem test_branches_land :
    issuesWith (flow id) (.bra k0 (offs 4)) (lands · (0x1000 + 48) true) = true ∧
    issuesWith (flow id) (.brxAbs k0 (ops N (S 2))) (lands · 0x1000 true) = true ∧
    issuesWith (flow id) (.brxRel (kF 1) (ops N (K 0))) (lands · 0x1000 true) = true ∧
    issuesWith (flow id) (.call k0 { d := S 6, a := N, imm := 1, z := 0 }) (lands · 0x100C true) = true ∧
    issuesWith (flow id) (.ret k0 (ops N (S 2))) (lands · 0x1000 false) = true := by decide +kernel
/-- BRM, BRW and BRDEC, taken and not taken. -/
theorem test_conditional_branches_land :
    issuesWith (flow id) (.brm (kF 1) (offs 0 (M 0))) (fun x => x.e.map (M 0) != 0 && lands x 0x1000 true) = true ∧
    issuesWith (flow id) (.brm (kF 0) (offs 0 (V 1))) (fun x => x.e.map (V 1) != 0) = true ∧
    issuesWith (flow fun g => g.setW 0 { g.walker 0 with eod := 8 }) (.brw (kF 3) (ops N (W 0))) (fun x =>
      (x.e.g.walker 0).eod.getLsbD 3 && lands x 0x1000 true) = true ∧
    issuesWith (flow id) (.brw (kF 3) (ops N (W 0))) (fun x => !(x.e.g.walker 0).eod.getLsbD 3) = true ∧
    issuesWith (flow id) (.brdec k0 { d := S 4, a := N, imm := 0, z := 0 }) (fun x => x.e.u (S 4) != 1 && lands x 0x1000 true) = true ∧
    issuesWith (flow (·.setS 4 1)) (.brdec k0 { d := S 4, a := N, imm := 0, z := 0 }) (fun x => x.e.u (S 4) == 1) = true := by
  decide +kernel
theorem test_flow_forms_issue : issues up [.nop k0 (ops N N), .yield k0 (ops N N)] = true ∧
    issuesWith (flow fun g => { g with handler := true, tpc := 0x1000 }) (.rft k0 (ops N N)) (lands · 0x1000 false) = true ∧
    issuesWith (at_ 64 id fun s => { s with launches := s.launches.map fun l => { l with macros := [[0, 0]] } }) (.mcall k0 (ops N N))
      (fun x => (x.t.macrosOf 0 1).getD 0 [] != []) = true ∧
    issuesWith up (.exit k0 (ops N (M 0))) (fun x => x.e.g.live &&& ~~~(x.e.map (M 0)) != 0) = true ∧
    issuesWith up (.exit k0 (ops N N)) (fun x => x.e.g.live &&& ~~~(x.e.map N) == 0) = true := by decide +kernel

/-- A range can be read, as a Bool. -/
def readable? (s : State) (me : Option Nat) (l : Loc) (n : Nat) : Bool := !s.heldOff me l n && s.badAll l n == [] && !s.injHits [(l, n)]

/-- What `TakesTrapAt` asks of a state: outside a handler, a trap table, an entry of it that translates, is read and is not 0. -/
def trapReady (s0 : State) (r : GRef) (w : Workgroup) (g : Group) (k : Cause) : Bool :=
  let s1 := (s0.forget (.group r)).modGroup r fun g => g.faulted (.fault { cause := k })
  !g.handler && g.trapb.getLsbD 0 &&
  match s1.resolve r.ctx w.core [] (bits g.trapb.toNat 47 11 * 2048 + 8 * k.code) 8 .read with
  | .ok [(.mem l _, 8)] => readable? s1 (some (columnOf w.core)) l 8 && leNat (s1.colRead (columnOf w.core) l 8) == 0x1000
  | _ => false

def trapping : State := flow fun g => { g with trapb := 0x2001 }

theorem test_traps_are_taken :
    issuesWith trapping (.trap k0 (offs 65535)) (fun x => trapReady (trapping.metBy x.t) x.r x.w x.g .softwareTrap) = true ∧
    issuesWith trapping (.bkpt k0 (ops N N N N N 1023)) (fun x => trapReady (trapping.metBy x.t) x.r x.w x.g .breakpoint) = true := by decide +kernel
/-- TRAP 7 enters the handler at 0x1000: TPC holds the next instruction, TCAUSE 0x0B and no queue, TAUX 7 (12 R274, R276). -/
theorem test_trap_enters_handler : (match exec (.trap k0 (offs 7)) trapping with
    | .next t => ((t.group? me).map fun p => (p.2.handler, p.2.pc, p.2.tpc, p.2.tcause, p.2.taux)) ==
        some (true, 0x1000, 0x100C, 0x00FF000B, 7)
    | _ => false) = true := by decide +kernel

/-! ### Memory -/

/-- A record of f32 elements (03 Table 3.7): 2 dimensions of 16 by 4, rows 64 bytes apart, a tile of 16 by 4, sealed. -/
def rec0 : Rec :=
  let r : Nat := 1 + 6 * 2 ^ 8 + 2 * 2 ^ 16 + 16 * 2 ^ 32 + 4 * 2 ^ 64 + 2 ^ 96 + 2 ^ 128 + 64 * 2 ^ 160 + 16 * 2 ^ 288 + 4 * 2 ^ 304 +
    2 ^ 320 + 2 ^ 336
  BitVec.ofNat 512 (r + crc32c (leBytes 60 r) * 2 ^ 480)
theorem test_record_is_formed : recWellFormed rec0 = true ∧ recSealed rec0 = true ∧ recBytes rec0 = 256 := by decide +kernel

def accessOk (r : AccRes) (p : List (Nat × List Piece) → Bool) : Bool := match r with | .ok as => p as | _ => false

/-- Page 0 is translated, identifier 1 is bound, S2 holds 0x4000, S4 the last byte of V's reach, scratch and stores are empty. -/
def memory (f : Group → Group) (t : State → State) : State :=
  at_ 64 (fun g => f ((g.setS 2 0x4000).setS 4 0)) fun s =>
    t (mapped 16 (s.setCtx 0 { s.ctx 0 with idents := [(1, rec0)] }))
/-- The schedule takes the steps of the next instruction one by one, or not. -/
def bySteps (b : Bool) (s : State) : State := { s with split := b }
def ldst (fn : BitVec 4) (d a b : Operand) (imm : BitVec 24) : Ctl × OpsM := (kT .b32 fn, { d, a, b, imm, z := 0 })

/-- LD and ST per lane in G and, at the end of the scratch, in S: lanes 0 to 63 reach bytes 3840 to 4095; taken at issue, and lane by lane. -/
theorem test_lane_access_ok :
    ([false, true].all fun b =>
      (let (c, o) := ldst 0 (V 9) (.ident .thread) (S 2) 0x400000
       issuesWith (memory id (bySteps b)) (.ld c o) fun x => x.t.split == b &&
        accessOk (x.t.laneAccess x.e.r x.e.w x.e.g 0 .read ((lanesOf x.e.m).map fun l => (l, x.e.memAddr c o l, memBytes c))) fun as =>
          !as.isEmpty && !x.t.anyHeld x.e.w.core as) &&
      (let (c, o) := ldst 1 (V 1) (.ident .lane) N 0x400F00
       issuesWith (memory id (bySteps b)) (.st c o) fun x => x.t.split == b &&
        accessOk (x.t.laneAccess x.e.r x.e.w x.e.g 1 .write ((lanesOf x.e.m).map fun l => (l, x.e.memAddr c o l, memBytes c))) fun as =>
          !x.t.anyHeld x.e.w.core as && x.t.roomFor 0 as && (as.getLast?.map (·.1)) == some 63)) = true := by decide +kernel
/-- LD of one access to a scalar block, its last four registers. -/
theorem test_uniform_access_ok :
    ([false, true].all fun b =>
      let (c, o) := ldst 8 (S 60) N (S 2) 0
      issuesWith (memory id (bySteps b)) (.ld c o) fun x => x.t.split == b &&
        accessOk (x.t.uniAccess x.e.r x.e.w x.e.g 0 .read (x.e.memAddr c o 0) 16) fun as => !as.isEmpty && !x.t.anyHeld x.e.w.core as) = true := by
  decide +kernel
theorem test_fragment_access_ok :
    ([false, true].all fun b =>
      (let o := ops (V 9) (K 1) (K 0) (K 0) N 1
       issuesWith (memory id (bySteps b)) (.ldm (kF 0) o) fun x => x.t.split == b && x.t.ident 64 0 1 == .ok rec0 && !isBlock rec0 &&
        decide (8 ≤ recBits rec0) && swzOk rec0 0 &&
        accessOk (x.e.fragAccess 1 0 (x.e.fragment (kF 0) o rec0 fun _ => x.e.g.live)) fun as => !x.t.anyHeld 64 as && !as.isEmpty) &&
      (let o := ops (V 1) (K 1) (K 0) (K 0) N 0
       issuesWith (memory id (bySteps b)) (.stm (kF 3) o) fun x => x.t.split == b && x.t.ident 64 0 1 == .ok rec0 && !isBlock rec0 &&
        accessOk (x.e.fragAccess 2 0 (x.e.fragment (kF 3) o rec0 fun k => x.e.g.vm (1 + k))) fun as =>
          !x.t.anyHeld 64 as && !as.isEmpty)) = true := by decide +kernel
/-- WBIND from a block and from an identifier, WSTAT, TBIND of the record in DRAM at 0x4000, TINFO bound and, field 12, unbound. -/
theorem test_walker_and_record_forms :
    issues (memory id id) [.wbind (kF 15) (ops N (S 2) (S 10)), .wstat (kF 4) (ops (S 9) (W 7)), .wstat (kF 3) (ops (S 9) (W 0))] = true ∧
    issuesWith (memory id id) (.wbind (kF 7) (ops N (K 1) (S 2))) (fun x =>
      x.t.ident 64 0 (x.e.u (K 1)) == .ok rec0 && !isBlock rec0 && 8 ≤ recBits rec0) = true ∧
    ([false, true].all fun b => issuesWith (memory id fun s => bySteps b { s with dram := s.dram ++ cells 0x4000 (leBytes 64 rec0.toNat) })
      (.tbind k0 (ops N (S 6) (S 2))) fun x => x.e.u (S 6) ≤ 255 && x.e.pair (S 2) % 64 == 0 && x.t.ident 64 0 (x.e.u (S 6)) != .held &&
        accessOk (x.t.uniAccess x.e.r x.e.w x.e.g 0 .read 0x4000 64) fun as => !x.t.anyHeld 64 as &&
          (match x.t.uniRead x.e .read (as.flatMap (·.2)) with
            | .ok got => BitVec.ofNat 512 (leNat got.1) == rec0 && got.2.split == b | .error _ => false)) = true ∧
    issuesWith (memory id id) (.tinfo (kF 13) (ops (S 10) (K 1))) (fun x => x.t.ident 64 0 (x.e.u (K 1)) == .ok rec0) = true ∧
    issuesWith (memory id id) (.tinfo (kF 12) (ops (S 9) (K 2))) (fun x => x.t.ident 64 0 (x.e.u (K 2)) == .unbound) = true := by
  decide +kernel
theorem test_cache_line_forms :
    ([(Instr.pref (kF 0) (ops N (S 2) (V 0)), ops N (S 2) (V 0)), (.pinOn (kF 0) (ops N (S 2) (V 0)), ops N (S 2) (V 0)),
      (.pinOff (kF 1) (ops N (S 2) (K 15)), ops N (S 2) (K 15))].all fun i =>
      issuesWith (memory id id) i.1 fun x => match x.e.linesOf i.2 x.t with
        | .ok ts => ts.any fun l => match l with | some (.mem ..) => true | _ => false
        | _ => false) = true := by decide +kernel
/-- Each access in one piece of this device. -/
def onePiece? (n : Nat) (as : List (Nat × List Piece)) : Bool := as.all fun a => match a.2 with | [(.mem .., k)] => k == n | _ => false
/-- ATOM and ATOMC in the scratch, which perform in the column, and in DRAM at device scope, which do not; RED to both; at issue, and one by one. -/
theorem test_atomic_access_ok :
    ([false, true].all fun b =>
      ([(Instr.atom (kT .i32) (ops (V 9) N (V 1) (V 2) N 1), ops (V 9) N (V 1) (V 2) N 1, false),
        (.atomc (kT .b32) (ops (V 9) N (V 1) (V 2) (V 3) 1), ops (V 9) N (V 1) (V 2) (V 3) 1, false),
        (.atomc { kT .b32 with sc := .device } (ops (V 9) (S 2) (V 1) (V 2) (V 3)), ops (V 9) (S 2) (V 1) (V 2) (V 3), true),
        (.atom { kT .i32 with sc := .device } (ops (V 9) (S 2) (V 1) (V 2)), ops (V 9) (S 2) (V 1) (V 2), true)].all fun p =>
        issuesWith (memory (fun g => { g with v := g.v.setIfInBounds 1 (full (4 * ·)) }) (bySteps b)) p.1 fun x => x.t.split == b &&
          accessOk (x.e.atomAccess x.t x.e.c p.2.1 (lanesOf x.e.m) false) fun as => !as.isEmpty && onePiece? 4 as &&
            !x.t.anyHeld 64 as && x.t.roomFor 0 as && x.t.roomFor 0 (peersIn as) && !x.t.anyHalfway x.e.r 64 x.e.c.sc x.e.c.ty as &&
            (as.any fun a => a.2.any fun q => isFar 0 (nearScope x.e.c.sc) q.1) == p.2.2) &&
      [kT .b32 5, { kT .b32 5 with sc := .device }].all fun c =>
        issuesWith (memory (fun g => { g with v := g.v.setIfInBounds 1 (full (4 * ·)) }) (bySteps b)) (.red c (ops N (S 2) (V 1) (V 2))) fun x =>
          x.t.split == b && accessOk (x.e.atomAccess x.t x.e.c (ops N (S 2) (V 1) (V 2)) (lanesOf x.e.m) false) fun as =>
            let here := as.filter fun a => !(a.2.any fun p => isFar 0 (nearScope c.sc) p.1)
            !as.isEmpty && here.isEmpty == (c.sc == .device) && !x.t.anyHeld 64 here && x.t.roomFor 0 as && !x.t.anyHalfway x.e.r 64 c.sc c.ty here &&
              x.t.recRoom 0 ((x.t.readAll 64 (.unit c.ch) here x.e.met).1.filter fun g => g.2.bad.isSome).length) = true := by decide +kernel
/-- MRD, MWR and MSCALE of the last lines of the accumulator store; MQSTAT. -/
theorem test_accumulator_forms :
    ([false, true].all fun b => [Instr.mrd (kF 2) (ops (V 12) (S 6)), .mwr (kF 0) (ops (V 1) (S 6)), .mscale (kT .f32 5) (ops N (S 6) (V 1))].all fun i =>
      issuesWith (at_ 64 (·.setS 6 0x7FC00) (bySteps b)) i fun x => x.t.split == b &&
        let as := accLines x.e (x.e.u (S 6)) 4 x.e.m
        x.e.u (S 6) % 256 == 0 && x.e.u (S 6) + 1024 ≤ 0x80000 && !x.t.anyHeld 64 as &&
        (x.t.readAll 64 .none as x.e.met).1.all (·.2.bad.isNone) && (x.t.group? me).isSome) = true ∧
    issues up [.mqstatFlags k0 (ops (S 9) N), .mqstatClr (kF 1) (ops (S 9) N), .mqstatDepth (kF 2) (ops (S 9) N)] = true := by
  decide +kernel

/-! ### Synchronisation objects and FIFOs -/

/-- Scratch of the test group's cluster holds bytes from offset 0; S2 and S4 pairs of G addresses, S8 an S offset. -/
def objects (bs : List Byte) (t : State → State) : State :=
  memory (fun g => (g.setS 8 0).setS 9 0) fun s => t { s with sram := cells (16 * 2 ^ 23) bs }
def kW (fn : BitVec 4 := 0) : Ctl := kF fn .wg
def exceptOk {α : Type} (r : Except Act α) (p : α → Bool) : Bool := match r with | .ok a => p a | .error _ => false

/-- BARINIT of a barrier in S at group scope wg, and of the greatest count at device scope in G. -/
theorem test_barinit_admits :
    issuesWith (objects [] id) (.barinit (kW) (ops N (S 8) (K 4) N N 1)) (fun x =>
      exceptOk (x.e.objAt x.t 1 (x.e.objAddr (S 8) 1) 16 .write) fun ps => (ps.all fun p => storageOk 64 2 p.1) &&
        x.e.u (K 4) ≤ 65535 && x.t.roomFor 0 [(0, ps)]) = true ∧
    issuesWith (memory (·.setS 6 65535) id) (.barinit (kF 0 .device) (ops N (S 2) (S 6))) (fun x =>
      exceptOk (x.e.objAt x.t 0 (x.e.objAddr (S 2) 0) 16 .write) fun ps => (ps.all fun p => storageOk 64 5 p.1) &&
        x.e.u (S 6) ≤ 65535 && x.t.roomFor 0 [(0, ps)]) = true := by decide +kernel
/-- A barrier of expected count 2 at phase 0: ARRIVE and ARRIVE.bytes, both waits with a phase that differs and one that does not, BARQ. -/
theorem test_barrier_forms_admit :
    let s := objects (leBytes 16 (barNew 2 false 2)) id
    (let o := ops (S 10) (S 8) N N N 1
     issuesWith s (.arrive kW o) fun x => exceptOk (x.e.barAt x.t kW 1 0 .write (.arrive 0)) fun (b, ps, _) =>
      x.t.objDrained 64 ps && (barArrive b 0).isSome) = true ∧
    (let o := ops N (S 8) (K 15) N N 1
     issuesWith s (.arriveBytes (kW 1) o) fun x => exceptOk (x.e.barAt x.t (kW 1) 1 0 .write (.arrive (x.e.u (K 15)))) fun (b, ps, _) =>
      x.t.objDrained 64 ps && (barArrive b (x.e.u (K 15))).isSome) = true ∧
    ([(Instr.waitph kW (ops N (S 8) (K 0) N N 1), 0, true), (.waitph kW (ops N (S 8) (K 1) N N 1), 1, false),
      (.waitphSwap (kW 1) (ops N (S 8) (K 0) N N 1), 0, true), (.waitphSwap (kW 1) (ops N (S 8) .minusOne N N 1), 0xFFFFFFFF, false)].all
      fun p => issuesWith s p.1 fun x => exceptOk (x.e.barAt x.t x.e.c 1 0 .read .read (some (x.e.c.fn == 1))) fun (b, _, _) =>
        (barPhase b == p.2.1) == p.2.2) = true ∧
    issuesWith s (.barq (kF 3) (ops (S 10) (S 8) N N N 1)) (fun x => exceptOk (x.e.objAt x.t 1 0 16 .read) fun ps => x.t.uniAsk x.e .read ps == []) = true := by
  decide +kernel
/-- RINIT of one slot of one block, the least the rule allows, and of two; a ring whose head slot's phase has or has not left; RREL. -/
theorem test_ring_forms_admit :
    ([(0x00010001, 1, 1), (0x01000002, 2, 256)].all fun p =>
      issuesWith (objects [] fun s => (bySteps (p.2.1 == 2) s).modGroup me fun g => ((g.setS 10 0).setS 11 256).setS 12 (BitVec.ofNat 32 p.1))
        (.rinit kW (ops N (S 10) (S 11) (S 11) (S 12) 1)) fun x =>
          x.e.u (S 12) % 2 ^ 11 == p.2.1 && x.e.u (S 12) / 2 ^ 16 % 2 ^ 9 == p.2.2 &&
          bits (x.e.u (S 12)) 15 11 == 0 && bits (x.e.u (S 12)) 31 25 == 0 &&
          exceptOk (x.e.objAt x.t 1 0 32 .write) fun ps =>
            accessOk (x.t.uniAccess x.e.r x.e.w x.e.g 1 .write 256 (16 * p.2.1)) fun as =>
              ((ps ++ as.flatMap (·.2)).all fun q => storageOk 64 2 q.1) && !x.t.anyHeld 64 as && x.t.roomFor 0 ((0, ps) :: as)) = true ∧
    ([(0, true), (1, false)].all fun p =>
      issuesWith (objects (leBytes 32 (512 + 256 * 2 ^ 64 + 256 * 2 ^ 128 + 2 ^ 160 + 1 * 2 ^ 192) ++ List.replicate 224 0 ++
          leBytes 16 (barNew 2 true 0 + p.1)) id)
        (.rawait kW (ops (S 10) (S 8) N N N 1)) fun x => exceptOk (x.e.ringAt x.t kW 1 0 .read (some false)) fun ((r, _), (b, _), _) =>
          (barPhase b == ringR r / ringN r) == p.2) = true ∧
    issuesWith (objects (leBytes 32 (512 + 256 * 2 ^ 64 + 256 * 2 ^ 128 + 2 ^ 160 + 1 * 2 ^ 192) ++ List.replicate 224 0 ++
        leBytes 16 (barNew 2 true 0)) id)
      (.rrel kW (ops N (S 8) N N N 1)) (fun x => exceptOk (x.e.ringAt x.t kW 1 0 .write) fun ((r, ps), _, _) =>
          x.t.objDrained 64 ps && ringR r != ringW r) = true := by decide +kernel
/-- SEMINC up to 2^31 - 1, SEMDEC down to 0, SFENCE once its epoch is confirmed. -/
theorem test_semaphore_and_fence_forms_admit :
    ([(Instr.seminc kW (ops (S 10) (S 8) (K 1) N N 1), 2 ^ 31 - 2, true, 1), (.semdec kW (ops N (S 8) (K 15) N N 1), 15, false, 15)].all fun p =>
      issuesWith (objects (leBytes 8 (2 * 2 ^ 61 + p.2.1)) id) p.1 fun x =>
        exceptOk (x.e.objAt x.t 1 0 8 .write) fun ps => (ps.all fun q => storageOk 64 2 q.1) && x.t.objDrained 64 ps &&
          x.t.uniAsk x.e (.sem p.2.2.1 p.2.2.2) ps == [] &&
          (let v := (x.t.objRead x.e (.sem p.2.2.1 p.2.2.2) ps).1; semScope v == 2 && semCount v == p.2.1)) = true ∧
    issuesWith (at_ 64 id fun s => s.setCol 0 { s.col 0 with epoch := 1 }) (.sfence k0 (ops N N)) (fun x =>
      !x.t.peerOut me && (x.t.col 0).confirmed x.e.g.lastEpoch) = true := by decide +kernel

/-- Page 0 lies at endpoint 3, which has answered a question about an object at 0x4000; RINIT taken step by step. -/
def atThree (op : ObjOp) (n : Nat) (bs : List Byte) : State :=
  memory (fun g => { g with got := [{ ask := { fep := 3, pctx := 5, pa := 0x4000, len := n, op }, bytes := some bs }] }) fun s =>
    { s with tlb := s.tlb.map fun x => { x with peer := some (3, 5) } }
theorem test_peer_objects_admit :
    issuesWith (atThree (.arrive 0) 16 (leBytes 16 (barNew 6 false 2))) (.arrive (kF 0 .system) (ops (S 10) (S 2))) (fun x =>
      exceptOk (x.e.barAt x.t x.e.c 0 0x4000 .write (.arrive 0)) fun (b, ps, _) => atPeer ps && x.t.objDrained 64 ps && (barArrive b 0).isSome) = true ∧
    issuesWith (atThree .read 16 (leBytes 16 (barNew 6 false 2 + 1))) (.waitph (kF 0 .system) (ops N (S 2) (K 0))) (fun x =>
      exceptOk (x.e.barAt x.t x.e.c 0 0x4000 .read .read (some false)) fun (b, ps, _) => atPeer ps && barPhase b == 1) = true ∧
    ([true, false].all fun failed =>
      let s := if failed then { atThree .read 16 [] with failedPeers := [3] } else (atThree .read 16 []).modGroup me fun g => { g with got := [] }
      issuesWith s (.waitph (kF 0 .system) (ops N (S 2) (K 0))) fun x =>
        exceptOk (x.e.objAt x.t 0 0x4000 16 .read) fun ps => (ps.all fun q => storageOk 64 6 q.1) && x.t.objAsks x.e .read ps (some false) != [] &&
          s.lbFits 0 []) = true ∧
    (let ring := leBytes 32 (0x4200 + 0x4100 * 2 ^ 64 + 256 * 2 ^ 128 + 2 ^ 160 + 1 * 2 ^ 192)
     let got (op : ObjOp) (pa n : Nat) (bs : List Byte) : PeerGot := { ask := { fep := 3, pctx := 5, pa, len := n, op }, bytes := some bs }
     issuesWith ((atThree .read 32 ring).modGroup me fun g => { g with
         got := g.got ++ [got .release 0x4000 32 ring, got .read 0x4100 16 (leBytes 16 (barNew 6 true 0))] })
       (.rrel (kF 0 .system) (ops N (S 2))) fun x => exceptOk (x.e.ringAt x.t x.e.c 0 0x4000 .write) fun ((_, ps), _, t) =>
         atPeer ps && t.uniAsk x.e .release ps == [] && x.t.objDrained 64 ps && ringR (t.objRead x.e .release ps).1 != ringW (t.objRead x.e .release ps).1) = true ∧
    issuesWith (atThree (.sem true 1) 8 (leBytes 8 (6 * 2 ^ 61))) (.seminc (kF 0 .system) (ops (S 10) (S 2) (K 1))) (fun x =>
      exceptOk (x.e.objAt x.t 0 0x4000 8 .write) fun ps => atPeer ps && (ps.all fun q => storageOk 64 6 q.1) &&
        x.t.uniAsk x.e (.sem true 1) ps == [] && semCount (x.t.objRead x.e (.sem true 1) ps).1 == 0) = true := by decide +kernel

/-- Pushes into a FIFO with room for one and into a full one, pops of one entry and of none, counts that differ and that do not. -/
theorem test_fifo_forms_admit :
    ([(15, true), (16, false)].all fun p =>
      issuesWith (at_ 64 id fun s => s.setVfOut 64 { pushed := BitVec.ofNat 32 p.1, popped := 0 }) (.vpush k0 (ops N (V 1) N N (P 0)))
        fun x => decide (((x.t.vfOut 64).pushed - (x.t.vfOut 64).popped).toNat < 16) == p.2) = true ∧
    ([([], 0), ([(full id, 0)], 1)].all fun p =>
      issuesWith (at_ 64 id fun s => s.setVfIn 64 { entries := p.1, pushed := p.2 }) (.vpop k0 (ops (V 9) N N N (P 0)))
        fun x => (x.t.vfIn 64).entries == p.1) = true ∧
    issues up [.vfree (kF 3) (ops (S 9) N)] = true ∧
    issuesWith up (.waitphVin (kF 2) (ops N N (K 0))) (fun x => (x.t.vfIn 64).pushed == 0) = true ∧
    issuesWith up (.waitphVin (kF 2) (ops N N (K 1))) (fun x => (x.t.vfIn 64).pushed != 1) = true ∧
    issuesWith up (.waitphVout (kF 3) (ops N N (K 0))) (fun x => (x.t.vfOut 64).popped == 0) = true := by decide +kernel
def banks (n pushed : Nat) (entries : List (VReg × LaneMap)) : State :=
  at_ 64 id fun s => (s.setCluster 16 { s.cluster 16 with
    fifos := [{ ctx := 0, lnum := 1, k := n, bank := 0, q := { entries, pushed := BitVec.ofNat 32 pushed, popped := 0 } }] }).modWg me
      fun w => { w with desc := { w.desc with nfifo := 4 } }
theorem test_bank_fifo_forms_admit :
    ([(479, true), (480, false)].all fun p => issuesWith (banks 3 p.1 []) (.fpush (kF 3) (ops N (V 1) N N N)) fun x =>
      exceptOk (x.e.bankFifo x.t 3) fun f => decide ((f.q.pushed - f.q.popped).toNat < 480) == p.2) = true ∧
    ([[], [(full id, 0)]].all fun p => issuesWith (banks 0 p.length p) (.fpop (kF 0) (ops (V 9) N)) fun x =>
      exceptOk (x.e.bankFifo x.t 0) fun f => f.q.entries == p) = true ∧
    ([4, 7, 8, 11].all fun n => issuesWith (banks (n % 4) 0 []) (.vfree (kF (BitVec.ofNat 4 n)) (ops (S 9) N)) fun x =>
      exceptOk (x.e.bankFifo x.t (n % 4)) fun _ => true) = true ∧
    ([(7, 5, false), (8, 0, true)].all fun p => issuesWith (banks (p.1 % 4) 0 []) (.waitphBankFifo (kF (BitVec.ofNat 4 p.1))
        (ops N N (K (Fin.ofNat 16 p.2.1)))) fun x =>
      exceptOk (x.e.bankFifo x.t (p.1 % 4)) fun f => ((if p.1 < 8 then f.q.pushed else f.q.popped).toNat == p.2.1) == p.2.2) = true ∧
    issues up [.bankmodeCmin k0 (ops N (K 15)), .bankmodeRelease (kF 1) (ops N N)] = true := by decide +kernel

/-! ### Engine commands -/

/-- A sealed record of a format, with dimensions and a tile of d0 by d1 (03 Table 3.7). -/
def recOf (fmt d0 d1 stride : Nat) : Rec :=
  let r : Nat := 1 + fmt * 2 ^ 8 + 2 * 2 ^ 16 + d0 * 2 ^ 32 + d1 * 2 ^ 64 + 2 ^ 96 + 2 ^ 128 + stride * 2 ^ 160 + d0 * 2 ^ 288 + d1 * 2 ^ 304 +
    2 ^ 320 + 2 ^ 336
  BitVec.ofNat 512 (r + crc32c (leBytes 60 r) * 2 ^ 480)
/-- Identifiers 1 to 4: a small f32 tile, an f16 A tile of 4 rows of 64, an f16 B panel of 4 columns, a structured A tile of rows of 16. -/
def idents : List (Nat × Rec) := [(1, rec0), (2, recOf 7 64 4 128), (3, recOf 7 64 4 128), (4, recOf 7 16 4 32)]
def engines (f : Group → Group) : State :=
  memory (fun g => f ((g.setS 8 0).setS 9 0)) fun s => s.setCtx 0 { s.ctx 0 with idents }
def room (x : Issuing) (q : Nat) : Bool := decide ((x.t.core x.e.w.core).slots q < queueCap q)

/-- TLD and TST to each local space with no barrier, one in S at its last place, and one in G. -/
theorem test_tile_commands_post :
    ([(Instr.tld (kF 1) (ops N (K 1) (S 2) (S 20) N 0), N, 0), (.tld (kF 2) (ops N (K 1) (S 2) (S 20) (S 6) 7), S 6, 7),
      (.tst (kF 3) (ops N (K 1) (S 2) (S 20) (S 2) 8), S 2, 8), (.tst (kF 1) (ops N (K 1) (S 2) (S 20) (S 6) 4), S 6, 4)].all fun p =>
      issuesWith (engines (·.setS 6 4080)) p.1 fun x => x.t.ident 64 0 (x.e.u (K 1)) == .ok rec0 && originOk rec0 (x.e.origin (S 20)) &&
        x.e.blk (S 20) 4 + localExtent rec0 true ≤ 4096 && swzOk rec0 (x.e.blk (S 20) 4) &&
        x.e.barCheck (x.e.barOf p.2.2 p.2.1) 16 == none && room x (p.2.2.toNat % 4)) = true := by decide +kernel
/-- YCOPY of the whole scratch to G, and of no byte at its end. -/
theorem test_ycopy_posts :
    ([(4096, 0), (0, 4096)].all fun p =>
      issuesWith (engines fun g => (g.setS 6 (BitVec.ofNat 32 p.1)).setS 7 (BitVec.ofNat 32 p.2)) (.ycopy (kF 4) (ops N (S 2) (S 7) (S 6)))
        fun x => x.e.engAddr 1 (S 7) + x.e.u (S 6) ≤ 4096 && x.e.barCheck (x.e.barOf 0 N) 16 == none && room x 0) = true := by decide +kernel
theorem test_gather_commands_post :
    ([(Instr.ygath (kF 1) (ops N (S 20) (K 0)), 4), (.yscat (kF 0) (ops N (S 20) (S 2)), 65536)].all fun p =>
      issuesWith (engines (·.setS 22 (BitVec.ofNat 32 p.2))) p.1 fun x =>
        x.e.blk (S 20) 2 == p.2 && x.e.blk (S 20) 2 % 4 == 0 && (x.e.blk (S 20) 4) % 4 == 0 && x.e.blk (S 20) 6 == 0 &&
        x.e.barCheck (x.e.barOf 0 N) 16 == none && room x 0) = true := by decide +kernel
theorem test_rput_and_yfence_post :
    ([(ops N (K 1) (S 2) (S 20) (S 8) 4), (ops N (K 1) (S 2) (S 20) (S 2) 11)].all fun o =>
      issuesWith (engines id) (.rput k0 o) fun x => x.t.ident 64 0 1 == .ok rec0 && originOk rec0 (x.e.origin (S 20)) &&
        recSwz rec0 == 0 && x.e.barCheck (x.e.barOf o.x o.e) 32 == none && room x (o.x.toNat % 4)) = true ∧
    issuesWith up (.yfence k0 (ops N N N N N (4 * 32 + 31))) (room · 4) = true := by decide +kernel
theorem test_loops_post :
    issuesWith (engines fun g => g.setS 23 2) (.mloop k0 (ops N (K 2) (K 3) (S 20) N 16)) (fun x =>
      (match x.e.loopRecs x.t (ops N (K 2) (K 3)) with | .ok (a, b) => a == recOf 7 64 4 128 && b == recOf 7 64 4 128 | _ => false) &&
      loopCheck x.e (recOf 7 64 4 128) (recOf 7 64 4 128) 64 true 2 0 [0, 0] [0, 0] [] [0, 0] [(0, 512), (0, 256), (0, 512)] == none &&
      (List.range 6).map (x.e.blk (S 20)) == [0, 0, 0, 2, 0, 0] && room x 4) = true ∧
    issuesWith (engines fun g => g.setS 23 1) (.mloops (kF 0) (ops N (K 4) (K 3) (S 20) N 32)) (fun x =>
      (match x.e.loopRecs x.t (ops N (K 4) (K 3)) with | .ok (a, b) => a == recOf 7 16 4 32 && b == recOf 7 64 4 128 | _ => false) &&
      loopCheck x.e (recOf 7 16 4 32) (recOf 7 64 4 128) 16 false 1 0 [0, 0] [0, 0] [(0, 32), (0, 32), (0, 8), (0, 8)] [0, 0]
        [(0, 512), (0, 256), (0, 512), (0, 8), (0, 8), (0, 8), (0, 8)] == none && room x 4) = true := by decide +kernel
/-- MLOOPJ whose tag stands in no queue, and whose tag does. -/
theorem test_joint_loops_post :
    ([false, true].all fun dup =>
      let s := engines fun g => g.setS 23 2
      let w : Entry := { q := 4, cmd := .mloopj 0 0 [0, 0, 0, 0, 0, 0, 0, 0] false, poster := me, scr := (0, 0), iaddr := 0, mstep := 0
                         token := none, bar := none, scope := .thread, seq := 9, epoch := 0, data := [], index := [], lands := [], held := []
                         xf := [], parked := none, failed := none, since := 0, joint := false }
      issuesWith (if dup then s.setQueue { core := 64, q := 4 } [w] else s) (.mloopj k0 (ops N (K 2) (K 3) (S 20))) fun x =>
        (match x.e.loopRecs x.t (ops N (K 2) (K 3)) with | .ok _ => true | _ => false) &&
        (let mine := ends ((2 + 3 - columnOf x.e.w.core % 4) / 4)
         loopCheck x.e (recOf 7 64 4 128) (recOf 7 64 4 128) 64 true 2 0 (mine.flatMap fun _ => [0, 0, 0, 0]) (mine.map fun _ => 0) [] [0, 0, 0]
           [(0, 512), (0, 256), (0, 512)] == none) &&
        ((clusterCores 64).all fun k => decide ((x.t.core k).slots 4 < 16)) && ((x.t.core 64).mx.any fun y => y.tag == some 0) == dup) = true := by
  decide +kernel
/-- MZERO of the whole accumulator store, and of no line at its last one. -/
theorem test_mzero_posts :
    ([(0, 2048), (0x7FF00, 0)].all fun p =>
      issuesWith (at_ 64 (fun g => (g.setS 6 (BitVec.ofNat 32 p.1)).setS 7 (BitVec.ofNat 32 p.2)) id) (.mzero k0 (ops N (S 6) (S 7))) fun x =>
        x.e.u (S 6) + 256 * x.e.u (S 7) ≤ 0x80000 && x.e.u (S 6) < 0x80000 && x.e.u (S 6) % 256 == 0 && room x 4) = true := by decide +kernel

/-! ### System and work forms -/

def handling (f : Group → Group) (t : State → State) : State := memory (fun g => f { g with handler := true }) t

theorem test_register_access_issues :
    issues (handling id id) ([0x10, 0x11, 0x12, 0x20, 0x21, 0x22, 0x23, 0x24, 0x25, 0x30, 0x31, 0x32, 0x33, 0x34, 0x35, 0x40, 0x41, 0x50, 0x51,
      0x52, 0x53].map fun n => .csrr k0 { d := S 10, a := N, imm := BitVec.ofNat 32 n, z := 0 }) = true ∧
    issues (handling id id) ([0x10, 0x12, 0x20, 0x21, 0x22, 0x23, 0x24, 0x25, 0x40].map fun n =>
      .csrw k0 { d := N, a := S 2, imm := BitVec.ofNat 32 n, z := 0 }) = true ∧
    issues (handling id id) [.srseedWrite k0 { d := N, a := S 2, imm := 0x11, z := 0 }, .wdogWrite k0 { d := N, a := S 2, imm := 0x30, z := 0 },
      .injcWrite k0 { d := N, a := K 1, imm := 0x41, z := 0 }, .csrxSet k0 (ops (S 9) (S 2) N N N 0x10),
      .csrxClr (kF 1) (ops N (S 2) N N N 0x11), .csrxSwap (kF 2) (ops (S 9) (S 2) N N N 0x30)] = true ∧
    issues up [.csrxSwap (kF 2) (ops (S 9) (S 2) N N N 0x12), .clockCyc k0 (ops (S 10) N), .clockNs (kF 1) (ops (S 10) N),
      .clockEpoch (kF 2) (ops (S 9) N), .cacheopDropall (kF 1) (ops N N)] = true := by decide +kernel
/-- TLBINV of the last page of the address space and of the most pages; CACHEOP.drop of a range that translates. -/
theorem test_invalidations_issue :
    ([(0xFFFFF000, 0xFFFF, 1), (0, 0, 2 ^ 20)].all fun p =>
      issuesWith (handling (fun g => ((g.setS 6 (BitVec.ofNat 32 p.1)).setS 7 (BitVec.ofNat 32 p.2.1)).setS 8 (BitVec.ofNat 32 p.2.2)) id)
        (.tlbinvRange k0 (ops N (S 6) (S 8))) fun x =>
          let va := x.e.pair (S 6)
          let n := x.e.u (S 8)
          n == p.2.2 && 1 ≤ n && n ≤ 2 ^ 20 && va < 2 ^ 48 && va / 4096 * 4096 + 4096 * n ≤ 2 ^ 48) = true ∧
    issues (handling id id) [.tlbinvAll (kF 1) (ops N N)] = true ∧
    issuesWith (memory (·.setS 8 8192) id) (.cacheopDrop k0 (ops N (S 2) (S 8))) (fun x =>
      (cut4k (x.e.pair (S 2)) (x.e.u (S 8))).all fun p => match x.t.resolve 0 64 x.e.g.xf p.1 p.2 .read with | .miss _ => false | _ => true)
      = true := by decide +kernel
/-- PGREQ of the first and the last upper core in each state of its gate, and with requests disabled. -/
theorem test_gate_requests_issue :
    ([(64, Gate.open, false), (64, .gated, false), (64, .waking 9, false), (255, .closed, false), (255, .requested, false), (255, .requested, true)].all fun p =>
      [Instr.pgreqGate k0 (ops (S 9) (S 6)), .pgreqUngate (kF 1) (ops (S 9) (S 6))].all fun i =>
        issuesWith (handling (·.setS 6 (BitVec.ofNat 32 p.1)) fun s =>
            { (s.setCore p.1 { s.core p.1 with gate := p.2.1 }) with power := { s.power with gdis := p.2.2 } }) i fun x =>
          x.e.u (S 6) == p.1 && p.1 < 256 && isUpper p.1 && (x.t.core p.1).gate == p.2.1 && x.t.power.gdis == p.2.2) = true := by decide +kernel
/-- GSAVE of a group with no vector register, and GREST of the image it writes. -/
theorem test_images_issue :
    let bare (g : Group) : Group := { g with v := Vector.replicate 128 [] }
    issuesWith (handling bare id) (.gsave k0 (ops (S 9) (S 2))) (fun x =>
      x.e.pair (S 2) % 64 == 0 && x.e.g.quiet && accessOk (x.t.uniAccess x.e.r x.e.w x.e.g 0 .write 0x4000 1216) fun as =>
        !x.t.anyHeld 64 as && x.t.objDrained 64 (as.flatMap (·.2)) && x.t.roomFor 0 (peersIn as)) = true ∧
    issuesWith (handling bare fun s => match s.group? me with
        | some (_, g) => { s with dram := s.dram ++ cells 0x4000 (g.image 128 { pc := 0x1000, mstep := 0, hm := false }) }
        | none => s) (.grest k0 (ops N (S 2))) (fun x =>
      x.e.pair (S 2) % 64 == 0 && x.e.g.pend == [] && accessOk (x.t.uniAccess x.e.r x.e.w x.e.g 0 .read 0x4000 64) fun hs => !x.t.anyHeld 64 hs &&
        x.t.uniAsk x.e .read (hs.flatMap (·.2)) == [] &&
        accessOk (x.t.uniAccess x.e.r x.e.w x.e.g 0 .read 0x4000 1216) fun as => !x.t.anyHeld 64 as && x.t.uniAsk x.e .read (as.flatMap (·.2)) == [] &&
          (x.e.g.ofImage 128 (x.t.uniBytes x.e .read (as.flatMap (·.2))).1).isSome) = true := by decide +kernel

/-- A deck with room for the 64 items of the test group. -/
def deckState (cap : Nat) : State := at_ 64 id fun s => { s with launches := s.launches.map fun l => { l with
  decks := [some { cap, target := probeDesc, items := [], reserved := 0, seq := 0 }, none, none, none] } }
theorem test_spawn_issues : issuesWith (deckState 64) (.spawn k0 (ops N (V 1) (K 1))) (fun x =>
    ((x.t.deckOf 0 1 0).any fun d => decide (d.items.length + d.reserved + (lanesOf x.e.m).length ≤ d.cap)) &&
    (lanesOf x.e.m).length == 64 && x.t.reqRoom 0) = true := by decide +kernel
/-- The descriptor of a launch of one group of one thread (Table 21.5). -/
def descBytes : List Byte := List.replicate 64 1 ++ leBytes 64
  (1 + 8 * 2 ^ 8 + 2 ^ 16 + 2 ^ 32 + 0x1000 * 2 ^ 112 + 0x8000 * 2 ^ 160 + 0x100000 * 2 ^ 352 + 16 * 2 ^ 400)
theorem test_descriptor_is_formed : descOk false descBytes = true := by decide +kernel
theorem test_fork_issues : [N, S 12].all (fun d => issuesWith (memory id fun s => { s with dram := s.dram ++ cells 0x4000 descBytes })
    (.fork k0 (ops (S 10) (S 2) N N d)) (fun x => match x.e.globalRead 0x4000 (fun _ => 128) x.t with
      | .ok (bs, t) => (match readLaunch x.e.globalRead bs t with
        | .ok (some k, u) => decide (u.forksOut 0 < 1024) && decide (((u.launchOf 0 1).map (·.depth)).getD 0 < 16) &&
          decide (u.pendingLaunches 0 < 4096) &&
          (match (if d = N then .ok ([], u) else x.e.globalRead k.desc.compl (fun _ => 4) u : Except Act (List Byte × State)) with
            | .ok (_, v) => v.reqRoom 0 | _ => false)
        | _ => false)
      | _ => false)) = true := by decide +kernel
/-- REGROUP of one group, the last to arrive, and of the first of two. -/
theorem test_regroup_issues :
    ([1, 2].all fun n =>
      let s := objects (leBytes 16 (barNew 2 false 1)) fun s => s.modWg me fun w =>
        { w with groups := (List.range n).flatMap fun k => w.groups.map fun g => { g with id := k } }
      issuesWith s (.regroup kW (ops N (K 0) (K 1))) fun x =>
        accessOk (x.t.uniAccess x.e.r x.e.w x.e.g 1 .read 0 16) fun as => !x.t.anyHeld 64 as &&
          (let got := x.t.uniBytes x.e .read (as.flatMap (·.2))
           bits (leNat got.1) 127 125 == 2 && bits (leNat got.1) 31 0 != 1 &&
           (participants x.e.w).all (fun g => g.wait == .none) &&
           (let g' := { x.e.g with wait := .regroup 0 1 false .wg }
            match (got.2.setGroup x.e.r (g'.after x.v x.f (got.2.clock 64) 0 false (x.e.g.dsts x.v x.f))).wgOf x.e.r with
            | some w => ((got.2.setGroup x.e.r (g'.after x.v x.f (got.2.clock 64) 0 false (x.e.g.dsts x.v x.f))).tryRegroup w).isSome == (n == 1)
            | none => false))) = true := by decide +kernel
/-- REGROUP of the last of two groups with 64 lanes each, which the packing takes on as they are, MC clear and set. -/
theorem test_regroup_packs :
    ([false, true].all fun mc =>
      let c : Ctl := { kW with mc }
      let s := objects (leBytes 16 (barNew 2 false 1)) fun s => s.modWg me fun w => { w with groups := w.groups.flatMap fun g =>
        [g, { g with id := 1, wait := .regroup 0 1 mc .wg }] }
      issuesWith s (.regroup c (ops N (K 0) (K 1))) fun x =>
        accessOk (x.t.uniAccess x.e.r x.e.w x.e.g 1 .read 0 16) fun as => !x.t.anyHeld 64 as &&
          (let got := x.t.uniBytes x.e .read (as.flatMap (·.2))
           bits (leNat got.1) 127 125 == 2 && bits (leNat got.1) 31 0 != 1 && (participants x.e.w).length == 2 &&
           (participants x.e.w).all (fun g => match g.wait with | .regroup a q _ _ => a == 0 && q == 1 | _ => g.wait == .none) &&
           match (got.2.setGroup x.e.r (({ x.e.g with wait := .regroup 0 1 mc .wg } : Group).after x.v x.f (got.2.clock 64) x.e.epoch false
             (x.e.g.dsts x.v x.f))).wgOf x.e.r with
           | some w => w.runs && !got.2.heldOff (some (columnOf w.core)) (localLoc w 1 4) 4 && (participants w).all (fun g => !g.handler && g.pend == [] && ((List.range 6).all fun k => !g.tokBusy k) &&
               g.wait == .regroup 0 1 mc .wg) && (!mc || (participants w).all fun g => (participants w).all fun h =>
                 g.s == h.s && g.p == h.p && g.w == h.w && g.pc == h.pc && g.srseed == h.srseed && g.srn == h.srn && g.chk == h.chk && g.wdog == h.wdog)
           | none => false)) = true := by decide +kernel
/-- CANCEL of the issuing group's own launch, and of a unit it does not belong to; CNTRD of both fields. -/
theorem test_unit_forms_issue :
    let s (b : Bool) := memory id fun s => { s with
      launches := if b then s.launches.map fun l => { l with desc := { l.desc with compl := 0x4000 } } else s.launches
      units := if b then [] else [{ kind := .graph, ctx := 0, object := 0x4000, inPhase := 0, closed := false, cancelled := false, status := .running }] }
    ([true, false].all fun b => issuesWith (s b) (.cancel k0 (ops N (S 2))) fun x =>
      match x.t.unitAt 0 (x.e.pair (S 2)) with
      | some n => x.t.reqRoom 0 && (x.t.request 0 0 1 (.cancel 0 0x4000)).inUnit 0 1 n == b
      | none => false) = true ∧
    issues (s true) [.cntrdCount k0 (ops (S 10) (S 2)), .cntrdStatus (kF 1) (ops (S 10) (S 2))] = true := by decide +kernel

/-! ### Steps of groups and walks -/

/-- The test group stands in a state, and it meets a premise. -/
def standing (s : State) (p : Workgroup → Group → Bool) : Bool := match s.group? me with
  | some (w, g) => !(s.col (columnOf w.core)).rolling && p w g
  | none => false
theorem test_fetches_can_be_taken :
    (let s := memory (fun g => { g with lines := [] }) id
     standing s fun w g => g.wait == .none && w.runs && g.lines.all (·.addr != 0x1000) && g.pc == 0x1000 &&
      s.resolve 0 64 g.xf 0x1000 64 .exec == .ok [(.mem ⟨.dram, 0x1000⟩ 0, 64)] && readable? s (some 0) ⟨.dram, 0x1000⟩ 64) = true ∧
    (let s := memory (fun g => { g with wait := .refetch 0x1000 }) id
     standing s fun _ g => g.wait == .refetch 0x1000 &&
      s.resolve 0 64 g.xf 0x1000 64 .exec == .ok [(.mem ⟨.dram, 0x1000⟩ 0, 64)] && readable? s (some 0) ⟨.dram, 0x1000⟩ 64) = true := by
  decide +kernel
/-- A delivery whose token another delivery still holds, and the last one of its token. -/
theorem test_delivery_can_be_taken :
    let p : Pend := { vec := true, first := 9, n := 1, lanes := [(0, .ok [1]), (63, .ok [2])], token := some 0, iaddr := 0, mstep := 0, epoch := 0 }
    ([[p], [p, p]].all fun ps => standing (at_ 64 (fun g => { g with pend := ps }) id) fun _ g => g.pend[0]? == some p &&
      p.lanes.all fun v => match v.2 with | .ok _ => true | _ => false) = true := by decide +kernel
theorem test_atomic_lane_can_perform :
    let q : AtomReq := { op := 0, ty := .i32, sc := .device, near := false, red := false, lanes := [{ lane := 63, loc := ⟨.dram, 0x5FFC⟩, peer := none, arg := 1, new := 0 }]
                         got := [], vec := true, dst := some 9, token := none }
    let s := memory (fun g => { g with wait := .atomic q }) id
    standing s (fun _ g => g.wait == .atomic q && isFar 0 false (.mem ⟨.dram, 0x5FFC⟩ 0) && readable? s (some 0) ⟨.dram, 0x5FFC⟩ 4 &&
      !s.mustDrain 0 ⟨.dram, 0x5FFC⟩ 4 && q.lanes.all (fun a => g.live.getLsbD a.lane && a.old.isNone && !q.behind a &&
        !s.halfway (some (me, 63)) (q.key me 64 a) ⟨.dram, 0x5FFC⟩ 4)) = true := by decide +kernel
/-- One waiting reduction with the old value, two in an order of the plan's own, and two at different locations of one line. -/
theorem test_reductions_can_merge :
    let x : Writer := { r := me, core := 64, tid := 0, iaddr := 0, lane := none }
    let q (a : Nat) : WqRed := { op := 0, ty := .i32, sc := .device, loc := ⟨.dram, a⟩, operand := 1, x }
    let s (qs : List WqRed) : State := { State.reset with wq := qs }
    ([([q 0x100], .node (.leaf 0) (.leaf 1)), ([q 0x100, q 0x100], MergePlan.node (.leaf 2) (.node (.leaf 0) (.leaf 1))),
      ([q 0x100, q 0x120], .node (.node (.leaf 0) (.leaf 1)) (.leaf 2))].all fun p =>
      let t := s p.1
      let n := (planLeaves p.2).length
      let locs := ((p.1.take (n - 1)).map (·.loc)).eraseDups
      t.wqAt ⟨.dram, 0x100⟩ == p.1 && n == p.1.length + 1 && (List.range n).all (planLeaves p.2).contains && p.1.all (fun q => q.old.isNone) &&
      p.1.all (fun q => t.redReady q && q.mark.met == none) && locs.all fun u => t.badAll u 4 == [] && !t.injHits [(u, 4)]) = true := by decide +kernel
/-- A wait on a FIFO count and one on a barrier's phase. -/
theorem test_wait_can_complete :
    ([(Wait.fifo .vin 0, 0), (.phase true 0 1 false true (some 5) 7, (1 : Word))].all fun c =>
      let s := objects (leBytes 16 (barNew 2 false 1)) fun s => (s.setVfIn 64 { entries := [], pushed := 1, popped := 1 }).modGroup me fun g =>
        { g with wait := c.1 }
      standing s fun w g => w.runs && g.wait.leaves == some c.2 &&
        match s.waitReads me w g g.wait with | some (v, _) => v != c.2 | none => false) = true := by decide +kernel

def walk (st : WalkState) (acc : Access := .write) : Walk :=
  { tower := 0, ctx := 0, page := 0x40201000, st, reqs := [{ who := .group me, acc, core := 64 }] }
/-- A state with one walk; its context is valid, and DRAM holds an entry. -/
def walkState (st : WalkState) (at_ e : Nat) (acc : Access := .write) : State :=
  { State.reset with ctxs := State.reset.ctxs.setIfInBounds 0 { State.reset.ctx 0 with desc := 1 }
                     walks := [walk st acc], dram := cells at_ (leBytes 8 e) }
/-- A walk starts at the root, and at a table that the walk cache holds. -/
theorem test_walk_can_start :
    ([[], [{ tower := 0, ctx := 0, level := 0, va := 0, table := 0x4000 }]].all fun wc =>
      let s := { walkState .queued 0 0 with wcache := wc }
      s.walks[0]? == some (walk .queued) && (s.walks.filter Walk.running).isEmpty && s.nextServed 0 == some 0 &&
      !((s.walks.take 0).any fun x => x.tower == 0 && x.ctx == 0 && !x.running) && (s.ctx 0).valid &&
      s.walkStart (walk .queued) == (if wc = [] then (0, (s.ctx 0).root) else (1, 0x4000))) = true := by decide +kernel
/-- Each outcome of an entry read: the own entry of a group, a table at level 0, a leaf to update at level 2, a leaf already updated at level 3
(its own entry, after a first one), and a leaf of a peer at level 1. -/
theorem test_entries_can_be_read :
    ([(WalkState.read 3 0x3000, true, 0x3000 + 8 * 0, 0, EntryRes.own), (.read 0 0x3000, false, 0x3000, 0x4001, .table 0x4000),
      (.read 2 0x3000, false, 0x3000 + 8, 0x200025, .leaf (2 ^ 21)), (.read 2 0x3000, false, 0x3000 + 8, 0x200005, .leaf (2 ^ 21)),
      (.read 2 0x3000, false, 0x3000 + 8, 0, .fault .notPresent), (.own 0x3000, false, 0x3000 + 8, 0x50E5, .leaf 4096),
      (.read 1 0x3000, false, 0x3000 + 8, 2 ^ 52 + 0xE5, .leaf (2 ^ 30))].all fun p =>
      let s := walkState p.1 p.2.2.1 p.2.2.2.1
      let level := match p.1 with | .read l _ => l | _ => 3
      p.2.2.1 == 0x3000 + 8 * (if p.2.1 then walkIndex level 0x40201000 / 16 * 16 else walkIndex level 0x40201000) &&
      leNat (s.bytesAt ⟨.dram, p.2.2.1⟩ 8) == p.2.2.2.1 && readable? s none ⟨.dram, p.2.2.1⟩ 8 &&
      checkEntry level p.2.1 p.2.2.2.1 == p.2.2.2.2 && (leafPermits p.2.2.2.1 .write).isNone == (p.2.2.2.1 / 32 % 2 == 1)) = true ∧
    (walk (.own 0)).updated 0x200025 ≠ 0x200025 ∧ (walk (.own 0)).updated 0x50E5 = 0x50E5 ∧ ptePeer 0x50E5 = 0 ∧
    ptePeer (2 ^ 52 + 0xE5) ≠ 0 := by decide +kernel
/-- The compare finds the old entry, and another one. -/
theorem test_update_can_be_taken :
    ([(0x5025, true), (0x7025, false)].all fun p =>
      let s := walkState (.update 0x3008 0x5025 0x50E5 4096 none) 0x3008 p.1
      readable? s none ⟨.dram, 0x3008⟩ 8 && (leNat (s.bytesAt ⟨.dram, 0x3008⟩ 8) == 0x5025) == p.2) = true := by
  decide +kernel
/-- A valid entry of the peer table; a reply for a leaf to update and for one that is as it should be; a question 500 ms old at a peer cut off. -/
theorem test_peer_questions_can_be_taken :
    (let s := { walkState (.peerTable 0x3008 (BitVec.ofNat 64 (2 ^ 52 + 0xE5)) (2 ^ 30)) 0x6010 (2 ^ 63 + 3) with
        ctxs := State.reset.ctxs.setIfInBounds 0 { State.reset.ctx 0 with desc := BitVec.ofNat 512 (1 + 2 ^ 128 + 6 * 2 ^ 140) } }
     (s.ctx 0).peert + 16 == 0x6010 && decide (1 ≤ (s.ctx 0).peern) && readable? s none ⟨.dram, 0x6010⟩ 16 &&
      (leNat (s.bytesAt ⟨.dram, 0x6010⟩ 16)).testBit 63) = true ∧
    ([0x10000000000000E5, 0x1000000000000025, 0x1000000000000005].all fun e =>
      let st : WalkState := .peerAsk 0x3008 e (2 ^ 30) 3 0 0
      let s := walkState st 0 0
      !(s.cut 3) && !s.failedPeers.contains 3 && s.walks[0]? == some (walk st) &&
        ((walk st).reqs.filter fun r => (leafPermits e.toNat r.acc).isNone).isEmpty == (e == 0x1000000000000005) &&
        (e == 0x1000000000000005 || ((walk st).updated e.toNat == e.toNat) == (e == 0x10000000000000E5))) = true ∧
    (let s : State := { walkState (.peerAsk 0x3008 0x10000000000000E5 (2 ^ 30) 3 0 0) 0 0 with
        ports := State.reset.ports.map fun p => { p with reach := some [] }, now := 2000000000 }
     s.cut 3 && decide (2000000000 ≤ s.now)) = true := by decide +kernel

/-! ### Steps of engines -/

def entry (q : Nat) (cmd : Cmd) : Entry :=
  { q, cmd, poster := me, scr := (0, 4096), iaddr := 0x1000, mstep := 0, token := none, bar := none, scope := .thread, seq := 1, epoch := 0
    data := [], index := [], lands := [], held := [], xf := [], parked := none, failed := none, since := 0, joint := false }
def recs (ks : List (Nat × Nat)) : List StepRec := ks.map fun p => { k := p.1, epoch := 0, val := p.2 }
def page0 : Xlat := { ctx := 0, page := 0, size := 2 ^ 30, pa := 0, w := true, x := true, d := true, mt := 0, peer := none, holder := 16 }
/-- The test group's core with one entry at the head of a queue, page 0 translated. -/
def queued (e : Entry) (t : State → State) : State := t ((memory id id).setQueue { core := 64, q := e.q } [e])
/-- A head that may act and meets a premise. -/
def heading (s : State) (q : Nat) (p : QRef → Entry → Bool) : Bool := match s.head { core := 64, q } with
  | some e => e.able && p { core := 64, q } e
  | none => false
def reads (s : State) (h : Fill) (ps : List Piece) (ext : List Byte) : Bool := match s.engRead 64 h ps ext with | (some _, _) => true | _ => false

/-- A tile command that needs one page: its translation is cached, and it is not. -/
theorem test_pretranslate_needs_a_page :
    ([true, false].all fun cached =>
      let s := queued (entry 0 (.tile true 1 rec0 0x4000 [0, 0, 0, 0] 0)) fun s => if cached then s else { s with tlb := [] }
      heading s 0 fun q e => e.toTranslate && e.xf == [] && e.held == [] &&
        (match s.needs q e with | .pages [n] => n.addr == 0x4000 && n.acc == .read | _ => false) &&
        e.translates 64 && (match s.tlb.find? (fun x => x.serves 0 64 0x4000 .read) with
          | some x => cached && x.peer.isNone && decide (((s.setHead q e).core 64).holder < 2048)
          | none => !cached && s.walks == [])) = true := by decide +kernel
/-- The tile step of TLD and of TST, and RPUT's second step. -/
theorem test_tile_steps_can_be_taken :
    ([true, false].all fun load =>
      let s := queued { entry 0 (.tile load 1 rec0 0x4000 [0, 0, 0, 0] 3840) with held := [page0] } id
      heading s 0 fun q e =>
        let g := s.tileG q e rec0 0x4000 [0, 0, 0, 0] (if load then .read else .write)
        let l := e.tileL 64 1 3840 rec0
        e.data == [] && s.holdsAll q e && !g.isEmpty && !s.engHeld 64 g && !s.engHeld 64 l && !s.engDrain 64 (if load then l else g) &&
        reads s (.load e.hint) (if load then g else l) []) = true ∧
    (let s := queued { entry 0 (.rput rec0 0x4000 [0, 0, 0, 0] true 0) with
        data := recs [(0, 512 + 256 * 2 ^ 64 + 256 * 2 ^ 128 + 2 ^ 160)], held := [page0] } id
     heading s 0 fun q e =>
      let g := s.tileG q e rec0 0x4000 [0, 0, 0, 0] .read
      let l := s.slotPieces q e rec0 true
      e.data.length == 1 && !g.isEmpty && !s.engHeld 64 g && !s.engHeld 64 l && !s.engDrain 64 l && reads s (.load e.hint) g []) = true := by decide +kernel
/-- The last line of a copy, a row of a gather, and the last row below the limit of a scatter; the first index read and a later one. -/
theorem test_row_steps_can_be_taken :
    (let s := queued (entry 1 (.ycopy 1 0 0 0x4000 300)) id
     heading s 1 fun q e => s.holdsAll q e && !Entry.has e.data 1 && decide (1 < copyLines 0 300) &&
      (match s.engAccess q e 0 (0x4000 + (copyPart 0 300 1).1) 44 .read, s.engAccess q e 1 (copyPart 0 300 1).1 44 .write with
        | .ok sp, .ok dp => (copyPart 0 300 1).2 == 44 && !s.engHeld 64 sp && !s.engHeld 64 dp && !s.engAway 64 sp && reads s (.load e.hint) sp [] && s.roomFor 0 [(0, dp)]
        | _, _ => false)) = true ∧
    ([false, true].all fun sc =>
      let s := queued { entry 1 (.gather sc 1 0x4000 8 8 0x8000 2 5 0) with index := recs [(1, 4)] } id
      heading s 1 fun q e => s.holdsAll q e && Entry.has e.index 1 && decide (Entry.valOf e.index 1 < 5) && !Entry.has e.data 1 &&
        (match s.engAccess q e (if sc then 1 else 0) (if sc then 8 else 0x4020) 8 .read,
            s.engAccess q e (if sc then 0 else 1) (if sc then 0x4020 else 8) 8 .write with
          | .ok sp, .ok dp => !s.engHeld 64 sp && !s.engHeld 64 dp && !s.engAway 64 sp && reads s (.load e.hint) sp [] && s.roomFor 0 [(0, dp)]
          | _, _ => false)) = true ∧
    ([0, 1].all fun k =>
      let s := queued { entry 1 (.gather false 1 0x4000 8 8 0x8000 2 5 0) with index := recs ((List.range k).map fun j => (j, 0)) } id
      heading s 1 fun q e => s.holdsAll q e && !Entry.has e.index k && (List.range k).all (Entry.has e.index) &&
        match s.engAccess q e 0 (0x8000 + 4 * k) 4 .read with | .ok ps => !s.engHeld 64 ps && !s.engAway 64 ps && reads s (.load e.hint) ps [] | _ => false) = true := by
  decide +kernel
/-- RPUT looks at a ring in the scratch of one slot; claims the slot of the ring as it looked at it; finds the ring changed meanwhile. -/
theorem test_claim_can_be_taken :
    let ring := 512 + 256 * 2 ^ 64 + 256 * 2 ^ 128 + 2 ^ 160
    let s (peek : Option Nat) := queued { entry 0 (.rput rec0 0x4000 [0, 0, 0, 0] true 0) with held := [page0], peek } fun s => { s with
      sram := cells (16 * 2 ^ 23) (leBytes 32 ring) ++ cells (16 * 2 ^ 23 + 256) (leBytes 16 (barNew 2 true 0)) }
    let local_ (ps : List Piece) : Bool := ps.all fun p => match p.1 with | .mem .. => true | _ => false
    heading (s none) 0 (fun q e => e.data == [] && e.index == [] && e.peek == none &&
      let ps := (s none).ringPieces q e true 0
      !ps.isEmpty && local_ ps && !(s none).engHeld 64 ps && reads (s none) .none ps []) = true ∧
    ([(ring, true), (ring + 2 ^ 176, false)].all fun p =>
      let s := s (some p.1)
      heading s 0 fun q e => e.peek == some p.1 && e.asked == none && ringFault e rec0 true p.1 == none && s.holdsAll q e && decide (ringUsed p.1 < ringN p.1) &&
        let ps := s.ringPieces q e true 0 ++ s.barPieces q e { inS := true, addr := slotBar p.1 }
        !(s.barPieces q e { inS := true, addr := slotBar p.1 }).isEmpty && !s.engHeld 64 ps && !s.engDrain 64 ps && local_ ps &&
        match s.engRead 64 .none ps [] with
        | (some d, _) =>
          let r := leNat (d.take 32)
          (r % 2 ^ 224 == p.1 % 2 ^ 224) == p.2 && ringN r != 0 && decide (ringUsed r < ringN r) && bytesFit (barBytes (leNat (d.drop 32)) + ringSize r)
        | _ => false) = true := by decide +kernel
/-- A claim of a slot whose ring and barrier lie at endpoint 3: to ask for, and with the peer's answer. -/
theorem test_claim_at_a_peer_can_be_taken :
    let ring := 0x4200 + 0x4100 * 2 ^ 64 + 256 * 2 ^ 128 + 2 ^ 160
    let a : PeerAsk := { fep := 3, pctx := 5, pa := 0x4000, len := 32, op := .fill ring (some 0x4100) }
    ([false, true].all fun asked =>
      let s := queued { entry 0 (.rput rec0 0x4000 [0, 0, 0, 0] false 0x4000) with
          held := [{ page0 with peer := some (3, 5) }], peek := some ring, asked := if asked then some a else none
          reply := if asked then some (some (leBytes 32 ring ++ leBytes 16 (barNew 6 true 0))) else none } fun s =>
        { s with tlb := s.tlb.map fun x => { x with peer := some (3, 5) } }
      heading s 0 fun q e => e.data == [] && e.index == [] && e.peek == some ring && ringFault e rec0 false ring == none &&
        s.ringPieces q e false 0x4000 == [(.peer 3 5 0x4000 0, 32)] && !s.failedPeers.contains 3 &&
        s.barPieces q e { inS := false, addr := slotBar ring } == [(.peer 3 5 0x4100 0, 16)] &&
        if asked then e.asked == some a && ringN ring != 0 && decide (ringUsed ring < ringN ring) && bytesFit (barBytes (barNew 6 true 0) + ringSize ring)
        else e.asked == none && s.holdsAll q e && decide (ringUsed ring < ringN ring) &&
          s.lbFits 0 (peerKeys (s.col 0).epoch 3 0x4000 32 ++ peerKeys (s.col 0).epoch 3 0x4100 16)) = true := by decide +kernel
/-- The land step of a performed tile on a barrier in S, which then advances. -/
theorem test_land_can_be_taken :
    let s := queued { entry 0 (.tile true 1 rec0 0x4000 [0, 0, 0, 0] 0) with data := recs [(0, 0)], bar := some { inS := true, addr := 1024 } }
      fun s => { s with sram := cells (16 * 2 ^ 23 + 1024) (leBytes 16 (2 * 2 ^ 125 + 256 * 2 ^ 64)) }
    heading s 0 (fun q e => !e.fresh && e.landAmount 0 == some 256 && e.landBar == some { inS := true, addr := 1024 } &&
      (let ps := s.barPieces q e { inS := true, addr := 1024 }
       !ps.isEmpty && !s.engHeld 64 ps && !s.engDrain 64 ps && ps.all (fun p => storageOk 64 2 p.1) &&
       ps.all (fun p => match p.1 with | .mem .. => true | _ => false) &&
       match s.engRead 64 .none ps [] with
       | (some bs, _) => barScope (leNat bs) == 2 && (barLand (leNat bs) 256).isSome
       | _ => false)) = true := by decide +kernel
/-- A land step on a barrier at a peer: to ask for, and with the peer's answer. -/
theorem test_land_at_a_peer_can_be_taken :
    ([false, true].all fun asked =>
      let a : PeerAsk := { fep := 3, pctx := 5, pa := 1024, len := 16, op := .land 256 }
      let s := queued { entry 0 (.tile true 1 rec0 0x4000 [0, 0, 0, 0] 0) with
          data := recs [(0, 0)], bar := some { inS := false, addr := 1024 }, held := [{ page0 with peer := some (3, 5) }]
          asked := if asked then some a else none, reply := if asked then some (some (leBytes 16 (barNew 6 false 1 + 256 * 2 ^ 64))) else none } fun s =>
        { s with tlb := s.tlb.map fun x => { x with peer := some (3, 5) } }
      heading s 0 fun q e => !e.fresh && e.landAmount 0 == some 256 && e.landBar == some { inS := false, addr := 1024 } && e.asked == (if asked then some a else none) &&
        s.barPieces q e { inS := false, addr := 1024 } == [(.peer 3 5 1024 0, 16)] && !s.failedPeers.contains 3 && s.lbFits 0 (peerKeys (s.col 0).epoch 3 1024 16) &&
        (!asked || match e.reply with
          | some (some bs) => barScope (leNat bs) == 6 && (barLand (leNat bs) 256).isSome
          | _ => false)) = true := by decide +kernel
/-- A fence that names every queue: the entries that stand in another one were posted after it. -/
theorem test_fence_can_leave :
    let s := queued (entry 3 (.fence 31)) fun s => s.setQueue { core := 64, q := 4 } [{ entry 4 (.mzero 0 1) with seq := 2 }]
    heading s 3 (fun q _ => (List.range 5).all fun k => k == q.q || (s.queue { core := 64, q := k }).all fun x => decide (1 < x.seq)) = true := by
  decide +kernel

def blk (n : Nat) (tag : Word := 0) : List Word := [0, 0, 0, BitVec.ofNat 32 n, 0, 0, 0, tag, 0, 0]
def recA : Rec := recOf 7 64 4 128
/-- The operands of a K-step are free and can be read. -/
def kReady (s : State) (core : Nat) (x : KArgs) : Bool :=
  let rows := accRows core x.ac (loopTM x.ra) (loopTN x.rb)
  !s.engHeld core (x.operands ++ rows) &&
  match s.engRead core .none (x.operands ++ if x.first then [] else rows) [] with | (some _, _) => true | _ => false
/-- The first K-step of a loop, and the last one of a structured loop with a zero map. -/
theorem test_k_steps_can_be_taken :
    (let s := queued (entry 4 (.mloop recA recA (blk 2) true)) id
     heading s 4 fun q e => s.holdsAll q e && e.data.length == 0 && decide (0 < blkU (blk 2) 3) && kReady s 64
      { ra := recA, rb := recA, a := e.sLoc 64 0, b := bsLoc 64 0, kept := fun _ => allTerms, zero := fun _ _ => false, md := [], first := true, ac := 0 })
      = true ∧
    (let s := queued { entry 4 (.mloops 0 (recOf 7 16 4 32) recA (blk 2) false true) with data := recs [(0, 0)] } id
     heading s 4 fun q e => s.holdsAll q e && e.data.length == 1 && kReady s 64
      { ra := recOf 7 16 4 32, rb := recA, a := e.sLoc 64 0, b := bsLoc 64 0, kept := fun _ => [], zero := fun _ _ => false
        md := [(.mem (e.sLoc 64 0) 0, 32), (.mem (e.sLoc 64 0) 0, 8)], first := false, ac := 0 }) = true := by decide +kernel
/-- MZERO's first line, and its last. -/
theorem test_zero_lines_can_be_taken :
    ([0, 2047].all fun k =>
      let s := queued { entry 4 (.mzero 0 2048) with data := recs ((List.range k).map fun j => (j, 0)) } id
      heading s 4 fun q e => k == e.data.length && decide (k < 2048) && s.holdsAll q e) = true := by decide +kernel

/-- A stand of four members, each with a joint entry at the head of its four upper cores. -/
def stand0 (f : Nat → Entry → Entry) (t : State → State) : State :=
  t ((List.range 4).foldl (fun s m => (memberCores 0 m).foldl (fun s c =>
    s.setQueue { core := c, q := 4 } [f m { entry 4 (.mloopj recA recA (blk 1 7) false) with seq := m + 1 }]) s)
    { State.reset with cols := State.reset.cols.map fun k => { k with epoch := 1 } })
/-- Four entries that agree, and one of another tag, with none and with one of them parked. -/
theorem test_joint_can_start :
    ([(7, none), (8, none), (8, some { cause := .notPresent })].all fun p =>
      let s := stand0 (fun m e => if m = 3 then { e with cmd := .mloopj recA recA (blk 1 p.1) false, parked := p.2 } else e) id
      let es := (List.range 4).filterMap (s.memberHead 0)
      es.length == 4 && es.zipIdx.all (fun x => x.1.failed == none && !x.1.joint && (s.col x.2).confirmed x.1.epoch) &&
      (match es.head? with
        | some a => if p.1 = 7 then es.all (jointAgrees a) && es.zipIdx.all fun x => x.1.parked == none &&
            s.holdsAll { core := (memberCores 0 x.2).headD 0, q := 4 } x.1
          else es.any fun e => !jointAgrees a e
        | none => false)) = true := by decide +kernel
/-- A K-step of a joint operation that has begun; its completion once every core has added it. -/
theorem test_joint_can_run :
    (let s := stand0 (fun _ e => { e with joint := true, index := recs [(0, 1), (1, 2), (2, 3), (3, 4)] }) id
     heading s 4 fun _ e => e.joint && decide (0 < blkU (blk 1 7) 3) && !Entry.has e.data 0 &&
      (match s.jointAt ((memberCores 0 0).headD 0) (e.partner 0) with
        | some y => y.cmd == .mloopj recA recA (blk 1 7) false
        | none => false) &&
      !s.heldOff none (e.sLoc 64 0) (aExtent recA) && !s.heldOff none (bsLoc 64 0) (bExtent recA) &&
      kReady s 64 { ra := recA, rb := recA, a := e.sLoc 64 0, b := bsLoc 64 0, kept := fun _ => allTerms, zero := fun _ _ => false, md := []
                    first := false, ac := 0, shared := true }) = true ∧
    (let s := stand0 (fun _ e => { e with joint := true, index := recs [(0, 1), (1, 2), (2, 3), (3, 4)], data := recs [(0, 0)] }) id
     (List.range 4).all fun m => match s.memberHead 0 m with
      | some e => e.able && e.joint && e.bar.isNone && e.cmd == .mloopj recA recA (blk 1 7) false && (List.range 4).all fun m' =>
        (memberCores 0 m').all fun c => match s.jointAt c (e.partner m') with
          | some x => x.data.length == 1
          | none => false
      | none => false) = true := by decide +kernel
/-- The end of a member's part: it lands on its barrier in S, if its entry names one, and its entry leaves; whether the landing is taken. -/
def memberEnds (s : State) (m : Nat) : State × Bool :=
  let q : QRef := { core := (memberCores 0 m).headD 0, q := 4 }
  let leaves (t : State) : State := (memberCores 0 m).foldl (fun t c => match t.head { core := c, q := 4 } with
    | some x => (t.leave { core := c, q := 4 } x).settle { core := c, q := 4 }
    | none => t) t
  match s.memberHead 0 m with
  | none => (s, false)
  | some e => match e.bar with
    | none => (leaves s, true)
    | some b =>
      let ps := s.barPieces q e b
      match s.engRead q.core .none ps [] with
      | (some bs, u) => match barLand (leNat bs) (16 * loopTM recA * loopTN recA) with
        | some v =>
          let t := u.objPut (e.writer q.core) ps (leBytes 16 v)
          (leaves (t.modMember 0 m fun x => { x with lands := [{ k := 0, epoch := (t.col (columnOf q.core)).epoch, val := 0 }] }),
            !ps.isEmpty && (ps.all fun p => storageOk q.core (barScope (leNat bs)) p.1) && decide (2 ≤ barScope (leNat bs)) &&
              !s.engHeld q.core ps && !s.engDrain q.core ps)
        | none => (s, false)
      | _ => (s, false)
/-- A joint operation that every core has added, whose member 0 lands on a barrier in its scratch and the others on none. -/
theorem test_joint_can_complete :
    let s := stand0 (fun m e => { e with joint := true, index := recs [(0, 1), (1, 2), (2, 3), (3, 4)], data := recs [(0, 0)]
                                         bar := if m = 0 then some { inS := true, addr := 1024 } else none }) fun s =>
      { s with sram := cells (16 * 2 ^ 23 + 1024) (leBytes 16 (2 * 2 ^ 125 + 16 * loopTM recA * loopTN recA * 2 ^ 64)) }
    ((List.range 4).all (fun m => (s.memberHead 0 m).any fun e => e.able && e.joint && e.bar.isSome == (m == 0) &&
      (List.range 4).all fun m' => (memberCores 0 m').all fun c => (s.jointAt c (e.partner m')).any fun x => x.data.length == 1) &&
      ((List.range 4).foldl (fun (a : State × Bool) m => let b := memberEnds a.1 m; (b.1, a.2 && b.2)) (s, true)).2) = true := by decide +kernel
/-- A head without its fourth partner for 500 µs, able and parked. -/
theorem test_joint_can_time_out :
    ([none, some { cause := .notPresent }].all fun parked =>
      let s := { stand0 (fun _ e => { e with parked }) (fun s => s.setQueue { core := (memberCores 0 3).headD 0, q := 4 } []) with now := 2000000 }
      (s.head { core := 64, q := 4 }).any fun e => e.tag.isSome && !e.joint && s.memberHead 0 3 == none && (clusterCores 64).all fun c =>
        match s.head { core := c, q := 4 } with
        | some h => h.seq == e.seq && h.failed == none && decide (h.since + 2000000 ≤ s.now)
        | none => false) = true := by decide +kernel
theorem test_engine_can_end :
    let f : FaultInfo := { cause := .record, queue := 0 }
    let s := queued { entry 0 (.ycopy 1 0 0 0 0) with failed := some f } id
    (match (s.queue { core := 64, q := 0 }).find? (fun e => e.failed.isSome) with
      | some e => e.failed == some f && e.tag == none &&
        ((s.setQueue { core := 64, q := 0 } []).wgOf e.poster).any fun w => w.ending == none
      | none => false) = true := by decide +kernel

/-! ### Steps of columns and of the dispatcher -/

def colState (f : Column → Column) (t : State → State) : State := t (State.reset.setCol 0 (f (State.reset.col 0)))

theorem test_epoch_steps_can_be_taken :
    (let s := colState id fun s => { s with now := 512 }
     !(s.col 0).rolling && decide ((s.col 0).start + 512 ≤ s.now)) = true ∧
    (let s := colState (fun k => { k with epoch := 1, ended := [(0, 512)] }) fun s => { s with now := 913 }
     (s.col 0).ended == [(0, 512)] && !(s.col 0).rolling && decide (512 + 400 < s.now)) = true ∧
    (let s := colState (fun k => { k with rolling := true }) id
     (s.col 0).rolling) = true := by decide +kernel
/-- A confirmed store, reductions to DRAM and to a scratch of another column, a fork, a cancel and a spawn at the head of the landing buffer. -/
theorem test_landing_buffer_can_drain :
    let x : Writer := { r := me, core := 64, tid := 0, iaddr := 0, lane := none }
    ([LbKind.store ⟨.dram, 0x100⟩ [1], .red 0 .i32 .device ⟨.dram, 0x100⟩ 1 x, .red 0 .i32 .device ⟨.sram, 3 * 2 ^ 23⟩ 1 x,
      .fork 0 1 probeDesc [] [], .cancel 0 16, .spawn 0 1 0 [{ a := 0, b := 0, c := 0, at_ := 0 }]].all fun k =>
      let s := at_ 64 id fun s => s.setCol 0 { s.col 0 with epoch := 1, lb := [{ epoch := 0, ctx := 0, lnum := 1, kind := k }] }
      let t := s.setCol 0 { s.col 0 with lb := [] }
      (s.col 0).confirmed 0 && (t.launchOf 0 1).any (fun l => !l.cancelled) &&
      match k with
      | .store l bs => !t.drainHeld 0 l bs.length
      | .red op ty _ l _ _ m => l.store == .dram || (!t.redHeld 0 op ty m l && t.badAll l (tyBytes ty) == [] && !t.injHits [(l, tyBytes ty)])
      | .spawn .. => s.setCol 0 { s.col 0 with lb := [] } != s
      | _ => true) = true := by decide +kernel
/-- An event, behind a packet of its channel that is not clear yet in the other case; a write to a peer that is reached. -/
theorem test_egress_can_release :
    let ev : OutPkt := { deps := [(0, 0)], ctx := 0, lnum := 0, kind := mkEvent 0 0x81 0 0 0 [] }
    let x : Writer := { r := me, core := 64, tid := 0, iaddr := 0, lane := none }
    let pw : OutPkt := { deps := [], ctx := 0, lnum := 0, kind := .peerWrite 3 0 0 [1] x }
    let po : OutPkt := { pw with kind := .peerObj { fep := 3, pctx := 5, pa := 0, len := 16, op := .land 1 } x }
    let pa : OutPkt := { pw with kind := .peerAtom 3 5 0 0 .i32 1 0 x }
    ([(0, [ev]), (1, [{ ev with deps := [(0, 1)] , kind := mkEvent 1 0x81 0 0 0 [] }, ev]), (0, [pw]), (0, [po]), (0, [pa])].all fun p =>
      let s := (colState (fun k => { k with epoch := 1 }) fun s => { s with out := p.2 }).setPort 15
        { Port.reset with reach := some [3] }
      s.ports.toList.any (fun k => k.link == .up) && match s.out[p.1]? with
      | some o => s.cleared o && ((s.out.take p.1).all fun q => !(OutKind.stream q.kind == OutKind.stream o.kind) || !s.cleared q) &&
        (match o.kind with
          | .event _ e => e.op != 0x86 && e.eseq == 0
          | k => !s.failedPeers.contains 3 && OutKind.fep k == some 3 && (s.portsTo 3).any fun k => k.link == .up)
      | none => false) = true := by decide +kernel
/-- A write to a peer that has failed. -/
theorem test_lost_write_can_release :
    let x : Writer := { r := me, core := 64, tid := 0, iaddr := 0, lane := some 63 }
    let s : State := { State.reset with failedPeers := [3], out := [{ deps := [], ctx := 0, lnum := 1, kind := .peerWrite 3 0 0 [1] x }] }
    (s.out.all s.cleared && s.failedPeers.contains 3) = true := by decide +kernel
/-- Reports on the floor plan (20 R340): the centre of cell (1, 1), which is column 3's, and a circle about a corner of four cells. -/
theorem test_circles_meet_cells :
    strikePlaces 0 .tierU 9750 9750 100 = [.column 3] ∧ (strikePlaces 1 .tierU 6500 6500 0).length = 4 ∧
    (StrikeSite.column 19) ∈ strikePlaces 1 .tierU 9750 9750 100 := by decide +kernel
/-- A strike on a column that is gated, rolling back, and neither; a line to fetch again; a scrub under way. -/
theorem test_reports_can_arrive :
    ([(true, false), (false, true), (false, false)].all fun p =>
      let s := colState (fun k => { k with gated := p.1, rolling := p.2 }) id
      (s.col 0).gated == p.1 && (s.col 0).rolling == p.2) = true ∧
    (let s : State := { State.reset with l2bad := [(0x20, false)], scrubs := [(1, 0, 0)] }
     s.l2bad.contains (0x3F / 32 * 32, false) && decide (0 < s.scrubs.length)) = true := by decide +kernel

def smallDesc : Desc := { probeDesc with scrsz := 0, mx := false, save := 0x100000, savesz := 16, nreg := 1, prio := 0 }
/-- A launch of small workgroups of one group, ready to be placed, with `n` of them placed on core 64; page tables at 0x3000 map one GiB. -/
def dispatch (n : Nat) (f : Launch → Launch) (t : State → State) : State :=
  let s := at_ 64 (fun g => { g with v := Vector.replicate 128 [] }) id
  let l : Launch := { mkLaunch 0 1 { desc := { smallDesc with n := 128 }, macros := [], targets := [] } 0 0 with nextWg := n, readyAt := some 0 }
  t { s with launches := [f l], wgs := (List.range n).flatMap (fun _ => s.wgs.map fun w => { w with desc := smallDesc, scrSize := 0 })
             ctxs := State.reset.ctxs.setIfInBounds 0 { State.reset.ctx 0 with desc := 0x3001 }
             dram := cells 0x3000 (leBytes 8 0x4001) ++ cells 0x4000 (leBytes 8 0xF5) }
theorem test_placement_exists : (let s := dispatch 0 id id
    s.pstate == .d0 && s.nextPlacement.isSome) = true := by decide +kernel
/-- A workgroup of higher priority has waited 1 µs for the one place of its tier. -/
theorem test_victim_exists :
    let s := dispatch 1 (fun l => { l with prio := 1, desc := { l.desc with prio := 1 } }) fun s => { s with
      now := 4000, cols := s.cols.map fun (k : Column) => { k with limL := 0, limU := 1 }
      cores := Vector.ofFn fun n : Fin 256 => if n.val = 64 then Core.reset else { Core.reset with gate := .gated } }
    (s.wgs.all (fun v => !v.saving) && match s.fronts.filter fun c => s.starved c with
      | c :: _ => (s.victim c).isSome
      | [] => false) = true := by decide +kernel
/-- A workgroup whose group sleeps, and one chosen for saving: the record can be written. -/
theorem test_saves_can_be_taken :
    ([true, false].all fun asleep =>
      let s := dispatch 1 id fun s => (s.setCol 0 { s.col 0 with epoch := 1 }).modWg me fun w => { w with
        saving := !asleep, groups := w.groups.map fun g => if asleep then { g with wait := .phase false 0x8000 0 true false none 0 } else g }
      (s.findWg { ctx := 0, lnum := 1, wg := 0 }).any fun w => !w.groups.isEmpty && s.saveReady w && decide (w.retryAt ≤ s.now) && w.saving == !asleep &&
        (!asleep || w.groups.all Group.asleep) && s.cmdsOf w == [] && s.freeSlot w == some 0 &&
        match s.dispWrite 0 0x100000 (s.wgRecord w) with | .ok _ => true | _ => false) = true := by decide +kernel
/-- A saved workgroup whose phase, at a G address, has advanced. -/
theorem test_swap_can_resume :
    let s := dispatch 1 id fun s => { s with
      dram := s.dram ++ cells 0x8000 [1], wgs := []
      away := s.wgs.map fun w => { w with saving := true, groups := w.groups.map fun g => { g with wait := .phase false 0x8000 0 true false none 0 } } }
    (match s.away.find? (fun w => w.isOf 0 1 0 && w.saving && w.retryAt ≤ s.now) with
      | some w => (match w.groups with
        | g :: _ => (match s.awaited w g with | some (true, _) => true | _ => false)
        | [] => false)
      | none => false) = true := by decide +kernel
theorem test_bank_can_return :
    let s : State := { State.reset.setCluster 63 { State.reset.cluster 63 with
      modes := (State.reset.cluster 63).modes.setIfInBounds 63 (.scratch (some 0)) } with now := 40000 }
    ((s.cluster 63).modes[63]?.getD .cache == .scratch (some 0) && !s.bankUsed 63 63) = true := by decide +kernel
/-- A deck of 64 items, and one of a single item that has waited 2 µs. -/
theorem test_bucker_can_form :
    ([64, 1].all fun n =>
      let it : Item := { a := 0, b := 0, c := 0, at_ := 0 }
      let s : State := { deckState 64 with now := 8000 }
      let s := s.modDeck 0 1 0 fun d => { d with items := List.replicate n it }
      (s.deckOf 0 1 0).any fun d => if n = 64 then decide (64 ≤ d.items.length) else d.items == [it]) = true := by decide +kernel
theorem test_termination_can_be_taken :
    let s := at_ 64 id fun s => (s.setCol 0 { s.col 0 with epoch := 1 }).modWg me fun w => { w with ending := some { epoch := 0, records := [0] } }
    ((s.findWg { ctx := 0, lnum := 1, wg := 0 }).any fun w => w.ending.isSome && (s.col 0).confirmed 0 && !(s.col 0).rolling &&
      w.groups.all fun g => g.retired.isSome || !g.midway) = true := by
  decide +kernel
/-- A launch whose last workgroup has gone, and a graph closed with no work left: their objects can be written. -/
theorem test_units_can_complete :
    (let s := dispatch 0 (fun l => { l with nextWg := 2, desc := { l.desc with compl := 0x8000 } }) id
     (match s.launches.find? (fun l => l.ctx == 0 && l.desc.compl == 0x8000 && s.launchDue l) with
      | some l => (match s.advanceObject 0 l.lnum 0x8000 with | some (true, _) => true | _ => false)
      | none => false)) = true ∧
    (let s := dispatch 0 id fun s => { s with launches := [], units := [{ kind := .graph, ctx := 0, object := 0x8000, inPhase := 0, closed := true
                                                                          cancelled := false, status := .running }] }
     (match s.units.find? (fun u => u.ctx == 0 && u.object == 0x8000 && s.unitDue u) with
      | some u => u.kind != .job && (match s.advanceObject 0 0 0x8000 with | some (true, _) => true | _ => false)
      | none => false)) = true := by decide +kernel

/-- A fault that waits for its trap table entry, which is read. -/
theorem test_trap_can_be_delivered :
    let f : FaultInfo := { cause := .softwareTrap, resume := 0x100C }
    let s := flow fun g => { g with trapb := 0x2001, wait := .fault f }
    standing s (fun w g => g.wait == .fault f && !f.cause.resumable && !g.handler && g.trapb.getLsbD 0 &&
      match s.resolve 0 w.core g.xf (bits g.trapb.toNat 47 11 * 2048 + 8 * f.cause.code) 8 .read with
      | .ok [(.mem l _, 8)] => readable? s (some 0) l 8 && leNat (s.colRead 0 l 8) == 0x1000
      | _ => false) = true := by decide +kernel
/-- A fault that a host resumes waits for room for its record. -/
theorem test_park_can_be_delivered :
    let f : FaultInfo := { cause := .notPresent }
    let s := flow fun g => { g with wait := .fault f }
    standing s (fun w g => g.wait == .fault f && f.cause.resumable && s.recRoom (columnOf w.core)) = true := by decide +kernel
/-- The same where the trap table lies at endpoint 3, which has answered with the entry. -/
theorem test_trap_can_be_delivered_from_a_peer :
    let k : FaultInfo := { cause := .softwareTrap, resume := 0x100C }
    let a : PeerAsk := { fep := 3, pctx := 5, pa := 0x2058, len := 8, op := .read }
    let s := flow fun g => { g with trapb := 0x2001, wait := .fault k, got := [{ ask := a, bytes := some (leBytes 8 0x1000) }] }
    let s := { s with tlb := s.tlb.map fun x => { x with peer := some (3, 5) } }
    standing s (fun w g => g.wait == .fault k && !g.handler && g.trapb.getLsbD 0 &&
      s.resolve 0 w.core g.xf (bits g.trapb.toNat 47 11 * 2048 + 8 * k.cause.code) 8 .read == .ok [(.peer 3 5 0x2058 0, 8)] &&
      (g.got.find? fun x => x.ask == a).any fun x => x.bytes == some (leBytes 8 0x1000)) = true := by decide +kernel
/-- The three counts of the watchdog at their limits, of a workgroup that is to be saved and of one that is not. -/
theorem test_watchdog_can_expire :
    ([(Wait.fifo .vin 0, 1, 400000, 0, 0, Cause.watchdogWait), (.fifo .vin 0, 0, 0, 2000000000, 0, .watchdogPeer),
      (.none, 65536, 0, 0, 4000000, .watchdogRun)].all fun p => [false, true].all fun saving =>
      let s := (flow fun g => { g with trapb := 0x2001, wait := p.1, wdog := BitVec.ofNat 32 p.2.1, waitCnt := p.2.2.1, hold := p.2.2.2.1
                                       runCnt := p.2.2.2.2.1 }).modWg me fun w => { w with saving }
      standing s fun w g => w.ending == none && w.toFill == 0 && w.saving == saving && trapReady s me w g p.2.2.2.2.2 &&
        match p.2.2.2.2.2 with
        | .watchdogWait => g.wait.counted && bits g.wdog.toNat 15 0 == 1 && decide (400000 ≤ g.waitCnt)
        | .watchdogPeer => g.wait.counted && decide (2000000000 ≤ g.hold)
        | _ => g.wait.stalls && bits g.wdog.toNat 31 16 == 1 && decide (4000000 ≤ g.runCnt)) = true := by decide +kernel

/-! ### Power, peers, links -/

/-- A well-formed packet. -/
def packet (ch : BitVec 8) (op : BitVec 8) (payload : List Byte) : Packet :=
  { ver := 1, op, rsv1 := 0, status := 0, rsv0 := 0, ch, len := BitVec.ofNat 16 payload.length, tag := 7, seq := 1, payload }

theorem test_power_steps_can_be_taken :
    (decide (State.reset.nextClear ≤ ({ State.reset with now := 40000 } : State).now)) = true ∧
    (readingOf [⟨0, 0, 100⟩, ⟨0, 1, 111⟩] 0 0 == some 100 && readingOf [⟨0, 0, 100⟩, ⟨0, 1, 111⟩] 0 1 == some 111 &&
      decide (10 * 100 < 9 * 112) && (State.reset.col 0).limU == 4 && readingOf [⟨0, 0, 100⟩] 31 0 == none) = true ∧
    ([none, some (100, 120)].all fun cur =>
     let s := (State.reset.setCore 64 { Core.reset with gate := .requested }).setCol 0 { State.reset.col 0 with cur }
     isUpper 64 && (s.col (columnOf 64)).cur == cur && (s.core 64).gate == .requested && !(s.col (columnOf 64)).rolling && s.coreEmpty 64 &&
      (s.core (lowerOf 64)).up.entries.isEmpty && (s.core (lowerOf 64)).down.entries.isEmpty) = true ∧
    (let s := colState (fun k => { k with gateReq := true }) id
     (s.col 0).gateReq && !(s.col 0).gated && !(s.col 0).rolling && (coresOf 0).all (fun n => s.coreEmpty n && s.fifosEmpty n && (s.core n).y.toList.all (·.isEmpty)) &&
      !s.admitted (fun l _ => locColumn l == some 0)) = true ∧
    (let s := (State.reset.setCore 64 { Core.reset with gate := .waking 80000 })
     (s.core 64).gate == .waking 80000) = true := by decide +kernel
/-- A front workgroup for which only the balance of the column's tiers leaves no core 64: its upper tier, as measured, has all of the current. -/
theorem test_balance_can_refuse :
    let s := dispatch 1 id id
    let t := s.setCol 0 { s.col 0 with cur := some (0, 1000), curOf := s.residents 0 }
    t.balanceRefuses 0 true = true ∧ t.balanceRefuses 0 false = false ∧ t.gateWaits 0 = false ∧ (t.col 0).limU ≠ 0 := by
  intro s t
  let tight (x : Cand) : Bool := (t.fit x false 64).isSome &&
    decide (t.tierCount 0 true + x.ngroups ≤ (t.col 0).limU ∧ t.colCount 0 + x.ngroups ≤ (t.col 0).limL + (t.col 0).limU)
  obtain ⟨x, hx, hf⟩ : ∃ x ∈ t.fronts, tight x && decide (0 < x.ngroups) = true := by
    have h : t.fronts.any (fun x => tight x && decide (0 < x.ngroups)) = true := by decide +kernel
    simpa [List.any_eq_true] using h
  have hp : t.predicted 0 = some (0, 1000) := by decide +kernel
  have hb : t.balanceAllows 64 x.ngroups = false := by
    have h0 : (t.residents 0).isEmpty = false := by decide +kernel
    have h1 : t.tierCount 0 true = 1 := by decide +kernel
    have h2 : t.tierCount 0 false = 0 := by decide +kernel
    simp only [State.balanceAllows, show columnOf 64 = 0 from rfl, hp, show isUpper 64 = true from rfl, within, h0, h1]
    simp
    omega
  refine ⟨?_, by decide +kernel, by decide +kernel, by decide +kernel⟩
  · simp only [State.balanceRefuses, List.any_eq_true]
    refine ⟨x, hx, 64, by decide +kernel, ?_⟩
    simp only [tight, Bool.and_eq_true] at hf
    simp only [hb, Bool.not_false, Bool.true_and, if_true, Bool.and_eq_true]
    exact hf.1
/-- A gate that waits because its lower tier would then have all of the current, with nothing refused. -/
theorem test_gate_can_wait :
    let s := (State.reset.setCore 64 { Core.reset with gate := .requested }).setCol 0 { State.reset.col 0 with cur := some (100, 0) }
    s.gateWaits 0 = true ∧ s.balanceRefuses 0 true = false ∧ (s.col 0).limL ≠ 0 := by
  intro s
  refine ⟨?_, by decide +kernel, by decide +kernel⟩
  simp only [State.gateWaits, List.any_eq_true]
  refine ⟨64, by decide +kernel, ?_⟩
  have hp : s.predicted 0 = some (100, 0) := by decide +kernel
  have hg : (s.core 64).gate = .requested := by decide +kernel
  simp [hg, State.gateAllows, within, hp, show columnOf 64 = 0 from rfl, show isUpper 64 = true from rfl]
/-- A group whose times are set anew where the droop mode of its column changes. -/
theorem test_times_can_be_rescaled : ((State.reset.placeWord 0).group? me).any (fun p => decide (p.1.placedAt ≤ p.2.nextAt)) = true := by decide +kernel
/-- Each TOL where the lowest state changes; each state from which a command wakes the device. -/
theorem test_device_can_sleep_and_wake :
    ([2, 199, 200, 19999, 20000].all fun tol =>
      let s : State := { State.reset with idleSince := some 0, now := 40000, power := { tol } }
      s.idleSince == some 0 && s.pstate == .d0 && s.idle && decide (2 ≤ s.power.tol)) = true ∧
    ([Power.d1, .d2, .d3].all fun p =>
      let s : State := { State.reset with pstate := p }
      let s := s.setChan 64 { s.chan 64 with queue := [packet 64 0x24 []] }
      s.pstate == p && s.called == none && (s.chans.toList.any fun c => !c.queue.isEmpty) &&
      (({ s with boot := 2 } : State).receive (packet 0 0x08 [])).called == some 0) = true ∧
    (({ State.reset with pstate := .waking 8000, now := 8000 } : State).pstate == .waking 8000) = true := by decide +kernel
/-- A trip with and without an event; a droop mode 2 µs clear; a fifteenth and a sixteenth replay within 1 µs. -/
theorem test_droop_can_start_and_end :
    ([(true, 1), (false, 0), (false, 2)].all fun p =>
      let s := colState (fun k => { k with droop := p.1 }) fun s => { s with power := { droop := p.2 } }
      if p.1 || p.2 = 0 then (s.col 0).droop || s.power.droop == 0 else !(s.col 0).droop && s.power.droop != 0) = true ∧
    (let s := colState (fun k => { k with droop := true, clearAt := some 0 }) fun s => { s with now := 8000 }
     (s.col 0).clearAt == some 0 && (s.col 0).droop && !(s.col 0).excursion) = true ∧
    ([14, 15].map (fun n =>
      let s := State.reset.setCore 255 { Core.reset with replays := List.replicate n 0 }
      (((s.core 255).replays.filter fun t => s.now < t + 4000) ++ [s.now]).length) == [15, 16]) = true := by decide +kernel

/-- Context 0 has a peer table of two pages at 0x6000 whose second entry admits endpoint 3. -/
def peers : State :=
  { State.reset with ctxs := State.reset.ctxs.setIfInBounds 0 { State.reset.ctx 0 with desc := 0x1001 + (1 <<< 128) + (6 <<< 140) }
                     dram := cells 0x6010 (leBytes 16 (2 ^ 63 + 3)) }
def ask (op : PeerOp) (fep : Nat := 3) : PeerAccess := { fep, ctx := 0, pa := 0x6000, len := 4, op, tag := 7 }
theorem test_peer_accesses_can_be_taken :
    ([(ask .ask, true), (ask (.write [1]), true), (ask .read, true), (ask (.atomic 0 .i32 1 0), true), (ask .read 4, false)].all fun p =>
      peers.admitsFrom p.1.ctx p.1.fep == some (p.2, peers) && !peers.heldOff none ⟨.dram, 0x6000⟩ 4 && readable? peers none ⟨.dram, 0x6000⟩ 4 &&
      (atomNew 0 .i32 0 1 0).isSome) = true := by decide +kernel
/-- A peer's steps on a barrier, a ring and a semaphore of system scope here, and an access beyond DRAM. -/
theorem test_peer_object_steps_can_be_taken :
    ([(PeerOp.arrive 1, leBytes 16 (barNew 6 false 2)), (.land 256, leBytes 16 (barNew 6 false 1 + 256 * 2 ^ 64)),
      (.add 256, leBytes 16 (barNew 6 true 0)), (.release, leBytes 32 (256 * 2 ^ 64 + 2 ^ 128 + 2 ^ 160 + 2 ^ 192)), (.semaphore true (2 ^ 31 - 1), leBytes 8 (6 * 2 ^ 61)),
      (.semaphore false 15, leBytes 8 (6 * 2 ^ 61 + 15))].all fun p =>
      let s : State := { peers with dram := peers.dram ++ cells 0x8000 p.2 }
      let a : PeerAccess := { ask p.1 with pa := 0x8000 }
      let v := leNat (s.bytesAt ⟨.dram, a.pa⟩ p.2.length)
      s.admitsFrom a.ctx a.fep == some (true, s) && readable? s none ⟨.dram, a.pa⟩ p.2.length && match p.1 with
      | .arrive n => barScope v == 6 && (barArrive v n).isSome
      | .land n => barScope v == 6 && (barLand v n).isSome
      | .add n => bytesFit (barBytes v + n)
      | .release => ringN v != 0 && ringR v != ringW v
      | .semaphore up n => semScope v == 6 && decide (n < 2 ^ 31) && (if up then decide (semCount v + n < 2 ^ 31) else decide (n ≤ semCount v))
      | _ => false) = true ∧
    (let ring := 0x8100 + 0x8040 * 2 ^ 64 + 256 * 2 ^ 128 + 2 ^ 160
     let s : State := { peers with dram := peers.dram ++ cells 0x8000 (leBytes 32 ring) ++ cells 0x8040 (leBytes 16 (barNew 6 true 0)) }
     let v := leNat (s.bytesAt ⟨.dram, 0x8000⟩ 32)
     s.admitsFrom 0 3 == some (true, s) && readable? s none ⟨.dram, 0x8000⟩ 32 && readable? s none ⟨.dram, 0x8040⟩ 16 && v == ring && ringN v != 0 &&
      decide (ringUsed v < ringN v) && bytesFit (barBytes (leNat (s.bytesAt ⟨.dram, 0x8040⟩ 16)) + ringSize v)) = true ∧
    (peers.admitsFrom 0 3).isSome = true ∧ dramEnd ≤ ({ ask .ask with pa := dramEnd } : PeerAccess).pa := by decide +kernel
theorem test_peer_writes_and_copies_can_end :
    let x : Writer := { r := me, core := 64, tid := 0, iaddr := 0, lane := none }
    let p : OutPkt := { deps := [], ctx := 0, lnum := 1, kind := .peerWrite 3 0 0 [1] x }
    let s : State := { State.reset with peerWrites := [p], peerCopies := [{ tower := 0, fep := 3, line := 0, at_ := 0, bytes := [] }], now := 8000 }
    let o : OutPkt := { p with kind := .peerObj { fep := 3, pctx := 5, pa := 0, len := 16, op := .land 1 } x }
    let s : State := { s with peerSteps := [o] }
    (s.peerWrites[0]? == some p && (lostPeerWrite p.kind).isSome && s.peerSteps[0]? == some o && !s.awaitsAnswer o.kind && s.peerCopies[0]? == some { tower := 0, fep := 3, line := 0, at_ := 0, bytes := [] }) = true := by
  decide +kernel
/-- A read in flight and a lane of an atomic that a peer refuses, in a state whose first write awaits its acknowledgement. -/
theorem test_peer_reads_can_be_refused :
    let q : AtomReq := { op := 0, ty := .i32, sc := .system, near := false, red := false, got := [], vec := true, dst := some 9, token := none
                         lanes := [{ lane := 63, loc := ⟨.dram, 0x4000⟩, peer := some (3, 5), arg := 1, new := 0 }] }
    let p : Pend := { vec := true, first := 9, n := 1, token := none, iaddr := 0, mstep := 0, epoch := 0
                      lanes := [(0, .peer [.there 3 5 0x4000 4] .i32)] }
    ([(Wait.none, [p], PeerRead.asked me 0), (.atomic q, [], .atomic me 0)].all fun c =>
      let s := memory (fun g => { g with wait := c.1, pend := c.2.1 }) id
      standing s fun w g => s.peerReads[0]? == some c.2.2 && match c.2.2 with
        | .asked r k => (s.peerReply r k none).isSome && (s.questions me w g).isEmpty && g.pendAsks[0]? == some (0, 0, 0, .there 3 5 0x4000 4)
        | .atomic r k => (q.alive g.live).lanes[k]? == q.lanes[0]? && (s.atomicPerform r k []).isSome
        | _ => false) = true := by decide +kernel
/-- Port 15 alone reaches endpoint 3. -/
def linked (f : Port → Port) : State :=
  ({ State.reset with ports := State.reset.ports.map fun p => { p with reach := some [] } } : State).setPort 15 (f { Port.reset with reach := some [3] })
theorem test_link_steps_can_be_taken :
    ([4, 2].all fun n => let s := linked fun p => { p with lanes := n }
      (s.port 15).link == .up && (s.port 15).lanes == n) = true ∧
    (let s : State := { linked fun p => { p with lanes := 4, quietSince := 0 } with now := 240000000000 }
     (s.port 15).link == .up && (s.port 15).mode == 0 && decide ((s.port 15).lanes < 8) && decide ((s.port 15).quietSince + 240000000000 ≤ s.now)) =
      true ∧
    (((linked fun p => { p with link := .retraining }).port 15).link == .retraining) = true ∧
    (let s : State := { linked fun p => { p with link := .recovery 0 } with now := 1999999999 }
     (s.port 15).link == .recovery 0 && decide (s.now < 0 + 2000000000)) = true ∧
    (let s : State := { linked fun p => { p with link := .recovery 0 } with now := 2000000000 }
     (s.port 15).link == .recovery 0 && !s.failedPeers.contains 3 && !(s.portsTo 3).isEmpty && (s.portsTo 3).all fun p => p.lost s.now) = true := by
  decide +kernel

/-! ### Commands of the host -/

/-- The common checks of a packet whose turn it is pass. -/
def headed? (s : State) (p : Packet) (stage1 : Bool) : Bool :=
  s.supply && !s.inReset && s.pstate == .d0 && (s.boot == 2 || s.boot == 1 && stage1) && p.ver == 1 && p.rsv1 == 0 && p.rsv0 == 0 &&
  p.status == 0 && p.len.toNat == p.payload.length
def performs? (s : State) (p : Packet) (stage1 : Bool) : Bool := s.turn p && headed? s p stage1
theorem performs_of_headed {s : State} {p : Packet} {lenOk : Prop} {stage1 : Bool} (h0 : s.turn p = true) (h : headed? s p stage1 = true)
    (hl : lenOk) : s.performs p lenOk stage1 := by
  simp only [headed?, Bool.and_eq_true, Bool.or_eq_true, beq_iff_eq, Bool.not_eq_true'] at h
  obtain ⟨⟨⟨⟨⟨⟨⟨⟨h1, h2⟩, h3⟩, h4⟩, h5⟩, h6⟩, h7⟩, h8⟩, h9⟩ := h
  exact ⟨h0, h1, h2, h3, h4, h5, h6, h7, h8, h9, hl⟩
theorem performs_of_check {s : State} {p : Packet} {lenOk : Prop} {stage1 : Bool} (h : performs? s p stage1 = true) (hl : lenOk) :
    s.performs p lenOk stage1 := by
  rw [performs?, Bool.and_eq_true] at h
  exact performs_of_headed h.1 h.2 hl
/-- Stage 2; context 0 exists, its tables map the first GiB. -/
def hosted (t : State → State := id) : State := t { dispatch 0 id id with boot := 2 }
/-- The packet heads its channel's queue. -/
def sent (p : Packet) (s : State := hosted) : State := s.setChan p.ch.toNat { s.chan p.ch.toNat with queue := [p] }
def takes (p : Packet) (stage1 : Bool) (s : State := hosted) : Bool := performs? (sent p s) p stage1

/-- A first line and a later one; the control region; DRAM's last bytes. -/
theorem test_host_accesses_can_be_taken :
    (let w := packet 0 0x01 (leBytes 8 0x50FF ++ [1, 2])
     takes w false && (hosted.ctx 0).valid && ((hosted.chan 0).prog == none) && !hosted.split &&
      match hosted.hostRange 0 .write (cut4k 0x50FF 2) with
      | .ok (ls, t) => (match cutLines ls with
        | (l, n) :: _ => n == 1 && !(t.begun w ls [1, 2]).heldOff none l n
        | [] => false)
      | _ => false) = true ∧
    (let r := packet 0 0x03 (leBytes 8 0x50FF ++ leBytes 4 4096)
     takes r false && match hosted.hostRange 0 .read (cut4k 0x50FF 4096) with
      | .ok (ls, t) => (match cutLines ls with
        | (l, n) :: _ => readable? (t.begun r ls []) none l n
        | [] => false)
      | _ => false) = true ∧
    (let w := packet 64 0x02 (leBytes 8 0xFF0000100000 ++ [1])
     let r := packet 64 0x04 (leBytes 8 0xFF0000100000 ++ leBytes 4 1)
     takes w false && takes r false && inControl 0xFF0000100000 1) = true ∧
    (let pa := dramEnd - 4
     let w := packet 64 0x02 (leBytes 8 pa ++ [1, 2, 3, 4])
     let r := packet 64 0x04 (leBytes 8 pa ++ leBytes 4 4)
     takes w false && takes r false && !inControl pa 4 && (hosted.chan 64).prog == none &&
      cutLines [(⟨.dram, pa⟩, 4)] == [(⟨.dram, pa⟩, 4)] &&
      !(hosted.begun w [(⟨.dram, pa⟩, 4)] [1, 2, 3, 4]).heldOff none ⟨.dram, pa⟩ 4 &&
      readable? (hosted.begun r [(⟨.dram, pa⟩, 4)] []) none ⟨.dram, pa⟩ 4) = true ∧
    ([0, 64].all fun c =>
      let g : Prog := { todo := [(⟨.dram, 0x5100⟩, 1)], data := [2] }
      let s := hosted fun s => s.setChan c { s.chan c with prog := some g }
      (s.chan c).prog == some g && !s.heldOff none ⟨.dram, 0x5100⟩ 1 && readable? s none ⟨.dram, 0x5100⟩ 1) = true := by decide +kernel

/-- Table 21.4: launch 33554431, no predecessor, graph 0x9000 in phase 0xA000. -/
def launchBytes : List Byte := leBytes 32 (0x1FFFFFF + 0x9000 * 2 ^ 160 + 0xA000 * 2 ^ 208) ++ descBytes
theorem test_launch_can_be_accepted :
    let p := packet 0 0x05 launchBytes
    let g := leNat (p.payload.take 32)
    let b := graphBlock g
    (takes p false && p.payload.length == 160 && (hosted.ctx 0).valid && descOk false (p.payload.drop 32) &&
      hosted.graphOk 0 g && hosted.unitAccepts 0 .graph b.gcompl && hosted.unitAccepts 0 .phase b.pcompl &&
      decide (hosted.pendingLaunches 0 < 4096) &&
      match readLaunch (State.portRead 0) (p.payload.drop 32) hosted with | .ok (some _, _) => true | _ => false) = true := by decide +kernel
/-- A parked group, named by a record of kind 1. -/
theorem test_resume_can_be_accepted :
    let p := packet 0 0x06 (leBytes 64 (1 + 2 ^ 32))
    let s := hosted fun s => { s with wgs := (flow fun g => { g with wait := .parked { cause := .notPresent } }).wgs }
    (takes p false s && p.payload.length == 64 && (recordKey (leNat (p.payload.take 64))).ctx == 0 &&
      (s.resumeAgent (recordKey (leNat (p.payload.take 64)))).isSome) = true := by decide +kernel
theorem test_context_commands_can_be_accepted :
    (let p := packet 0 0x07 (leBytes 8 0x8000)
     let s := hosted fun s => { s with launches := s.launches.map fun l => { l with desc := { l.desc with compl := 0x8000 } } }
     takes p false s && match s.unitAt 0 (leNat (p.payload.take 8)) with | some (.launch _) => true | _ => false) = true ∧
    ([(leBytes 8 0xFFFFFFFFF000 ++ leBytes 4 1), leBytes 12 0].all fun bs =>
      let p := packet 0 0x08 bs
      let n := leNat ((p.payload.drop 8).take 4)
      takes p false && p.payload.length == 12 && (hosted.chan 0).busy == none &&
        (n == 0 || decide (leNat (p.payload.take 8) / 4096 * 4096 + 4096 * n ≤ 2 ^ 48))) = true ∧
    ([InvalBy.channel 0 7 1, .group me].all fun b =>
      let v : Inval := { n := 4, ctx := 0, page := 0, pages := 0, by_ := b, marks := [] }
      let s := hosted fun s => { s with invals := [v] }
      (s.invals.find? fun v => v.n == 4) == some v && s.invalDone v) = true ∧
    (takes (packet 0 0x09 []) false && takes (packet 0 0x0A []) false) = true ∧
    (let b := 15 + 0xFFFF * 2 ^ 32 + 0xFFFFFFFF * 2 ^ 64 + 0xFFFFFFFFFFF0 * 2 ^ 128 + 2 ^ 200
     let p := packet 0 0x0B (leBytes 32 b)
     takes p false && bits b 255 201 == 0 && bits b 199 176 == 0 && bits b 127 96 == 0 && bits b 63 48 == 0 && bits b 31 4 == 0 &&
      bits b 175 128 % 16 == 0 && hosted.units.isEmpty) = true ∧
    (performs? { hosted with boot := 1 } (packet 64 0x0C (leBytes 4 0)) true) = true := by decide +kernel
theorem test_management_commands_can_be_accepted :
    (let p := packet 64 0x20 (63 :: leBytes 64 0x3001)
     takes p false && p.payload.length == 65 && hosted.quiet 63 && !(hosted.ctx 63).valid &&
      ({ Context.reset with desc := 0x3001 } : Context).valid && ({ Context.reset with desc := 0x3001 } : Context).inDram) = true ∧
    (let s := hosted fun s => { s with
        launches := s.launches.map fun l => { l with status := .clean, nextWg := 1, graph := 0x9000 }
        units := [{ kind := .graph, ctx := 0, object := 0x9000, inPhase := 0, closed := false, cancelled := false, status := .running }] }
     takes (packet 64 0x20 (0 :: leBytes 64 0x3001)) false s && s.quiet 0 && (s.ctx 0).valid && s.launches.any fun l => !l.live && l.parent.isNone) = true ∧
    ([300, 2200].all fun cap =>
      let b := 0xFFFF * 2 ^ 32 + cap * 2 ^ 20 + 0xFFF * 2 ^ 8 + 2 * 2 ^ 6 + 2 ^ 5
      let p := packet 64 0x21 (leBytes 8 b)
      takes p false && bits b 63 48 == 0 && bits b 4 0 == 0 && bits b 31 20 == cap && bits b 7 6 != 3) = true ∧
    ([[0, 64, 0], [0, 67, 1], [1, 31, 0], [1, 0, 1]].all fun bs => takes (packet 64 0x22 bs) false &&
      (bs[0]? != some 0 || isUpper (bs.getD 1 0).toNat)) = true ∧
    (takes (packet 64 0x23 [63, 48]) false && takes (packet 64 0x24 []) false &&
      takes (packet 64 0x25 [15, 2]) false && takes (packet 64 0x25 [15, 8]) false) = true ∧
    (let s := (linked id).setPort 15 { (linked id).port 15 with lanes := 8 }
     (s.port 15).link == .up && (s.port 15).lanes == 8) = true ∧
    (let s := hosted fun s => { s with launches := [], wgs := [] }
     takes (packet 64 0x26 (leBytes 2 0x8001)) false s && s.selftest == none && s.idle) = true ∧
    (({ State.reset with selftest := some (0x8001, 7, 1) } : State).selftest == some (0x8001, 7, 1)) = true ∧
    (takes (packet 64 0x27 (List.replicate 32 1)) true) = true := by decide +kernel
theorem test_boot_commands_can_be_accepted :
    let s : State := { State.reset with boot := 1 }
    (headed? s (packet 64 0x28 (leBytes 4 0 ++ List.replicate 4096 0)) true && takes (packet 64 0x29 []) true s && takes (packet 64 0x2A []) true s &&
      !s.fw.running && s.supply && !s.inReset && State.reset.boot == 0 && State.reset.supply && !State.reset.inReset) = true := by decide +kernel
/-- The turn of a chunk of firmware, whose 4,100 bytes no evaluation compares. -/
theorem test_chunk_has_its_turn (p : Packet) (hc : p.ch = 64) :
    (sent p { State.reset with boot := 1 }).turn p = true := by
  simp [State.turn, sent, State.chan, State.setChan, hc, State.reset, Channel.reset]

/-! ### Words of the spec -/

/-- Each word is written out from the fields the spec gives (Tables 7.4, 7.5, 7.6 and 7.10): STL 1, SET 7 and guards 0x7 where nothing is said. -/
theorem test_words_decode_first : ([
    -- BRDEC S21: OPC 0x07, D 0x95, A 0xFF, IMM32 0xFFFFFFF2 (Table 18.1)
    (0x07807700E00257FFFFFFFFC8, .brdec k0 { d := S 21, a := N, imm := 0xFFFFFFF2, z := 0 }),
    -- (!P1) BRA, line offset 0, slot 0: G1 0x9 (Table 18.1)
    (0x078097002003FFFC00000000, .bra { k0 with g1 := { neg := true, p := 1 } } { d := N, a := N, imm := 0, z := 0 }),
    -- BRM.nz V7: OPC 0x05, FN 1, A 0x07, IMM32 0xFFFFFFEB (17)
    (0x07807700A203FC1FFFFFFFAC, .brm (kF 1) { d := N, a := V 7, imm := 0xFFFFFFEB, z := 0 }),
    -- MOVI S21, 32: OPC 0x4F, D 0x95, A 0xFF, IMM32 0x20 (Table 18.1)
    (0x07807709E00257FC00000080, .movi k0 { d := S 21, a := N, imm := 0x20, z := 0 }),
    -- AND V1, ID.LANE, 3: OPC 0x50, A 0xE0, B 0xEB (Table 18.1)
    (0x0780770A00000783AFFFFC00, .and k0 (ops (V 1) (.ident .lane) (K 3))),
    -- POPC V3, V1, WAIT 0x03: OPC 0x5C (17)
    (0x0786770B80000C07FFFFFC00, .popc { k0 with wait := 3 } (ops (V 3) (V 1))),
    -- (P2 !P5) FFMA.f32 V8, V1, V2, V8: STL 6, WAIT 0x03, G1 0x2, G2 0xD, MC, X rtz (07 R165)
    (0x1B862D2C60E020040823FC01, .ffma { k0 with stl := 6, wait := 3, g1 := { neg := false, p := 2 }, g2 := { neg := true, p := 5 }, mc := true, ty := .f32 }
      (ops (V 8) (V 1) (V 2) (V 8) N 1)),
    -- CVT.bf16x2 V4, V3, V3: OPC 0x74, TY 0xB, X 0x01C (Table 18.1)
    (0x0780770E8160100C0FFFFC1C, .cvt (kT .bf16x2) (ops (V 4) (V 3) (V 3) N N 0x1C)),
    -- REDUCE.add.i32 S21, V13: OPC 0x34, TY 5, D 0x95, A 0x0D (17)
    (0x0780770680A25437FFFFFC00, .reduce (kT .i32) (ops (S 21) (V 13)))] : List (InstrWord × Instr)).all (fun p => decodeWord p.1 == some p.2 && (encode p.2 == some p.1)) = true := by decide +kernel
theorem test_words_decode_last : ([
    -- ISECT V7, V1, V2, e=M1: OPC 0xB8, E 0xC1 (17)
    (0x0780771700001C040BFF0400, .isect k0 (ops (V 7) (V 1) (V 2) N (M 1))),
    -- LD.g.i8 V11, V9, S0: OPC 0x80, TY 1, SET 0, B 0x80 (17)
    (0x0400771000202C2600000000, .ld { kT .i8 with set := 0 } { d := V 11, a := V 9, b := S 0, imm := 0, z := 0 }),
    -- ST.g.x2 V10, ID.THREAD, S0: OPC 0x81, FN 4, A 0xE1, IMM24 0x600000 (Table 18.1)
    (0x0780771028002B8601800000, .st (kF 4) { d := V 10, a := .ident .thread, b := S 0, imm := 0x600000, z := 0 }),
    -- VFREE.pushed S22, SET 1: OPC 0xA0, FN 3, D 0x96 (Table 18.1)
    (0x0480771406025BFFFFFFFC00, .vfree { kF 3 with set := 1 } (ops (S 22) N)),
    -- VPOP V4, e=P1, SET 0: OPC 0x9F, E 0xD9 (Table 18.1)
    (0x04007713E00013FFFFFF6400, .vpop { k0 with set := 0 } (ops (V 4) N N N (P 1))),
    -- (!P1) WAITPH.vin S22: OPC 0x95, FN 2, WAIT 0x02, G1 0x9, B 0x96 (Table 18.1)
    (0x07849712A403FFFE5BFFFC00, .waitphVin { kF 2 with wait := 2, g1 := { neg := true, p := 1 } } (ops N N (S 22))),
    -- MLOOP: OPC 0xB0 (Table 7.10), A S8, B S16, C S0, SET 1, X 1
    (0x048077160003FE224203FC01, .mloop { k0 with set := 1 } (ops N (S 8) (S 16) (S 0) N 1)),
    -- CSRX.clr: OPC 0xC2 (Table 7.10), FN 1, D S9, A S1, X 0x010
    (0x0780771842022607FFFFFC10, .csrxClr (kF 1) (ops (S 9) (S 1) N N N 0x10)),
    -- ATOMC.i64: OPC 0x87 (Table 7.10), TY 15, SC 5, CH 2, walker W7, MAP M13, LIVE and 0xFD read as Table 7.6 says
    (0x07807790E1F5FB5F373FF400, .atomc { kT .i64 with sc := .device, ch := .keep } (ops (V 126) (W 7) (M 13) (M 15) .signBit))] : List (InstrWord × Instr)).all (fun p => decodeWord p.1 == some p.2 && (encode p.2 == some p.1)) = true := by decide +kernel
/-- The line of Table 7.3: its bytes, its parity 0xEC and the slots' words. -/
theorem test_line_of_table_7_3 :
    let line : List Byte := [0x00, 0xFC, 0xFF, 0x0B, 0x04, 0x0C, 0xA0, 0x00, 0x08, 0x77, 0x80, 0x13,
      0x00, 0xFC, 0xFF, 0xCB, 0x0F, 0x10, 0xA0, 0x20, 0x08, 0x77, 0x80, 0x07] ++
      (List.replicate 3 [0x00, 0xFC, 0xFF, 0xFF, 0xFF, 0xFF, 0x03, 0x00, 0x00, 0x77, 0x80, 0x07]).flatten ++ [0xEC, 0x00, 0x00, 0x08]
    (parityOk line && lineReservedOk line && tgtBit line 0 && !tgtBit line 1 && slotWord line 0 == 0x1380770800A00C040BFFFC00 &&
      slotWord line 1 == 0x0780770820A0100FCBFFFC00 && slotWord line 4 == 0x078077000003FFFFFFFFFC00 &&
      !parityOk (line.set 5 0x0D) && !lineReservedOk (line.set 61 1)) = true := by decide +kernel
/-- Unassigned opcodes are rejected: 0x12, 0x37, 0x7F, 0xA4, 0xBC and 0xCA to 0xFF (07 R166). -/
theorem test_unassigned_opcodes_are_rejected :
    ([0x12, 0x1F, 0x37, 0x3F, 0x77, 0x7F, 0xA4, 0xAF, 0xBC, 0xBF, 0xCA, 0xD0, 0xFF].all fun c =>
      match decode (leBytes 12 (0x078077000003FFFFFFFFFC00 + c * 2 ^ 61)) with | .error .illegalOpcode => true | _ => false) = true := by
  decide +kernel
/-- A LAUNCH packet's header as Table 21.1 lays it out: VER, OP, reserved, STATUS, reserved, CHAN, LEN, TAG and CSEQ. -/
theorem test_packet_header_is_read :
    packetOf ([1, 0x05, 0, 0, 0, 63, 160, 0, 0x78, 0x56, 0x34, 0x12, 2, 0, 0, 0] ++ [9]) =
      some { ver := 1, op := 5, rsv1 := 0, status := 0, rsv0 := 0, ch := 63, len := 160, tag := 0x12345678, seq := 2, payload := [9] } := by
  decide +kernel

/-! ### Ill-formed terms -/

/-- Each word check of 07 R168 refuses a term: SET 6, SC 7, the reserved specifier, an unused field that names something, bits [1:0] of formats I
and M, X bits no form defines, CH on a form that takes no hint, a branch slot of 5, IMM32 bits of TRAP and CSRR, a tile command at system
scope, an FN and a TY not defined, an operand class not admitted, an odd pair, and two destinations of one name. -/
theorem test_ill_formed_words :
    ([.nop { k0 with set := 6 } (ops N N), .nop { k0 with sc := .rsv } (ops N N), .iadd (kT .i32) (ops (V 3) .rsv (V 2)),
      .nop k0 (ops (V 0) N), .movi k0 { d := V 1, a := N, imm := 0, z := 1 }, .ld k0 { d := V 1, a := V 2, b := S 0, imm := 0, z := 2 },
      .iadd (kT .i32) (ops (V 3) (V 1) (V 2) N N 1), .iadd { kT .i32 with ch := .keep } (ops (V 3) (V 1) (V 2)),
      .bra k0 (offs 5), .trap k0 (offs 65536), .csrr k0 { d := S 1, a := N, imm := 4096, z := 0 },
      .tld { k0 with sc := .system } (ops N (K 0) (S 4) (S 16) (S 8) 8), .idiv (kT .i32 1) (ops (V 3) (V 1) (V 2)),
      .idiv (kT .f32) (ops (V 3) (V 1) (V 2)), .iadd (kT .i32) (ops (M 3) (V 1) (V 2)), .iadd (kT .i64) (ops (V 3) (V 2) (V 4)),
      .icmp (kT .i32) (ops (M 1) (V 1) (K 0) N (M 1)), .mov k0 (ops (M 14) (V 1))] : List Instr).all (fun i => !i.wf) = true := by decide +kernel
/-- A constructor that another row's FN, CSR number or OP selects, and steps of a core, column, stand, port, channel and deck that do not exist. -/
theorem test_ill_formed_rows_and_steps :
    ([.brxAbs (kF 1) (ops N (S 2)), .msetFirst (kF 0) (ops (M 1) (S 1)), .csrw k0 { d := N, a := S 1, imm := 0x11, z := 0 },
      .srseedWrite k0 { d := N, a := S 1, imm := 0x30, z := 0 }, .launch (packet 0 0x06 []), .tileStep { core := 256, q := 0 },
      .tileStep { core := 0, q := 5 }, .epochEnd 32, .placement 256, .jointStart 8, .laneShed 16 4, .laneShed 0 8, .connectionReestablished 65,
      .bankReturnTimeout 64 0, .buckerFullGroup 0 0 4] : List Instr).all (fun i => !i.wf) = true := by decide +kernel

/-! ### Premises of the statements about steps, checks and memory -/

/-- The first step after withFetchWord: NOP, a word of an unassigned opcode, and one of a macro body. -/
theorem test_step_runs_the_word :
    let s (w : Nat) : State := State.reset.withFetchWord 96 w
    (match (s 0x078077000003FFFFFFFFFC00).begin with | .run i t => i == .nop k0 (ops N N) && t.cur == some me | _ => false) = true ∧
    (match (s (0x078077000003FFFFFFFFFC00 + 0x12 * 2 ^ 61)).begin with | .done _ => true | _ => false) = true ∧
    ([Move.event (.epochEnd 0), .eventSteps (.placement 64)].all fun m => ({ State.reset with moves := [m] } : State).alive &&
      ({ State.reset with moves := [m] } : State).due.isNone) = true ∧
    (let u := s 0
     let u : State := { u with moves := [], launches := u.launches.map fun l => { l with macros := [[0x078077000003FFFFFFFFFC00, 0]] } }
     let t := u.modGroup me fun g => { g with mcall := some (0, 0) }
     [u, t, bySteps true u].all fun s => s.supply && !s.inReset && s.due.isNone && s.regroupReady 64 == none && (s.candidates 64 0).length == 1 &&
      (s.candidates 64 0).all fun p => p.2.pc == 0x1000 && p.2.rstep == 0 && !p.2.entry && slotAligned 0x1000 &&
        p.2.lines.any fun l => l.addr == lineOf 0x1000 && l.checked) = true := by decide +kernel
/-- A lane's step of a load, the last one of a store, and the last one of a load whose other lane has been read. -/
theorem test_lane_steps_can_be_taken :
    let step (a : Nat) : LaneStep := { lane := a, ps := [(.mem ⟨.dram, 0x4000 + 4 * a⟩ 0, 4)], data := [1, 2, 3, 4], regs := [] }
    ([(LaneKind.load .i32, [step 0, step 63], 1, []), (.store false, [step 63], 0, []), (.load .i32, [step 63], 0, [(0, Got.mk [.here [0, 0, 0, 0]] none)]),
      (.acc, [step 0, step 63], 1, []), (.scale false 0, [step 0, step 63], 1, []), (.scale true 0, [step 63], 0, [])].all
      fun c =>
      let q : LaneReq := { kind := c.1, hint := .normal, todo := c.2.1, got := c.2.2.2, regs := [], vec := true, dst := 9, n := 1, token := none }
      let s := memory (fun g => { g with wait := .lanes q }) fun s => { s with moves := [] }
      s.alive && s.due.isNone && standing s fun w g => g.wait == .lanes q && (q.todo.all fun b => g.live.getLsbD (b.lane % 64)) &&
        (s.launchOf me.ctx me.lnum).all (fun l => !l.cancelled) && (s.readLane 64 .none (step 63).ps {}).1.bad == none &&
        (q.todo[c.2.2.1]?).any fun a => a.lane == 63 && !q.waits c.2.2.1 a && !s.anyHeld w.core [(a.lane, a.ps)] &&
          s.roomFor (columnOf w.core) [(a.lane, a.ps)] && readable? s (some (columnOf w.core)) ⟨.dram, 0x40FC⟩ 4) = true := by decide +kernel
/-- An epoch whose end is due, one whose confirmation is, and a moment at which nothing is due and time may pass. -/
theorem test_times_fall_due :
    (let s := colState id fun s => { s with now := 512 }
     s.alive && s.due.isSome && decide ((s.col 0).start + 512 ≤ s.now)) = true ∧
    (let s := colState (fun k => { k with epoch := 1, start := 512, ended := [(0, 512)] }) fun s => { s with now := 913 }
     s.alive && s.due.isSome) = true ∧
    (let s := at_ 64 (fun g => { g with wdog := 0x10001, runCnt := 4000000 }) id
     s.alive && s.due.isSome && s.wgs.all fun w => w.runs && w.groups.all fun g => g.retired.isNone && w.refOf g == me && s.group? me == some (w, g) &&
      !(s.col (columnOf w.core)).rolling && g.wait.stalls && bits g.wdog.toNat 31 16 == 1) = true ∧
    (let s : State := { State.reset with moves := [.tick 1000], peerCopies := [{ tower := 0, fep := 3, line := 0, at_ := 0, bytes := [] }] }
     s.alive && s.due.isNone && match step s with | .next t => t.now == 512 | _ => false) = true := by decide +kernel
/-- A vector add that reads a walker; its lanes' elements lie in DRAM. A walker that is done, and one at each of its ends. -/
theorem test_walker_words_issue :
    let k : Walker := { base := 0x4000, ty := .i32, n := #v[100, 2, 3, 4], i := #v[64, 0, 0, 0], stride := #v[400, 800, 2400], eod := 0, done := false, ch := .normal }
    let i : Instr := .iadd (kT .i32) (ops (V 9) (W 5) (V 2))
    let s := memory (fun g => g.setW 5 k) id
    (match s.group? me, viewForm i with
      | some (w, g), some (v, f) => staticFault true g.handler 128 v f == none && ((walkersRead v f).map (·.val)).eraseDups == [5] && !s.split &&
          g.wgot == [] && g.met == {} && g.guards v.c && !(g.markWaited v.c).stallShort (g.named v f ++ guardRegs v.c) && g.live != 0 &&
          accessOk (s.laneAccess me w (g.markWaited v.c) 0 .read ((lanesOf (g.rmap v f)).filterMap fun l => ((g.walker 5).elem l).map fun a =>
            (l, a, tyBytes (g.walker 5).ty))) fun as => as.length == 36 && as.all fun p => p.2.all fun q => match q.1 with
              | .mem l _ => readable? s (some 0) l q.2 && (s.cluster 16).badWords l q.2 == []
              | .peer .. => false
      | _, _ => false) = true ∧
    ([(#v[0, 0, 0, 0], false, 0), (#v[64, 0, 0, 0], false, 1), (#v[64, 1, 0, 0], false, 3), (#v[64, 1, 2, 0], false, 7), (#v[64, 1, 2, 3], true, 15)].all fun p =>
      let x := ({ k with i := p.1 } : Walker).advance
      x.done == p.2.1 && x.eod.toNat == p.2.2) = true ∧ (({ k with done := true } : Walker).elem 0 == none) = true := by decide +kernel
/-- A pipe that is free, and one that a group of the scheduler occupies longer. -/
theorem test_pipes_open_and_not :
    let s (t : Nat) := at_ 64 (fun g => { g with pipes := [(.v, t)] }) id
    ∃ w g v f, viewForm (.iadd (kT .i32) (ops (V 9) (V 1) (V 2))) = some (v, f) ∧ (s 0).group? me = some (w, g) ∧ (s 0).pipeOpen w g v f false ∧
      ∃ w' g', (s 8).group? me = some (w', g') ∧ ¬ (s 8).pipeOpen w' g' v f false := by
  intro s
  refine ⟨_, _, _, _, rfl, rfl, .inr ?_, _, _, rfl, fun h => ?_⟩
  · decide +kernel
  · rcases h with h | h
    · exact absurd h.2.2 (by decide +kernel)
    · exact absurd h (by decide +kernel)
/-- A vector add passes every check; each check that stops a word stops one. -/
theorem test_checks_pass_and_stop :
    let i : Instr := .iadd (kT .i32) (ops (V 9) (V 1) (V 2))
    let first (f : Group → Group) (i : Instr) (p : Group → View → Form → Nat → Bool) : Bool :=
      let s := at_ 64 f id
      match s.group? me, viewForm i with
      | some (w, g), some (v, fm) => p g v fm (s.col (columnOf w.core)).cyc
      | _, _ => false
    let ok (g : Group) (v : View) (f : Form) : Bool := staticFault true g.handler 128 v f == none
    (first id i fun g v f cyc => ok g v f && g.waitOk v.c && g.interlock 0 cyc (g.named v f ++ guardRegs v.c) == 0 && g.guards v.c &&
      g.setOk v.c && !(g.markWaited v.c).stallShort (g.named v f ++ guardRegs v.c) && g.vbad == [] && g.live != 0 && walkersRead v f == []) =
      true ∧
    (first id (.nop { k0 with set := 6 } (ops N N)) fun g v f _ => staticFault true g.handler 128 v f == some .reservedField) = true ∧
    (first (fun g => g.setTok 0 true) (.iadd { kT .i32 with wait := 1 } (ops (V 9) (V 1) (V 2))) fun g v f _ => ok g v f && !g.waitOk v.c) = true ∧
    (first (fun g => { g with ready := [(.p 0, 9)] }) (.iadd { kT .i32 with g1 := { neg := true, p := 0 } } (ops (V 9) (V 1) (V 2))) fun g v f cyc =>
      ok g v f && decide (0 < g.interlock 0 cyc (guardRegs v.c))) = true ∧
    (first id (.iadd { kT .i32 with g2 := { neg := true, p := 7 } } (ops (V 9) (V 1) (V 2))) fun g v f cyc =>
      ok g v f && g.waitOk v.c && g.interlock 0 cyc (guardRegs v.c) == 0 && !g.guards v.c) = true ∧
    (first (fun g => g.setTok 0 true) (.iadd { kT .i32 with set := 0 } (ops (V 9) (V 1) (V 2))) fun g v f _ =>
      ok g v f && g.waitOk v.c && g.guards v.c && !g.setOk v.c) = true ∧
    (first id (.iadd { kT .i32 with mc := true } (ops (V 9) (V 1) (V 8))) fun g v f _ => ok g v f && v.c.mc && g.mapsDiffer v f) = true ∧
    (first (fun g => { g with chk := true, hist := [{ regs := [.v 1], lat := some 4, stl := 1, token := none, waited := false }] }) i fun g v f _ =>
      ok g v f && (g.markWaited v.c).stallShort (g.named v f ++ guardRegs v.c)) = true := by decide +kernel
/-- An upper form on a lower core, a privileged one outside handler mode, and a sparse one. -/
theorem test_restricted_words_exist :
    (let s := at_ 0 id id
     (s.group? me).any (fun p => !isUpper p.1.core && !p.2.handler) && upperOnly (.mqstatFlags k0 (ops (S 1) N)) &&
      (match viewForm (.rft k0 (ops N N)) with | some (v, f) => privileged (.rft k0 (ops N N)) && reservedOk v f && variantOk v f | none => false) &&
      (viewForm (.isect k0 (ops (V 7) (V 1) (V 2) N (M 1)))).isSome) = true := by decide +kernel
/-- A result of fixed latency with a token that SET names (07 R161). -/
theorem test_results_take_tokens :
    issuesWith up (.iadd { kT .i32 with set := 0 } (ops (V 9) (V 1) (V 2))) (fun x => (match x.f.lat with | .fixed _ => true | _ => false) &&
      x.g.dsts x.v x.f != [] && x.g.rmap x.v x.f != 0 && !x.e.g.tokBusy 0) = true ∧
    issuesWith (at_ 64 (fun g => { g with v := g.v.setIfInBounds 1 [] }) id) (.iadd { kT .i32 with set := 0 } (ops (V 9) (V 1) (V 2)))
      (fun x => x.g.rmap x.v x.f == 0) = true := by decide +kernel
/-- A landing buffer of 2,048 blocks has no room for a record. -/
theorem test_landing_buffer_can_be_full :
    ((flow id).setCol 0 { (flow id).col 0 with
      lb := [{ epoch := 0, ctx := 0, lnum := 1, kind := .store ⟨.dram, 0⟩ (List.replicate 131072 1) }] }).recRoom 0 = false := by
  have hc : ∀ k : Column, ((flow id).setCol 0 k).col 0 = k := fun k => by simp [State.col, State.setCol]
  have he : (List.range 1).map (fun i => recordKeyOf ((flow id).col 0).epoch ((flow id).out.length + i)) = [recordKeyOf 0 0] := by decide +kernel
  simp only [State.recRoom, State.lbFits, hc, show ∀ k, ((flow id).setCol 0 k).out = (flow id).out from fun _ => rfl, he, Bool.or_eq_false_iff, decide_eq_false_iff_not, Nat.not_le]
  refine ⟨rfl, ?_⟩
  let blocks : List LbBlock := (List.range 2048).map fun i => (0, some (0, ⟨.dram, 64 * i⟩))
  have hn : (blocks ++ [recordKeyOf 0 0]).Nodup := by
    refine List.Nodup.append ?_ (List.nodup_singleton _) ?_
    · refine (List.nodup_map_iff_inj_on List.nodup_range).2 fun a _ b _ h => ?_
      simpa using h
    · simp [blocks, recordKeyOf]
  refine Nat.lt_of_lt_of_le (by simp [blocks]) (hn.subperm ?_).length_le
  intro x hx
  rw [List.mem_eraseDups]
  simp only [List.mem_append] at hx ⊢
  refine hx.imp (fun h => ?_) (fun h => ?_)
  · rw [State.lbKeys, List.mem_eraseDups]
    simp only [List.mem_append, hc]
    refine .inl (.inl ?_)
    obtain ⟨i, hi, rfl⟩ := List.mem_map.1 h
    simp only [Column.lbKeys, List.flatMap_cons, LbKind.range, blocks64, List.length_replicate, OfNat.ofNat_ne_zero, if_false, List.mem_append, List.mem_map]
    refine .inl ⟨_, ⟨i, by simpa using hi, rfl⟩, ?_⟩
    simp [Nat.mul_comm]
  · exact h
/-- Each way an exception ends: parked, in handler mode, no trap table, an entry of 0, an uncorrectable one, and one that is entered. -/
theorem test_exceptions_can_be_taken :
    (Cause.resumable .notPresent && !Cause.resumable .softwareTrap) = true ∧
    (flow id).recRoom 0 = true ∧
    ([(fun g : Group => { g with handler := true }), (fun g => { g with trapb := 0 })].all fun f =>
      standing (flow f) fun _ g => g.handler || !g.trapb.getLsbD 0) = true ∧
    ([(0x2001 : DWord), 0x3001, 0x2801].all fun tb =>
      let s := flow fun g => { g with trapb := tb }
      let s : State := if tb = 0x2801 then { s with bad := [⟨.dram, 0x2840⟩] } else s
      standing s fun _ g =>
        let s1 := (s.forget (.group me)).modGroup me fun k => k.faulted (.fault { cause := .softwareTrap })
        !g.handler && g.trapb.getLsbD 0 &&
        match s1.resolve 0 64 [] (bits g.trapb.toNat 47 11 * 2048 + 8 * Cause.code .softwareTrap) 8 .read with
        | .ok [(.mem l _, 8)] => !s1.heldOff (some 0) l 8 && (match s1.readAs 0 l 8 with
          | (b, bs, _) => b.isSome == (tb == 0x2801) && (b.isSome || leNat bs == (if tb = 0x2001 then 0x1000 else 0)))
        | _ => false) = true := by decide +kernel
/-- A word issues from slot 0, from slot 4 and from the two steps of a macro. -/
theorem test_words_go_on :
    ([(0x1000, none), (0x1030, none), (0x1000, some (0, 0)), (0x1000, some (0, 1))].all fun p =>
      let s := at_ 64 (fun g => { g with pc := BitVec.ofNat 64 p.1, mcall := p.2 }) fun s => { s with launches := s.launches.map fun l =>
        { l with macros := [[0x078077000003FFFFFFFFFC00, 0x078077000003FFFFFFFFFC00]] } }
      issuesWith s (.nop k0 (ops N N)) fun x => x.g.pc.toNat == p.1 && x.g.mcall == p.2 && (s.macrosOf 0 1).length == 1) = true := by decide +kernel
theorem test_words_store_nothing :
    (keepsMemory (.ld k0 { d := V 9, a := .ident .thread, b := S 2, imm := 0, z := 0 }) &&
      match exec (.ld k0 { d := V 9, a := .ident .thread, b := S 2, imm := 0, z := 0 }) (memory id id) with
      | .next _ => true | _ => false) = true := by decide +kernel
/-- Well-formed words, one of each format, that encode. -/
theorem test_words_encode :
    ([.iadd (kT .i32) (ops (V 3) (V 1) (V 2)), .brdec k0 { d := S 21, a := N, imm := 0xFFFFFFF2, z := 0 },
      .ld { kT .i8 with set := 0 } { d := V 11, a := V 9, b := S 0, imm := 0, z := 0 }] : List Instr).all (fun i =>
      i.wf && (viewForm i).isSome && (encode i).isSome && (encodeBytes i).isSome) = true ∧ viewForm (.tileStep ⟨0, 0⟩) = none := by decide +kernel
theorem test_stores_are_canonical :
    (State.reset.memOk && (memory id id).memOk && match step (State.reset.withFetchWord 96 0x078077000003FFFFFFFFFC00) with
      | .next t => t.memOk | _ => false) = true := by decide +kernel
/-- A provisional write to the column's own scratch, and a strike that undoes it. -/
theorem test_provisional_writes_can_be_undone :
    let s := State.reset
    let t := s.putProv 0 ⟨.sram, 0x800000 * 16⟩ [1, 2] false
    (s.memOk && !(s.col 0).rolling && !(s.col 0).gated && (s.col 0).undo == [] && locColumn ⟨.sram, 0x800000 * 16⟩ == some 0 &&
      locColumn ⟨.dram, 0⟩ != some 0 && match exec (.strikeReport (.column 0)) t with | .next u => (u.col 0).rolling && u.sram == [] | _ => false) =
      true := by decide +kernel
/-- A phase that advances, an arrival too many, a byte count out of range, and a landing that advances. -/
theorem test_barriers_step :
    let b := barNew 1 false 1
    (barLeft b == 1 && barBytes b == 0 && (barArrive b 0).isSome && (barArrive b (2 ^ 31)).isNone && (barLand b (2 ^ 31 + 1)).isNone &&
      ((barArrive b 64).bind fun v => barLand v 64).any fun v => barPhase v == 1 && barLeft v == 1) = true := by decide +kernel
theorem test_groups_can_start :
    (decide (0 < probeDesc.groups) && ((newWg { probeLaunch with desc := { probeDesc with groups := 2, n := 65 } } 0 0 64 0 0
      { base := 0, conv := [], fifo := [], slots := [(0, 0), (1, 0)] }).groups.map (·.live)) == [BitVec.allOnes 64, 1]) = true := by decide +kernel

/-! ### One step, calculated by hand -/

/-- S n after a word, with S1 = a, S3 = b. -/
def sca (i : Instr) (a b : Word) (n : Nat := 9) : Option Word :=
  let s := at_ 64 (fun g => (g.setS 1 a).setS 3 b) id
  match exec i s with | .next t => (t.group? me).map fun p => p.2.sreg n | _ => none
/-- Lane l of V n after a word on the test group. -/
def vec (i : Instr) (n l : Nat) (s : State := up) : Option Word :=
  match exec i s with | .next t => (t.group? me).bind fun p => vget? (p.2.vreg n) l | _ => none

/-- 09 R196-R205: wraps, saturation, division corners, shifts of the full width, bit fields. -/
theorem test_integer_results :
    sca (.iadd (kT .i32) (ops (S 9) (S 1) (S 3))) 0x7FFFFFFF 1 = some 0x80000000 ∧
    sca (.isub (kT .i8x4) (ops (S 9) (S 1) (S 3))) 0x00FF0080 0x01010101 = some 0xFFFEFF7F ∧
    sca (.imulh (kT .ui32) (ops (S 9) (S 1) (S 3))) 0xFFFFFFFF 0xFFFFFFFF = some 0xFFFFFFFE ∧
    sca (.idiv (kT .i32) (ops (S 9) (S 1) (S 3))) 0x80000000 0xFFFFFFFF = some 0x80000000 ∧
    sca (.idiv (kT .i32) (ops (S 9) (S 1) (S 3))) 0xFFFFFFF9 2 = some 0xFFFFFFFD ∧
    sca (.irem (kT .i32) (ops (S 9) (S 1) (S 3))) 0xFFFFFFF9 2 = some 0xFFFFFFFF ∧
    sca (.irem (kT .i32) (ops (S 9) (S 1) (S 3))) 7 0 = some 7 := by decide +kernel
theorem test_bit_results :
    sca (.and k0 (ops (S 9) (S 1) (S 3))) 0xF0F0F0F0 0xFF00FF00 = some 0xF000F000 ∧
    sca (.andn k0 (ops (S 9) (S 1) (S 3))) 0xF0F0F0F0 0xFF00FF00 = some 0x00F000F0 ∧
    sca (.popc k0 (ops (S 9) (S 1))) 0x80000001 0 = some 2 ∧
    sca (.clz k0 (ops (S 9) (S 1))) 0 0 = some 32 ∧
    sca (.ctz k0 (ops (S 9) (S 1))) 0x80000000 0 = some 31 ∧
    sca (.brev k0 (ops (S 9) (S 1))) 0x00000003 0 = some 0xC0000000 := by decide +kernel
/-- 09 R206-R213: 1 + 2, a product and sum rounded once, ties to even, 1 / 0, the square root of 4. -/
theorem test_float_results :
    sca (.fadd (kT .f32) (ops (S 9) (S 1) (S 3))) 0x3F800000 0x40000000 = some 0x40400000 ∧
    sca (.fadd (kT .f32) (ops (S 9) (S 1) (S 3))) 0x3F800000 0x33800000 = some 0x3F800000 ∧
    sca (.fmul (kT .f32) (ops (S 9) (S 1) (S 3))) 0xC0000000 0x40400000 = some 0xC0C00000 ∧
    sca (.fsub (kT .f32) (ops (S 9) (S 1) (S 3))) 0x3F800000 0x3F800000 = some 0 ∧
    sca (.fdiv (kT .f32) (ops (S 9) (S 1) (S 3))) 0x3F800000 0x00000000 = some 0x7F800000 ∧
    sca (.fsqrt (kT .f32) (ops (S 9) (S 1))) 0x40800000 0 = some 0x40000000 ∧
    sca (.ffma (kT .f32) (ops (S 9) (S 1) (S 3) (S 3))) 0x3F800001 0x3F800001 = some 0x40000002 := by decide +kernel
/-- 08 R185-R188: lane 5 of V1 holds 69; RESTRICT keeps the lanes of M0, MERGE takes V8 where it is occupied, else V1. -/
theorem test_lane_results :
    vec (.iadd (kT .i32) (ops (V 9) (V 1) (V 2))) 9 63 = some 318 ∧
    vec (.restrict k0 (ops (V 9) (V 1) (M 0))) 9 15 = some 79 ∧ vec (.restrict k0 (ops (V 9) (V 1) (M 0))) 9 16 = none ∧
    vec (.iadd (kT .i32) (ops (V 9) (V 8) (V 1))) 9 32 = none ∧
    sca (.mpop k0 (ops (S 9) (M 0))) 0 0 = some 16 ∧ sca (.mfind k0 (ops (S 9) (M 1))) 0 0 = some 16 := by decide +kernel
/-- 08 R174: D := D - 1 modulo 2^32, and the branch is taken while it is not 0. -/
theorem test_brdec_results :
    sca (.brdec k0 { d := S 1, a := N, imm := 0, z := 0 }) 1 0 1 = some 0 ∧
    (match exec (.brdec k0 { d := S 2, a := N, imm := 4, z := 0 }) (flow id) with
      | .next t => (t.group? me).map fun p => (p.2.sreg 2, p.2.pc) | _ => none) = some (0xFFF, 0x1030) := by decide +kernel
/-- 07 R142, R145: CALL writes the address of the next slot to its link and goes to the target; the address after slot 4 is in the next line. -/
theorem test_call_links :
    (match exec (.call k0 { d := S 6, a := N, imm := 1, z := 0 }) (flow id) with
      | .next t => (t.group? me).map fun p => (p.2.spair 6, p.2.pc) | _ => none) = some (0x100C, 0x100C) ∧
    (nextPc 0x100C = 0x1018 ∧ nextPc 0x1030 = 0x1040) := by decide +kernel
/-- 12 R284: CSRX.clr of GSTAT reads the old flags and clears the bits of A. -/
theorem test_csr_results :
    (let s := at_ 64 (fun g => { g.setS 1 1 with gstat := 3 }) id
     match exec (.csrxClr (kF 1) (ops (S 9) (S 1) N N N 0x10)) s with
      | .next t => (t.group? me).map fun p => (p.2.sreg 9, p.2.gstat) | _ => none) = some (3, 2) := by decide +kernel
end Sys2Proof.Tests
end

section
/-!
SUPPORT. The translation service (01 R22): the compare-and-swap that sets A and D, and a list of bytes on which what it writes does not read back.
-/

namespace Sys2Proof.Machine

/-- A range that can be read meets no uncorrectable unit and leaves the state as it was. -/
theorem meet_of_readable {s : State} {l : Loc} {n : Nat} (h : s.readable none l n) : s.meet l n = (none, s) := by
  obtain ⟨_, hbad, hinj⟩ := h
  simp [State.meet, State.meetBut, hbad, hinj, State.countBad]

theorem serviceRead_of_readable {s : State} {a n : Nat} (h : s.readable none ⟨.dram, a⟩ n) :
    s.serviceRead a n = some (.ok (leNat (s.bytesAt ⟨.dram, a⟩ n)), s) := by
  simp [State.serviceRead, h.1, meet_of_readable h]

theorem exec_adUpdate_of_match {s : State} {n a size : Nat} {k : Walk} {old new : DWord} {peer : Option (Nat × Nat)}
    (hk : s.walks[n]? = some k) (hst : k.st = .update a old new size peer) (hr : s.readable none ⟨.dram, a⟩ 8)
    (hold : leNat (s.bytesAt ⟨.dram, a⟩ 8) = old.toNat) :
    exec (.adUpdate n) s = .next ((s.put ⟨.dram, a⟩ (leBytes 8 new.toNat)).walkCache n k new.toNat size peer) := by
  show execAdUpdate n s = _
  simp [execAdUpdate, State.adUpdate, hk, hst, serviceRead_of_readable hr, hold]

/-- Bytes written at a location read back where the stores are canonical. -/
theorem bytesAt_put_same {s : State} (h : s.memOk = true) (l : Loc) (bs : List Byte) : (s.put l bs).bytesAt l bs.length = bs := by
  rw [State.bytesAt, mem_put, if_pos rfl, readRange_writeRange (memOk_iff.1 h _)]

/-- The clause that `not_walkStepsComplete` refutes, with the premise that it lacks: in canonical stores the entry holds the new value. -/
theorem adUpdate_writes_of_memOk {s : State} (h : s.memOk = true) {n a size : Nat} {k : Walk} {old new : DWord} {peer : Option (Nat × Nat)}
    (hk : s.walks[n]? = some k) (hst : k.st = .update a old new size peer) (hr : s.readable none ⟨.dram, a⟩ 8)
    (hold : leNat (s.bytesAt ⟨.dram, a⟩ 8) = old.toNat) :
    ∃ t, exec (.adUpdate n) s = .next t ∧ t.bytesAt ⟨.dram, a⟩ 8 = leBytes 8 new.toNat := by
  refine ⟨_, exec_adUpdate_of_match hk hst hr hold, ?_⟩
  have hback := bytesAt_put_same h ⟨.dram, a⟩ (leBytes 8 new.toNat)
  rwa [length_leBytes] at hback

/-- A list of DRAM bytes that is not canonical: 0x300A is listed twice, first with what an unlisted byte reads as. The entry at 0x3008 reads as
0x5025, a leaf with A and D clear, and a walk is about to set them. -/
def twiceListed : State :=
  { State.reset with
    dram := [(0x3008, 0x25), (0x3009, 0x50), (0x300A, 0), (0x300A, 1)]
    walks := [{ tower := 0, ctx := 0, page := 0, st := .update 0x3008 0x5025 0x50E5 4096 none, reqs := [] }] }

theorem twiceListed_readable : twiceListed.readable none ⟨.dram, 0x3008⟩ 8 := ⟨by decide, rfl, rfl⟩

/-- Refutes O26: its clause on the compare-and-swap has no premise that memory is canonical. In `twiceListed` the write of the entry's zero byte at
0x300A takes away the cell listed first and uncovers the second, so that the entry reads 0x150E5 afterwards, where 0x50E5 was written. -/
theorem not_walkStepsComplete : ¬ Obligations.WalkStepsComplete := by
  rintro ⟨_, _, hupdate, _⟩
  obtain ⟨hmatch, _⟩ := hupdate twiceListed 0 _ 0x3008 4096 0x5025 0x50E5 none rfl rfl twiceListed_readable
  obtain ⟨t, hstep, hbytes, _⟩ := hmatch (by decide)
  rw [exec_adUpdate_of_match rfl rfl twiceListed_readable (by decide)] at hstep
  cases hstep
  have hreads : leNat ((twiceListed.put ⟨.dram, 0x3008⟩ (leBytes 8 0x50E5)).bytesAt ⟨.dram, 0x3008⟩ 8) = 0x150E5 := by decide
  exact absurd (hreads.symm.trans (congrArg leNat hbytes)) (by decide)

end Sys2Proof.Machine
end

section
/-!
SUPPORT. The steps of the Yarder's queues: for each step function, the branch that a step which can be taken goes through, and what it answers.
-/

namespace Sys2Proof.Machine

/-! ### Pieces that lie in this device -/

/-- Every piece of a footprint lies in this device. -/
def AllHere (ps : List Piece) : Prop := ∀ p ∈ ps, ∃ l mt, p.1 = .mem l mt

theorem AllHere.ne_peer {ps : List Piece} (h : AllHere ps) (fep pctx pa mt len : Nat) : ps ≠ [(.peer fep pctx pa mt, len)] := by
  rintro rfl
  obtain ⟨l, mt, hp⟩ := h _ (List.mem_singleton_self _)
  cases hp

theorem AllHere.atPeer_eq_false {ps : List Piece} (h : AllHere ps) : atPeer ps = false := by
  rw [Machine.atPeer, List.any_eq_false]
  intro p hp
  obtain ⟨l, mt, hp⟩ := h p hp
  simp [hp]

/-! ### Pre-translation -/

/-- A device has 256 cores; a write to another changes none. -/
theorem core_setCore_same (s : State) (c : Nat) (k : Core) : (s.setCore c k).core c = if c < 256 then k else s.core c := by
  by_cases h : c < 256
  · simp [State.setCore, State.core, h]
  · simp [State.setCore, State.core, h]

/-- The holder counts translations: it does not see what else the head holds. -/
theorem holder_setQueue_head (k : Core) (q : Nat) (e e' : Entry) (es : List Entry) (h : e.held.length = e'.held.length) :
    (k.setQueue q (e :: es)).holder = (k.setQueue q (e' :: es)).holder := by
  unfold Core.setQueue
  split
  · simp [Core.holder, Vector.toList_setIfInBounds, List.map_flatten, List.map_set, h]
  · simp [Core.holder, h]

theorem holder_setHead {s : State} {q : QRef} {e e' : Entry} (h : e.held.length = e'.held.length) :
    ((s.setHead q e).core q.core).holder = ((s.setHead q e').core q.core).holder := by
  simp only [State.setHead, State.setQueue, core_setCore_same]
  split
  · exact holder_setQueue_head _ _ _ _ _ h
  · rfl

/-- The entry once it has seen a page that it needs. -/
def Entry.see (e : Entry) (n : Need) : Entry :=
  let page := n.addr / 4096 * 4096
  { e with seen := if (page, n.acc, n.data) ∈ e.seen then e.seen else e.seen ++ [(page, n.acc, n.data)] }

section
variable {s : State} {q : QRef} {e : Entry} {n : Need} (hn : n.addr < 2 ^ 48) (hxf : e.xf = [])
  (hheld : ∀ x ∈ e.held, x.serves e.poster.ctx q.core n.addr n.acc = false)
include hn hxf hheld

/-- A cached page that the command may hold is seen. -/
theorem survey_cached {x : Xlat} (hx : s.tlb.find? (fun x => x.serves e.poster.ctx q.core n.addr n.acc) = some x)
    (hd : (n.data && x.peer.isSome) = false) : s.survey q e false [n] = .ok (e.see n) := by
  have hany : (e.held.any fun x => x.serves e.poster.ctx q.core n.addr n.acc) = false := by simpa using hheld
  by_cases hs : (n.addr / 4096 * 4096, n.acc, n.data) ∈ e.seen
  · simp [State.survey, Entry.see, hs]
  · simp [State.survey, Entry.see, hs, hany, Nat.not_le.2 hn, -Nat.reducePow, hxf, hx, hd]

/-- A cached page is held where the core's holder has room. -/
theorem holdPages_cached {x : Xlat} (moved : Bool) (hx : s.tlb.find? (fun x => x.serves e.poster.ctx q.core n.addr n.acc) = some x)
    (hd : (n.data && x.peer.isSome) = false) (hroom : ((s.setHead q e).core q.core).holder < 2048) :
    s.holdPages q e moved [n] = some (s.setHead q { e with held := e.held ++ [x] }) := by
  have hany : (e.held.any fun x => x.serves e.poster.ctx q.core n.addr n.acc) = false := by simpa using hheld
  simp [State.holdPages, hany, Nat.not_le.2 hn, -Nat.reducePow, hxf, hx, hd, Nat.not_le.2 hroom]

theorem pretranslate_holds {x : Xlat} (hhead : s.head q = some e) (ht : e.toTranslate = true) (hc : e.translates q.core = true)
    (hneeds : s.needs q e = .pages [n]) (hx : s.tlb.find? (fun x => x.serves e.poster.ctx q.core n.addr n.acc) = some x)
    (hd : (n.data && x.peer.isSome) = false) (hroom : ((s.setHead q e).core q.core).holder < 2048) :
    s.pretranslate q = some (s.setHead q { e.see n with held := e.held ++ [x] }) := by
  have hroom' : ((s.setHead q (e.see n)).core q.core).holder < 2048 := holder_setHead (e := e) (e' := e.see n) rfl ▸ hroom
  have hold := holdPages_cached (e := e.see n) hn hxf hheld ((e.see n).seen.length != e.seen.length) hx hd hroom'
  simp only [State.pretranslate, hhead, ht, hc, hneeds, survey_cached hn hxf hheld hx hd]
  exact hold

/-- A page that no cache holds is asked for, where the command does not wait for it yet. -/
theorem pretranslate_asks (hhead : s.head q = some e) (ht : e.toTranslate = true) (hc : e.translates q.core = true)
    (hneeds : s.needs q e = .pages [n]) (hx : s.tlb.find? (fun x => x.serves e.poster.ctx q.core n.addr n.acc) = none)
    (hw : ∀ w ∈ s.walks, w.waits e.poster.ctx (n.addr / 4096 * 4096) { who := .queue q e.seq, acc := n.acc, core := q.core } = false) :
    s.pretranslate q = some ((s.setHead q e).ask e.poster.ctx q.core [n.addr / 4096 * 4096] n.acc (.queue q e.seq)) := by
  have hany : (e.held.any fun x => x.serves e.poster.ctx q.core n.addr n.acc) = false := by simpa using hheld
  have hwait : (s.walks.any fun w =>
      w.waits e.poster.ctx (n.addr / 4096 * 4096) { who := .queue q e.seq, acc := n.acc, core := q.core }) = false := by simpa using hw
  by_cases hs : (n.addr / 4096 * 4096, n.acc, n.data) ∈ e.seen
  · simp [State.pretranslate, hhead, ht, hc, hneeds, State.survey, State.holdPages, hs, hany, Nat.not_le.2 hn, -Nat.reducePow, hxf, hx, hwait]
  · simp [State.pretranslate, hhead, ht, hc, hneeds, State.survey, hs, hany, Nat.not_le.2 hn, -Nat.reducePow, hxf, hx, hwait]

end

/-! ### Data steps -/

theorem moveTile_moves {s t : State} {q : QRef} {e : Entry} {src dst : List Piece} {bs : List Byte}
    (hsrc : s.engHeld q.core src = false) (hdst : s.engHeld q.core dst = false) (hdrain : s.engDrain q.core dst = false)
    (hread : s.engRead q.core (.load e.hint) src [] = (some bs, t)) :
    s.moveTile q e src dst = some (((t.engCommit q.core dst bs).setHead q
      { e with data := e.data ++ [s.stepRec q.core e.data.length 0]
               held := e.held.filter fun x => e.landBar.any fun b => !b.inS && x.page ≤ b.addr && b.addr < x.page + x.size }).settle q) := by
  simp [State.moveTile, hsrc, hdst, hdrain, hread]

/-- The footprints that a tile's step moves between: a tile of TLD or TST, or that of an RPUT which has claimed its slot. -/
def State.tileMove (s : State) (q : QRef) (e : Entry) (r : Rec) (base : Nat) (org : List Nat) (src dst : List Piece) : Prop :=
  (∃ sp off, e.cmd = .tile true sp r base org off ∧ e.data = [] ∧ s.holdsAll q e = true ∧ src = s.tileG q e r base org .read ∧
      dst = e.tileL q.core sp off r) ∨
  (∃ sp off, e.cmd = .tile false sp r base org off ∧ e.data = [] ∧ s.holdsAll q e = true ∧ src = e.tileL q.core sp off r ∧
      dst = s.tileG q e r base org .write) ∨
  (∃ inS ring d, e.cmd = .rput r base org inS ring ∧ e.data = [d] ∧ src = s.tileG q e r base org .read ∧ dst = s.slotPieces q e r inS)

theorem tileStep_eq_moveTile {s : State} {q : QRef} {e : Entry} {r : Rec} {base : Nat} {org : List Nat} {src dst : List Piece}
    (hhead : s.head q = some e) (hable : e.able = true) (hm : s.tileMove q e r base org src dst) :
    s.tileStep q = s.moveTile q e src dst := by
  obtain ⟨sp, off, hcmd, hdata, hall, rfl, rfl⟩ | ⟨sp, off, hcmd, hdata, hall, rfl, rfl⟩ | ⟨inS, ring, d, hcmd, hdata, rfl, rfl⟩ := hm
  · simp [State.tileStep, hhead, hable, hcmd, hdata, hall]
  · simp [State.tileStep, hhead, hable, hcmd, hdata, hall]
  · simp [State.tileStep, hhead, hable, hcmd, hdata]

theorem moveRow_moves {s t : State} {q : QRef} {e : Entry} {ssp src dsp dst n : Nat} {ext bs : List Byte} {mark : Entry → Entry}
    {sp dp : List Piece} (hall : s.holdsAll q e = true) (hsrc : s.engAccess q e ssp src n .read = .ok sp)
    (hdst : s.engAccess q e dsp dst n .write = .ok dp) (hhs : s.engHeld q.core sp = false) (hhd : s.engHeld q.core dp = false)
    (haway : s.engAway q.core sp = false) (hroom : s.roomFor (columnOf q.core) [(0, dp)] = true)
    (hread : s.engRead q.core (.load e.hint) sp ext = (some bs, t)) :
    s.moveRow q e ssp src dsp dst n ext mark =
      some (((t.storePieces (e.writer q.core) dp bs).setHead q { (mark e) with xf := [] }).settle q) := by
  simp [State.moveRow, hall, hsrc, hdst, hhs, hhd, haway, hroom, hread]

theorem copyLine_eq_moveRow {s : State} {q : QRef} {e : Entry} {k dsp ssp d r len : Nat} {ext : List Byte}
    (hhead : s.head q = some e) (hable : e.able = true) (hcmd : e.cmd = .ycopy dsp ssp d r len) (hk : k < copyLines d len)
    (hnew : Entry.has e.data k = false) :
    s.copyLine q k ext = s.moveRow q e ssp (r + (copyPart d len k).1) dsp (d + (copyPart d len k).1) (copyPart d len k).2 ext
      fun e => { e with data := e.data ++ [s.stepRec q.core k 0] } := by
  simp [State.copyLine, hhead, hcmd, hable, hk, hnew]

section
variable {s : State} {q : QRef} {e : Entry} {k sp table n stride idx cnt limit off : Nat} {ext : List Byte}

theorem rowStep_gathers (hhead : s.head q = some e) (hable : e.able = true)
    (hcmd : e.cmd = .gather false sp table n stride idx cnt limit off) (hidx : Entry.has e.index k = true)
    (hlim : Entry.valOf e.index k < limit) (hnew : Entry.has e.data k = false) :
    s.rowStep q k ext = s.moveRow q e 0 (table + Entry.valOf e.index k * stride) sp (off + k * n) n ext
      fun e => { e with data := e.data ++ [s.stepRec q.core k 0] } := by
  simp [State.rowStep, hhead, hcmd, hable, hidx, hlim, hnew]

theorem rowStep_scatters (hhead : s.head q = some e) (hable : e.able = true)
    (hcmd : e.cmd = .gather true sp table n stride idx cnt limit off) (hidx : Entry.has e.index k = true)
    (hlim : Entry.valOf e.index k < limit) (hnew : Entry.has e.data k = false) :
    s.rowStep q k ext = s.moveRow q e sp (off + k * n) 0 (table + Entry.valOf e.index k * stride) n ext
      fun e => { e with data := e.data ++ [s.stepRec q.core k 0] } := by
  simp [State.rowStep, hhead, hcmd, hable, hidx, hlim, hnew]

end

theorem indexRead_reads {s t : State} {q : QRef} {e : Entry} {k sp table z stride idx n limit off : Nat} {sc : Bool} {ext bs : List Byte}
    {ps : List Piece} (hhead : s.head q = some e) (hcmd : e.cmd = .gather sc sp table z stride idx n limit off) (hable : e.able = true)
    (hk : k < n) (hnew : Entry.has e.index k = false) (hprev : ∀ j, j < k → Entry.has e.index j = true) (hall : s.holdsAll q e = true)
    (hps : s.engAccess q e 0 (idx + 4 * k) 4 .read = .ok ps) (hheld : s.engHeld q.core ps = false) (haway : s.engAway q.core ps = false)
    (hread : s.engRead q.core (.load e.hint) ps ext = (some bs, t)) :
    s.indexRead q k ext =
      some ((t.setHead q { e with index := e.index ++ [s.stepRec q.core k (leNat bs)], xf := [] }).settle q) := by
  have hlower : ((List.range k).all fun j => Entry.has e.index j) = true := by simpa using hprev
  simp [State.indexRead, hhead, hcmd, hable, hk, hnew, hlower, hall, hps, hheld, haway, hread, -List.all_eq_true]

/-! ### Questions to peers -/

theorem sendHead_sends {s : State} {q : QRef} {e : Entry} {a : PeerAsk} (hf : a.fep ∉ s.failedPeers)
    (hfits : s.lbFits (columnOf q.core) ((OutKind.peerRanges (.peerObj a (e.writer q.core))).flatMap fun u =>
      peerKeys (s.col (columnOf q.core)).epoch u.1 u.2.1 u.2.2) = true) :
    s.sendHead q e a = some ((s.send [(columnOf q.core, (s.col (columnOf q.core)).epoch)] e.poster.ctx e.poster.lnum
      (.peerObj a (e.writer q.core))).setHead q { e with asked := some a, reply := none }) := by
  simp [State.sendHead, hf, hfits]

/-! ### RPUT's claim -/

section
variable {s : State} {q : QRef} {e : Entry} {r : Rec} {base addr : Nat} {org : List Nat} {inS : Bool} (hhead : s.head q = some e)
  (hcmd : e.cmd = .rput r base org inS addr) (hable : e.able = true) (hdata : e.data = []) (hindex : e.index = [])
include hhead hcmd hable hdata hindex

theorem claim_eq_ringLook (hpeek : e.peek = none) (hps : AllHere (s.ringPieces q e inS addr)) :
    s.claim q = s.ringLook q e (s.ringPieces q e inS addr) := by
  simp only [State.claim, hhead, hcmd, hable, hdata, hindex, hpeek, Bool.not_true, List.isEmpty_nil, Bool.or_self, Bool.false_eq_true, if_false]
  generalize s.ringPieces q e inS addr = ps at hps ⊢
  split
  · contradiction
  · exact (hps.ne_peer _ _ _ _ _ rfl).elim
  · rfl
  · contradiction

theorem claim_eq_claimHere {seen : Nat} (hpeek : e.peek = some seen) (hring : ringFault e r inS seen = none) (hall : s.holdsAll q e = true)
    (hps : AllHere (s.ringPieces q e inS addr)) : s.claim q = s.claimHere q e inS seen (s.ringPieces q e inS addr) := by
  simp only [State.claim, hhead, hcmd, hable, hdata, hindex, hpeek, hring, hall, Bool.not_true, List.isEmpty_nil, Bool.or_self,
    Bool.and_false, Bool.false_eq_true, if_false]
  generalize s.ringPieces q e inS addr = ps at hps ⊢
  split
  · exact (hps.ne_peer _ _ _ _ _ rfl).elim
  · rfl

theorem claim_eq_claimAway {seen fep pctx pa mt len : Nat} (hpeek : e.peek = some seen) (hring : ringFault e r inS seen = none)
    (hall : e.asked = none → s.holdsAll q e = true) (hps : s.ringPieces q e inS addr = [(.peer fep pctx pa mt, len)]) :
    s.claim q = s.claimAway q e inS seen fep pctx pa := by
  simpa [State.claim, hhead, hcmd, hable, hdata, hindex, hpeek, hring, hps] using fun h hn => absurd (hall h) (by simp [hn])

end

theorem ringLook_looks {s t : State} {q : QRef} {e : Entry} {ps : List Piece} {d : List Byte} (hne : ps ≠ [])
    (hheld : s.engHeld q.core ps = false) (hpeek : e.peek = none) (hread : s.engRead q.core .none ps [] = (some d, t)) :
    s.ringLook q e ps = some (t.setHead q { e with peek := some (leNat d) }) := by
  simp [State.ringLook, hne, hheld, hpeek, hread]

/-- A ring that is as it was looked at, but for RPTR, and has room. -/
theorem ringFill_eq_some {seen ring : Nat} (hsame : ring % 2 ^ 224 = seen % 2 ^ 224) (hn : ringN ring ≠ 0) (hroom : ringUsed ring < ringN ring) :
    ringFill seen ring = some (bits ring 255 224 * 2 ^ 224 + (ringW ring + 1) % ringQ ring * 2 ^ 192 + ring % 2 ^ 192) := by
  simp [ringFill, hsame, hn, hroom, -Nat.reducePow]

theorem ringFill_eq_none {seen ring : Nat} (hne : ring % 2 ^ 224 ≠ seen % 2 ^ 224) : ringFill seen ring = none := by
  simp [ringFill, hne, -Nat.reducePow]

theorem barAdd_eq_some {b n : Nat} (h : bytesFit (barBytes b + n) = true) :
    barAdd b n = some (barWith b (barPhase b) (barLeft b) (barBytes b + n)) := by
  simp [barAdd, h]

section
variable {s t : State} {q : QRef} {e : Entry} {seen : Nat} {inS : Bool} {ps : List Piece} {d : List Byte}
  (hroom : ringUsed seen < ringN seen) (hbar : s.barPieces q e { inS, addr := slotBar seen } ≠ [])
  (hhere : AllHere (s.barPieces q e { inS, addr := slotBar seen }))
  (hheld : s.engHeld q.core (ps ++ s.barPieces q e { inS, addr := slotBar seen }) = false)
  (hdrain : s.engDrain q.core (ps ++ s.barPieces q e { inS, addr := slotBar seen }) = false)
  (hread : s.engRead q.core .none (ps ++ s.barPieces q e { inS, addr := slotBar seen }) [] = (some d, t))
include hroom hbar hhere hheld hdrain hread

theorem claimHere_looks (hfill : ringFill seen (leNat (d.take 32)) = none) :
    s.claimHere q e inS seen ps = some (t.setHead q { e with peek := some (leNat (d.take 32)) }) := by
  simp [State.claimHere, Nat.not_le.2 hroom, hbar, hhere.atPeer_eq_false, hheld, hdrain, hread, hfill]

theorem claimHere_claims {ring' b : Nat} (hfill : ringFill seen (leNat (d.take 32)) = some ring')
    (hadd : barAdd (leNat (d.drop 32)) (ringSize (leNat (d.take 32))) = some b) :
    s.claimHere q e inS seen ps = some (((t.engCommit q.core ps (leBytes 32 ring')).engCommit q.core
      (s.barPieces q e { inS, addr := slotBar seen }) (leBytes 16 b)).setHead q
      { e with data := [s.stepRec q.core 0 (leNat (d.take 32))] }) := by
  simp [State.claimHere, Nat.not_le.2 hroom, hbar, hhere.atPeer_eq_false, hheld, hdrain, hread, hfill, hadd]

end

theorem claimAway_asks {s : State} {q : QRef} {e : Entry} {inS : Bool} {seen fep pctx pa a mt z : Nat} (hf : fep ∉ s.failedPeers)
    (hasked : e.asked = none) (hroom : ringUsed seen < ringN seen)
    (hbar : s.barPieces q e { inS, addr := slotBar seen } = [(.peer fep pctx a mt, z)])
    (hfits : s.lbFits (columnOf q.core) (peerKeys (s.col (columnOf q.core)).epoch fep pa 32 ++
      peerKeys (s.col (columnOf q.core)).epoch fep a 16) = true) :
    s.claimAway q e inS seen fep pctx pa =
      let ask : PeerAsk := { fep, pctx, pa, len := 32, op := .fill seen (some a) }
      some ((s.send [(columnOf q.core, (s.col (columnOf q.core)).epoch)] e.poster.ctx e.poster.lnum
        (.peerObj ask (e.writer q.core))).setHead q { e with asked := some ask, reply := none }) := by
  simpa [State.claimAway, hf, hasked, hbar, Nat.not_le.2 hroom] using
    sendHead_sends (e := e) (a := { fep, pctx, pa, len := 32, op := .fill seen (some a) }) hf (by simpa [OutKind.peerRanges] using hfits)

/-- The peer's answer that ring and barrier took the step. -/
theorem claimAway_claims {s : State} {q : QRef} {e : Entry} {a : PeerAsk} {inS : Bool} {seen n fep pctx pa home ring' b : Nat} {d : List Byte}
    (hf : fep ∉ s.failedPeers) (hasked : e.asked = some a) (hop : a.op = .fill n (some home)) (hreply : e.reply = some (some d))
    (hfill : ringFill seen (leNat (d.take 32)) = some ring')
    (hadd : barAdd (leNat (d.drop 32)) (ringSize (leNat (d.take 32))) = some b) :
    s.claimAway q e inS seen fep pctx pa = some (s.setHead q
      { e with data := [s.stepRec q.core 0 (leNat (d.take 32))], asked := none, reply := none }) := by
  simp [State.claimAway, hf, hasked, hop, hreply, hfill, hadd]

/-! ### Land steps -/

theorem landAsk_here {s : State} {q : QRef} {e : Entry} {b : Bar} {z : Nat} (h : AllHere (s.barPieces q e b)) : s.landAsk q e b z = none := by
  unfold State.landAsk
  split
  · exact (h.ne_peer _ _ _ _ _ ‹_›).elim
  · rfl

theorem landOn_here {s t : State} {q : QRef} {e : Entry} {b : Bar} {z : Nat} {bs v : List Byte} (h : AllHere (s.barPieces q e b))
    (hne : s.barPieces q e b ≠ []) (hheld : s.engHeld q.core (s.barPieces q e b) = false)
    (hdrain : s.engDrain q.core (s.barPieces q e b) = false) (hread : s.engRead q.core .none (s.barPieces q e b) [] = (some bs, t))
    (hv : landValue q.core (s.barPieces q e b) bs z = .ok v) :
    s.landOn q e b z = some (.ok (t.objPut (e.writer q.core) (s.barPieces q e b) v)) := by
  unfold State.landOn
  generalize s.barPieces q e b = ps at *
  dsimp only
  rw [if_neg (by simpa using hne)]
  split
  · exact (h.ne_peer _ _ _ _ _ rfl).elim
  · simp [hheld, hdrain, hread, hv]

theorem landValue_eq_ok {core z v : Nat} {ps : List Piece} {bs : List Byte}
    (hscope : ∀ p ∈ ps, 2 ≤ barScope (leNat bs) ∧ storageOk core (barScope (leNat bs)) p.1 = true) (hland : barLand (leNat bs) z = some v) :
    landValue core ps bs z = .ok (leBytes 16 v) := by
  have hall : (ps.all fun p => 2 ≤ barScope (leNat bs) && storageOk core (barScope (leNat bs)) p.1) = true := by simpa using hscope
  simp [landValue, hall, hland]

theorem landAsk_asks {s : State} {q : QRef} {e : Entry} {b : Bar} {z fep pctx pa mt len : Nat}
    (hps : s.barPieces q e b = [(.peer fep pctx pa mt, len)]) (hf : fep ∉ s.failedPeers) (hasked : e.asked = none)
    (hfits : s.lbFits (columnOf q.core) (peerKeys (s.col (columnOf q.core)).epoch fep pa len) = true) :
    s.landAsk q e b z =
      let a : PeerAsk := { fep, pctx, pa, len, op := .land z }
      some ((s.send [(columnOf q.core, (s.col (columnOf q.core)).epoch)] e.poster.ctx e.poster.lnum
        (.peerObj a (e.writer q.core))).setHead q { e with asked := some a, reply := none }) := by
  simp only [State.landAsk, hps, hasked]
  exact sendHead_sends hf (by simpa [OutKind.peerRanges] using hfits)

theorem landAsk_asked {s : State} {q : QRef} {e : Entry} {b : Bar} {z : Nat} {a : PeerAsk} (hasked : e.asked = some a) :
    s.landAsk q e b z = none := by
  unfold State.landAsk
  split <;> simp [hasked]

theorem landOn_answered {s : State} {q : QRef} {e : Entry} {b : Bar} {z fep pctx pa mt len : Nat} {bs v : List Byte}
    (hps : s.barPieces q e b = [(.peer fep pctx pa mt, len)]) (hf : fep ∉ s.failedPeers) (hreply : e.reply = some (some bs))
    (hv : landValue q.core [(.peer fep pctx pa mt, len)] bs z = .ok v) : s.landOn q e b z = some (.ok (s.dropPeer fep pa len)) := by
  simp [State.landOn, hps, hf, hreply, hv]

/-- What a land step must hold is held: only one that comes first, or that of a loop, must hold anything. -/
theorem landHeld_of_holdsAll {s : State} {q : QRef} {e : Entry} (h : e.fresh = true ∨ e.cmd.loops = true → s.holdsAll q e = true) :
    ((e.fresh || e.cmd.loops) && !s.holdsAll q e) = false := by
  simpa using h

section
variable {s : State} {q : QRef} {e : Entry} {n z : Nat} {b : Bar} (hhead : s.head q = some e) (hable : e.able = true)
  (hheld : ((e.fresh || e.cmd.loops) && !s.holdsAll q e) = false) (hz : e.landAmount n = some z) (hb : e.landBar = some b)
include hhead hable hheld hz hb

theorem land_asks {t : State} (hask : s.landAsk q e b z = some t) : s.land q n = some t := by
  simp [State.land, hhead, hable, hheld, hz, hb, hask]

theorem land_lands {t : State} (hask : s.landAsk q e b z = none) (hon : s.landOn q e b z = some (.ok t)) :
    s.land q n = some ((t.setHead q { e with lands := e.lands ++ [s.stepRec q.core n 0], asked := none, reply := none }).settle q) := by
  simp [State.land, hhead, hable, hheld, hz, hb, hask, hon]

end

/-! ### Fences -/

theorem fenceRelease_leaves {s : State} {q : QRef} {e : Entry} {names : Nat} (hhead : s.head q = some e) (hcmd : e.cmd = .fence names)
    (hpast : ∀ k, k < 5 → k ≠ q.q → names.testBit k = true → ∀ x ∈ s.queue { core := q.core, q := k }, e.seq < x.seq) :
    s.fenceRelease q = some ((s.leave q e).settle q) := by
  have hall : ((List.range 5).all fun k =>
      k == q.q || !names.testBit k || (s.queue { core := q.core, q := k }).all fun x => x.seq > e.seq) = true := by
    rw [List.all_eq_true]
    intro k hk
    by_cases hq : k = q.q
    · simp [hq]
    · cases hb : names.testBit k with
      | false => simp
      | true => simpa [hq] using hpast k (List.mem_range.1 hk) hq hb
  simp only [State.fenceRelease, hhead, hcmd, hall, if_true]

/-! ### The steps of the dispatch -/

section
variable {s t : State} {q : QRef} {k : Nat} {ext : List Byte}

/-- A step that can be taken answers the state it leads to. -/
theorem next_of_some {o : Option State} {f : Host.Outcome State Fault Refusal} (hf : f = .next (o.getD s)) (h : o = some t) : f = .next t := by
  rw [hf, h, Option.getD_some]

theorem exec_tilePretranslate (h : s.pretranslate q = some t) : exec (.tilePretranslate q) s = .next t :=
  next_of_some rfl h
theorem exec_tileStep (h : s.tileStep q = some t) : exec (.tileStep q) s = .next t :=
  next_of_some rfl h
theorem exec_ycopyLineStep (h : s.copyLine q k ext = some t) : exec (.ycopyLineStep q k ext) s = .next t :=
  next_of_some rfl h
theorem exec_gatherIndexRead (h : s.indexRead q k ext = some t) : exec (.gatherIndexRead q k ext) s = .next t :=
  next_of_some rfl h
theorem exec_gatherRowStep (h : s.rowStep q k ext = some t) : exec (.gatherRowStep q k ext) s = .next t :=
  next_of_some rfl h
theorem exec_rputClaim (h : s.claim q = some t) : exec (.rputClaim q) s = .next t :=
  next_of_some rfl h
theorem exec_landStep (h : s.land q k = some t) : exec (.landStep q k) s = .next t :=
  next_of_some rfl h
theorem exec_yfenceRelease (h : s.fenceRelease q = some t) : exec (.yfenceRelease q) s = .next t :=
  next_of_some rfl h

end

/-- Settles O27, clause by clause: each step's function takes the branch that the clause's premises select. -/
theorem yarderStepsComplete : Obligations.YarderStepsComplete := by
  refine ⟨?_, ?_, ?_, ?_, ?_, ?_, ?_, ?_, ?_, ?_⟩
  · intro s q e n hhead ht hc hneeds hn hxf hheld
    refine ⟨fun x hx hd hroom => ?_, fun hx hw => ?_⟩
    · exact exec_tilePretranslate (pretranslate_holds hn hxf hheld hhead ht hc hneeds hx hd hroom)
    · exact exec_tilePretranslate (pretranslate_asks hn hxf hheld hhead ht hc hneeds hx hw)
  · intro s t q e r base org src dst bs hhead hable hmove hsrc hdst hdrain hread
    exact exec_tileStep ((tileStep_eq_moveTile hhead hable hmove).trans (moveTile_moves hsrc hdst hdrain hread))
  · intro s t q e k ext bs i ssp src dsp dst n sp dp hhead hable hall hnew hi hsp hdp hhs hhd haway hroom hread
    have hmoves := fun mark => moveRow_moves (mark := mark) hall hsp hdp hhs hhd haway hroom hread
    obtain ⟨rfl, d, r, len, hcmd, hk, rfl, rfl, rfl⟩ | ⟨rfl, sc, spc, table, stride, idx, cnt, limit, off, hcmd, hidx, hlim, hdir⟩ := hi
    · exact exec_ycopyLineStep ((copyLine_eq_moveRow hhead hable hcmd hk hnew).trans (hmoves _))
    · obtain ⟨rfl, rfl, rfl, rfl, rfl⟩ | ⟨rfl, rfl, rfl, rfl, rfl⟩ := hdir
      · exact exec_gatherRowStep ((rowStep_gathers hhead hable hcmd hidx hlim hnew).trans (hmoves _))
      · exact exec_gatherRowStep ((rowStep_scatters hhead hable hcmd hidx hlim hnew).trans (hmoves _))
  · intro s t q e k ext bs sc sp table z stride idx n limit off ps hhead hcmd hable hk hnew hprev hall hps hheld haway hread
    exact exec_gatherIndexRead (indexRead_reads hhead hcmd hable hk hnew hprev hall hps hheld haway hread)
  · intro s t q e r base addr org inS d hhead hcmd hable hdata hindex hpeek ps hne hhere hheld hread
    exact exec_rputClaim ((claim_eq_ringLook hhead hcmd hable hdata hindex hpeek hhere).trans (ringLook_looks hne hheld hpeek hread))
  · intro s t q e r base addr seen org inS d hhead hcmd hable hdata hindex hpeek _ hring hall hroom ps bs hne hhere hheld hdrain hread ring b
    have hps : AllHere ps := fun p hp => hhere p (List.mem_append_left _ hp)
    have hbs : AllHere bs := fun p hp => hhere p (List.mem_append_right _ hp)
    have hclaim := claim_eq_claimHere hhead hcmd hable hdata hindex hpeek hring hall hps
    refine ⟨fun hchanged => ?_, fun hsame hn hspace hfit => ?_⟩
    · exact exec_rputClaim (hclaim.trans (claimHere_looks hroom hne hbs hheld hdrain hread (ringFill_eq_none hchanged)))
    · exact exec_rputClaim (hclaim.trans (claimHere_claims hroom hne hbs hheld hdrain hread (ringFill_eq_some hsame hn hspace)
        (barAdd_eq_some hfit)))
  · intro s q e r base addr seen fep pctx pa mt len a' mt' z org inS hhead hcmd hable hdata hindex hpeek hring hps hf col a
    refine ⟨fun hasked hall hroom hbar hfits => ?_, fun d hasked hreply => ?_⟩
    · exact exec_rputClaim ((claim_eq_claimAway hhead hcmd hable hdata hindex hpeek hring (fun _ => hall) hps).trans
        (claimAway_asks hf hasked hroom hbar hfits))
    · intro ring hsame hn hspace hfit
      exact exec_rputClaim ((claim_eq_claimAway hhead hcmd hable hdata hindex hpeek hring (by simp [hasked]) hps).trans
        (claimAway_claims hf hasked rfl hreply (ringFill_eq_some hsame hn hspace) (barAdd_eq_some hfit)))
  · intro s t q e n z v' b bs hhead hable hall hz hb ps hne hhere hheld hdrain hread hscope hland
    exact exec_landStep (land_lands hhead hable (landHeld_of_holdsAll hall) hz hb (landAsk_here hhere)
      (landOn_here hhere hne hheld hdrain hread (landValue_eq_ok hscope hland)))
  · intro s q e n z len fep pctx pa mt b hhead hable hall hz hb hps hf a
    refine ⟨fun hasked hfits => ?_, fun bs v' hasked hreply hscope hland => ?_⟩
    · exact exec_landStep (land_asks hhead hable (landHeld_of_holdsAll hall) hz hb (landAsk_asks hps hf hasked hfits))
    · have hv := landValue_eq_ok (core := q.core) (ps := [(.peer fep pctx pa mt, len)]) (by simp [hscope, storageOk]) hland
      exact exec_landStep (land_lands hhead hable (landHeld_of_holdsAll hall) hz hb (landAsk_asked hasked) (landOn_answered hps hf hreply hv))
  · intro s q e names hhead hcmd hpast
    exact exec_yfenceRelease (fenceRelease_leaves hhead hcmd hpast)

end Sys2Proof.Machine
end

section
/-!
SUPPORT. What a write at a home leaves: its own bytes, every other byte as before, and its whole code units good (04 R84, 20 R375).
-/

namespace Sys2Proof.Machine

/-- A code unit that a write covers whole is not listed as bad after it. -/
theorem not_mem_bad_put (s : State) (l : Loc) (bs : List Byte) (b : Loc) (hst : b.store = l.store) (hlo : l.addr ≤ b.addr)
    (hhi : b.addr + sectorSize b.store ≤ l.addr + bs.length) : b ∉ (s.put l bs).bad := by
  intro hb
  have hb' := (List.mem_filter.1 hb).2
  simp [hst, hlo, hst ▸ hhi] at hb'

/-- Settles O51. -/
theorem memoryReadsWhatWasWritten : Obligations.MemoryReadsWhatWasWritten := by
  intro s l bs hs
  refine ⟨bytesAt_put_same hs l bs, fun st a hout => ?_, not_mem_bad_put s l bs⟩
  rw [readByte_put hs, if_neg hout]

end Sys2Proof.Machine
end

section
/-!
SUPPORT. What a step takes first: the event that the schedule names, or the word in the slot of the group that a scheduler chooses (04 R83, 13 R291).
-/

namespace Sys2Proof.Machine

/-- What a step makes of an instruction's outcome: where it answers a state, what named its group is cleared. -/
def settled : Host.Outcome State Fault Refusal → Host.Outcome State Fault Refusal
  | .next u => .next { u with cur := none, split := false }
  | .fault f => .fault f
  | .refused r => .refused r

theorem step_of_begin_run {s t : State} {i : Instr} (h : s.begin = .run i t) : step s = settled (exec i t) := by
  rw [step, h]; rfl

theorem step_of_begin_done {s t : State} (h : s.begin = .done t) : step s = .next t := by
  rw [step, h]

/-- Where no state is next, a step takes the first of the schedule's moves. -/
theorem begin_of_moves {s : State} {m : Move} {ms : List Move} (hdue : s.due = none) (hms : s.moves = m :: ms) :
    s.begin = State.move { s with moves := ms } m := by simp only [State.begin, hdue, hms]

theorem move_event {s : State} (h : s.alive = true) (i : Instr) (steps : Bool) :
    s.move (if steps then .eventSteps i else .event i) = .run i { s with split := steps || s.split } := by
  cases steps with
  | false => simp [State.move, h]
  | true => simp [State.move, h]

/-- What an issue move makes of the scheduler's choice: one taken step by step clears the mark again where no instruction runs. -/
def Ahead.unsplit (steps : Bool) : Ahead → Ahead
  | .run i t => .run i t
  | .done t => .done (if steps then { t with split := false } else t)

theorem move_issue {s : State} (h : s.alive = true) (core sched : Nat) (steps : Bool) :
    s.move (if steps then .issueSteps core sched else .issue core sched) =
      (State.issueNext { s with split := steps || s.split } core sched).unsplit steps := by
  cases steps with
  | false =>
    show s.move (.issue core sched) = (s.issueNext core sched).unsplit false
    simp only [State.move, h, if_true]
    cases s.issueNext core sched <;> rfl
  | true =>
    simp only [State.move, h, Bool.not_true, Bool.false_eq_true, if_true, if_false, Bool.true_or]
    cases State.issueNext { s with split := true } core sched <;> rfl

section
variable {s : State} {core sched : Nat} {w : Workgroup} {g : Machine.Group} {l : FLine}

/-- A scheduler that has a choice comes to its group's slot. -/
theorem issueNext_of_chooses (h : s.chooses core sched w g l) : s.issueNext core sched = s.ahead (w.refOf g) w g := by
  obtain ⟨hregroup, ⟨c, cs, hcands, hbest⟩, -⟩ := h
  rw [State.issueNext, hregroup, ite_self]
  simp only [State.pick, hcands, hbest]
  rfl

/-- The group's checks passed: what stands in its slot, or at the body step it has reached, runs, or raises an illegal-opcode fault. -/
theorem ahead_of_chooses (h : s.chooses core sched w g l) :
    s.ahead (w.refOf g) w g =
      let t := s.modGroup (w.refOf g) fun k => { k.asIssued l with mcall := g.mcall, rstep := 0 }
      match decodeWord (match g.mcall with
        | some (m, k) => ((s.macrosOf w.ctx w.lnum).getD m []).getD k 0
        | none => slotWord l.bytes (slotOf g.pc.toNat)) with
      | some i => .run i { t with cur := some (w.refOf g) }
      | none => match t.group? (w.refOf g) with
        | some (w', g') => .done (t.raise (w.refOf g) w' g' { cause := .illegalOpcode })
        | none => .done t := by
  obtain ⟨-, -, hpc, hslot, hline, hcheck, htgt, hstep⟩ := h
  have hreserved : (!l.checked && !lineReservedOk l.bytes) = false := by
    rcases hcheck with hc | ⟨hr, -⟩
    · simp [hc]
    · simp [hr]
  have hparity : (!l.checked && !parityOk l.bytes) = false := by
    rcases hcheck with hc | ⟨-, hp⟩
    · simp [hc]
    · simp [hp]
  have hentry : (g.entry && !tgtBit l.bytes (slotOf g.pc.toNat)) = false := by
    rcases htgt with he | ht
    · simp [he]
    · simp [ht]
  have hlow : ¬ g.pc.toNat ≥ 2 ^ 48 := by omega
  simp only [State.ahead, if_neg hlow, hslot, hline, hreserved, hparity, hentry, hstep, Bool.not_true, Bool.false_eq_true, if_false,
    beq_self_eq_true, if_true]
  rfl

end

theorem decodeWord_slotWord_of_decode {bs rest : List Byte} {n : Nat} {i : Instr} (h : decode (bs.drop (12 * n)) = .ok (i, rest)) :
    decodeWord (slotWord bs n) = some i := by
  rw [decode] at h
  split at h
  · cases h
  · split at h
    next hw => cases h; exact hw
    next => cases h

theorem decodeWord_slotWord_of_illegalOpcode {bs : List Byte} {n : Nat} (h : decode (bs.drop (12 * n)) = .error .illegalOpcode) :
    decodeWord (slotWord bs n) = none := by
  rw [decode] at h
  split at h
  · cases h
  · split at h
    next => cases h
    next hw => exact hw

/-- An issue move whose scheduler has a choice: the group's slot, with the mark of a step taken alone. -/
theorem begin_issue {s : State} {core sched : Nat} {steps : Bool} {ms : List Move} {w : Workgroup} {g : Machine.Group} {l : FLine}
    (hms : s.moves = (if steps then .issueSteps core sched else .issue core sched) :: ms) (halive : s.alive = true) (hdue : s.due = none)
    (h : State.chooses { s with moves := ms, split := steps || s.split } core sched w g l) :
    s.begin = (State.ahead { s with moves := ms, split := steps || s.split } (w.refOf g) w g).unsplit steps := by
  have hmove := move_issue (s := { s with moves := ms }) halive core sched steps
  rw [begin_of_moves hdue hms, hmove, issueNext_of_chooses h]

/-- Settles O38: the move that is first is one event, or an issue by a scheduler whose choice is known, and the word in its slot or at its body
step decides the rest. -/
theorem stepRunsTheDecodedInstruction : Obligations.StepRunsTheDecodedInstruction := by
  refine ⟨fun s t i h => step_of_begin_run h, fun s t h => step_of_begin_done h, ?_, ?_⟩
  · intro s i steps ms hms halive hdue
    refine step_of_begin_run ?_
    rw [begin_of_moves hdue hms]
    exact move_event (s := { s with moves := ms }) halive i steps
  · intro s core sched steps ms w g l hms hsupply hreset hdue s0 hc
    have halive : s.alive = true := by rw [State.alive, hsupply, hreset]; rfl
    have hbegin := begin_issue hms halive hdue hc
    rw [ahead_of_chooses hc] at hbegin
    refine ⟨fun i rest hm hd => ?_, fun m k i hm hd => ?_, ?_⟩
    · rw [hm] at hbegin
      simp only [decodeWord_slotWord_of_decode hd] at hbegin
      exact step_of_begin_run hbegin
    · rw [hm] at hbegin
      have hword : decodeWord (((s0.macrosOf w.ctx w.lnum).getD m []).getD k 0) = some i := hd
      simp only [hword] at hbegin
      exact step_of_begin_run hbegin
    · intro w' g' hm hd t u hg
      rw [hm] at hbegin
      simp only [decodeWord_slotWord_of_illegalOpcode hd] at hbegin
      dsimp only [t] at hg
      rw [hg] at hbegin
      exact step_of_begin_done hbegin

end Sys2Proof.Machine
end

section
/-!
SUPPORT. The canonical form of the stores (04 R84, 02): every step keeps it. Only four operations write a store: `put`, `fillRange`, `undoOne`, and
the loss of what a power state or a reset clears; each keeps the form (`memOk_put`, `memOk_fillRange`, `memOk_undoOne`, `memOk_loseBelowD1`,
`memOk_fullReset`), and everything else only combines them with updates of other parts of the state. So there is one lemma for each function
that answers a state, in the order of the model's files, each from those of the functions that it calls; `OptOk`, `Act.Ok` and the like say
what such a lemma means where the answer is more than a state.
-/

namespace Sys2Proof.Machine

/-! ### What it is that an answer keeps the form -/

/-- A step that answers a state answers one whose stores have the canonical form. -/
def OptOk : Option State → Prop
  | some t => t.memOk = true
  | none => True

/-- The same of a step that answers something besides the state. -/
def SndOk {α : Type} : Option (α × State) → Prop
  | some x => x.2.memOk = true
  | none => True

/-- The same of an access that stops. -/
def Stop.Ok : Stop → Prop
  | .held => True
  | .more t | .fault _ t => t.memOk = true

/-- The same of a host's access that stops. -/
def HostStop.Ok : HostStop → Prop
  | .held => True
  | .more t | .status _ t => t.memOk = true

/-- The same of a walk at a port. -/
def WalkRes.Ok : WalkRes → Prop
  | .blocked => True
  | .more t | .fault _ _ t | .ok _ t => t.memOk = true

/-- The same of a step of such a walk. -/
def PortStep.Ok : PortStep → Prop
  | .blocked => True
  | .go _ t | .fault _ _ t => t.memOk = true

/-- The same of what comes next. -/
def Ahead.Ok : Ahead → Prop
  | .run _ t | .done t => t.memOk = true

/-- The same of what an instruction word's meaning answers. -/
def Act.Ok : Act → Prop
  | .done t _ | .placed t _ | .park t _ | .ends t | .faultWith t _ => t.memOk = true
  | .jump .. | .fault _ | .stay .. | .ask .. => True

/-- The same of a look-up that ends the instruction word where it fails. -/
def ErrOk {α : Type} : Except Act α → Prop
  | .ok _ => True
  | .error a => a.Ok

/-- The same of a computation that ends with a value and a state, or stops in a way of which `E` says the same. -/
def ExceptOk {ε α : Type} (E : ε → Prop) : Except ε (α × State) → Prop
  | .ok x => x.2.memOk = true
  | .error e => E e

/-- The same with two values. -/
def ExceptOk3 {ε α β : Type} (E : ε → Prop) : Except ε (α × β × State) → Prop
  | .ok x => x.2.2.memOk = true
  | .error e => E e

/-- The same without a value. -/
def ExceptStateOk {ε : Type} (E : ε → Prop) : Except ε State → Prop
  | .ok t => t.memOk = true
  | .error e => E e

/-- The same of a reader, at every state that has the form. -/
def ReaderOk {ε : Type} (E : ε → Prop) (rd : Reader ε) : Prop :=
  ∀ {s : State}, s.memOk = true → ∀ va size, ExceptOk E (rd va size s)

/-- The same of a lane of an atomic. -/
def AtomOk : Option AtomOut → Prop
  | some o => o.s.memOk = true
  | none => True

/-- The same of a landing. -/
def LandOk : Option (Except (Cause × State) State) → Prop
  | some (.ok t) => t.memOk = true
  | some (.error x) => x.2.memOk = true
  | none => True

/-- The same of an instruction, a step, a command or an error. -/
def OutOk : Host.Outcome State Fault Refusal → Prop
  | .next t => t.memOk = true
  | .fault _ | .refused _ => True

@[simp] theorem optOk_some {t : State} : OptOk (some t) ↔ t.memOk = true := Iff.rfl
@[simp] theorem optOk_none : OptOk none ↔ True := Iff.rfl
@[simp] theorem act_done_ok {s : State} {x} : (Act.done s x).Ok ↔ s.memOk = true := Iff.rfl
@[simp] theorem act_placed_ok {s : State} {x} : (Act.placed s x).Ok ↔ s.memOk = true := Iff.rfl
@[simp] theorem act_park_ok {s : State} {x} : (Act.park s x).Ok ↔ s.memOk = true := Iff.rfl
@[simp] theorem act_ends_ok {s : State} : (Act.ends s).Ok ↔ s.memOk = true := Iff.rfl
@[simp] theorem act_faultWith_ok {s : State} {x} : (Act.faultWith s x).Ok ↔ s.memOk = true := Iff.rfl
@[simp] theorem act_jump_ok {x} {y} {z} : (Act.jump x y z).Ok ↔ True := Iff.rfl
@[simp] theorem act_fault_ok {x} : (Act.fault x).Ok ↔ True := Iff.rfl
@[simp] theorem act_stay_ok {x} {y} : (Act.stay x y).Ok ↔ True := Iff.rfl
@[simp] theorem act_ask_ok {x} {y} : (Act.ask x y).Ok ↔ True := Iff.rfl

/-- What leaves the stores alone keeps the form. -/
theorem memOk_of_sameMem {s t : State} (hsame : s.sameMem t) (h : s.memOk = true) : t.memOk = true :=
  memOk_iff.2 fun st => by rw [sameMem_mem hsame st]; exact memOk_iff.1 h st

theorem memOk_of_eq_some {x : Option State} {t : State} (hx : OptOk x) (heq : x = some t) : t.memOk = true := by
  subst heq; exact hx

@[simp] theorem memOk_getD {x : Option State} {s : State} (hx : OptOk x) (h : s.memOk = true) : (x.getD s).memOk = true := by
  cases x with
  | none => exact h
  | some t => exact hx

@[simp] theorem optOk_or {x y : Option State} (hx : OptOk x) (hy : OptOk y) : OptOk (x.or y) := by
  cases x with
  | none => exact hy
  | some t => exact hx

theorem optOk_findSome {α : Type} {f : α → Option State} {l : List α} (hf : ∀ a, OptOk (f a)) : OptOk (l.findSome? f) := by
  induction l with
  | nil => trivial
  | cons a l ih =>
    rw [List.findSome?_cons]
    split
    · exact memOk_of_eq_some (hf a) ‹_›
    · exact ih

theorem optOk_bind_of_ok {x : Option State} {f : State → Option State} (hx : OptOk x) (hf : ∀ t, t.memOk = true → OptOk (f t)) :
    OptOk (x.bind f) := by
  cases x with
  | none => trivial
  | some t => exact hf t hx

theorem optOk_bind {α : Type} {x : Option α} {f : α → Option State} (hf : ∀ a, OptOk (f a)) : OptOk (x.bind f) := by
  cases x with
  | none => trivial
  | some a => exact hf a

theorem optOk_map {α : Type} {x : Option α} {f : α → State} (hf : ∀ a, (f a).memOk = true) : OptOk (x.map f) := by
  cases x with
  | none => trivial
  | some a => exact hf a

@[simp] theorem optOk_guard {c : Prop} [Decidable c] {x : Option State} (hx : OptOk x) : OptOk (if c then x else none) := by
  split
  · exact hx
  · trivial

@[simp] theorem optOk_unless {c : Prop} [Decidable c] {x : Option State} (hx : OptOk x) : OptOk (if c then none else x) := by
  split
  · trivial
  · exact hx

/-- A loop whose body keeps the form keeps it. -/
theorem memOk_foldl {α : Type} {f : State → α → State} (h : ∀ (s : State) a, s.memOk = true → (f s a).memOk = true) (l : List α)
    {s : State} (hs : s.memOk = true) : (l.foldl f s).memOk = true :=
  List.foldlRecOn l f hs fun t ht a _ => h t a ht

section
variable {s : State} (h : s.memOk = true)
include h

/-! ### Memory, the errors found in it and the L2 (`Machine/Memory`) -/

@[simp] theorem memOk_setCore (c : Nat) (k : Core) : (s.setCore c k).memOk = true :=
  memOk_of_sameMem (setCore_sameMem ..) h

@[simp] theorem memOk_setCluster (c : Nat) (k : Cluster) : (s.setCluster c k).memOk = true :=
  memOk_of_sameMem (setCluster_sameMem ..) h

@[simp] theorem memOk_setCtx (c : Nat) (k : Context) : (s.setCtx c k).memOk = true :=
  memOk_of_sameMem (setCtx_sameMem ..) h

@[simp] theorem memOk_answered (mine : OutKind → Bool) : (s.answered mine).memOk = true := h

/-! ### Atomics and reductions (`Machine/Atomic`) -/

@[simp] theorem memOk_look (c : Nat) (rs : List (Loc × Nat)) : (s.look c rs).memOk = true :=
  memOk_of_sameMem (look_sameMem ..) h

@[simp] theorem memOk_count (tower i n : Nat) : (s.count tower i n).memOk = true :=
  memOk_of_sameMem (count_sameMem ..) h

@[simp] theorem memOk_injTake : s.injTake.memOk = true :=
  memOk_of_sameMem (injTake_sameMem ..) h

@[simp] theorem memOk_countBad (bs : List Loc) : (s.countBad bs).memOk = true :=
  memOk_of_sameMem (countBad_sameMem ..) h

@[simp] theorem memOk_meetBut (skip : Loc → Bool) (l : Loc) (n : Nat) : (s.meetBut skip l n).2.memOk = true :=
  memOk_of_sameMem (meetBut_sameMem ..) h

@[simp] theorem memOk_meet (l : Loc) (n : Nat) : (s.meet l n).2.memOk = true :=
  memOk_of_sameMem (meetBut_sameMem ..) h

@[simp] theorem memOk_readAs (c : Nat) (l : Loc) (n : Nat) : (s.readAs c l n).2.2.memOk = true :=
  memOk_of_sameMem (readAs_sameMem ..) h

/-! ### Translation (`Machine/Translate`) -/

@[simp] theorem memOk_ask (ctx core : Nat) (pages : List Nat) (acc : Access) (who : Requester) : (s.ask ctx core pages acc who).memOk = true :=
  memOk_of_sameMem (ask_sameMem ..) h

@[simp] theorem memOk_forget (who : Requester) : (s.forget who).memOk = true :=
  memOk_of_sameMem (forget_sameMem ..) h

@[simp] theorem memOk_portStep (ctx page : Nat) (acc : Access) (host : Bool) (st : PortWalkState) :
    (s.portStep ctx page acc host st).Ok := by
  cases st <;> unfold State.portStep <;> grind [PortStep.Ok, memOk_meet, memOk_put]

@[simp] theorem memOk_portWalk (ctx page : Nat) (acc : Access) (host : Bool) (fuel : Nat) (st : PortWalkState) :
    (State.portWalk ctx page acc host fuel st s).Ok := by
  induction fuel generalizing s st with
  | zero => cases st <;> simp [State.portWalk, WalkRes.Ok, h]
  | succ fuel ih =>
    have hstep := memOk_portStep h ctx page acc host st
    cases st <;> unfold State.portWalk <;> grind [WalkRes.Ok, PortStep.Ok]

@[simp] theorem memOk_walkNow (ctx va : Nat) (acc : Access) (host : Bool) : (s.walkNow ctx va acc host).Ok := by
  unfold State.walkNow
  grind [State.memOk, WalkRes.Ok, PortStep.Ok, memOk_portWalk, memOk_portStep]

@[simp] theorem memOk_dropWalks (ctx : Nat) : (s.dropWalks ctx).memOk = true := h

@[simp] theorem memOk_walkEach (ctx : Nat) (acc : Access) (rs : List (Nat × Nat)) : ExceptOk Stop.Ok (s.walkEach ctx acc rs) := by
  induction rs generalizing s with
  | nil => exact h
  | cons r rs ih =>
    unfold State.walkEach
    grind [ExceptOk, Stop.Ok, WalkRes.Ok, memOk_walkNow, memOk_dropWalks]

@[simp] theorem memOk_walkRange (ctx : Nat) (acc : Access) (rs : List (Nat × Nat)) : ExceptOk Stop.Ok (s.walkRange ctx acc rs) := by
  unfold State.walkRange
  grind [ExceptOk, memOk_dropWalks, memOk_walkEach]

@[simp] theorem memOk_dispWrite (ctx va : Nat) (bs : List Byte) : ExceptStateOk Stop.Ok (s.dispWrite ctx va bs) := by
  have hw := memOk_walkRange h ctx .write (cut4k va bs.length)
  unfold State.dispWrite
  split <;> rename_i hk <;> rw [hk] at hw
  · exact hw
  · split
    · trivial
    · exact List.foldlRecOn (motive := fun (a : State × List Byte) => a.1.memOk = true) _ _ hw fun a ha p _ => memOk_put ha ..

@[simp] theorem memOk_meetAll (ls : List (Loc × Nat)) : (s.meetAll ls).2.memOk = true := by
  induction ls generalizing s with
  | nil => exact h
  | cons p ls ih => exact ih (memOk_meet h ..)

@[simp] theorem memOk_dispTake (ls : List (Loc × Nat)) : ExceptOk Stop.Ok (s.dispTake ls) := by
  unfold State.dispTake
  grind [State.memOk, ExceptOk, Stop.Ok, memOk_meetAll]

@[simp] theorem memOk_dispRead (ctx va n : Nat) : ExceptOk Stop.Ok (s.dispRead ctx va n) := by
  unfold State.dispRead
  grind [ExceptOk, memOk_walkRange, memOk_dispTake]

/-! ### Groups, faults, records and what is sent (`Machine/Ops`) -/

omit h in
@[simp] theorem memOk_acting {r : GRef} {x : Option State} (hx : OptOk x) : OptOk (s.acting r x) := by
  unfold State.acting; grind [OptOk]

@[simp] theorem memOk_modWg (r : GRef) (f : Workgroup → Workgroup) : (s.modWg r f).memOk = true :=
  memOk_of_sameMem (modWg_sameMem ..) h

@[simp] theorem memOk_modGroup (r : GRef) (f : Group → Group) : (s.modGroup r f).memOk = true :=
  memOk_of_sameMem (modGroup_sameMem ..) h

@[simp] theorem memOk_setGroup (r : GRef) (g : Group) : (s.setGroup r g).memOk = true :=
  memOk_of_sameMem (setGroup_sameMem ..) h

@[simp] theorem memOk_modLaunch (ctx lnum : Nat) (f : Launch → Launch) : (s.modLaunch ctx lnum f).memOk = true := h

@[simp] theorem memOk_send (deps : List (Nat × Nat)) (ctx lnum : Nat) (k : OutKind) : (s.send deps ctx lnum k).memOk = true :=
  memOk_of_sameMem (send_sameMem ..) h

@[simp] theorem memOk_sendRecord (col : Option Nat) (ctx lnum : Nat) (rec : BitVec 512) : (s.sendRecord col ctx lnum rec).memOk = true :=
  memOk_of_sameMem (sendRecord_sameMem ..) h

@[simp] theorem memOk_endWg (r : GRef) (rec : BitVec 512) : (s.endWg r rec).memOk = true :=
  memOk_of_sameMem (endWg_sameMem ..) h

@[simp] theorem memOk_fetchLine (r : GRef) (w : Workgroup) (g : Group) (addr : Nat) : (s.fetchLine r w g addr).state.memOk = true :=
  memOk_of_sameMem (fetchLine_sameMem ..) h

@[simp] theorem memOk_checkTarget (r : GRef) (w : Workgroup) (g : Group) (t : DWord) (tgt : Bool) : (s.checkTarget r w g t tgt).state.memOk = true :=
  memOk_of_sameMem (checkTarget_sameMem ..) h

@[simp] theorem memOk_lost (r : GRef) (w : Workgroup) (g : Group) (f : FaultInfo) : (s.lost r w g f).memOk = true :=
  memOk_of_sameMem (lost_sameMem ..) h

@[simp] theorem memOk_doubleFault (r : GRef) (w : Workgroup) (g : Group) (f : FaultInfo) : (s.doubleFault r w g f).memOk = true :=
  memOk_of_sameMem (doubleFault_sameMem ..) h

@[simp] theorem memOk_deliver (r : GRef) (w : Workgroup) (g : Group) (f : FaultInfo) : OptOk (s.deliver r w g f) := by
  cases hd : s.deliver r w g f with
  | none => trivial
  | some t => exact memOk_of_sameMem (deliver_sameMem hd) h

@[simp] theorem memOk_raise (r : GRef) (w : Workgroup) (g : Group) (f : FaultInfo) : (s.raise r w g f).memOk = true :=
  memOk_of_sameMem (raise_sameMem ..) h

/-! ### Answers of an instruction (`Machine/Operands`) -/

omit h in
@[simp] theorem memOk_actTrap (k : Cause) : (Act.trap k).Ok := trivial

@[simp] theorem memOk_envResult (e : Env) (ty : Ty) (d : Operand) (f : Nat → Nat × Flags) : (e.result s ty d f).Ok := h

/-! ### Accesses of lanes (`Machine/Access`) -/

@[simp] theorem memOk_copyPeer (tower fep pa mt : Nat) : (s.copyPeer tower fep pa mt).memOk = true :=
  memOk_of_sameMem (copyPeer_sameMem ..) h

@[simp] theorem memOk_dropPeer (fep pa n : Nat) : (s.dropPeer fep pa n).memOk = true := h

@[simp] theorem memOk_countMet (core : Nat) (old new : Met) : (s.countMet core old new).memOk = true :=
  memOk_of_sameMem (countMet_sameMem ..) h

@[simp] theorem memOk_meets (core : Nat) (fill : Fill) (cached : Bool) (mems : List (Loc × Nat × Nat)) (m : Met) :
    (s.meets core fill cached mems m).2.2.memOk = true :=
  memOk_of_sameMem (meets_sameMem ..) h

@[simp] theorem memOk_readAll (core : Nat) (fill : Fill) (ls : List (Nat × List Piece)) (m : Met) : (s.readAll core fill ls m).2.2.memOk = true :=
  memOk_of_sameMem (readAll_sameMem ..) h

@[simp] theorem memOk_retire (r : GRef) (core : Nat) : (s.retire r core).memOk = true :=
  memOk_of_sameMem (retire_sameMem ..) h

@[simp] theorem memOk_boundary (r : GRef) (core : Nat) : (s.boundary r core).memOk = true := by
  fun_cases State.boundary <;> simp [h]

@[simp] theorem memOk_kill (r : GRef) (m : LaneMap) (iaddr mstep place paddr : Nat) : (s.kill r m iaddr mstep place paddr).memOk = true :=
  memOk_of_sameMem (kill_sameMem ..) h

@[simp] theorem memOk_killBad (r : GRef) (bad : List (Nat × Loc × Nat)) (iaddr mstep : Nat) : (s.killBad r bad iaddr mstep).memOk = true :=
  memOk_of_sameMem (killBad_sameMem ..) h

@[simp] theorem memOk_stay (r : GRef) (until_ : Nat) : (s.stay r until_).memOk = true :=
  memOk_of_sameMem (stay_sameMem ..) h

@[simp] theorem memOk_askPeers (e : Env) (as : List PeerAsk) (waits : Option Bool) : (s.askPeers e as waits).memOk = true :=
  memOk_of_sameMem (askPeers_sameMem ..) h

/-! ### Issue (`Machine/Issue`) -/

@[simp] theorem memOk_stayFor (r : GRef) (until_ : Nat) (regs : List RegName) : (s.stayFor r until_ regs).memOk = true :=
  memOk_of_sameMem (stayFor_sameMem ..) h

@[simp] theorem memOk_metBy (t : State) : (s.metBy t).memOk = true :=
  memOk_of_sameMem (metBy_sameMem ..) h

/-- What follows a meaning's answer keeps the form where the answer does. -/
theorem memOk_conclude {t : State} (ht : s.sameMem t) (r : GRef) (w : Workgroup) (g : Group) (v : View) (f : Form) {a : Act} (ha : a.Ok) :
    (s.conclude t r w g v f a).memOk = true := by
  have hsame := conclude_sameMem r w g v f a ht
  cases a with
  | done u g' | placed u g' | park u g' => exact memOk_setGroup ha ..
  | ends u => exact ha
  | faultWith u x => exact memOk_raise ha ..
  | jump | fault | stay | ask => exact memOk_of_sameMem (hsame (sameMem_refl t)) h

/-- An instruction word keeps the form where its own meaning does. -/
theorem memOk_issueWord {i : Instr} {own all : Bool} {body : View → Env → State → Act}
    (hb : ∀ v e (u : State), u.memOk = true → (body v e u).Ok) : OutOk (issueWord i s own all body) := by
  unfold issueWord
  split
  · trivial
  · rename_i r _
    split
    · rename_i w g v f _ _
      have hc := admit_sameMem s r w g v f own all
      show (State.issue ..).memOk = true
      unfold State.issue
      split <;> rename_i hk <;> rw [hk] at hc
      · exact memOk_of_sameMem hc h
      · exact memOk_conclude h hc r w g v f (hb _ _ _ (memOk_of_sameMem hc h))
    · trivial

@[simp] theorem memOk_ahead (r : GRef) (w : Workgroup) (g : Group) : (s.ahead r w g).Ok := by
  unfold State.ahead
  dsimp only
  split
  · exact memOk_raise h ..
  · split
    · exact memOk_raise h ..
    · split
      · exact h
      · grind [Ahead.Ok, State.memOk, memOk_raise, memOk_modGroup]

@[simp] theorem memOk_pick (core sched : Nat) : (s.pick core sched).Ok := by
  unfold State.pick
  split
  · exact h
  · exact memOk_ahead h ..

@[simp] theorem memOk_fetchNext (r : GRef) : OptOk (s.fetchNext r) := by
  unfold State.fetchNext
  grind [FetchRes.state, OptOk, memOk_raise, memOk_fetchLine]

@[simp] theorem memOk_refetch (r : GRef) : OptOk (s.refetch r) := by
  unfold State.refetch
  grind [FetchRes.state, OptOk, memOk_modGroup, memOk_raise, memOk_fetchLine]

/-! ### Records and fragments (`Machine/Tensor`) -/

@[simp] theorem memOk_setIdent (core ctx n : Nat) (r : Option Rec) : (s.setIdent core ctx n r).memOk = true := h

/-! ### Loads and stores (`Machine/LoadStore`) -/

@[simp] theorem memOk_storePieces (x : Writer) (ps : List Piece) (bs : List Byte) : (s.storePieces x ps bs).memOk = true :=
  List.foldlRecOn (motive := fun (a : State × List Byte) => a.1.memOk = true) _ _ h fun a ha p _ => by
    dsimp only
    split
    · exact memOk_colStore ha ..
    · exact memOk_send (memOk_dropPeer ha ..) ..

@[simp] theorem memOk_readLane (core : Nat) (fill : Fill) (ps : List Piece) (m : Met) : (s.readLane core fill ps m).2.2.memOk = true := by
  unfold State.readLane
  grind [memOk_readAll]

@[simp] theorem memOk_lanesDone (r : GRef) (core : Nat) (q : LaneReq) : (s.lanesDone r core q).memOk = true := by
  unfold State.lanesDone
  grind [memOk_modGroup, memOk_boundary, memOk_killBad]

@[simp] theorem memOk_laneStep (r : GRef) (w : Workgroup) (g : Group) (q : LaneReq) (k : Nat) : OptOk (s.laneStep r w g q k) := by
  unfold State.laneStep
  grind [OptOk, memOk_modGroup, memOk_readLane, memOk_storePieces, memOk_lanesDone]

omit h in
@[simp] theorem memOk_envFragRec (e : Env) (c : Ctl) (o : OpsR) : ErrOk (e.fragRec c o s) := by
  rw [Env.fragRec]
  cases s.ident e.w.core e.r.ctx (e.u o.a) with
  | ok r =>
    dsimp only
    split
    · trivial
    · split <;> trivial
  | held => trivial
  | bad | unbound => trivial

@[simp] theorem memOk_meetLine (cl line : Nat) : (s.meetLine cl line).memOk = true := by
  fun_cases State.meetLine <;> simp [h]

@[simp] theorem memOk_fillWhole (cl : Nat) (fill : Hint) (a : Nat × Nat) : (s.fillWhole cl fill a).memOk = true := by
  unfold State.fillWhole
  grind [memOk_setCluster, memOk_meetLine]

@[simp] theorem memOk_fillLine (cl : Nat) (fill : Hint) (t : Option Target) : (s.fillLine cl fill t).memOk = true := by
  fun_cases State.fillLine <;> simp [h]

@[simp] theorem memOk_pinOne (cl ctx quota : Nat) (fill : Hint) (t : Option Target) : (s.pinOne cl ctx quota fill t).1.memOk = true := by
  fun_cases State.pinOne <;> simp [h]

@[simp] theorem memOk_uniBytes (e : Env) (op : ObjOp) (ps : List Piece) : (s.uniBytes e op ps).2.memOk = true := by
  unfold State.uniBytes
  split
  rename_i bs bad met t hfold
  have ht : t.memOk = true := by
    rw [← show _ = t from congrArg (fun a => a.2.2.2) hfold]
    refine List.foldlRecOn (motive := fun (a : List Byte × Bool × Met × State) => a.2.2.2.memOk = true) ps _ h fun a ha p _ => ?_
    split
    · split <;> exact ha
    · exact memOk_readLane ha ..
  split <;> exact ht

@[simp] theorem memOk_uniRead (e : Env) (op : ObjOp) (ps : List Piece) : ExceptOk Act.Ok (s.uniRead e op ps) := by
  fun_cases State.uniRead <;> simp [ExceptOk, h]

@[simp] theorem memOk_bindRec (core ctx n : Nat) (r : Rec) : ExceptStateOk (fun _ => True) (s.bindRec core ctx n r) := by
  fun_cases State.bindRec <;> simp [ExceptStateOk, h]

@[simp] theorem memOk_bindStep (r : GRef) (w : Workgroup) (g : Group) (n : Nat) (bs : List Byte) : OptOk (s.bindStep r w g n bs) := by
  unfold State.bindStep
  grind [ExceptStateOk, OptOk, memOk_modGroup, memOk_boundary, memOk_bindRec, memOk_raise, memOk_setIdent]

/-! ### Atomics and reductions (`Machine/Atomics`) -/

@[simp] theorem memOk_atomNear (x : Writer) (op : Nat) (ty : Ty) (l : Loc) (arg new : DWord) : (s.atomNear x op ty l arg new).2.memOk = true := by
  unfold State.atomNear
  grind [memOk_colStore]

@[simp] theorem memOk_atomAll (x : Nat → Writer) (op : Nat) (ty : Ty) (arg new : Nat → DWord) (as : List (Nat × List Piece))
    (gs : List (Nat × Got)) :
    (s.atomAll x op ty arg new as gs).2.memOk = true :=
  List.foldlRecOn (motive := fun (a : List (Nat × LaneVal) × State) => a.2.memOk = true) _ _ h fun a ha p _ => by
    dsimp only
    split
    · exact ha
    · exact memOk_atomNear ha ..
    · exact ha

theorem memOk_atomBody (op : Nat) (c : Ctl) (o : OpsR) (e : Env) : (atomBody op c o e s).Ok := by
  unfold atomBody
  extract_lets uni lanes arg new col near
  split
  split
  · trivial
  · trivial
  · dsimp only
    split
    · split
      · trivial
      · refine memOk_foldl (fun t a ht => ?_) _ h
        split
        · exact memOk_send (memOk_dropPeer ht ..) ..
        · exact ht
    · split
      · trivial
      · grind [Act.Ok, memOk_readAll, memOk_atomAll]

@[simp] theorem memOk_homeRead (core : Nat) (l : Loc) (n : Nat) (m : Met) : (s.homeRead core l n m).2.2.memOk = true := by
  simp [State.homeRead, h]

@[simp] theorem memOk_atomRead (w : Workgroup) (q : AtomReq) (a : AtomLane) : ExceptOk3 (fun x => x.s.memOk = true) (s.atomRead w q a) := by
  unfold State.atomRead
  grind [ExceptOk3, memOk_homeRead, memOk_readLane]

@[simp] theorem memOk_atomWrite (r : GRef) (w : Workgroup) (q : AtomReq) (a : AtomLane) (old : Nat) : (s.atomWrite r w q a old).memOk = true := by
  unfold State.atomWrite
  grind [memOk_putProv, memOk_colStore]

@[simp] theorem memOk_atomStep (r : GRef) (w : Workgroup) (g : Group) (q : AtomReq) (a : AtomLane) (ext : List Byte) :
    AtomOk (s.atomStep r w g q a ext) := by
  unfold State.atomStep
  grind [AtomOk, ExceptOk3, memOk_atomRead, memOk_dropPeer, memOk_answered, memOk_atomWrite]

@[simp] theorem memOk_atomicNext (r : GRef) (core : Nat) (q : AtomReq) : (s.atomicNext r core q).memOk = true := by
  fun_cases State.atomicNext <;> simp [h]

@[simp] theorem memOk_atomicGot (r : GRef) (core : Nat) (q : AtomReq) (lane : Nat) (v : LaneVal) (met : Met) :
    (s.atomicGot r core q lane v met).memOk = true := by
  simp [State.atomicGot, h]

@[simp] theorem memOk_redLane (x : Writer) (op : Nat) (ty : Ty) (sc : Scope) (arg : DWord) (bad : Option (Loc × Nat)) (met : Met) (t : Target) :
    (s.redLane x op ty sc arg bad met t).memOk = true := by
  unfold State.redLane
  grind [memOk_send, memOk_dropPeer, memOk_setCol, memOk_sendRecord, memOk_atomNear]

@[simp] theorem memOk_atomicPerform (r : GRef) (k : Nat) (ext : List Byte) : OptOk (s.atomicPerform r k ext) := by
  unfold State.atomicPerform
  split
  · trivial
  · split
    · rename_i w g _ _ q0 _
      extract_lets q col
      split
      · grind [OptOk, memOk_atomicNext]
      · rename_i a _
        have hstep := memOk_atomStep h r w g q a ext
        extract_lets x t
        refine optOk_unless ?_
        split
        · split
          · refine optOk_unless (memOk_atomicGot (memOk_redLane h ..) ..)
          · split
            · trivial
            · rename_i o ho
              rw [ho] at hstep
              split
              · exact optOk_unless (memOk_atomicGot (memOk_sendRecord hstep ..) ..)
              · exact memOk_atomicGot hstep ..
        · cases ho : s.atomStep r w g q a ext with
          | none => trivial
          | some o => rw [ho] at hstep; exact memOk_atomicGot hstep ..
    · trivial

@[simp] theorem memOk_atomicHalf (r : GRef) (k : Nat) : OptOk (s.atomicHalf r k) := by
  unfold State.atomicHalf
  split
  · trivial
  · split
    · dsimp only
      split
      · trivial
      · grind [OptOk, ExceptOk3, memOk_atomRead, memOk_modGroup]
    · trivial

@[simp] theorem memOk_shareRead (x : Writer) (sec : Loc) (bad : Bool) : (s.shareRead x sec bad).memOk = true := h

@[simp] theorem memOk_redMeet (xs : List (Writer × RedMark)) (l : Loc) (n : Nat) : (s.redMeet xs l n).2.memOk = true := by
  unfold State.redMeet
  extract_lets served hit
  split
  rename_i b t hbt
  have ht : t.memOk = true := by grind [memOk_meet]
  have hshare (sec : Loc) (bad : Bool) : (xs.foldl (fun t x => t.shareRead x.1 sec bad) t).memOk = true :=
    memOk_foldl (fun u x hu => memOk_shareRead hu ..) _ ht
  dsimp only
  split
  · exact hshare ..
  · split <;> [exact hshare ..; exact ht]

@[simp] theorem memOk_mergeAt (qs : List WqRed) (plan : MergePlan) (l : Loc) (op : Nat) (ty : Ty) : (s.mergeAt qs plan l op ty).memOk = true := by
  unfold State.mergeAt
  extract_lets n lose mine s1 left
  have hlose : ∀ {t : State}, t.memOk = true → ∀ q b, (lose t q b).memOk = true := fun ht q b => memOk_sendRecord ht ..
  have h1 : s1.memOk = true := memOk_foldl (fun t q ht => by split <;> [exact hlose ht ..; exact ht]) _ h
  have hm := memOk_redMeet h1 (left.map fun q => (q.x, q.mark)) l n
  split
  · exact h1
  · split <;> rename_i hk <;> rw [hk] at hm
    · exact memOk_foldl (fun t q ht => hlose ht ..) _ hm
    · extract_lets vals
      split
      · exact memOk_put hm ..
      · exact hm

@[simp] theorem memOk_redApply (q : WqRed) (qs : List WqRed) (plan : MergePlan) : (s.redApply q qs plan).memOk = true := by
  unfold State.redApply
  extract_lets t
  have ht : t.memOk = true := h
  split
  · exact memOk_put ht ..
  · exact memOk_foldl (fun u l hu => memOk_mergeAt hu ..) _ ht

@[simp] theorem memOk_reductionPerform (l : Loc) (plan : MergePlan) : OptOk (s.reductionPerform l plan) := by
  fun_cases State.reductionPerform <;> simp [h]

@[simp] theorem memOk_redAlone (n : Nat) : OptOk (s.redAlone n) := by
  fun_cases State.redAlone <;> simp [h]

@[simp] theorem memOk_redHalf (n : Nat) : OptOk (s.redHalf n) := by
  unfold State.redHalf
  grind [State.memOk, OptOk, memOk_redMeet]

/-! ### Objects (`Machine/Objects`) -/

omit h in
@[simp] theorem memOk_objAt (e : Env) (x : BitVec 10) (addr n : Nat) (acc : Access) : ErrOk (e.objAt s x addr n acc) := by
  unfold Env.objAt
  grind [ErrOk, Act.Ok]

@[simp] theorem memOk_objRead (e : Env) (op : ObjOp) (ps : List Piece) : (s.objRead e op ps).2.memOk = true := by
  unfold State.objRead
  grind [memOk_uniBytes]

@[simp] theorem memOk_objPut (x : Writer) (ps : List Piece) (bs : List Byte) : (s.objPut x ps bs).memOk = true := by
  unfold State.objPut
  split
  · exact memOk_putProv h ..
  · exact memOk_dropPeer h ..
  · exact h

omit h in
@[simp] theorem memOk_scopeFault (addr : Nat) : (scopeFault addr).Ok := trivial

/-! ### Barriers, rings and semaphores (`Machine/Sync`) -/

@[simp] theorem memOk_barAt (e : Env) (c : Ctl) (x : BitVec 10) (addr : Nat) (acc : Access) (op : ObjOp) (waits : Option Bool) :
    ExceptOk3 Act.Ok (e.barAt s c x addr acc op waits) := by
  have ho := memOk_objAt (s := s) e x addr 16 acc
  unfold Env.barAt
  grind [ExceptOk3, ErrOk, Act.Ok, memOk_objRead, memOk_metBy, memOk_scopeFault]

@[simp] theorem memOk_arriveBody (c : Ctl) (o : OpsR) (n : Nat) (e : Env) : (arriveBody c o n e s).Ok := by
  unfold arriveBody
  grind [Act.Ok, ExceptOk3, memOk_objPut, memOk_metBy, memOk_barAt]

@[simp] theorem memOk_waitBody (c : Ctl) (o : OpsR) (swap : Bool) (e : Env) : (waitBody c o swap e s).Ok := by
  unfold waitBody
  grind [Act.Ok, ExceptOk3, memOk_barAt]

@[simp] theorem memOk_ringAt (e : Env) (c : Ctl) (x : BitVec 10) (addr : Nat) (acc : Access) (waits : Option Bool) :
    ExceptOk3 Act.Ok (e.ringAt s c x addr acc waits) := by
  have ho := memOk_objAt (s := s) e x addr 32 acc
  unfold Env.ringAt
  grind [ExceptOk3, ErrOk, Act.Ok, memOk_objRead, memOk_metBy, memOk_scopeFault, memOk_barAt]

@[simp] theorem memOk_relRing (e : Env) (ps : List Piece) (r : Nat) : ExceptOk Act.Ok (s.relRing e ps r) := by
  fun_cases State.relRing <;> simp [ExceptOk, h]

theorem memOk_semBody (c : Ctl) (o : OpsR) (up : Bool) (e : Env) : (semBody c o up e s).Ok := by
  have ho := memOk_objAt (s := s) e o.x (e.objAddr o.a o.x) 8 .write
  unfold semBody
  grind [ErrOk, Act.Ok, memOk_objRead, memOk_metBy, memOk_scopeFault, memOk_objPut]

@[simp] theorem memOk_waitReads (r : GRef) (w : Workgroup) (g : Group) (a : Wait) : SndOk (s.waitReads r w g a) := by
  unfold State.waitReads
  grind [ExceptOk, SndOk, memOk_uniRead]

@[simp] theorem memOk_peerData (r : GRef) (k : Nat) (ext : Option (List Byte)) : OptOk (s.peerData r k ext) := by
  unfold State.peerData
  grind [OptOk, memOk_modGroup, memOk_dropPeer, memOk_answered]

@[simp] theorem memOk_askFailed (r : GRef) : OptOk (s.askFailed r) := by
  fun_cases State.askFailed <;> simp [h]

@[simp] theorem memOk_polled (t : State) (r : GRef) (g : Group) : OptOk (s.polled t r g) := by
  unfold State.polled
  split
  · exact memOk_modGroup (memOk_metBy h t) ..
  · split <;> [trivial; exact memOk_modGroup h ..]

@[simp] theorem memOk_phaseWait (r : GRef) : OptOk (s.phaseWait r) := by
  unfold State.phaseWait
  split
  · trivial
  · split
    · trivial
    · split
      · trivial
      · grind [OptOk, SndOk, memOk_waitReads, memOk_polled, memOk_modGroup, memOk_raise, memOk_ask]

/-! ### Page-table walks (`Machine/Walks`) -/

@[simp] theorem memOk_setWalk (n : Nat) (w : Walk) : (s.setWalk n w).memOk = true := h

@[simp] theorem memOk_tellFault (f : XFault) (a : Requester) : (s.tellFault f a).memOk = true := by
  fun_cases State.tellFault <;> simp [h]

@[simp] theorem memOk_tellFaults (page : Nat) (k : Cause) (paddr : Nat) (rs : List WalkReq) : (s.tellFaults page k paddr rs).memOk = true :=
  memOk_foldl (fun _ _ ht => memOk_tellFault ht ..) _ h

@[simp] theorem memOk_walkFault (n : Nat) (w : Walk) (k : Cause) (paddr : Nat) : (s.walkFault n w k paddr).memOk = true := by
  unfold State.walkFault
  grind [State.memOk, memOk_tellFaults]

@[simp] theorem memOk_walkCache (n : Nat) (w : Walk) (entry size : Nat) (peer : Option (Nat × Nat)) :
    (s.walkCache n w entry size peer).memOk = true := h

@[simp] theorem memOk_fillCore (core n : Nat) : (s.fillCore core n).memOk = true := by
  unfold State.fillCore
  grind [State.memOk]

@[simp] theorem memOk_permitted (w : Walk) (e : Nat) : (s.permitted w e).2.memOk = true :=
  memOk_foldl (fun t r ht => by split <;> [exact memOk_tellFaults ht ..; exact ht]) _ h

@[simp] theorem memOk_walkLeaf (n : Nat) (w : Walk) (at_ entry size : Nat) (peer : Option (Nat × Nat)) :
    (s.walkLeaf n w at_ entry size peer).memOk = true := by
  fun_cases State.walkLeaf <;> simp [h]

@[simp] theorem memOk_startWalk (n : Nat) : OptOk (s.startWalk n) := by
  unfold State.startWalk
  grind [State.memOk, OptOk, memOk_walkFault, memOk_setWalk]

@[simp] theorem memOk_serviceRead (a n : Nat) : SndOk (s.serviceRead a n) := by
  unfold State.serviceRead
  grind [SndOk, memOk_meet]

@[simp] theorem memOk_entryRead (n : Nat) : OptOk (s.entryRead n) := by
  unfold State.entryRead
  split
  · trivial
  · extract_lets go
    have hgo (level table : Nat) (first : Bool) : OptOk (go level table first) := by
      dsimp only [go]
      grind [OptOk, SndOk, State.memOk, memOk_serviceRead, memOk_walkFault, memOk_setWalk, memOk_permitted, memOk_walkLeaf]
    split
    · exact hgo ..
    · exact hgo ..
    · trivial

@[simp] theorem memOk_adUpdate (n : Nat) : OptOk (s.adUpdate n) := by
  unfold State.adUpdate
  grind [OptOk, SndOk, memOk_walkFault, memOk_serviceRead, memOk_setWalk, memOk_put, memOk_walkCache]

@[simp] theorem memOk_peerTable (n : Nat) : OptOk (s.peerTable n) := by
  unfold State.peerTable
  grind [OptOk, SndOk, memOk_walkFault, memOk_serviceRead, memOk_setWalk]

@[simp] theorem memOk_peerReplyIn (n : Nat) (admits : Bool) : OptOk (s.peerReplyIn n admits) := by
  unfold State.peerReplyIn
  grind [State.memOk, OptOk, memOk_walkFault, memOk_walkLeaf, memOk_permitted]

@[simp] theorem memOk_peerTimeout (n : Nat) : OptOk (s.peerTimeout n) := by
  fun_cases State.peerTimeout <;> simp [h]

/-! ### Deliveries to groups (`Machine/Deliver`) -/

@[simp] theorem memOk_fillPeer (tower since fep pa : Nat) (bs : List Byte) : (s.fillPeer tower since fep pa bs).memOk = true := h

@[simp] theorem memOk_fillParts (tower since : Nat) (ps : List PeerPart) (ext : List Byte) : (s.fillParts tower since ps ext).memOk = true := by
  fun_induction State.fillParts with
  | case1 s fep _ pa n ps ext ih => exact ih (by split <;> [exact h; exact memOk_fillPeer h ..])
  | case2 s bs ps ext ih => exact ih h
  | case3 => exact h

@[simp] theorem memOk_deliverData (r : GRef) (n : Nat) (ext : List Byte) : OptOk (s.deliverData r n ext) := by
  unfold State.deliverData
  grind [OptOk, memOk_setGroup, memOk_fillParts, memOk_killBad]

@[simp] theorem memOk_peerReply (r : GRef) (k : Nat) (ext : Option (List Byte)) : OptOk (s.peerReply r k ext) := by
  unfold State.peerReply
  grind [OptOk, memOk_modGroup, memOk_peerData, memOk_fillPeer]

@[simp] theorem memOk_stepLane (r : GRef) (k : Nat) (ext : List Byte) : OptOk (s.stepLane r k ext) := by
  fun_cases State.stepLane <;> simp [h]

@[simp] theorem memOk_watchdog (r : GRef) (k : Cause) (fires : Group → Bool) : OptOk (s.watchdog r k fires) := by
  fun_cases State.watchdog <;> simp [h]

@[simp] theorem memOk_watch (r : GRef) : OptOk (s.watch r) :=
  optOk_or (optOk_or (memOk_watchdog h ..) (memOk_watchdog h ..)) (memOk_watchdog h ..)

@[simp] theorem memOk_trapDeliver (r : GRef) : OptOk (s.trapDeliver r) := by
  fun_cases State.trapDeliver <;> simp [h]

/-! ### FIFOs and banks (`Machine/Fifo`) -/

@[simp] theorem memOk_setVfOut (core : Nat) (f : VFifo) : (s.setVfOut core f).memOk = true := h

@[simp] theorem memOk_setVfIn (core : Nat) (f : VFifo) : (s.setVfIn core f).memOk = true := h

@[simp] theorem memOk_setBankFifo (w : Workgroup) (k : Nat) (q : VFifo) : (s.setBankFifo w k q).memOk = true := h

@[simp] theorem memOk_popInto (e : Env) (o : OpsR) (x : VReg × LaneMap) : (popInto s e o x).Ok := by
  unfold popInto
  grind [Act.Ok, memOk_setGroup, memOk_kill, memOk_count]

omit h in
@[simp] theorem memOk_bankFifo (e : Env) (k : Nat) : ErrOk (e.bankFifo s k) := by
  unfold Env.bankFifo
  split <;> trivial

@[simp] theorem memOk_fifoWait (o : OpsR) (k : FifoCount) (e : Env) : (fifoWait o k e s).Ok := by
  fun_cases fifoWait <;> simp [h]

@[simp] theorem memOk_setCmin (cl n : Nat) : (s.setCmin cl n).memOk = true := h

@[simp] theorem memOk_releaseBank (cl bank : Nat) : (s.releaseBank cl bank).memOk = true := by
  fun_cases State.releaseBank <;> simp [h]

/-! ### Engines (`Machine/Engine`) -/

@[simp] theorem memOk_setQueue (q : QRef) (es : List Entry) : (s.setQueue q es).memOk = true := h

@[simp] theorem memOk_setHead (q : QRef) (e : Entry) : (s.setHead q e).memOk = true := h

@[simp] theorem memOk_everyEntry (f : Entry → Entry) : (s.everyEntry f).memOk = true := h

@[simp] theorem memOk_clearTok (e : Entry) : (s.clearTok e).memOk = true := by
  fun_cases State.clearTok <;> simp [h]

@[simp] theorem memOk_leave (q : QRef) (e : Entry) : (s.leave q e).memOk = true := by
  unfold State.leave
  grind [memOk_clearTok, memOk_setCore]

@[simp] theorem memOk_settleN (n : Nat) (q : QRef) : (State.settleN n s q).memOk = true := by
  induction n generalizing s with
  | zero => exact h
  | succ n ih =>
    unfold State.settleN
    split
    · split
      · exact ih (memOk_leave h ..)
      · exact h
    · exact h

@[simp] theorem memOk_settle (q : QRef) : (s.settle q).memOk = true := by
  simp [State.settle, h]

@[simp] theorem memOk_fail (q : QRef) (e : Entry) (f : FaultInfo) : (s.fail q e f).memOk = true := h

@[simp] theorem memOk_park (q : QRef) (e : Entry) (f : FaultInfo) : (s.park q e f).memOk = true := h

@[simp] theorem memOk_engFault (q : QRef) (e : Entry) (k : Cause) (addr paddr : Nat) : OptOk (s.engFault q e k addr paddr) := by
  fun_cases State.engFault <;> simp [h]

@[simp] theorem memOk_engineEnd (q : QRef) : OptOk (s.engineEnd q) := by
  unfold State.engineEnd
  split
  · split
    · rename_i e _ f _
      split
      · trivial
      · extract_lets report gone cs s1 s2
        have h1 : s1.memOk = true := memOk_foldl (fun t c ht => memOk_setQueue ht ..) _ (memOk_clearTok h _)
        have h2 : s2.memOk = true := by dsimp only [s2]; split <;> [exact memOk_sendRecord h1 ..; exact memOk_endWg h1 ..]
        exact memOk_foldl (fun t c ht => memOk_settle ht ..) _ h2
    · trivial
  · trivial

@[simp] theorem memOk_engRead (core : Nat) (fill : Fill) (ps : List Piece) (ext : List Byte) : (s.engRead core fill ps ext).2.memOk = true := by
  unfold State.engRead
  grind [memOk_meets]

@[simp] theorem memOk_renew (col : Nat) (good : Loc → Bool) : (s.renew col good).memOk = true := by
  unfold State.renew
  dsimp only
  split <;> exact h

@[simp] theorem memOk_engCommit (core : Nat) (ps : List Piece) (bs : List Byte) : (s.engCommit core ps bs).memOk = true :=
  memOk_renew (List.foldlRecOn (motive := fun (a : State × List Byte) => a.1.memOk = true) _ _ h fun a ha p _ => by
    dsimp only
    split <;> [exact memOk_putProv ha ..; exact ha]) ..

@[simp] theorem memOk_holdPages (q : QRef) (e : Entry) (moved : Bool) (ns : List Need) : OptOk (s.holdPages q e moved ns) := by
  induction ns generalizing e moved with
  | nil => unfold State.holdPages; split <;> [exact memOk_setHead h ..; trivial]
  | cons n ns ih =>
    unfold State.holdPages
    grind [OptOk, memOk_fail, memOk_engFault, memOk_setHead, memOk_ask]

theorem memOk_survey (q : QRef) (e : Entry) (moved : Bool) (ns : List Need) :
    match s.survey q e moved ns with | .error t => OptOk t | .ok _ => True := by
  induction ns generalizing e moved with
  | nil => trivial
  | cons n ns ih =>
    unfold State.survey
    grind [OptOk, memOk_fail, memOk_engFault, memOk_setHead, memOk_ask]

@[simp] theorem memOk_pretranslate (q : QRef) : OptOk (s.pretranslate q) := by
  unfold State.pretranslate
  split
  · trivial
  · rename_i e _
    split
    · trivial
    · split
      · trivial
      · exact memOk_fail h ..
      · rename_i ns _
        have hs := memOk_survey h q e false ns
        split <;> rename_i hk
        · rw [hk] at hs; exact hs
        · exact memOk_holdPages h ..

omit h in
@[simp] theorem memOk_postFault (q : Nat) (f : FaultInfo) : (postFault q f).Ok := trivial

@[simp] theorem memOk_post (e : Env) (qs : List QRef) (cmd : Cmd) (bar : Option Bar) (failed : Option FaultInfo) :
    (e.post s qs cmd bar failed).Ok := by
  unfold Env.post
  split
  · trivial
  · extract_lets mk t
    have ht : t.memOk = true := h
    split
    · split <;> [exact ht; exact memOk_setQueue ht ..]
    · exact memOk_foldl (fun u q hu => memOk_setQueue hu ..) _ ht

@[simp] theorem memOk_landOn (q : QRef) (e : Entry) (b : Bar) (n : Nat) : LandOk (s.landOn q e b n) := by
  unfold State.landOn
  dsimp only
  split
  · exact h
  · split
    · split
      · exact h
      · cases e.reply with
        | none => trivial
        | some r => grind [LandOk, memOk_dropPeer]
    · grind [LandOk, memOk_engRead, memOk_objPut]

@[simp] theorem memOk_sendHead (q : QRef) (e : Entry) (a : PeerAsk) : OptOk (s.sendHead q e a) := by
  fun_cases State.sendHead <;> simp [h]

@[simp] theorem memOk_landAsk (q : QRef) (e : Entry) (b : Bar) (n : Nat) : OptOk (s.landAsk q e b n) := by
  fun_cases State.landAsk <;> simp [h]

@[simp] theorem memOk_peerLanded (q : QRef) (ext : Option (List Byte)) : OptOk (s.peerLanded q ext) := by
  unfold State.peerLanded
  grind [OptOk, memOk_dropPeer, memOk_answered, memOk_fail, memOk_setHead]

@[simp] theorem memOk_land (q : QRef) (n : Nat) : OptOk (s.land q n) := by
  unfold State.land
  grind [OptOk, LandOk, memOk_landOn, memOk_landAsk, memOk_fail, memOk_settle, memOk_setHead]

/-! ### Yarders (`Machine/Yarder`) -/

omit h in
@[simp] theorem memOk_postIdent (e : Env) (q : Nat) (o : Operand) : ErrOk (e.postIdent s q o) := by
  rw [Env.postIdent]
  cases s.ident e.w.core e.r.ctx (e.u o) with
  | ok | held => trivial
  | bad | unbound => trivial

theorem memOk_tileBody (load : Bool) (c : Ctl) (o : OpsR) (e : Env) : (tileBody load c o e s).Ok := by
  have hi := memOk_postIdent (s := s) e (o.x.toNat % 4) o.a
  unfold tileBody
  grind [ErrOk, memOk_post, memOk_postFault]

theorem memOk_gatherBody (scatter : Bool) (c : Ctl) (o : OpsR) (e : Env) : (gatherBody scatter c o e s).Ok := by
  unfold gatherBody
  grind [memOk_post, memOk_postFault]

@[simp] theorem memOk_moveTile (q : QRef) (e : Entry) (src dst : List Piece) : OptOk (s.moveTile q e src dst) := by
  unfold State.moveTile
  grind [OptOk, memOk_engRead, memOk_settle, memOk_engCommit, memOk_fail, memOk_setHead]

@[simp] theorem memOk_tileStep (q : QRef) : OptOk (s.tileStep q) := by
  fun_cases State.tileStep <;> simp [h]

@[simp] theorem memOk_claimFail (q : QRef) (e : Entry) (k : Cause) (addr : Nat) : OptOk (s.claimFail q e k addr) := h

@[simp] theorem memOk_ringLook (q : QRef) (e : Entry) (ps : List Piece) : OptOk (s.ringLook q e ps) := by
  unfold State.ringLook
  grind [OptOk, memOk_engRead, memOk_claimFail, memOk_setHead]

@[simp] theorem memOk_claimHere (q : QRef) (e : Entry) (inS : Bool) (seen : Nat) (ps : List Piece) : OptOk (s.claimHere q e inS seen ps) := by
  unfold State.claimHere
  grind [OptOk, memOk_engRead, memOk_engCommit, memOk_claimFail, memOk_ringLook, memOk_setHead]

@[simp] theorem memOk_claimAway (q : QRef) (e : Entry) (inS : Bool) (seen fep pctx pa : Nat) : OptOk (s.claimAway q e inS seen fep pctx pa) := by
  fun_cases State.claimAway <;> simp [h]

@[simp] theorem memOk_claimBar (q : QRef) (e : Entry) (inS : Bool) (ring : Nat) : OptOk (s.claimBar q e inS ring) := by
  unfold State.claimBar
  grind [OptOk, memOk_sendHead, memOk_engRead, memOk_engCommit, memOk_claimFail, memOk_setHead]

@[simp] theorem memOk_claim (q : QRef) : OptOk (s.claim q) := by
  unfold State.claim
  repeat' split
  all_goals simp [h]

@[simp] theorem memOk_askQueue (q : QRef) (e : Entry) (pages : List Nat) (acc : Access) : OptOk (s.askQueue q e pages acc) := by
  fun_cases State.askQueue <;> simp [h]

@[simp] theorem memOk_moveRow (q : QRef) (e : Entry) (ssp src dsp dst n : Nat) (ext : List Byte) (mark : Entry → Entry) :
    OptOk (s.moveRow q e ssp src dsp dst n ext mark) := by
  unfold State.moveRow
  grind [OptOk, memOk_engRead, memOk_settle, memOk_storePieces, memOk_engFault, memOk_askQueue, memOk_fail, memOk_setHead]

@[simp] theorem memOk_copyLine (q : QRef) (k : Nat) (ext : List Byte) : OptOk (s.copyLine q k ext) := by
  fun_cases State.copyLine <;> simp [h]

@[simp] theorem memOk_indexRead (q : QRef) (k : Nat) (ext : List Byte) : OptOk (s.indexRead q k ext) := by
  unfold State.indexRead
  split
  · trivial
  · split
    · split
      · trivial
      · grind [OptOk, memOk_askQueue, memOk_engFault, memOk_engRead, memOk_fail, memOk_settle, memOk_setHead]
    · trivial

@[simp] theorem memOk_rowStep (q : QRef) (k : Nat) (ext : List Byte) : OptOk (s.rowStep q k ext) := by
  fun_cases State.rowStep <;> simp [h]

@[simp] theorem memOk_fenceRelease (q : QRef) : OptOk (s.fenceRelease q) := by
  fun_cases State.fenceRelease <;> simp [h]

/-! ### Matrix engines (`Machine/Matrix`) -/

omit h in
@[simp] theorem memOk_loopRecs (e : Env) (o : OpsR) : ErrOk (e.loopRecs s o) := by
  unfold Env.loopRecs
  grind [ErrOk, Act.Ok, memOk_postFault]

theorem memOk_loopBody (fn : Option Nat) (o : OpsR) (e : Env) : (loopBody fn o e s).Ok := by
  have hr := memOk_loopRecs (s := s) e o
  unfold loopBody
  grind [ErrOk, memOk_post, memOk_postFault]

@[simp] theorem memOk_performK (q : QRef) (e : Entry) (k : Nat) (x : KArgs) : OptOk (s.performK q e k x) := by
  unfold State.performK
  grind [State.memOk, OptOk, memOk_modGroup, memOk_engRead, memOk_settle, memOk_engCommit, memOk_fail, memOk_setHead]

@[simp] theorem memOk_kStep (q : QRef) (k : Nat) : OptOk (s.kStep q k) := by
  unfold State.kStep
  dsimp only
  repeat' split
  all_goals simp [h]

@[simp] theorem memOk_zeroLine (q : QRef) (k : Nat) : OptOk (s.zeroLine q k) := by
  unfold State.zeroLine
  grind [OptOk, memOk_settle, memOk_engCommit, memOk_setHead]

@[simp] theorem memOk_modMember (stand m : Nat) (f : Entry → Entry) : (s.modMember stand m f).memOk = true :=
  memOk_foldl (fun t c ht => by split <;> [exact memOk_setHead ht ..; exact ht]) _ h

@[simp] theorem memOk_keepHeld (core : Nat) (e : Entry) : (s.keepHeld core e).memOk = true := h

@[simp] theorem memOk_jointStart (stand : Nat) : OptOk (s.jointStart stand) := by
  unfold State.jointStart
  grind [OptOk, memOk_keepHeld, memOk_fail, memOk_everyEntry]

@[simp] theorem memOk_jointTimeout (q : QRef) : OptOk (s.jointTimeout q) := by
  fun_cases State.jointTimeout <;> simp [h]

@[simp] theorem memOk_memberEnd (stand m : Nat) (e : Entry) : OptOk (s.memberEnd stand m e) := by
  unfold State.memberEnd
  extract_lets cs q0 go
  have hgo : ∀ {t : State}, t.memOk = true → (go t).memOk = true := fun ht =>
    memOk_foldl (fun u c hu => by dsimp only; split <;> [exact memOk_settle (memOk_leave hu ..) ..; exact hu]) _ ht
  grind [OptOk, LandOk, memOk_landOn, memOk_fail, memOk_modMember]

@[simp] theorem memOk_jointAsk (stand : Nat) (es : List (Nat × Entry)) : OptOk (s.jointAsk stand es) :=
  optOk_findSome fun p => by split <;> [exact memOk_landAsk h ..; trivial]

@[simp] theorem memOk_jointComplete (stand : Nat) : OptOk (s.jointComplete stand) := by
  unfold State.jointComplete
  extract_lets live
  generalize live = l
  cases l with
  | nil => trivial
  | cons p l =>
    refine optOk_unless (optOk_or (memOk_jointAsk h ..) (List.foldlRecOn (motive := OptOk) _ _ h fun t ht p _ => optOk_bind_of_ok ht fun u hu => ?_))
    exact memOk_memberEnd hu ..

/-! ### Launches (`Machine/Launches`) -/

omit h in
theorem memOk_readGrown {ε : Type} {E : ε → Prop} {rd : Nat → State → Except ε (List Byte × State)} {size : List Byte → Nat} {t : State}
    (hrd : ∀ n, ExceptOk E (rd n s)) (n : Nat) (bs : List Byte) (ht : t.memOk = true) : ExceptOk E (readGrown rd size s n bs t) := by
  induction n generalizing bs t with
  | zero => exact ht
  | succ n ih =>
    have hr := hrd (size bs)
    unfold readGrown
    grind [ExceptOk]

theorem memOk_readMacros {ε : Type} {E : ε → Prop} {rd : Reader ε} (hrd : ReaderOk E rd) (addr : Nat) : ExceptOk E (readMacros rd addr s) := by
  have hr := hrd h addr macroSize
  unfold readMacros
  grind [ExceptOk]

theorem memOk_readTargets {ε : Type} {E : ε → Prop} {rd : Reader ε} (hrd : ReaderOk E rd) (d : Desc) (ks : List Nat) :
    ExceptOk3 E (readTargets rd d s ks) := by
  induction ks generalizing s with
  | nil => exact h
  | cons k ks ih =>
    unfold readTargets
    split
    · have hs := ih h
      split <;> rename_i hk <;> rw [hk] at hs <;> exact hs
    · have hr := hrd h (d.dtgt + 128 * k) fun _ => 128
      split <;> rename_i hk <;> rw [hk] at hr
      · exact hr
      · rename_i bs t
        have hm : ExceptOk E (if (descOf bs).macroAt == d.macroAt then .ok (some [], t) else readMacros rd (descOf bs).macroAt t) := by
          split <;> [exact hr; exact memOk_readMacros hr hrd _]
        split <;> rename_i hk <;> rw [hk] at hm
        · exact hm
        · have hs := ih hm
          split <;> rename_i hk <;> rw [hk] at hs <;> exact hs

theorem memOk_readLaunch {ε : Type} {E : ε → Prop} {rd : Reader ε} (hrd : ReaderOk E rd) (bs : List Byte) : ExceptOk E (readLaunch rd bs s) := by
  have hm := memOk_readMacros h hrd (descOf bs).macroAt
  have ht {t : State} (ht : t.memOk = true) (d : Desc) (ks : List Nat) := memOk_readTargets ht hrd d ks
  unfold readLaunch
  grind [ExceptOk, ExceptOk3]

/-! ### Regrouping and work that is discarded (`Machine/Work`) -/

@[simp] theorem memOk_request (col ctx lnum : Nat) (k : LbKind) : (s.request col ctx lnum k).memOk = true := h

@[simp] theorem memOk_modDeck (ctx lnum k : Nat) (f : Deck → Deck) : (s.modDeck ctx lnum k f).memOk = true := h

omit h in
theorem memOk_globalRead (e : Env) : ReaderOk Act.Ok e.globalRead := by
  intro s h va size
  unfold Env.globalRead
  split
  · exact h
  · extract_lets read
    have hread (n : Nat) : ExceptOk Act.Ok (read n s) := by
      dsimp only [read]
      grind [ExceptOk, Act.Ok, memOk_uniRead]
    have hg := memOk_readGrown hread (size := size) 4 [] h
    grind [ExceptOk, Act.Ok, memOk_modGroup]

@[simp] theorem memOk_tryRegroup (w : Workgroup) : OptOk (s.tryRegroup w) := by
  unfold State.tryRegroup
  extract_lets gs r
  refine optOk_unless ?_
  generalize gs = l
  cases l with
  | nil => trivial
  | cons u l =>
    dsimp -zeta only
    extract_lets off mc
    split
    · refine memOk_foldl (fun t g ht => ?_) _ h
      split <;> [exact memOk_raise ht ..; exact ht]
    · refine optOk_unless (memOk_colStore (by exact h) ..)

@[simp] theorem memOk_regroupReady (core : Nat) : OptOk (s.regroupReady core) := optOk_findSome fun w => memOk_tryRegroup h w

/-! ### Units of work (`Machine/Units`) -/

@[simp] theorem memOk_everyWg (p : Workgroup → Bool) (f : Workgroup → Workgroup) : (s.everyWg p f).memOk = true := h

@[simp] theorem memOk_release (w : Workgroup) : (s.release w).memOk = true := by
  unfold State.release
  grind [memOk_setCluster, memOk_setCore]

@[simp] theorem memOk_dropWg (w : Workgroup) : (s.dropWg w).memOk = true := by
  unfold State.dropWg
  grind [State.memOk, memOk_release]

@[simp] theorem memOk_dropAway (w : Workgroup) : (s.dropAway w).memOk = true := by
  unfold State.dropAway
  grind [State.memOk, memOk_release]

@[simp] theorem memOk_reap : s.reap.memOk = true := memOk_foldl (fun _ w ht => memOk_dropWg ht w) _ h

@[simp] theorem memOk_discard (p : Entry → Bool) : (s.discard p).memOk = true :=
  memOk_foldl (fun _ _ ht => memOk_foldl (fun _ _ hu => memOk_settle hu ..) _ ht) _ (memOk_foldl (fun _ _ ht => memOk_setCore ht ..) _ h)

@[simp] theorem memOk_discardWork (dead : Entry → Bool) : (s.discardWork dead).memOk = true := by
  unfold State.discardWork; grind [memOk_discard, memOk_everyEntry]

@[simp] theorem memOk_sweep : s.sweep.memOk = true := by
  unfold State.sweep
  split
  · exact h
  · extract_lets t gone u
    have hu : u.memOk = true := memOk_foldl (fun v w hv => memOk_dropAway hv w) _ h
    exact memOk_discardWork hu _

@[simp] theorem memOk_sweepDue : OptOk (s.sweepDue) := by
  fun_cases State.sweepDue <;> simp [h]

@[simp] theorem memOk_cancelUnit (ctx : Nat) (u : UnitRef) : (s.cancelUnit ctx u).memOk = true := by
  unfold State.cancelUnit
  grind [State.memOk, memOk_sweep]

@[simp] theorem memOk_cancelForks (ctx object : Nat) : (s.cancelForks ctx object).memOk = true := h

@[simp] theorem memOk_cancelAt (ctx object : Nat) : (s.cancelAt ctx object).memOk = true := by
  fun_cases State.cancelAt <;> simp [h]

@[simp] theorem memOk_takeFork (ctx parent : Nat) (c : Checked) (cancelled : Bool) : (s.takeFork ctx parent c cancelled).memOk = true := by
  unfold State.takeFork
  grind [State.memOk, memOk_setCtx]

@[simp] theorem memOk_enterReady (d : Launch) : (s.enterReady d).memOk = true := by
  fun_cases State.enterReady <;> simp [h]

@[simp] theorem memOk_tellDependents (l : Launch) : (s.tellDependents l).memOk = true :=
  memOk_foldl (fun t d ht => by split <;> [exact memOk_cancelUnit ht ..; exact memOk_enterReady ht ..]) _ h

@[simp] theorem memOk_advanceObject (ctx lnum addr : Nat) : SndOk (s.advanceObject ctx lnum addr) := by
  unfold State.advanceObject
  grind [ExceptOk, SndOk, Stop.Ok, memOk_walkRange, memOk_put, memOk_meet, memOk_sendRecord]

omit h in
@[simp] theorem memOk_afterAdvance {x : Option (Bool × State)} {f : State → State} (hx : SndOk x)
    (hf : ∀ {t : State}, t.memOk = true → (f t).memOk = true) : OptOk (afterAdvance x f) := by
  rcases x with _ | ⟨_ | _, t⟩
  · trivial
  · exact hx
  · exact hf hx

@[simp] theorem memOk_done (ctx : Nat) (kind : UnitKind) (object : Nat) (st : Status) (tag : Word) :
    (s.done ctx kind object st tag).memOk = true := h

@[simp] theorem memOk_completeLaunch (l : Launch) : OptOk (s.completeLaunch l) :=
  memOk_afterAdvance (memOk_advanceObject h ..) fun ht => memOk_tellDependents (memOk_done (memOk_modLaunch ht ..) ..) _

@[simp] theorem memOk_completeUnit (u : WorkUnit) : OptOk (s.completeUnit u) := by
  unfold State.completeUnit
  extract_lets st
  refine memOk_afterAdvance (memOk_advanceObject h ..) fun ht => ?_
  split <;> exact ht

@[simp] theorem memOk_unitCompletion (ctx object : Nat) : OptOk (s.unitCompletion ctx object) := by
  fun_cases State.unitCompletion <;> simp [h]

@[simp] theorem memOk_terminateWg (r : WRef) : OptOk (s.terminateWg r) := by
  unfold State.terminateWg
  split
  · trivial
  · split
    · trivial
    · extract_lets going s1 s2 s3
      split
      · trivial
      · have h1 : s1.memOk = true := memOk_foldl (fun t rec ht => memOk_sendRecord ht ..) _ h
        exact memOk_reap (memOk_discardWork (memOk_modLaunch (memOk_everyWg h1 ..) ..) _)

/-! ### Links and peers (`Machine/Links`) -/

@[simp] theorem memOk_setChan (c : Nat) (k : Channel) : (s.setChan c k).memOk = true := h

@[simp] theorem memOk_setPort (n : Nat) (p : Port) : (s.setPort n p).memOk = true := h

@[simp] theorem memOk_losePeerWrite (p : OutPkt) : (s.losePeerWrite p).memOk = true := by
  fun_cases State.losePeerWrite <;> simp [h]

@[simp] theorem memOk_depart (p : OutPkt) : (s.depart p).memOk = true := by
  unfold State.depart
  grind [State.memOk, memOk_setChan, memOk_losePeerWrite]

@[simp] theorem memOk_egress (n : Nat) : OptOk (s.egress n) := by
  unfold State.egress
  grind [State.memOk, OptOk, memOk_depart]

@[simp] theorem memOk_tableHas (peert fep : Nat) (is : List Nat) : (s.tableHas peert fep is).2.memOk = true := by
  induction is generalizing s with
  | nil => exact h
  | cons i is ih =>
    unfold State.tableHas
    grind [memOk_meet]

@[simp] theorem memOk_admitsFrom (ctx fep : Nat) : SndOk (s.admitsFrom ctx fep) := by
  fun_cases State.admitsFrom <;> simp [SndOk, h]

@[simp] theorem memOk_reply (a : PeerAccess) (ok : Bool) (bs : List Byte) : (s.reply a ok bs).memOk = true := h

@[simp] theorem memOk_meetEach (ls : List (Loc × Nat)) : (s.meetEach ls).2.memOk = true :=
  List.foldlRecOn (motive := fun (a : Bool × State) => a.2.memOk = true) _ _ h fun _ ha _ _ => memOk_meet ha ..

@[simp] theorem memOk_putEach (ls : List (Loc × Nat)) (bs : List Byte) : (s.putEach ls bs).memOk = true := by
  induction ls generalizing s bs with
  | nil => exact h
  | cons l ls ih => exact ih (memOk_put h ..) _

@[simp] theorem memOk_peerAccess (a : PeerAccess) : OptOk (s.peerAccess a) := by
  unfold State.peerAccess
  grind [OptOk, SndOk, memOk_admitsFrom, memOk_reply, memOk_meetEach, memOk_putEach]

@[simp] theorem memOk_poison (a : PeerRead) : OptOk (s.poison a) := by
  fun_cases State.poison <;> simp [h]

@[simp] theorem memOk_refusal (n : Nat) : OptOk (s.refusal n) := by
  unfold State.refusal
  grind [State.memOk, OptOk, memOk_losePeerWrite, memOk_poison]

@[simp] theorem memOk_dropFor (k : OutKind) : (s.dropFor k).memOk = true := memOk_foldl (fun _ _ ht => memOk_dropPeer ht ..) _ h

@[simp] theorem memOk_writeAck (n : Nat) : OptOk (s.writeAck n) := by
  unfold State.writeAck
  grind [State.memOk, OptOk, memOk_dropFor]

@[simp] theorem memOk_copyExpiry (n : Nat) : OptOk (s.copyExpiry n) := by
  unfold State.copyExpiry
  grind [State.memOk, OptOk]

@[simp] theorem memOk_peerFail (fep : Nat) : OptOk (s.peerFail fep) := by
  unfold State.peerFail
  split
  · trivial
  · extract_lets mine gone t
    have ht : t.memOk = true := h
    exact memOk_foldl (fun u p hu => memOk_losePeerWrite hu _) _ ht

@[simp] theorem memOk_laneShed (n lanes : Nat) : OptOk (s.laneShed n lanes) := by
  fun_cases State.laneShed <;> simp [h]

@[simp] theorem memOk_retrained (n : Nat) : OptOk (s.retrained n) := by
  fun_cases State.retrained <;> simp [h]

@[simp] theorem memOk_upshift (n : Nat) (holds : Bool) : OptOk (s.upshift n holds) := by
  fun_cases State.upshift <;> simp [h]

@[simp] theorem memOk_recovered (n : Nat) : OptOk (s.recovered n) := by
  unfold State.recovered
  grind [State.memOk, OptOk, memOk_setPort]

@[simp] theorem memOk_rewire (n : Nat) (reach : Option (List Nat)) : (s.rewire n reach).memOk = true := h

@[simp] theorem memOk_abandoned (n : Nat) : OptOk (s.abandoned n) := by
  fun_cases State.abandoned <;> simp [h]

@[simp] theorem memOk_seqEvent (c : Nat) (tag cseq : Word) : (s.seqEvent c tag cseq).memOk = true := h

@[simp] theorem memOk_reconnect (c : Nat) : OptOk (s.reconnect c) := by
  fun_cases State.reconnect <;> simp [h]

/-! ### Columns, epochs and rollback (`Machine/Column`) -/

@[simp] theorem memOk_epochEnd (c : Nat) : OptOk (s.epochEnd c) := by
  fun_cases State.epochEnd <;> simp [h]

@[simp] theorem memOk_itemsEnter (ctx lnum k : Nat) (items : List Item) : (s.itemsEnter ctx lnum k items).memOk = true := h

@[simp] theorem memOk_enterDecks (c e : Nat) : (s.enterDecks c e).memOk = true := by
  refine memOk_foldl (fun t x ht => ?_) _ h
  split <;> [exact memOk_itemsEnter ht ..; exact ht]

@[simp] theorem memOk_dropKData : s.dropKData.memOk = true := h

@[simp] theorem memOk_confirmRelease (c e : Nat) : (s.confirmRelease c e).memOk = true := by
  refine memOk_reap (memOk_dropKData (memOk_foldl (fun t n ht => ?_) _ h))
  dsimp only
  split <;> exact ht

@[simp] theorem memOk_confirmEpoch (c : Nat) : OptOk (s.confirmEpoch c) := by
  fun_cases State.confirmEpoch <;> simp [h]

@[simp] theorem memOk_drainOne (c : Nat) (e : LbEntry) : OptOk (s.drainOne c e) := by
  unfold State.drainOne
  grind [State.memOk, OptOk, memOk_takeFork, memOk_cancelAt, memOk_reap, memOk_put, memOk_meet, memOk_itemsEnter, memOk_sendRecord]

@[simp] theorem memOk_drain (c : Nat) : OptOk (s.drain c) := by
  fun_cases State.drain <;> simp [h]

@[simp] theorem memOk_undoOne (u : Undo) : (s.undoOne u).memOk = true := by
  cases u with
  | mem e l old locked => exact memOk_withMem h _ (wf_writeRange (memOk_iff.1 h _) ..)
  | ident | bad => exact h

@[simp] theorem memOk_restoreSnap (c : Nat) (n : Snap) : (s.restoreSnap c n).memOk = true := h

@[simp] theorem memOk_dropWrote (c : Nat) : (s.dropWrote c).memOk = true := h

@[simp] theorem memOk_rollback (c : Nat) : (s.rollback c).memOk = true := by
  unfold State.rollback
  extract_lets k lost s1 s2 s3 s4 s5
  have h1 : s1.memOk = true := memOk_foldl (fun t u ht => memOk_undoOne ht u) _ (memOk_dropWrote h c)
  have h2 : s2.memOk = true := by dsimp -zeta only [s2]; split <;> [exact memOk_restoreSnap h1 ..; exact h1]
  have h3 : s3.memOk = true := memOk_foldl (fun t e ht => by split <;> [exact memOk_modDeck ht ..; exact ht]) _ h2
  have h4 : s4.memOk = true := h3
  have h5 : s5.memOk = true := (memOk_setCol ..).trans h4
  exact memOk_sweep (memOk_discard h5 _)

@[simp] theorem memOk_strike (a : StrikeSite) : (s.strike a).memOk = true := by
  unfold State.strike
  grind [State.memOk, memOk_rollback, memOk_setCol, memOk_count]

@[simp] theorem memOk_rollbackResume (c : Nat) : OptOk (s.rollbackResume c) := by
  unfold State.rollbackResume
  grind [OptOk, memOk_setCol]

@[simp] theorem memOk_l2Refetch (l : Loc) : OptOk (s.l2Refetch l) := by
  unfold State.l2Refetch
  grind [State.memOk, OptOk, memOk_count]

@[simp] theorem memOk_scrubDone (n : Nat) : OptOk (s.scrubDone n) := by
  unfold State.scrubDone
  grind [State.memOk, OptOk]

/-! ### Placement (`Machine/Placement`) -/

@[simp] theorem memOk_repost (core : Nat) (es : List Entry) : (s.repost core es).memOk = true := h

@[simp] theorem memOk_place (c : Cand) (core : Nat) (f : Fit) : (s.place c core f).memOk = true := by
  unfold State.place
  grind [State.memOk, memOk_setCluster, memOk_fillRange, memOk_repost, memOk_setCore, memOk_setCol, memOk_modLaunch]

@[simp] theorem memOk_fillLineOf (r : WRef) : OptOk (s.fillLineOf r) := by
  unfold State.fillLineOf
  grind [State.memOk, OptOk, memOk_fillRange]

@[simp] theorem memOk_placement (core : Nat) : OptOk (s.placement core) := by
  fun_cases State.placement <;> simp [h]

@[simp] theorem memOk_form (ctx lnum k n : Nat) : (s.form ctx lnum k n).memOk = true := h

@[simp] theorem memOk_buckerFull (ctx lnum k : Nat) : OptOk (s.buckerFull ctx lnum k) := by
  fun_cases State.buckerFull <;> simp [h]

@[simp] theorem memOk_buckerPartial (ctx lnum k : Nat) : OptOk (s.buckerPartial ctx lnum k) := by
  fun_cases State.buckerPartial <;> simp [h]

@[simp] theorem memOk_bankReturn (cl bank : Nat) : OptOk (s.bankReturn cl bank) := by
  fun_cases State.bankReturn <;> simp [h]

/-! ### Saved workgroups (`Machine/Saves`) -/

@[simp] theorem memOk_atHorizon (c : Nat) : (s.atHorizon c).memOk = true := memOk_foldl (fun _ u ht => memOk_undoOne ht u) _ h

@[simp] theorem memOk_retry (r : WRef) : (s.retry r).memOk = true := h

@[simp] theorem memOk_saveWg (w : Workgroup) (asleep : Bool) : OptOk (s.saveWg w asleep) := by
  unfold State.saveWg
  grind [State.memOk, ExceptStateOk, OptOk, Stop.Ok, memOk_retry, memOk_dispWrite, memOk_discard, memOk_dropWg, memOk_metBy]

@[simp] theorem memOk_swapOut (r : WRef) : OptOk (s.swapOut r) := by
  fun_cases State.swapOut <;> simp [h]

@[simp] theorem memOk_preempt (r : WRef) : OptOk (s.preempt r) := by
  fun_cases State.preempt <;> simp [h]

@[simp] theorem memOk_awaited (w : Workgroup) (g : Group) : SndOk (s.awaited w g) := by
  unfold State.awaited
  grind [ExceptOk, SndOk, Stop.Ok, memOk_dispTake, memOk_dispRead]

@[simp] theorem memOk_wakeWg (r : WRef) : (s.wakeWg r).memOk = true := h

@[simp] theorem memOk_swapResume (r : WRef) : OptOk (s.swapResume r) := by
  unfold State.swapResume
  split
  · trivial
  · rename_i w _
    refine optOk_findSome fun g => ?_
    have ha := memOk_awaited h w g
    grind [OptOk, SndOk, memOk_wakeWg, memOk_retry]

@[simp] theorem memOk_peerWake (r : WRef) (grp : Nat) (phase : Word) : OptOk (s.peerWake r grp phase) := by
  unfold State.peerWake
  split
  · trivial
  · refine optOk_bind fun g => ?_
    split
    · split <;> [exact memOk_wakeWg h _; trivial]
    · trivial

@[simp] theorem memOk_without (w : Workgroup) : (s.without w).memOk = true := by
  unfold State.without
  grind [State.memOk, memOk_dropWg]

@[simp] theorem memOk_chooseVictim : OptOk s.chooseVictim := by
  unfold State.chooseVictim
  split
  · trivial
  · exact optOk_findSome fun c => optOk_map fun w => memOk_everyWg h ..

/-! ### Control flow (`Machine/Flow`) -/

@[simp] theorem memOk_branchIf (g : Group) (taken : Bool) (t : DWord) : (branchIf s g taken t).Ok := by
  fun_cases branchIf <;> simp [h]

@[simp] theorem memOk_placedAt (g : Group) (step : Nat) : (s.placedAt g step).Ok := h

/-! ### System registers and save images (`Machine/System`) -/

@[simp] theorem memOk_csrWrite (g : Group) (n v : Nat) : (s.csrWrite g n v).1.memOk = true := by
  unfold State.csrWrite
  grind [State.memOk]

@[simp] theorem memOk_csrwBody (o : OpsI) (e : Env) : (csrwBody o e s).Ok := by
  unfold csrwBody
  grind [Act.Ok, memOk_csrWrite]

@[simp] theorem memOk_csrxBody (o : OpsR) (new : Nat → Nat → Nat) (e : Env) : (csrxBody o new e s).Ok := by
  unfold csrxBody
  grind [Act.Ok, memOk_csrWrite]

@[simp] theorem memOk_invalidate (ctx page pages : Nat) (by_ : InvalBy) : (s.invalidate ctx page pages by_).memOk = true := h

@[simp] theorem memOk_gateCore (core : Nat) : (s.gateCore core).2.memOk = true := by
  fun_cases State.gateCore <;> simp [h]

@[simp] theorem memOk_ungateCore (core : Nat) : (s.ungateCore core).2.memOk = true := by
  fun_cases State.ungateCore <;> simp [h]

theorem memOk_pgreqBody (o : OpsR) {req : State → Nat → Nat × State} (hreq : ∀ n, (req s n).2.memOk = true) (e : Env) :
    (pgreqBody o req e s).Ok := by
  unfold pgreqBody
  grind [Act.Ok, Act.trap]

/-! ### Power (`Machine/Power`) -/

@[simp] theorem memOk_marketClear (rs : List PowerReading) : OptOk (s.marketClear rs) := by
  unfold State.marketClear
  grind [State.memOk, OptOk]

@[simp] theorem memOk_balance (rs : List PowerReading) : (s.balance rs).memOk = true := by
  unfold State.balance
  grind [State.memOk]

@[simp] theorem memOk_rescale (c : Nat) (slow : Bool) : (s.rescale c slow).memOk = true := h

@[simp] theorem memOk_droopIn (c : Nat) : (s.droopIn c).memOk = true := by
  unfold State.droopIn
  grind [memOk_rescale, memOk_setCol, memOk_send]

@[simp] theorem memOk_droopTrip (c : Nat) : OptOk (s.droopTrip c) := by
  fun_cases State.droopTrip <;> simp [h]

@[simp] theorem memOk_droopExit (c : Nat) : OptOk (s.droopExit c) := by
  fun_cases State.droopExit <;> simp [h]

@[simp] theorem memOk_replay (core : Nat) : OptOk (s.replay core) := by
  unfold State.replay
  grind [OptOk, memOk_droopIn, memOk_setCore]

@[simp] theorem memOk_loseStores (core : Nat) : (s.loseStores core).memOk = true := by
  unfold State.loseStores
  grind [memOk_fillRange]

@[simp] theorem memOk_coreGate (core : Nat) : OptOk (s.coreGate core) := by
  fun_cases State.coreGate <;> simp [h]

@[simp] theorem memOk_columnGate (c : Nat) : OptOk (s.columnGate c) := by
  unfold State.columnGate
  extract_lets k empty s1 s2
  split
  · have h1 : s1.memOk = true := memOk_foldl (fun t n ht => memOk_setCluster ht ..) _ h
    refine memOk_foldl (fun t n ht => ?_) _ h1
    split <;> [exact memOk_loseStores (memOk_setCore ht ..) _; exact ht]
  · trivial

@[simp] theorem memOk_ungateReady (core : Nat) : OptOk (s.ungateReady core) := by
  fun_cases State.ungateReady <;> simp [h]

@[simp] theorem memOk_gateColumn (c : Nat) : (s.gateColumn c).memOk = true := h

@[simp] theorem memOk_ungateColumn (c : Nat) : (s.ungateColumn c).memOk = true := by
  refine memOk_foldl (fun t n ht => ?_) _ h
  dsimp only
  split
  · exact memOk_ungateCore ht _
  · exact memOk_ungateCore ht _
  · split <;> exact ht
  · exact ht

@[simp] theorem memOk_loseBelowD1 (d3 : Bool) : (s.loseBelowD1 d3).memOk = true :=
  memOk_iff.2 fun st => by cases st <;> [exact memOk_iff.1 h .dram; rfl; rfl; rfl]

@[simp] theorem memOk_idleEntry : OptOk (s.idleEntry) := by
  unfold State.idleEntry
  grind [State.memOk, OptOk, memOk_loseBelowD1]

@[simp] theorem memOk_wake : OptOk (s.wake) := by
  unfold State.wake
  grind [State.memOk, OptOk]

@[simp] theorem memOk_refetchPins (cl : Nat) : (s.refetchPins cl).memOk = true := memOk_foldl (fun _ _ ht => memOk_fillWhole ht ..) _ h

@[simp] theorem memOk_wakeDone : OptOk s.wakeDone := by
  unfold State.wakeDone
  split
  · split
    · exact memOk_foldl (fun t cl ht => memOk_refetchPins ht cl) _ h
    · trivial
  · trivial

/-! ### Host commands (`Machine/Host`) -/

@[simp] theorem memOk_performed (p : Packet) : (s.performed p).memOk = true := by
  unfold State.performed
  grind [State.memOk, memOk_setChan]

@[simp] theorem memOk_answer (p : Packet) (op status : Nat) (payload : List Byte) : (s.answer p op status payload).memOk = true := by
  simp [State.answer, h]

@[simp] theorem memOk_status (p : Packet) (st : Nat) : (s.status p st).memOk = true := by
  simp [State.status, h]

@[simp] theorem memOk_perform {p : Packet} {fits channels : Nat → Bool} {stage1 : Bool} {body : State → Option State}
    (hb : OptOk (body s)) : OptOk (s.perform p fits channels stage1 body) := by
  unfold State.perform; grind [OptOk, memOk_status]

@[simp] theorem memOk_hostEach (ctx : Nat) (acc : Access) (rs : List (Nat × Nat)) : ExceptOk HostStop.Ok (s.hostEach ctx acc rs) := by
  induction rs generalizing s with
  | nil => exact h
  | cons r rs ih =>
    unfold State.hostEach
    grind [ExceptOk, HostStop.Ok, WalkRes.Ok, memOk_walkNow]

@[simp] theorem memOk_hostRange (ctx : Nat) (acc : Access) (rs : List (Nat × Nat)) : ExceptOk HostStop.Ok (s.hostRange ctx acc rs) := by
  unfold State.hostRange
  grind [ExceptOk, HostStop.Ok, memOk_hostEach, memOk_dropWalks]

@[simp] theorem memOk_writeLine (p : Packet) : OptOk (s.writeLine p) := by
  unfold State.writeLine
  grind [OptOk, memOk_setChan, memOk_put, memOk_status]

@[simp] theorem memOk_readLine (p : Packet) : OptOk (s.readLine p) := by
  unfold State.readLine
  grind [OptOk, memOk_answer, memOk_setChan, memOk_meet, memOk_status]

theorem memOk_access {p : Packet} {start : Except HostStop (List (Loc × Nat) × State)} {data : List Byte} {line : State → Option State}
    (hs : ExceptOk HostStop.Ok start) (hl : ∀ {t : State}, t.memOk = true → OptOk (line t)) : OptOk (s.access p start data line) := by
  unfold State.access
  split
  · exact hl h
  · split
    · trivial
    · exact hs
    · exact memOk_status hs ..
    · rename_i ls t
      extract_lets k u
      have hu : u.memOk = true := hs
      show State.memOk _ = true
      split <;> [exact hu; exact memOk_getD (hl hu) hu]

@[simp] theorem memOk_hostPhys (pa n : Nat) : ExceptOk HostStop.Ok (s.hostPhys pa n) := by
  fun_cases State.hostPhys <;> simp [ExceptOk, HostStop.Ok, h]

@[simp] theorem memOk_writeVa (p : Packet) : OptOk (s.writeVa p) := by
  refine memOk_perform h ?_
  extract_lets c
  split <;> [exact memOk_status h ..; exact memOk_access h (memOk_hostRange h ..) fun ht => memOk_writeLine ht p]

@[simp] theorem memOk_writePa (p : Packet) : OptOk (s.writePa p) := by
  refine memOk_perform h ?_
  dsimp only
  split <;> [exact memOk_status h ..; exact memOk_access h (memOk_hostPhys h ..) fun ht => memOk_writeLine ht p]

@[simp] theorem memOk_readVa (p : Packet) : OptOk (s.readVa p) := by
  refine memOk_perform h ?_
  dsimp only
  split
  · exact memOk_status h ..
  · split <;> [exact memOk_status h ..; exact memOk_access h (memOk_hostRange h ..) fun ht => memOk_readLine ht p]

@[simp] theorem memOk_readPa (p : Packet) : OptOk (s.readPa p) := by
  refine memOk_perform h ?_
  extract_lets pa n
  split
  · exact memOk_status h ..
  · split
    · split
      · exact memOk_answer (s := { s with free := s.free + 1 }) h ..
      · exact memOk_status h ..
    · exact memOk_access h (memOk_hostPhys h ..) fun ht => memOk_readLine ht p

omit h in
theorem memOk_portRead (ctx : Nat) : ReaderOk HostStop.Ok (State.portRead ctx) := by
  intro s h va size
  unfold State.portRead
  split
  · exact h
  · extract_lets read
    have hread (n : Nat) : ExceptOk HostStop.Ok (read n s) := by
      dsimp only [read]
      grind [ExceptOk, HostStop.Ok, memOk_hostRange, memOk_meetAll]
    have hg := memOk_readGrown hread (size := size) 4 [] h
    grind [ExceptOk, HostStop.Ok, State.memOk]

@[simp] theorem memOk_joinUnits (ctx : Nat) (b : GraphBlock) : (s.joinUnits ctx b).memOk = true := by
  unfold State.joinUnits
  extract_lets k live fresh after t mk us join
  have ht : t.memOk = true := by dsimp only [t]; split <;> exact h
  exact ht

@[simp] theorem memOk_accept (ctx : Nat) (b : GraphBlock) (c : Checked) (tag : Word) : (s.accept ctx b c tag).memOk = true := by
  unfold State.accept
  grind [State.memOk, memOk_joinUnits, memOk_setCtx, memOk_cancelUnit]

@[simp] theorem memOk_launchCmd (p : Packet) : OptOk (s.launchCmd p) := by
  refine memOk_perform h ?_
  have hr := memOk_readLaunch h (memOk_portRead p.ch.toNat) (p.payload.drop 32)
  grind [OptOk, ExceptOk, HostStop.Ok, memOk_status, memOk_accept]

@[simp] theorem memOk_resumeAgent (k : RecordKey) : OptOk (s.resumeAgent k) := by
  unfold State.resumeAgent
  grind [State.memOk, OptOk, memOk_everyWg, memOk_everyEntry]

@[simp] theorem memOk_resumeCmd (p : Packet) : OptOk (s.resumeCmd p) := by
  unfold State.resumeCmd
  grind [OptOk, memOk_perform, memOk_resumeAgent, memOk_status]

@[simp] theorem memOk_cancelCmd (p : Packet) : OptOk (s.cancelCmd p) := by
  unfold State.cancelCmd
  grind [OptOk, memOk_cancelAt, memOk_perform, memOk_status]

@[simp] theorem memOk_invalCmd (p : Packet) : OptOk (s.invalCmd p) := by
  unfold State.invalCmd
  grind [OptOk, memOk_invalidate, memOk_setChan, memOk_perform, memOk_status]

@[simp] theorem memOk_invalComplete (n : Nat) : OptOk (s.invalComplete n) := by
  unfold State.invalComplete
  grind [State.memOk, OptOk, memOk_setChan, memOk_everyWg, memOk_send]

@[simp] theorem memOk_ctxsaveCmd (p : Packet) : OptOk (s.ctxsaveCmd p) := by
  unfold State.ctxsaveCmd
  grind [OptOk, memOk_everyWg, memOk_perform, memOk_setCtx, memOk_status]

@[simp] theorem memOk_ctxrunCmd (p : Packet) : OptOk (s.ctxrunCmd p) :=
  memOk_perform h (memOk_status (memOk_foldl (fun _ l ht => memOk_enterReady ht l) _ (memOk_setCtx h ..)) ..)

@[simp] theorem memOk_ctxsetCmd (p : Packet) : OptOk (s.ctxsetCmd p) := by
  unfold State.ctxsetCmd
  grind [OptOk, memOk_perform, memOk_setCtx, memOk_status]

@[simp] theorem memOk_ctxdescCmd (p : Packet) : OptOk (s.ctxdescCmd p) := by
  unfold State.ctxdescCmd
  grind [State.memOk, OptOk, memOk_dropWalks, memOk_perform, memOk_setCtx, memOk_status]

@[simp] theorem memOk_seqqueryCmd (p : Packet) : OptOk (s.seqqueryCmd p) :=
  memOk_perform h (memOk_foldl (fun _ _ ht => memOk_send ht ..) _ (memOk_performed (memOk_seqEvent h ..) _))

@[simp] theorem memOk_powerCmd (p : Packet) : OptOk (s.powerCmd p) := by
  unfold State.powerCmd
  grind [State.memOk, OptOk, memOk_perform, memOk_status]

@[simp] theorem memOk_gateCmd (p : Packet) : OptOk (s.gateCmd p) := by
  unfold State.gateCmd
  grind [OptOk, memOk_ungateColumn, memOk_gateColumn, memOk_perform, memOk_gateCore, memOk_ungateCore, memOk_status]

@[simp] theorem memOk_cminCmd (p : Packet) : OptOk (s.cminCmd p) := by
  unfold State.cminCmd
  grind [OptOk, memOk_setCmin, memOk_perform, memOk_status]

@[simp] theorem memOk_countersCmd (p : Packet) : OptOk (s.countersCmd p) := by
  simp [State.countersCmd, h]

@[simp] theorem memOk_linkCmd (p : Packet) : OptOk (s.linkCmd p) := by
  unfold State.linkCmd
  grind [OptOk, memOk_setPort, memOk_perform, memOk_status]

/-! ### Reset and boot (`Machine/Boot`) -/

omit h in
@[simp] theorem memOk_fullReset : s.fullReset.memOk = true := rfl

@[simp] theorem memOk_resetCmd (p : Packet) : OptOk (s.resetCmd p) := by
  simp [State.resetCmd, h]

@[simp] theorem memOk_bootEvent : s.bootEvent.memOk = true := h

@[simp] theorem memOk_bootRomReady (trained : List Nat) : OptOk (s.bootRomReady trained) := by
  unfold State.bootRomReady
  grind [State.memOk, OptOk, memOk_bootEvent]

@[simp] theorem memOk_fwloadCmd (p : Packet) : OptOk (s.fwloadCmd p) := by
  unfold State.fwloadCmd
  grind [State.memOk, OptOk, memOk_perform, memOk_status]

@[simp] theorem memOk_fwstartCmd (p : Packet) : OptOk (s.fwstartCmd p) := by
  unfold State.fwstartCmd
  grind [State.memOk, OptOk, memOk_perform, memOk_status]

@[simp] theorem memOk_firmwareReady : OptOk (s.firmwareReady) := by
  unfold State.firmwareReady
  grind [State.memOk, OptOk, memOk_bootEvent]

@[simp] theorem memOk_attestCmd (p : Packet) : OptOk (s.attestCmd p) := by
  unfold State.attestCmd
  grind [State.memOk, OptOk, memOk_answer, memOk_perform]

@[simp] theorem memOk_selftestCmd (p : Packet) : OptOk (s.selftestCmd p) := by
  unfold State.selftestCmd
  grind [State.memOk, OptOk, memOk_setChan, memOk_perform, memOk_status]

@[simp] theorem memOk_selftestDone (results : List Byte) : OptOk (s.selftestDone results) := by
  unfold State.selftestDone
  grind [State.memOk, OptOk, memOk_setChan, memOk_send]

omit h in
@[simp] theorem memOk_supplyOff : s.supplyOff.memOk = true := memOk_fullReset (s := s)

omit h in
@[simp] theorem memOk_mrst : s.mrst.memOk = true := memOk_fullReset (s := s)

omit h in
@[simp] theorem memOk_pinRelease : s.pinRelease.memOk = true := memOk_fullReset (s := s)

/-! ### What comes next (`Machine/Schedule`) -/

@[simp] theorem memOk_runCommand (p : Packet) : OptOk (s.runCommand p) := by
  fun_cases State.runCommand <;> simp [h]

@[simp] theorem memOk_nextCommand (c : Nat) : OptOk (s.nextCommand c) := by
  fun_cases State.nextCommand <;> simp [h]

@[simp] theorem memOk_take (p : Packet) : (s.take p).memOk = true := by
  unfold State.take
  dsimp only
  repeat' split
  all_goals simp [h]

@[simp] theorem memOk_receive (p : Packet) : (s.receive p).memOk = true := by
  unfold State.receive
  grind [State.memOk, memOk_setChan, memOk_take]

@[simp] theorem memOk_softError (l : Loc) : (s.softError l).memOk = true := by
  unfold State.softError
  grind [State.memOk]

@[simp] theorem memOk_l2Error (sector : Nat) (modified : Bool) : (s.l2Error sector modified).memOk = true := by
  unfold State.l2Error
  grind [State.memOk]

@[simp] theorem memOk_cacheError (cluster copy word : Nat) : (s.cacheError cluster copy word).memOk = true := h

@[simp] theorem memOk_slabError (r : GRef) (reg word : Nat) : (s.slabError r reg word).memOk = true := h

@[simp] theorem memOk_fifoError (core : Nat) (up : Bool) (entry word : Nat) : (s.fifoError core up entry word).memOk = true := h

@[simp] theorem memOk_bankFifoError (cluster fifo entry word : Nat) : (s.bankFifoError cluster fifo entry word).memOk = true := h

@[simp] theorem memOk_tick (n : Nat) : (s.tick n).memOk = true := h

@[simp] theorem memOk_pass (n : Nat) : (s.pass n).memOk = true := h

omit h in
/-- The first answer of a list of steps is one of them. -/
theorem optOk_firstOf {α : Type} {f : α → Option State} {l : List α} (hf : ∀ a, OptOk (f a)) : OptOk (firstOf f l) := by
  induction l with
  | nil => trivial
  | cons a l ih =>
    have := hf a
    unfold firstOf
    grind

omit h in
theorem optOk_firstDue_cons {f : Unit → Option State} {l : List (Unit → Option State)} (hf : OptOk (f ())) (hl : OptOk (firstDue l)) :
    OptOk (firstDue (f :: l)) := by
  show OptOk (match f () with | some t => some t | none => firstDue l)
  split <;> rename_i hk
  · rwa [hk] at hf
  · exact hl
omit h in
theorem optOk_firstDue_nil : OptOk (firstDue []) := trivial

omit h in
theorem optOk_firstDue_pair {f g : Unit → Option State} (hf : OptOk (f ())) (hg : OptOk (g ())) : OptOk (firstDue [f, g]) :=
  optOk_firstDue_cons hf (optOk_firstDue_cons hg optOk_firstDue_nil)

@[simp] theorem memOk_unpack (c : Nat) : OptOk (s.unpack c) := by
  fun_cases State.unpack <;> simp [h]

theorem memOk_due : OptOk s.due := by
  unfold State.due
  split
  · trivial
  · exact optOk_firstDue_cons (optOk_guard (optOk_firstOf fun c => memOk_unpack h c)) <|
    optOk_firstDue_cons (optOk_firstOf fun c => optOk_or (memOk_confirmEpoch h c) (memOk_epochEnd h c)) <|
    optOk_firstDue_cons (optOk_firstOf fun n => memOk_copyExpiry h n) <|
    optOk_firstDue_cons (memOk_sweepDue h) <|
    optOk_firstDue_cons (optOk_firstOf fun w => optOk_firstOf fun g => optOk_unless (memOk_acting (memOk_watch h _))) <|
    optOk_firstDue_nil

theorem memOk_outside (m : Move) : (s.outside m).memOk = true := by
  cases m with
  | corrected | wire | peerLand => simp only [State.outside]; split <;> simp [h]
  | lane r k ext => exact memOk_getD (memOk_acting (memOk_stepLane h ..)) h
  | half r k => exact memOk_getD (memOk_acting (memOk_atomicHalf h ..)) h
  | peerData r k ext => exact memOk_getD (memOk_acting (memOk_peerReply h ..)) h
  | evict | evictPeer | evictWalk => exact h
  | _ => simp [State.outside, h]

@[simp] theorem memOk_issueNext (core sched : Nat) : (s.issueNext core sched).Ok := by
  unfold State.issueNext
  grind [Ahead.Ok, OptOk, memOk_regroupReady, memOk_pick]

@[simp] theorem memOk_autoWalk (n : Nat) : OptOk (s.autoWalk n) := by
  unfold State.autoWalk
  grind [memOk_entryRead, optOk_firstDue_cons, optOk_firstDue_nil, memOk_peerTable, memOk_adUpdate, memOk_peerTimeout, memOk_startWalk]

theorem memOk_autoGroup (w : Workgroup) (g : Group) : OptOk (s.autoGroup w g) := by
  unfold State.autoGroup
  extract_lets r
  refine optOk_unless (memOk_acting ?_)
  exact optOk_firstDue_cons (memOk_trapDeliver h r) <|
    optOk_firstDue_cons (memOk_phaseWait h r) <|
    optOk_firstDue_cons (memOk_askFailed h r) <|
    optOk_firstDue_cons (memOk_fetchNext h r) <|
    optOk_firstDue_cons (memOk_refetch h r) <|
    optOk_firstDue_cons (optOk_guard (memOk_deliverData h ..)) <|
    optOk_firstDue_cons (optOk_firstOf fun k => memOk_stepLane h ..) <|
    optOk_firstDue_nil

theorem memOk_autoData (q : QRef) (e : Entry) : OptOk (s.autoData q e) := by
  unfold State.autoData
  split
  · exact memOk_tileStep h q
  · split <;> [exact memOk_claim h q; exact memOk_tileStep h q]
  · exact optOk_bind fun k => optOk_unless (memOk_copyLine h ..)
  · exact optOk_firstDue_cons (optOk_bind fun k => optOk_unless (memOk_rowStep h ..)) <|
    optOk_firstDue_cons (optOk_unless (memOk_indexRead h ..)) <|
    optOk_firstDue_nil
  · exact memOk_fenceRelease h q
  · exact memOk_kStep h ..
  · exact memOk_kStep h ..
  · exact optOk_bind fun k => memOk_kStep h ..
  · exact memOk_zeroLine h ..

theorem memOk_autoQueue (q : QRef) : OptOk (s.autoQueue q) := by
  unfold State.autoQueue
  split
  · trivial
  · split
    · exact memOk_engineEnd h q
    · exact optOk_firstDue_cons (memOk_pretranslate h q) <|
    optOk_firstDue_cons (memOk_autoData h ..) <|
    optOk_firstDue_cons (optOk_findSome fun n => memOk_land h ..) <|
    optOk_firstDue_cons (memOk_jointTimeout h q) <|
    optOk_firstDue_nil

@[simp] theorem memOk_autoColumn (c : Nat) : OptOk (s.autoColumn c) := by
  unfold State.autoColumn
  grind [OptOk, memOk_droopExit, optOk_firstDue_cons, optOk_firstDue_nil, memOk_droopTrip, memOk_rollbackResume, memOk_drain]

theorem memOk_autoDispatch : OptOk s.autoDispatch := by
  unfold State.autoDispatch
  exact optOk_firstDue_cons (optOk_firstOf fun l => optOk_firstOf fun k => optOk_firstDue_pair (memOk_buckerFull h ..) (memOk_buckerPartial h ..)) <|
    optOk_firstDue_cons (optOk_firstOf fun w => optOk_firstDue_cons (memOk_terminateWg h _) <|
      optOk_firstDue_pair (memOk_swapOut h _) (memOk_preempt h _)) <|
    optOk_firstDue_cons (optOk_firstOf fun w => memOk_swapResume h _) <|
    optOk_firstDue_cons (optOk_firstOf fun l => optOk_guard (memOk_unitCompletion h ..)) <|
    optOk_firstDue_cons (optOk_firstOf fun u => optOk_guard (memOk_unitCompletion h ..)) <|
    optOk_firstDue_cons (optOk_firstOf fun w => memOk_fillLineOf h _) <|
    optOk_firstDue_cons (optOk_guard (optOk_map fun x => memOk_place h ..)) <|
    optOk_firstDue_cons (memOk_chooseVictim h) <|
    optOk_firstDue_nil

theorem memOk_autoPower : OptOk s.autoPower := by
  unfold State.autoPower
  exact optOk_firstDue_cons (memOk_marketClear h _) <|
    optOk_firstDue_cons (optOk_guard (memOk_balance h _)) <|
    optOk_firstDue_cons (optOk_firstOf fun c => memOk_columnGate h c) <|
    optOk_firstDue_cons (optOk_firstOf fun k => optOk_firstDue_pair (memOk_coreGate h k) (memOk_ungateReady h k)) <|
    optOk_firstDue_cons (optOk_firstOf fun cl => optOk_firstOf fun b => memOk_bankReturn h cl b) <|
    optOk_firstDue_cons (by split <;> [exact memOk_scrubDone h _; trivial]) <|
    optOk_firstDue_cons (memOk_idleEntry h) <|
    optOk_firstDue_nil

theorem memOk_autoEvent : OptOk s.autoEvent := by
  unfold State.autoEvent
  exact optOk_firstDue_cons (memOk_bootRomReady h _) <|
    optOk_firstDue_cons (memOk_firmwareReady h) <|
    optOk_firstDue_cons (memOk_wakeDone h) <|
    optOk_firstDue_cons (memOk_wake h) <|
    optOk_firstDue_cons (optOk_firstOf fun c => memOk_nextCommand h c) <|
    optOk_firstDue_cons (optOk_firstOf fun n => memOk_autoWalk h n) <|
    optOk_firstDue_cons (optOk_firstOf fun n => memOk_invalComplete h n) <|
    optOk_firstDue_cons (optOk_firstOf fun w => optOk_firstOf fun g => memOk_autoGroup h w g) <|
    optOk_firstDue_cons (optOk_firstOf fun q => memOk_autoQueue h q) <|
    optOk_firstDue_cons (optOk_firstOf fun n => optOk_firstDue_pair (memOk_jointStart h n) (memOk_jointComplete h n)) <|
    optOk_firstDue_cons (optOk_firstOf fun c => memOk_autoColumn h c) <|
    optOk_firstDue_cons (optOk_firstOf fun n => memOk_redAlone h n) <|
    optOk_firstDue_cons (optOk_firstOf fun b => optOk_unless (memOk_l2Refetch h _)) <|
    optOk_firstDue_cons (optOk_firstOf fun n => memOk_egress h n) <|
    optOk_firstDue_cons (optOk_firstOf fun p => optOk_firstDue_pair (memOk_retrained h p) (memOk_abandoned h p)) <|
    optOk_firstDue_cons (optOk_firstOf fun p => optOk_bind fun f => memOk_peerFail h _) <|
    optOk_firstDue_cons (memOk_autoDispatch h) <|
    optOk_firstDue_cons (memOk_autoPower h) <|
    optOk_firstDue_nil

theorem memOk_auto : s.auto.Ok := by
  unfold State.auto
  split
  · exact memOk_pass h _
  · split
    · exact memOk_of_eq_some (memOk_autoEvent h) ‹_›
    · split
      · exact memOk_issueNext h ..
      · exact memOk_pass h _

@[simp] theorem memOk_move (m : Move) : (s.move m).Ok := by
  unfold State.move
  grind [State.memOk, Ahead.Ok, memOk_outside, memOk_pass, memOk_issueNext]

theorem memOk_begin : s.begin.Ok := by
  unfold State.begin
  split
  · exact memOk_of_eq_some (memOk_due h) ‹_›
  · split
    · exact memOk_auto h
    · exact memOk_move (by exact h) _

/-! ### Instruction words with a meaning of more than one branch -/

@[simp] theorem memOk_execBrm (c : Ctl) (o : OpsI) : OutOk (execBrm c o s) :=
  memOk_issueWord h fun _ _ _ hu => by simp [hu]

@[simp] theorem memOk_execBrw (c : Ctl) (o : OpsR) : OutOk (execBrw c o s) := by
  refine memOk_issueWord h fun v e u hu => ?_
  dsimp only
  repeat' split <;> simp [hu]

@[simp] theorem memOk_execBrdec (c : Ctl) (o : OpsI) : OutOk (execBrdec c o s) :=
  memOk_issueWord h fun _ _ _ hu => by simp [hu]

@[simp] theorem memOk_execMcall (c : Ctl) (o : OpsR) : OutOk (execMcall c o s) := by
  refine memOk_issueWord h fun v e u hu => ?_
  dsimp only
  repeat' split <;> simp [hu]

@[simp] theorem memOk_execExit (c : Ctl) (o : OpsR) : OutOk (execExit c o s) := by
  refine memOk_issueWord h fun v e u hu => ?_
  dsimp only
  repeat' split <;> simp [hu]

@[simp] theorem memOk_execSpawn (c : Ctl) (o : OpsR) : OutOk (execSpawn c o s) := by
  refine memOk_issueWord h fun v e u hu => ?_
  grind [Act.Ok, memOk_actTrap, memOk_request, memOk_modDeck]

@[simp] theorem memOk_execFork (c : Ctl) (o : OpsR) : OutOk (execFork c o s) := by
  refine memOk_issueWord h fun v e u hu => ?_
  have hrd := @memOk_globalRead e
  dsimp only
  split
  · trivial
  · have h1 := hrd hu (e.pair o.a) fun _ => 128
    split <;> rename_i hk <;> rw [hk] at h1
    · exact h1
    · rename_i bs s1
      have h2 := memOk_readLaunch h1 hrd bs
      split <;> rename_i hk <;> rw [hk] at h2
      · exact h2
      · exact h2
      · rename_i k s2
        split
        · exact h2
        · have h3 : ExceptOk Act.Ok (if o.e == .none then .ok ([], s2) else e.globalRead k.desc.compl (fun _ => 4) s2) := by
            split <;> [exact h2; exact hrd h2 ..]
          split <;> rename_i hk <;> rw [hk] at h3
          · exact h3
          · split <;> [trivial; exact memOk_request h3 ..]

@[simp] theorem memOk_execRegroup (c : Ctl) (o : OpsR) : OutOk (execRegroup c o s) := by
  refine memOk_issueWord h fun v e u hu => ?_
  dsimp only
  split
  · trivial
  · split
    · trivial
    · trivial
    · split
      · trivial
      · rename_i as _ _
        have ht : (u.uniBytes e .read (as.flatMap (·.2))).2.memOk = true := memOk_uniBytes hu ..
        split
        · exact memOk_metBy hu _
        · split
          · exact memOk_metBy hu _
          · split
            · exact ht
            · rename_i w _
              split
              · rename_i hk
                exact memOk_of_eq_some (memOk_tryRegroup (memOk_setGroup ht ..) w) hk
              · exact ht

@[simp] theorem memOk_execCancel (c : Ctl) (o : OpsR) : OutOk (execCancel c o s) := by
  refine memOk_issueWord h fun v e u hu => ?_
  grind [Act.Ok, memOk_retire, memOk_setGroup, memOk_actTrap, memOk_request]

@[simp] theorem memOk_execCntrdCount (c : Ctl) (o : OpsR) : OutOk (execCntrdCount c o s) := by
  refine memOk_issueWord h fun v e u hu => ?_
  grind [Act.Ok, memOk_actTrap]

@[simp] theorem memOk_execCntrdStatus (c : Ctl) (o : OpsR) : OutOk (execCntrdStatus c o s) := by
  refine memOk_issueWord h fun v e u hu => ?_
  grind [Act.Ok, memOk_actTrap]

@[simp] theorem memOk_execMerge (c : Ctl) (o : OpsR) : OutOk (execMerge c o s) := by
  refine memOk_issueWord h fun v e u hu => ?_
  dsimp only
  repeat' split <;> simp [hu]

@[simp] theorem memOk_execCompact (c : Ctl) (o : OpsR) : OutOk (execCompact c o s) := by
  refine memOk_issueWord h fun v e u hu => ?_
  grind [Act.Ok]

@[simp] theorem memOk_execPull (c : Ctl) (o : OpsR) : OutOk (execPull c o s) := by
  refine memOk_issueWord h fun v e u hu => ?_
  dsimp only
  repeat' split <;> simp [hu]

@[simp] theorem memOk_execBcast (c : Ctl) (o : OpsR) : OutOk (execBcast c o s) := by
  refine memOk_issueWord h fun v e u hu => ?_
  dsimp only
  repeat' split <;> simp [hu]

@[simp] theorem memOk_execVote (c : Ctl) (o : OpsR) : OutOk (execVote c o s) := by
  refine memOk_issueWord h fun v e u hu => ?_
  dsimp only
  repeat' split <;> simp [hu]

@[simp] theorem memOk_execIcmp (c : Ctl) (o : OpsR) : OutOk (execIcmp c o s) := by
  refine memOk_issueWord h fun v e u hu => ?_
  dsimp only
  repeat' split <;> simp [hu]

@[simp] theorem memOk_execFcmp (c : Ctl) (o : OpsR) : OutOk (execFcmp c o s) := by
  refine memOk_issueWord h fun v e u hu => ?_
  dsimp only
  repeat' split <;> simp [hu]

@[simp] theorem memOk_execFclassM (c : Ctl) (o : OpsR) : OutOk (execFclassM c o s) := by
  refine memOk_issueWord h fun v e u hu => ?_
  dsimp only
  repeat' split <;> simp [hu]

@[simp] theorem memOk_execLd (c : Ctl) (o : OpsM) : OutOk (execLd c o s) := by
  refine memOk_issueWord h fun v e u hu => ?_
  grind [Act.Ok, memOk_readAll]

@[simp] theorem memOk_execSt (c : Ctl) (o : OpsM) : OutOk (execSt c o s) := by
  refine memOk_issueWord h fun v e u hu => ?_
  dsimp only
  split
  · split
    · trivial
    · split
      · exact hu
      · exact memOk_foldl (fun t p ht => memOk_storePieces ht ..) _ hu
  · trivial
  · trivial

@[simp] theorem memOk_execLdm (c : Ctl) (o : OpsR) : OutOk (execLdm c o s) := by
  refine memOk_issueWord h fun v e u hu => ?_
  grind [Act.Ok, ErrOk, memOk_readAll, memOk_envFragRec]

@[simp] theorem memOk_execStm (c : Ctl) (o : OpsR) : OutOk (execStm c o s) := by
  refine memOk_issueWord h fun v e u hu => ?_
  have hr := memOk_envFragRec (s := u) e c o
  dsimp only
  split
  · rename_i hk; rw [hk] at hr; exact hr
  · split
    · split
      · trivial
      · split
        · exact hu
        · exact memOk_foldl (fun t p ht => memOk_storePieces ht ..) _ hu
    · trivial
    · trivial
  · exact hu

@[simp] theorem memOk_execWbind (c : Ctl) (o : OpsR) : OutOk (execWbind c o s) := by
  refine memOk_issueWord h fun v e u hu => ?_
  dsimp only
  split
  · exact hu
  · cases u.ident e.w.core e.r.ctx (e.u o.a) with
    | ok r =>
      dsimp only
      split <;> [trivial; exact hu]
    | held | bad | unbound => trivial

@[simp] theorem memOk_execWstat (c : Ctl) (o : OpsR) : OutOk (execWstat c o s) := by
  refine memOk_issueWord h fun v e u hu => ?_
  dsimp only
  repeat' split <;> simp [hu]

@[simp] theorem memOk_execAtom (c : Ctl) (o : OpsR) : OutOk (execAtom c o s) := by
  refine memOk_issueWord h fun v e u hu => ?_
  grind [memOk_atomBody]

@[simp] theorem memOk_execAtomc (c : Ctl) (o : OpsR) : OutOk (execAtomc c o s) := by
  refine memOk_issueWord h fun v e u hu => ?_
  grind [memOk_atomBody]

@[simp] theorem memOk_execRed (c : Ctl) (o : OpsR) : OutOk (execRed c o s) := by
  refine memOk_issueWord h fun v e u hu => ?_
  dsimp only
  split
  · trivial
  · trivial
  · split
    · trivial
    · split
      · exact hu
      · split
        · trivial
        · refine memOk_foldl (fun t a ht => ?_) _ (memOk_readAll hu ..)
          split <;> [exact memOk_redLane ht ..; exact ht]

@[simp] theorem memOk_execPref (c : Ctl) (o : OpsR) : OutOk (execPref c o s) := by
  refine memOk_issueWord h fun v e u hu => ?_
  dsimp only
  split
  · trivial
  · split
    · exact memOk_foldl (fun t a ht => memOk_fillWhole ht ..) _ hu
    · exact hu

@[simp] theorem memOk_execPinOn (c : Ctl) (o : OpsR) : OutOk (execPinOn c o s) := by
  refine memOk_issueWord h fun v e u hu => ?_
  dsimp only
  split
  · trivial
  · exact List.foldlRecOn (motive := fun (a : State × Bool) => a.1.memOk = true) _ _ hu fun a ha l _ => memOk_pinOne ha ..

@[simp] theorem memOk_execPinOff (c : Ctl) (o : OpsR) : OutOk (execPinOff c o s) := by
  refine memOk_issueWord h fun v e u hu => ?_
  dsimp only
  repeat' split <;> simp [hu]

@[simp] theorem memOk_execTbind (c : Ctl) (o : OpsR) : OutOk (execTbind c o s) := by
  refine memOk_issueWord h fun v e u hu => ?_
  dsimp only
  split
  · trivial
  · split
    · trivial
    · split
      · split
        · trivial
        · rename_i as _ _
          have hr := memOk_uniRead hu e .read (as.flatMap (·.2))
          split <;> rename_i hk <;> rw [hk] at hr
          · exact hr
          · rename_i bs t
            split
            · exact hr
            · have hb := memOk_bindRec hr e.w.core e.r.ctx (e.u o.a) (BitVec.ofNat 512 (leNat bs))
              split <;> rename_i hk <;> rw [hk] at hb
              · exact memOk_setIdent hr ..
              · exact hb
      · trivial
      · trivial

@[simp] theorem memOk_execTinfo (c : Ctl) (o : OpsR) : OutOk (execTinfo c o s) := by
  refine memOk_issueWord h fun v e u hu => ?_
  dsimp only
  repeat' split <;> simp [hu]

@[simp] theorem memOk_execTld (c : Ctl) (o : OpsR) : OutOk (execTld c o s) := by
  refine memOk_issueWord h fun v e u hu => ?_
  grind [memOk_tileBody]

@[simp] theorem memOk_execTst (c : Ctl) (o : OpsR) : OutOk (execTst c o s) := by
  refine memOk_issueWord h fun v e u hu => ?_
  grind [memOk_tileBody]

@[simp] theorem memOk_execYcopy (c : Ctl) (o : OpsR) : OutOk (execYcopy c o s) := by
  refine memOk_issueWord h fun v e u hu => ?_
  grind [memOk_post, memOk_postFault]

@[simp] theorem memOk_execYgath (c : Ctl) (o : OpsR) : OutOk (execYgath c o s) := by
  refine memOk_issueWord h fun v e u hu => ?_
  grind [memOk_gatherBody]

@[simp] theorem memOk_execYscat (c : Ctl) (o : OpsR) : OutOk (execYscat c o s) := by
  refine memOk_issueWord h fun v e u hu => ?_
  grind [memOk_gatherBody]

@[simp] theorem memOk_execYfence (c : Ctl) (o : OpsR) : OutOk (execYfence c o s) :=
  memOk_issueWord h fun _ _ _ hu => by simp [hu]

@[simp] theorem memOk_execBarinit (c : Ctl) (o : OpsR) : OutOk (execBarinit c o s) := by
  refine memOk_issueWord h fun v e u hu => ?_
  grind [Act.Ok, ErrOk, memOk_scopeFault, memOk_objAt, memOk_storePieces]

@[simp] theorem memOk_execArrive (c : Ctl) (o : OpsR) : OutOk (execArrive c o s) :=
  memOk_issueWord h fun _ _ _ hu => by simp [hu]

@[simp] theorem memOk_execArriveBytes (c : Ctl) (o : OpsR) : OutOk (execArriveBytes c o s) :=
  memOk_issueWord h fun _ _ _ hu => by simp [hu]

@[simp] theorem memOk_execWaitph (c : Ctl) (o : OpsR) : OutOk (execWaitph c o s) :=
  memOk_issueWord h fun _ _ _ hu => by simp [hu]

@[simp] theorem memOk_execWaitphSwap (c : Ctl) (o : OpsR) : OutOk (execWaitphSwap c o s) :=
  memOk_issueWord h fun _ _ _ hu => by simp [hu]

@[simp] theorem memOk_execWaitphVin (c : Ctl) (o : OpsR) : OutOk (execWaitphVin c o s) :=
  memOk_issueWord h fun _ _ _ hu => by simp [hu]

@[simp] theorem memOk_execWaitphVout (c : Ctl) (o : OpsR) : OutOk (execWaitphVout c o s) :=
  memOk_issueWord h fun _ _ _ hu => by simp [hu]

@[simp] theorem memOk_execWaitphBankFifo (c : Ctl) (o : OpsR) : OutOk (execWaitphBankFifo c o s) := by
  refine memOk_issueWord h fun v e u hu => ?_
  grind [ErrOk, memOk_fifoWait, memOk_bankFifo]

@[simp] theorem memOk_execBarq (c : Ctl) (o : OpsR) : OutOk (execBarq c o s) := by
  refine memOk_issueWord h fun v e u hu => ?_
  grind [Act.Ok, ErrOk, memOk_objAt, memOk_objRead]

@[simp] theorem memOk_execRinit (c : Ctl) (o : OpsR) : OutOk (execRinit c o s) := by
  refine memOk_issueWord h fun v e u hu => ?_
  grind [Act.Ok, ErrOk, memOk_scopeFault, memOk_objAt, memOk_storePieces]

@[simp] theorem memOk_execRawait (c : Ctl) (o : OpsR) : OutOk (execRawait c o s) := by
  refine memOk_issueWord h fun v e u hu => ?_
  have hr := memOk_ringAt hu e c o.x (e.objAddr o.a o.x) .read (some false)
  dsimp only
  split <;> rename_i hk <;> rw [hk] at hr
  · exact hr
  · split <;> exact hr

@[simp] theorem memOk_execRput (c : Ctl) (o : OpsR) : OutOk (execRput c o s) := by
  refine memOk_issueWord h fun v e u hu => ?_
  grind [ErrOk, memOk_post, memOk_postIdent, memOk_postFault]

@[simp] theorem memOk_execRrel (c : Ctl) (o : OpsR) : OutOk (execRrel c o s) := by
  refine memOk_issueWord h fun v e u hu => ?_
  have hr := memOk_ringAt hu e c o.x (e.objAddr o.a o.x) .write none
  dsimp only
  split <;> rename_i hk <;> rw [hk] at hr
  · exact hr
  · rename_i r0 ps _ t
    split
    · trivial
    · have hrel := memOk_relRing hr e ps r0
      split <;> rename_i hk <;> rw [hk] at hrel
      · exact hrel
      · split
        · exact memOk_metBy hu _
        · exact memOk_objPut hrel ..

@[simp] theorem memOk_execSeminc (c : Ctl) (o : OpsR) : OutOk (execSeminc c o s) := by
  refine memOk_issueWord h fun v e u hu => ?_
  grind [memOk_semBody]

@[simp] theorem memOk_execSemdec (c : Ctl) (o : OpsR) : OutOk (execSemdec c o s) := by
  refine memOk_issueWord h fun v e u hu => ?_
  grind [memOk_semBody]

@[simp] theorem memOk_execSfence (c : Ctl) (o : OpsR) : OutOk (execSfence c o s) := by
  refine memOk_issueWord h fun v e u hu => ?_
  grind [Act.Ok]

@[simp] theorem memOk_execVpush (c : Ctl) (o : OpsR) : OutOk (execVpush c o s) := by
  refine memOk_issueWord h fun v e u hu => ?_
  grind [Act.Ok, memOk_setVfOut, memOk_modWg]

@[simp] theorem memOk_execVpop (c : Ctl) (o : OpsR) : OutOk (execVpop c o s) := by
  refine memOk_issueWord h fun v e u hu => ?_
  grind [Act.Ok, memOk_popInto, memOk_setVfIn]

@[simp] theorem memOk_execVfree (c : Ctl) (o : OpsR) : OutOk (execVfree c o s) := by
  refine memOk_issueWord h fun v e u hu => ?_
  grind [Act.Ok, ErrOk, memOk_bankFifo]

@[simp] theorem memOk_execFpush (c : Ctl) (o : OpsR) : OutOk (execFpush c o s) := by
  refine memOk_issueWord h fun v e u hu => ?_
  grind [Act.Ok, ErrOk, memOk_setBankFifo, memOk_bankFifo]

@[simp] theorem memOk_execFpop (c : Ctl) (o : OpsR) : OutOk (execFpop c o s) := by
  refine memOk_issueWord h fun v e u hu => ?_
  grind [Act.Ok, ErrOk, memOk_setBankFifo, memOk_bankFifo, memOk_popInto]

@[simp] theorem memOk_execBankmodeRelease (c : Ctl) (o : OpsR) : OutOk (execBankmodeRelease c o s) := by
  exact memOk_issueWord h fun _ _ _ hu => memOk_foldl (fun t b ht => memOk_releaseBank ht ..) _ hu

@[simp] theorem memOk_execMloop (c : Ctl) (o : OpsR) : OutOk (execMloop c o s) := by
  refine memOk_issueWord h fun v e u hu => ?_
  grind [memOk_loopBody]

@[simp] theorem memOk_execMloopj (c : Ctl) (o : OpsR) : OutOk (execMloopj c o s) := by
  refine memOk_issueWord h fun v e u hu => ?_
  grind [ErrOk, memOk_post, memOk_loopRecs, memOk_postFault]

@[simp] theorem memOk_execMloops (c : Ctl) (o : OpsR) : OutOk (execMloops c o s) := by
  refine memOk_issueWord h fun v e u hu => ?_
  grind [memOk_loopBody]

@[simp] theorem memOk_execMzero (c : Ctl) (o : OpsR) : OutOk (execMzero c o s) := by
  refine memOk_issueWord h fun v e u hu => ?_
  grind [memOk_post, memOk_postFault]

@[simp] theorem memOk_execMrd (c : Ctl) (o : OpsR) : OutOk (execMrd c o s) := by
  refine memOk_issueWord h fun v e u hu => ?_
  grind [Act.Ok, memOk_readAll]

@[simp] theorem memOk_execMwr (c : Ctl) (o : OpsR) : OutOk (execMwr c o s) := by
  refine memOk_issueWord h fun v e u hu => ?_
  dsimp only
  split
  · trivial
  · split
    · trivial
    · split
      · exact hu
      · exact memOk_foldl (fun t p ht => memOk_storePieces ht ..) _ hu
  · exact hu

@[simp] theorem memOk_execMscale (c : Ctl) (o : OpsR) : OutOk (execMscale c o s) := by
  refine memOk_issueWord h fun v e u hu => ?_
  dsimp only
  split
  · trivial
  · split
    · trivial
    · split
      · exact hu
      · split
        · trivial
        · split <;> exact memOk_killBad (memOk_foldl (fun t p ht => memOk_storePieces ht ..) _ (memOk_readAll hu ..)) ..

@[simp] theorem memOk_execPrune (c : Ctl) (o : OpsR) : OutOk (execPrune c o s) := by
  refine memOk_issueWord h fun v e u hu => ?_
  grind [Act.Ok]

@[simp] theorem memOk_execIsect (c : Ctl) (o : OpsR) : OutOk (execIsect c o s) := by
  refine memOk_issueWord h fun v e u hu => ?_
  dsimp only
  repeat' split <;> simp [hu]

@[simp] theorem memOk_execCsrw (c : Ctl) (o : OpsI) : OutOk (execCsrw c o s) :=
  memOk_issueWord h fun _ _ _ hu => by simp [hu]

@[simp] theorem memOk_execCsrxSet (c : Ctl) (o : OpsR) : OutOk (execCsrxSet c o s) :=
  memOk_issueWord h fun _ _ _ hu => by simp [hu]

@[simp] theorem memOk_execCsrxClr (c : Ctl) (o : OpsR) : OutOk (execCsrxClr c o s) :=
  memOk_issueWord h fun _ _ _ hu => by simp [hu]

@[simp] theorem memOk_execCsrxSwap (c : Ctl) (o : OpsR) : OutOk (execCsrxSwap c o s) :=
  memOk_issueWord h fun _ _ _ hu => by simp [hu]

@[simp] theorem memOk_execSrseedWrite (c : Ctl) (o : OpsI) : OutOk (execSrseedWrite c o s) :=
  memOk_issueWord h fun _ _ _ hu => by simp [hu]

@[simp] theorem memOk_execWdogWrite (c : Ctl) (o : OpsI) : OutOk (execWdogWrite c o s) :=
  memOk_issueWord h fun _ _ _ hu => by simp [hu]

@[simp] theorem memOk_execInjcWrite (c : Ctl) (o : OpsI) : OutOk (execInjcWrite c o s) :=
  memOk_issueWord h fun _ _ _ hu => by simp [hu]

@[simp] theorem memOk_execTlbinvRange (c : Ctl) (o : OpsR) : OutOk (execTlbinvRange c o s) := by
  refine memOk_issueWord h fun v e u hu => ?_
  dsimp only
  repeat' split <;> simp [hu]

@[simp] theorem memOk_execCacheopDrop (c : Ctl) (o : OpsR) : OutOk (execCacheopDrop c o s) := by
  refine memOk_issueWord h fun v e u hu => ?_
  dsimp only
  repeat' split <;> simp [hu]

@[simp] theorem memOk_execPgreqGate (c : Ctl) (o : OpsR) : OutOk (execPgreqGate c o s) := by
  refine memOk_issueWord h fun v e u hu => ?_
  grind [memOk_pgreqBody, memOk_gateCore]

@[simp] theorem memOk_execPgreqUngate (c : Ctl) (o : OpsR) : OutOk (execPgreqUngate c o s) := by
  refine memOk_issueWord h fun v e u hu => ?_
  grind [memOk_pgreqBody, memOk_ungateCore]

@[simp] theorem memOk_execGsave (c : Ctl) (o : OpsR) : OutOk (execGsave c o s) := by
  refine memOk_issueWord h fun v e u hu => ?_
  dsimp only
  split
  · trivial
  · split
    · trivial
    · split
      · trivial
      · trivial
      · split
        · trivial
        · refine List.foldlRecOn (motive := fun (a : State × List Byte) => a.1.memOk = true) _ _ hu fun a ha p _ => ?_
          dsimp only
          split <;> [exact memOk_putProv ha ..; exact memOk_storePieces ha ..]

@[simp] theorem memOk_execGrest (c : Ctl) (o : OpsR) : OutOk (execGrest c o s) := by
  refine memOk_issueWord h fun v e u hu => ?_
  dsimp only
  split
  · trivial
  · split
    · trivial
    · split
      · trivial
      · trivial
      · rename_i hs _
        split
        · trivial
        · have h1 := memOk_uniRead hu e .read (hs.flatMap (·.2))
          split <;> rename_i hk <;> rw [hk] at h1
          · exact h1
          · split
            · exact memOk_metBy hu _
            · trivial
            · rename_i as _
              split
              · trivial
              · have h2 := memOk_uniRead hu e .read (as.flatMap (·.2))
                split <;> rename_i hk <;> rw [hk] at h2
                · exact h2
                · split
                  · exact memOk_placedAt h2 ..
                  · exact memOk_metBy hu _

/-! ### A step -/

/-- Whatever instruction, step, command or error comes next: the state that it answers keeps the form. -/
theorem memOk_exec (i : Instr) : OutOk (exec i s) := by
  cases i with
  -- words whose meaning changes the group alone
  | nop | yield | mand | mor | mandn | mxor | mnot | mmov | mpop | mfind | msetPair | msetFirst | mget | mtst | mof | restrict | fill
  | push | reduce | scan | lanemapPos | lanemapTid | iadd | isub | imul | imulh | imad | idiv | irem | imin | imax | iabs | ineg | iadds
  | lea | mov | movi | and | or | xor | andn | tril | shl | shr | sar | fshl | fshr | bfx | bfi | popc | clz | ctz | brev | fadd | fsub
  | fmul | ffma | fmin | fmax | frcp | frsq | fsqrt | fdiv | fexp2 | flog2 | fsin | fcos | ftanh | frnd | fclass | fscale | fdot2 | cvt
  | cvtb | decb | bankmodeCmin | rank | idot4 | mqstatFlags | mqstatClr | mqstatDepth | csrr | tlbinvAll | cacheopDropall | clockCyc
  | clockNs | clockEpoch =>
    exact memOk_issueWord h fun _ _ _ hu => hu
  -- words that go elsewhere or trap
  | bra | brxAbs | brxRel | call | ret | trap | rft | bkpt =>
    exact memOk_issueWord h fun _ _ _ _ => trivial
  -- the other words, by their own lemmas
  | brm | brw | brdec | mcall | exit | spawn | fork | regroup | cancel | cntrdCount | cntrdStatus | merge | compact | pull | bcast | vote
  | icmp | fcmp | fclassM | ld | st | ldm | stm | wbind | wstat | atom | atomc | red | pref | pinOn | pinOff | tbind | tinfo | tld | tst
  | ycopy | ygath | yscat | yfence | barinit | arrive | arriveBytes | waitph | waitphSwap | waitphVin | waitphVout | waitphBankFifo | barq
  | rinit | rawait | rput | rrel | seminc | semdec | sfence | vpush | vpop | vfree | fpush | fpop | bankmodeRelease | mloop | mloopj
  | mloops | mzero | mrd | mwr | mscale | prune | isect | csrw | csrxSet | csrxClr | csrxSwap | srseedWrite | wdogWrite | injcWrite
  | tlbinvRange | cacheopDrop | pgreqGate | pgreqUngate | gsave | grest =>
    simp [exec, h]
  -- steps of groups
  | phaseWaitComplete | instructionFetch | lineRefetch | loadDataDelivery | atomicPerform | trapDelivery | watchdogWait | watchdogPeer
  | watchdogRun =>
    exact memOk_getD (memOk_acting (by simp [h])) h
  -- the other steps, commands and errors
  | reductionPerform | pageWalk | walkEntryRead | adUpdate | peerTableRead | peerAdmissionReply | peerQueryTimeout | invalidationComplete
  | tilePretranslate | tileStep | landStep | ycopyLineStep | gatherIndexRead | gatherRowStep | rputClaim | yfenceRelease | kStep
  | mzeroLineStep | jointStart | jointMismatchTimeout | jointCompletion | engineTermination | epochEnd | epochConfirmation
  | landingBufferDrain | egressRelease | rollbackResume | scrubComplete | l2Refetch | timingReplay | droopTrip | droopExit | placement
  | preemptionVictimChoice | swapOut | workgroupSave | swapResume | bankReturnTimeout | buckerFullGroup | buckerPartialGroup
  | workgroupTermination | unitCompletion | marketClear | coreGate | columnGate | ungateReady | idleEntry | deviceWake | wakeComplete
  | peerAccess | peerRefusalReply | peerWriteAck | peerCopyExpiry | peerFailed | laneShed | retrainComplete | upshiftTry
  | linkRecoverySuccess | linkRecoveryAbandon | connectionReestablished | writeVa | writePa | readVa | readPa | launch | resume
  | cancelCommand | inval | ctxsave | ctxrun | ctxset | seqquery | ctxdesc | power | gate | cmin | counters | link | selftest
  | selftestDone | attest | fwload | fwstart | firmwareReady | reset | bootRomReady =>
    exact memOk_getD (by simp [h]) h
  | strikeReport site => exact memOk_strike h site
  | balanceMeasurement rs => exact memOk_balance h rs
  | resetPin => exact memOk_pinRelease
  | moduleSupplyOff => exact memOk_supplyOff
  | mrstNAssert => exact memOk_mrst
  | overTemperature => exact h

end

/-- Settles O49: what comes next keeps the form (`memOk_begin`), and so does whatever instruction, step, command or error runs (`memOk_exec`);
clearing what named the group touches no store. -/
theorem everyStepKeepsStoresCanonical : Obligations.EveryStepKeepsStoresCanonical := by
  intro s t h hstep
  have hb := memOk_begin h
  rw [step] at hstep
  split at hstep <;> rename_i hbegin <;> rw [hbegin] at hb
  · cases hstep
    exact hb
  · rename_i i u
    have he := memOk_exec hb i
    split at hstep <;> rename_i hexec <;> cases hstep
    rw [hexec] at he
    exact he

end Sys2Proof.Machine
end

section
/-!
SUPPORT. A memory instruction taken lane by lane (04 R83-R85, 11 R267): one move, one lane; what a lane reads; the load that is complete.
-/

namespace Sys2Proof.Machine

/-! ### The move that takes a lane's step -/

theorem acting_of_stands {s : State} {r : GRef} {w : Workgroup} {g : Machine.Group} (h : s.stands r w g) (x : Option State) :
    s.acting r x = x := by
  obtain ⟨hgroup, hrolling⟩ := h
  simp only [State.acting, hgroup]
  exact if_neg (by rw [show s.cols[columnOf w.core]?.getD Column.reset = s.col (columnOf w.core) from rfl, hrolling]; exact Bool.false_ne_true)

section
variable {s : State} {ms : List Move} {r : GRef} {w : Workgroup} {g : Machine.Group} {q : LaneReq} {k : Nat} {ext : List Byte}

/-- A move that names a lane of a group that stands takes that lane's step. -/
theorem step_lane {t : State} (hms : s.moves = .lane r k ext :: ms) (halive : s.alive = true) (hdue : s.due = none)
    (hst : State.stands { s with moves := ms } r w g) (hlane : State.stepLane { s with moves := ms } r k ext = some t) : step s = .next t := by
  have hout : State.outside { s with moves := ms } (.lane r k ext) = t := by
    rw [State.outside, acting_of_stands hst, hlane]; rfl
  have hmove : State.move { s with moves := ms } (.lane r k ext) =
      if s.alive then .done (State.outside { s with moves := ms } (.lane r k ext)) else .done { s with moves := ms } := rfl
  rw [step_of_begin_done]
  rw [begin_of_moves hdue hms, hmove, if_pos halive, hout]

/-- What follows a lane's step: the rest is left to do, or it was the last. -/
def State.afterLane (t : State) (r : GRef) (core epoch : Nat) (q : LaneReq) : State :=
  if q.todo.isEmpty then t.lanesDone r core q else t.modGroup r fun g => { g with wait := .lanes q, lastEpoch := epoch }

theorem afterLane_of_nil {t : State} {core epoch : Nat} (h : q.todo = []) : t.afterLane r core epoch q = t.lanesDone r core q := by
  rw [State.afterLane, h]; rfl

theorem afterLane_of_ne_nil {t : State} {core epoch : Nat} (h : q.todo ≠ []) :
    t.afterLane r core epoch q = t.modGroup r fun g => { g with wait := .lanes q, lastEpoch := epoch } := by
  rw [State.afterLane, if_neg (by simpa using h)]

/-- Where the lanes of all steps that are left are live, none of the steps is dropped. -/
theorem todo_of_live (hlive : ∀ b ∈ q.todo, g.live.getLsbD (b.lane % 64) = true) :
    (if q.vec then q.todo.filter fun a => g.live.getLsbD (a.lane % 64) else q.todo) = q.todo := by
  rw [List.filter_eq_self.2 hlive, ite_self]

/-! ### What a lane's step does, by the kind of its instruction -/

section
variable {a : LaneStep} (hlive : ∀ b ∈ q.todo, g.live.getLsbD (b.lane % 64) = true) (hk : q.todo[k]? = some a) (hwaits : q.waits k a = false)
  (hheld : s.anyHeld w.core [(a.lane, a.ps)] = false)
include hlive hk hwaits hheld

theorem laneStep_read (hstore : ∀ o, q.kind ≠ .store o) (hscale : ∀ int mode, q.kind ≠ .scale int mode) :
    let y := s.readLane w.core (if q.kind = .acc then .none else .load q.hint) a.ps q.met
    s.laneStep r w g q k = some (y.2.2.afterLane r w.core (s.col (columnOf w.core)).epoch
      { q with todo := q.todo.eraseIdx k, got := q.got ++ [(a.lane, y.1)], met := y.2.1 }) := by
  cases hkind : q.kind with
  | store o => exact absurd hkind (hstore o)
  | scale int mode => exact absurd hkind (hscale int mode)
  | _ =>
    simp only [State.laneStep, todo_of_live hlive, hk, hwaits, hheld]
    simp [hkind, State.afterLane]

theorem laneStep_store {o : Bool} (hkind : q.kind = .store o) (hroom : s.roomFor (columnOf w.core) [(a.lane, a.ps)] = true) :
    let x : Writer := { r, core := w.core, tid := (g.tidOf a.lane).toNat, iaddr := g.pc.toNat, lane := if o then none else some a.lane }
    s.laneStep r w g q k = some ((s.storePieces x a.ps a.data).afterLane r w.core (s.col (columnOf w.core)).epoch
      { q with todo := q.todo.eraseIdx k }) := by
  simp only [State.laneStep, todo_of_live hlive, hk, hwaits, hheld]
  simp [hkind, hroom, State.afterLane]

theorem laneStep_scale {int : Bool} {mode : Nat} (hkind : q.kind = .scale int mode)
    (hgood : (s.readLane w.core .none a.ps q.met).1.bad = none) (hgot : ∀ p ∈ q.got, p.2.bad = none) :
    let y := s.readLane w.core .none a.ps q.met
    let v := scaleWord int mode (leNat y.1.bytes) (leNat a.data)
    let x : Writer := { r, core := w.core, tid := (g.tidOf a.lane).toNat, iaddr := g.pc.toNat, lane := some a.lane }
    s.laneStep r w g q k = some (((y.2.2.storePieces x a.ps (leBytes 4 v.1)).modGroup r fun g => g.flag v.2).afterLane r w.core
      (s.col (columnOf w.core)).epoch { q with todo := q.todo.eraseIdx k, met := y.2.1 }) := by
  have hnone : (q.got.any fun p => p.2.bad.isSome) = false := by simpa using hgot
  simp only [State.laneStep, todo_of_live hlive, hk, hwaits, hheld]
  simp [hkind, hgood, hnone, State.afterLane]

end
end
/-! ### What a lane reads where nothing of it is uncorrectable -/

section
variable {s : State} {core : Nat} {l : Loc} {n : Nat}

/-- Where no error is armed for a range, an access that reaches it beyond the caches, or nothing, meets none. -/
theorem injMet_nil (hinj : s.injHits [(l, n)] = false) {far : List (Loc × Nat)} (hfar : far = [] ∨ far = [(l, n)]) :
    s.injMet {} far = [] := by
  have hnone : s.injHits far = false := by
    rcases hfar with rfl | rfl
    · exact Bool.and_false _
    · exact hinj
  simp [State.injMet, hnone]

theorem unitsAt_nil (hbad : s.badAll l n = []) (c : Nat) : s.unitsAt c [] l n = [] := by
  simp [State.unitsAt, hbad]

/-- A range that can be read, of whose copies no word is uncorrectable, shows no uncorrectable unit to an agent of the core. -/
theorem meets_units_nil (hread : s.readable (some (columnOf core)) l n) (hwords : (s.cluster (clusterOf core)).badWords l n = [])
    (h : Fill) (mt : Nat) : (s.meets core h true [(l, n, mt)] {}).1 l n = [] := by
  obtain ⟨-, hbad, hinj⟩ := hread
  have hfar (p : Loc × Nat × Nat → Bool) : (([(l, n, mt)].filter p).map fun x => (x.1, x.2.1)) = [] ∨
      (([(l, n, mt)].filter p).map fun x => (x.1, x.2.1)) = [(l, n)] := by
    cases hp : p (l, n, mt) <;> simp [hp]
  simp only [State.meets, injMet_nil hinj (hfar _), ite_self, hwords, unitsAt_nil hbad, List.map_nil]

theorem readLane_of_readable (hread : s.readable (some (columnOf core)) l n) (hwords : (s.cluster (clusterOf core)).badWords l n = [])
    (h : Fill) (mt : Nat) :
    (s.readLane core h [(.mem l mt, n)] {}).1 = { parts := [.here (s.colRead (columnOf core) l n)], bad := none } := by
  have hunits := meets_units_nil hread hwords h mt
  simp [State.readLane, State.readAll, memsOf, hunits, lowestBad]

end

/-! ### After the last lane -/

theorem boundary_of_not_cancelled {s : State} {r : GRef} (hrun : ∀ l, s.launchOf r.ctx r.lnum = some l → l.cancelled = false) (core : Nat) :
    s.boundary r core = s := by
  rw [State.boundary]
  cases hl : s.launchOf r.ctx r.lnum with
  | none => rfl
  | some l => simp [hrun l hl]

/-- The results of a load: one, of all the lanes that have read. -/
theorem results_of_load {q : LaneReq} {ty : Ty} (hkind : q.kind = .load ty) (hgot : q.got ≠ []) (iaddr mstep epoch : Nat) :
    q.results iaddr mstep epoch =
      [{ vec := q.vec, first := q.dst, n := q.n, lanes := q.got.map fun p => (p.1, p.2.laneVal ty), token := q.token, iaddr, mstep, epoch }] := by
  simp [LaneReq.results, hkind, hgot]

theorem lanesDone_load {s : State} {r : GRef} {core : Nat} {q : LaneReq} {ty : Ty} (hkind : q.kind = .load ty) (hgot : q.got ≠ [])
    (hrun : ∀ l, s.launchOf r.ctx r.lnum = some l → l.cancelled = false) :
    s.lanesDone r core q = s.modGroup r fun g => ({ g with
      wait := .none, lastEpoch := (s.col (columnOf core)).epoch
      pend := g.pend ++ [{ vec := q.vec, first := q.dst, n := q.n, lanes := q.got.map fun p => (p.1, p.2.laneVal ty), token := q.token
                           iaddr := g.pc.toNat, mstep := (g.mcall.map (·.2)).getD 0, epoch := (s.col (columnOf core)).epoch }] } :
        Machine.Group).stepOn (s.macrosOf r.ctx r.lnum) := by
  have hdone (t : State) (f : Machine.Group → Machine.Group) (ht : t = s) : (t.modGroup r f).boundary r core = s.modGroup r f := by
    subst ht
    exact boundary_of_not_cancelled (by exact hrun) core
  simp only [State.lanesDone, hkind, results_of_load hkind hgot, List.isEmpty_cons, Bool.false_eq_true, if_false]
  rw [hdone]
  · cases q.token <;> rfl
  · split <;> rfl

/-- Settles O59: the move named is a lane step of the group (`step_lane`), and what the step does goes by the kind of the instruction
(`laneStep_read`, `laneStep_store`, `laneStep_scale`). -/
theorem laneStepsTakeOneLane : Obligations.LaneStepsTakeOneLane := by
  refine ⟨?_, fun s core h l mt n hread hwords => readLane_of_readable hread hwords h mt,
    fun s r core q ty hkind hgot hrun => lanesDone_load hkind hgot hrun⟩
  intro s ms r w g q k a ext hms halive hdue s0 hst hwait hlive hk hwaits hheld rest epoch
  have hstep (t : State) (h : s0.laneStep r w g q k = some t) : step s = .next t := by
    refine step_lane hms halive hdue hst ?_
    show State.stepLane s0 r k ext = some t
    simp only [State.stepLane, hst.1, hwait]
    exact h
  refine ⟨fun hstore hscale => ?_, fun o hkind hroom => ?_, fun int mode hkind => ?_⟩
  · intro y q'
    have h := hstep _ (laneStep_read hlive hk hwaits hheld hstore hscale)
    exact ⟨fun hne => h.trans (congrArg _ (afterLane_of_ne_nil hne)), fun hnil => h.trans (congrArg _ (afterLane_of_nil hnil))⟩
  · intro x u
    have h := hstep _ (laneStep_store hlive hk hwaits hheld hkind hroom)
    exact ⟨fun hne => h.trans (congrArg _ (afterLane_of_ne_nil hne)), fun hnil => h.trans (congrArg _ (afterLane_of_nil hnil))⟩
  · intro y v x u q' hgood hgot
    have h := hstep _ (laneStep_scale hlive hk hwaits hheld hkind hgood hgot)
    exact ⟨fun hne => h.trans (congrArg _ (afterLane_of_ne_nil hne)), fun hnil => h.trans (congrArg _ (afterLane_of_nil hnil))⟩

end Sys2Proof.Machine
end

section
/-!
SUPPORT. Steps of groups that no instruction issues (04 R86, 06 R131, 07 R148, 05 R104, R108, R114): fetches, deliveries, lanes of atomics,
merged reductions, and the end of a wait.
-/

namespace Sys2Proof.Machine

/-- A step of a group that stands, and that is to be taken, is taken. -/
theorem next_of_acting {s t : State} {r : GRef} {w : Workgroup} {g : Machine.Group} (h : s.stands r w g) {x : Option State} (hx : x = some t) :
    (Host.Outcome.next ((s.acting r x).getD s) : Host.Outcome State Fault Refusal) = .next t := by
  rw [acting_of_stands h, hx]; rfl

/-! ### Fetches -/

section
variable {s : State} {r : GRef} {w : Workgroup} {g : Machine.Group}

theorem meetBut_of_readable {me : Option Nat} {l : Loc} {n : Nat} (h : s.readable me l n) (skip : Loc → Bool) :
    s.meetBut skip l n = (none, s) := by
  obtain ⟨-, hbad, hinj⟩ := h
  simp [State.meetBut, hbad, hinj, State.countBad]

/-- An agent of a column reads a readable range, and its reductions look at it. -/
theorem readAs_of_readable {c : Nat} {l : Loc} {n : Nat} (h : s.readable (some c) l n) :
    s.readAs c l n = (none, s.colRead c l n, s.look c [(l, n)]) := by
  simp only [State.readAs, meetBut_of_readable h, ite_self]

theorem fetchLine_of_readable {addr : Nat} {l : Loc} {mt : Nat} (hnew : ∀ k ∈ g.lines, k.addr ≠ lineOf addr)
    (hres : s.resolve r.ctx w.core g.xf (lineOf addr) 64 .exec = .ok [(.mem l mt, 64)]) (h : s.readable (some (columnOf w.core)) l 64) :
    s.fetchLine r w g addr = .ok (s.colRead (columnOf w.core) l 64) ((s.look (columnOf w.core) [(l, 64)]).modGroup r fun k => { k with
      lines := k.lines ++ [{ addr := lineOf addr, bytes := s.colRead (columnOf w.core) l 64, checked := false, second := false }] }) := by
  have hfind : (g.lines.find? fun f => f.addr == lineOf addr) = none := by
    simpa using hnew
  simp [State.fetchLine, hfind, hres, piecesLocal, h.1, readAs_of_readable h]

theorem lineOf_of_aligned {line : Nat} (h : line % 64 = 0) : lineOf line = line := by
  rw [lineOf]; omega

/-- Two changes of one group are one change, where the first leaves what names the group. -/
theorem modGroup_modGroup (s : State) (r : GRef) {f f' : Machine.Group → Machine.Group} (hid : ∀ k, (f k).isId r.grp = k.isId r.grp) :
    (s.modGroup r f).modGroup r f' = s.modGroup r fun k => f' (f k) := by
  have hgrp (u : Workgroup) : (u.modGrp r.grp f).modGrp r.grp f' = u.modGrp r.grp fun k => f' (f k) := by
    simp only [Workgroup.modGrp, List.map_map]
    congr 1
    refine List.map_congr_left fun k _ => ?_
    cases hk : k.isId r.grp <;> simp [hk, hid]
  have hwgs : (s.wgs.map fun u => if u.isOf r.ctx r.lnum r.wg then u.modGrp r.grp f else u).map
      (fun u => if u.isOf r.ctx r.lnum r.wg then u.modGrp r.grp f' else u) =
      s.wgs.map fun u => if u.isOf r.ctx r.lnum r.wg then u.modGrp r.grp fun k => f' (f k) else u := by
    rw [List.map_map]
    refine List.map_congr_left fun u _ => ?_
    cases hu : u.isOf r.ctx r.lnum r.wg
    · simp [hu]
    · have hu' : (u.modGrp r.grp f).isOf r.ctx r.lnum r.wg = true := hu
      simp [hu, hu', hgrp]
  exact congrArg (fun ws => { s with wgs := ws }) hwgs

theorem fetchNext_of_readable {l : Loc} {mt : Nat} (hgroup : s.group? r = some (w, g)) (hwait : g.wait = .none) (hruns : w.runs = true)
    (hpc : g.pc.toNat < 2 ^ 48) (hnew : ∀ k ∈ g.lines, k.addr ≠ lineOf g.pc.toNat)
    (hres : s.resolve r.ctx w.core g.xf (lineOf g.pc.toNat) 64 .exec = .ok [(.mem l mt, 64)])
    (h : s.readable (some (columnOf w.core)) l 64) :
    s.fetchNext r = some ((s.look (columnOf w.core) [(l, 64)]).modGroup r fun k => { k with lines := k.lines ++
      [{ addr := lineOf g.pc.toNat, bytes := s.colRead (columnOf w.core) l 64, checked := false, second := false }] }) := by
  have hany : (g.lines.any fun k => k.addr == lineOf g.pc.toNat) = false := by
    simpa using hnew
  simp only [State.fetchNext, hgroup]
  rw [if_neg (by simp [hwait, hruns, hany]; omega), fetchLine_of_readable hnew hres h]

theorem refetch_of_readable {l : Loc} {mt line : Nat} (hgroup : s.group? r = some (w, g)) (hwait : g.wait = .refetch line)
    (hline : line % 64 = 0) (hres : s.resolve r.ctx w.core g.xf line 64 .exec = .ok [(.mem l mt, 64)])
    (h : s.readable (some (columnOf w.core)) l 64) :
    s.refetch r = some ((s.look (columnOf w.core) [(l, 64)]).modGroup r fun k => { k with wait := .none, lines :=
      (k.lines.filter fun f => f.addr != line) ++
      [{ addr := line, bytes := s.colRead (columnOf w.core) l 64, checked := false, second := true }] }) := by
  have hself : lineOf line = line := lineOf_of_aligned hline
  have hfetch := fetchLine_of_readable (r := r) (g := { g with wait := .refetch line, lines := g.lines.filter fun k => k.addr != line }) (addr := line)
    (by simp [hself]) (by rw [hself]; exact hres) h
  simp only [State.refetch, hgroup, hwait, hfetch, hself]
  refine congrArg some ((modGroup_modGroup _ _ ?_).trans ?_)
  · exact fun _ => rfl
  · simp

end
/-! ### Deliveries -/

section
variable {p : Pend} (hok : ∀ v ∈ p.lanes, ∃ ws, v.2 = .ok ws)

/-- Lanes that all have their words are not failed by a peer. -/
theorem unlessFailed_of_ok {vs : List (Nat × LaneVal)} (hok : ∀ v ∈ vs, ∃ ws, v.2 = .ok ws) (failed : List Nat) :
    (vs.map fun v => (v.1, v.2.unlessFailed failed)) = vs := by
  refine (List.map_congr_left fun v hv => ?_).trans (List.map_id vs)
  obtain ⟨l, x⟩ := v
  obtain ⟨ws, hws⟩ := hok _ hv
  cases hws
  rfl

/-- They wait for no bytes. -/
theorem arrived_of_ok {vs : List (Nat × LaneVal)} (hok : ∀ v ∈ vs, ∃ ws, v.2 = .ok ws) (ext : List Byte) : arrived vs ext = vs := by
  induction vs with
  | nil => rfl
  | cons v vs ih =>
    obtain ⟨l, x⟩ := v
    obtain ⟨ws, hws⟩ := hok _ (List.mem_cons_self ..)
    cases hws
    exact congrArg _ (ih fun u hu => hok u (List.mem_cons_of_mem _ hu))

theorem goodLanes_of_ok {vs : List (Nat × LaneVal)} (hok : ∀ v ∈ vs, ∃ ws, v.2 = .ok ws) :
    goodLanes vs = vs.map fun v => (v.1, match v.2 with | .ok ws => ws | _ => []) := by
  induction vs with
  | nil => rfl
  | cons v vs ih =>
    obtain ⟨l, x⟩ := v
    obtain ⟨ws, hws⟩ := hok _ (List.mem_cons_self ..)
    cases hws
    exact congrArg _ (ih fun u hu => hok u (List.mem_cons_of_mem _ hu))

/-- What looks for the other lanes finds none. -/
theorem filterMap_of_ok {β : Type} {vs : List (Nat × LaneVal)} (hok : ∀ v ∈ vs, ∃ ws, v.2 = .ok ws) {f : Nat × LaneVal → Option β}
    (hf : ∀ l ws, f (l, .ok ws) = none) : vs.filterMap f = [] := by
  refine List.filterMap_eq_nil_iff.2 fun v hv => ?_
  obtain ⟨l, x⟩ := v
  obtain ⟨ws, hws⟩ := hok _ hv
  cases hws
  exact hf l ws

theorem killBad_nil (s : State) (r : GRef) (iaddr mstep : Nat) : s.killBad r [] iaddr mstep = s := rfl

include hok in
theorem parts_of_ok : p.parts = [] := by
  refine List.flatMap_eq_nil_iff.2 fun v hv => ?_
  obtain ⟨ws, hws⟩ := hok v hv
  rw [hws]

/-- What a result is written to is the registers alone. -/
theorem receive_frame (g : Machine.Group) (p : Pend) (vals : List (Nat × List Word)) :
    (g.receive p vals).blocked = g.blocked ∧ (g.receive p vals).nextAt = g.nextAt := by
  unfold Group.receive
  split
  · refine List.foldlRecOn (motive := fun k : Machine.Group => k.blocked = g.blocked ∧ k.nextAt = g.nextAt) _ _ ⟨rfl, rfl⟩ fun k hk v _ => ?_
    exact List.foldlRecOn (motive := fun k : Machine.Group => k.blocked = g.blocked ∧ k.nextAt = g.nextAt) _ _ hk fun k hk n _ => hk
  · split
    · exact List.foldlRecOn (motive := fun k : Machine.Group => k.blocked = g.blocked ∧ k.nextAt = g.nextAt) _ _ ⟨rfl, rfl⟩ fun k hk n _ => hk
    · exact ⟨rfl, rfl⟩

theorem unblocked_receive (g : Machine.Group) (p : Pend) (vals : List (Nat × List Word)) (regs : List RegName) (now cyc : Nat) :
    (g.receive p vals).unblocked regs now cyc = { g.receive p vals with
      blocked := if regs.any g.blocked.contains then [] else g.blocked
      nextAt := if regs.any g.blocked.contains then max g.nextAt (now + 2 * cyc) else g.nextAt } := by
  obtain ⟨hb, hn⟩ := receive_frame g p vals
  rw [Group.unblocked, hb, hn]
  split
  · rfl
  · rw [← hb, ← hn]

include hok in
theorem deliverData_of_ok {s : State} {r : GRef} {w : Workgroup} {g : Machine.Group} {n : Nat} (hgroup : s.group? r = some (w, g))
    (hp : g.pend[n]? = some p) (ext : List Byte) :
    let rest := g.pend.eraseIdx n
    let got := g.receive p (goodLanes p.lanes)
    let held : Bool := p.regs.any g.blocked.contains
    let g1 : Machine.Group := { got with
      pend := rest, blocked := if held then [] else g.blocked
      nextAt := if held then max g.nextAt (s.now + 2 * (s.clock w.core).cyc) else g.nextAt }
    s.deliverData r n ext = some (s.setGroup r (match p.token with
      | some k => if rest.any fun q => q.token == some k then g1 else g1.setTok k false
      | none => g1)) := by
  simp only [State.deliverData, hgroup, hp, unlessFailed_of_ok hok, arrived_of_ok hok, parts_of_ok hok,
    unblocked_receive, List.any_nil, Bool.false_eq_true, if_false, State.fillParts]
  rw [filterMap_of_ok hok]
  · simp only [List.isEmpty_nil, Bool.not_true, Bool.false_and, Bool.false_eq_true, if_false, List.flatMap_nil, ite_self, killBad_nil] <;>
      rfl
  · exact fun _ _ => rfl

end

/-! ### Lanes of an atomic that performs at its home -/

section
variable {s : State} {r : GRef} {w : Workgroup} {g : Machine.Group} {q : AtomReq} {a : AtomLane}

theorem alive_of_live {live : LaneMap} (hlive : ∀ b ∈ q.lanes, q.vec = true → live.getLsbD b.lane = true) : q.alive live = q := by
  have hlanes : (if q.vec then q.lanes.filter fun a => live.getLsbD a.lane else q.lanes) = q.lanes := by
    split
    · exact List.filter_eq_self.2 fun b hb => hlive b hb ‹_›
    · rfl
  rw [AtomReq.alive, hlanes]

/-- A readable range shows an atomic nothing that it has not met. -/
theorem countMet_of_same {core : Nat} {m m' : Met} (hinj : m.inj.length = m'.inj.length) (hseen : ∀ b ∈ m'.seen, b ∈ m.seen)
    (hwords : m'.words = m.words) : s.countMet core m m' = s := by
  have hs : (m'.seen.filter fun b => !m.seen.contains b) = [] := by simpa using hseen
  have hw : (m.words.filter fun a => !m.words.contains a) = [] := by simp
  simp only [State.countMet, hwords, hinj, hs, hw, beq_self_eq_true, if_true, List.isEmpty_nil]
  rfl

theorem homeRead_of_readable {me : Option Nat} {core : Nat} {l : Loc} {n : Nat} {m : Met} (h : s.readable me l n) (hinj : m.inj = []) :
    s.homeRead core l n m = (none, { m with seen := m.seen.eraseDups }, s) := by
  obtain ⟨-, hbad, hhits⟩ := h
  have hmet : (if l.store == .dram then s.injMet m [(l, n)] else m.inj) = m.inj := by
    simp [State.injMet, hhits]
  have hcount : s.countMet core m { m with seen := m.seen.eraseDups } = s := countMet_of_same rfl (by simp) rfl
  simp only [State.homeRead, hmet, hbad, List.append_nil, hcount]
  simp [hinj, lowestBad]

/-- A lane of an atomic performs at its home, in one step. -/
theorem atomStep_of_readable (hpeer : a.peer = none) (hold : a.old = none) (hinj : q.met.inj = [])
    (hfar : isFar (columnOf w.core) q.near (.mem a.loc 0) = true) (h : s.readable (some (columnOf w.core)) a.loc (tyBytes q.ty))
    (hdrain : s.mustDrain (columnOf w.core) a.loc (tyBytes q.ty) = false)
    (hhalf : s.halfway (some (r, a.lane)) (q.key r w.core a) a.loc (tyBytes q.ty) = false) (ext : List Byte) :
    s.atomStep r w g q a ext = some
      { val := .ok (regWords q.ty (leBytes (tyBytes q.ty) (leNat (s.bytesAt a.loc (tyBytes q.ty)))))
        met := { q.met with seen := q.met.seen.eraseDups }
        s := s.putProv (columnOf w.core) a.loc
          (match atomNew q.op q.ty (leNat (s.bytesAt a.loc (tyBytes q.ty))) a.arg a.new with
            | some v => leBytes (tyBytes q.ty) v
            | none => s.bytesAt a.loc (tyBytes q.ty)) true } := by
  have hwaits : s.atomWaits r w q a = false := by
    simp only [State.atomWaits, h.1, hhalf, hfar, hdrain, Bool.or_false, if_true]
  have hread : s.atomRead w q a =
      .ok (leNat (s.bytesAt a.loc (tyBytes q.ty)), { q.met with seen := q.met.seen.eraseDups }, s) := by
    simp only [State.atomRead, hfar, if_true, homeRead_of_readable h hinj]
  simp only [State.atomStep, hpeer, hwaits, hold, hread, Bool.false_eq_true, if_false, State.atomWrite, hfar, if_true] <;>
    rfl

theorem atomicPerform_of_step {rest : List AtomLane} {ext : List Byte} {o : AtomOut} (hgroup : s.group? r = some (w, g))
    (hwait : g.wait = .atomic q) (hlanes : q.lanes = a :: rest) (hred : q.red = false)
    (hlive : ∀ b ∈ q.lanes, q.vec = true → g.live.getLsbD b.lane = true) (hbehind : q.behind a = false)
    (hstep : s.atomStep r w g q a ext = some o) :
    s.atomicPerform r 0 ext = some (o.s.atomicGot r w.core q a.lane o.val o.met) := by
  have hhead : q.lanes[0]? = some a := by rw [hlanes]; rfl
  simp only [State.atomicPerform, hgroup, hwait, alive_of_live hlive, hhead, hbehind, hred, Bool.false_eq_true, if_false, hstep, Option.map_some]

end

/-! ### Reductions that perform together -/

section
variable {s : State} {u : Loc} {n : Nat}

/-- A location at which an access meets no uncorrectable unit, and no armed error. -/
def State.clean (s : State) (u : Loc) (n : Nat) : Prop := s.badAll u n = [] ∧ s.injHits [(u, n)] = false

theorem meet_of_clean (h : s.clean u n) : s.meet u n = (none, s) := by
  obtain ⟨hbad, hinj⟩ := h
  simp [State.meet, State.meetBut, hbad, hinj, State.countBad]

theorem mem_bad_of_put {l b : Loc} {bs : List Byte} (h : b ∈ (s.put l bs).bad) : b ∈ s.bad := by
  have hmem := (List.mem_filter.1 h).1
  cases l with | mk st a => cases st <;> exact hmem

theorem mem_l2bad_of_put {l : Loc} {b : Nat × Bool} {bs : List Byte} (h : b ∈ (s.put l bs).l2bad) : b ∈ s.l2bad := by
  have hmem := (List.mem_filter.1 h).1
  cases l with | mk st a => cases st <;> exact hmem

/-- A write uncovers no uncorrectable unit: it only takes units away from those that are listed. -/
theorem clean_put (h : s.clean u n) (l : Loc) (bs : List Byte) : (s.put l bs).clean u n := by
  obtain ⟨hbad, hinj⟩ := h
  refine ⟨?_, by simpa [State.injHits, State.injSector] using hinj⟩
  rw [State.badAll, List.filter_eq_nil_iff] at hbad ⊢
  intro b hb hin
  refine hbad b hb ?_
  simp only [Bool.or_eq_true, Bool.and_eq_true, List.contains_iff_mem] at hin ⊢
  exact hin.imp mem_bad_of_put (And.imp_right mem_l2bad_of_put)

/-- What one location of a merge becomes: where its part of the merge order is not empty, the value of that part. -/
def State.merged (t : State) (qs : List WqRed) (plan : MergePlan) (op : Nat) (ty : Ty) (u : Loc) : State :=
  match planKeep (fun i => i == 0 || (qs[i - 1]?.map (·.loc)) == some u) plan with
  | some p => t.put u (leBytes (tyBytes ty) (planValue op ty (leNat (t.bytesAt u (tyBytes ty)) :: qs.map fun (q : WqRed) => q.operand.toNat) p))
  | none => t

theorem clean_merged {qs : List WqRed} {plan : MergePlan} {op : Nat} {ty : Ty} (h : s.clean u n) (l : Loc) :
    (s.merged qs plan op ty l).clean u n := by
  unfold State.merged
  split
  · exact clean_put h ..
  · exact h

theorem spoilt_of_unmet {m : RedMark} (h : m.met = none) : m.spoilt = none := by
  rw [RedMark.spoilt, h]; rfl

/-- Reductions of which one has met nothing yet meet what stands at their location: nothing. -/
theorem redMeet_of_clean {xs : List (Writer × RedMark)} (hxs : ∃ x ∈ xs, x.2.met = none) (h : s.clean u n) : s.redMeet xs u n = (none, s) := by
  have hserved : (xs.all fun x => x.2.met.isSome) = false := by
    obtain ⟨x, hx, hmet⟩ := hxs
    exact List.all_eq_false.2 ⟨x, hx, by rw [hmet]; exact Bool.false_ne_true⟩
  simp [State.redMeet, hserved, h.2, meet_of_clean h]

theorem mergeAt_of_clean {qs : List WqRed} {plan : MergePlan} {op : Nat} {ty : Ty} (hqs : ∀ q ∈ qs, q.mark.met = none)
    (hu : u ∈ qs.map (·.loc)) (h : s.clean u (tyBytes ty)) : s.mergeAt qs plan u op ty = s.merged qs plan op ty u := by
  have hunmet (q : WqRed) (hq : q ∈ qs.filter fun q => q.loc == u) : q.mark.spoilt = none :=
    spoilt_of_unmet (hqs q (List.mem_filter.1 hq).1)
  have hlost {f : State → WqRed → State} (hf : ∀ t q, q.mark.spoilt = none → f t q = t) : (qs.filter fun q => q.loc == u).foldl f s = s :=
    List.foldlRecOn (motive := (· = s)) _ _ rfl fun t ht q hq => (hf t q (hunmet q hq)).trans ht
  have hleft : ((qs.filter fun q => q.loc == u).filter fun q => q.mark.spoilt.isNone) = qs.filter fun q => q.loc == u :=
    List.filter_eq_self.2 fun q hq => by rw [hunmet q hq]; rfl
  have hpred : (fun i => i == 0 || (qs[i - 1]?.any fun q => q.loc == u && q.mark.spoilt.isNone)) =
      fun i => i == 0 || (qs[i - 1]?.map (·.loc)) == some u := by
    funext i
    cases hq : qs[i - 1]? with
    | none => rfl
    | some q => simp [spoilt_of_unmet (hqs q (List.mem_of_getElem? hq))]
  obtain ⟨q, hq, hloc⟩ := List.mem_map.1 hu
  have hmine : q ∈ qs.filter fun q => q.loc == u := List.mem_filter.2 ⟨hq, by simp [hloc]⟩
  have hmeet : s.redMeet ((qs.filter fun q => q.loc == u).map fun q => (q.x, q.mark)) u (tyBytes ty) = (none, s) :=
    redMeet_of_clean ⟨_, List.mem_map.2 ⟨q, hmine, rfl⟩, hqs q hq⟩ h
  have hne : (qs.filter fun q => q.loc == u).isEmpty = false := List.isEmpty_eq_false_iff.2 (List.ne_nil_of_mem hmine)
  simp only [State.mergeAt, hleft, hpred, hne, Bool.false_eq_true, if_false]
  rw [hlost, hmeet]
  · rfl
  · intro t q hq
    rw [hq]

/-- The locations of a merge are written one after another, each with its own part. -/
theorem foldl_mergeAt_of_clean {qs : List WqRed} {plan : MergePlan} {op : Nat} {ty : Ty} (hqs : ∀ q ∈ qs, q.mark.met = none) {locs : List Loc}
    (hlocs : ∀ u ∈ locs, u ∈ qs.map (·.loc)) {t : State} (h : ∀ u ∈ locs, t.clean u (tyBytes ty)) :
    locs.foldl (fun t u => t.mergeAt qs plan u op ty) t = locs.foldl (fun t u => t.merged qs plan op ty u) t := by
  induction locs generalizing t with
  | nil => rfl
  | cons u us ih =>
    rw [List.foldl_cons, List.foldl_cons, mergeAt_of_clean hqs (hlocs u (List.mem_cons_self ..)) (h u (List.mem_cons_self ..))]
    exact ih (fun v hv => hlocs v (List.mem_cons_of_mem _ hv)) fun v hv => clean_merged (h v (List.mem_cons_of_mem _ hv)) u

theorem reductionPerform_of_clean {l : Loc} {q0 : WqRed} {rest : List WqRed} {plan : MergePlan} (hwq : s.wqAt l = q0 :: rest) (hold : q0.old = none)
    (htwo : 2 ≤ (planLeaves plan).length) (hlen : (planLeaves plan).length ≤ rest.length + 2)
    (hleaves : ∀ i, i < (planLeaves plan).length → i ∈ planLeaves plan) :
    let qs := (q0 :: rest).take ((planLeaves plan).length - 1)
    (∀ q ∈ qs, s.redReady q = true ∧ q.mark.met = none) → (∀ u ∈ (qs.map (·.loc)).eraseDups, s.clean u (tyBytes q0.ty)) →
    s.reductionPerform l plan = some ((qs.map (·.loc)).eraseDups.foldl (fun t u => t.merged qs plan q0.op q0.ty u)
      { s with wq := qs.foldl (fun w q => w.erase q) s.wq }) := by
  intro qs hqs hclean
  have hok : ((decide ((planLeaves plan).length ≥ 2) && decide ((planLeaves plan).length ≤ (q0 :: rest).length + 1)) &&
      (List.range (planLeaves plan).length).all fun i => (planLeaves plan).contains i) = true := by
    simp only [Bool.and_eq_true, decide_eq_true_eq, List.all_eq_true, List.mem_range, List.contains_iff_mem, List.length_cons]
    exact ⟨⟨htwo, hlen⟩, hleaves⟩
  have hready : (((q0 :: rest).take ((planLeaves plan).length - 1)).all s.redReady) = true := List.all_eq_true.2 fun q hq => (hqs q hq).1
  simp only [State.reductionPerform, hwq, hok, if_true, hready, Bool.not_true, Bool.false_eq_true, if_false, State.redApply, hold]
  exact congrArg some (foldl_mergeAt_of_clean (fun q hq => (hqs q hq).2) (fun u hu => List.mem_eraseDups.1 hu) hclean)

end

/-! ### The end of a wait -/

theorem phaseWait_of_left {s t : State} {r : GRef} {w : Workgroup} {g : Machine.Group} {p v : Word} (hst : s.stands r w g)
    (hruns : w.runs = true) (hleaves : g.wait.leaves = some p) (hreads : s.waitReads r w g g.wait = some (v, t)) (hleft : v ≠ p) :
    s.phaseWait r = some (t.modGroup r fun k =>
      { (match k.wait with | .phase _ _ _ _ _ (some d) h => k.setS d h | _ => k) with
        wait := .none, waitFep := none, got := [], waitCnt := 0, hold := 0, lastEpoch := (s.col (columnOf w.core)).epoch }.stepOn
          (s.macrosOf r.ctx r.lnum)) := by
  obtain ⟨hgroup, hrolling⟩ := hst
  simp only [Workgroup.runs, Bool.and_eq_true, Option.isNone_iff_eq_none, Bool.not_eq_true'] at hruns
  obtain ⟨⟨hending, hsaving⟩, -⟩ := hruns
  have hdiffer : (v == p) = false := beq_false_of_ne hleft
  simp only [State.phaseWait, hgroup, hending, hsaving, hrolling, Option.isSome_none, Bool.or_false, Bool.false_eq_true, if_false,
    hleaves, hreads, hdiffer] <;>
    rfl

/-- Settles O25, a lemma for each step: `fetchNext_of_readable`, `refetch_of_readable`, `deliverData_of_ok`, `atomStep_of_readable`,
`reductionPerform_of_clean`, `phaseWait_of_left`. -/
theorem groupStepsComplete : Obligations.GroupStepsComplete := by
  refine ⟨?_, ?_, ?_, ?_, ?_, ?_⟩
  · intro s r w g l mt hst hwait hruns hpc hnew hres hread
    exact next_of_acting hst (fetchNext_of_readable hst.1 hwait hruns hpc hnew hres hread)
  · intro s r w g l mt line hst hwait hline hres hread
    exact next_of_acting hst (refetch_of_readable hst.1 hwait hline hres hread)
  · intro s r w g n p ext hst hp hok rest got held g1
    have hgot : got = g.receive p (goodLanes p.lanes) :=
      congrArg (g.receive p) (goodLanes_of_ok hok).symm
    clear_value got
    subst hgot
    exact next_of_acting hst (deliverData_of_ok hok hst.1 hp ext)
  · intro s r w g q a rest ext hst hwait hlanes hred hpeer hold hinj hlive hbehind col n old hfar hread hdrain hhalf
    have hstep := atomStep_of_readable (g := g) hpeer hold hinj hfar hread hdrain hhalf ext
    have hperform := atomicPerform_of_step hst.1 hwait hlanes hred hlive hbehind hstep
    exact next_of_acting hst hperform
  · intro s l q0 rest plan hwq hold htwo hlen hleaves n qs locs hqs hclean
    have hperform := reductionPerform_of_clean hwq hold htwo hlen hleaves hqs hclean
    show Host.Outcome.next ((s.reductionPerform l plan).getD s) = _
    rw [hperform]
    rfl
  · intro s t r w g p v hst hruns hleaves hreads hleft
    exact next_of_acting hst (phaseWait_of_left hst hruns hleaves hreads hleft)

end Sys2Proof.Machine
end

section
/-!
SUPPORT. Barrier objects as values (Table 5.2, 05 R103): the fields of one that a step has changed, read back, and what its advance makes of it.
-/

namespace Sys2Proof.Machine

section
variable (b phase left : Nat) (x : Int)

/-- The fields of a barrier object lie side by side: one after another they make up the number. -/
theorem barWith_parts : ∃ h w, h < 2 ^ 32 ∧ w < 2 ^ 32 ∧ h = bits b 127 96 ∧ w = wrap 32 x ∧ barExp b < 2 ^ 16 ∧
    barWith b phase left x = h * 2 ^ 96 + w * 2 ^ 64 + barExp b * 2 ^ 48 + left % 65536 * 2 ^ 32 + phase % 2 ^ 32 :=
  ⟨_, _, Nat.mod_lt _ (by decide), by rw [wrap]; omega, rfl, rfl, Nat.mod_lt _ (by decide), rfl⟩

theorem barWith_lt : barWith b phase left x < 2 ^ 128 := by
  obtain ⟨h, w, hh, hw, -, -, he, hv⟩ := barWith_parts b phase left x
  rw [hv]; omega

@[simp] theorem barPhase_barWith : barPhase (barWith b phase left x) = phase % 2 ^ 32 := by
  obtain ⟨h, w, hh, hw, -, -, he, hv⟩ := barWith_parts b phase left x
  rw [barPhase, bits, hv]; omega

@[simp] theorem barLeft_barWith : barLeft (barWith b phase left x) = left % 65536 := by
  obtain ⟨h, w, hh, hw, -, -, he, hv⟩ := barWith_parts b phase left x
  rw [barLeft, bits, hv]; omega

@[simp] theorem barExp_barWith : barExp (barWith b phase left x) = barExp b := by
  obtain ⟨h, w, hh, hw, -, -, he, hv⟩ := barWith_parts b phase left x
  rw [barExp, bits, hv]; omega

theorem bits_barWith_top : bits (barWith b phase left x) 127 96 = bits b 127 96 := by
  obtain ⟨h, w, hh, hw, hb, -, he, hv⟩ := barWith_parts b phase left x
  rw [← hb, hv, bits]; omega

@[simp] theorem barRing_barWith : barRing (barWith b phase left x) = barRing b := by
  have htop := bits_barWith_top b phase left x
  simp only [bits] at htop
  rw [barRing, barRing, Nat.testBit_eq_decide_div_mod_eq, Nat.testBit_eq_decide_div_mod_eq, decide_eq_decide]
  omega

@[simp] theorem barScope_barWith : barScope (barWith b phase left x) = barScope b := by
  have htop := bits_barWith_top b phase left x
  simp only [bits] at htop
  simp only [barScope, bits]
  omega

theorem bytesFit_iff : bytesFit x = true ↔ -(2 ^ 31) ≤ x ∧ x < 2 ^ 31 := by
  rw [bytesFit, Bool.and_eq_true, decide_eq_true_eq, decide_eq_true_eq]

variable {x} in
/-- A count in the range of an i32 reads back as it was laid in. -/
theorem barBytes_barWith (hx : bytesFit x = true) : barBytes (barWith b phase left x) = x := by
  obtain ⟨h, w, hh, hw, -, hwrap, he, hv⟩ := barWith_parts b phase left x
  obtain ⟨hlo, hhi⟩ := (bytesFit_iff x).1 hx
  have hfield : bits (barWith b phase left x) 95 64 = w := by rw [bits, hv]; omega
  rw [barBytes, hfield, sext, hwrap, wrap]
  split <;> omega

end

/-- What no step changes of a barrier object (05 R103): ARR_EXP, RING and SCOPE; it stays one of 128 bits. -/
def barSame (b v : Nat) : Prop := v < 2 ^ 128 ∧ barExp v = barExp b ∧ barRing v = barRing b ∧ barScope v = barScope b

theorem barSame_barWith (b phase left : Nat) (x : Int) : barSame b (barWith b phase left x) :=
  ⟨barWith_lt .., barExp_barWith .., barRing_barWith .., barScope_barWith ..⟩

theorem barSame_trans {b v u : Nat} (h : barSame b v) (k : barSame v u) : barSame b u := by
  obtain ⟨-, hexp, hring, hscope⟩ := h
  obtain ⟨hlt, kexp, kring, kscope⟩ := k
  exact ⟨hlt, kexp.trans hexp, kring.trans hring, kscope.trans hscope⟩

/-- The phase after a barrier object's: modulo 2^22 for a ring's slot barrier (05 R103, R106). -/
def barNextPhase (b : Nat) : Nat := (barPhase b + 1) % (if barRing b then 2 ^ 22 else 2 ^ 32)

theorem barNextPhase_lt (b : Nat) : barNextPhase b < 2 ^ 32 := by
  unfold barNextPhase
  split <;> omega

theorem barAdvance_of_done {b : Nat} (hl : barLeft b = 0) (hb : barBytes b = 0) :
    barAdvance b = barWith b (barNextPhase b) (barExp b) 0 := by
  simp only [barAdvance, hl, hb, beq_self_eq_true, Bool.and_self, if_true, barNextPhase]
  split <;> rfl

theorem barAdvance_of_open {b : Nat} (h : ¬(barLeft b = 0 ∧ barBytes b = 0)) : barAdvance b = b := by
  rw [barAdvance, if_neg]
  simpa only [Bool.and_eq_true, beq_iff_eq] using h

/-- A step that sets ARR_LEFT and BYTES_LEFT, and the advance that follows it. -/
theorem barAdvance_barWith (b left : Nat) (x : Int) (hleft : left < 65536) (hx : bytesFit x = true) :
    let v := barAdvance (barWith b (barPhase b) left x)
    barSame b v ∧
    (left = 0 ∧ x = 0 → barPhase v = barNextPhase b ∧ barLeft v = barExp b ∧ barBytes v = 0) ∧
    (¬(left = 0 ∧ x = 0) → barPhase v = barPhase b ∧ barLeft v = left ∧ barBytes v = x) := by
  intro v
  have hphase : barPhase b < 2 ^ 32 := Nat.mod_lt _ (by decide)
  have hexp : barExp b < 65536 := Nat.mod_lt _ (by decide)
  have hl : barLeft (barWith b (barPhase b) left x) = left := (barLeft_barWith ..).trans (Nat.mod_eq_of_lt hleft)
  have hb : barBytes (barWith b (barPhase b) left x) = x := barBytes_barWith _ _ _ hx
  have hp : barPhase (barWith b (barPhase b) left x) = barPhase b := (barPhase_barWith ..).trans (Nat.mod_eq_of_lt hphase)
  have hnext : barNextPhase (barWith b (barPhase b) left x) = barNextPhase b := by rw [barNextPhase, hp, barRing_barWith, barNextPhase]
  by_cases hdone : left = 0 ∧ x = 0
  · have hv : v = barWith (barWith b (barPhase b) left x) (barNextPhase b) (barExp b) 0 := by
      rw [← hnext, ← barExp_barWith b (barPhase b) left x]
      exact barAdvance_of_done (hl.trans hdone.1) (hb.trans hdone.2)
    refine ⟨hv ▸ barSame_trans (barSame_barWith ..) (barSame_barWith ..), fun _ => ?_, fun h => absurd hdone h⟩
    rw [hv, barPhase_barWith, barLeft_barWith, Nat.mod_eq_of_lt (barNextPhase_lt b), Nat.mod_eq_of_lt hexp]
    exact ⟨rfl, rfl, barBytes_barWith _ _ _ (by decide)⟩
  · have hv : v = barWith b (barPhase b) left x := barAdvance_of_open (by rwa [hl, hb])
    exact ⟨hv ▸ barSame_barWith .., fun h => absurd h hdone, fun _ => by rw [hv]; exact ⟨hp, hl, hb⟩⟩

theorem barBytes_range (b : Nat) : -(2 ^ 31) ≤ barBytes b ∧ barBytes b < 2 ^ 31 := by
  unfold barBytes sext
  split <;> omega

theorem barArrive_of_fit {b n : Nat} (hl : barLeft b ≠ 0) (hfit : bytesFit (barBytes b + n) = true) :
    barArrive b n = some (barAdvance (barWith b (barPhase b) (barLeft b - 1) (barBytes b + n))) := by
  simp [barArrive, hl, hfit]

theorem barLand_of_fit {b n : Nat} (hfit : bytesFit (barBytes b - n) = true) :
    barLand b n = some (barAdvance (barWith b (barPhase b) (barLeft b) (barBytes b - n))) := by
  simp [barLand, hfit]

/-- Settles O54: an arrival and a land step each set the two counts and advance (`barAdvance_barWith`). -/
theorem barrierStepsAsStated : Obligations.BarrierStepsAsStated := by
  intro b n _ next same
  obtain ⟨hlo, hhi⟩ := barBytes_range b
  have hleft : barLeft b < 65536 := Nat.mod_lt _ (by decide)
  refine ⟨fun h => ?_, fun hl hn => ?_, fun h => ?_, fun h => ?_⟩
  · rw [barArrive, if_pos]
    simp only [Bool.or_eq_true, beq_iff_eq, Bool.not_eq_true', Bool.eq_false_iff, ne_eq, bytesFit_iff]
    omega
  · have hfit : bytesFit (barBytes b + n) = true := (bytesFit_iff _).2 ⟨by omega, hn⟩
    obtain ⟨hsame, hdone, hopen⟩ := barAdvance_barWith b (barLeft b - 1) _ (by omega) hfit
    refine ⟨_, barArrive_of_fit hl hfit, hsame, fun h => hdone ⟨by omega, h.2⟩, fun h => ?_⟩
    obtain ⟨hp, hcount, hbytes⟩ := hopen (by omega)
    exact ⟨hp, by omega, hbytes⟩
  · rw [barLand, if_pos]
    simp only [Bool.not_eq_true', Bool.eq_false_iff, ne_eq, bytesFit_iff]
    omega
  · have hfit : bytesFit (barBytes b - n) = true := (bytesFit_iff _).2 ⟨h, by omega⟩
    exact ⟨_, barLand_of_fit hfit, barAdvance_barWith b (barLeft b) _ hleft hfit⟩

end Sys2Proof.Machine
end

section
/-!
SUPPORT. What the bookkeeping of the dispatcher, the queues and the clusters leaves alone (02 R37-R39, 05 R97, R100, 06 R125): memory, the columns but for
their snapshots, the time, and the schedule's moves.
-/

namespace Sys2Proof.Machine

/-- No time has passed and the schedule has lost no move. -/
def State.sameTime (s t : State) : Prop := t.now = s.now ∧ t.moves = s.moves

theorem sameTime_refl (s : State) : s.sameTime s := ⟨rfl, rfl⟩

theorem sameTime_trans {s t u : State} (h : s.sameTime t) (k : t.sameTime u) : s.sameTime u :=
  ⟨k.1.trans h.1, k.2.trans h.2⟩

theorem sameTime_foldl {α : Type} (f : State → α → State) (h : ∀ (s : State) a, s.sameTime (f s a)) (l : List α) (s : State) :
    s.sameTime (l.foldl f s) :=
  List.foldlRecOn (motive := s.sameTime) l f (sameTime_refl s) fun t ht a _ => sameTime_trans ht (h t a)

/-- Bookkeeping: a change that leaves every store, every column but for its snapshots, the time and the moves as they stand. -/
structure State.booked (s t : State) : Prop where
  mem : s.sameMem t
  col : ∀ c, t.col c = { s.col c with snaps := (t.col c).snaps }
  time : s.sameTime t

theorem booked_of {s t : State} (hmem : s.sameMem t) (hcols : t.cols = s.cols) (htime : s.sameTime t) : s.booked t :=
  ⟨hmem, fun c => by rw [State.col, hcols]; rfl, htime⟩

theorem booked_refl (s : State) : s.booked s := booked_of (sameMem_refl s) rfl (sameTime_refl s)

theorem booked_trans {s t u : State} (h : s.booked t) (k : t.booked u) : s.booked u :=
  ⟨sameMem_trans h.mem k.mem, fun c => by rw [k.col c, h.col c], sameTime_trans h.time k.time⟩

theorem booked_foldl {α : Type} (f : State → α → State) (h : ∀ (s : State) a, s.booked (f s a)) (l : List α) (s : State) : s.booked (l.foldl f s) :=
  List.foldlRecOn (motive := s.booked) l f (booked_refl s) fun t ht a _ => booked_trans ht (h t a)

section
variable (s : State)

theorem booked_modGroup (r : GRef) (f : Group → Group) : s.booked (s.modGroup r f) := booked_of (modGroup_sameMem ..) rfl ⟨rfl, rfl⟩
theorem booked_modDeck (ctx lnum k : Nat) (f : Deck → Deck) : s.booked (s.modDeck ctx lnum k f) :=
  booked_of (sameMem_of rfl rfl rfl rfl) rfl ⟨rfl, rfl⟩
theorem booked_setCore (c : Nat) (k : Core) : s.booked (s.setCore c k) := booked_of (setCore_sameMem ..) rfl ⟨rfl, rfl⟩
theorem booked_setCluster (c : Nat) (k : Cluster) : s.booked (s.setCluster c k) := booked_of (setCluster_sameMem ..) rfl ⟨rfl, rfl⟩
theorem booked_wgs (ws : List Workgroup) : s.booked { s with wgs := ws } := booked_of (sameMem_of rfl rfl rfl rfl) rfl ⟨rfl, rfl⟩

/-! ### Queues -/

theorem booked_clearTok (e : Entry) : s.booked (s.clearTok e) := by
  unfold State.clearTok
  split
  · exact booked_modGroup ..
  · exact booked_refl s

theorem booked_leave (q : QRef) (e : Entry) : s.booked (s.leave q e) := booked_trans (booked_clearTok s e) (booked_setCore ..)

theorem booked_settleN (n : Nat) (q : QRef) : s.booked (State.settleN n s q) := by
  induction n generalizing s with
  | zero => exact booked_refl s
  | succ n ih =>
    unfold State.settleN
    split
    · split
      · exact booked_trans (booked_leave ..) (ih _)
      · exact booked_refl s
    · exact booked_refl s

theorem booked_discard (p : Entry → Bool) : s.booked (s.discard p) :=
  booked_trans (booked_foldl _ (fun _ _ => booked_setCore ..) _ _)
    (booked_foldl _ (fun _ _ => booked_foldl _ (fun _ _ => booked_settleN ..) _ _) _ _)

/-- Entries change in the queues and in every snapshot. -/
theorem booked_everyEntry (f : Entry → Entry) : s.booked (s.everyEntry f) where
  mem := sameMem_of rfl rfl rfl rfl
  col c := by
    simp only [State.col, State.everyEntry, Vector.getElem?_map]
    cases s.cols[c]? <;> rfl
  time := ⟨rfl, rfl⟩

theorem booked_discardWork (dead : Entry → Bool) : s.booked (s.discardWork dead) := by
  unfold State.discardWork
  extract_lets p lost t
  refine booked_trans ?_ (booked_discard t p)
  dsimp only [t]
  split
  · exact booked_refl s
  · exact booked_everyEntry ..

/-! ### Workgroups -/

theorem booked_release (w : Workgroup) : s.booked (s.release w) := by
  unfold State.release
  extract_lets cl here last used t k
  split
  · exact booked_setCluster ..
  · exact booked_trans (booked_setCluster ..) (booked_setCore ..)

theorem booked_dropWg (w : Workgroup) : s.booked (s.dropWg w) := booked_trans (booked_wgs s _) (booked_release ..)

theorem booked_dropAway (w : Workgroup) : s.booked (s.dropAway w) := by
  refine booked_trans ?_ (booked_release ..)
  exact booked_of (sameMem_of rfl rfl rfl rfl) rfl ⟨rfl, rfl⟩

theorem booked_reap : s.booked s.reap := booked_foldl _ booked_dropWg _ _

theorem booked_sweep : s.booked s.sweep := by
  unfold State.sweep
  split
  · exact booked_refl s
  · extract_lets t gone u
    have ht : s.booked t := booked_of (sameMem_of rfl rfl rfl rfl) rfl ⟨rfl, rfl⟩
    have hu : t.booked u := booked_foldl _ booked_dropAway _ _
    exact booked_trans (booked_trans ht hu) (booked_discardWork ..)

end

end Sys2Proof.Machine
end

section
/-!
SUPPORT. Columns: reading one back after it is set, the provisional write at its home, the landing buffer, and what a column's agents and all others see
of a store that is not confirmed (05 R111-R115).
-/

namespace Sys2Proof.Machine

/-! ### A column and the rest -/

theorem col_of_cols {s t : State} (h : t.cols = s.cols) (c : Nat) : t.col c = s.col c := by rw [State.col, h, State.col]

theorem col_setCol_same (s : State) {c : Nat} (hc : c < 32) (k : Column) : (s.setCol c k).col c = k := by
  simp [State.col, State.setCol, hc]

theorem col_setCol_ne (s : State) {c d : Nat} (h : d ≠ c) (k : Column) : (s.setCol c k).col d = s.col d := by
  simp [State.col, State.setCol, Ne.symm h]

@[simp] theorem State.renewCopies_cols (s : State) (c : Nat) (l : Loc) (n : Nat) : (s.renewCopies c l n).cols = s.cols := by
  unfold State.renewCopies
  split <;> rfl

/-! ### Provisional writes -/

/-- What a provisional write logs: its pre-image, and before it the uncorrectable units that it covers. -/
def State.undoOf (s : State) (c : Nat) (l : Loc) (bs : List Byte) (locked : Bool) : List Undo :=
  let covered (b : Loc) : Bool := b.store == l.store && l.addr ≤ b.addr && b.addr + sectorSize b.store ≤ l.addr + bs.length
  let lost := s.bad.filter covered
  let lost2 := s.l2bad.filter fun b => covered ⟨.dram, b.1⟩
  (if lost.isEmpty && lost2.isEmpty then [] else [.bad (s.col c).epoch lost lost2]) ++ [.mem (s.col c).epoch l (s.bytesAt l bs.length) locked]

theorem col_putProv (s : State) {c : Nat} (hc : c < 32) (l : Loc) (bs : List Byte) (locked : Bool) :
    (s.putProv c l bs locked).col c = { s.col c with undo := s.undoOf c l bs locked ++ (s.col c).undo } := by
  unfold State.putProv
  rw [col_of_cols (State.renewCopies_cols ..), col_of_cols (State.put_cols ..), col_setCol_same s hc, State.undoOf, List.append_assoc]
  rfl

/-- A provisional write is a write at its home. -/
theorem mem_putProv (s : State) (c : Nat) (l : Loc) (bs : List Byte) (locked : Bool) (st : Store) :
    (s.putProv c l bs locked).mem st = (s.put l bs).mem st := by
  unfold State.putProv
  rw [mem_renewCopies, mem_put, mem_put, mem_setCol]

/-! ### What a column reads -/

@[simp] theorem length_overlay (l : Loc) (bs : List Byte) (u : Loc) (new : List Byte) : (overlay l bs u new).length = bs.length := by
  unfold overlay
  split <;> simp

/-- Bytes laid over a range of the same place and length are the range's. -/
theorem overlay_same {l : Loc} {bs new : List Byte} (h : bs.length = new.length) : overlay l bs l new = new := by
  refine List.ext_getElem (by rw [length_overlay, h]) fun i hi hnew => ?_
  have hmeets : overlaps l bs.length l new.length = true := by
    simp only [overlaps, beq_self_eq_true, Bool.true_and, Bool.and_eq_true, decide_eq_true_eq]
    omega
  have hin : l.addr ≤ l.addr + i ∧ l.addr + i < l.addr + new.length := by omega
  simp only [overlay, hmeets, Bool.not_true, Bool.false_eq_true, if_false, List.getElem_map, List.getElem_zipIdx, Nat.zero_add, if_pos hin,
    Nat.add_sub_cancel_left]
  simp [hnew]

theorem length_colRead (s : State) (c : Nat) (l : Loc) (n : Nat) : (s.colRead c l n).length = n := by
  refine List.foldlRecOn (motive := fun bs : List Byte => bs.length = n) _ _ (length_readRange ..) fun bs hbs e _ => ?_
  split
  · rw [length_overlay, hbs]
  · dsimp only
    split
    · rw [length_overlay, hbs]
    · exact hbs
  · exact hbs

/-- What a column reads depends on memory and on its own landing buffer alone. -/
theorem colRead_congr {s t : State} {c : Nat} (hmem : ∀ st, t.mem st = s.mem st) (hcol : t.col c = s.col c) (l : Loc) (n : Nat) :
    t.colRead c l n = s.colRead c l n := by
  simp only [State.colRead, State.bytesAt, hmem, hcol]

/-- The store that entered the landing buffer last is what its column reads at its place. -/
theorem colRead_stored {s t : State} {c : Nat} {l : Loc} {bs : List Byte} {epoch ctx lnum : Nat} (hmem : ∀ st, t.mem st = s.mem st)
    (hlb : (t.col c).lb = (s.col c).lb ++ [{ epoch, ctx, lnum, kind := .store l bs }]) : t.colRead c l bs.length = bs := by
  have hstep : t.colRead c l bs.length = overlay l (s.colRead c l bs.length) l bs := by
    simp only [State.colRead, State.bytesAt, hmem, hlb, List.foldl_append, List.foldl_cons, List.foldl_nil]
  rw [hstep, overlay_same (length_colRead ..)]

/-! ### Who must wait -/

theorem overlaps_self {l : Loc} {n : Nat} (h : 0 < n) : overlaps l n l n = true := by
  simp only [overlaps, beq_self_eq_true, Bool.true_and, Bool.and_eq_true, decide_eq_true_eq]
  omega

theorem heldOff_of_touches {s : State} {c : Nat} (hc : c < 32) {me : Option Nat} (hme : me ≠ some c) {l : Loc} {n : Nat}
    (h : (s.col c).touches l n = true) : s.heldOff me l n = true := by
  have hany : ((List.range 32).any fun d => some d != me && (s.col d).touches l n) = true :=
    List.any_eq_true.2 ⟨c, List.mem_range.2 hc, by rw [h, Bool.and_true]; exact bne_iff_ne.2 (Ne.symm hme)⟩
  rw [State.heldOff, hany, Bool.or_true]

theorem touches_of_undo {k : Column} {l : Loc} {e n : Nat} {old : List Byte} (hu : Undo.mem e l old false ∈ k.undo) (hn : old.length = n)
    (hpos : 0 < n) : k.touches l n = true := by
  have hon : k.undoOn l n = true := List.any_eq_true.2 ⟨_, hu, hn ▸ overlaps_self (hn ▸ hpos)⟩
  rw [Column.touches, hon, Bool.true_or]

theorem touches_of_store {k : Column} {l : Loc} {e : LbEntry} {bs : List Byte} (he : e ∈ k.lb) (hk : e.kind = .store l bs)
    (hpos : 0 < bs.length) : k.touches l bs.length = true := by
  have hon : k.lbOn true l bs.length = true := List.any_eq_true.2 ⟨e, he, by rw [hk]; exact overlaps_self hpos⟩
  rw [Column.touches, hon, Bool.or_true]

/-! ### Stores of a column -/

section
variable {s : State} {c ctx lnum : Nat} {l : Loc} {bs : List Byte}

theorem colStore_here (hbs : bs ≠ []) (h : locColumn l = some c) : s.colStore c ctx lnum l bs = s.putProv c l bs false := by
  simp [State.colStore, hbs, h]

/-- A store elsewhere changes its column alone, whose landing buffer it enters last. -/
theorem colStore_away (hbs : bs ≠ []) (h : locColumn l ≠ some c) : s.colStore c ctx lnum l bs =
    (s.setCol c { s.col c with lb := (s.col c).lb ++ [{ epoch := (s.col c).epoch, ctx, lnum, kind := .store l bs }] }).renewCopies c l bs.length := by
  simp [State.colStore, hbs, h]

theorem mem_colStore_away (hbs : bs ≠ []) (h : locColumn l ≠ some c) (st : Store) : (s.colStore c ctx lnum l bs).mem st = s.mem st := by
  rw [colStore_away hbs h, mem_renewCopies, mem_setCol]

theorem lb_colStore_away (hbs : bs ≠ []) (h : locColumn l ≠ some c) (hc : c < 32) : ((s.colStore c ctx lnum l bs).col c).lb =
    (s.col c).lb ++ [{ epoch := (s.col c).epoch, ctx, lnum, kind := .store l bs }] := by
  rw [colStore_away hbs h, col_of_cols (State.renewCopies_cols ..), col_setCol_same s hc]

theorem col_colStore_away_ne (hbs : bs ≠ []) (h : locColumn l ≠ some c) {d : Nat} (hd : d ≠ c) :
    (s.colStore c ctx lnum l bs).col d = s.col d := by
  rw [colStore_away hbs h, col_of_cols (State.renewCopies_cols ..), col_setCol_ne s hd]

theorem touches_colStore (hbs : bs ≠ []) (hc : c < 32) : ((s.colStore c ctx lnum l bs).col c).touches l bs.length = true := by
  have hpos : 0 < bs.length := List.length_pos_iff.2 hbs
  by_cases h : locColumn l = some c
  · refine touches_of_undo (e := (s.col c).epoch) (old := s.bytesAt l bs.length) ?_ (length_readRange ..) hpos
    rw [colStore_here hbs h, col_putProv s hc]
    simp [State.undoOf]
  · refine touches_of_store (e := { epoch := (s.col c).epoch, ctx, lnum, kind := .store l bs }) ?_ rfl hpos
    rw [lb_colStore_away hbs h hc]
    simp

end

/-- Settles O52, by the two ways of a store: at its home, or through the landing buffer. -/
theorem provisionalStoresAreHeld : Obligations.ProvisionalStoresAreHeld := by
  intro s c ctx lnum l bs hok hc hbs t
  refine ⟨fun h => ?_, fun h => ⟨mem_colStore_away hbs h, ?_, fun d hd u n => ?_⟩, fun me hme => ?_⟩
  · have ht : t = s.putProv c l bs false := colStore_here hbs h
    rw [ht, State.bytesAt, mem_putProv]
    exact bytesAt_put_same hok l bs
  · exact colRead_stored (mem_colStore_away hbs h) (lb_colStore_away hbs h hc)
  · exact colRead_congr (mem_colStore_away hbs h) (col_colStore_away_ne hbs h hd) u n
  · exact heldOff_of_touches hc hme (touches_colStore hbs hc)

end Sys2Proof.Machine
end

section
/-!
SUPPORT. Rollback (05 R115, 02 R49, 20 R342): what it leaves of memory and of its column, and the pre-image that undoes a provisional write.
-/

namespace Sys2Proof.Machine

/-! ### The steps of a rollback that write no byte -/

theorem dropWrote_sameMem (s : State) (c : Nat) : s.sameMem (s.dropWrote c) := sameMem_of rfl rfl rfl rfl

theorem restoreSnap_sameMem (s : State) (c : Nat) (n : Snap) : s.sameMem (s.restoreSnap c n) := sameMem_of rfl rfl rfl rfl

theorem booked_discard_sweep (s : State) (p : Entry → Bool) : s.booked (s.discard p).sweep :=
  booked_trans (booked_discard s p) (booked_sweep _)

/-- Undoing changes memory; the rest of a rollback changes no byte. -/
theorem rollback_sameMem (s : State) (c : Nat) : ((s.col c).undo.foldl (fun t u => t.undoOne u) (s.dropWrote c)).sameMem (s.rollback c) := by
  unfold State.rollback
  extract_lets k lost s1 s2 s3 s4 s5
  have h2 : s1.sameMem s2 := by dsimp -zeta only [s2]; split <;> [exact restoreSnap_sameMem ..; exact sameMem_refl s1]
  have h3 : s2.sameMem s3 := foldl_sameMem _ (fun t e => by split <;> [exact (booked_modDeck ..).mem; exact sameMem_refl t]) _ _
  have h5 : s3.sameMem s5 := sameMem_of rfl rfl rfl rfl
  exact sameMem_trans (sameMem_trans h2 (sameMem_trans h3 h5)) (booked_discard_sweep ..).mem

/-- After a rollback its column is stopped, with one rollback more, and keeps what was confirmed. -/
theorem col_rollback (s : State) {c : Nat} (hc : c < 32) : (s.rollback c).col c = { s.col c with
    rollbk := (s.col c).rollbk + 1, rolling := true, ended := [], undo := [], snaps := ((s.rollback c).col c).snaps
    lb := (s.col c).lb.filter fun e => (s.col c).confirmed e.epoch } := by
  unfold State.rollback
  extract_lets k lost s1 s2 s3 s4 s5
  refine ((booked_discard_sweep s5 _).col c).trans ?_
  rw [col_setCol_same s4 hc]

/-! ### A provisional write and its pre-image -/

theorem mem_undoOne_bad (s : State) (e : Nat) (old : List Loc) (l2 : List (Nat × Bool)) (st : Store) :
    (s.undoOne (.bad e old l2)).mem st = s.mem st := by cases st <;> rfl

theorem mem_undoOne_mem (s : State) (e : Nat) (l : Loc) (old : List Byte) (locked : Bool) (st : Store) :
    (s.undoOne (.mem e l old locked)).mem st = if st = l.store then writeRange (s.mem st) l.addr old else s.mem st := by
  rw [State.undoOne, mem_withMem]
  split
  · rename_i h; rw [h]
  · rfl

/-- Undoing what a provisional write logs writes its pre-image. -/
theorem mem_undo_undoOf (s t : State) (c : Nat) (l : Loc) (bs : List Byte) (locked : Bool) (st : Store) :
    ((s.undoOf c l bs locked).foldl (fun t u => t.undoOne u) t).mem st =
      if st = l.store then writeRange (t.mem st) l.addr (s.bytesAt l bs.length) else t.mem st := by
  unfold State.undoOf
  extract_lets covered lost lost2
  split
  · exact mem_undoOne_mem t (s.col c).epoch l _ locked st
  · exact (mem_undoOne_mem _ (s.col c).epoch l _ locked st).trans (by rw [mem_undoOne_bad])

/-- A range written, and then written with what it held, holds it again. -/
theorem readByte_writeRange_back {m : Mem} (h : Memory.wf m = true) (a : Nat) (bs : List Byte) (k : Nat) :
    readByte (writeRange (writeRange m a bs) a (readRange m a bs.length)) k = readByte m k := by
  rw [readByte_writeRange (wf_writeRange h a bs), length_readRange, readByte_writeRange h]
  split
  · rename_i hin
    rw [getD_readRange _ _ _ _ (by omega), Nat.add_sub_cancel' hin.1]
  · rfl

/-- A column whose one provisional write is undone: memory as before the write. -/
theorem readByte_rollback_putProv {s v : State} {c : Nat} {l : Loc} {bs : List Byte} {locked : Bool} (hok : s.memOk = true)
    (hmem : (s.putProv c l bs locked).sameMem v) (hundo : (v.col c).undo = s.undoOf c l bs locked) (st : Store) (a : Nat) :
    readByte ((v.rollback c).mem st) a = readByte (s.mem st) a := by
  have hstart : (v.dropWrote c).mem st = (s.put l bs).mem st := by
    rw [sameMem_mem (sameMem_trans hmem (dropWrote_sameMem ..)), mem_putProv]
  rw [sameMem_mem (rollback_sameMem v c), hundo, mem_undo_undoOf, hstart, mem_put]
  split
  · rename_i hst
    subst hst
    exact readByte_writeRange_back (memOk_iff.1 hok _) ..
  · rfl

/-- A report of a column that is neither gated nor stopped is counted and rolls it back. -/
theorem strike_column {s : State} {c : Nat} (hc : c < 32) (hgated : (s.col c).gated = false) (hrolling : (s.col c).rolling = false) :
    s.strike (.column c) = (s.setCol c { s.col c with strk := (s.col c).strk + 1 }).rollback c := by
  simp [State.strike, hc, hgated, hrolling]

/-- Settles O53: the strike rolls the column back, which writes the one pre-image back (`readByte_rollback_putProv`). -/
theorem provisionalWritesAreUndone : Obligations.ProvisionalWritesAreUndone := by
  intro s t c l bs locked hok hc hrolling hgated hundo hexec
  have hcol := col_putProv s hc l bs locked
  rw [hundo, List.append_nil] at hcol
  have hstrike : t = (s.putProv c l bs locked).strike (.column c) := by cases hexec; rfl
  obtain ⟨v, hmem, hv, rfl⟩ : ∃ v, (s.putProv c l bs locked).sameMem v ∧
      v.col c = { s.col c with strk := (s.col c).strk + 1, undo := s.undoOf c l bs locked } ∧ t = v.rollback c :=
    ⟨_, setCol_sameMem .., (col_setCol_same _ hc _).trans (by rw [hcol]),
      hstrike.trans (strike_column hc (by rw [hcol]; exact hgated) (by rw [hcol]; exact hrolling))⟩
  have hafter := col_rollback v hc
  rw [hv] at hafter
  exact ⟨readByte_rollback_putProv hok hmem (by rw [hv]), by rw [hafter], by rw [hafter], by rw [hafter]⟩

end Sys2Proof.Machine
end

section
/-!
SUPPORT. The steps of a column, the egress gate and the strike reports (05 R111-R117, 20 R340-R346): for each step function, what it answers where the
step can be taken.
-/

namespace Sys2Proof.Machine

/-! ### Epochs and the landing buffer -/

section
variable {s : State} {c : Nat}

theorem epochEnd_of_due (hc : c < 32) (hrolling : (s.col c).rolling = false) (hdue : (s.col c).start + 512 ≤ s.now) :
    s.epochEnd c = some (s.setCol c { s.col c with
      ended := (s.col c).ended ++ [((s.col c).epoch, (s.col c).start + 512)], epoch := (s.col c).epoch + 1
      start := (s.col c).start + 512, snaps := (s.col c).snaps ++ [s.snap c ((s.col c).epoch + 1)] }) := by
  simp [State.epochEnd, hc, hrolling, hdue]

theorem confirmEpoch_of_due {e t : Nat} {rest : List (Nat × Nat)} (hended : (s.col c).ended = (e, t) :: rest)
    (hrolling : (s.col c).rolling = false) (hdue : t + 400 < s.now) :
    s.confirmEpoch c = some (((s.setCol c { s.col c with
      ended := rest, undo := (s.col c).undo.filter fun u => e < u.epoch
      snaps := (s.col c).snaps.filter fun n => e < n.epoch }).enterDecks c e).confirmRelease c e) := by
  simp [State.confirmEpoch, hended, hrolling, hdue]

theorem drain_of_confirmed {e : LbEntry} {rest : List LbEntry} (hlb : (s.col c).lb = e :: rest) (hconf : (s.col c).confirmed e.epoch = true) :
    s.drain c = (s.setCol c { s.col c with lb := rest }).drainOne c e := by
  simp [State.drain, hlb, hconf]

theorem drainOne_store {e : LbEntry} {l : Loc} {bs : List Byte} (hkind : e.kind = .store l bs) (hheld : s.drainHeld c l bs.length = false) :
    s.drainOne c e = some (s.put l bs).reap := by
  simp [State.drainOne, hkind, hheld]

section
variable {e : LbEntry} {op : Nat} {ty : Ty} {sc : Scope} {l : Loc} {v : DWord} {x : Writer} {m : RedMark} (hkind : e.kind = .red op ty sc l v x m)
include hkind

theorem drainOne_red_dram (hl : l.store = .dram) :
    s.drainOne c e = some { s with wq := s.wq ++ [{ op, ty, sc, loc := l, operand := v, x, mark := m }] } := by
  simp [State.drainOne, hkind, hl]

theorem drainOne_red_home (hl : l.store ≠ .dram) (hheld : s.redHeld c op ty m l = false) (hclean : s.clean l (tyBytes ty)) :
    s.drainOne c e = some (s.put l (leBytes (tyBytes ty) (atomOp op ty (leNat (s.bytesAt l (tyBytes ty))) v.toNat))).reap := by
  simp [State.drainOne, hkind, hl, hheld, meet_of_clean hclean]

end

theorem itemsEnter_of_live {ctx lnum : Nat} {d : Launch} (hl : s.launchOf ctx lnum = some d) (hlive : d.cancelled = false) (k : Nat)
    (items : List Item) : s.itemsEnter ctx lnum k items = s.modDeck ctx lnum k fun d => { d with
      reserved := d.reserved - items.length, items := d.items ++ items.map fun i => { i with at_ := s.now } } := by
  simp [State.itemsEnter, hl, hlive]

theorem drainOne_spawn {e : LbEntry} {ctx lnum k : Nat} {items : List Item} (hkind : e.kind = .spawn ctx lnum k items) :
    s.drainOne c e = some (s.itemsEnter ctx lnum k items) := by
  simp only [State.drainOne, hkind]

theorem drainOne_fork {e : LbEntry} {ctx parent : Nat} {desc : Desc} {macros : List (List InstrWord)} {targets : List (Option Desc)} {x : Bool}
    (hkind : e.kind = .fork ctx parent desc macros targets x) : s.drainOne c e = some (s.takeFork ctx parent { desc, macros, targets } x) := by
  simp only [State.drainOne, hkind]

theorem drainOne_cancel {e : LbEntry} {ctx object : Nat} (hkind : e.kind = .cancel ctx object) :
    s.drainOne c e = some (s.cancelAt ctx object) := by
  simp only [State.drainOne, hkind]

/-- A SPAWN that is alone in the landing buffer leaves it with its epoch. -/
theorem enterDecks_spawn {e ctx lnum k : Nat} {items : List Item} {x : LbEntry} (hlb : (s.col c).lb = [x]) (he : x.epoch ≤ e)
    (hkind : x.kind = .spawn ctx lnum k items) :
    s.enterDecks c e = (s.setCol c { s.col c with lb := [] }).itemsEnter ctx lnum k items := by
  simp [State.enterDecks, hlb, he, hkind]

theorem rollbackResume_of_rolling (h : (s.col c).rolling = true) :
    let t := s.setCol c { s.col c with rolling := false, epoch := (s.col c).epoch + 1, start := s.now }
    s.rollbackResume c = some (t.setCol c { t.col c with snaps := [t.snap c ((s.col c).epoch + 1)] }) := by
  simp [State.rollbackResume, h]

end

/-! ### The egress gate -/

section
variable {s : State} {n : Nat} {p : OutPkt}

/-- A packet that nothing before it in its stream holds leaves where its peer has failed or a port carries it. -/
theorem egress_of_cleared (hout : s.out[n]? = some p) (hclear : s.cleared p = true)
    (hfirst : ∀ q ∈ s.out.take n, (OutKind.stream q.kind == OutKind.stream p.kind) = true → s.cleared q = false)
    (hway : (∃ f ∈ s.failedPeers, OutKind.fep p.kind = some f) ∨ s.carried p.kind = true) :
    s.egress n = some (({ s with out := s.out.eraseIdx n } : State).depart p) := by
  have hbehind : ((s.out.take n).any fun q => OutKind.stream q.kind == OutKind.stream p.kind && s.cleared q) = false := by
    refine List.any_eq_false.2 fun q hq hboth => ?_
    obtain ⟨hstream, hq'⟩ := Bool.and_eq_true_iff.1 hboth
    rw [hfirst q hq hstream] at hq'
    exact Bool.false_ne_true hq'
  obtain ⟨f, hf, hfep⟩ | hcar := hway
  · have hlost : s.failedPeers.contains f = true := List.contains_iff_mem.2 hf
    simp only [State.egress, hout, hclear, hbehind, hfep, hlost, Bool.not_true, Bool.true_or, Bool.or_false, Bool.false_eq_true, if_false]
  · simp only [State.egress, hout, hclear, hbehind, hcar, Bool.not_true, Bool.or_true, Bool.or_false, Bool.false_eq_true, if_false]

theorem carried_event {c : Nat} {e : Event} (h : ∃ k ∈ s.ports.toList, k.link = .up) : s.carried (.event c e) = true := by
  obtain ⟨k, hk, hup⟩ := h
  exact List.any_eq_true.2 ⟨k, hk, by simp [hup]⟩

theorem carried_of_fep {k : OutKind} {f : Nat} (hf : k.fep = some f) (h : ∃ q ∈ s.portsTo f, q.link = .up) : s.carried k = true := by
  obtain ⟨q, hq, hup⟩ := h
  rw [State.carried, hf]
  exact List.any_eq_true.2 ⟨q, hq, by simp [hup]⟩

/-- An event that is sent for the first time takes the next number of its channel, and is kept. -/
theorem depart_event {c : Nat} {e : Event} (hkind : p.kind = .event c e) (hop : e.op ≠ 0x86) (heseq : e.eseq = 0) :
    s.depart p = s.setChan c { s.chan c with
      eseq := (s.chan c).eseq + 1
      log := ((s.chan c).log ++ [{ e with eseq := (s.chan c).eseq + 1 }]).drop ((s.chan c).log.length + 1 - 4096) } := by
  simp [State.depart, hkind, hop, heseq]

section
variable {f pctx pa : Nat} {bs : List Byte} {x : Writer} (hkind : p.kind = .peerWrite f pctx pa bs x)
include hkind

theorem depart_peerWrite (hf : f ∉ s.failedPeers) : s.depart p = { s with peerWrites := s.peerWrites ++ [p] } := by
  simp [State.depart, hkind, hf]

theorem depart_peerWrite_failed (hf : f ∈ s.failedPeers) :
    s.depart p = s.sendRecord none p.ctx p.lnum (mkRecord 4 false x.r x.core 15 x.iaddr 0 x.tid
      { cause := .lostReduction, addr := pa, lanes := (x.lane.map fun l => 1#64 <<< l).getD 0 }) := by
  simp [State.depart, hkind, hf, State.losePeerWrite, lostPeerWrite]

end

/-- An atomic's or an object's step that goes to a peer. -/
def OutKind.asksPeer (k : OutKind) (f : Nat) : Prop :=
  (∃ pctx pa op ty arg new x, k = .peerAtom f pctx pa op ty arg new x) ∨ ∃ a x, k = .peerObj a x ∧ a.fep = f

theorem fep_of_asksPeer {k : OutKind} {f : Nat} (h : k.asksPeer f) : k.fep = some f := by
  obtain ⟨pctx, pa, op, ty, arg, new, x, rfl⟩ | ⟨a, x, rfl, rfl⟩ := h <;> rfl

theorem depart_asksPeer {f : Nat} (h : p.kind.asksPeer f) (hf : f ∉ s.failedPeers) : s.depart p = { s with peerSteps := s.peerSteps ++ [p] } := by
  obtain ⟨pctx, pa, op, ty, arg, new, x, hk⟩ | ⟨a, x, hk, rfl⟩ := h <;> simp [State.depart, hk, hf]

end

/-! ### Strikes -/

/-- No point of an interval is nearer to a coordinate than the gap between them. -/
theorem gap_sq_le {x lo hi p : Nat} (hlo : lo ≤ p) (hhi : p ≤ hi) : (gap x lo hi : Int) ^ 2 ≤ ((p : Int) - x) ^ 2 := by
  rw [← Int.natAbs_le_iff_sq_le, gap]
  split <;> omega

/-- Some point of an interval is as near to a coordinate as the gap between them. -/
theorem exists_gap_sq (x : Nat) {lo hi : Nat} (h : lo ≤ hi) : ∃ p, lo ≤ p ∧ p ≤ hi ∧ ((p : Int) - x) ^ 2 = (gap x lo hi : Int) ^ 2 := by
  refine ⟨max lo (min x hi), by omega, by omega, ?_⟩
  rw [← Int.natAbs_eq_iff_sq_eq, gap]
  split <;> omega

/-- `circleMeets` is what it says: some point of the rectangle, its boundary included, lies in the circle (20 R340). -/
theorem circleMeets_iff {x y r x0 x1 y0 y1 : Nat} (hx : x0 ≤ x1) (hy : y0 ≤ y1) : circleMeets x y r x0 x1 y0 y1 = true ↔
    ∃ px py, x0 ≤ px ∧ px ≤ x1 ∧ y0 ≤ py ∧ py ≤ y1 ∧ ((px : Int) - x) ^ 2 + ((py : Int) - y) ^ 2 ≤ (r : Int) ^ 2 := by
  have hcast : circleMeets x y r x0 x1 y0 y1 = true ↔ (gap x x0 x1 : Int) ^ 2 + (gap y y0 y1 : Int) ^ 2 ≤ (r : Int) ^ 2 := by
    rw [circleMeets, decide_eq_true_eq]; norm_cast
  rw [hcast]
  constructor
  · intro h
    obtain ⟨px, hx0, hx1, hpx⟩ := exists_gap_sq x hx
    obtain ⟨py, hy0, hy1, hpy⟩ := exists_gap_sq y hy
    exact ⟨px, py, hx0, hx1, hy0, hy1, by rw [hpx, hpy]; exact h⟩
  · rintro ⟨px, py, hx0, hx1, hy0, hy1, h⟩
    exact (add_le_add (gap_sq_le hx0 hx1) (gap_sq_le hy0 hy1)).trans h

theorem column_mem_strikePlaces {tower k x y r : Nat} {die : Die} (hk : k < 16) (hdie : die ≠ .dram) :
    (.column (16 * tower + k)) ∈ strikePlaces tower die x y r ↔ meetsCell x y r k = true := by
  have hplaces : strikePlaces tower die x y r = (((List.range 16).filter (meetsCell x y r)).map fun k => .column (16 * tower + k)) ++
      if die == .tierL && meetsSpine x y r then [.spine tower] else [] := by
    cases die with
    | dram => exact absurd rfl hdie
    | _ => rfl
  have hspine : (.column (16 * tower + k) : StrikeSite) ∉ (if die == .tierL && meetsSpine x y r then [.spine tower] else []) := by
    split <;> simp
  rw [hplaces, List.mem_append, or_iff_left hspine]
  simp [hk]

theorem strike_circle {tower x y r : Nat} {die : Die} (hdie : die ≠ .dram) (s : State) (rows : List Nat) :
    s.strike (.circle tower die x y r rows) =
      { s with moves := (strikePlaces (tower % 2) die x y r).map (fun p => .event (.strikeReport p)) ++ s.moves } := by
  cases die with
  | dram => exact absurd rfl hdie
  | _ => rfl

/-- A report of a column that is gated or stopped is only counted. -/
theorem strike_column_counted {s : State} {c : Nat} (h : (s.col c).gated = true ∨ (s.col c).rolling = true) :
    s.strike (.column c) = s.setCol c { s.col c with strk := (s.col c).strk + 1 } := by
  obtain h | h := h <;> simp [State.strike, h]

theorem l2Refetch_of_listed {s : State} {a : Nat} (h : (a / 32 * 32, false) ∈ s.l2bad) : s.l2Refetch ⟨.dram, a⟩ =
    some { s.count (locTower ⟨.dram, a⟩) 4 1 with l2bad := s.l2bad.erase (a / 32 * 32, false) } := by
  simp [State.l2Refetch, h]

theorem scrubDone_of_lt {s : State} {n : Nat} (h : n < s.scrubs.length) : s.scrubDone n = some { s with scrubs := s.scrubs.eraseIdx n } :=
  if_pos h

/-- Settles O29: each step function's answer where its step can be taken, by the lemmas above. -/
theorem columnStepsComplete : Obligations.ColumnStepsComplete := by
  refine ⟨?_, ?_, ?_, ?_, ?_, ?_, ?_, ?_, ?_, ?_, ?_, ?_⟩
  · intro s c hc hrolling hdue
    exact next_of_some rfl (epochEnd_of_due hc hrolling hdue)
  · intro s c e t rest hended hrolling hdue
    exact next_of_some rfl (confirmEpoch_of_due hended hrolling hdue)
  · intro s c e rest hlb hconf t
    have hdrain {u : State} (h : t.drainOne c e = some u) : exec (.landingBufferDrain c) s = .next u :=
      next_of_some rfl ((drain_of_confirmed hlb hconf).trans h)
    refine ⟨?_, ?_, ?_, ?_, ?_, ?_⟩
    · intro l bs hkind hheld
      exact hdrain (drainOne_store hkind hheld)
    · intro op ty sc l v x m hkind hl
      exact hdrain (drainOne_red_dram hkind hl)
    · intro op ty sc l v x m hkind hl hheld hbad hinj
      exact hdrain (drainOne_red_home hkind hl hheld ⟨hbad, hinj⟩)
    · intro ctx parent desc macros targets x hkind
      exact hdrain (drainOne_fork hkind)
    · intro ctx object hkind
      exact hdrain (drainOne_cancel hkind)
    · intro ctx lnum k items l hkind hl hlive
      exact hdrain ((drainOne_spawn hkind).trans (congrArg some (itemsEnter_of_live hl hlive k items)))
  · intro s c e ctx lnum k items x l hlb he hkind hl hlive
    exact (enterDecks_spawn hlb he hkind).trans (itemsEnter_of_live (s := s.setCol c { s.col c with lb := [] }) hl hlive k items)
  · intro s n p hout hclear hfirst t
    have hleave (hway : (∃ f ∈ s.failedPeers, OutKind.fep p.kind = some f) ∨ s.carried p.kind = true) {u : State} (h : t.depart p = u) :
        exec (.egressRelease n) s = .next u :=
      next_of_some rfl ((egress_of_cleared hout hclear hfirst hway).trans (congrArg some h))
    refine ⟨?_, ?_, ?_⟩
    · intro c e hkind hport hop heseq
      exact hleave (.inr (hkind ▸ carried_event hport)) (depart_event hkind hop heseq)
    · intro f pctx pa bs x hkind
      have hfep : OutKind.fep p.kind = some f := by rw [hkind]; rfl
      exact ⟨fun hport hf => hleave (.inr (carried_of_fep hfep hport)) (depart_peerWrite hkind hf),
        fun hf => hleave (.inl ⟨f, hf, hfep⟩) (depart_peerWrite_failed hkind hf)⟩
    · intro f hport hf hasks
      exact hleave (.inr (carried_of_fep (fep_of_asksPeer hasks) hport)) (depart_asksPeer hasks hf)
  · intro s tower x y r die rows
    exact ⟨fun hdie => congrArg _ (strike_circle hdie s rows), fun hdie => by subst hdie; rfl⟩
  · intro tower k x y r die _ hk hdie
    exact (column_mem_strikePlaces hk hdie).trans (circleMeets_iff (by omega) (by omega))
  · intro s c hc t
    exact ⟨fun h => congrArg _ (strike_column_counted h), fun hgated hrolling => congrArg _ (strike_column hc hgated hrolling)⟩
  · intro s tower row htower
    have hmod : tower % 2 = tower := Nat.mod_eq_of_lt htower
    exact ⟨congrArg Host.Outcome.next (by rw [State.strike, hmod]), congrArg Host.Outcome.next (by rw [State.strike, hmod])⟩
  · intro s c hrolling t
    exact next_of_some rfl (rollbackResume_of_rolling hrolling)
  · intro s n hn
    exact next_of_some rfl (scrubDone_of_lt hn)
  · intro s a ha
    exact next_of_some rfl (l2Refetch_of_listed ha)

end Sys2Proof.Machine
end

section
/-!
SUPPORT. Peers and links (05 R102, R118, R119, 21 R359, R362-R365): what admits an access of a peer, what its step makes of the bytes here, how writes to
peers end, and the states of a port.
-/

namespace Sys2Proof.Machine

/-! ### Ranges within a range -/

/-- The code units of a part of a range are among the range's. -/
theorem sectors_of_part {st : Store} {a b m n : Nat} (hlo : a ≤ b) (hhi : b + m ≤ a + n) {u : Loc} (h : u ∈ sectors ⟨st, b⟩ m) :
    u ∈ sectors ⟨st, a⟩ n := by
  have hz : 0 < sectorSize st := by unfold sectorSize; split <;> decide
  unfold sectors at h ⊢
  dsimp only at h ⊢
  split at h
  · cases h
  · rename_i hm
    rw [if_neg (by omega)]
    obtain ⟨i, hi, rfl⟩ := List.mem_map.1 h
    have hfirst : a / sectorSize st ≤ b / sectorSize st := Nat.div_le_div_right hlo
    have hlast : (b + m - 1) / sectorSize st ≤ (a + n - 1) / sectorSize st := Nat.div_le_div_right (by omega)
    have hle : b / sectorSize st ≤ (b + m - 1) / sectorSize st := Nat.div_le_div_right (by omega)
    rw [List.mem_range] at hi
    exact List.mem_map.2 ⟨b / sectorSize st - a / sectorSize st + i, List.mem_range.2 (by omega), by congr 2; omega⟩

/-- A part of a range that is good is good. -/
theorem clean_of_part {s : State} {st : Store} {a b m n : Nat} (hlo : a ≤ b) (hhi : b + m ≤ a + n) (h : s.clean ⟨st, a⟩ n) :
    s.clean ⟨st, b⟩ m := by
  obtain ⟨hbad, hinj⟩ := h
  constructor
  · rw [State.badAll, List.filter_eq_nil_iff] at hbad ⊢
    exact fun u hu => hbad u (sectors_of_part hlo hhi hu)
  · rw [Bool.eq_false_iff] at hinj ⊢
    intro hhit
    refine hinj ?_
    simp only [State.injHits, List.any_cons, List.any_nil, Bool.or_false, Bool.and_eq_true, List.contains_iff_mem] at hhit ⊢
    exact hhit.imp_right (sectors_of_part hlo hhi)

theorem clean_of_readable {s : State} {me : Option Nat} {l : Loc} {n : Nat} (h : s.readable me l n) : s.clean l n := h.2

/-! ### Admission -/

/-- Entry i of a peer table at an address is valid and names an endpoint (01 R15). -/
def State.peerEntry (s : State) (peert fep i : Nat) : Bool :=
  (leNat (s.bytesAt ⟨.dram, peert + 16 * i⟩ 16)).testBit 63 && bits (leNat (s.bytesAt ⟨.dram, peert + 16 * i⟩ 16)) 31 0 == fep

/-- A table without uncorrectable data is searched for an entry, and nothing else comes of it. -/
theorem tableHas_of_clean {s : State} {peert fep : Nat} {is : List Nat} (h : ∀ i ∈ is, s.clean ⟨.dram, peert + 16 * i⟩ 16) :
    s.tableHas peert fep is = (is.any (s.peerEntry peert fep), s) := by
  induction is with
  | nil => rfl
  | cons i is ih =>
    have hrest := ih fun j hj => h j (List.mem_cons_of_mem _ hj)
    simp only [State.tableHas, meet_of_clean (h i (List.mem_cons_self ..)), hrest, List.any_cons]
    show (if s.peerEntry peert fep i then (true, s) else _) = _
    cases s.peerEntry peert fep i <;> rfl

theorem admitsFrom_of_readable {s : State} {ctx fep : Nat} (hctx : ctx < 64) (hvalid : (s.ctx ctx).valid = true) (hn : (s.ctx ctx).peern ≠ 0)
    (hread : s.readable none ⟨.dram, (s.ctx ctx).peert⟩ (16 * ((s.ctx ctx).peern + 1))) :
    s.admitsFrom ctx fep = some ((List.range ((s.ctx ctx).peern + 1)).any (s.peerEntry (s.ctx ctx).peert fep), s) := by
  have hheld := hread.1
  have hclean (i : Nat) (hi : i ∈ List.range ((s.ctx ctx).peern + 1)) : s.clean ⟨.dram, (s.ctx ctx).peert + 16 * i⟩ 16 := by
    rw [List.mem_range] at hi
    exact clean_of_part (by omega) (by omega) (clean_of_readable hread)
  simp [State.admitsFrom, hctx, hvalid, hn, hheld, tableHas_of_clean hclean]

/-! ### An access of a peer -/

section
variable {s u : State} {a : PeerAccess}

theorem peerAccess_refused {adm : Bool} (hadm : s.admitsFrom a.ctx a.fep = some (adm, u)) (h : adm = false ∨ dramEnd ≤ a.pa) :
    s.peerAccess a = some (u.reply a false []) := by
  have hout : (!adm || (peerSpans a).any fun l => decide (l.1.addr + max 1 l.2 > dramEnd)) = true := by
    obtain rfl | hpa := h
    · rfl
    · refine Bool.or_eq_true_iff.2 (.inr (List.any_eq_true.2 ⟨_, List.mem_cons_self .., decide_eq_true ?_⟩))
      dsimp only
      omega
  simp only [State.peerAccess, hadm, hout, if_true]

theorem peerAccess_ask {adm : Bool} (hadm : s.admitsFrom a.ctx a.fep = some (adm, u)) (hop : a.op = .ask) :
    s.peerAccess a = some (u.reply a (adm && decide (a.pa + max 1 a.len ≤ dramEnd)) []) := by
  have hspans : peerSpans a = [(⟨.dram, a.pa⟩, a.len)] := by simp only [peerSpans, peerWidth, hop]
  by_cases hfit : adm = true ∧ a.pa + max 1 a.len ≤ dramEnd
  · obtain ⟨rfl, hle⟩ := hfit
    simp [State.peerAccess, hadm, hspans, hop, hle]
  · have hno : (adm && decide (a.pa + max 1 a.len ≤ dramEnd)) = false := by simpa [Bool.and_eq_false_iff] using hfit
    have hout : (!adm || decide (a.pa + max 1 a.len > dramEnd)) = true := by
      cases adm with
      | false => rfl
      | true => simpa using hfit
    simp only [State.peerAccess, hadm, hspans, List.any_cons, List.any_nil, Bool.or_false, hout, if_true, hno]

theorem peerAccess_write {bs : List Byte} (hadm : s.admitsFrom a.ctx a.fep = some (true, u)) (hop : a.op = .write bs)
    (hfit : a.pa + max 1 bs.length ≤ dramEnd) (hheld : u.heldOff none ⟨.dram, a.pa⟩ bs.length = false) :
    s.peerAccess a = some ((u.put ⟨.dram, a.pa⟩ bs).reply a true []) := by
  have hspans : peerSpans a = [(⟨.dram, a.pa⟩, bs.length)] := by simp only [peerSpans, peerWidth, hop]
  simp [State.peerAccess, hadm, hspans, hop, hfit, hheld, State.putEach]

/-- The bytes that an access's ranges hold, one range after the other. -/
def State.bytesOn (u : State) (ls : List (Loc × Nat)) : List Byte := ls.flatMap fun l => u.bytesAt l.1 l.2

theorem meetEach_of_clean {ls : List (Loc × Nat)} (h : ∀ l ∈ ls, u.clean l.1 l.2) : u.meetEach ls = (false, u) :=
  List.foldlRecOn (motive := (· = (false, u))) _ _ rfl fun x hx l hl => by subst hx; simp [meet_of_clean (h l hl)]

/-- A step that reads: admitted and in DRAM, with nothing in its way, it answers the bytes as they stood and stores what it makes of them. -/
theorem peerAccess_reads (hadm : s.admitsFrom a.ctx a.fep = some (true, u)) (hask : a.op ≠ .ask) (hwrite : ∀ bs, a.op ≠ .write bs)
    (hfit : ∀ l ∈ peerSpans a, l.1.addr + max 1 l.2 ≤ dramEnd) (hread : ∀ l ∈ peerSpans a, u.readable none l.1 l.2) :
    s.peerAccess a = some ((((peerNew a.op (u.bytesOn (peerSpans a))).map (u.putEach (peerSpans a))).getD u).reply a true
      (u.bytesOn (peerSpans a))) := by
  have hin : ((peerSpans a).any fun l => decide (l.1.addr + max 1 l.2 > dramEnd)) = false :=
    List.any_eq_false.2 fun l hl => by simpa using hfit l hl
  have hheld : ((peerSpans a).any fun l => u.heldOff none l.1 l.2) = false :=
    List.any_eq_false.2 fun l hl => by rw [(hread l hl).1]; exact Bool.false_ne_true
  have hmeet : u.meetEach (peerSpans a) = (false, u) := meetEach_of_clean fun l hl => clean_of_readable (hread l hl)
  simp only [State.peerAccess, hadm, hin, Bool.not_true, Bool.or_false, Bool.false_eq_true, if_false]
  cases hop : a.op with
  | ask => exact absurd hop hask
  | write bs => exact absurd hop (hwrite bs)
  | _ =>
    simp only [hheld, hmeet, State.bytesOn, Bool.false_eq_true, if_false]
    generalize peerNew _ _ = new
    cases new <;> rfl

/-- A step on one range that stores. -/
theorem peerAccess_stores {op : PeerOp} {n : Nat} {bs : List Byte} (hadm : s.admitsFrom a.ctx a.fep = some (true, u)) (hop : a.op = op)
    (hone : peerSpans { a with op } = [(⟨.dram, a.pa⟩, n)]) (hask : op ≠ .ask) (hwrite : ∀ bs, op ≠ .write bs) (hfit : a.pa + max 1 n ≤ dramEnd)
    (hread : u.readable none ⟨.dram, a.pa⟩ n) (hnew : peerNew op (u.bytesAt ⟨.dram, a.pa⟩ n) = some bs) (hlen : bs.length = n) :
    s.peerAccess a = some ((u.put ⟨.dram, a.pa⟩ bs).reply a true (u.bytesAt ⟨.dram, a.pa⟩ n)) := by
  subst hop
  have hspans : peerSpans a = [(⟨.dram, a.pa⟩, n)] := hone
  have hbytes : u.bytesOn (peerSpans a) = u.bytesAt ⟨.dram, a.pa⟩ n := by rw [hspans]; exact List.append_nil _
  rw [peerAccess_reads hadm hask hwrite (by simpa [hspans] using hfit) (by simpa [hspans] using hread), hbytes, hnew, hspans]
  simp [State.putEach, List.take_of_length_le hlen.le]

theorem peerAccess_read (hadm : s.admitsFrom a.ctx a.fep = some (true, u)) (hop : a.op = .read) (hfit : a.pa + max 1 a.len ≤ dramEnd)
    (hread : u.readable none ⟨.dram, a.pa⟩ a.len) : s.peerAccess a = some (u.reply a true (u.bytesAt ⟨.dram, a.pa⟩ a.len)) := by
  have hspans : peerSpans a = [(⟨.dram, a.pa⟩, a.len)] := by simp only [peerSpans, peerWidth, hop]
  have hbytes : u.bytesOn (peerSpans a) = u.bytesAt ⟨.dram, a.pa⟩ a.len := by rw [hspans]; exact List.append_nil _
  have hstep := peerAccess_reads hadm (by rw [hop]; nofun) (by rw [hop]; nofun) (by simpa [hspans] using hfit) (by simpa [hspans] using hread)
  rw [hstep, hbytes, hop]
  rfl

/-- RPUT's first step at a peer: the ring's pointer, and the count of the slot's barrier. -/
theorem peerAccess_fill {seen bar r b : Nat} (hadm : s.admitsFrom a.ctx a.fep = some (true, u)) (hop : a.op = .fill seen (some bar))
    (hfit : a.pa + 32 ≤ dramEnd) (hfit' : bar + 16 ≤ dramEnd) (hread : u.readable none ⟨.dram, a.pa⟩ 32)
    (hread' : u.readable none ⟨.dram, bar⟩ 16) (hring : ringFill seen (leNat (u.bytesAt ⟨.dram, a.pa⟩ 32)) = some r)
    (hbar : barAdd (leNat (u.bytesAt ⟨.dram, bar⟩ 16)) (ringSize (leNat (u.bytesAt ⟨.dram, a.pa⟩ 32))) = some b) :
    s.peerAccess a = some (((u.put ⟨.dram, a.pa⟩ (leBytes 32 r)).put ⟨.dram, bar⟩ (leBytes 16 b)).reply a true
      (u.bytesAt ⟨.dram, a.pa⟩ 32 ++ u.bytesAt ⟨.dram, bar⟩ 16)) := by
  have hspans : peerSpans a = [(⟨.dram, a.pa⟩, 32), (⟨.dram, bar⟩, 16)] := by simp only [peerSpans, peerWidth, hop]
  have hbytes : u.bytesOn (peerSpans a) = u.bytesAt ⟨.dram, a.pa⟩ 32 ++ u.bytesAt ⟨.dram, bar⟩ 16 := by
    rw [hspans]; exact congrArg _ (List.append_nil _)
  have hlen : (u.bytesAt ⟨.dram, a.pa⟩ 32).length = 32 := length_readRange ..
  have hnew : peerNew a.op (u.bytesOn (peerSpans a)) = some (leBytes 32 r ++ leBytes 16 b) := by
    simp only [hop, hbytes, peerNew, List.take_left' hlen, List.drop_left' hlen, hring, hbar, Option.bind_some, Option.map_some]
  rw [peerAccess_reads hadm (by rw [hop]; nofun) (by rw [hop]; nofun) (by simpa [hspans] using ⟨hfit, hfit'⟩)
    (by simpa [hspans] using ⟨hread, hread'⟩), hnew, hbytes, hspans]
  simp only [Option.map_some, Option.getD_some, State.putEach, List.take_left' (length_leBytes ..), List.drop_left' (length_leBytes ..),
    List.take_of_length_le (length_leBytes ..).le]

end

/-! ### What the step of a peer makes of an object (05 R103, R106, R107) -/

section
variable {old : List Byte} {n : Nat}

theorem peerNew_atomic {op v : Nat} {ty : Ty} {arg new : DWord} (h : atomNew op ty (leNat old) arg new = some v) :
    peerNew (.atomic op ty arg new) old = some (leBytes (tyBytes ty) v) := by
  simp only [peerNew, h, Option.map_some]

theorem peerNew_arrive {v : Nat} (hscope : barScope (leNat old) = 6) (hn : n < 2 ^ 31) (h : barArrive (leNat old) n = some v) :
    peerNew (.arrive n) old = some (leBytes 16 v) := by
  simp [peerNew, hscope, h]; omega

theorem peerNew_land {v : Nat} (hscope : barScope (leNat old) = 6) (h : barLand (leNat old) n = some v) :
    peerNew (.land n) old = some (leBytes 16 v) := by
  simp [peerNew, hscope, h]

theorem peerNew_release (hn : ringN (leNat old) ≠ 0) (hne : ringR (leNat old) ≠ ringW (leNat old)) : peerNew .release old =
    some (leBytes 32 (leNat old % 2 ^ 224 + (ringR (leNat old) + 1) % ringQ (leNat old) * 2 ^ 224)) := by
  simp [peerNew, hn, hne]

theorem peerNew_semaphore {up : Bool} (hscope : semScope (leNat old) = 6) (hn : n < 2 ^ 31)
    (hup : up = true → semCount (leNat old) + n < 2 ^ 31) (hdown : up = false → n ≤ semCount (leNat old)) : peerNew (.semaphore up n) old =
      some (leBytes 8 (leNat old / 2 ^ 32 * 2 ^ 32 + if up then semCount (leNat old) + n else semCount (leNat old) - n)) := by
  cases up with
  | true => have hfits := hup rfl; simp [peerNew, hscope]; omega
  | false => have henough := hdown rfl; simp [peerNew, hscope, henough]; omega

theorem peerNew_add (h : bytesFit (barBytes (leNat old) + n) = true) : peerNew (.add n) old =
    some (leBytes 16 (barWith (leNat old) (barPhase (leNat old)) (barLeft (leNat old)) (barBytes (leNat old) + n))) := by
  simp only [peerNew, barAdd_eq_some h, Option.map_some]

end

/-! ### Refusals and acknowledgements -/

section
variable {s : State} {n : Nat} {p : OutPkt}

theorem refusal_of_write {rec : BitVec 512} (hp : s.peerWrites[n]? = some p) (hrec : lostPeerWrite p.kind = some rec) :
    s.refusal n = some (({ s with peerWrites := s.peerWrites.eraseIdx n } : State).sendRecord none p.ctx p.lnum rec) := by
  simp only [State.refusal, hp, State.losePeerWrite, hrec]

/-- Beyond the writes, a refusal is poison for a read in flight. -/
theorem refusal_of_read {x : PeerRead} (hn : s.peerWrites.length ≤ n) (hx : s.peerReads[n - s.peerWrites.length]? = some x) :
    s.refusal n = s.poison x := by
  simp only [State.refusal, List.getElem?_eq_none hn, hx]

/-- Poison answers a question of a result in flight. -/
theorem peerReply_poison {r : GRef} {w : Workgroup} {g : Group} {k lane part fep pctx pa len i : Nat} (hgroup : s.group? r = some (w, g))
    (hask : g.pendAsks[k]? = some (i, lane, part, .there fep pctx pa len))
    (hfree : fep ∈ s.failedPeers ∨ s.peerHeld (columnOf w.core) fep pa len = false) :
    s.peerReply r ((s.questions r w g).length + k) none = some (s.modGroup r fun g => { g with pend := g.pend.zipIdx.map fun (p, j) =>
      if j == i then { p with lanes := p.lanes.map fun v => if v.1 == lane then (v.1, v.2.answered part none) else v } else p }) := by
  have hheld : s.partHeld (columnOf w.core) (.there fep 0 pa len) = false := by
    obtain hf | hh := hfree
    · simp [State.partHeld, hf]
    · simp [State.partHeld, hh]
  have hbeyond : ¬(s.questions r w g).length + k < (s.questions r w g).length := by omega
  simp only [State.peerReply, hgroup, if_neg hbeyond, Nat.add_sub_cancel_left, hask, hheld, Bool.or_false, Bool.false_eq_true, if_false]

theorem writeAck_of_write {fep pctx pa : Nat} {bs : List Byte} {x : Writer} (hp : s.peerWrites[n]? = some p)
    (hkind : p.kind = .peerWrite fep pctx pa bs x) : s.writeAck n = some { s with
      peerWrites := s.peerWrites.eraseIdx n
      peerCopies := s.peerCopies.filter fun c => !(c.fep == fep && pa / 256 ≤ c.line && c.line ≤ (pa + bs.length - 1) / 256) } := by
  simp only [State.writeAck, hp, hkind, State.dropFor, OutKind.peerRanges, List.foldl_cons, List.foldl_nil, State.dropPeer]

/-- Beyond the writes, an acknowledgement ends an atomic's or an object's step that nobody waits for. -/
theorem writeAck_of_step (hp : s.peerSteps[n]? = some p) (hwait : s.awaitsAnswer p.kind = false) : s.writeAck (s.peerWrites.length + n) =
    some (({ s with peerSteps := s.peerSteps.eraseIdx n } : State).dropFor p.kind) := by
  simp only [State.writeAck, List.getElem?_eq_none (Nat.le_add_right ..), Nat.add_sub_cancel_left, hp, hwait, Bool.false_eq_true, if_false]

theorem copyExpiry_of_due {c : PeerCopy} (hc : s.peerCopies[n]? = some c) (hdue : c.at_ + 8000 ≤ s.now) :
    s.copyExpiry n = some { s with peerCopies := s.peerCopies.eraseIdx n } := by
  simp only [State.copyExpiry, hc, if_pos hdue]

theorem peerFail_of_lost {fep : Nat} (hf : fep ∉ s.failedPeers) (hlost : ∀ q ∈ s.portsTo fep, q.lost s.now = true) :
    s.peerFail fep = some ((s.peerWrites.filter fun p => OutKind.fep p.kind == some fep).foldl (fun t p => t.losePeerWrite p)
      { s with failedPeers := s.failedPeers ++ [fep]
               peerWrites := s.peerWrites.filter fun p => !(OutKind.fep p.kind == some fep)
               peerSteps := s.peerSteps.filter fun p => !(OutKind.fep p.kind == some fep) }) := by
  have hcontains : s.failedPeers.contains fep = false := by simpa using hf
  have hall : ((s.portsTo fep).all fun q => q.lost s.now) = true := List.all_eq_true.2 hlost
  simp only [State.peerFail, hcontains, hall, Bool.not_true, Bool.or_false, Bool.false_eq_true, if_false]

/-! ### Ports -/

theorem laneShed_narrower (hn : n < 16) (hup : (s.port n).link = .up) (hlanes : 2 < (s.port n).lanes) :
    s.laneShed n ((s.port n).lanes / 2) = some (s.setPort n { s.port n with lanes := (s.port n).lanes / 2, link := .retraining }) := by
  simp [State.laneShed, hn, hup, hlanes]

theorem laneShed_last (hn : n < 16) (hup : (s.port n).link = .up) (hlanes : (s.port n).lanes = 2) :
    s.laneShed n 0 = some (s.setPort n { s.port n with link := .recovery s.now }) := by
  simp [State.laneShed, hn, hup, hlanes]

theorem upshift_of_quiet (hn : n < 16) (hup : (s.port n).link = .up) (hmode : (s.port n).mode = 0) (hlanes : (s.port n).lanes < 8)
    (hquiet : (s.port n).quietSince + 240000000000 ≤ s.now) (holds : Bool) : s.upshift n holds = some (s.setPort n { s.port n with
      lanes := if holds then 2 * (s.port n).lanes else (s.port n).lanes, link := .retraining }) := by
  simp [State.upshift, hn, hup, hmode, hlanes, hquiet]

theorem retrained_of_retraining (h : (s.port n).link = .retraining) :
    s.retrained n = some (s.setPort n { s.port n with link := .up, quietSince := s.now }) := by
  simp [State.retrained, h]

section
variable {t : Nat} (h : (s.port n).link = .recovery t)
include h

theorem recovered_in_time (ht : s.now < t + 2000000000) : s.recovered n = some { s.setPort n { s.port n with
    link := .up, lanes := if (s.port n).mode = 0 then 8 else (s.port n).mode, quietSince := s.now } with
      failedPeers := s.failedPeers.filter fun f => !(s.port n).reaches f } := by
  have hlost : (s.port n).lost s.now = false := by simpa [Port.lost, h] using ht
  have hfull : (s.port n).full = if (s.port n).mode = 0 then 8 else (s.port n).mode := by simp [Port.full]
  simp only [State.recovered, hlost, h, hfull, Bool.false_eq_true, if_false]

theorem abandoned_of_lost (ht : t + 2000000000 ≤ s.now) : s.abandoned n = some (s.setPort n { s.port n with link := .down }) := by
  simp [State.abandoned, h, ht]

end

end

/-- Settles O33: each step function's answer where its step can be taken; the steps of a peer on bytes here through `peerAccess_stores`. -/
theorem peerAndLinkStepsComplete : Obligations.PeerAndLinkStepsComplete := by
  refine ⟨?_, ?_, ?_, ?_, ?_, ?_, ?_, ?_, ?_, ?_, ?_, ?_, ?_⟩
  · intro s u a adm hadm l done
    have hexec {t : State} (h : s.peerAccess a = some t) : exec (.peerAccess a) s = .next t := next_of_some rfl h
    refine ⟨?_, ?_, ?_, ?_, ?_, ?_, ?_, ?_, ?_, ?_⟩
    · intro hop
      exact hexec (peerAccess_ask hadm hop)
    · rintro bs hop rfl hfit hheld
      exact hexec (peerAccess_write hadm hop hfit hheld)
    · rintro hop rfl hfit hread
      exact hexec (peerAccess_read hadm hop hfit hread)
    · rintro op ty arg new v hop rfl hfit hread hnew
      have hpos : 1 ≤ tyBytes ty := by cases ty <;> decide
      exact hexec (peerAccess_stores hadm hop rfl nofun nofun (by rwa [Nat.max_eq_right hpos]) hread (peerNew_atomic hnew) (length_leBytes ..))
    · rintro n v' rfl hfit hread hscope (⟨hop, hn, hbar⟩ | ⟨hop, hbar⟩)
      · exact hexec (peerAccess_stores hadm hop rfl nofun nofun hfit hread (peerNew_arrive hscope hn hbar) (length_leBytes ..))
      · exact hexec (peerAccess_stores hadm hop rfl nofun nofun hfit hread (peerNew_land hscope hbar) (length_leBytes ..))
    · rintro v hop rfl hfit hread hn hne
      exact hexec (peerAccess_stores hadm hop rfl nofun nofun hfit hread (peerNew_release hn hne) (length_leBytes ..))
    · rintro up n v hop rfl hfit hread hscope hn hup hdown
      exact hexec (peerAccess_stores hadm hop rfl nofun nofun hfit hread (peerNew_semaphore hscope hn hup hdown) (length_leBytes ..))
    · rintro n v hop rfl hfit hread hbytes
      exact hexec (peerAccess_stores hadm hop rfl nofun nofun hfit hread (peerNew_add hbytes) (length_leBytes ..))
    · rintro seen bar v b hop rfl hfit hfit' hread hread' hsame hn hroom hbytes
      exact hexec (peerAccess_fill hadm hop hfit hfit' hread hread' (ringFill_eq_some hsame hn hroom) (barAdd_eq_some hbytes))
    · intro h
      exact hexec (peerAccess_refused hadm h)
  · intro s ctx fep hctx hvalid hn hread
    rw [admitsFrom_of_readable hctx hvalid hn hread]
    congr 2
    rw [Bool.eq_iff_iff, List.any_eq_true, decide_eq_true_eq]
    simp only [List.mem_range, Nat.lt_succ_iff, State.peerEntry, Bool.and_eq_true, beq_iff_eq]
  · intro s n p rec hp hrec
    exact next_of_some rfl (refusal_of_write hp hrec)
  · intro s n r w g k q a t hn hst
    refine ⟨fun hx hreply => ?_, fun hx _ _ hperform => ?_⟩
    · exact next_of_some rfl ((refusal_of_read hn hx).trans ((acting_of_stands hst _).trans hreply))
    · exact next_of_some rfl ((refusal_of_read hn hx).trans ((acting_of_stands hst _).trans hperform))
  · intro s r w g k n lane part fep pctx pa len hgroup hask hfree
    exact peerReply_poison hgroup hask hfree
  · intro s n p fep pctx pa bs x hp hkind
    exact next_of_some rfl (writeAck_of_write hp hkind)
  · intro s n p hp hwait
    exact next_of_some rfl (writeAck_of_step hp hwait)
  · intro s n c hc hdue
    exact next_of_some rfl (copyExpiry_of_due hc hdue)
  · intro s fep hf hlost
    exact next_of_some rfl (peerFail_of_lost hf hlost)
  · intro s n hn hup
    exact ⟨fun hlanes => next_of_some rfl (laneShed_narrower hn hup hlanes), fun hlanes => next_of_some rfl (laneShed_last hn hup hlanes),
      fun hmode hlanes hquiet holds => next_of_some rfl (upshift_of_quiet hn hup hmode hlanes hquiet holds)⟩
  · intro s n h
    exact next_of_some rfl (retrained_of_retraining h)
  · intro s n t h
    exact ⟨fun ht => next_of_some rfl (recovered_in_time h ht), fun ht => next_of_some rfl (abandoned_of_lost h ht)⟩
  · intro s c hc
    exact next_of_some rfl (if_pos hc)

end Sys2Proof.Machine
end

section
/-!
SUPPORT. Steps that come once their time has come (05 R111, R119, 12 R279, 20 R341): none of them lets time pass or takes a move of the schedule.
-/

namespace Sys2Proof.Machine

/-- An answer, where there is one, in which no time has passed and no move is gone. -/
def State.keepsTime (s : State) (o : Option State) : Prop := ∀ t, o = some t → s.sameTime t

theorem keepsTime_none (s : State) : s.keepsTime none := by rintro _ ⟨⟩

theorem keepsTime_some {s t : State} (h : s.sameTime t) : s.keepsTime (some t) := by rintro _ ⟨⟩; exact h

theorem sameTime_getD {s : State} {o : Option State} (h : s.keepsTime o) : s.sameTime (o.getD s) := by
  cases o with
  | none => exact sameTime_refl s
  | some t => exact h t rfl

theorem keepsTime_or {s : State} {x y : Option State} (hx : s.keepsTime x) (hy : s.keepsTime y) : s.keepsTime (x.or y) := by
  cases x with
  | none => exact hy
  | some t => exact hx

theorem keepsTime_guard {s : State} {o : Option State} (h : s.keepsTime o) (c : Prop) [Decidable c] : s.keepsTime (if c then o else none) := by
  split
  · exact h
  · exact keepsTime_none s

theorem keepsTime_unless {s : State} {o : Option State} (h : s.keepsTime o) (c : Prop) [Decidable c] : s.keepsTime (if c then none else o) := by
  split
  · exact keepsTime_none s
  · exact h

theorem keepsTime_firstOf {α : Type} {s : State} {f : α → Option State} (h : ∀ a, s.keepsTime (f a)) (l : List α) : s.keepsTime (firstOf f l) := by
  induction l with
  | nil => exact keepsTime_none s
  | cons a l ih =>
    intro t ht
    rw [firstOf] at ht
    split at ht
    · rename_i u hu
      cases ht
      exact h a _ hu
    · exact ih t ht

theorem keepsTime_firstDue {s : State} {fs : List (Unit → Option State)} (h : ∀ f ∈ fs, s.keepsTime (f ())) : s.keepsTime (firstDue fs) := by
  induction fs with
  | nil => exact keepsTime_none s
  | cons f fs ih =>
    intro t ht
    rw [firstDue, firstOf] at ht
    split at ht
    · rename_i u hu
      cases ht
      exact h f (List.mem_cons_self ..) _ hu
    · exact ih (fun k hk => h k (List.mem_cons_of_mem _ hk)) t ht

section
variable (s : State)

/-! ### The raising of a fault -/

theorem sameTime_ask (ctx core : Nat) (pages : List Nat) (acc : Access) (who : Requester) : s.sameTime (s.ask ctx core pages acc who) :=
  sameTime_foldl _ (fun t p => by dsimp only; split <;> exact ⟨rfl, rfl⟩) _ _

theorem sameTime_injTake : s.sameTime s.injTake := by
  unfold State.injTake
  dsimp only
  split <;> split <;> split <;> exact ⟨rfl, rfl⟩

theorem sameTime_countBad (bs : List Loc) : s.sameTime (s.countBad bs) :=
  sameTime_foldl _ (fun t b => by
    split
    · split
      · exact ⟨rfl, rfl⟩
      · split <;> exact ⟨rfl, rfl⟩
    · exact ⟨rfl, rfl⟩) _ _

theorem sameTime_meetBut (skip : Loc → Bool) (l : Loc) (n : Nat) : s.sameTime (s.meetBut skip l n).2 := by
  unfold State.meetBut
  dsimp only
  refine sameTime_trans ?_ (sameTime_countBad ..)
  split
  · exact sameTime_injTake s
  · exact sameTime_refl s

theorem sameTime_look (c : Nat) (rs : List (Loc × Nat)) : s.sameTime (s.look c rs) := by
  unfold State.look
  split <;> exact ⟨rfl, rfl⟩

theorem sameTime_readAs (c : Nat) (l : Loc) (n : Nat) : s.sameTime (s.readAs c l n).2.2 := by
  unfold State.readAs
  split
  · exact sameTime_look ..
  · exact sameTime_trans (sameTime_meetBut ..) (sameTime_look ..)

theorem sameTime_trapEntry (r : GRef) (w : Workgroup) (g : Group) (k : Cause) : s.sameTime ((s.trapEntry r w g k).state s) := by
  unfold State.trapEntry
  split
  · exact sameTime_refl s
  · split
    · exact sameTime_refl s
    · exact sameTime_ask ..
  · split
    · exact sameTime_refl s
    · rename_i l _ n _ _
      have hread := sameTime_readAs s (columnOf w.core) l n
      split <;> rename_i heq <;> rw [heq] at hread <;> exact hread
  · split
    · exact sameTime_refl s
    · exact sameTime_refl s
    · split <;> exact sameTime_refl s
  · exact sameTime_refl s

theorem keepsTime_deliver (r : GRef) (w : Workgroup) (g : Group) (f : FaultInfo) : s.keepsTime (s.deliver r w g f) := by
  have hentry := sameTime_trapEntry s r w g f.cause
  unfold State.deliver
  dsimp only
  split
  · exact keepsTime_guard (keepsTime_some ⟨rfl, rfl⟩) _
  · split
    · exact keepsTime_some ⟨rfl, rfl⟩
    · split
      · exact keepsTime_some ⟨rfl, rfl⟩
      · split <;> rename_i heq <;> rw [heq] at hentry
        · exact keepsTime_none s
        · exact keepsTime_some hentry
        · exact keepsTime_some hentry
        · refine keepsTime_some (sameTime_trans hentry ?_)
          split <;> exact ⟨rfl, rfl⟩

theorem sameTime_raise (r : GRef) (w : Workgroup) (g : Group) (f : FaultInfo) : s.sameTime (s.raise r w g f) := by
  unfold State.raise
  dsimp only
  exact sameTime_trans ⟨rfl, rfl⟩ (sameTime_getD (keepsTime_deliver _ r w _ _))

theorem keepsTime_acting {r : GRef} {o : Option State} (h : s.keepsTime o) : s.keepsTime (s.acting r o) := by
  unfold State.acting
  split
  · exact keepsTime_unless h _
  · exact keepsTime_none s

theorem keepsTime_watchdog (r : GRef) (k : Cause) (fires : Group → Bool) : s.keepsTime (s.watchdog r k fires) := by
  unfold State.watchdog
  split
  · exact keepsTime_guard (keepsTime_some (sameTime_raise ..)) _
  · exact keepsTime_none s

theorem keepsTime_watch (r : GRef) : s.keepsTime (s.watch r) :=
  keepsTime_or (keepsTime_or (keepsTime_watchdog s r _ _) (keepsTime_watchdog s r _ _)) (keepsTime_watchdog s r _ _)

/-! ### A packet that waited for the device to wake -/

theorem sameTime_send (deps : List (Nat × Nat)) (ctx lnum : Nat) (k : OutKind) : s.sameTime (s.send deps ctx lnum k) := ⟨rfl, rfl⟩

theorem sameTime_performed (p : Packet) : s.sameTime (s.performed p) := by
  unfold State.performed
  dsimp only
  split <;> exact ⟨rfl, rfl⟩

theorem sameTime_status (p : Packet) (st : Nat) : s.sameTime (s.status p st) := sameTime_performed (s.send ..) p

theorem keepsTime_perform {p : Packet} {fits channels : Nat → Bool} {stage1 : Bool} {body : State → Option State} (h : s.keepsTime (body s)) :
    s.keepsTime (s.perform p fits channels stage1 body) := by
  unfold State.perform
  refine keepsTime_unless ?_ _
  split
  · exact keepsTime_some (sameTime_status ..)
  · split
    · exact keepsTime_some (sameTime_status ..)
    · split
      · exact keepsTime_some (sameTime_status ..)
      · exact h

theorem keepsTime_seqqueryCmd (p : Packet) : s.keepsTime (s.seqqueryCmd p) := by
  refine keepsTime_perform s (keepsTime_some ?_)
  refine sameTime_trans (sameTime_performed (s.seqEvent p.ch.toNat p.tag p.seq) p) ?_
  exact sameTime_foldl _ (fun t _ => sameTime_send t ..) _ _

theorem runCommand_seqquery {p : Packet} (h : p.op = 0x0C) : s.runCommand p = s.seqqueryCmd p := by
  rw [State.runCommand, h]
  rfl

/-- Only SEQQUERY is performed as it is taken; every other packet queues, is answered, or is dropped. -/
theorem sameTime_take (p : Packet) : s.sameTime (s.take p) := by
  unfold State.take
  extract_lets c k f
  split
  · rename_i hop
    rw [runCommand_seqquery s (beq_iff_eq.1 hop)]
    exact sameTime_getD (keepsTime_seqqueryCmd s p)
  · split
    · exact ⟨rfl, rfl⟩
    · split
      · split <;> exact ⟨rfl, rfl⟩
      · split <;> exact ⟨rfl, rfl⟩

theorem keepsTime_unpack (c : Nat) : s.keepsTime (s.unpack c) := by
  unfold State.unpack
  split
  · exact keepsTime_none s
  · exact keepsTime_some (sameTime_take (s.setChan ..) _)

/-! ### Epochs and cancelled groups -/

theorem keepsTime_epochEnd (c : Nat) : s.keepsTime (s.epochEnd c) := by
  unfold State.epochEnd
  exact keepsTime_unless (keepsTime_some ⟨rfl, rfl⟩) _

theorem sameTime_enterDecks (c e : Nat) : s.sameTime (s.enterDecks c e) := by
  unfold State.enterDecks
  dsimp only
  exact sameTime_trans (t := s.setCol ..) ⟨rfl, rfl⟩ (sameTime_foldl _ (fun t x => by split <;> exact ⟨rfl, rfl⟩) _ _)

theorem sameTime_confirmRelease (c e : Nat) : s.sameTime (s.confirmRelease c e) := by
  unfold State.confirmRelease
  extract_lets gone t u
  have ht : s.sameTime t := ⟨rfl, rfl⟩
  have hu : t.sameTime u := sameTime_foldl _ (fun v n => by dsimp only; split <;> exact ⟨rfl, rfl⟩) _ _
  exact sameTime_trans (sameTime_trans ht hu) (booked_reap u.dropKData).time

theorem keepsTime_confirmEpoch (c : Nat) : s.keepsTime (s.confirmEpoch c) := by
  unfold State.confirmEpoch
  dsimp only
  split
  · exact keepsTime_none s
  · refine keepsTime_unless (keepsTime_some ?_) _
    exact sameTime_trans (sameTime_enterDecks (s.setCol ..) ..) (sameTime_confirmRelease ..)

theorem keepsTime_copyExpiry (n : Nat) : s.keepsTime (s.copyExpiry n) := by
  unfold State.copyExpiry
  split
  · exact keepsTime_guard (keepsTime_some ⟨rfl, rfl⟩) _
  · exact keepsTime_none s

theorem keepsTime_sweepDue : s.keepsTime s.sweepDue := by
  unfold State.sweepDue
  exact keepsTime_guard (keepsTime_some (booked_sweep s).time) _

/-- A step that is due takes no time and no move. -/
theorem keepsTime_due : s.keepsTime s.due := by
  unfold State.due
  refine keepsTime_unless (keepsTime_firstDue ?_) _
  simp only [List.forall_mem_cons]
  refine ⟨keepsTime_guard (keepsTime_firstOf (keepsTime_unpack s) _) _,
    keepsTime_firstOf (fun c => keepsTime_or (keepsTime_confirmEpoch s c) (keepsTime_epochEnd s c)) _,
    keepsTime_firstOf (keepsTime_copyExpiry s) _, keepsTime_sweepDue s,
    keepsTime_firstOf (fun w => keepsTime_firstOf (fun g => keepsTime_unless (keepsTime_acting s (keepsTime_watch s _)) _) _) _, nofun⟩

end

/-! ### What is not due -/

theorem firstOf_eq_none {α : Type} {f : α → Option State} {l : List α} : firstOf f l = none ↔ ∀ a ∈ l, f a = none := by
  induction l with
  | nil => simp [firstOf]
  | cons a l ih =>
    rw [List.forall_mem_cons, ← ih, firstOf]
    cases f a <;> simp

section
variable {s : State} (halive : s.alive = true) (hdue : s.due = none)
include halive hdue

/-- Where nothing is due, none of the steps of its list is. -/
theorem not_due_of_due_eq_none :
    (∀ c, c < 32 → s.confirmEpoch c = none ∧ s.epochEnd c = none) ∧
    ∀ w ∈ s.wgs, ∀ g ∈ w.groups, g.retired = none → s.acting (w.refOf g) (s.watch (w.refOf g)) = none := by
  simp only [State.due, halive, Bool.not_true, Bool.false_eq_true, if_false, firstDue, firstOf_eq_none, List.forall_mem_cons,
    List.mem_range, Option.or_eq_none_iff] at hdue
  obtain ⟨-, hepochs, -, -, hwatch, -⟩ := hdue
  refine ⟨hepochs, fun w hw g hg hres => ?_⟩
  have hg' := hwatch w hw g hg
  rwa [hres, Option.isSome_none, if_neg Bool.false_ne_true] at hg'

theorem now_lt_of_due_eq_none {c : Nat} (hc : c < 32) (hrolling : (s.col c).rolling = false) : s.now < (s.col c).start + 512 := by
  by_contra hlate
  have hend := ((not_due_of_due_eq_none halive hdue).1 c hc).2
  rw [epochEnd_of_due hc hrolling (by omega)] at hend
  cases hend

theorem now_le_of_due_eq_none {c e t : Nat} {rest : List (Nat × Nat)} (hc : c < 32) (hrolling : (s.col c).rolling = false)
    (hended : (s.col c).ended = (e, t) :: rest) : s.now ≤ t + 400 := by
  by_contra hlate
  have hconf := ((not_due_of_due_eq_none halive hdue).1 c hc).1
  rw [confirmEpoch_of_due hended hrolling (by omega)] at hconf
  cases hconf

end

section
variable {s : State} {r : GRef} {w : Workgroup} {g : Group}

theorem watchdog_of_fires (hgroup : s.group? r = some (w, g)) (hending : w.ending = none) (hfill : w.toFill = 0) {fires : Group → Bool}
    (h : fires g = true) (k : Cause) : s.watchdog r k fires = some (s.raise r w g { cause := k }) := by
  simp [State.watchdog, hgroup, hending, hfill, h]

/-- A watchdog acts on a group one of whose counts is at its limit (12 R279). -/
theorem watch_ne_none (hgroup : s.group? r = some (w, g)) (hending : w.ending = none) (hfill : w.toFill = 0)
    (h : firesWait g = true ∨ firesPeer g = true ∨ firesRun g = true) : s.watch r ≠ none := by
  rw [State.watch, Ne, Option.or_eq_none_iff, Option.or_eq_none_iff]
  rintro ⟨⟨hwait, hpeer⟩, hrun⟩
  obtain h | h | h := h
  · rw [watchdog_of_fires hgroup hending hfill h] at hwait; cases hwait
  · rw [watchdog_of_fires hgroup hending hfill h] at hpeer; cases hpeer
  · rw [watchdog_of_fires hgroup hending hfill h] at hrun; cases hrun

/-- The limits of 12 R279, in units of 0.25 ns, are those at which a watchdog fires. -/
theorem fires_of_limits (h : g.wait.counted = true ∧
      (bits g.wdog.toNat 15 0 ≠ 0 ∧ bits g.wdog.toNat 15 0 * 400000 ≤ g.waitCnt ∨ 2000000000 ≤ g.hold) ∨
    g.wait.stalls = true ∧ bits g.wdog.toNat 31 16 ≠ 0 ∧ bits g.wdog.toNat 31 16 * 4000000 ≤ g.runCnt) :
    firesWait g = true ∨ firesPeer g = true ∨ firesRun g = true := by
  obtain ⟨hcounted, ⟨hset, hlimit⟩ | hhold⟩ | ⟨hstalls, hset, hlimit⟩ := h
  · exact .inl (by simp [firesWait, Group.waitLimit, hcounted, hset, hlimit])
  · exact .inr (.inl (by simp [firesPeer, hcounted, hhold]))
  · exact .inr (.inr (by simp [firesRun, Group.runLimit, hstalls, hset, hlimit]))

end

/-! ### The passing of time -/

theorem foldl_min_sub_le (now : Nat) (l : List Nat) (n : Nat) :
    l.foldl (fun a t => min a (t - now)) n ≤ n ∧ ∀ t ∈ l, l.foldl (fun a t => min a (t - now)) n ≤ t - now := by
  induction l generalizing n with
  | nil => exact ⟨Nat.le_refl n, nofun⟩
  | cons a l ih =>
    obtain ⟨hn, hl⟩ := ih (min n (a - now))
    rw [List.foldl_cons]
    exact ⟨hn.trans (Nat.min_le_left ..), List.forall_mem_cons.2 ⟨hn.trans (Nat.min_le_right ..), hl⟩⟩

section
variable {s : State}

/-- Time passes by no more than is asked for, and to no moment after one of the deadlines that lie ahead. -/
theorem now_pass (halive : s.alive = true) (n : Nat) :
    s.now ≤ (s.pass n).now ∧ (s.pass n).now ≤ s.now + n ∧ ∀ t ∈ s.deadlines, s.now ≤ t → (s.pass n).now ≤ t := by
  have hnow : (s.pass n).now = s.now + s.deadlines.foldl (fun a t => min a (t - s.now)) n := by
    rw [State.pass, if_pos halive]; rfl
  obtain ⟨hn, hl⟩ := foldl_min_sub_le s.now s.deadlines n
  rw [hnow]
  refine ⟨Nat.le_add_right .., Nat.add_le_add_left hn _, fun t ht hle => ?_⟩
  have htime := hl t ht
  omega

theorem nextClear_mem_deadlines : s.nextClear ∈ s.deadlines := by simp [State.deadlines]

theorem nextBalance_mem_deadlines : s.nextBalance ∈ s.deadlines := by simp [State.deadlines]

theorem peerCopy_mem_deadlines {k : PeerCopy} (h : k ∈ s.peerCopies) : k.at_ + 8000 ∈ s.deadlines :=
  List.mem_append_left _ (List.mem_append_right _ (List.mem_map.2 ⟨k, h, rfl⟩))

theorem col_mem_cols {c : Nat} (hc : c < 32) : s.col c ∈ s.cols.toList := by
  rw [State.col, Vector.getElem?_eq_getElem hc, Option.getD_some]
  simp

theorem column_mem_deadlines {c t : Nat} (hc : c < 32) (hrolling : (s.col c).rolling = false)
    (h : t ∈ ((s.col c).start + 512) :: ((s.col c).ended.head?.map fun e => e.2 + 401).toList) : t ∈ s.deadlines := by
  refine List.mem_append_left _ (List.mem_append_left _ (List.mem_cons_of_mem _ (List.mem_cons_of_mem _ ?_)))
  exact List.mem_flatMap.2 ⟨s.col c, col_mem_cols hc, by rw [hrolling, if_neg Bool.false_ne_true]; exact h⟩

theorem epochEnd_mem_deadlines {c : Nat} (hc : c < 32) (hrolling : (s.col c).rolling = false) : (s.col c).start + 512 ∈ s.deadlines :=
  column_mem_deadlines hc hrolling (List.mem_cons_self ..)

theorem confirmation_mem_deadlines {c e t : Nat} {rest : List (Nat × Nat)} (hc : c < 32) (hrolling : (s.col c).rolling = false)
    (hended : (s.col c).ended = (e, t) :: rest) : t + 401 ∈ s.deadlines :=
  column_mem_deadlines hc hrolling (by rw [hended]; exact List.mem_cons_of_mem _ (List.mem_cons_self ..))

theorem step_of_due {t : State} (h : s.due = some t) : step s = .next t := step_of_begin_done (by rw [State.begin, h])

theorem step_tick {n : Nat} {ms : List Move} (hdue : s.due = none) (hms : s.moves = .tick n :: ms) :
    step s = .next (State.pass { s with moves := ms } n) :=
  step_of_begin_done (begin_of_moves hdue hms)

end

/-- Settles O60: a step that is due keeps the time (`keepsTime_due`); what is at its time is due; and a tick stops at each deadline (`now_pass`). -/
theorem epochsEndOnTime : Obligations.EpochsEndOnTime := by
  refine ⟨fun s t h => ⟨step_of_due h, keepsTime_due s t h⟩, ?_, ?_, ?_⟩
  · intro s c halive hc hrolling hlate hdue
    obtain hend | ⟨e, t, rest, hended, hconf⟩ := hlate
    · have hearly := now_lt_of_due_eq_none halive hdue hc hrolling
      omega
    · have hearly := now_le_of_due_eq_none halive hdue hc hrolling hended
      omega
  · intro s w g halive hw hg hres hending hfill hst hlimits hdue
    have hwatch := (not_due_of_due_eq_none halive hdue).2 w hw g hg hres
    rw [acting_of_stands hst] at hwatch
    exact watch_ne_none hst.1 hending hfill (fires_of_limits hlimits) hwatch
  · intro s ms n halive hdue hms
    obtain ⟨hfrom, hto, hstop⟩ := now_pass (s := { s with moves := ms }) halive n
    refine ⟨_, step_tick hdue hms, hfrom, hto, fun c hc hrolling => ⟨?_, fun e u rest hended => ?_⟩,
      hstop _ nextClear_mem_deadlines, hstop _ nextBalance_mem_deadlines, fun k hk => hstop _ (peerCopy_mem_deadlines hk)⟩
    · exact hstop _ (epochEnd_mem_deadlines hc hrolling) (now_lt_of_due_eq_none halive hdue hc hrolling).le
    · exact hstop _ (confirmation_mem_deadlines hc hrolling hended) (Nat.le_succ_of_le (now_le_of_due_eq_none halive hdue hc hrolling hended))

end Sys2Proof.Machine
end

section
/-!
SUPPORT. Compare forms (06 R129, 09 R199): the two maps, or the two predicates, that a compare writes.
-/

namespace Sys2Proof.Machine

/-- The lanes of a map that do not meet a condition: what the map of those that do leaves of it. -/
theorem getLsbD_and_not_mapOf_filter (m : LaneMap) (p : Nat → Bool) {l : Nat} (hl : l < 64) :
    (m &&& ~~~mapOf ((lanesOf m).filter p)).getLsbD l = (m.getLsbD l && !p l) := by
  rw [BitVec.getLsbD_and, BitVec.getLsbD_not, getLsbD_mapOf_filter m p hl, decide_eq_true hl]
  cases m.getLsbD l <;> rfl

/-- Every compare splits its result map by its condition, or writes the condition and its negation. -/
theorem splits_of_splitForm {i : Instr} {d e2 : Operand} {lanes : Bool} {p : Env → Nat → Bool}
    (h : ∀ s, exec i s = splitForm i d e2 s lanes p) : Splits i d e2 lanes p := by
  intro s x hx
  have hexec := (h s).trans (issueWord_of_issuing _ hx)
  refine ⟨?_, ?_⟩
  · rintro rfl
    exact ⟨_, _, fun l hl => ⟨getLsbD_mapOf_filter x.e.m (p x.e) hl, getLsbD_and_not_mapOf_filter x.e.m (p x.e) hl⟩, hexec⟩
  · rintro rfl
    exact hexec

/-- Settles O4: the three compare forms are one form (`splitForm`), each with its own condition. -/
theorem compareFormsComplete : Obligations.CompareFormsComplete :=
  ⟨fun _ _ => splits_of_splitForm fun _ => rfl, fun _ _ => splits_of_splitForm fun _ => rfl, fun _ _ => splits_of_splitForm fun _ => rfl⟩

end Sys2Proof.Machine
end

section
/-!
SUPPORT. How groups start (06 R123, R127, R137): the registers of a group at its start, which lanes hold threads, and the items' words of a spawned one.
-/

namespace Sys2Proof.Machine

/-! ### A group at its start -/

/-- Lanes 0 to n - 1 are those below n: the word is 2^n - 1. -/
theorem getLsbD_lowLanes {n k : Nat} (hk : k < 64) : (lowLanes n).getLsbD k = decide (k < n) := by
  unfold lowLanes
  split
  · rw [BitVec.getLsbD_allOnes, decide_eq_true hk, decide_eq_true (by omega)]
  · rename_i hn
    have hlow : (1#64 <<< n - 1 : LaneMap).toNat = 2 ^ n - 1 := by
      have hlt : 2 ^ n < 2 ^ 64 := Nat.pow_lt_pow_right (by omega) (by omega)
      have hpos : 0 < 2 ^ n := Nat.two_pow_pos n
      have hshift : (1#64 <<< n).toNat = 2 ^ n := by
        rw [BitVec.toNat_shiftLeft, BitVec.toNat_one (by decide), Nat.one_shiftLeft, Nat.mod_eq_of_lt hlt]
      have hle : 1#64 ≤ 1#64 <<< n := by rw [BitVec.le_def, hshift]; exact hpos
      exact (BitVec.toNat_sub_of_le hle).trans (congrArg (· - 1) hshift)
    rw [← BitVec.testBit_toNat, hlow, Nat.testBit_two_pow_sub_one]

section
variable {d : Desc} {wdog : Word} {id : Nat} {live : LaneMap} {tids : Nat → Word} {sched slot now half : Nat}

theorem startGroup_tidOf {k : Nat} (hk : k < 64) : (startGroup d wdog id live tids sched slot now half).tidOf k = tids k := by
  simp [startGroup, Group.tidOf, hk]

theorem startGroup_mreg {k : Nat} (hk : k < 14) : (startGroup d wdog id live tids sched slot now half).mreg k = 0 := by
  have h14 : k ≠ 14 := by omega
  have h15 : k ≠ 15 := by omega
  simp [startGroup, Group.mreg, h14, h15, hk]

theorem startGroup_vreg (k : Nat) : (startGroup d wdog id live tids sched slot now half).vreg k = [] := by
  by_cases hk : k < 128 <;> simp [startGroup, Group.vreg, hk]

theorem startGroup_preg {k : Nat} (hk : k < 7) : (startGroup d wdog id live tids sched slot now half).preg k = false := by
  have h7 : k ≠ 7 := by omega
  simp [startGroup, Group.preg, h7, hk]

theorem startGroup_sreg_arg {k : Nat} (hk : k < 16) : (startGroup d wdog id live tids sched slot now half).sreg k = d.args.getD k 0 := by
  have h64 : k < 64 := by omega
  simp [startGroup, Group.sreg, h64, hk]

theorem startGroup_sreg_zero {k : Nat} (hlo : 16 ≤ k) : (startGroup d wdog id live tids sched slot now half).sreg k = 0 := by
  have hk : ¬ k < 16 := by omega
  by_cases h64 : k < 64 <;> simp [startGroup, Group.sreg, h64, hk]

end

/-! ### Groups of a launch's workgroup -/

/-- A group of a workgroup exists where it holds a thread. -/
theorem lt_groupsOf_iff (d : Desc) (v n : Nat) : n < d.groupsOf v ↔ n < d.groups ∧ 64 * d.groups * v + 64 * n < d.n := by
  rw [Desc.groupsOf, lt_min_iff]
  generalize 64 * d.groups * v = t
  omega

/-- Group n of a workgroup, where it holds a thread. -/
theorem newWg_groups_getElem? (l : Launch) (wdog : Word) (v core now half : Nat) (f : Fit) (n : Nat) :
    (newWg l wdog v core now half f).groups[n]? = if n < l.desc.groupsOf v then
      some (startGroup l.desc wdog n (lowLanes (min 64 (l.desc.n - (64 * l.desc.groups * v + 64 * n))))
        (fun k => BitVec.ofNat 32 (64 * l.desc.groups * v + 64 * n + k)) (f.slots.getD n (0, 0)).1 (f.slots.getD n (0, 0)).2 now half)
      else none := by
  simp only [newWg, List.getElem?_map]
  split
  · rename_i h; rw [List.getElem?_range h]; rfl
  · rename_i h; rw [List.getElem?_eq_none (by simpa using h)]; rfl

/-! ### The group of a spawned workgroup -/

/-- A register that holds a word of each item of a formed group, item k on lane k. -/
def itemReg (items : List (Item × Word)) (w : Item → Word) : VReg := items.zipIdx.map fun p => (p.2, w p.1.1)

theorem itemReg_eq_map_range (items : List (Item × Word)) (w : Item → Word) :
    itemReg items w = (List.range items.length).map fun k => (k, (items[k]?.map fun p => w p.1).getD 0) :=
  List.ext_getElem (by simp [itemReg]) fun k hk _ => by
    have hlen : k < items.length := by simpa [itemReg] using hk
    simp [itemReg, List.getElem?_eq_getElem hlen]

theorem vget?_itemReg {items : List (Item × Word)} {k : Nat} {it : Item × Word} (w : Item → Word) (h : items[k]? = some it) :
    vget? (itemReg items w) k = some (w it.1) := by
  have hk : k < items.length := (List.getElem?_eq_some_iff.1 h).1
  rw [itemReg_eq_map_range, vget?_map, if_pos (List.mem_range.2 hk), h]
  rfl

theorem vmap_itemReg {items : List (Item × Word)} (w : Item → Word) : vmap (itemReg items w) = lowLanes items.length := by
  refine BitVec.eq_of_getLsbD_eq fun k hk => ?_
  rw [vmap, itemReg_eq_map_range, List.map_map, getLsbD_mapOf, getLsbD_lowLanes hk, decide_eq_true hk, Bool.true_and]
  simp [Function.comp_def, List.contains_eq_mem]

/-- A group with its items' words in V0 to V2. -/
def Group.withItems (g : Group) (items : List (Item × Word)) : Group :=
  ((g.setV 0 (itemReg items (·.a))).setV 1 (itemReg items (·.b))).setV 2 (itemReg items (·.c))

section
variable (g : Group) (items : List (Item × Word))

theorem withItems_vreg_zero : (g.withItems items).vreg 0 = itemReg items (·.a) := by
  rw [Group.withItems, vreg_setV_ne _ _ (by decide), vreg_setV_ne _ _ (by decide), vreg_setV_eq _ _ _ (by decide)]

theorem withItems_vreg_one : (g.withItems items).vreg 1 = itemReg items (·.b) := by
  rw [Group.withItems, vreg_setV_ne _ _ (by decide), vreg_setV_eq _ _ _ (by decide)]

theorem withItems_vreg_two : (g.withItems items).vreg 2 = itemReg items (·.c) := vreg_setV_eq _ _ _ (by decide)

theorem withItems_vreg_of_le {n : Nat} (hn : 3 ≤ n) : (g.withItems items).vreg n = g.vreg n := by
  rw [Group.withItems, vreg_setV_ne _ _ (by omega), vreg_setV_ne _ _ (by omega), vreg_setV_ne _ _ (by omega)]

theorem vmap_withItems {n : Nat} (hn : n < 3) : vmap ((g.withItems items).vreg n) = lowLanes items.length := by
  obtain rfl | rfl | rfl : n = 0 ∨ n = 1 ∨ n = 2 := by omega
  · rw [withItems_vreg_zero, vmap_itemReg]
  · rw [withItems_vreg_one, vmap_itemReg]
  · rw [withItems_vreg_two, vmap_itemReg]

theorem withItems_mreg (k : Nat) : (g.withItems items).mreg k = g.mreg k := rfl
theorem withItems_preg (k : Nat) : (g.withItems items).preg k = g.preg k := rfl
theorem withItems_sreg (k : Nat) : (g.withItems items).sreg k = g.sreg k := rfl
theorem withItems_tidOf (k : Nat) : (g.withItems items).tidOf k = g.tidOf k := rfl

end

/-- The one group of a spawned workgroup: a group at its start, with the items' words in V0 to V2. -/
theorem spawnedWg_groups (l : Launch) (x : Formed) (d : Desc) (wdog : Word) (core now half : Nat) (f : Fit) :
    (spawnedWg l x d wdog core now half f).groups =
      [(startGroup d wdog 0 (lowLanes x.items.length) (fun k => ((x.items[k]?).map (·.2)).getD 0) (f.slots.getD 0 (0, 0)).1
        (f.slots.getD 0 (0, 0)).2 now half).withItems x.items] := rfl

/-- Settles O57: each group is `startGroup` with the lanes and thread identifiers of its threads, and a spawned one has its items' words besides. -/
theorem groupsStartAsStated : Obligations.GroupsStartAsStated := by
  refine ⟨fun l wdog v core now half f _ => ?_, fun l x d wdog core now half f _ => ?_⟩
  · intro gs n
    have hn : gs[n]? = _ := newWg_groups_getElem? l wdog v core now half f n
    rw [hn, ← lt_groupsOf_iff]
    split
    · rename_i hex
      refine ⟨by simp [hex], ?_⟩
      rintro g ⟨⟩
      refine ⟨rfl, fun k hk => ⟨?_, startGroup_tidOf hk⟩, rfl, fun k => startGroup_mreg, fun k _ => startGroup_vreg k,
        fun k => startGroup_preg, fun k => startGroup_sreg_arg, fun k hlo _ => startGroup_sreg_zero hlo, rfl, rfl⟩
      show (lowLanes _).getLsbD k = _
      rw [getLsbD_lowLanes hk, decide_eq_decide]
      omega
    · rename_i hex
      exact ⟨by simp [hex], by rintro g ⟨⟩⟩
  · refine ⟨_, spawnedWg_groups .., fun k hk => getLsbD_lowLanes hk, fun k hk => ⟨x.items[k], List.getElem?_eq_getElem hk, ?_⟩,
      fun n hn => vmap_withItems _ _ hn, fun n hn _ => (withItems_vreg_of_le _ _ hn).trans (startGroup_vreg n), rfl,
      fun k hk => (withItems_mreg ..).trans (startGroup_mreg hk), fun k hk => (withItems_preg ..).trans (startGroup_preg hk),
      fun k hk => (withItems_sreg ..).trans (startGroup_sreg_arg hk), fun k hlo _ => (withItems_sreg ..).trans (startGroup_sreg_zero hlo), rfl, rfl⟩
    have hitem := List.getElem?_eq_getElem hk
    rw [withItems_tidOf, startGroup_tidOf (by omega), withItems_vreg_zero, withItems_vreg_one, withItems_vreg_two, hitem]
    exact ⟨rfl, vget?_itemReg _ hitem, vget?_itemReg _ hitem, vget?_itemReg _ hitem⟩

end Sys2Proof.Machine
end

section
/-!
SUPPORT. Steps of the dispatcher (06 R123, R133, R137, R139, 12 R280-R282, 13 R287-R290): for each, the branch that a step which can be taken goes
through, and what it answers; no time passes while the dispatcher reads.
-/

namespace Sys2Proof.Machine

/-! ### Placement and victims -/

section
variable {s : State}

theorem placement_places {c : Cand} {core : Nat} {f : Fit} (hd0 : s.pstate = .d0) (hnext : s.nextPlacement = some (c, core, f)) :
    s.placement core = some (s.place c core f) := by
  simp [State.placement, hd0, hnext]

/-- The first starved front workgroup that has a victim chooses it. -/
theorem chooseVictim_chooses {c : Cand} {cs : List Cand} {w : Workgroup} (hnone : ∀ v ∈ s.wgs, v.saving = true → (s.ctx v.ctx).held = true)
    (hstarved : (s.fronts.filter fun c => s.starved c) = c :: cs) (hvictim : s.victim c = some w) :
    s.chooseVictim = some (s.everyWg (fun v => v.isOf w.ctx w.lnum w.wg) fun v => { v with saving := true }) := by
  have hany : (s.wgs.any fun w => w.saving && !(s.ctx w.ctx).held) = false := by
    simpa [List.any_eq_false] using hnone
  simp [State.chooseVictim, hany, hstarved, hvictim]

/-! ### Saves -/

/-- A workgroup as its save keeps it (12 R282): in slot n, with its queued commands and what its scratch, B store and accumulator store hold. -/
def State.keptWg (s : State) (w : Workgroup) (n : Nat) (asleep : Bool) : Workgroup :=
  { w with
    saving := asleep, slot := some n, placedAt := s.now, retryAt := 0, vfMark := none, cmds := s.queuedOf w
    groups := w.groups.map Group.saved
    sScr := cellsOf s.sram w.scratch.1.addr w.scrSize
    sBs := if w.desc.mx then cellsOf (s.atHorizon (columnOf w.core)).bs (bsLoc w.core 0).addr 0x200000 else []
    sAc := if w.desc.mx then cellsOf (s.atHorizon (columnOf w.core)).ac (acLoc w.core 0).addr 0x80000 else [] }

theorem saveWg_saves {t : State} {w : Workgroup} {n : Nat} (asleep : Bool) (hslot : s.freeSlot w = some n)
    (hwrite : s.dispWrite w.ctx (w.desc.save + n * saveSlot w.desc) (s.wgRecord w) = .ok t) :
    s.saveWg w asleep = some ((({ t with away := t.away ++ [s.keptWg w n asleep] } : State).discard
      fun e => w.isOf e.poster.ctx e.poster.lnum e.poster.wg).dropWg w) := by
  rw [State.saveWg, hslot]
  simp only [hwrite]
  rfl

section
variable {r : WRef} {w : Workgroup} (hfind : s.findWg r = some w) (hgroups : w.groups ≠ []) (hready : s.saveReady w = true) (hretry : w.retryAt ≤ s.now)
include hfind hgroups hready hretry

/-- A workgroup whose groups all sleep is saved asleep. -/
theorem swapOut_saves (hsaving : w.saving = false) (hasleep : ∀ g ∈ w.groups, g.asleep = true) (hcmds : s.cmdsOf w = []) :
    s.swapOut r = s.saveWg w true := by
  have hall : w.groups.all Group.asleep = true := List.all_eq_true.2 hasleep
  simp [State.swapOut, hfind, hsaving, hretry, hgroups, hall, hcmds, hready]

/-- A workgroup that was chosen for saving is saved ready. -/
theorem preempt_saves (hsaving : w.saving = true) : s.preempt r = s.saveWg w false := by
  simp [State.preempt, hfind, hsaving, hretry, hgroups, hready]

end

end

/-! ### The dispatcher's reads take no time -/

theorem keepsTime_trans {s t : State} {o : Option State} (h : s.sameTime t) (k : t.keepsTime o) : s.keepsTime o :=
  fun u hu => sameTime_trans h (k u hu)

section
variable (s : State)

theorem sameTime_put (l : Loc) (bs : List Byte) : s.sameTime (s.put l bs) := by
  obtain ⟨st, a⟩ := l
  cases st <;> exact ⟨rfl, rfl⟩

theorem sameTime_meet (l : Loc) (n : Nat) : s.sameTime (s.meet l n).2 := sameTime_meetBut ..

theorem sameTime_meetAll (ls : List (Loc × Nat)) : s.sameTime (s.meetAll ls).2 := by
  induction ls generalizing s with
  | nil => exact sameTime_refl s
  | cons p ls ih => exact sameTime_trans (sameTime_meet ..) (ih _)

/-- The state that a step of a walk leaves, where it does not wait. -/
def PortStep.state? : PortStep → Option State
  | .blocked => none
  | .fault _ _ t | .go _ t => some t

/-- The state that a walk leaves, where it does not wait. -/
def WalkRes.state? : WalkRes → Option State
  | .blocked => none
  | .more t | .fault _ _ t | .ok _ t => some t

/-- The state that an access of the dispatcher leaves, where it does not wait. -/
def accessState? {α : Type} : Except Stop (α × State) → Option State
  | .error .held => none
  | .error (.more t) | .error (.fault _ t) => some t
  | .ok x => some x.2

theorem keepsTime_portStep (ctx page : Nat) (acc : Access) (host : Bool) (st : PortWalkState) :
    s.keepsTime (s.portStep ctx page acc host st).state? := by
  cases st with
  | done pa => exact keepsTime_some (sameTime_refl s)
  | read level table first =>
    simp only [State.portStep]
    generalize (⟨.dram, table + 8 * if first = true then walkIndex level page / 16 * 16 else walkIndex level page⟩ : Loc) = l
    have hmeet := sameTime_meet s l 8
    split
    · exact keepsTime_none s
    · split <;> rename_i hm <;> rw [hm] at hmeet
      · exact keepsTime_some hmeet
      · split
        · exact keepsTime_some hmeet
        · exact keepsTime_some hmeet
        · exact keepsTime_some hmeet
        · split
          · exact keepsTime_some hmeet
          · split <;> exact keepsTime_some hmeet
  | update a old new pa =>
    simp only [State.portStep]
    generalize (⟨.dram, a⟩ : Loc) = l
    have hmeet := sameTime_meet s l 8
    split
    · exact keepsTime_none s
    · split <;> rename_i hm <;> rw [hm] at hmeet
      · exact keepsTime_some hmeet
      · split
        · exact keepsTime_some (sameTime_trans hmeet (sameTime_put ..))
        · exact keepsTime_some hmeet

theorem keepsTime_portWalk (ctx page : Nat) (acc : Access) (host : Bool) (fuel : Nat) (st : PortWalkState) :
    s.keepsTime (State.portWalk ctx page acc host fuel st s).state? := by
  fun_induction State.portWalk ctx page acc host fuel st s with
  | case1 fuel pa s => exact keepsTime_some (sameTime_refl s)
  | case2 st s hgoes => exact keepsTime_none s
  | case3 fuel st s hgoes hstep => exact keepsTime_none s
  | case4 fuel st s hgoes k pa t hstep =>
    have h := keepsTime_portStep s ctx page acc host st
    rw [hstep] at h
    exact h
  | case5 fuel st s hgoes st' t hstep ih =>
    have h := keepsTime_portStep s ctx page acc host st
    rw [hstep] at h
    exact keepsTime_trans (h t rfl) ih

theorem keepsTime_walkNow (ctx va : Nat) (acc : Access) (host : Bool) : s.keepsTime (s.walkNow ctx va acc host).state? := by
  unfold State.walkNow
  extract_lets page start mine
  split
  · exact keepsTime_some (sameTime_refl s)
  split
  · exact keepsTime_some (sameTime_refl s)
  split
  · exact keepsTime_some (sameTime_refl s)
  split
  · have hwalk := keepsTime_portWalk s ctx page acc host 8 start
    split <;> rename_i hw
    · rw [hw] at hwalk; exact hwalk
    · exact hwalk
  · generalize ((s.pwalks.find? mine).map (·.st)).getD start = st
    have hstep := keepsTime_portStep s ctx page acc host st
    split
    · exact keepsTime_some (sameTime_refl s)
    · split <;> rename_i hp <;> rw [hp] at hstep
      · exact keepsTime_none s
      · exact hstep
      · exact keepsTime_some (sameTime_trans (hstep _ rfl) ⟨rfl, rfl⟩)

theorem keepsTime_walkEach (ctx : Nat) (acc : Access) (rs : List (Nat × Nat)) : s.keepsTime (accessState? (s.walkEach ctx acc rs)) := by
  induction rs generalizing s with
  | nil => exact keepsTime_some (sameTime_refl s)
  | cons r rs ih =>
    obtain ⟨va, n⟩ := r
    have hwalk := keepsTime_walkNow s ctx va acc false
    rw [State.walkEach]
    split <;> rename_i hw <;> rw [hw] at hwalk
    · exact keepsTime_none s
    · exact hwalk
    · rename_i t
      exact keepsTime_some (sameTime_trans (hwalk t rfl) ⟨rfl, rfl⟩)
    · rename_i t
      have hrest := keepsTime_trans (hwalk t rfl) (ih t)
      split <;> rename_i he <;> rw [he] at hrest
      · exact hrest
      · exact hrest

theorem keepsTime_walkRange (ctx : Nat) (acc : Access) (rs : List (Nat × Nat)) : s.keepsTime (accessState? (s.walkRange ctx acc rs)) := by
  have heach := keepsTime_walkEach s ctx acc rs
  unfold State.walkRange
  split <;> rename_i he <;> rw [he] at heach
  · exact keepsTime_some (sameTime_trans (heach _ rfl) ⟨rfl, rfl⟩)
  · exact heach

theorem keepsTime_dispTake (ls : List (Loc × Nat)) : s.keepsTime (accessState? (s.dispTake ls)) := by
  have hmeet := sameTime_meetAll s ls
  unfold State.dispTake
  split
  · exact keepsTime_none s
  · split <;> rename_i hm <;> rw [hm] at hmeet <;> exact keepsTime_some hmeet

theorem keepsTime_dispRead (ctx va n : Nat) : s.keepsTime (accessState? (s.dispRead ctx va n)) := by
  have hrange := keepsTime_walkRange s ctx .read (cut4k va n)
  unfold State.dispRead
  split <;> rename_i hr <;> rw [hr] at hrange
  · rename_i e
    cases e <;> exact hrange
  · exact keepsTime_trans (hrange _ rfl) (keepsTime_dispTake _ _)

/-- The read of an awaited phase takes no time. -/
theorem keepsTime_awaited (w : Workgroup) (g : Group) : s.keepsTime ((s.awaited w g).map (·.2)) := by
  unfold State.awaited
  split
  · rename_i addr p _ _ _ _
    split
    · exact keepsTime_some (sameTime_refl s)
    · extract_lets x
      have hread : s.keepsTime (accessState? x) := by
        dsimp only [x]
        split
        · exact keepsTime_dispTake s _
        · exact keepsTime_dispRead s w.ctx addr 4
      obtain (_ | t | ⟨k, t⟩) | ⟨bs, t⟩ := x
      · exact keepsTime_none s
      · exact hread
      · exact hread
      · exact hread
  · exact keepsTime_some (sameTime_refl s)
  · exact keepsTime_some (sameTime_refl s)

end

section
variable {s : State}

/-- A swapped-out workgroup whose first group awaits a phase that has advanced becomes ready. -/
theorem swapResume_wakes {t : State} {r : WRef} {w : Workgroup} {g : Group} {gs : List Group}
    (hfind : (s.away.find? fun w => w.isOf r.ctx r.lnum r.wg && w.saving && w.retryAt ≤ s.now) = some w) (hgroups : w.groups = g :: gs)
    (hawaited : s.awaited w g = some (true, t)) : s.swapResume r = some (t.wakeWg r) := by
  rw [State.swapResume, hfind]
  simp [hgroups, hawaited]

/-! ### Banks and the Bucker -/

theorem bankReturn_returns {cl bank t : Nat} (hcl : cl < 64) (hmode : (s.cluster cl).modes[bank]?.getD .cache = .scratch (some t))
    (htime : t + 40000 ≤ s.now) (hused : s.bankUsed cl bank = false) : s.bankReturn cl bank = some (s.releaseBank cl bank) := by
  simp [State.bankReturn, hmode, hcl, htime, hused]

section
variable {ctx lnum k : Nat} {d : Deck} (hdeck : s.deckOf ctx lnum k = some d)
include hdeck

theorem buckerFull_forms (hfull : 64 ≤ d.items.length) : s.buckerFull ctx lnum k = some (s.form ctx lnum k 64) := by
  simp [State.buckerFull, hdeck, hfull]

theorem buckerPartial_forms {x : Item} {rest : List Item} (hitems : d.items = x :: rest) (hpart : d.items.length < 64)
    (htime : x.at_ + 8000 ≤ s.now) : s.buckerPartial ctx lnum k = some (s.form ctx lnum k d.items.length) := by
  rw [State.buckerPartial, hdeck]
  have hrest : rest.length < 63 := by
    rw [hitems, List.length_cons] at hpart
    omega
  simp [hitems, htime, hrest]

end

/-! ### Terminations and completions -/

theorem terminateWg_terminates {r : WRef} {w : Workgroup} {e : Ending} (hfind : s.findWg r = some w) (hending : w.ending = some e)
    (hconfirmed : (s.col (columnOf w.core)).confirmed e.epoch = true) (hrolling : (s.col (columnOf w.core)).rolling = false)
    (hgroups : ∀ g ∈ w.groups, g.retired.isSome = true ∨ g.midway = false) :
    s.terminateWg r = some (((((e.records.foldl (fun t k => t.sendRecord none r.ctx r.lnum k) s).everyWg
        (fun v => v.isOf r.ctx r.lnum r.wg) fun v => { v with groups := [], ending := none, saving := false }).modLaunch r.ctx r.lnum
        fun l => { l with lost := true }).discardWork fun x => w.isOf x.poster.ctx x.poster.lnum x.poster.wg).reap) := by
  have hgoing : (w.groups.any fun g => g.retired.isNone && g.midway) = false := by
    rw [List.any_eq_false]
    intro g hg
    rcases hgroups g hg with hretired | hmidway
    · simp [Option.isNone_eq_false_iff.2 hretired]
    · simp [hmidway]
  rw [State.findWg] at hfind
  simp [State.terminateWg, hfind, hending, hconfirmed, hrolling, hgoing]

theorem unitCompletion_launch {t : State} {ctx object : Nat} {l : Launch}
    (hfind : (s.launches.find? fun l => l.ctx == ctx && l.desc.compl == object && s.launchDue l) = some l)
    (hadvance : s.advanceObject l.ctx l.lnum l.desc.compl = some (true, t)) :
    s.unitCompletion ctx object = some (((t.modLaunch l.ctx l.lnum fun x => { x with status := s.launchStatus l, finalCount := 0 }).done l.ctx .launch
      l.desc.compl (s.launchStatus l) l.tag).tellDependents { l with status := s.launchStatus l }) := by
  rw [State.unitCompletion, hfind]
  simp [State.completeLaunch, afterAdvance, hadvance]

/-- A unit that is no job completes, and nothing is forgotten. -/
theorem unitCompletion_unit {t : State} {ctx object : Nat} {u : WorkUnit}
    (hlaunch : (s.launches.find? fun l => l.ctx == ctx && l.desc.compl == object && s.launchDue l) = none)
    (hfind : (s.units.find? fun u => u.ctx == ctx && u.object == object && s.unitDue u) = some u) (hkind : u.kind ≠ .job)
    (hadvance : s.advanceObject u.ctx 0 u.object = some (true, t)) :
    s.unitCompletion ctx object = some (({ t with
      units := t.units.map fun x => if x.ctx == u.ctx && x.kind == u.kind && x.object == u.object then
        { x with status := s.unitStatus u } else x } : State).done u.ctx u.kind u.object (s.unitStatus u) tagNone) := by
  rw [State.unitCompletion, hlaunch]
  simp [hfind, State.completeUnit, afterAdvance, hadvance, hkind]

end

/-- Settles O30: each step goes through the branch of its step function that its premises name. -/
theorem dispatchStepsComplete : Obligations.DispatchStepsComplete := by
  refine ⟨fun s c core f hd0 hnext => ?_, fun s c cs w hnone hstarved hvictim => ?_, ?_, fun s t r w g gs hfind hgroups hawaited => ?_,
    fun s cl bank t hcl hmode htime hused => ?_, fun s ctx lnum k d hdeck => ⟨fun hfull => ?_, fun x rest hitems hpart htime => ?_⟩,
    fun s r w e hfind hending hconfirmed hrolling hgroups => ?_, fun s t ctx object => ⟨fun l hfind hadvance => ?_,
      fun u hlaunch hfind hkind hadvance => ?_⟩⟩
  · exact next_of_some rfl (placement_places hd0 hnext)
  · exact next_of_some rfl (chooseVictim_chooses hnone hstarved hvictim)
  · intro s t r w i n asleep hfind hgroups hready hretry hstep hslot hwrite kept
    obtain ⟨rfl, rfl, hsaving, hasleep, hcmds⟩ | ⟨rfl, rfl, hsaving⟩ := hstep
    · exact next_of_some rfl ((swapOut_saves hfind hgroups hready hretry hsaving hasleep hcmds).trans (saveWg_saves true hslot hwrite))
    · exact next_of_some rfl ((preempt_saves hfind hgroups hready hretry hsaving).trans (saveWg_saves false hslot hwrite))
  · have htime : s.sameTime t := keepsTime_awaited s w g t (by rw [hawaited]; rfl)
    rw [← htime.1]
    exact next_of_some rfl (swapResume_wakes hfind hgroups hawaited)
  · exact next_of_some rfl (bankReturn_returns hcl hmode htime hused)
  · exact next_of_some rfl (buckerFull_forms hdeck hfull)
  · exact next_of_some rfl (buckerPartial_forms hdeck hitems hpart htime)
  · exact next_of_some rfl (terminateWg_terminates hfind hending hconfirmed hrolling hgroups)
  · exact next_of_some rfl (unitCompletion_launch hfind hadvance)
  · exact next_of_some rfl (unitCompletion_unit hlaunch hfind hkind hadvance)

end Sys2Proof.Machine
end

section
/-!
SUPPORT. REGROUP (06 R140, 08 R182): the counts that the last arrival writes into the barrier, and a list of bytes on which they do not read back.
-/

namespace Sys2Proof.Machine

/-! ### The counts in canonical stores -/

/-- A store of a column to its own home reads back where the stores are canonical. -/
theorem bytesAt_colStore_here {s : State} (h : s.memOk = true) {c ctx lnum : Nat} {l : Loc} {bs : List Byte} (hbs : bs ≠ [])
    (hl : locColumn l = some c) : (s.colStore c ctx lnum l bs).bytesAt l bs.length = bs := by
  rw [colStore_here hbs hl, State.bytesAt, mem_putProv]
  exact bytesAt_put_same h l bs

/-- What the refuted clause says of the barrier, with the premise that it lacks: in canonical stores ARR_EXP and ARR_LEFT become the number of
survivors, where the last participant arrives at offset `off` with MC clear on all. -/
theorem tryRegroup_counts_of_memOk {s : State} (h : s.memOk = true) {w : Workgroup} {off : Nat} {p : Word} (hruns : w.runs = true)
    (hsome : participants w ≠ []) (harrived : ∀ g ∈ participants w, g.regroupAt = some (off, p, false) ∧ g.quiet = true ∧ g.handler = false)
    (hfree : s.heldOff (some (columnOf w.core)) (localLoc w 1 (off + 4)) 4 = false)
    (hhome : locColumn (localLoc w 1 (off + 4)) = some (columnOf w.core)) :
    let k := ((regroupLanes (participants w)).length + 63) / 64
    ∃ u, s.tryRegroup w = some u ∧ u.bytesAt (localLoc w 1 (off + 4)) 4 = leBytes 2 k ++ leBytes 2 k := by
  intro k
  obtain ⟨g, gs, hps⟩ := List.exists_cons_of_ne_nil hsome
  have hoff : g.regroupAt = some (off, p, false) := (harrived g (by simp [hps])).1
  have hall : ((participants w).all fun g => g.regroupAt.isSome && g.quiet) = true :=
    List.all_eq_true.2 fun x hx => by simp [harrived x hx]
  have hmc : ((participants w).any fun g => (g.regroupAt.map (·.2.2)).getD false) = false :=
    List.any_eq_false.2 fun x hx => by simp [harrived x hx]
  have hhandler : ((participants w).any (·.handler)) = false := List.any_eq_false.2 fun x hx => by simp [harrived x hx]
  rw [State.tryRegroup]
  rw [hps] at hall hmc hhandler ⊢
  simp only [List.isEmpty_cons, hruns, hall, hmc, hhandler, hoff, Option.map_some, Option.getD_some, hfree, Bool.not_true, Bool.or_self, Bool.false_and,
    Bool.false_eq_true, if_false]
  refine ⟨_, rfl, ?_⟩
  have hne : leBytes 2 k ≠ [] := List.ne_nil_of_length_eq_add_one (length_leBytes 2 k)
  have hback := fun (t : State) (ht : t.memOk = true) =>
    bytesAt_colStore_here (ctx := w.ctx) (lnum := w.lnum) ht (List.append_ne_nil_of_left_ne_nil hne (leBytes 2 k)) hhome
  simp only [List.length_append, length_leBytes] at hback
  rw [← hps]
  exact hback _ h

/-! ### A REGROUP whose counts do not read back -/

/-- A uniform access of the scratch that lies in it. -/
theorem uniAccess_scratch {s : State} {r : GRef} {w : Workgroup} {g : Group} {acc : Access} {off n : Nat} (h : off + n ≤ w.scrSize) :
    s.uniAccess r w g 1 acc off n = .ok [(0, [(.mem (localLoc w 1 off) 0, n)])] := by
  have hin : ¬ ((w.scrSize : Int) < (off : Int) + (n : Int)) := by omega
  simp [State.uniAccess, State.laneAccess, spaceSize, hin]

/-- Where every token is clear, none is busy. -/
theorem tokBusy_eq_false {g : Group} (h : g.tok = Vector.replicate 6 false) (k : Nat) : g.tokBusy k = false := by
  rw [Group.tokBusy, h, Vector.getElem?_replicate]
  split <;> rfl

/-- The fields of a REGROUP of the barrier at offset 0 of the scratch, at scope wg, for phase 1, with MC clear. -/
def regroupCtl : Ctl :=
  { stl := 1, set := 7, wait := 0, yld := false, g1 := { neg := false, p := 7 }, g2 := { neg := false, p := 7 }
    ch := .normal, mc := false, fn := 0, ty := .b32, sc := .wg }
def regroupOps : OpsR := { d := .none, a := .int 0, b := .int 1, c := .none, e := .none, x := 0 }

/-- One group, about to issue REGROUP, and a list of scratch bytes that is not canonical: of the barrier at offset 0, of scope 2 and one participant,
the byte at offset 5 is listed twice, first with what an unlisted byte reads as. -/
def twiceListedBarrier : State :=
  { State.reset.placeWord 0 with
    cur := some { ctx := 0, lnum := 1, wg := 0, grp := 0 }
    sram := [(4, 1), (5, 0), (5, 1), (6, 1), (15, 0x40)].map fun c => (16 * 2 ^ 23 + c.1, c.2) }

theorem twiceListedBarrier_issues : (twiceListedBarrier.issuing (.regroup regroupCtl regroupOps) true false).isSome = true := by decide +kernel

/-- What issues there. -/
def regroupIssue : Issuing := (twiceListedBarrier.issuing (.regroup regroupCtl regroupOps) true false).get twiceListedBarrier_issues

theorem twiceListedBarrier_issuing : twiceListedBarrier.issuing (.regroup regroupCtl regroupOps) true false = some regroupIssue := (Option.some_get _).symm

/-- The barrier as the REGROUP reads it, with the state after the read. -/
def regroupRead : List Byte × State :=
  regroupIssue.t.uniBytes regroupIssue.e .read [(.mem (localLoc regroupIssue.e.w 1 0) 0, 16)]

/-- The group as it waits at the REGROUP, and the state in which the last arrival looks at the participants. -/
def regroupArrived : State :=
  regroupRead.2.setGroup regroupIssue.e.r (({ regroupIssue.e.g with wait := .regroup 0 1 false .wg } : Group).after regroupIssue.v regroupIssue.f
    (regroupRead.2.clock regroupIssue.e.w.core) regroupIssue.e.epoch false (regroupIssue.e.g.dsts regroupIssue.v regroupIssue.f))

theorem regroupArrived_resident : (regroupArrived.wgOf regroupIssue.e.r).isSome = true := by decide +kernel

/-- Its workgroup there. -/
def regroupWg : Workgroup := (regroupArrived.wgOf regroupIssue.e.r).get regroupArrived_resident

/-- The barrier passes the checks of REGROUP: it lies in the scratch, nothing holds it, and its scope and phase are right. -/
theorem regroupIssue_admitted : regroupIssue.e.w.scrSize = 4096 ∧
    regroupIssue.t.anyHeld regroupIssue.e.w.core [(0, [(.mem (localLoc regroupIssue.e.w 1 0) 0, 16)])] = false ∧
    bits (leNat regroupRead.1) 127 125 = 2 ∧ bits (leNat regroupRead.1) 31 0 ≠ 1 ∧
    ∀ g ∈ participants regroupIssue.e.w, g.wait = .none := by decide +kernel

/-- The one participant has arrived, and nothing keeps the REGROUP from being performed. -/
theorem regroupWg_ready : regroupWg.runs = true ∧ regroupRead.2.heldOff (some (columnOf regroupWg.core)) (localLoc regroupWg 1 4) 4 = false ∧
    ∀ g ∈ participants regroupWg, g.handler = false ∧ g.pend = [] ∧ g.tok = Vector.replicate 6 false ∧ g.wait = .regroup 0 1 false .wg := by
  decide +kernel

/-- Its 64 live lanes make one survivor. -/
theorem regroupWg_survivors :
    (((participants regroupWg).flatMap fun g => (lanesOf g.live).map fun l => (g, l)).length + 63) / 64 = 1 := by decide +kernel

theorem regroupWg_home : locColumn (localLoc regroupWg 1 4) = some (columnOf regroupWg.core) := by decide +kernel

/-- What the counts read as after the REGROUP: 0x0101 and 1, where 1 and 1 were written. -/
theorem twiceListedBarrier_counts : (match exec (.regroup regroupCtl regroupOps) twiceListedBarrier with
    | .next u => leNat (u.bytesAt (localLoc regroupWg 1 4) 4)
    | _ => 0) = 0x10101 := by decide +kernel

/-- Refutes O24: its clause on the last arrival of a REGROUP has no premise that memory is canonical. In `twiceListedBarrier` the write of ARR_EXP's zero
byte takes away the cell listed first and uncovers the second, so that ARR_EXP reads 0x0101 afterwards, where 1 was written. -/
theorem not_workFormsComplete : ¬ Obligations.WorkFormsComplete := by
  rintro ⟨-, -, -, -, -, hpacks⟩
  obtain ⟨hsize, hheld, hscope, hphase, hwaits⟩ := regroupIssue_admitted
  obtain ⟨hruns, hfree, harrived⟩ := regroupWg_ready
  obtain ⟨u, v, hexec, -, -, -, -, hcounts⟩ := hpacks regroupCtl regroupOps twiceListedBarrier regroupIssue
    [(0, [(.mem (localLoc regroupIssue.e.w 1 0) 0, 16)])] regroupWg twiceListedBarrier_issuing rfl (uniAccess_scratch (by rw [hsize]; decide)) hheld
    (.inl rfl) hscope hphase (fun g hg a q m k hwait => by rw [hwaits g hg] at hwait; cases hwait) (Option.some_get _).symm hruns hfree
    (fun g hg => by
      obtain ⟨hhandler, hpend, htok, hwait⟩ := harrived g hg
      exact ⟨hhandler, hpend, fun k => tokBusy_eq_false htok k, _, _, _, _, hwait⟩)
    (.inl fun g hg a q k hwait => by
      obtain ⟨-, -, -, hmc⟩ := harrived g hg
      rw [hmc] at hwait
      cases hwait)
  have hbytes := hcounts regroupWg_home
  have hread := twiceListedBarrier_counts
  rw [hexec] at hread
  have hwritten := (congrArg leNat hbytes).symm.trans hread
  rw [regroupWg_survivors] at hwritten
  exact absurd hwritten (by decide)

end Sys2Proof.Machine
end

section
/-!
SUPPORT. Words and packets read back (07 R142, R166, 21 R355): an instruction word decodes to its row, which its opcode, FN and CSRW's number select; a
packet's header gives its fields.
-/

namespace Sys2Proof.Machine

/-! ### Words -/

theorem fnIn_iff {c : Ctl} {l : List Nat} : fnIn c l = true ↔ c.fn.toNat ∈ l := by
  rw [fnIn, List.contains_iff_mem]

theorem not_fnIn_iff {c : Ctl} {l : List Nat} : (!fnIn c l) = true ↔ c.fn.toNat ∉ l := by
  rw [Bool.not_eq_true', ← Bool.not_eq_true, fnIn_iff]

/-- A word of format R decodes to an instruction that its opcode gives for every area that holds its operands. -/
theorem decodeWord_areaR {i : Instr} {c : Ctl} {p : BitVec 8} {o : OpsR} (h : ∀ a, opsR a = o → decodeOpc p.toNat c a = some i) :
    decodeWord (word c p (areaR o)) = some i := by
  rw [decodeWord_word]
  exact h _ (opsR_areaR o)

theorem decodeWord_areaI {i : Instr} {c : Ctl} {p : BitVec 8} {o : OpsI} (h : ∀ a, opsI a = o → decodeOpc p.toNat c a = some i) :
    decodeWord (word c p (areaI o)) = some i := by
  rw [decodeWord_word]
  exact h _ (opsI_areaI o)

theorem decodeWord_areaM {i : Instr} {c : Ctl} {p : BitVec 8} {o : OpsM} (h : ∀ a, opsM a = o → decodeOpc p.toNat c a = some i) :
    decodeWord (word c p (areaM o)) = some i := by
  rw [decodeWord_word]
  exact h _ (opsM_areaM o)

/-- A word of its row decodes to itself: its opcode selects the family, and FN or CSRW's number the row in it. -/
theorem decodeWord_encode {i : Instr} (hrow : rowSelected i = true) {w : InstrWord} (henc : encode i = some w) : decodeWord w = some i := by
  cases i with
  -- the first row of a family of two, of three, and of WAITPH's five: FN names none of the others
  | brxAbs | cntrdCount | msetPair | lanemapPos | fclass | pinOn | arrive | bankmodeCmin | tlbinvRange | cacheopDrop | pgreqGate =>
    cases henc
    have hfn := not_fnIn_iff.1 hrow
    exact decodeWord_areaR fun _ ha => ha ▸ congrArg some (if_neg fun h => hfn (by simp [h]))
  | mqstatFlags | csrxSet | clockCyc =>
    cases henc
    have hfn := not_fnIn_iff.1 hrow
    exact decodeWord_areaR fun _ ha => ha ▸ congrArg some ((if_neg fun h => hfn (by simp [h])).trans (if_neg fun h => hfn (by simp [h])))
  | waitph =>
    cases henc
    have hfn := not_fnIn_iff.1 hrow
    simp only [List.mem_cons, List.not_mem_nil, or_false] at hfn
    exact decodeWord_areaR fun _ ha => ha ▸ congrArg some
      ((if_neg (by omega)).trans ((if_neg (by omega)).trans ((if_neg (by omega)).trans (if_neg (by omega)))))
  -- the rows of FN 1, 2, 3, and 4 to 11
  | brxRel | cntrdStatus | msetFirst | lanemapTid | fclassM | pinOff | arriveBytes | bankmodeRelease | tlbinvAll | cacheopDropall | pgreqUngate
  | mqstatClr | csrxClr | clockNs | waitphSwap =>
    cases henc
    have hfn := List.mem_singleton.1 (fnIn_iff.1 hrow)
    exact decodeWord_areaR fun _ ha => ha ▸ congrArg some (if_pos hfn)
  | mqstatDepth | csrxSwap | clockEpoch | waitphVin =>
    cases henc
    have hfn := List.mem_singleton.1 (fnIn_iff.1 hrow)
    exact decodeWord_areaR fun _ ha => ha ▸ congrArg some ((if_neg (by omega)).trans (if_pos hfn))
  | waitphVout =>
    cases henc
    have hfn := List.mem_singleton.1 (fnIn_iff.1 hrow)
    exact decodeWord_areaR fun _ ha => ha ▸ congrArg some ((if_neg (by omega)).trans ((if_neg (by omega)).trans (if_pos hfn)))
  | waitphBankFifo =>
    cases henc
    have hfn := fnIn_iff.1 hrow
    simp only [List.mem_cons, List.not_mem_nil, or_false] at hfn
    exact decodeWord_areaR fun _ ha => ha ▸ congrArg some
      ((if_neg (by omega)).trans ((if_neg (by omega)).trans ((if_neg (by omega)).trans (if_pos (by omega)))))
  -- CSRW, whose number selects the row
  | csrw =>
    cases henc
    simp only [rowSelected, bne_iff_ne, Bool.and_eq_true] at hrow
    obtain ⟨⟨hseed, hwdog⟩, hinjc⟩ := hrow
    refine decodeWord_areaI fun _ ha => ?_
    subst ha
    exact congrArg some ((if_neg hseed).trans ((if_neg hwdog).trans (if_neg hinjc)))
  | srseedWrite =>
    cases henc
    refine decodeWord_areaI fun _ ha => ?_
    subst ha
    exact congrArg some (if_pos (eq_of_beq hrow))
  | wdogWrite =>
    cases henc
    refine decodeWord_areaI fun _ ha => ?_
    subst ha
    have himm := eq_of_beq hrow
    exact congrArg some ((if_neg (by rw [himm]; decide)).trans (if_pos himm))
  | injcWrite =>
    cases henc
    refine decodeWord_areaI fun _ ha => ?_
    subst ha
    have himm := eq_of_beq hrow
    exact congrArg some ((if_neg (by rw [himm]; decide)).trans ((if_neg (by rw [himm]; decide)).trans (if_pos himm)))
  -- opcodes of one row, by their format
  | ld | st =>
    cases henc
    exact decodeWord_areaM fun _ ha => ha ▸ rfl
  | bra | call | brm | brdec | trap | movi | csrr =>
    cases henc
    exact decodeWord_areaI fun _ ha => ha ▸ rfl
  | _ => cases henc <;> exact decodeWord_areaR fun _ ha => ha ▸ rfl

/-- The instruction words are the terms that have a word. -/
theorem encode_isSome (i : Instr) : (encode i).isSome = (viewForm i).isSome := by
  cases i <;> rfl

theorem rowSelected_of_wf {i : Instr} (h : i.wf = true) : rowSelected i = true := by
  rw [Instr.wf, Bool.and_eq_true] at h
  exact h.1

/-- Settles O46: what is well formed stands in its row, and a word of its row decodes to itself (`decodeWord_encode`). -/
theorem encodeThenDecode : Obligations.EncodeThenDecode := by
  refine ⟨fun i w hwf henc => decodeWord_encode (rowSelected_of_wf hwf) henc, fun i hwf hword => ?_, fun i hstep => ?_⟩
  · obtain ⟨w, henc⟩ := Option.isSome_iff_exists.1 ((encode_isSome i).trans hword)
    exact ⟨w, henc, decodeWord_encode (rowSelected_of_wf hwf) henc⟩
  · rw [← Option.not_isSome_iff_eq_none, encode_isSome, hstep]
    decide

/-! ### Packets -/

/-- The fields of a packet's header, read back. -/
theorem fieldsHead (seq tag : BitVec 32) (len : BitVec 16) (ch rsv0 status rsv1 op ver : BitVec 8) :
    let z := seq ++ (tag ++ (len ++ (ch ++ (rsv0 ++ (status ++ (rsv1 ++ (op ++ ver)))))))
    z.extractLsb' 0 8 = ver ∧ z.extractLsb' 8 8 = op ∧ z.extractLsb' 16 8 = rsv1 ∧ z.extractLsb' 24 8 = status ∧ z.extractLsb' 32 8 = rsv0 ∧
      z.extractLsb' 40 8 = ch ∧ z.extractLsb' 48 16 = len ∧ z.extractLsb' 64 32 = tag ∧ z.extractLsb' 96 32 = seq := by
  refine ⟨?_, ?_, ?_, ?_, ?_, ?_, ?_, ?_, ?_⟩ <;> (
    apply BitVec.eq_of_getLsbD_eq
    intro k hk
    simp only [BitVec.getLsbD_extractLsb', BitVec.getLsbD_append, hk, decide_true, Bool.true_and]
    grind)

/-- A packet's sixteen header bytes, whatever follows them, give its header's number. -/
theorem leNat_packetBytes (p : Packet) : BitVec.ofNat 128 (leNat ((packetBytes p).take 16)) = packetHead p := by
  have hl := length_leBytes 16 (packetHead p).toNat
  rw [packetBytes, List.take_left' hl, leNat_leBytes, Nat.mod_eq_of_lt (by have := (packetHead p).isLt; omega), BitVec.ofNat_toNat, BitVec.setWidth_eq]

theorem packetOf_packetBytes (p : Packet) : packetOf (packetBytes p) = some p := by
  have hl := length_leBytes 16 (packetHead p).toNat
  obtain ⟨hver, hop, hrsv1, hstatus, hrsv0, hch, hlen, htag, hseq⟩ := fieldsHead p.seq p.tag p.len p.ch p.rsv0 p.status p.rsv1 p.op p.ver
  have hlong : ¬ (packetBytes p).length < 16 := by rw [packetBytes, List.length_append]; omega
  have hrest : (packetBytes p).drop 16 = p.payload := List.drop_left' hl
  rw [packetOf, if_neg hlong]
  simp only [leNat_packetBytes, hrest]
  exact congrArg some (by rw [Packet.mk.injEq]; exact ⟨hver, hop, hrsv1, hstatus, hrsv0, hch, hlen, htag, hseq, rfl⟩)

/-- Settles O47: a word's bytes decode as the word does (`decode_leBytes`), and a packet's header reads back (`packetOf_packetBytes`). -/
theorem bytesReadBack : Obligations.BytesReadBack := by
  refine ⟨fun i bs rest hwf hbytes => ?_, packetOf_packetBytes⟩
  obtain ⟨w, henc, rfl⟩ := Option.map_eq_some_iff.1 hbytes
  rw [decode_leBytes, decodeWord_encode (rowSelected_of_wf hwf) henc]

/-- Settles O48, word by word, by evaluating the decoder. -/
theorem wordsDecodeAsWritten : Obligations.WordsDecodeAsWritten := by
  refine ⟨?_, ?_, ?_, ?_, ?_, ?_, ?_, ?_, ?_, ?_, ?_⟩ <;> decide +kernel

end Sys2Proof.Machine
end

section
/-!
SUPPORT. What no state stops (07 R168, 04 R83), and which forms a core or a mode stops (07 R167).
-/

namespace Sys2Proof.Machine

/-! ### Nothing is refused -/

/-- A step that has no word answers a next state: its meaning, where it cannot be taken, leaves the state as it stands (log entry 50). -/
theorem exec_step {i : Instr} (h : viewForm i = none) (s : State) : ∃ t, exec i s = .next t := by
  cases i <;> cases h <;> exact ⟨_, rfl⟩

/-- A word answers a next state, but where no resident group issues it. -/
theorem issueWord_answers {i : Instr} (h : (viewForm i).isSome = true) (s : State) (own all : Bool) (body : View → Env → State → Act) :
    (∃ t, issueWord i s own all body = .next t) ∨
      (issueWord i s own all body = .fault .noIssuingGroup ∧ ∀ r, s.cur = some r → s.group? r = none) := by
  obtain ⟨⟨v, f⟩, hv⟩ := Option.isSome_iff_exists.1 h
  cases hc : s.cur with
  | none => exact .inr ⟨by rw [issueWord, hc], nofun⟩
  | some r =>
    cases hg : s.group? r with
    | none => exact .inr ⟨by simp only [issueWord, hc, hg], fun _ h => Option.some.inj h ▸ hg⟩
    | some wg => exact .inl ⟨_, issueWord_eq body hc hg hv⟩

/-- Settles O58: a step answers a next state in each of its branches, and a word goes through the one set of checks (`exec_issues`). -/
theorem nothingIsRefused : Obligations.NothingIsRefused := by
  intro i s
  cases hv : viewForm i with
  | none => exact .inl (exec_step hv s)
  | some vf =>
    have hword : (viewForm i).isSome = true := by rw [hv]; rfl
    obtain ⟨all, body, hexec⟩ := exec_issues hword
    rw [hexec]
    exact (issueWord_answers hword s _ all body).imp_right fun ⟨hfault, hnone⟩ => ⟨hfault, rfl, hnone⟩

/-! ### Restricted forms -/

/-- CVT runs on every core and in every mode, whatever its kind of conversion. -/
theorem cvtForm_unrestricted (c : Ctl) (o : OpsR) : (cvtForm c o).upper = false ∧ (cvtForm c o).priv = false := by
  rw [cvtForm]
  split <;> exact ⟨rfl, rfl⟩

theorem upper_eq_upperOnly {i : Instr} {v : View} {f : Form} (h : viewForm i = some (v, f)) : f.upper = upperOnly i := by
  cases i with
  | cvt c o => cases h; exact (cvtForm_unrestricted c o).1
  | _ => cases h <;> rfl

theorem priv_eq_privileged {i : Instr} {v : View} {f : Form} (h : viewForm i = some (v, f)) : f.priv = privileged i := by
  cases i with
  | cvt c o => cases h; exact (cvtForm_unrestricted c o).2
  | _ => cases h <;> rfl

/-- A privileged form runs on every core and names no unit of an upper one (01 R8). -/
theorem onEveryCore_of_privileged {i : Instr} {v : View} {f : Form} (h : viewForm i = some (v, f)) (hpriv : privileged i = true) :
    f.upper = false ∧ f.localUpper = false := by
  cases i with
  | rft | tlbinvRange | tlbinvAll | gsave | grest | pgreqGate | pgreqUngate | csrr | csrw | srseedWrite | wdogWrite | injcWrite | csrxSet | csrxClr
  | csrxSwap => cases h; exact ⟨rfl, rfl⟩
  | _ => cases hpriv

section
variable {v : View} {f : Form} {up handler : Bool} {nreg : Nat}

theorem staticFault_of_upper (hform : f.upper = true) : staticFault false handler nreg v f = some .illegalOpcode := by
  simp [staticFault, hform]

theorem staticFault_of_priv (hupper : f.upper = false) (hlocal : f.localUpper = false) (hreserved : reservedOk v f = true)
    (hvariant : variantOk v f = true) (hpriv : f.priv = true) : staticFault up false nreg v f = some .privilege := by
  simp [staticFault, hupper, hlocal, hreserved, hvariant, hpriv]

theorem staticFault_onEveryCore (hupper : f.upper = false) (hlocal : f.localUpper = false) :
    staticFault true handler nreg v f = staticFault false handler nreg v f := by
  simp [staticFault, hupper, hlocal]

/-- The checks answer a privilege fault for a privileged form outside handler mode alone. -/
theorem priv_of_staticFault (h : staticFault up handler nreg v f = some .privilege) : f.priv = true ∧ handler = false := by
  unfold staticFault at h
  split at h
  · cases h
  split at h
  · cases h
  split at h
  · cases h
  split at h
  next hpriv => simpa using hpriv
  next =>
    split at h <;> cases h

end

section
variable {s : State} {i : Instr} {r : GRef} {w : Workgroup} {g : Group} {v : View} {f : Form} {own all : Bool}

theorem checks_of_staticFault {k : Cause} (h : staticFault (isUpper w.core) g.handler w.desc.nreg v f = some k) :
    s.checks r w g v f own all = .stop (s.raise r w g { cause := k }) := by
  simp only [State.checks, h]

/-- A word that fails a check of its own raises that check's fault. -/
theorem exec_of_staticFault (hcur : s.cur = some r) (hgroup : s.group? r = some (w, g)) (hview : viewForm i = some (v, f)) {k : Cause}
    (h : staticFault (isUpper w.core) g.handler w.desc.nreg v f = some k) : exec i s = .next (s.raise r w g { cause := k }) :=
  exec_of_stop hcur hgroup hview fun _ => checks_of_staticFault h

end

/-- Settles O41: the forms marked for upper cores and for handler mode are the ones R167 names (`upper_eq_upperOnly`, `priv_eq_privileged`), and the
checks of a word read those marks (`exec_of_staticFault`). -/
theorem restrictedFormsRaise : Obligations.RestrictedFormsRaise := by
  intro i v f hview
  refine ⟨fun s r w g hcur hgroup => ⟨fun honly hlower => ?_, fun hpriv hreserved hvariant hmode => ?_⟩,
    fun handler nreg => ⟨fun hform => ?_, fun up h => ?_⟩⟩
  · refine exec_of_staticFault hcur hgroup hview ?_
    rw [hlower, staticFault_of_upper ((upper_eq_upperOnly hview).trans honly)]
  · obtain ⟨hupper, hlocal⟩ := onEveryCore_of_privileged hview hpriv
    refine exec_of_staticFault hcur hgroup hview ?_
    rw [hmode, staticFault_of_priv hupper hlocal hreserved hvariant ((priv_eq_privileged hview).trans hpriv)]
  · obtain ⟨c, o, rfl | rfl | rfl | rfl⟩ := hform <;> cases hview <;> exact staticFault_onEveryCore rfl rfl
  · rw [← priv_eq_privileged hview]
    exact priv_of_staticFault h

end Sys2Proof.Machine
end

section
/-!
SUPPORT. The checks of a word one after another (07 R149, R150, R160-R162, R168): what each answers where it is the first that fails, and when the
pipe that a word needs is free (07 R164).
-/

namespace Sys2Proof.Machine

/-! ### When a pipe is free -/

theorem lt_foldl_max {l : List Nat} {a b : Nat} : a < l.foldl max b ↔ a < b ∨ ∃ x ∈ l, a < x := by
  induction l generalizing b with
  | nil => simp
  | cons x xs ih => rw [List.foldl_cons, ih]; simp [or_assoc]

section
variable {s : State} {w : Workgroup} {g : Group} {v : View} {f : Form} {own : Bool}

theorem now_lt_pipeFree {core sched : Nat} {pipe : Pipe} : s.now < s.pipeFree core sched pipe ↔
    ∃ k ∈ s.wgs, k.core = core ∧ ∃ h ∈ k.groups, h.sched = sched ∧ ∃ p ∈ h.pipes, p.1 = pipe ∧ s.now < p.2 := by
  rw [State.pipeFree, lt_foldl_max]
  simp only [lt_self_iff_false, false_or, List.mem_flatMap]
  constructor
  · rintro ⟨x, ⟨k, hk, hx⟩, hlt⟩
    split at hx
    next hcore =>
      simp only [List.mem_flatMap, List.mem_filter, List.mem_map, beq_iff_eq] at hx hcore
      obtain ⟨h, ⟨hh, hsched⟩, p, ⟨hp, hpipe⟩, rfl⟩ := hx
      exact ⟨k, hk, hcore, h, hh, hsched, p, hp, hpipe, hlt⟩
    next => cases hx
  · rintro ⟨k, hk, hcore, h, hh, hsched, p, hp, hpipe, hlt⟩
    refine ⟨p.2, ⟨k, hk, ?_⟩, hlt⟩
    rw [if_pos (beq_iff_eq.2 hcore)]
    simp only [List.mem_flatMap, List.mem_filter, List.mem_map, beq_iff_eq]
    exact ⟨h, ⟨hh, hsched⟩, p, ⟨hp, hpipe⟩, rfl⟩

/-- A word is held for its registers, or for a pipe. -/
theorem now_lt_holdUntil : s.now < s.holdUntil w g v f own ↔
    s.now < g.interlock s.now (s.col (columnOf w.core)).cyc (g.named v f) ∨ ¬ s.pipeOpen w g v f own := by
  have hbusy : (∃ k ∈ s.wgs, k.core = w.core ∧ ∃ h ∈ k.groups, h.sched = g.sched ∧ ∃ p ∈ h.pipes, p.1 = f.pipe ∧ s.now < p.2) ↔
      ¬ ∀ k ∈ s.wgs, k.core = w.core → ∀ h ∈ k.groups, h.sched = g.sched → ∀ p ∈ h.pipes, p.1 = f.pipe → p.2 ≤ s.now := by
    push Not
    rfl
  rw [State.holdUntil, State.pipeOpen, not_or, ← hbusy, ← now_lt_pipeFree]
  dsimp only [State.clock]
  split
  next hempty =>
    simp only [Bool.and_eq_true, Bool.not_eq_true', beq_iff_eq, List.any_eq_true] at hempty
    obtain ⟨⟨hown, x, hx, hvec⟩, hmap⟩ := hempty
    cases x with
    | v n => exact (or_iff_left fun hfull => hfull.1 ⟨hown, ⟨n, hx⟩, hmap⟩).symm
    | s | m | p => cases hvec
  next hneeds =>
    simp only [Bool.and_eq_true, Bool.not_eq_true', beq_iff_eq, List.any_eq_true] at hneeds
    rw [lt_max_iff, and_iff_right fun ⟨hown, ⟨n, hn⟩, hmap⟩ => hneeds ⟨⟨hown, _, hn, rfl⟩, hmap⟩]

end

/-! ### What the checks answer -/

section
variable {s : State} {i : Instr} {r : GRef} {w : Workgroup} {g : Group} {v : View} {f : Form} {own all : Bool}

theorem checks_of_wait (hstatic : staticFault (isUpper w.core) g.handler w.desc.nreg v f = none)
    (hwait : g.waitOk v.c = false ∨ s.now < g.interlock s.now (s.clock w.core).cyc (guardRegs v.c)) :
    s.checks r w g v f own all = .stop (s.stay r (g.interlock s.now (s.clock w.core).cyc (guardRegs v.c))) := by
  simp only [State.checks, hstatic]
  rw [if_pos (by simpa using hwait)]

/-- The word is well formed, the tokens of WAIT are clear, and no result in flight is to a guard. -/
structure PassesWait (s : State) (w : Workgroup) (g : Group) (v : View) (f : Form) : Prop where
  static : staticFault (isUpper w.core) g.handler w.desc.nreg v f = none
  wait : g.waitOk v.c = true
  guardRegs : g.interlock s.now (s.clock w.core).cyc (guardRegs v.c) ≤ s.now

theorem checks_of_skip (h : PassesWait s w g v f) (hguards : g.guards v.c = false) :
    s.checks r w g v f own all = .stop (s.setGroup r
      (g.skipped v f (s.clock w.core) (s.col (columnOf w.core)).epoch (s.macrosOf r.ctx r.lnum))) := by
  simp only [State.checks, h.static]
  rw [if_neg (by simpa [h.wait] using h.guardRegs), if_pos (by simp [hguards])]

theorem checks_of_held (h : PassesWait s w g v f) (hguards : g.guards v.c = true)
    (hheld : g.setOk v.c = false ∨ s.now < s.holdUntil w g v f own) :
    s.checks r w g v f own all = .stop (s.stayFor r (s.holdUntil w g v f own) (g.named v f)) := by
  simp only [State.checks, h.static]
  rw [if_neg (by simpa [h.wait] using h.guardRegs), if_neg (by simp [hguards]), if_pos (by simpa using hheld)]

/-- Besides, its guards are true, the token of SET is free, and nothing holds it for a register or a pipe. -/
structure PassesHold (s : State) (w : Workgroup) (g : Group) (v : View) (f : Form) (own : Bool) : Prop extends PassesWait s w g v f where
  guardsTrue : g.guards v.c = true
  set : g.setOk v.c = true
  hold : s.holdUntil w g v f own ≤ s.now

theorem checks_of_maps (h : PassesHold s w g v f own) (hown : own = false) (hmc : v.c.mc = true) (hdiffer : g.mapsDiffer v f = true) :
    s.checks r w g v f own all = .stop (s.raise r w g { cause := .mapMismatch }) := by
  simp only [State.checks, h.static]
  rw [if_neg (by simpa [h.wait] using h.guardRegs), if_neg (by simp [h.guardsTrue]), if_neg (by simpa [h.set] using h.hold),
    if_pos (by simp [hown, hmc, hdiffer])]

theorem checks_of_maps_agree (h : PassesHold s w g v f own) (hmaps : own = true ∨ v.c.mc = false ∨ g.mapsDiffer v f = false) :
    s.checks r w g v f own all = if (g.markWaited v.c).stallShort (g.named v f ++ guardRegs v.c) then .stop (s.raise r w g { cause := .stallShort })
      else s.readied r w g (g.markWaited v.c) v f all := by
  simp only [State.checks, h.static]
  rw [if_neg (by simpa [h.wait] using h.guardRegs), if_neg (by simp [h.guardsTrue]), if_neg (by simpa [h.set] using h.hold), if_neg]
  rcases hmaps with h | h | h <;> simp [h]

end

/-! ### What follows a stop -/

theorem stayFor_eq (s : State) (r : GRef) (n : Nat) (regs : List RegName) : s.stayFor r n regs = s.modGroup r fun k =>
    { k with nextAt := max k.nextAt (max n (s.now + 1)), blocked := (k.pend.flatMap Pend.regs).filter regs.contains } :=
  modGroup_modGroup s r fun _ => rfl

/-! ### The step past an instruction -/

section
variable {g : Group} {bodies : List (List InstrWord)} {m k : Nat}

theorem stepOn_of_slot (h : g.mcall = none) : g.stepOn bodies = { g with pc := nextPc g.pc } := by
  simp only [Group.stepOn, h]

theorem stepOn_of_body (h : g.mcall = some (m, k)) (hk : k + 1 < (bodies.getD m []).length) : g.stepOn bodies = { g with mcall := some (m, k + 1) } := by
  simp only [Group.stepOn, h, if_pos hk]

theorem stepOn_of_last (h : g.mcall = some (m, k)) (hk : (bodies.getD m []).length ≤ k + 1) :
    g.stepOn bodies = { g with mcall := none, pc := nextPc g.pc } := by
  simp only [Group.stepOn, h, if_neg (Nat.not_lt.2 hk)]

/-- The step past an instruction changes the group's place alone. -/
theorem stepOn_place (g : Group) (bodies : List (List InstrWord)) :
    g.stepOn bodies = { g with pc := (g.stepOn bodies).pc, mcall := (g.stepOn bodies).mcall } := by
  rcases hm : g.mcall with - | ⟨m, k⟩
  · rw [stepOn_of_slot hm]
  · rcases Nat.lt_or_ge (k + 1) (bodies.getD m []).length with hk | hk
    · rw [stepOn_of_body hm hk]
    · rw [stepOn_of_last hm hk]

end

/-- Settles O40: each clause is one answer of the checks (`checks_of_wait`, `checks_of_skip`, `checks_of_held`, `checks_of_maps`, `checks_of_maps_agree`). -/
theorem checksStopAWord : Obligations.ChecksStopAWord := by
  intro s i r w g v f hcur hgroup hview cyc
  refine ⟨fun k hk => exec_of_staticFault hcur hgroup hview hk, fun hstatic => ⟨fun hwait => ?_, fun hwait hguardRegs => ?_⟩⟩
  · exact ⟨_, lt_max_of_lt_right (Nat.lt_succ_self s.now), exec_of_stop hcur hgroup hview fun all => checks_of_wait hstatic hwait⟩
  have hpass : PassesWait s w g v f := ⟨hstatic, hwait, hguardRegs⟩
  refine ⟨fun hfalse => ?_, fun htrue hheld => ?_, fun htrue hset hregs hpipe => ?_⟩
  · refine ⟨_, exec_of_stop hcur hgroup hview fun all => checks_of_skip hpass hfalse, ?_⟩
    rw [Group.skipped, stepOn_place]
    refine ⟨rfl, fun hslot => ?_, rfl, rfl, rfl⟩
    rw [stepOn_of_slot (by exact hslot)]
    rfl
  · rw [← now_lt_holdUntil] at hheld
    exact ⟨_, lt_max_of_lt_right (Nat.lt_succ_self s.now), (exec_of_stop hcur hgroup hview fun all => checks_of_held hpass htrue hheld).trans
      (congrArg _ (stayFor_eq ..))⟩
  · have hhold : s.holdUntil w g v f (ownMaps i) ≤ s.now :=
      Nat.not_lt.1 fun hlt => (now_lt_holdUntil.1 hlt).elim (Nat.not_lt.2 hregs) (fun hfull => hfull hpipe)
    have hpass : PassesHold s w g v f (ownMaps i) := ⟨hpass, htrue, hset, hhold⟩
    refine ⟨fun hown hmc hdiffer => ?_, fun hmaps hshort => ?_⟩
    · exact exec_of_stop hcur hgroup hview fun all => checks_of_maps hpass hown hmc hdiffer
    · exact exec_of_stop hcur hgroup hview fun all => (checks_of_maps_agree hpass hmaps).trans (if_pos hshort)

end Sys2Proof.Machine
end

section
/-!
SUPPORT. What follows a performed word (07 R143, R160, R161, R164): its token, the pipe it occupies, and the step to the next slot.
-/

namespace Sys2Proof.Machine

/-! ### The next slot of a line (07 R143) -/

theorem toNat_nextPc {pc : DWord} (h : pc.toNat + 64 < 2 ^ 64) : (nextPc pc).toNat = pc.toNat + if pc.toNat % 64 = 48 then 16 else 12 := by
  rw [nextPc]
  by_cases h48 : pc.toNat % 64 = 48
  · rw [if_pos (beq_iff_eq.2 h48), if_pos h48, BitVec.toNat_add_of_lt (by simp; omega)]
    rfl
  · rw [if_neg (mt beq_iff_eq.1 h48), if_neg h48, BitVec.toNat_add_of_lt (by simp; omega)]
    rfl

/-! ### Tokens -/

section
variable {g : Group} {c : Ctl} {t : Clock} {regs : List RegName} {empty : Bool} {lat : Lat}

theorem setTok?_lt {k : Nat} (h : setTok? c = some k) : k < 6 := by
  rw [setTok?] at h
  split at h
  next hlt => cases h; exact hlt
  next => cases h

theorem tokBusy_setTok_same {k : Nat} (hk : k < 6) (b : Bool) : (g.setTok k b).tokBusy k = b := by
  simp [Group.setTok, Group.tokBusy, hk]

theorem tokBusy_setTok_ne {j k : Nat} (h : k ≠ j) (b : Bool) : (g.setTok j b).tokBusy k = g.tokBusy k := by
  simp [Group.setTok, Group.tokBusy, h.symm]

/-- The token of a result of fixed latency: the group as it was, or with the token that SET names taken until the result is ready. -/
theorem timedTok_cases (g : Group) (c : Ctl) (t : Clock) (regs : List RegName) (empty : Bool) (lat : Lat) :
    g.timedTok c t regs empty lat = g ∨
    ∃ k n, setTok? c = some k ∧ empty = false ∧
      g.timedTok c t regs empty lat = { g.setTok k true with tokAt := g.tokAt ++ [(k, t.now + n * t.cyc)] } := by
  unfold Group.timedTok
  cases hk : setTok? c with
  | none => cases lat <;> exact .inl rfl
  | some k =>
    by_cases hfree : (g.tokBusy k || regs.isEmpty || empty) = true
    · cases lat <;> simp [hfree]
    · have hempty : empty = false := by simp at hfree; exact hfree.2
      cases lat with
      | none => exact .inl rfl
      | fixed n => exact .inr ⟨k, n, rfl, hempty, by simp only [if_neg hfree]⟩
      | vary => exact .inr ⟨k, 1, rfl, hempty, by simp only [if_neg hfree]⟩

/-- It changes the tokens alone. -/
theorem timedTok_tokens (g : Group) (c : Ctl) (t : Clock) (regs : List RegName) (empty : Bool) (lat : Lat) :
    g.timedTok c t regs empty lat =
      { g with tok := (g.timedTok c t regs empty lat).tok, tokAt := (g.timedTok c t regs empty lat).tokAt } := by
  obtain h | ⟨k, n, -, -, h⟩ := timedTok_cases g c t regs empty lat
  · rw [h]
  · rw [h]
    rfl

theorem timedTok_of_empty : g.timedTok c t regs true lat = g := by
  obtain h | ⟨k, n, -, hempty, -⟩ := timedTok_cases g c t regs true lat
  · exact h
  · cases hempty

theorem timedTok_of_fixed {k n : Nat} (hset : setTok? c = some k) (hregs : regs ≠ []) (hfree : g.tokBusy k = false) :
    g.timedTok c t regs false (.fixed n) = { g.setTok k true with tokAt := g.tokAt ++ [(k, t.now + n * t.cyc)] } := by
  simp [Group.timedTok, hset, hregs, hfree]

theorem tokBusy_timedTok_ne {k : Nat} (h : setTok? c ≠ some k) : (g.timedTok c t regs empty lat).tokBusy k = g.tokBusy k := by
  obtain hsame | ⟨j, n, hset, -, htaken⟩ := timedTok_cases g c t regs empty lat
  · rw [hsame]
  · rw [htaken]
    refine tokBusy_setTok_ne ?_ true
    rintro rfl
    exact h hset

end

/-! ### After a performed word -/

section
variable {g : Group} {v : View} {f : Form} {t : Clock} {epoch : Nat} {dsts : List RegName}

/-- What a performed word counts: the time of its issue and of the next one, its column's epoch; nothing is left of its reads, and its group stands
where it stood. -/
theorem after_counts (g : Group) (v : View) (f : Form) (t : Clock) (epoch : Nat) (dsts : List RegName) :
    let h := g.after v f t epoch false dsts
    { h with
      hist := g.hist, ready := g.ready, lastIssue := g.lastIssue, nextAt := g.nextAt, xf := g.xf, lastEpoch := g.lastEpoch, issuedAt := g.issuedAt
      seq := g.seq, paired := g.paired, got := g.got, wgot := g.wgot, fgot := g.fgot, met := g.met, blocked := g.blocked, tok := g.tok
      tokAt := g.tokAt, pipes := g.pipes } = g ∧
    h.xf = [] ∧ h.got = [] ∧ h.wgot = [] ∧ h.fgot = [] ∧ h.met = {} ∧ h.blocked = [] ∧ h.seq = true ∧ h.issuedAt = some t.now ∧
    h.paired = g.pairs v f t.now ∧ h.nextAt = t.now + (if g.pairs v f t.now then 0 else max v.c.stl.toNat 1) * t.cyc ∧ h.lastEpoch = epoch ∧
    h.pc = g.pc ∧ h.mcall = g.mcall := by
  rw [Group.after, timedTok_tokens]
  exact ⟨rfl, rfl, rfl, rfl, rfl, rfl, rfl, rfl, rfl, rfl, rfl, rfl, rfl, rfl⟩

theorem tok_after (g : Group) (v : View) (f : Form) (t : Clock) (epoch : Nat) (dsts : List RegName) : (g.after v f t epoch false dsts).tok =
    ((g.counted v.c t true false (g.pairs v f t.now) dsts f.lat).timedTok v.c t dsts (g.resultMap dsts == some 0) f.lat).tok := by
  rw [Group.after]
  rfl

theorem tokBusy_after_ne {k : Nat} (h : setTok? v.c ≠ some k) : (g.after v f t epoch false dsts).tokBusy k = g.tokBusy k := by
  have hcounted : (g.counted v.c t true false (g.pairs v f t.now) dsts f.lat).tok = g.tok := rfl
  have hkept := tokBusy_timedTok_ne (g := g.counted v.c t true false (g.pairs v f t.now) dsts f.lat) (t := t) (regs := dsts)
    (empty := g.resultMap dsts == some 0) (lat := f.lat) h
  rw [Group.tokBusy, Group.tokBusy, hcounted] at hkept
  rw [Group.tokBusy, tok_after, hkept, Group.tokBusy]

theorem after_tok_of_empty (h : g.resultMap dsts = some 0) :
    (g.after v f t epoch false dsts).tok = g.tok ∧ (g.after v f t epoch false dsts).tokAt = g.tokAt := by
  rw [Group.after, h, BEq.rfl, timedTok_of_empty]
  exact ⟨rfl, rfl⟩

theorem after_tok_of_fixed {k n : Nat} (hset : setTok? v.c = some k) (hlat : f.lat = .fixed n) (hdsts : dsts ≠ []) (hmap : g.resultMap dsts ≠ some 0)
    (hfree : g.tokBusy k = false) :
    (g.after v f t epoch false dsts).tokBusy k = true ∧ (g.after v f t epoch false dsts).tokAt = g.tokAt ++ [(k, t.now + n * t.cyc)] := by
  rw [Group.after, beq_eq_false_iff_ne.2 hmap, hlat, timedTok_of_fixed hset hdsts (by exact hfree)]
  exact ⟨tokBusy_setTok_same (setTok?_lt hset) true, rfl⟩

/-- The pipes still occupied, and the one that the word occupies beyond its cycle. -/
theorem after_pipes (g : Group) (v : View) (f : Form) (t : Clock) (epoch : Nat) (dsts : List RegName) :
    (g.after v f t epoch false dsts).pipes = (g.pipes.filter fun p => t.now < p.2) ++
      if g.beats v.c.ty f.pipe t.upper dsts ≤ 1 then [] else [(f.pipe, t.now + g.beats v.c.ty f.pipe t.upper dsts * t.cyc)] := by
  rw [Group.after, timedTok_tokens]
  rfl

theorem beats_of_map {m : LaneMap} (h : g.resultMap dsts = some m) (ty : Ty) (pipe : Pipe) (upper : Bool) :
    g.beats ty pipe upper dsts = ((lanesOf m).length + 15) / 16 * (if ty = .i64 then 2 else 1) * if pipe = .f ∧ upper = true then 4 else 1 := by
  simp only [Group.beats, h, popc, beq_iff_eq, Bool.and_eq_true]

theorem mem_pipes_of_after {p : Pipe × Nat} (hp : p ∈ (g.after v f t epoch false dsts).pipes) : p ∈ g.pipes ∨ p.1 = f.pipe := by
  rw [after_pipes, List.mem_append, List.mem_filter] at hp
  refine hp.imp And.left fun hnew => ?_
  split at hnew
  next => cases hnew
  next => rw [List.mem_singleton.1 hnew]

theorem after_occupies {m : LaneMap} (hm : g.resultMap dsts = some m) :
    let n := ((lanesOf m).length + 15) / 16 * (if v.c.ty = .i64 then 2 else 1) * if f.pipe = .f ∧ t.upper = true then 4 else 1
    1 < n → (f.pipe, t.now + n * t.cyc) ∈ (g.after v f t epoch false dsts).pipes := by
  intro n hn
  dsimp only [n] at hn ⊢
  rw [after_pipes, beats_of_map hm, if_neg (Nat.not_le.2 hn)]
  exact List.mem_append_right _ (List.mem_singleton_self _)

end

/-- Settles O43: the word's own bookkeeping (`after_counts`, `after_tok_of_fixed`, `after_pipes`), then the step to the next slot or body step, which
changes the group's place alone (`stepOn_place`). -/
theorem performedWordGoesOn : Obligations.PerformedWordGoesOn := by
  intro s u i own all x g' _
  refine ⟨_, rfl, ?_⟩
  obtain ⟨hframe, hxf, hgot, hwgot, hfgot, hmet, hblocked, hseq, hissued, hpaired, hnext, hepoch, hpc, hmcall⟩ :=
    after_counts g' x.v x.f (s.clock x.w.core) (s.col (columnOf x.w.core)).epoch (x.g.dsts x.v x.f)
  have hkept := @tokBusy_after_ne g' x.v x.f (s.clock x.w.core) (s.col (columnOf x.w.core)).epoch (x.g.dsts x.v x.f)
  have hempty := @after_tok_of_empty g' x.v x.f (s.clock x.w.core) (s.col (columnOf x.w.core)).epoch (x.g.dsts x.v x.f)
  have htaken := @after_tok_of_fixed g' x.v x.f (s.clock x.w.core) (s.col (columnOf x.w.core)).epoch (x.g.dsts x.v x.f)
  have hpipes := @mem_pipes_of_after g' x.v x.f (s.clock x.w.core) (s.col (columnOf x.w.core)).epoch (x.g.dsts x.v x.f)
  have hoccupies := @after_occupies g' x.v x.f (s.clock x.w.core) (s.col (columnOf x.w.core)).epoch (x.g.dsts x.v x.f)
  generalize g'.after x.v x.f (s.clock x.w.core) (s.col (columnOf x.w.core)).epoch false (x.g.dsts x.v x.f) = h at *
  generalize s.macrosOf x.r.ctx x.r.lnum = bodies
  have hslot := @stepOn_of_slot h bodies
  have hbody := @stepOn_of_body h bodies
  have hlast := @stepOn_of_last h bodies
  have hplace := stepOn_place h bodies
  generalize h.stepOn bodies = h' at *
  rw [hmcall] at hslot hbody hlast
  rw [hplace]
  refine ⟨?_, hxf, hgot, hwgot, hfgot, hmet, hblocked, hseq, hissued, hpaired, hnext, fun k => hkept, hempty, fun k n => htaken, fun p => hpipes,
    fun m => hoccupies, hepoch,
    fun hnone => ⟨?_, fun line slot hline hlt hbound => ?_, fun line hline hbound => ?_⟩, fun m k hsome => ⟨fun hk => ?_, fun hk => ?_⟩⟩
  · rw [← hframe]
  · rw [hslot hnone]
    exact hnone
  · show h'.pc.toNat = _
    rw [hslot hnone, hpc, toNat_nextPc hbound, if_neg (by omega)]
    omega
  · show h'.pc.toNat = _
    rw [hslot hnone, hpc, toNat_nextPc hbound, if_pos (by omega)]
    omega
  · rw [hbody hsome hk]
    exact ⟨hpc, rfl⟩
  · rw [hlast hsome hk, hpc]
    exact ⟨rfl, rfl⟩

end Sys2Proof.Machine
end

section
/-!
SUPPORT. What a word issues with (07 R159, R168, 10 R229-R231): the lanes' accesses of a walker's read, what they read where nothing of it is
uncorrectable, and the walker's next place.
-/

namespace Sys2Proof.Machine

/-! ### The resident group after a change of it -/

theorem group?_of_wgs {s t : State} (h : t.wgs = s.wgs) (r : GRef) : t.group? r = s.group? r := by
  rw [State.group?, State.group?, State.wgOf, State.wgOf, h]

/-- A group whose own place in its workgroup is kept is found again as it has become. -/
theorem group?_modGroup {s : State} {r : GRef} {w : Workgroup} {g : Group} {f : Group → Group} (hid : ∀ k, (f k).isId r.grp = k.isId r.grp)
    (hgroup : s.group? r = some (w, g)) : (s.modGroup r f).group? r = some (w.modGrp r.grp f, f g) := by
  have hof (u : Workgroup) : (if u.isOf r.ctx r.lnum r.wg then u.modGrp r.grp f else u).isOf r.ctx r.lnum r.wg = u.isOf r.ctx r.lnum r.wg := by
    split <;> rfl
  have hisId (k : Group) : (if k.isId r.grp then f k else k).isId r.grp = k.isId r.grp := by
    split
    · exact hid k
    · rfl
  rw [State.group?] at hgroup
  cases hw : s.wgOf r with
  | none => rw [hw] at hgroup; cases hgroup
  | some u =>
    rw [hw] at hgroup
    obtain ⟨k, hk, hkg⟩ := Option.map_eq_some_iff.1 hgroup
    cases hkg
    have hwg : (s.modGroup r f).wgOf r = some (w.modGrp r.grp f) := by
      simp only [State.wgOf, State.modGroup_wgs, List.find?_map, Function.comp_def, hof]
      rw [State.wgOf] at hw
      rw [hw, Option.map_some, if_pos (List.find?_some hw)]
    have hgrp : (w.modGrp r.grp f).grp r.grp = some (f g) := by
      simp only [Workgroup.grp, Workgroup.modGrp, List.find?_map, Function.comp_def, hisId]
      rw [Workgroup.grp] at hk
      rw [hk, Option.map_some, if_pos (List.find?_some hk)]
    rw [State.group?, hwg]
    exact congrArg (Option.map _) hgrp

/-! ### Reads leave the workgroups -/

theorem foldl_wgs {α : Type} (f : State → α → State) (h : ∀ (s : State) a, (f s a).wgs = s.wgs) (l : List α) (s : State) :
    (l.foldl f s).wgs = s.wgs :=
  List.foldlRecOn (motive := fun t => t.wgs = s.wgs) l f rfl fun t ht a _ => (h t a).trans ht

theorem countBad_wgs (s : State) (bs : List Loc) : (s.countBad bs).wgs = s.wgs :=
  foldl_wgs _ (fun (t : State) b => by
    split
    · split
      · rfl
      · split <;> rfl
    · rfl) _ _

theorem injTake_wgs (s : State) : s.injTake.wgs = s.wgs := by
  unfold State.injTake
  dsimp only
  split <;> split <;> rfl

theorem countMet_wgs (s : State) (core : Nat) (old new : Met) : (s.countMet core old new).wgs = s.wgs := by
  unfold State.countMet
  extract_lets t ws
  have ht : t.wgs = s.wgs := (countBad_wgs _ _).trans (by split; exacts [rfl, injTake_wgs s])
  split
  · exact ht
  · exact ht

theorem look_wgs (s : State) (c : Nat) (rs : List (Loc × Nat)) : (s.look c rs).wgs = s.wgs := by
  rw [State.look]
  split <;> rfl

theorem readAll_wgs (s : State) (core : Nat) (h : Fill) (ls : List (Nat × List Piece)) (m : Met) : (s.readAll core h ls m).2.2.wgs = s.wgs := by
  rw [State.readAll]
  refine (foldl_wgs _ (fun t p => foldl_wgs _ (fun u q => ?_) _ _) _ _).trans ?_
  · split
    · rw [State.copyPeer]
      split <;> rfl
    · rfl
  · exact (look_wgs _ _ _).trans (countMet_wgs _ _ _ _)

/-! ### Reads where nothing is uncorrectable -/

/-- A piece of an access lies in this device and can be read now, and no copy of it has an uncorrectable word. -/
def State.clear (s : State) (core : Nat) (q : Piece) : Prop :=
  ∃ l mt, q.1 = .mem l mt ∧ s.readable (some (columnOf core)) l q.2 ∧ (s.cluster (clusterOf core)).badWords l q.2 = []

/-- The bytes of a piece that lies in this device. -/
def State.hereBytes (s : State) (col : Nat) (q : Piece) : List Byte := match q.1 with
  | .mem l _ => s.colRead col l q.2
  | .peer .. => []

/-- What a read of pieces in this device gives where it meets no uncorrectable unit. -/
def State.hereGot (s : State) (col : Nat) (ps : List Piece) : Got := { parts := ps.map fun q => .here (s.hereBytes col q), bad := none }

theorem bytes_hereGot (s : State) (col : Nat) (ps : List Piece) : (s.hereGot col ps).bytes = ps.flatMap (s.hereBytes col) := by
  simp only [State.hereGot, Got.bytes, List.flatMap_map]

/-- Bytes that are here put no question to a peer. -/
theorem missing_hereGot (s t : State) (g : Group) (op : ObjOp) (col : Nat) (ps : List Piece) : s.missing g op (t.hereGot col ps) = [] := by
  simp [State.missing, State.hereGot, PeerPart.ask]

theorem settled_hereGot (s t : State) (g : Group) (op : ObjOp) (col : Nat) (ps : List Piece) : s.settled g op (t.hereGot col ps) = t.hereGot col ps := by
  simp [State.settled, State.hereGot, PeerPart.ask]

section
variable {s : State} {core : Nat} {as : List (Nat × List Piece)}

theorem anyHeld_of_clear (h : ∀ p ∈ as, ∀ q ∈ p.2, s.clear core q) : s.anyHeld core as = false := by
  rw [State.anyHeld, Bool.eq_false_iff]
  intro hheld
  obtain ⟨p, hp, hany⟩ := List.any_eq_true.1 hheld
  obtain ⟨q, hq, hwaits⟩ := List.any_eq_true.1 hany
  obtain ⟨l, mt, hmem, hread, -⟩ := h p hp q hq
  rw [hmem] at hwaits
  exact absurd (hread.1.symm.trans hwaits) Bool.false_ne_true

/-- Where no error is armed for any range of a list, a read of some of them meets none. -/
theorem injMet_of_ranges {far : List (Loc × Nat)} (h : ∀ x ∈ far, s.injHits [x] = false) : s.injMet {} far = [] := by
  have hnone : s.injHits far = false := by
    rw [State.injHits, Bool.and_eq_false_iff, or_iff_not_imp_left, Bool.not_eq_false, List.any_eq_false]
    intro harmed x hx
    have hx := h x hx
    rw [State.injHits, harmed] at hx
    simpa using hx
  simp [State.injMet, hnone]

/-- Ranges that can all be read, of whose copies no word is uncorrectable, show no uncorrectable unit. -/
theorem meets_units_of_ranges {mems : List (Loc × Nat × Nat)}
    (h : ∀ x ∈ mems, s.readable (some (columnOf core)) x.1 x.2.1 ∧ (s.cluster (clusterOf core)).badWords x.1 x.2.1 = [])
    (fill : Fill) {x : Loc × Nat × Nat} (hx : x ∈ mems) : (s.meets core fill true mems {}).1 x.1 x.2.1 = [] := by
  obtain ⟨⟨-, hbad, -⟩, hwords⟩ := h x hx
  have hinj (p : Loc × Nat × Nat → Bool) : s.injMet {} ((mems.filter p).map fun y => (y.1, y.2.1)) = [] := by
    refine injMet_of_ranges fun y hy => ?_
    obtain ⟨z, hz, rfl⟩ := List.mem_map.1 hy
    exact (h z (List.mem_of_mem_filter hz)).1.2.2
  simp only [State.meets, hinj, ite_self, hwords, unitsAt_nil hbad, List.map_nil]

theorem mem_memsOf_of_clear {ps : List Piece} (h : ∀ q ∈ ps, s.clear core q) {x : Loc × Nat × Nat} (hx : x ∈ memsOf ps) :
    s.readable (some (columnOf core)) x.1 x.2.1 ∧ (s.cluster (clusterOf core)).badWords x.1 x.2.1 = [] := by
  obtain ⟨q, hq, hqx⟩ := List.mem_filterMap.1 hx
  obtain ⟨l, mt, hmem, hread, hwords⟩ := h q hq
  rw [hmem] at hqx
  cases hqx
  exact ⟨hread, hwords⟩

/-- A read of accesses that are clear gives each lane its bytes. -/
theorem readAll_of_clear (h : ∀ p ∈ as, ∀ q ∈ p.2, s.clear core q) (fill : Fill) :
    (s.readAll core fill as {}).1 = as.map fun p => (p.1, s.hereGot (columnOf core) p.2) := by
  have hranges : ∀ x ∈ as.flatMap fun p => memsOf p.2,
      s.readable (some (columnOf core)) x.1 x.2.1 ∧ (s.cluster (clusterOf core)).badWords x.1 x.2.1 = [] := by
    intro x hx
    obtain ⟨p, hp, hxp⟩ := List.mem_flatMap.1 hx
    exact mem_memsOf_of_clear (h p hp) hxp
  rw [State.readAll]
  refine List.map_congr_left fun p hp => Prod.ext rfl ?_
  rw [State.hereGot, Got.mk.injEq]
  constructor
  · refine List.map_congr_left fun q hq => ?_
    obtain ⟨l, mt, hmem, -, -⟩ := h p hp q hq
    simp only [State.hereBytes, hmem]
  · refine (congrArg lowestBad (List.flatMap_eq_nil_iff.2 fun q hq => ?_)).trans rfl
    obtain ⟨l, mt, hmem, -, -⟩ := h p hp q hq
    have hx : (l, q.2, mt) ∈ as.flatMap fun p => memsOf p.2 :=
      List.mem_flatMap.2 ⟨p, hp, List.mem_filterMap.2 ⟨q, hq, by simp only [hmem]⟩⟩
    simp only [hmem]
    exact meets_units_of_ranges hranges fill hx

end

/-! ### A walker's read -/

/-- The lanes of accesses are those that the accesses were asked for. -/
theorem laneAccess_lanes {s : State} {r : GRef} {w : Workgroup} {g : Group} {space : Nat} {acc : Access} {ls : List (Nat × Int × Nat)}
    {as : List (Nat × List Piece)} (h : s.laneAccess r w g space acc ls = .ok as) : as.map Prod.fst = ls.map Prod.fst := by
  unfold State.laneAccess at h
  split at h
  · split at h
    · cases h
    · cases h
      simp
  · dsimp only at h
    split at h
    · cases h
    · split at h
      · cases h
      · cases h
        simp

/-- Looking up in turn the keys of a list in which those of an association list stand, in their order, gives the association list. -/
theorem filterMap_find?_of_sublist {α β : Type} (f : α → β) {ks : List Nat} (hnodup : ks.Nodup) {xs : List (Nat × α)}
    (hsub : (xs.map Prod.fst).Sublist ks) :
    (ks.filterMap fun k => (xs.find? fun p => p.1 == k).map fun p => (k, f p.2)) = xs.map fun p => (p.1, f p.2) := by
  induction ks generalizing xs with
  | nil => simp [List.map_eq_nil_iff.1 (List.sublist_nil.1 hsub)]
  | cons k ks ih =>
    obtain ⟨hk, hks⟩ := List.nodup_cons.1 hnodup
    by_cases hhead : ∃ x xs', xs = (k, x) :: xs'
    · obtain ⟨x, xs', rfl⟩ := hhead
      have hsub' : (xs'.map Prod.fst).Sublist ks := List.cons_sublist_cons.1 hsub
      have hrest : ∀ k' ∈ ks, (((k, x) :: xs').find? fun p => p.1 == k') = xs'.find? fun p => p.1 == k' := fun k' hk' =>
        List.find?_cons_of_neg (by simpa using fun h : k = k' => hk (h ▸ hk'))
      rw [List.filterMap_cons_some (b := (k, f x)) (by simp), List.map_cons, ← ih hks hsub']
      refine congrArg _ (List.filterMap_congr fun k' hk' => ?_)
      rw [hrest k' hk']
    · have hsub' : (xs.map Prod.fst).Sublist ks := by
        cases xs with
        | nil => simp
        | cons x xs =>
          rcases List.sublist_cons_iff.1 hsub with h | ⟨l, hl, hs⟩
          · exact h
          · rw [List.map_cons, List.cons.injEq] at hl
            exact absurd ⟨x.2, xs, by rw [← hl.1]⟩ hhead
      have hnone : (xs.find? fun p => p.1 == k) = none := by
        rw [List.find?_eq_none]
        intro p hp hpk
        exact hk (hsub'.subset (List.mem_map.2 ⟨p, hp, beq_iff_eq.1 hpk⟩))
      rw [List.filterMap_cons_none (by simp [hnone]), ih hks hsub']

theorem nodup_lanesOf (m : LaneMap) : (lanesOf m).Nodup := List.nodup_range.filter _

/-- The lanes that a walker gives an element stand in the order of the map. -/
theorem walkerAccess_lanes {s : State} {e : Env} {m : LaneMap} {n : Nat} {as : List (Nat × List Piece)} (h : s.walkerAccess e m n = .ok as) :
    (as.map Prod.fst).Sublist (lanesOf m) := by
  rw [laneAccess_lanes h]
  generalize lanesOf m = ls
  induction ls with
  | nil => simp
  | cons l ls ih =>
    cases helem : (e.g.walker n).elem l with
    | none =>
      rw [List.filterMap_cons_none (by rw [helem]; rfl)]
      exact ih.cons l
    | some a =>
      rw [List.filterMap_cons_some (b := (l, a, tyBytes (e.g.walker n).ty)) (by rw [helem]; rfl)]
      exact ih.cons_cons l

section
variable {s : State} {e : Env} {m : LaneMap} {n : Nat} {w : Workgroup} {g : Group}

/-- A walker's read whose lanes met no uncorrectable unit: the walker goes on, and no lane dies. -/
theorem walkerDone_of_good {gs : List (Nat × Got)} (hgood : ∀ p ∈ gs, p.2.bad = none) (hgroup : s.group? e.r = some (w, g)) :
    s.walkerDone e m n gs = .ok
      { e with
        wv := e.wv ++ [(n, (lanesOf m).filterMap fun l => (gs.find? fun p => p.1 == l).map fun p =>
          (l, (regWords (e.g.walker n).ty p.2.bytes).headD 0))]
        g := { g.setW n (e.g.walker n).advance with hist := e.g.hist } }
      (s.modGroup e.r fun k => k.setW n (e.g.walker n).advance) := by
  have hbad : (gs.filterMap fun p => p.2.bad.map fun b => (p.1, b)) = [] := by
    rw [List.filterMap_eq_nil_iff]
    intro p hp
    rw [hgood p hp]
    rfl
  have hfound := group?_modGroup (f := fun k => k.setW n (e.g.walker n).advance) (fun _ => rfl) hgroup
  simp only [State.walkerDone, hbad, State.killBad, List.map_nil, lowestBad, List.filter_nil, List.head?_nil, hfound]
  rfl

/-- A walker's read whose accesses are all clear, at its first try (10 R230). -/
theorem readWalker_of_clear {as : List (Nat × List Piece)} (hgroup : s.group? e.r = some (w, g)) (hwgot : e.g.wgot = []) (hmet : e.met = {})
    (haccess : s.walkerAccess e m n = .ok as) (hclear : ∀ p ∈ as, ∀ q ∈ p.2, s.clear e.w.core q) :
    let y := s.readAll e.w.core (.load (e.g.walker n).ch) as {}
    s.readWalker e m n = .ok
      { e with
        met := y.2.1
        wv := e.wv ++ [(n, as.map fun p => (p.1, (regWords (e.g.walker n).ty (p.2.flatMap (s.hereBytes (columnOf e.w.core)))).headD 0))]
        g := { g.setW n (e.g.walker n).advance with hist := e.g.hist } }
      (y.2.2.modGroup e.r fun k => k.setW n (e.g.walker n).advance) := by
  intro y
  have hread : y.1 = as.map fun p => (p.1, s.hereGot (columnOf e.w.core) p.2) := readAll_of_clear hclear _
  have hasks : (y.1.flatMap fun p => s.missing e.g .read p.2) = [] := by
    rw [hread, List.flatMap_map]
    exact List.flatMap_eq_nil_iff.2 fun p _ => missing_hereGot ..
  have hsettled : (y.1.map fun p => (p.1, s.settled e.g .read p.2)) = y.1 := by
    rw [hread, List.map_map]
    exact List.map_congr_left fun p _ => Prod.ext rfl (settled_hereGot ..)
  have hdone : s.readWalker e m n = y.2.2.walkerDone { e with met := y.2.1 } m n y.1 := by
    simp only [State.readWalker, hwgot, List.find?_nil, haccess, anyHeld_of_clear hclear, hmet]
    exact (if_pos (List.isEmpty_iff.2 hasks)).trans (congrArg _ hsettled)
  have hvals : ((lanesOf m).filterMap fun l => (y.1.find? fun p => p.1 == l).map fun p => (l, (regWords (e.g.walker n).ty p.2.bytes).headD 0)) =
      as.map fun p => (p.1, (regWords (e.g.walker n).ty (p.2.flatMap (s.hereBytes (columnOf e.w.core)))).headD 0) := by
    rw [hread, filterMap_find?_of_sublist (fun x : Got => (regWords (e.g.walker n).ty x.bytes).headD 0) (nodup_lanesOf m)
      (by rw [List.map_map]; exact walkerAccess_lanes haccess), List.map_map]
    exact List.map_congr_left fun p _ => by rw [Function.comp_apply, bytes_hereGot]
  have hgood : ∀ p ∈ y.1, p.2.bad = none := by
    rw [hread]
    intro p hp
    obtain ⟨q, -, rfl⟩ := List.mem_map.1 hp
    rfl
  rw [hdone, ← hvals]
  exact walkerDone_of_good (e := { e with met := y.2.1 }) hgood ((group?_of_wgs (readAll_wgs ..) e.r).trans hgroup)

/-- Where no step is taken lane by lane, one walker is read as it is alone. -/
theorem readWalkers_single (hsplit : s.split = false) {e' : Env} {t : State} (h : s.readWalker e m n = .ok e' t) :
    s.readWalkers e m [n] = .ok e' t := by
  have hpark : s.walkersPark e m [n] = none := by simp [State.walkersPark, hsplit]
  simp only [State.readWalkers, hpark, State.readEach, h]

theorem readWalkers_nil : s.readWalkers e m [] = .ok e s := by
  have hpark : s.walkersPark e m [] = none := by simp [State.walkersPark]
  simp only [State.readWalkers, hpark, State.readEach]

end

/-! ### What a word issues with -/

section
variable {s : State} {i : Instr} {r : GRef} {w : Workgroup} {g g1 : Group} {v : View} {f : Form} {own all : Bool}

/-- What a word whose walkers are still to be read sees: its group and its fields, for a map of lanes. -/
def State.envAt (s : State) (r : GRef) (w : Workgroup) (g : Group) (v : View) (m : LaneMap) : Env :=
  { r, w, g, c := v.c, m, wv := [], fr := s.free, epoch := (s.col (columnOf w.core)).epoch, met := g.met, now := s.now }

/-- Where no lane's word is uncorrectable, a word runs with what its walkers give it. -/
theorem readied_of_good (hgood : ∀ b ∈ g1.vbad, RegName.v b.1 ∈ srcRegs v f → b.2 &&& g1.live = 0) (hlive : g1.live ≠ 0) {e : Env} {t : State}
    (hread : s.readWalkers (s.envAt r w g1 v (if all then g1.live else g1.rmap v f)) (if all then g1.live else g1.rmap v f)
      ((walkersRead v f).map (·.val)).eraseDups = .ok e t) (helive : e.g.live ≠ 0) :
    s.readied r w g g1 v f all = .go { e with m := e.g.rmap v f } t := by
  have hwords : (g1.vbad.filter fun b => (srcRegs v f).contains (.v b.1) && b.2 &&& g1.live != 0) = [] := by
    rw [List.filter_eq_nil_iff]
    intro b hb hbad
    simp only [Bool.and_eq_true, List.contains_iff_mem, bne_iff_ne] at hbad
    exact hbad.2 (hgood b hb hbad.1)
  unfold State.envAt at hread
  simp only [State.readied, hwords, List.eraseDups_nil, List.foldl_nil, BEq.rfl, if_true, bne_self_eq_false, Bool.false_and, Bool.false_eq_true, if_false,
    beq_iff_eq, hlive, hread, helive]

/-- A word that passes every check before its walkers issues with what they give it. -/
theorem issuing_of_readied (hcur : s.cur = some r) (hgroup : s.group? r = some (w, g)) (hview : viewForm i = some (v, f))
    (hpass : PassesHold s w g v f own) (hmaps : own = true ∨ v.c.mc = false ∨ g.mapsDiffer v f = false)
    (hstall : (g.markWaited v.c).stallShort (g.named v f ++ guardRegs v.c) = false) {e : Env} {t : State}
    (hready : s.readied r w g (g.markWaited v.c) v f all = .go e t) : s.issuing i own all = some { r, w, g, v, f, e, t } := by
  have hchecks : s.checks r w g v f own all = .go e t := by
    rw [checks_of_maps_agree hpass hmaps, if_neg (by simp [hstall]), hready]
  simp only [State.issuing, hcur, hgroup, hview, hchecks]

end

/-! ### The place of a walker (10 R230) -/

section
variable {k : Walker}

theorem elem_of_run (h : k.done = false) (l : Nat) : k.elem l =
    if (k.i[0]?.getD 0).toNat + l < (k.n[0]?.getD 0).toNat then
      some ((k.base.toNat : Int) + ((k.i[0]?.getD 0).toNat + l) * tyBytes k.ty + (k.i[1]?.getD 0).toNat * (k.stride[0]?.getD 0).toInt +
        (k.i[2]?.getD 0).toNat * (k.stride[1]?.getD 0).toInt + (k.i[3]?.getD 0).toNat * (k.stride[2]?.getD 0).toInt)
    else none := by
  simp only [Walker.elem, h, Bool.not_false, Bool.true_and, decide_eq_true_eq]
  refine if_congr Iff.rfl (congrArg some ?_) rfl
  simp only [List.range_succ, List.range_zero, List.nil_append, List.cons_append, List.map_cons, List.map_nil, List.foldl_cons, List.foldl_nil, Nat.cast_add]
  ring

end

/-- The premises that the statement gives on tokens, guards and registers are the checks before the pipe. -/
theorem passesHold_of_clear {s : State} {w : Workgroup} {g : Group} {v : View} {f : Form} {own : Bool}
    (hstatic : staticFault (isUpper w.core) g.handler w.desc.nreg v f = none)
    (hwait : ∀ k, k < 6 → v.c.wait.getLsbD k = true → g.tokBusy k = false) (hguard1 : g.guard v.c.g1 = true) (hguard2 : g.guard v.c.g2 = true)
    (hset : ∀ k, setTok? v.c = some k → g.tokBusy k = false)
    (hregs : ∀ x ∈ g.named v f ++ guardRegs v.c, (∀ p ∈ g.pend, x ∉ p.regs) ∧ ∀ t, (x, t) ∈ g.ready → t ≤ s.now)
    (hpipe : s.pipeOpen w g v f own) : PassesHold s w g v f own := by
  refine ⟨⟨hstatic, ?_, ?_⟩, ?_, ?_, ?_⟩
  · simp only [Group.waitOk, List.all_eq_true, List.mem_range, Bool.not_eq_true', Bool.and_eq_false_iff]
    intro k hk
    cases hbit : v.c.wait.getLsbD k with
    | false => exact .inl rfl
    | true => exact .inr (hwait k hk hbit)
  · exact (interlock_le fun x hx => hregs x (List.mem_append_right _ hx)).le
  · rw [Group.guards, hguard1, hguard2]
    rfl
  · rw [Group.setOk]
    cases hk : setTok? v.c with
    | none => rfl
    | some k => simp [hset k hk]
  · refine Nat.not_lt.1 fun hlt => (now_lt_holdUntil.1 hlt).elim (fun hlate => ?_) (fun hfull => hfull hpipe)
    rw [interlock_le fun x hx => hregs x (List.mem_append_left _ hx)] at hlate
    exact lt_irrefl _ hlate

/-- Settles O39: the premises are the checks before the walkers (`passesHold_of_clear`); a word that reads one runs with what the walker gave its lanes
(`readWalker_of_clear`, `readied_of_good`); the walker's next place is one of `advance`'s branches. -/
theorem issuesWhereChecksPass : Obligations.IssuesWhereChecksPass := by
  refine ⟨?_, ?_⟩
  · intro s i own all r w g v f hcur hgroup hview hstatic hwait hguard1 hguard2 hset hregs hpipe hmaps hstall hgood hlive col g1 e
    have hpass := passesHold_of_clear hstatic hwait hguard1 hguard2 hset hregs hpipe
    have hagree : own = true ∨ v.c.mc = false ∨ g.mapsDiffer v f = false := by
      cases own with
      | true => exact .inl rfl
      | false => cases hmc : v.c.mc with
        | false => exact .inr (.inl rfl)
        | true => exact .inr (.inr (hmaps rfl hmc))
    have hgood1 : ∀ b ∈ g1.vbad, RegName.v b.1 ∈ srcRegs v f → b.2 &&& g1.live = 0 := hgood
    have hlive1 : g1.live ≠ 0 := hlive
    refine ⟨fun hnone => ?_, fun n as hone hsplit hwgot hmet => ?_⟩
    · have hread : s.readWalkers (s.envAt r w g1 v (if all then g1.live else g1.rmap v f)) (if all then g1.live else g1.rmap v f)
          ((walkersRead v f).map (·.val)).eraseDups = .ok (s.envAt r w g1 v (if all then g1.live else g1.rmap v f)) s := by
        rw [hnone]
        exact readWalkers_nil
      exact issuing_of_readied hcur hgroup hview hpass hagree hstall (readied_of_good hgood1 hlive1 hread hlive1)
    · intro k haccess hclear y
      have hread := readWalker_of_clear (e := s.envAt r w g1 v (if all then g1.live else g1.rmap v f)) (m := if all then g1.live else g1.rmap v f)
        hgroup hwgot hmet haccess hclear
      have hwalked := readWalkers_single hsplit hread
      rw [← hone] at hwalked
      exact issuing_of_readied hcur hgroup hview hpass hagree hstall (readied_of_good (g := g) hgood1 hlive1 hwalked hlive)
  · intro k l n i d at_
    refine ⟨fun hdone => ⟨by simp [Walker.elem, hdone], by simp [Walker.advance, hdone]⟩, fun hrun => ⟨elem_of_run hrun l, ?_⟩⟩
    have hadvance : k.advance = if i 0 + 64 < n 0 then { k with i := at_ (i 0 + 64) (i 1) (i 2) (i 3) }
      else if i 1 + 1 < n 1 then { k with i := at_ 0 (i 1 + 1) (i 2) (i 3), eod := k.eod ||| 1 }
      else if i 2 + 1 < n 2 then { k with i := at_ 0 0 (i 2 + 1) (i 3), eod := k.eod ||| 3 }
      else if i 3 + 1 < n 3 then { k with i := at_ 0 0 0 (i 3 + 1), eod := k.eod ||| 7 }
      else { k with i := at_ 0 0 0 0, eod := k.eod ||| 15, done := true } := by
      simp only [Walker.advance, hrun, Bool.false_eq_true, if_false]
      rfl
    rw [hadvance]
    refine ⟨fun h0 => if_pos h0, fun h0 h1 => ?_, fun h0 h1 h2 => ?_, fun h0 h1 h2 h3 => ?_, fun h0 h1 h2 h3 => ?_⟩
    · rw [if_neg (Nat.not_lt.2 h0), if_pos h1]
    · rw [if_neg (Nat.not_lt.2 h0), if_neg (Nat.not_lt.2 h1), if_pos h2]
    · rw [if_neg (Nat.not_lt.2 h0), if_neg (Nat.not_lt.2 h1), if_neg (Nat.not_lt.2 h2), if_pos h3]
    · rw [if_neg (Nat.not_lt.2 h0), if_neg (Nat.not_lt.2 h1), if_neg (Nat.not_lt.2 h2), if_neg (Nat.not_lt.2 h3)]

end Sys2Proof.Machine
end

section
/-!
SUPPORT. What a word in issue answers: the answer of its meaning is the device's next state. Lemmas of this kind for the shapes of answer that the map,
lane, flow and trap forms share, and for the meanings that choose by FN.
-/

namespace Sys2Proof.Machine

section
variable {i : Instr} {own all : Bool}

/-- A word that issues goes on with the answer of its meaning. -/
theorem exec_of_issuing {body : View → Env → State → Act} (hexec : ∀ s, exec i s = issueWord i s own all body) {s : State} {x : Issuing}
    (hx : s.issuing i own all = some x) : exec i s = .next (x.next s (body x.v x.e x.t)) :=
  (hexec s).trans (issueWord_of_issuing body hx)

/-- A word that issues goes on with an answer that its meaning is known to give. -/
theorem exec_of_answer {body : View → Env → State → Act} (hexec : ∀ s, exec i s = issueWord i s own all body) {s : State} {x : Issuing}
    (hx : s.issuing i own all = some x) {a : Act} (ha : body x.v x.e x.t = a) : exec i s = .next (x.next s a) :=
  ha ▸ exec_of_issuing hexec hx

/-- A word whose meaning always performs a change of its group completes with it. -/
theorem makes_of_done {body : View → Env → State → Act} {g' : Env → Group} (hexec : ∀ s, exec i s = issueWord i s own false body)
    (hbody : ∀ v e t, body v e t = .done t (g' e)) : Makes i own g' := fun s x hx => by
  rw [exec_of_issuing hexec hx, hbody]

/-- A word that computes a result on the lanes of a map, into what its view has as a destination, writes that result. -/
theorem exists_written_of_compute {s : State} {x : Issuing} {ty : Ty} {d d' : Operand} {m : LaneMap} {f : Nat → Nat × Flags} (hd : d' = d)
    (hexec : exec i s = .next (x.next s (.done x.t (x.e.compute ty d' m f)))) :
    ∃ g', exec i s = .next (x.next s (.done x.t g')) ∧ Written x.e.g g' ty d m f := by
  subst hd
  exact ⟨_, hexec, compute_written ..⟩

end

/-- FN as the forms with four variants tell them apart: 0, 1, 2, and the rest. -/
theorem fn_cases (fn : BitVec 4) : fn = 0 ∨ fn = 1 ∨ fn = 2 ∨ fn ≠ 0 ∧ fn ≠ 1 ∧ fn ≠ 2 ∧ ∃ n, fn.toNat = n + 3 := by
  by_cases hlow : fn = 0 ∨ fn = 1 ∨ fn = 2
  · tauto
  · simp only [not_or] at hlow
    obtain ⟨h0, h1, h2⟩ := hlow
    have hge : 3 ≤ fn.toNat := by bv_omega
    exact .inr (.inr (.inr ⟨h0, h1, h2, Nat.exists_eq_add_of_le' hge⟩))

theorem toNat_beq_zero (fn : BitVec 4) : (fn.toNat == 0) = decide (fn = 0) := by
  rw [Bool.eq_iff_iff, beq_iff_eq, decide_eq_true_iff, BitVec.toNat_eq]
  rfl

end Sys2Proof.Machine
end

section
/-!
SUPPORT. Map forms (08 R184) and the forms that build registers from maps (08 R185, R186).
-/

namespace Sys2Proof.Machine

/-- Settles O6: each map form performs one write of its group (`makes_of_done`); MFIND's end and MTST's test are chosen by FN. -/
theorem mapFormsComplete : Obligations.MapFormsComplete := by
  refine ⟨?_, ?_, ?_, ?_, ?_, ?_, ?_, ?_, ?_, ?_, fun c o => ?mfind, ?_, fun c o => ?mtst⟩
  case mfind =>
    refine makes_of_done (fun _ => rfl) fun v e t => ?_
    simp only [findLane, beq_iff_eq]
  case mtst =>
    refine makes_of_done (fun _ => rfl) fun v e t => ?_
    obtain h | h | h | ⟨h0, h1, h2, n, hn⟩ := fn_cases c.fn
    · simp [h]
    · simp [h]
    · simp [h]
    · simp only [hn, h0, h1, h2, if_false]
  all_goals exact fun _ _ => makes_of_done (fun _ => rfl) fun _ _ _ => rfl

/-! ### COMPACT -/

theorem length_lanesOf_le (m : LaneMap) : (lanesOf m).length ≤ 64 :=
  (List.length_filter_le _ _).trans_eq List.length_range

theorem vget?_cons (n : Nat) (v : Word) (r : VReg) (k : Nat) : vget? ((n, v) :: r) k = if n = k then some v else vget? r k := by
  by_cases h : n = k <;> simp [vget?, h]

/-- A register moved by a list holds at a position what it held at the place that the list names there. -/
theorem vget?_moveReg (r : VReg) (ls : List Nat) (k : Nat) : vget? (moveReg r ls) k = ls[k]?.bind (vget? r) := by
  suffices h : ∀ n, vget? ((ls.zipIdx n).filterMap fun p => (vget? r p.1).map fun x => (p.2, x)) k =
      if n ≤ k then ls[k - n]?.bind (vget? r) else none by
    exact h 0
  induction ls with
  | nil => intro n; simp [vget?]
  | cons l ls ih =>
    intro n
    have hrest : (if n ≤ k then (l :: ls)[k - n]?.bind (vget? r) else none) =
        if n = k then vget? r l else if n + 1 ≤ k then ls[k - (n + 1)]?.bind (vget? r) else none := by
      obtain hk | rfl | hk := Nat.lt_trichotomy n k
      · rw [if_pos hk.le, if_neg hk.ne, if_pos (Nat.succ_le_of_lt hk), List.getElem?_cons, if_neg (by omega), Nat.sub_sub]
      · simp
      · rw [if_neg (by omega), if_neg (by omega), if_neg (by omega)]
    rw [hrest, ← ih (n + 1), List.zipIdx_cons, List.filterMap_cons]
    cases vget? r l with
    | some v => exact vget?_cons ..
    | none => exact (ite_eq_right_iff.2 fun hk => ((ih (n + 1)).trans (if_neg (by omega))).symm).symm

/-- A map moved by a list holds the positions at which the list names one of its lanes. -/
theorem getLsbD_moveMap (m : LaneMap) {ls : List Nat} (hls : ls.length ≤ 64) (k : Nat) :
    (moveMap m ls).getLsbD k = ls[k]?.any fun l => m.getLsbD l := by
  rw [moveMap, getLsbD_mapOf, Bool.eq_iff_iff, Bool.and_eq_true, decide_eq_true_iff, List.contains_iff_mem, List.mem_filterMap]
  constructor
  · rintro ⟨-, ⟨l, n⟩, hmem, hn⟩
    obtain ⟨hl, hn⟩ := Option.ite_none_right_eq_some.1 hn
    cases hn
    rw [List.mem_zipIdx_iff_getElem?.1 hmem]
    exact hl
  · intro hany
    obtain ⟨l, hk, hl⟩ := (Option.any_eq_true _ _).1 hany
    exact ⟨(List.getElem?_eq_some_iff.1 hk).1.trans_le hls, (l, k), List.mem_zipIdx_iff_getElem?.2 hk, if_pos hl⟩

section
variable (g : Group)

theorem compacted_vreg {n : Nat} (hn : n < 128) : g.compacted.vreg n = moveReg (g.vreg n) (lanesOf g.live) := by
  simp [Group.compacted, Group.vreg, hn]

theorem compacted_m {n : Nat} (hn : n < 14) : g.compacted.m[n]?.getD 0 = moveMap (g.m[n]?.getD 0) (lanesOf g.live) := by
  simp [Group.compacted, hn]

theorem compacted_tidOf {k l : Nat} (h : (lanesOf g.live)[k]? = some l) : g.compacted.tidOf k = g.tidOf l := by
  have hk : k < 64 := (List.getElem?_eq_some_iff.1 h).1.trans_le (length_lanesOf_le g.live)
  simp [Group.compacted, Group.tidOf, hk, h]

/-- COMPACT changes nothing else. -/
theorem compacted_rest : { g.compacted with v := g.v, vbad := g.vbad, m := g.m, tid := g.tid, live := g.live, dead := g.dead } = g := by
  rw [Group.compacted]

/-- A group is quiet where nothing is in flight to it and no token of it is busy. -/
theorem quiet_of_idle (hpend : g.pend = []) (htok : ∀ k, g.tokBusy k = false) : g.quiet = true := by
  simp only [Group.quiet, hpend, List.isEmpty_nil, Bool.true_and, List.all_eq_true, Bool.not_eq_true']
  intro b hb
  obtain ⟨k, hk, rfl⟩ := List.mem_iff_getElem.1 hb
  simpa [Group.tokBusy, Vector.getElem?_eq_getElem (show k < 6 by simpa using hk)] using htok k

end

/-- Settles O7: RESTRICT, MERGE and FILL compute on their map (`exists_written_of_compute`); COMPACT moves the registers, the maps and the thread
identifiers by the list of its live lanes (`vget?_moveReg`, `getLsbD_moveMap`). -/
theorem mapRegisterFormsComplete : Obligations.MapRegisterFormsComplete := by
  refine ⟨?_, ?_, ?_, ?_⟩
  · intro c o s x hx
    exact exists_written_of_compute (issuing_field View.d hx rfl) (exec_of_issuing (fun _ => rfl) hx)
  · intro c o s x hx hadmit
    have hfree : (c.mc && x.e.g.omap (rd [.v] c.ty) o.a &&& x.e.g.omap (rd [.v] c.ty) o.b != 0) = false := by
      simpa [or_iff_not_imp_left] using hadmit
    have hexec := exec_of_issuing (fun _ => rfl) hx
    have hval (l : Nat) : x.e.val c.ty (if (x.e.g.omap (rd [.v] c.ty) o.a).getLsbD l then o.a else o.b) l =
        if (x.e.g.omap (rd [.v] c.ty) o.a).getLsbD l then x.e.val c.ty o.a l else x.e.val c.ty o.b l :=
      apply_ite (x.e.val c.ty · l) ..
    simp only [hfree, Bool.false_eq_true, if_false, hval] at hexec
    exact exists_written_of_compute (issuing_field View.d hx rfl) hexec
  · intro c o s x hx
    exact exists_written_of_compute (issuing_field View.d hx rfl) (exec_of_issuing (fun _ => rfl) hx)
  · intro c o s x hx hpend htok
    have hexec := exec_of_issuing (fun _ => rfl) hx
    simp only [quiet_of_idle x.e.g hpend htok, if_true] at hexec
    refine ⟨_, hexec, rfl, rfl, fun k l hk => ⟨compacted_tidOf _ hk, fun n hn => ?_, fun n hn => ?_⟩,
      fun k hk => ⟨fun n hn => ?_, fun n hn => ?_⟩, compacted_rest _⟩
    · rw [compacted_vreg _ hn, vget?_moveReg, hk, Option.bind_some]
    · rw [compacted_m _ hn, getLsbD_moveMap _ (length_lanesOf_le _), hk, Option.any_some]
    · rw [compacted_vreg _ hn, vget?_moveReg, List.getElem?_eq_none hk, Option.bind_none]
    · rw [compacted_m _ hn, getLsbD_moveMap _ (length_lanesOf_le _), List.getElem?_eq_none hk, Option.any_none]

end Sys2Proof.Machine
end

section
/-!
SUPPORT. Lane forms (08 R187-R192): which lanes take a value, and from where.
-/

namespace Sys2Proof.Machine

/-! ### PUSH (08 R189) -/

/-- The pairs of a destination and its source, by destination. -/
def pairsTo (dst : Nat → Option Nat) (ls : List Nat) : List (Nat × Nat) := ls.filterMap fun l => (dst l).map fun t => (t, l)

/-- The destinations are those that a source names. -/
theorem getLsbD_mapOf_pairsTo (dst : Nat → Option Nat) (ls : List Nat) {t : Nat} (ht : t < 64) :
    (mapOf ((pairsTo dst ls).map (·.1))).getLsbD t = ls.any fun l => dst l == some t := by
  rw [getLsbD_mapOf, decide_eq_true ht, Bool.true_and, Bool.eq_iff_iff, List.contains_iff_mem, List.any_eq_true, pairsTo, List.map_filterMap,
    List.mem_filterMap]
  simp [Function.comp_def]

/-- The last pair of a destination is that of the last source that names it. -/
theorem find?_reverse_pairsTo (dst : Nat → Option Nat) (ls : List Nat) (t : Nat) :
    ((pairsTo dst ls).reverse.find? fun p => p.1 == t) = (ls.filter fun l => dst l == some t).getLast?.map fun l => (t, l) := by
  have hnames (l : Nat) : (((dst l).map fun u => (u, l)).any fun p => p.1 == t) = (dst l == some t) := by
    cases dst l <;> simp
  rw [pairsTo, ← List.filterMap_reverse, List.find?_filterMap, List.getLast?_eq_head?_reverse, ← List.filter_reverse, List.head?_filter]
  simp only [hnames]
  cases hfound : ls.reverse.find? fun l => dst l == some t with
  | none => rfl
  | some l =>
    have hl := List.find?_some hfound
    simp [beq_iff_eq.1 hl]

/-- PUSH's pairs, with its destinations as 08 R189 gives them. -/
theorem pushPairs_eq_pairsTo (e : Env) (o : OpsR) (fn : BitVec 4) (m : LaneMap) :
    pushPairs e o fn.toNat m =
      pairsTo (fun l => inMap e.g.live (if fn = 0 then some (e.val .ui32 o.b l) else e.g.posOf (e.val .ui32 o.b l))) (lanesOf m) := by
  simp only [pushPairs, pairsTo, toNat_beq_zero, decide_eq_true_iff]

/-! ### Lanes for which a value is given -/

/-- A partial vector result is written on the lanes for which a value is given. -/
theorem exists_written_of_partialV {i : Instr} {s : State} {x : Issuing} {d : Operand} {f : Nat → Option Nat}
    (hexec : exec i s = .next (x.next s (.done x.t (x.e.partialV d f)))) :
    ∃ g' m, exec i s = .next (x.next s (.done x.t g')) ∧ (∀ l, l < 64 → m.getLsbD l = (x.e.m.getLsbD l && (f l).isSome)) ∧
      Written x.e.g g' .b32 d m fun l => ((f l).getD 0, 0) :=
  ⟨_, _, hexec, fun _ hl => getLsbD_mapOf_filter _ _ hl, compute_written ..⟩

/-- Where each lane of a map has a source, MC stops none of them (08 R188). -/
theorem any_isNone_lanesOf_eq_false {m : LaneMap} {src : Nat → Option Nat} (h : ∀ l, l < 64 → m.getLsbD l = true → (src l).isSome = true) :
    ((lanesOf m).any fun l => (src l).isNone) = false := by
  rw [List.any_eq_false]
  intro l hl
  obtain ⟨hlt, hbit⟩ := mem_lanesOf.1 hl
  simp [Option.isSome_iff_ne_none.1 (h l hlt hbit)]

/-- Settles O8: PULL, PUSH, BCAST, LANEMAP and SCAN compute on the lanes that have a source (`compute_written`); PUSH's last pair for a destination is its
highest source (`find?_reverse_pairsTo`); VOTE and REDUCE are one change of their group. -/
theorem laneFormsComplete : Obligations.LaneFormsComplete := by
  refine ⟨?_, ?_, ?_, ?_, ?_, ?_, ?_, ?_⟩
  · intro c o s x hx ma cand src hadmit
    have hsome : (c.mc && (lanesOf cand).any fun l => (src l).isNone) = false := by
      rw [Bool.and_eq_false_iff, or_iff_not_imp_left, Bool.not_eq_false]
      exact fun hmc => any_isNone_lanesOf_eq_false (hadmit hmc)
    have hexec := exec_of_answer (fun _ => rfl) hx (if_neg (Bool.eq_false_iff.1 hsome))
    obtain ⟨g', hmake, hwritten⟩ := exists_written_of_compute (issuing_field View.d hx rfl) hexec
    exact ⟨g', _, hmake, fun l hl => getLsbD_mapOf_filter _ _ hl, hwritten⟩
  · intro c o s x hx dst
    have hexec := exec_of_issuing (fun _ => rfl) hx
    simp only [pushPairs_eq_pairsTo, find?_reverse_pairsTo, Option.map_map, Function.comp_def] at hexec
    obtain ⟨g', hmake, hwritten⟩ := exists_written_of_compute (issuing_field View.d hx rfl) hexec
    exact ⟨g', _, hmake, fun t ht => getLsbD_mapOf_pairsTo _ _ ht, hwritten⟩
  · intro c o s x hx src hadmit
    have hexec := exec_of_issuing (fun _ => rfl) hx
    simp only [beq_iff_eq] at hexec
    cases hsrc : src with
    | some k =>
      simp only [src] at hsrc
      simp only [hsrc] at hexec
      exact exists_written_of_compute (issuing_field View.d hx rfl) hexec
    | none =>
      have hmc : ¬c.mc = true := fun h => by simpa [hsrc] using hadmit h
      simp only [src] at hsrc
      simp only [hsrc, hmc] at hexec
      exact exists_written_of_compute (issuing_field View.d hx rfl) hexec
  · intro c o s x hx
    exact exists_written_of_partialV (exec_of_issuing (fun _ => rfl) hx)
  · intro c o s x hx pos
    obtain ⟨g', m, hmake, hlanes, hwritten⟩ := exists_written_of_partialV (exec_of_issuing (fun _ => rfl) hx)
    exact ⟨g', m, hmake, fun l hl => by rw [hlanes l hl, Option.isSome_map], hwritten⟩
  · intro c o
    refine makes_of_done (fun _ => rfl) fun v e t => ?_
    obtain h | h | h | ⟨h0, h1, h2, n, hn⟩ := fn_cases c.fn
    · simp [h]
    · simp [h]
    · simp [h]
    · simp only [hn, h0, h1, h2, if_false]
  · exact fun c o => makes_of_done (fun _ => rfl) fun _ _ _ => rfl
  · intro c o s x hx acc all
    have hexec := exec_of_issuing (fun _ => rfl) hx
    simp only [beq_iff_eq] at hexec
    exact ⟨_, hexec, compute_written ..⟩

end Sys2Proof.Machine
end

section
/-!
SUPPORT. Flow forms (08 R170-R178, 12 R276): transfers whose target passes its checks, conditional ones, MCALL and EXIT.
-/

namespace Sys2Proof.Machine

/-- A transfer whose target passes its checks lands there. -/
theorem next_jump_of_checked {s u : State} {x : Issuing} {g' : Group} {t : DWord} {chk : Bool}
    (h : x.t.checkTarget x.r x.w x.g t chk = .ok u) : x.next s (.jump g' t chk) = x.landed s u g' t := by
  simp only [Issuing.next, State.conclude, h, Issuing.landed]

section
variable {i : Instr} {own : Bool} {s u : State} {x : Issuing} {body : View → Env → State → Act} {g' : Group} {t : DWord}

/-- A word whose meaning is a transfer lands where its target passes its checks. -/
theorem exec_lands {chk : Bool} (hexec : ∀ s, exec i s = issueWord i s own false body) (hx : s.issuing i own false = some x)
    (hbody : body x.v x.e x.t = .jump g' t chk) (h : x.t.checkTarget x.r x.w x.g t chk = .ok u) : exec i s = .next (x.landed s u g' t) := by
  rw [exec_of_answer hexec hx hbody, next_jump_of_checked h]

/-- A word whose meaning is a conditional transfer goes on or lands. -/
theorem exec_branches {taken : Bool} (hexec : ∀ s, exec i s = issueWord i s own false body) (hx : s.issuing i own false = some x)
    (hbody : body x.v x.e x.t = branchIf x.t g' taken t) :
    (taken = false → exec i s = .next (x.next s (.done x.t g'))) ∧
    (taken = true → x.t.checkTarget x.r x.w x.g t true = .ok u → exec i s = .next (x.landed s u g' t)) := by
  rw [exec_of_answer hexec hx hbody]
  refine ⟨?_, ?_⟩
  · rintro rfl
    rfl
  · rintro rfl hcheck
    exact congrArg _ (next_jump_of_checked hcheck)

end

/-- BRM's conditions on a map (Table 8.1). -/
theorem mapTest_eq (fn : BitVec 4) (m live : LaneMap) :
    mapTest fn.toNat m live = if fn = 0 then m == 0 else if fn = 1 then m != 0 else if fn = 2 then m == live else m != live := by
  obtain rfl | rfl | rfl | ⟨h0, h1, h2, n, hn⟩ := fn_cases fn
  · rfl
  · rfl
  · rfl
  · rw [if_neg h0, if_neg h1, if_neg h2, hn]
    rfl

/-- EXIT of a group's last lanes waits only as the last group of its workgroup, and only for room in the landing buffer (05 R113). -/
theorem exit_not_held {w : Workgroup} {grp : Nat} {room : Bool} (h : (∃ k ∈ w.groups, k.retired = none ∧ k.id ≠ grp) ∨ room = true) :
    ((w.groups.all fun g => g.retired.isSome || g.id == grp) && !room) = false := by
  rw [Bool.and_eq_false_iff]
  obtain ⟨k, hk, hres, hid⟩ | hroom := h
  · refine .inl (List.all_eq_false.2 ⟨k, hk, ?_⟩)
    simp [hres, hid]
  · exact .inr (by rw [hroom]; rfl)

/-- Settles O10: an unconditional transfer lands (`exec_lands`), a conditional one goes on or lands (`exec_branches`); MCALL parks at its body, and EXIT
keeps the group while a lane lives. -/
theorem flowFormsComplete : Obligations.FlowFormsComplete := by
  refine ⟨?_, ?_, ?_, ?_, ?_, ?_, ?_, ?_, ?_, ?_, ?_, ?_, ?_⟩
  · exact fun c o => makes_of_done (fun _ => rfl) fun _ _ _ => rfl
  · exact fun c o => makes_of_done (fun _ => rfl) fun _ _ _ => rfl
  · exact fun c o s u x hx hcheck => exec_lands (fun _ => rfl) hx rfl hcheck
  · exact fun c o s u x hx hcheck => exec_lands (fun _ => rfl) hx rfl hcheck
  · exact fun c o s u x hx hcheck => exec_lands (fun _ => rfl) hx rfl hcheck
  · exact fun c o s u x hx hcheck => exec_lands (fun _ => rfl) hx rfl hcheck
  · exact fun c o s u x hx hcheck => exec_lands (fun _ => rfl) hx rfl hcheck
  · intro c o s u x hx t m taken
    exact exec_branches (fun _ => rfl) hx (congrArg (branchIf x.t x.e.g · t) (mapTest_eq c.fn m x.e.g.live))
  · intro c o n s u x ha hx t w k g' taken
    exact exec_branches (fun _ => rfl) hx (by simp only [ha]; rfl)
  · intro c o s u x hx t n g'
    obtain ⟨hstay, hland⟩ := exec_branches (u := u) (g' := g') (t := t) (taken := n != 0) (fun _ => rfl) hx rfl
    exact ⟨fun h => hstay (by simp [h]), fun h => hland (by simpa using h)⟩
  · exact fun c o s u x hx hcheck => exec_lands (fun _ => rfl) hx rfl hcheck
  · intro c o s x hx hbody
    exact exec_of_answer (fun _ => rfl) hx (if_neg (by simpa using hbody))
  · intro c o s x hx live
    refine ⟨fun hlive => ?_, fun hlive hroom => ?_⟩
    · exact exec_of_answer (fun _ => rfl) hx (if_neg (by simpa using hlive))
    · refine exec_of_answer (fun _ => rfl) hx ((if_pos (beq_iff_eq.2 hlive)).trans (if_neg ?_))
      exact Bool.eq_false_iff.1 (exit_not_held hroom)

end Sys2Proof.Machine
end

section
/-!
SUPPORT. TRAP and BKPT (12 R274): an exception of a group that has a trap table entry to go to enters its handler.
-/

namespace Sys2Proof.Machine

section
variable {s : State} {r : GRef} {w : Workgroup} {g : Group} {f : FaultInfo} {l : Loc} {mt : Nat}

/-- An entry of the trap table that lies in this device and can be read gives its value. -/
theorem trapEntry_of_readable {k : Cause} (hres : s.resolve r.ctx w.core g.xf (g.trapSlot k) 8 .read = .ok [(.mem l mt, 8)])
    (hread : s.readable (some (columnOf w.core)) l 8) :
    s.trapEntry r w g k = .val (leNat (s.colRead (columnOf w.core) l 8)) (s.look (columnOf w.core) [(l, 8)]) := by
  simp only [State.trapEntry, hres, hread.1, Bool.false_eq_true, if_false, readAs_of_readable hread]

/-- A terminal fault is delivered outside a handler where the trap table has an entry for it: the group enters there. -/
theorem deliver_of_entry (hterm : f.cause.resumable = false) (hhandler : g.handler = false) (htable : g.trapb.getLsbD 0 = true)
    (hres : s.resolve r.ctx w.core g.xf (g.trapSlot f.cause) 8 .read = .ok [(.mem l mt, 8)]) (hread : s.readable (some (columnOf w.core)) l 8)
    (hentry : leNat (s.colRead (columnOf w.core) l 8) ≠ 0) :
    s.deliver r w g f = some ((s.look (columnOf w.core) [(l, 8)]).modGroup r fun k =>
      { k.enter f (BitVec.ofNat 64 (leNat (s.colRead (columnOf w.core) l 8))) s.now with lastEpoch := (s.col (columnOf w.core)).epoch }) := by
  have hnow := (sameTime_look s (columnOf w.core) [(l, 8)]).1
  simp [State.deliver, hterm, hhandler, htable, trapEntry_of_readable hres hread, hentry, hnow]

end

/-- A word, or a step, that raises a terminal fault with nothing but a cause and AUX takes the exception. -/
theorem takesTrapAt_of_raise {i : Instr} {s s0 : State} {r : GRef} {w : Workgroup} {g : Group} {k : Cause} {aux : Word}
    (hexec : exec i s = .next (s0.raise r w g { cause := k, aux })) (hterm : k.resumable = false) (hnow : s0.now = s.now) (hcols : s0.cols = s.cols) :
    TakesTrapAt i s s0 r w g k aux := by
  unfold TakesTrapAt
  intro pc st f s1 l mt entry hhandler htable hres hread hval hentry
  subst hval
  have hdeliver := deliver_of_entry (s := s1) (g := g.faulted (.fault f)) (f := f) hterm hhandler htable hres hread hentry
  have hraise : s0.raise r w g { cause := k, aux } = (s1.deliver r w (g.faulted (.fault f)) f).getD s1 := rfl
  have hcol : s1.col = s.col := funext fun c => by rw [State.col, State.col, ← hcols]; rfl
  have htime : s1.now = s.now := hnow
  rw [hexec, hraise, hdeliver, hcol, htime]
  rfl

/-- A word in issue whose meaning raises such a fault takes the exception. -/
theorem takesTrap_of_fault {i : Instr} {own all : Bool} {body : View → Env → State → Act} {s : State} {x : Issuing} {k : Cause} {aux : Word}
    (hexec : ∀ s, exec i s = issueWord i s own all body) (hx : s.issuing i own all = some x) (hbody : body x.v x.e x.t = .fault { cause := k, aux })
    (hterm : k.resumable = false) : TakesTrap i s x k aux :=
  takesTrapAt_of_raise (exec_of_answer hexec hx hbody) hterm rfl rfl

/-- Settles O11: both words raise a terminal fault with their immediate (`takesTrap_of_fault`). -/
theorem trapFormsComplete : Obligations.TrapFormsComplete :=
  ⟨fun _ _ _ _ hx => takesTrap_of_fault (fun _ => rfl) hx rfl rfl, fun _ _ _ _ hx => takesTrap_of_fault (fun _ => rfl) hx rfl rfl⟩

end Sys2Proof.Machine
end

section
/-!
SUPPORT. Arithmetic forms (09 R194-R221): a form that computes a value and flags on each lane completes with it; R198's corners of division.
-/

namespace Sys2Proof.Machine

/-! ### Forms that compute lane by lane (09 R194) -/

/-- A form whose meaning is a function on each lane completes with any function that agrees with it. -/
theorem computes_of_laneForm_eq {i : Instr} {ty : Ty} {d : Operand} {f g : Env → Nat → Nat × Flags} (hexec : ∀ s, exec i s = laneForm i ty d s f)
    (hfg : ∀ e l, f e l = g e l) : Computes i ty d g := fun s x hx => by
  have hlanes : f x.e = g x.e := funext (hfg x.e)
  exact hlanes ▸ exists_written_of_compute rfl (exec_of_issuing hexec hx)

theorem computes_of_laneForm {i : Instr} {ty : Ty} {d : Operand} {f : Env → Nat → Nat × Flags} (hexec : ∀ s, exec i s = laneForm i ty d s f) :
    Computes i ty d f :=
  computes_of_laneForm_eq hexec fun _ _ => rfl

/-! ### Integers (09 R194-R200) -/

/-- The quotient that a form takes of `divRem`. -/
theorem divRem_quotient (ty : Ty) (a b : Nat) : ((divRem ty a b).1, (divRem ty a b).2.2) =
    if intOf ty b = 0 then (intBits ty (if tySigned ty then -1 else intMax ty), fDZ)
    else (intBits ty (Int.tdiv (intOf ty a) (intOf ty b)), 0) := by
  simp only [divRem, beq_iff_eq]
  split <;> rfl

/-- The remainder that a form takes of `divRem`. -/
theorem divRem_remainder (ty : Ty) (a b : Nat) : ((divRem ty a b).2.1, (divRem ty a b).2.2) =
    if intOf ty b = 0 then (intBits ty (intOf ty a), fDZ) else (intBits ty (Int.tmod (intOf ty a) (intOf ty b)), 0) := by
  simp only [divRem, beq_iff_eq]
  split <;> rfl

/-- Settles O1: every integer form computes lane by lane (`computes_of_laneForm`); IDIV and IREM take their parts of `divRem`, and IADDS and MOVI
choose by FN and by the type. -/
theorem integerFormsComplete : Obligations.IntegerFormsComplete := by
  refine ⟨?_, ?_, ?_, ?_, ?_, fun c o => ?idiv, fun c o => ?irem, ?_, ?_, ?_, ?_, fun c o => ?iadds, ?_, ?_, fun c o => ?movi⟩
  case idiv => exact computes_of_laneForm_eq (fun _ => rfl) fun e l => divRem_quotient ..
  case irem => exact computes_of_laneForm_eq (fun _ => rfl) fun e l => divRem_remainder ..
  case iadds => exact computes_of_laneForm_eq (fun _ => rfl) fun e l => by simp only [beq_iff_eq]
  case movi => exact computes_of_laneForm_eq (fun _ => rfl) fun e l => by simp only [beq_iff_eq]
  all_goals exact fun _ _ => computes_of_laneForm fun _ => rfl

/-! ### Bits (09 R201-R205, 11 R270) -/

/-- Settles O2: every form on bits computes lane by lane, RANK and IDOT4 among them. -/
theorem bitFormsComplete : Obligations.BitFormsComplete := by
  refine ⟨?_, ?_, ?_, ?_, ?_, ?_, ?_, ?_, ?_, ?_, ?_, ?_, ?_, ?_, ?_, ?_, ?_, ?_⟩
  all_goals exact fun _ _ => computes_of_laneForm fun _ => rfl

/-! ### Floating point (09 R206-R213) -/

/-- Settles O3: every floating-point form computes lane by lane, with its flags. -/
theorem floatFormsComplete : Obligations.FloatFormsComplete := by
  refine ⟨?_, ?_, ?_, ?_, ?_, ?_, ?_, ?_, ?_, ?_, ?_, ?_, ?_, ?_, ?_, ?_, ?_, ?_, ?_⟩
  all_goals exact fun _ _ => computes_of_laneForm fun _ => rfl

/-! ### Conversions (09 R215-R217, R221) -/

/-- Settles O5: CVT writes what it computes and then steps SRN; DECB computes lane by lane; CVTB with a vector destination writes its codes, its side
entries and its flags. -/
theorem conversionFormsComplete : Obligations.ConversionFormsComplete := by
  refine ⟨?_, ?_, ?_⟩
  · intro c o s x hx
    refine ⟨_, exec_of_issuing (fun _ => rfl) hx, ?_⟩
    exact compute_written ..
  · exact fun c o => computes_of_laneForm_eq (fun _ => rfl) fun e l => by simp only [beq_iff_eq]
  · intro c o n s x hd hx rnd block
    exact exec_of_answer (fun _ => rfl) hx (by simp only [hd]; rfl)

/-! ### Division in the word types (09 R198) -/

theorem wrap_natCast (w n : Nat) : wrap w (n : Int) = n % 2 ^ w := by
  rw [wrap, ← Nat.cast_ofNat, ← Nat.cast_pow, ← Int.natCast_emod, Int.toNat_natCast]

/-- The low bits of a two's-complement value are the number's. -/
theorem wrap_sext (w n : Nat) : wrap w (sext w n) = n % 2 ^ w := by
  rw [← wrap_natCast, wrap, wrap, sext]
  split
  · rw [Int.emod_emod]
  · rw [Int.sub_emod_right, Int.emod_emod]

theorem wrap_mod_two_pow (w : Nat) (x : Int) : wrap w x % 2 ^ w = wrap w x := by
  have hpos : (0 : Int) < 2 ^ w := by positivity
  have hcast : ((wrap w x : Nat) : Int) = x % 2 ^ w := Int.toNat_of_nonneg (Int.emod_nonneg x hpos.ne')
  rw [← wrap_natCast, hcast, wrap, Int.emod_emod, wrap]

/-- A value and its low bits are the same word. -/
theorem wrap_intOf (ty : Ty) (n : Nat) : wrap (intWidth ty) (intOf ty n) = n % 2 ^ intWidth ty := by
  unfold intOf
  split
  · exact wrap_sext ..
  · rw [wrap_natCast, Nat.mod_mod]

/-- Minus the most negative value is the most negative value's own word. -/
theorem wrap_tdiv_neg_one {w : Nat} (hw : 0 < w) : wrap w (Int.tdiv (-(2 ^ (w - 1))) (-1)) = 2 ^ (w - 1) := by
  have hquot : Int.tdiv (-(2 ^ (w - 1))) (-1) = ((2 ^ (w - 1) : Nat) : Int) := by simp
  rw [hquot, wrap_natCast, Nat.mod_eq_of_lt (Nat.pow_lt_pow_right (by decide) (Nat.sub_lt hw Nat.one_pos))]

section
variable {ty : Ty} (hty : ty = .i32 ∨ ty = .ui32 ∨ ty = .i64)
include hty

theorem tySigned_of_word : tySigned ty = true ↔ ty ≠ .ui32 := by
  obtain rfl | rfl | rfl := hty <;> decide

theorem intWidth_of_word : intWidth ty = if ty = .i64 then 64 else 32 := by
  obtain rfl | rfl | rfl := hty <;> rfl

theorem intWidth_pos_of_word : 0 < intWidth ty := by
  obtain rfl | rfl | rfl := hty <;> decide

/-- The word types fill their registers (03 R56). -/
theorem intBits_of_word (x : Int) : intBits ty x = wrap (intWidth ty) x := by
  obtain rfl | rfl | rfl := hty
  · exact (wrap_intOf .i32 _).trans (wrap_mod_two_pow ..)
  · exact (wrap_intOf .ui32 _).trans (wrap_mod_two_pow ..)
  · rfl

/-- All ones and minus one are the same word. -/
theorem intBits_all_ones : intBits ty (if tySigned ty then -1 else intMax ty) = 2 ^ intWidth ty - 1 := by
  obtain rfl | rfl | rfl := hty <;> rfl

/-- Division of words as R198 writes it: by zero, the one quotient that the type cannot hold, and the rest. -/
theorem divRem_of_word (a b : Nat) : divRem ty a b =
    let w := intWidth ty
    let x := intOf ty a
    let y := intOf ty b
    if y = 0 then (2 ^ w - 1, wrap w x, fDZ)
    else if tySigned ty = true ∧ x = -(2 ^ (w - 1)) ∧ y = -1 then (2 ^ (w - 1), 0, 0)
    else (wrap w (Int.tdiv x y), wrap w (x - y * Int.tdiv x y), 0) := by
  simp only [divRem, beq_iff_eq, intBits_all_ones hty, intBits_of_word hty, Int.tmod_def]
  split
  · rfl
  · split
    next hcorner =>
      obtain ⟨-, hleast, hminus⟩ := hcorner
      have hrem : -(2 ^ (intWidth ty - 1)) - -1 * Int.tdiv (-(2 ^ (intWidth ty - 1))) (-1) = 0 := by simp
      rw [hleast, hminus, wrap_tdiv_neg_one (intWidth_pos_of_word hty), hrem, wrap, Int.zero_emod, Int.toNat_zero]
    next => rfl

end

/-- Settles O55: the quotient and the remainder of each lane are those of `divRem_of_word`, whose cases are R198's. -/
theorem divisionTruncatesTowardsZero : Obligations.DivisionTruncatesTowardsZero := by
  intro c o hty w signed num
  have hw : w = intWidth c.ty := (intWidth_of_word hty).symm
  have hsigned : signed ↔ tySigned c.ty = true := (tySigned_of_word hty).symm
  have hnum (v : Nat) : num v = intOf c.ty v := by
    simp only [num, intOf, hsigned, hw]
  refine ⟨computes_of_laneForm_eq (fun _ => rfl) fun e l => ?_, computes_of_laneForm_eq (fun _ => rfl) fun e l => ?_⟩
  · simp only [divRem_of_word hty, hnum, hsigned, hw]
    split_ifs <;> rfl
  · simp only [divRem_of_word hty, hnum, hsigned, hw]
    split_ifs <;> rfl

end Sys2Proof.Machine
end

section
/-!
SUPPORT. LD, ST and the fragment forms (10 R225-R228): what they answer once their addresses are admitted.
-/

namespace Sys2Proof.Machine

/-- A memory instruction whose meaning leaves its steps to later moves where the schedule asks for that, and takes them at issue elsewhere
(log entry 59): what it answers in each case. -/
theorem exec_steps_of_ite {i : Instr} {s : State} {x : Issuing} {b : Bool} {α : Type} {as : List α} {park done : Act}
    (h : exec i s = .next (x.next s (if b && !as.isEmpty then park else done))) :
    (b = false ∨ as = [] → exec i s = .next (x.next s done)) ∧ (b = true → as ≠ [] → exec i s = .next (x.next s park)) := by
  constructor
  · rintro (rfl | rfl) <;> simpa using h
  · rintro rfl has
    simpa [has] using h

/-- Settles O12: with the accesses admitted and unheld, the meaning is the choice of `exec_steps_of_ite`. -/
theorem loadStoreComplete : Obligations.LoadStoreComplete := by
  refine ⟨?_, ?_, ?_⟩
  · intro c o d s x as hd hx has hheld got g'
    have hv : x.v.d = .vec d := (issuing_field View.d hx rfl).trans hd
    have hexec := exec_of_issuing (fun _ => rfl) hx
    simp only [hd, Operand.isSca, has, hheld, hv, Bool.false_eq_true, if_false, if_true] at hexec
    exact exec_steps_of_ite hexec
  · intro c o d s x as hd hx has hheld got
    have hv : x.v.d = .sca d := (issuing_field View.d hx rfl).trans hd
    have hexec := exec_of_issuing (fun _ => rfl) hx
    simp only [hd, Operand.isSca, List.map_cons, has, hheld, hv, Bool.false_eq_true, if_false, if_true] at hexec
    exact exec_steps_of_ite hexec
  · intro c o s x as hx has hheld hroom
    have hexec := exec_of_issuing (fun _ => rfl) hx
    simp only [has, hheld, hroom, Bool.not_true, Bool.or_self, Bool.false_eq_true, if_false] at hexec
    exact exec_steps_of_ite hexec

theorem fragRec_of_bound {e : Env} {c : Ctl} {o : OpsR} {s : State} {r : Rec} (hid : s.ident e.w.core e.r.ctx (e.u o.a) = .ok r)
    (hblock : isBlock r = false) (hbits : 8 ≤ recBits r) (hswz : c.fn.toNat / 2 = 0 → swzOk r (e.u o.b) = true) :
    e.fragRec c o s = .ok r := by
  have hform : (isBlock r || decide (recBits r < 8)) = false := by simp [hblock, hbits]
  have hlayout : (c.fn.toNat / 2 == 0 && !swzOk r (e.u o.b)) = false := by
    rw [Bool.and_eq_false_imp, beq_iff_eq]
    exact fun h => by rw [hswz h]; rfl
  simp only [Env.fragRec, hid, hform, hlayout, Bool.false_eq_true, if_false]

/-- Settles O13: the checks of the record pass by `fragRec_of_bound`, and the choice of `exec_steps_of_ite` remains. -/
theorem fragmentFormsComplete : Obligations.FragmentFormsComplete := by
  refine ⟨?_, ?_⟩
  · intro c o d s x r as hd hx hid hblock hbits hswz n fr has hheld got regs empty
    have hv : x.v.d = .vec d := (issuing_field View.d hx rfl).trans hd
    have hexec := exec_of_issuing (fun _ => rfl) hx
    simp only [fr] at has
    simp only [fragRec_of_bound hid hblock hbits hswz, has, hv, hheld, Bool.false_eq_true, if_false] at hexec
    exact exec_steps_of_ite hexec
  · intro c o d s x r as hd hx hid hblock hbits hswz fr data has hheld
    have hv : x.v.d = .vec d := (issuing_field View.d hx rfl).trans hd
    have hexec := exec_of_issuing (fun _ => rfl) hx
    simp only [fr] at has
    simp only [fragRec_of_bound hid hblock hbits hswz, has, hv, hheld, Bool.false_eq_true, if_false] at hexec
    exact exec_steps_of_ite hexec

end Sys2Proof.Machine
end

section
/-!
SUPPORT. Walkers and tensor identifiers (10 R229, R236).
-/

namespace Sys2Proof.Machine

/-- A freshly bound walker, its fields written out. -/
theorem bind_eq_walker (base : DWord) (ty : Ty) (a b c d : Word) (st : Vector (BitVec 40) 3) (ch : Hint) :
    Walker.bind base ty #v[a, b, c, d] st ch =
      { base, ty, n := #v[a, b, c, d], i := #v[0, 0, 0, 0], eod := 0, stride := st, done := a == 0 || b == 0 || c == 0 || d == 0, ch } := by
  simp only [Walker.bind, Vector.toList_mk, List.any_cons, List.any_nil, Bool.or_false, Bool.or_assoc]
  rfl

/-- A sealed and well-formed record is bound to its identifier (03 R77). -/
theorem bindRec_of_sealed {s : State} {core ctx n : Nat} {r : Rec} (hseal : recSealed r = true) (hform : recWellFormed r = true) :
    s.bindRec core ctx n r = .ok (s.setIdent core ctx n (some r)) := by
  simp only [State.bindRec, hseal, hform, Bool.not_true, Bool.false_eq_true, if_false]

/-- Settles O14: a bound walker is `bind_eq_walker`'s, and TBIND's second step is `bindRec_of_sealed`. -/
theorem walkerAndRecordFormsComplete : Obligations.WalkerAndRecordFormsComplete := by
  refine ⟨?_, ?_, ?_, ?_, ?_, ?_⟩
  · intro c o s x hx hfn w
    have hexec := exec_of_answer (fun _ => rfl) hx (if_pos hfn)
    simp only [bind_eq_walker] at hexec
    exact hexec
  · intro c o s x r hx hfn hid hblock hbits w t
    have hform : (isBlock r || decide (recBits r < 8)) = false := by simp [hblock, hbits]
    have hexec := exec_of_answer (fun _ => rfl) hx (if_neg (Nat.not_le.2 hfn))
    simp only [hid, hform, Bool.false_eq_true, if_false, bind_eq_walker] at hexec
    exact hexec
  · intro c o n ha s x hx
    have hexec := exec_of_issuing (fun _ => rfl) hx
    simp only [ha] at hexec
    exact hexec
  · intro c o s x as hx hn haddr has hheld hident got hgot r
    have hfree : (x.t.anyHeld x.e.w.core as || x.t.ident x.e.w.core x.e.r.ctx (x.e.u o.a) == .held) = false := by
      simp [hheld, hident]
    have hexec := exec_of_issuing (fun _ => rfl) hx
    simp only [Nat.not_lt.2 hn, haddr, has, hfree, hgot, bne_self_eq_false, Bool.false_eq_true, if_false] at hexec
    refine ⟨fun hsplit hseal hform => ?_, fun hsplit => ?_⟩
    · simpa only [hsplit, Bool.false_eq_true, if_false, bindRec_of_sealed (r := BitVec.ofNat 512 (leNat got.1)) hseal hform] using hexec
    · simpa only [hsplit, if_true] using hexec
  · intro c o s x r hx hid
    have hexec := exec_of_issuing (fun _ => rfl) hx
    simp only [hid, List.contains_iff_mem] at hexec
    exact hexec
  · intro c o s x hx hfn hid
    have hexec := exec_of_issuing (fun _ => rfl) hx
    simp only [hid, hfn, beq_self_eq_true, if_true] at hexec
    exact hexec

end Sys2Proof.Machine
end

section
/-!
SUPPORT. The lines of the cluster cache that PREF and PIN name (10 R235).
-/

namespace Sys2Proof.Machine

theorem fillWhole_eq (s : State) (cl : Nat) (h : Hint) (a : Nat × Nat) : s.fillWhole cl h a =
    let alloc := h != .noAlloc && a.2 == 0
    let u := if alloc && !(s.cluster cl).serves ⟨.dram, a.1⟩ 256 a.1 && s.injHits [(⟨.dram, a.1⟩, 256)] then s.injTake else s
    u.setCluster cl ((u.cluster cl).touch a.1 (s.goodSectors a.1) h alloc) := by
  unfold State.fillWhole
  cases h != .noAlloc && a.2 == 0 <;> rfl

/-- The lines of device memory among targets (10 R235). -/
theorem mem_lines_iff {ts : List (Option Target)} {line : Nat} : line ∈ (ts.filterMap lineOfTarget).map (·.1) ↔
    ∃ l mt, some (.mem l mt) ∈ ts ∧ l.store = .dram ∧ l.addr / 256 * 256 = line := by
  simp only [List.mem_map, List.mem_filterMap]
  constructor
  · rintro ⟨a, ⟨t, ht, hline⟩, rfl⟩
    unfold lineOfTarget at hline
    split at hline
    next l mt =>
      split at hline
      next hdram => cases hline; exact ⟨l, mt, ht, eq_of_beq hdram, rfl⟩
      next => cases hline
    next => cases hline
  · rintro ⟨l, mt, ht, hdram, rfl⟩
    exact ⟨(l.addr / 256 * 256, mt), ⟨_, ht, by simp [lineOfTarget, hdram]⟩, rfl⟩

/-- Settles O15: a fill is `fillWhole_eq`, and the lines of PIN are `mem_lines_iff`'s. -/
theorem cacheLineFormsComplete : Obligations.CacheLineFormsComplete := by
  refine ⟨?_, ?_, ?_⟩
  · intro c o s x ts hx hts cl fill
    have hfill : fill = fun t a => t.fillWhole cl c.ch a := by
      funext t a
      exact (fillWhole_eq ..).symm
    have hexec := exec_of_issuing (fun _ => rfl) hx
    simp only [hts] at hexec
    rw [hexec, hfill]
    by_cases hfn : c.fn = 0
    · simp only [hfn, beq_self_eq_true, if_true]
      rfl
    · simp only [hfn, beq_iff_eq, if_false]
  · intro c o s x ts hx hts pin k
    have hexec := exec_of_issuing (fun _ => rfl) hx
    simp only [hts] at hexec
    exact hexec
  · intro c o s x ts hx hts
    have hexec := exec_of_issuing (fun _ => rfl) hx
    simp only [hts] at hexec
    refine ⟨_, hexec, fun p => ?_, rfl⟩
    rw [List.mem_filter, Bool.not_eq_true', ← Bool.not_eq_true, Bool.and_eq_true, List.contains_iff_mem, mem_lines_iff, beq_iff_eq,
      and_comm (a := p.ctx = x.e.r.ctx)]

end Sys2Proof.Machine
end

section
/-!
SUPPORT. Atomics (10 R232-R234): their lanes' steps, in order.
-/

namespace Sys2Proof.Machine

/-! ### The lanes of an atomic -/

/-- The accesses of an atomic stand one for each of its lanes, in their order. -/
theorem atomAccess_lanes {e : Env} {s : State} {c : Ctl} {o : OpsR} {lanes : List Nat} {uni : Bool} {as : List (Nat × List Piece)}
    (h : e.atomAccess s c o lanes uni = .ok as) : as.map Prod.fst = lanes := by
  unfold Env.atomAccess at h
  extract_lets n ls mis res at h
  cases hres : s.laneAccess e.r e.w e.g (o.x.toNat % 2) .write ls with
  | miss ps => simp only [res, hres] at h; cases h
  | fault f => cases hmis : mis <;> simp only [res, hres, hmis] at h <;> cases h
  | ok as' =>
    cases hmis : mis <;> simp only [res, hres, hmis] at h <;> cases h
    rw [laneAccess_lanes hres, List.map_map]
    exact List.map_id _

/-- A read gives one answer for each access, under its lane. -/
theorem readAll_keys (s : State) (core : Nat) (h : Fill) (as : List (Nat × List Piece)) (m : Met) :
    (s.readAll core h as m).1.map Prod.fst = as.map Prod.fst := by
  unfold State.readAll
  simp

theorem badAt_of_mem {gs : List (Nat × Got)} (hnodup : (gs.map Prod.fst).Nodup) {g : Nat × Got} (hg : g ∈ gs) : badAt gs g.1 = g.2.bad := by
  have hfind : (gs.find? fun p => p.1 == g.1) = some g := by
    rw [List.find?_eq_some_iff_append]
    obtain ⟨xs, ys, rfl⟩ := List.append_of_mem hg
    refine ⟨beq_self_eq_true _, xs, ys, rfl, fun p hp => ?_⟩
    rw [List.map_append, List.map_cons, List.nodup_append] at hnodup
    simpa using hnodup.2.2 p.1 (List.mem_map_of_mem hp) g.1 List.mem_cons_self
  rw [badAt, hfind, Option.bind_some]

/-- A fold that only appends to its first component. -/
theorem foldl_appending {α β σ : Type} {f : List β × σ → α → List β × σ}
    (hf : ∀ acc s a, f (acc, s) a = (acc ++ (f ([], s) a).1, (f ([], s) a).2))
    (l : List α) (acc : List β) (s : σ) : l.foldl f (acc, s) = (acc ++ (l.foldl f ([], s)).1, (l.foldl f ([], s)).2) := by
  induction l generalizing acc s with
  | nil => simp
  | cons a l ih =>
    rw [List.foldl_cons, List.foldl_cons, hf, ih, ih (f ([], s) a).1, List.append_assoc]

section
variable (x : Nat → Writer) (op : Nat) (ty : Ty) (arg new : Nat → DWord)

theorem atomAll_cons (s : State) (l : Nat) (u : Loc) (mt n : Nat) (as : List (Nat × List Piece)) (g : Nat × Got) (gs : List (Nat × Got)) :
    s.atomAll x op ty arg new ((l, [(.mem u mt, n)]) :: as) (g :: gs) =
      let step : LaneVal × State := match g.2.bad with
        | some b => (.bad b.1 b.2, s)
        | none =>
          let old := s.atomNear (x l) op ty u (arg l) (new l)
          (.ok (regWords ty (leBytes (tyBytes ty) old.1)), old.2)
      ((l, step.1) :: (step.2.atomAll x op ty arg new as gs).1, (step.2.atomAll x op ty arg new as gs).2) := by
  unfold State.atomAll
  rw [List.zip_cons_cons, List.foldl_cons, foldl_appending]
  · cases g.2.bad <;> rfl
  · rintro acc t ⟨⟨k, ps⟩, h⟩
    dsimp only
    split <;> simp

/-- The steps of an atomic's lanes, each with the answer of its own read, are those that a list of locations takes in turn. -/
theorem atomAll_onePiece (n : Nat) {bad : Nat → Option (Loc × Nat)} {ls : List (Nat × Loc × Nat)} {gs : List (Nat × Got)}
    (hlanes : gs.map Prod.fst = ls.map Prod.fst) (hbad : ∀ g ∈ gs, bad g.1 = g.2.bad) (s : State) :
    s.atomAll x op ty arg new (onePiece n ls) gs = s.laneAtoms x op ty arg new bad ls := by
  induction ls generalizing gs s with
  | nil => rfl
  | cons p ls ih =>
    cases gs with
    | nil => cases hlanes
    | cons g gs =>
      obtain ⟨l, u, mt⟩ := p
      rw [List.map_cons, List.map_cons, List.cons.injEq] at hlanes
      rw [onePiece, List.map_cons, atomAll_cons, State.laneAtoms]
      have hg : bad l = g.2.bad := by rw [← hbad g List.mem_cons_self, hlanes.1]
      have hrest := ih hlanes.2 fun g' hg' => hbad g' (List.mem_cons_of_mem _ hg')
      rw [onePiece] at hrest
      simp only [hrest, hg, State.atomNear]
      cases g.2.bad with
      | some b => rfl
      | none => cases atomNew op ty _ (arg l) (new l) <;> rfl

end
/-- A fold that sends each lane's request to its peer sends them all, in the lanes' order. -/
theorem foldl_eq_atomAsks {e : Env} {op : Nat} {ty : Ty} {f : State → AtomLane → State} (hf : ∀ s a, f s a = s.atomAsks e op ty [a])
    (ls : List AtomLane) (s : State) : ls.foldl f s = s.atomAsks e op ty ls := by
  induction ls generalizing s with
  | nil => rfl
  | cons a ls ih =>
    rw [List.foldl_cons, ih, hf]
    simp only [State.atomAsks]
    cases a.peer <;> rfl

theorem atomAsks_now (e : Env) (op : Nat) (ty : Ty) (ls : List AtomLane) (s : State) : (s.atomAsks e op ty ls).now = s.now := by
  induction ls generalizing s with
  | nil => rfl
  | cons a ls ih =>
    rw [State.atomAsks]
    cases a.peer <;> exact ih _

/-- An atomic with return completes, at issue where all its lanes perform in the column, or with its requests where not. -/
theorem atomCompletes_of_atomBody {i : Instr} {op : Nat} {c : Ctl} {o : OpsR}
    (hexec : ∀ s, exec i s = issueWord i s false false fun _ e s => atomBody op c o e s) : AtomCompletes i op c o := by
  intro s x as hx has arg new far
  have hgo := exec_of_issuing hexec hx
  unfold atomBody at hgo
  simp only [has, beq_iff_eq] at hgo
  rw [foldl_eq_atomAsks (e := x.e) (op := op) (ty := c.ty) fun t a => by cases h : a.peer <;> simp only [State.atomAsks, h],
    atomAsks_now] at hgo
  refine ⟨?_, ?_⟩
  · rintro ls rfl hfar hsplit hheld hroom hhalf read after
    have hlanes : read.1.map Prod.fst = ls.map Prod.fst := by
      rw [readAll_keys, onePiece, List.map_map]
      rfl
    have hnodup : (read.1.map Prod.fst).Nodup := by
      rw [readAll_keys, atomAccess_lanes has]
      split
      · exact List.nodup_singleton 0
      · exact nodup_lanesOf _
    have hall := atomAll_onePiece x.e.writer op c.ty arg new (tyBytes c.ty) hlanes (fun g hg => badAt_of_mem hnodup hg) read.2.2
    simp only [far] at hfar
    simp only [hfar, hsplit, hheld, hroom, hhalf, Bool.false_and, Bool.or_false, Bool.not_true, Bool.false_eq_true, if_false] at hgo
    exact hgo.trans (by rw [hall])
  · intro hcase hroom
    have hfar : (far || (x.t.split && !as.isEmpty)) = true := by
      simpa [Bool.or_eq_true] using hcase
    simp only [far] at hfar
    simp only [hfar, hroom, Bool.not_true, Bool.false_eq_true, if_false, if_true] at hgo
    exact hgo

/-- Settles O16: the lanes' steps are `atomAll_onePiece`, the requests to peers `foldl_eq_atomAsks`, and RED's are `exec_steps_of_ite`. -/
theorem atomicFormsComplete : Obligations.AtomicFormsComplete := by
  refine ⟨fun c o => atomCompletes_of_atomBody fun _ => rfl, fun c o => atomCompletes_of_atomBody fun _ => rfl, ?_⟩
  intro c o s x as hx has arg here hheld hroom hhalf got hrec
  have hgo := exec_of_issuing (fun _ => rfl) hx
  simp only [has] at hgo
  simp only [here] at hheld hhalf
  simp only [got, here] at hrec
  simp only [hheld, hroom, hhalf, hrec, Bool.or_false, Bool.not_true, Bool.false_eq_true, if_false] at hgo
  exact exec_steps_of_ite hgo

end Sys2Proof.Machine
end

section
/-!
SUPPORT. Barriers, rings, semaphores and fences (10 R243-R246).
-/

namespace Sys2Proof.Machine

section
variable {s : State} {x : Issuing} {c : Ctl} {o : OpsR}

/-- ARRIVE of n bytes on a barrier whose counts take it (05 R103). -/
theorem arriveBody_of_arrives {e : Env} {n b b' : Nat} {ps : List Piece} {t : State}
    (hbar : e.barAt s c o.x (e.objAddr o.a o.x) .write (.arrive n) = .ok (b, ps, t)) (hdrained : s.objDrained e.w.core ps = true)
    (hn : n < 2 ^ 31) (harrive : barArrive b n = some b') :
    arriveBody c o n e s = .done (t.objPut e.uniWriter ps (leBytes 16 b')) (e.g.writeS .ui32 o.d (barPhase b)) := by
  simp only [arriveBody, hbar, hdrained, harrive, ge_iff_le, Nat.not_le.2 hn, Bool.not_true, Bool.false_eq_true, if_false]

/-- A phase wait at its first load step: it goes on where PHASE is another (05 R104). -/
theorem waitBody_of_read {e : Env} {swap : Bool} {b : Nat} {ps : List Piece} {t : State}
    (hbar : e.barAt s c o.x (e.objAddr o.a o.x) .read .read (some swap) = .ok (b, ps, t)) :
    waitBody c o swap e s = if barPhase b ≠ e.u o.b % 2 ^ 32 then .done t { e.g with waitCnt := 0, hold := 0 }
      else .park t { e.g with
        wait := .phase (o.x.toNat % 2 == 1) (e.objAddr o.a o.x) (BitVec.ofNat 32 (e.u o.b)) swap false none 0, waitFep := peerOf ps } := by
  simp only [waitBody, hbar, BitVec.toNat_ofNat, bne_iff_ne]

theorem barAt_of_asks {e : Env} {y : BitVec 10} {addr : Nat} {acc : Access} {op : ObjOp} {waits : Option Bool} {ps : List Piece}
    (hobj : e.objAt s y addr 16 acc = .ok ps) (hstorage : (ps.all fun p => storageOk e.w.core (scNat c) p.1) = true)
    (hasks : s.objAsks e op ps waits ≠ []) : e.barAt s c y addr acc op waits = .error (.ask (s.objAsks e op ps waits) waits) := by
  unfold Env.barAt
  simp only [hobj, hstorage, Bool.not_true, Bool.false_eq_true, if_false]

/-- A phase wait's questions to peers are reads. -/
theorem op_of_mem_objAsks {e : Env} {ps : List Piece} {waits : Option Bool} {a : PeerAsk} (h : a ∈ s.objAsks e .read ps waits) :
    a.op = .read := by
  rw [State.objAsks, List.mem_append] at h
  rcases h with h | h
  · split at h
    · obtain ⟨p, -, hp⟩ := List.mem_filterMap.1 h
      split at hp
      · split at hp <;> cases hp
        rfl
      · cases hp
    · cases h
  · obtain ⟨p, -, hp⟩ := List.mem_filterMap.1 h
    split at hp
    · dsimp only at hp
      split at hp <;> cases hp
      rfl
    · cases hp

/-- Questions that change no object need no room at the gate (05 R113). -/
theorem askPeers_of_reads {e : Env} {as : List PeerAsk} {waits : Option Bool} (hread : ∀ a ∈ as, a.op = .read) :
    s.askPeers e as waits = s.modGroup e.r fun g => { g with wait := .object as.eraseDups waits } := by
  have hsteps : (as.eraseDups.filter fun a => a.op != .read) = [] := by
    rw [List.filter_eq_nil_iff]
    intro a ha
    simp [hread a (List.mem_eraseDups.1 ha)]
  simp only [State.askPeers, hsteps]
  rfl

theorem relRing_of_read {e : Env} {ps : List Piece} {r0 r : Nat} {u : State} (hhere : atPeer ps = false → r = r0 ∧ u = s)
    (haway : atPeer ps = true → s.uniAsk e .release ps = [] ∧ (r, u) = s.objRead e .release ps) : s.relRing e ps r0 = .ok (r, u) := by
  unfold State.relRing
  cases hpeer : atPeer ps with
  | true =>
    obtain ⟨hask, hread⟩ := haway hpeer
    simp only [hask, ← hread, if_true]
  | false =>
    obtain ⟨rfl, rfl⟩ := hhere hpeer
    rfl

theorem semBody_of_fits {e : Env} {up : Bool} {ps : List Piece} (hobj : e.objAt s o.x (e.objAddr o.a o.x) 8 .write = .ok ps)
    (hstorage : (ps.all fun p => storageOk e.w.core (scNat c) p.1) = true) (hdrained : s.objDrained e.w.core ps = true)
    (hn : e.u o.b < 2 ^ 31)
    (hask : s.uniAsk e (.sem up (e.u o.b)) ps = []) :
    let got := s.objRead e (.sem up (e.u o.b)) ps
    let k := if up then semCount got.1 + e.u o.b else semCount got.1 - e.u o.b
    semScope got.1 = scNat c → (if up then semCount got.1 + e.u o.b < 2 ^ 31 else e.u o.b ≤ semCount got.1) →
    semBody c o up e s = .done (got.2.objPut e.uniWriter ps (leBytes 8 (got.1 / 2 ^ 32 * 2 ^ 32 + k))) (e.g.writeS .ui32 o.d k) := by
  intro got k hscope hfits
  simp only [got] at hscope hfits
  unfold semBody
  simp only [hobj, hstorage, hask, hscope, hdrained, bne_self_eq_false, Bool.not_true, Bool.false_eq_true, if_false]
  cases up with
  | true =>
    have hrange : ¬(e.u o.b ≥ 2 ^ 31 ∨ semCount (s.objRead e (.sem true (e.u o.b)) ps).1 + e.u o.b ≥ 2 ^ 31) := by
      rw [if_pos rfl] at hfits
      omega
    simp only [Bool.or_eq_true, decide_eq_true_eq, if_true, hrange, if_false]
    rfl
  | false =>
    have hrange : ¬(e.u o.b ≥ 2 ^ 31 ∨ semCount (s.objRead e (.sem false (e.u o.b)) ps).1 < e.u o.b) := by
      rw [if_neg Bool.false_ne_true] at hfits
      omega
    simp only [Bool.or_eq_true, decide_eq_true_eq, Bool.false_eq_true, hrange, if_false]
    rfl

end

/-- Settles O18: each form's one step under its checks, by the lemma about its meaning. -/
theorem syncFormsComplete : Obligations.SyncFormsComplete := by
  refine ⟨?_, ?_, ?_, ?_, ?_, ?_, ?_, ?_, ?_⟩
  · intro c o s x ps hx hobj hstorage hn hroom
    have hexec := exec_of_issuing (fun _ => rfl) hx
    simp only [hobj, hstorage, hroom, gt_iff_lt, Nat.not_lt.2 hn, Bool.not_true, Bool.false_eq_true, if_false] at hexec
    exact hexec
  · intro c o s x ps b b' t hdrained
    exact ⟨fun hx hbar harrive => exec_of_answer (fun _ => rfl) hx (arriveBody_of_arrives hbar hdrained (by decide) harrive),
      fun hx hbar hn harrive => exec_of_answer (fun _ => rfl) hx (arriveBody_of_arrives hbar hdrained hn harrive)⟩
  · intro c o s x ps b t addr i swap hi hx
    have hexec : ∀ s, exec i s = issueWord i s false false fun _ e s => waitBody c o swap e s := by
      rw [List.mem_pair, Prod.mk.injEq, Prod.mk.injEq] at hi
      rcases hi with ⟨rfl, rfl⟩ | ⟨rfl, rfl⟩ <;> exact fun _ => rfl
    refine ⟨fun hbar => ?_, fun hobj hstorage hasks _ => ?_⟩
    · have hgo := exec_of_answer hexec hx (waitBody_of_read hbar)
      exact ⟨fun hleft => by rw [hgo, if_pos hleft], fun hsame => by rw [hgo, if_neg (not_not.2 hsame)]⟩
    · have hask : waitBody c o swap x.e x.t = .ask (x.t.objAsks x.e .read ps (some swap)) (some swap) := by
        simp only [waitBody, addr, barAt_of_asks hobj hstorage hasks]
      rw [exec_of_answer hexec hx hask]
      exact congrArg _ (askPeers_of_reads fun a ha => op_of_mem_objAsks ha)
  · intro c o s x ps hx hobj hask got
    have hexec := exec_of_issuing (fun _ => rfl) hx
    simp only [hobj, hask] at hexec
    rw [hexec]
    obtain h | h | h | ⟨h0, h1, h2, n, hn⟩ := fn_cases c.fn
    · simp [h, got]
    · simp [h, got]
    · simp [h, got]
    · simp only [hn, h0, h1, h2, if_false, got]
  · intro c o s x ps as hx addr slots bars n z haddr hbars hslots hn1 hn hz1 hz h11 h25 hobj has hstorage hheld hroom ring bar
    have hexec := exec_of_issuing (fun _ => rfl) hx
    have hcount : bits (x.e.u o.e) 10 0 = n := by simp [bits, n]
    have hsize : bits (x.e.u o.e) 24 16 = z := rfl
    have hfields : (decide (n < 1) || decide (1024 < n) || decide (z < 1) || decide (256 < z) || bits (x.e.u o.e) 15 11 != 0 ||
        bits (x.e.u o.e) 31 25 != 0) = false := by
      simp [h11, h25]
      omega
    simp only [addr, slots, bars] at haddr hslots hbars hobj has
    simp only [hcount, hsize, hfields, haddr, hslots, hbars, hobj, beq_iff_eq, has, hstorage, hheld, hroom, bne_self_eq_false,
      Bool.not_true, Bool.or_false, Bool.false_eq_true, if_false] at hexec
    exact ⟨fun hsplit => by rw [hexec, if_neg (Bool.eq_false_iff.1 hsplit)], fun hsplit => by rw [hexec, if_pos hsplit]⟩
  · intro c o d s x ps r b qs t hx hring hd
    have hexec := exec_of_issuing (fun _ => rfl) hx
    simp only [hring, bne_iff_ne, ringHead, ringRound] at hexec
    rw [hexec]
    exact ⟨fun hleft => by rw [if_pos hleft], fun hsame => by rw [if_neg (not_not.2 hsame), hd]⟩
  · intro c o s x ps r0 r q t u hx hring hhere haway hdrained hne
    have hexec := exec_of_issuing (fun _ => rfl) hx
    simp only [hring, hdrained, relRing_of_read hhere haway, beq_eq_false_iff_ne.2 hne, Bool.not_true, Bool.false_eq_true,
      if_false] at hexec
    exact hexec
  · intro c o s x ps hobj hstorage n hdrained hn
    exact ⟨fun hx hask hscope hfits => exec_of_answer (fun _ => rfl) hx (semBody_of_fits hobj hstorage hdrained hn hask hscope hfits),
      fun hx hask hscope hfits => exec_of_answer (fun _ => rfl) hx (semBody_of_fits hobj hstorage hdrained hn hask hscope hfits)⟩
  · intro c o s x hx hout hconf
    have hexec := exec_of_issuing (fun _ => rfl) hx
    simp only [hout, hconf, Bool.not_true, Bool.or_false, Bool.false_eq_true, if_false] at hexec
    exact hexec

end Sys2Proof.Machine
end

section
/-!
SUPPORT. FIFOs and bank modes (10 R247-R250).
-/

namespace Sys2Proof.Machine

/-! ### FIFOs (10 R247-R249) -/

section
variable {e : Env}

theorem push_of_room {f : VFifo} {cap : Nat} {r : VReg} (h : (f.pushed - f.popped).toNat < cap) :
    f.push cap r = some { f with entries := f.entries ++ [(r, 0)], pushed := f.pushed + 1 } := if_pos h

theorem push_of_full {f : VFifo} {cap : Nat} {r : VReg} (h : cap ≤ (f.pushed - f.popped).toNat) : f.push cap r = none :=
  if_neg (Nat.not_lt.2 h)

/-- A pop of an entry whose storage is good (10 R248): D receives it within LIVE. -/
theorem popInto_of_good (s : State) {o : OpsR} {d : Fin 128} (hd : o.d = .vec d) (r : VReg) :
    popInto s e o (r, 0) = .done s ((e.g.setV d (r.filter fun p => e.g.live.getLsbD p.1)).writeP o.e true) := by
  simp [popInto, hd]

theorem bankFifo_of_ok {s : State} {k : Nat} {f : BankFifo} (h : e.bankFifo s k = .ok f) : s.bankFifo e.w k = some f := by
  unfold Env.bankFifo at h
  split at h
  next hfind =>
    cases h
    exact (Option.ite_none_right_eq_some.1 hfind).2
  next => cases h

theorem fifoWait_eq (o : OpsR) (s : State) {k : FifoCount} {n : Word} (hn : s.fifoCount e.w k = n) :
    fifoWait o k e s = if n ≠ BitVec.ofNat 32 (e.u o.b) then .done s e.g
      else .park s { e.g with wait := .fifo k (BitVec.ofNat 32 (e.u o.b)) } := by
  simp only [fifoWait, hn, bne_iff_ne]

end

/-! ### Bank modes (10 R250) -/

section
variable {s : State} {cl : Nat}

theorem cluster_setCluster_same (s : State) (hcl : cl < 64) (k : Cluster) : (s.setCluster cl k).cluster cl = k := by
  simp [State.cluster, hcl]

theorem releaseBank_bankUsed (s : State) (b : Nat) : (s.releaseBank cl b).bankUsed cl = s.bankUsed cl := by
  unfold State.releaseBank
  dsimp only
  split
  · split <;> rfl
  · rfl

/-- The release of a bank returns it to cache mode where it is a scratchpad bank that holds nothing, and changes no other bank. -/
theorem releaseBank_modes (hcl : cl < 64) (b : Nat) {k : Nat} (hk : k < 64) : ((s.releaseBank cl b).cluster cl).modes[k]?.getD .cache =
    if b = k ∧ (((s.cluster cl).modes[k]?.getD .cache).isScratch && !s.bankUsed cl k) = true then .cache
    else (s.cluster cl).modes[k]?.getD .cache := by
  unfold State.releaseBank
  dsimp only
  by_cases hb : b = k
  · subst hb
    cases hmode : (s.cluster cl).modes[b]?.getD .cache with
    | scratch t =>
      cases hused : s.bankUsed cl b with
      | true => simp [hmode, BankMode.isScratch]
      | false => simp [cluster_setCluster_same, hcl, hk, BankMode.isScratch]
    | cache | fifo => simp [hmode, BankMode.isScratch]
  · simp only [hb, false_and, if_false]
    split
    · split
      · rfl
      · rw [cluster_setCluster_same _ hcl, Vector.getElem?_setIfInBounds_ne hb]
    · rfl

theorem foldl_releaseBank_modes (hcl : cl < 64) (bs : List Nat) (s : State) {k : Nat} (hk : k < 64) :
    ((bs.foldl (fun s b => s.releaseBank cl b) s).cluster cl).modes[k]?.getD .cache =
      if k ∈ bs ∧ (((s.cluster cl).modes[k]?.getD .cache).isScratch && !s.bankUsed cl k) = true then .cache
      else (s.cluster cl).modes[k]?.getD .cache := by
  induction bs generalizing s with
  | nil => simp
  | cons b bs ih =>
    rw [List.foldl_cons, ih, releaseBank_bankUsed, releaseBank_modes hcl b hk]
    generalize (s.cluster cl).modes[k]?.getD .cache = m
    by_cases hfree : (m.isScratch && !s.bankUsed cl k) = true
    · by_cases hb : b = k
      · have hcache : BankMode.isScratch .cache = false := rfl
        simp [hb, hfree, hcache]
      · simp [hb, hfree, eq_comm (a := k)]
    · simp [hfree]

end

/-- Settles O19: pushes and pops by the FIFO's rules, the waits by `fifoWait_eq`, bank release by `foldl_releaseBank_modes`. -/
theorem fifoFormsComplete : Obligations.FifoFormsComplete := by
  refine ⟨?_, ?_, ?_, ?_, ?_, ?_, ?_, ?_⟩
  · intro c o s x hx f
    have hexec := exec_of_issuing (fun _ => rfl) hx
    refine ⟨fun hroom => ?_, fun hfull => ?_⟩
    · simp only [push_of_room (f := x.t.vfOut x.e.w.core) hroom] at hexec
      exact hexec
    · simp only [push_of_full (f := x.t.vfOut x.e.w.core) hfull] at hexec
      exact hexec
  · intro c o d s x hd hx f
    have hexec := exec_of_issuing (fun _ => rfl) hx
    refine ⟨fun hempty => ?_, fun r rest hentry => ?_⟩
    · simp only [VFifo.pop, f] at hexec hempty
      simp only [hempty] at hexec
      exact hexec
    · simp only [VFifo.pop, f] at hexec hentry
      simp only [hentry, popInto_of_good _ hd] at hexec
      exact hexec
  · intro c o s x f hx hf
    have hexec := exec_of_issuing (fun _ => rfl) hx
    simp only [hf] at hexec
    refine ⟨fun hroom => ?_, fun hfull => ?_⟩
    · simp only [push_of_room hroom] at hexec
      exact hexec
    · simp only [push_of_full hfull] at hexec
      exact hexec
  · intro c o d s x f hd hx hf
    have hexec := exec_of_issuing (fun _ => rfl) hx
    simp only [hf, VFifo.pop] at hexec
    refine ⟨fun hempty => ?_, fun r rest hentry => ?_⟩
    · simp only [hempty] at hexec
      exact hexec
    · simp only [hentry, popInto_of_good _ hd] at hexec
      exact hexec
  · intro c o s x hx fn out inb
    have hexec := exec_of_issuing (fun _ => rfl) hx
    refine ⟨fun hlow => ?_, fun f hhigh hf => ?_⟩
    · have hfn : c.fn.toNat = 0 ∨ c.fn.toNat = 1 ∨ c.fn.toNat = 2 ∨ c.fn.toNat = 3 := by omega
      rcases hfn with h | h | h | h <;> simp only [h] at hexec <;> simp only [fn, h] <;> exact hexec
    · obtain ⟨m, hm⟩ : ∃ m, c.fn.toNat = m + 4 := Nat.exists_eq_add_of_le' hhigh
      simp only [fn, hm] at hf ⊢
      simp only [hm, hf] at hexec
      exact hexec
  · intro c o s x f i k n hcase hx
    have hwait : exec i s = .next (x.next s (fifoWait o k x.e x.t)) ∧ x.t.fifoCount x.e.w k = n := by
      rcases hcase with ⟨rfl, rfl, rfl⟩ | ⟨rfl, rfl, rfl⟩ | ⟨rfl, hf, hcount⟩
      · exact ⟨exec_of_issuing (fun _ => rfl) hx, rfl⟩
      · exact ⟨exec_of_issuing (fun _ => rfl) hx, rfl⟩
      · have hexec := exec_of_issuing (fun _ => rfl) hx
        simp only [hf] at hexec
        rcases hcount with ⟨hlow, rfl, rfl⟩ | ⟨hhigh, rfl, rfl⟩
        · rw [if_pos hlow] at hexec
          exact ⟨hexec, by simp [State.fifoCount, bankFifo_of_ok hf]⟩
        · rw [if_neg (Nat.not_lt.2 hhigh)] at hexec
          exact ⟨hexec, by simp [State.fifoCount, bankFifo_of_ok hf]⟩
    obtain ⟨hexec, hcount⟩ := hwait
    rw [hexec, fifoWait_eq o x.t hcount]
    exact ⟨fun hleft => by rw [if_pos hleft], fun hsame => by rw [if_neg (not_not.2 hsame), hsame]⟩
  · intro c o s x hx
    exact exec_of_issuing (fun _ => rfl) hx
  · intro c o s x hcore hx
    refine ⟨_, exec_of_issuing (fun _ => rfl) hx, fun b hb => ?_⟩
    have hcl : clusterOf x.e.w.core < 64 := by
      unfold clusterOf
      omega
    rw [foldl_releaseBank_modes hcl _ _ hb]
    simp only [List.mem_range, hb, true_and]

end Sys2Proof.Machine
end

section
/-!
SUPPORT. The posting of the Yarder's commands (10 R237-R241).
-/

namespace Sys2Proof.Machine

/-! ### Posting (10 R237) -/

/-- A word whose meaning posts its command to one queue of its core posts it (05 R96). -/
theorem posts_of_post {i : Instr} {s : State} {x : Issuing} {q : Nat} {cmd : Cmd} {bar : Option Bar}
    (hexec : exec i s = .next (x.next s (x.e.post x.t [{ core := x.e.w.core, q }] cmd bar none))) : Posts i s x q cmd bar := by
  intro hslots
  have hroom : ([{ core := x.e.w.core, q }].any fun r : QRef => decide ((x.t.core r.core).slots r.q ≥ queueCap r.q)) = false := by
    simpa using hslots
  simp only [Env.post, hroom, Bool.false_eq_true, if_false] at hexec
  refine ⟨fun hgone => ?_, fun hstands => ?_⟩
  · exact hexec.trans (congrArg (fun a => Host.Outcome.next (x.next s a)) (if_pos hgone))
  · exact hexec.trans (congrArg (fun a => Host.Outcome.next (x.next s a)) (if_neg hstands))

theorem postIdent_of_bound {e : Env} {s : State} {q : Nat} {o : Operand} {r : Rec} (h : s.ident e.w.core e.r.ctx (e.u o) = .ok r) :
    e.postIdent s q o = .ok r := by
  simp only [Env.postIdent, h]

/-- A local range of a command lies in its space. -/
theorem outside_eq_false {e : Env} {space off n : Nat} (h : space ≠ 0 → off + n ≤ spaceSize e.w space) : e.outside space off n = false := by
  simpa [Env.outside] using h

section
variable {c : Ctl} {o : OpsR} {e : Env} {s : State}

theorem tileBody_of_checks {r : Rec} (load : Bool) (hid : s.ident e.w.core e.r.ctx (e.u o.a) = .ok r)
    (horigin : originOk r (e.origin o.c) = true)
    (hspace : e.blk o.c 4 + localExtent r (c.fn.toNat == 1) ≤ spaceSize e.w c.fn.toNat)
    (hswz : c.fn.toNat = 1 → swzOk r (e.blk o.c 4) = true)
    (hbar : e.barCheck (e.barOf o.x o.e) 16 = none) : tileBody load c o e s = e.post s [{ core := e.w.core, q := o.x.toNat % 4 }]
      (.tile load c.fn.toNat r (e.pair o.b) (e.origin o.c) (e.blk o.c 4)) (e.barOf o.x o.e) none := by
  have hlayout : (c.fn.toNat == 1 && !swzOk r (e.blk o.c 4)) = false := by
    rw [Bool.and_eq_false_imp, beq_iff_eq]
    exact fun h => by rw [hswz h]; rfl
  simp only [tileBody, postIdent_of_bound hid, horigin, gt_iff_lt, Nat.not_lt.2 hspace, hlayout, hbar, Bool.not_true,
    Bool.false_eq_true, if_false]

theorem gatherBody_of_checks (scatter : Bool) (hrow : e.blk o.a 2 % 4 = 0) (hlo : 4 ≤ e.blk o.a 2) (hhi : e.blk o.a 2 ≤ 65536)
    (hindex : (e.blk o.a 4 + 2 ^ 32 * e.blk o.a 5) % 4 = 0)
    (hspace : c.fn.toNat ≠ 0 → e.engAddr c.fn.toNat o.b + e.blk o.a 2 * e.blk o.a 6 ≤ spaceSize e.w c.fn.toNat)
    (hbar : e.barCheck (e.barOf o.x o.e) 16 = none) : gatherBody scatter c o e s = e.post s [{ core := e.w.core, q := o.x.toNat % 4 }]
      (.gather scatter c.fn.toNat (e.blk o.a 0 + 2 ^ 32 * e.blk o.a 1) (e.blk o.a 2) (e.blk o.a 3) (e.blk o.a 4 + 2 ^ 32 * e.blk o.a 5)
        (e.blk o.a 6) (e.blk o.a 7) (e.engAddr c.fn.toNat o.b)) (e.barOf o.x o.e) none := by
  have hdesc : (e.blk o.a 2 % 4 != 0 || decide (e.blk o.a 2 < 4) || decide (65536 < e.blk o.a 2)) = false := by
    simp [hrow, hlo, hhi]
  simp only [gatherBody, hdesc, hindex, outside_eq_false hspace, hbar, bne_self_eq_false, Bool.false_eq_true, if_false]

end

/-- Settles O20: each meaning comes to one post, by the lemma about its checks, and `posts_of_post` says what that leaves. -/
theorem yarderCommandsComplete : Obligations.YarderCommandsComplete := by
  refine ⟨?_, ?_, ?_, ?_, ?_⟩
  · intro c o s x r load i hi hx hid horigin hspace hswz hbar
    have hexec : ∀ s, exec i s = issueWord i s false false fun _ e s => tileBody load c o e s := by
      rcases hi with ⟨rfl, rfl⟩ | ⟨rfl, rfl⟩ <;> exact fun _ => rfl
    exact posts_of_post (exec_of_answer hexec hx (tileBody_of_checks load hid horigin hspace hswz hbar))
  · intro c o s x hx dst src hdst hsrc hbar
    simp only [dst, src] at hdst hsrc ⊢
    have hexec := exec_of_issuing (fun _ => rfl) hx
    simp only [outside_eq_false hdst, outside_eq_false hsrc, hbar, Bool.false_eq_true, if_false] at hexec
    exact posts_of_post hexec
  · intro c o s x scatter i hi hx w off hrow hlo hhi hindex hspace hbar
    have hexec : ∀ s, exec i s = issueWord i s false false fun _ e s => gatherBody scatter c o e s := by
      rcases hi with ⟨rfl, rfl⟩ | ⟨rfl, rfl⟩ <;> exact fun _ => rfl
    exact posts_of_post (exec_of_answer hexec hx (gatherBody_of_checks scatter hrow hlo hhi hindex hspace hbar))
  · intro c o s x r hx hid horigin hswz hring
    have hlayout : (bits o.x.toNat 3 2 == 1 && recSwz r != 0 && recWrow r != swzRow (recSwz r)) = false := by
      rw [Bool.and_eq_false_imp, Bool.and_eq_true, beq_iff_eq, bne_iff_ne]
      rintro ⟨hbank, hplain⟩
      rw [(hswz hbank).resolve_left hplain, bne_self_eq_false]
    have hexec := exec_of_issuing (fun _ => rfl) hx
    simp only [postIdent_of_bound hid, horigin, hlayout, hring, Bool.not_true, Bool.false_eq_true, if_false] at hexec
    exact posts_of_post hexec
  · intro c o s x hx
    exact posts_of_post (exec_of_issuing (fun _ => rfl) hx)

end Sys2Proof.Machine
end

section
/-!
SUPPORT. Words that store nothing: what each word's meaning leaves of memory.
-/

namespace Sys2Proof.Machine

/-! ### What it is that an answer leaves memory alone -/

/-- A meaning's answer takes effect in a state with the memory of `s`. -/
def Act.Keeps (s : State) : Act → Prop
  | .done t _ | .placed t _ | .park t _ | .ends t | .faultWith t _ => s.sameMem t
  | .jump .. | .fault _ | .stay .. | .ask .. => True

/-- The same of a look-up that ends the instruction word where it fails. -/
def ErrKeeps {α : Type} (s : State) : Except Act α → Prop
  | .ok _ => True
  | .error a => a.Keeps s

/-- The same of a computation with a value and a state. -/
def ExceptKeeps {α : Type} (s : State) : Except Act (α × State) → Prop
  | .ok x => s.sameMem x.2
  | .error a => a.Keeps s

/-- The same with two values. -/
def ExceptKeeps3 {α β : Type} (s : State) : Except Act (α × β × State) → Prop
  | .ok x => s.sameMem x.2.2
  | .error a => a.Keeps s

/-- The same of a reader, at every state. -/
def ReaderKeeps (rd : Reader Act) : Prop := ∀ s va size, ExceptKeeps s (rd va size s)

/-- The same of an instruction word. -/
def OutKeeps (s : State) : Host.Outcome State Fault Refusal → Prop
  | .next t => s.sameMem t
  | .fault _ | .refused _ => True

theorem stateIn_of_keeps {s : State} {a : Act} (h : a.Keeps s) : s.sameMem (a.stateIn s) := by
  cases a with
  | done | placed | park | ends | faultWith => exact h
  | jump | fault | stay | ask => exact sameMem_refl s

theorem keeps_trans {s t : State} {a : Act} (h : s.sameMem t) (ha : a.Keeps t) : a.Keeps s := by
  cases a with
  | done | placed | park | ends | faultWith => exact sameMem_trans h ha
  | jump | fault | stay | ask => trivial

theorem exceptKeeps_trans {α : Type} {s t : State} {x : Except Act (α × State)} (h : s.sameMem t) (hx : ExceptKeeps t x) :
    ExceptKeeps s x := by
  cases x with
  | ok => exact sameMem_trans h hx
  | error => exact keeps_trans h hx

theorem exceptKeeps3_trans {α β : Type} {s t : State} {x : Except Act (α × β × State)} (h : s.sameMem t) (hx : ExceptKeeps3 t x) :
    ExceptKeeps3 s x := by
  cases x with
  | ok => exact sameMem_trans h hx
  | error => exact keeps_trans h hx

/-- A word keeps memory where its meaning does. -/
theorem keeps_issueWord {i : Instr} {s : State} {own all : Bool} {body : View → Env → State → Act} (hb : ∀ v e u, (body v e u).Keeps u) :
    OutKeeps s (issueWord i s own all body) := by
  cases h : issueWord i s own all body with
  | next t => exact issueWord_sameMem h fun v e u => stateIn_of_keeps (hb v e u)
  | fault | refused => trivial

section
variable {s t : State}

/-! ### Reads -/

theorem readLane_sameMem (s : State) (core : Nat) (fill : Fill) (ps : List Piece) (m : Met) : s.sameMem (s.readLane core fill ps m).2.2 :=
  readAll_sameMem ..

theorem uniBytes_sameMem (s : State) (e : Env) (op : ObjOp) (ps : List Piece) : s.sameMem (s.uniBytes e op ps).2 := by
  unfold State.uniBytes
  split
  rename_i bs bad met t hfold
  have ht : s.sameMem t := by
    rw [← show _ = t from congrArg (fun a => a.2.2.2) hfold]
    refine List.foldlRecOn (motive := fun (a : List Byte × Bool × Met × State) => s.sameMem a.2.2.2) ps _ (sameMem_refl s)
      fun a ha p _ => ?_
    split
    · split <;> exact ha
    · exact sameMem_trans ha (readLane_sameMem ..)
  split <;> exact ht

theorem keeps_uniRead (s : State) (e : Env) (op : ObjOp) (ps : List Piece) : ExceptKeeps s (s.uniRead e op ps) := by
  unfold State.uniRead
  split
  · exact uniBytes_sameMem ..
  · trivial

theorem keeps_objAt (s : State) (e : Env) (x : BitVec 10) (addr n : Nat) (acc : Access) : ErrKeeps s (e.objAt s x addr n acc) := by
  unfold Env.objAt
  grind [ErrKeeps, Act.Keeps]

theorem objRead_sameMem (s : State) (e : Env) (op : ObjOp) (ps : List Piece) : s.sameMem (s.objRead e op ps).2 := uniBytes_sameMem ..

theorem keeps_barAt (s : State) (e : Env) (c : Ctl) (x : BitVec 10) (addr : Nat) (acc : Access) (op : ObjOp) (waits : Option Bool) :
    ExceptKeeps3 s (e.barAt s c x addr acc op waits) := by
  unfold Env.barAt
  grind [ExceptKeeps3, ErrKeeps, Act.Keeps, scopeFault, keeps_objAt, objRead_sameMem, metBy_sameMem]

theorem keeps_ringAt (s : State) (e : Env) (c : Ctl) (x : BitVec 10) (addr : Nat) (acc : Access) (waits : Option Bool) :
    ExceptKeeps3 s (e.ringAt s c x addr acc waits) := by
  unfold Env.ringAt
  grind [ExceptKeeps3, ErrKeeps, Act.Keeps, scopeFault, keeps_objAt, objRead_sameMem, metBy_sameMem, keeps_barAt, sameMem_trans,
    keeps_trans]

theorem keeps_fragRec (s : State) (e : Env) (c : Ctl) (o : OpsR) : ErrKeeps s (e.fragRec c o s) := by
  unfold Env.fragRec
  cases s.ident e.w.core e.r.ctx (e.u o.a) with
  | ok r =>
    dsimp only
    split
    · trivial
    · split <;> trivial
  | held | bad | unbound => trivial

theorem keeps_bankFifo (s : State) (e : Env) (k : Nat) : ErrKeeps s (e.bankFifo s k) := by
  unfold Env.bankFifo
  grind [ErrKeeps, Act.Keeps, Act.trap]

/-! ### Readers of a launch's tables (08 R181) -/

theorem keeps_readGrown {rd : Nat → State → Except Act (List Byte × State)} (hrd : ∀ n, ExceptKeeps s (rd n s)) (size : List Byte → Nat)
    (n : Nat) (bs : List Byte) (h : s.sameMem t) : ExceptKeeps s (readGrown rd size s n bs t) := by
  induction n generalizing bs t with
  | zero => exact h
  | succ n ih =>
    have hr := hrd (size bs)
    unfold readGrown
    grind [ExceptKeeps]

theorem keeps_globalRead (e : Env) : ReaderKeeps e.globalRead := by
  intro s va size
  unfold Env.globalRead
  split
  · exact sameMem_refl s
  · extract_lets read
    have hread (n : Nat) : ExceptKeeps s (read n s) := by
      dsimp only [read]
      grind [ExceptKeeps, Act.Keeps, sameMem_refl, keeps_uniRead]
    have hgrown := keeps_readGrown hread size 4 [] (sameMem_refl s)
    grind [ExceptKeeps, Act.Keeps, sameMem_trans, modGroup_sameMem]

section
variable {rd : Reader Act} (hrd : ReaderKeeps rd)
include hrd

theorem keeps_readMacros (s : State) (addr : Nat) : ExceptKeeps s (readMacros rd addr s) := by
  have hr := hrd s addr macroSize
  unfold readMacros
  grind [ExceptKeeps, sameMem_refl]

theorem keeps_readTargets (s : State) (d : Desc) (ks : List Nat) : ExceptKeeps3 s (readTargets rd d s ks) := by
  induction ks generalizing s with
  | nil => exact sameMem_refl s
  | cons k ks ih =>
    have hmacros {t : State} (ht : s.sameMem t) (addr : Nat) := exceptKeeps_trans ht (keeps_readMacros hrd t addr)
    have hrest {t : State} (ht : s.sameMem t) := exceptKeeps3_trans ht (ih t)
    have hr := hrd s (d.dtgt + 128 * k) fun _ => 128
    unfold readTargets
    split
    · grind [ExceptKeeps3, sameMem_refl]
    · split <;> rename_i hk <;> rw [hk] at hr
      · exact hr
      · rename_i bs t
        have hm : ExceptKeeps s (if (descOf bs).macroAt == d.macroAt then .ok (some [], t) else readMacros rd (descOf bs).macroAt t) := by
          split <;> [exact hr; exact hmacros hr _]
        grind [ExceptKeeps, ExceptKeeps3]

theorem keeps_readLaunch (s : State) (bs : List Byte) : ExceptKeeps s (readLaunch rd bs s) := by
  have hmacros := keeps_readMacros hrd s (descOf bs).macroAt
  have htargets := keeps_readTargets hrd
  unfold readLaunch
  grind [ExceptKeeps, ExceptKeeps3, sameMem_trans, keeps_trans]

end

/-! ### Lines of the cluster cache (10 R235) -/

theorem meetLine_sameMem (s : State) (cl line : Nat) : s.sameMem (s.meetLine cl line) := by
  unfold State.meetLine
  split
  · exact injTake_sameMem s
  · exact sameMem_refl s

theorem fillWhole_sameMem (s : State) (cl : Nat) (h : Hint) (a : Nat × Nat) : s.sameMem (s.fillWhole cl h a) := by
  unfold State.fillWhole
  grind [sameMem_trans, meetLine_sameMem, setCluster_sameMem]

theorem fillLine_sameMem (s : State) (cl : Nat) (h : Hint) (t : Option Target) : s.sameMem (s.fillLine cl h t) := by
  unfold State.fillLine
  grind [sameMem_refl, copyPeer_sameMem, fillWhole_sameMem]

theorem pinOne_sameMem (s : State) (cl ctx quota : Nat) (h : Hint) (t : Option Target) : s.sameMem (s.pinOne cl ctx quota h t).1 := by
  unfold State.pinOne
  grind [sameMem_refl, sameMem_trans, fillLine_sameMem, meetLine_sameMem, setCluster_sameMem]

/-! ### The meanings that words share -/

theorem keeps_branchIf (s : State) (g : Group) (taken : Bool) (t : DWord) : (branchIf s g taken t).Keeps s := by
  cases taken
  · exact sameMem_refl s
  · trivial

theorem keeps_fifoWait (o : OpsR) (k : FifoCount) (e : Env) (s : State) : (fifoWait o k e s).Keeps s := by
  unfold fifoWait
  dsimp only
  split <;> exact sameMem_refl s

theorem keeps_popInto (s : State) (e : Env) (o : OpsR) (x : VReg × LaneMap) : (popInto s e o x).Keeps s := by
  unfold popInto
  grind [Act.Keeps, sameMem_refl, sameMem_trans, setGroup_sameMem, count_sameMem, kill_sameMem]

theorem keeps_waitBody (c : Ctl) (o : OpsR) (swap : Bool) (e : Env) (s : State) : (waitBody c o swap e s).Keeps s := by
  unfold waitBody
  grind [Act.Keeps, ExceptKeeps3, keeps_barAt]

theorem csrWrite_sameMem (s : State) (g : Group) (n v : Nat) : s.sameMem (s.csrWrite g n v).1 := by
  fun_cases State.csrWrite <;> exact ⟨rfl, rfl, rfl, rfl⟩

theorem keeps_csrwBody (o : OpsI) (e : Env) (s : State) : (csrwBody o e s).Keeps s := csrWrite_sameMem ..

theorem keeps_csrxBody (o : OpsR) (new : Nat → Nat → Nat) (e : Env) (s : State) : (csrxBody o new e s).Keeps s := csrWrite_sameMem ..

theorem gateCore_sameMem (s : State) (core : Nat) : s.sameMem (s.gateCore core).2 := by
  fun_cases State.gateCore <;> exact ⟨rfl, rfl, rfl, rfl⟩

theorem ungateCore_sameMem (s : State) (core : Nat) : s.sameMem (s.ungateCore core).2 := by
  fun_cases State.ungateCore <;> exact ⟨rfl, rfl, rfl, rfl⟩

theorem keeps_pgreqBody {req : State → Nat → Nat × State} (hreq : ∀ (s : State) n, s.sameMem (req s n).2) (o : OpsR) (e : Env) (s : State) :
    (pgreqBody o req e s).Keeps s := by
  unfold pgreqBody
  grind [Act.Keeps, Act.trap, sameMem_refl]

theorem releaseBank_sameMem (s : State) (cl b : Nat) : s.sameMem (s.releaseBank cl b) := by
  unfold State.releaseBank
  grind [sameMem_refl, setCluster_sameMem]

theorem keeps_post (s : State) (e : Env) (q : QRef) (cmd : Cmd) (bar : Option Bar) (failed : Option FaultInfo) :
    (e.post s [q] cmd bar failed).Keeps s := by
  unfold Env.post
  split
  · trivial
  · dsimp only
    split <;> exact ⟨rfl, rfl, rfl, rfl⟩

/-! ### Instruction words whose meaning changes more than the group -/

@[simp] theorem keeps_execExit (c : Ctl) (o : OpsR) : OutKeeps s (execExit c o s) := by
  refine keeps_issueWord fun v e u => ?_
  grind [Act.Keeps, sameMem_refl, sameMem_trans, setGroup_sameMem, retire_sameMem]

@[simp] theorem keeps_execSpawn (c : Ctl) (o : OpsR) : OutKeeps s (execSpawn c o s) := by
  refine keeps_issueWord fun v e u => ?_
  have hdone (ctx lnum k col : Nat) (f : Deck → Deck) (b : LbKind) : u.sameMem ((u.modDeck ctx lnum k f).request col ctx lnum b) :=
    ⟨rfl, rfl, rfl, rfl⟩
  grind [Act.Keeps, Act.trap, sameMem_refl]

@[simp] theorem keeps_execFork (c : Ctl) (o : OpsR) : OutKeeps s (execFork c o s) := by
  refine keeps_issueWord fun v e u => ?_
  have hrd := keeps_globalRead e
  dsimp only
  split
  · trivial
  · have h1 := hrd u (e.pair o.a) fun _ => 128
    split <;> rename_i hk <;> rw [hk] at h1
    · exact h1
    · rename_i bs s1
      have h2 := exceptKeeps_trans h1 (keeps_readLaunch hrd s1 bs)
      split <;> rename_i hk <;> rw [hk] at h2
      · exact h2
      · exact h2
      · rename_i k s2
        split
        · exact h2
        · have h3 : ExceptKeeps u (if o.e == .none then .ok ([], s2) else e.globalRead k.desc.compl (fun _ => 4) s2) := by
            split <;> [exact h2; exact exceptKeeps_trans h2 (hrd ..)]
          split <;> rename_i hk <;> rw [hk] at h3
          · exact h3
          · split <;> [trivial; exact sameMem_trans h3 (setCol_sameMem ..)]

@[simp] theorem keeps_execCancel (c : Ctl) (o : OpsR) : OutKeeps s (execCancel c o s) := by
  refine keeps_issueWord fun v e u => ?_
  dsimp only
  split
  · trivial
  · split
    · trivial
    · split <;> exact ⟨rfl, rfl, rfl, rfl⟩

@[simp] theorem keeps_execLd (c : Ctl) (o : OpsM) : OutKeeps s (execLd c o s) := by
  refine keeps_issueWord fun v e u => ?_
  grind [Act.Keeps, sameMem_refl, readAll_sameMem]

@[simp] theorem keeps_execLdm (c : Ctl) (o : OpsR) : OutKeeps s (execLdm c o s) := by
  refine keeps_issueWord fun v e u => ?_
  grind [Act.Keeps, ErrKeeps, sameMem_refl, readAll_sameMem, keeps_fragRec]

@[simp] theorem keeps_execMrd (c : Ctl) (o : OpsR) : OutKeeps s (execMrd c o s) := by
  refine keeps_issueWord fun v e u => ?_
  grind [Act.Keeps, sameMem_refl, readAll_sameMem]

@[simp] theorem keeps_execPref (c : Ctl) (o : OpsR) : OutKeeps s (execPref c o s) := by
  refine keeps_issueWord fun v e u => ?_
  dsimp only
  split
  · trivial
  · split
    · exact foldl_sameMem _ (fun t a => fillWhole_sameMem ..) _ _
    · exact sameMem_refl u

@[simp] theorem keeps_execPinOn (c : Ctl) (o : OpsR) : OutKeeps s (execPinOn c o s) := by
  refine keeps_issueWord fun v e u => ?_
  dsimp only
  split
  · trivial
  · exact List.foldlRecOn (motive := fun (a : State × Bool) => u.sameMem a.1) _ _ (sameMem_refl u) fun a ha l _ =>
      sameMem_trans ha (pinOne_sameMem ..)

@[simp] theorem keeps_execPinOff (c : Ctl) (o : OpsR) : OutKeeps s (execPinOff c o s) := by
  refine keeps_issueWord fun v e u => ?_
  dsimp only
  split
  · trivial
  · exact setCluster_sameMem ..

theorem setIdent_sameMem (s : State) (core ctx n : Nat) (r : Option Rec) : s.sameMem (s.setIdent core ctx n r) := ⟨rfl, rfl, rfl, rfl⟩

@[simp] theorem keeps_execTbind (c : Ctl) (o : OpsR) : OutKeeps s (execTbind c o s) := by
  refine keeps_issueWord fun v e u => ?_
  grind [Act.Keeps, ExceptKeeps, Act.trap, State.bindRec, sameMem_trans, setIdent_sameMem, keeps_uniRead]

@[simp] theorem keeps_execBarq (c : Ctl) (o : OpsR) : OutKeeps s (execBarq c o s) := by
  refine keeps_issueWord fun v e u => ?_
  grind [Act.Keeps, ErrKeeps, keeps_objAt, objRead_sameMem]

@[simp] theorem keeps_execRawait (c : Ctl) (o : OpsR) : OutKeeps s (execRawait c o s) := by
  refine keeps_issueWord fun v e u => ?_
  have hr := keeps_ringAt u e c o.x (e.objAddr o.a o.x) .read (some false)
  dsimp only
  split <;> rename_i hk <;> rw [hk] at hr
  · exact hr
  · split <;> exact hr

@[simp] theorem keeps_execVpush (c : Ctl) (o : OpsR) : OutKeeps s (execVpush c o s) := by
  refine keeps_issueWord fun v e u => ?_
  split <;> exact ⟨rfl, rfl, rfl, rfl⟩

theorem setVfIn_sameMem (s : State) (core : Nat) (f : VFifo) : s.sameMem (s.setVfIn core f) := setCore_sameMem ..

theorem setBankFifo_sameMem (s : State) (w : Workgroup) (k : Nat) (q : VFifo) : s.sameMem (s.setBankFifo w k q) := setCluster_sameMem ..

@[simp] theorem keeps_execVpop (c : Ctl) (o : OpsR) : OutKeeps s (execVpop c o s) := by
  refine keeps_issueWord fun v e u => ?_
  split
  · exact keeps_trans (setVfIn_sameMem ..) (keeps_popInto ..)
  · exact sameMem_refl u

@[simp] theorem keeps_execVfree (c : Ctl) (o : OpsR) : OutKeeps s (execVfree c o s) := by
  refine keeps_issueWord fun v e u => ?_
  grind [Act.Keeps, ErrKeeps, sameMem_refl, keeps_bankFifo]

@[simp] theorem keeps_execFpush (c : Ctl) (o : OpsR) : OutKeeps s (execFpush c o s) := by
  refine keeps_issueWord fun v e u => ?_
  grind [Act.Keeps, ErrKeeps, sameMem_refl, setBankFifo_sameMem, keeps_bankFifo]

@[simp] theorem keeps_execFpop (c : Ctl) (o : OpsR) : OutKeeps s (execFpop c o s) := by
  refine keeps_issueWord fun v e u => ?_
  grind [Act.Keeps, ErrKeeps, sameMem_refl, keeps_trans, setBankFifo_sameMem, keeps_bankFifo, keeps_popInto]

@[simp] theorem keeps_execWaitphBankFifo (c : Ctl) (o : OpsR) : OutKeeps s (execWaitphBankFifo c o s) := by
  refine keeps_issueWord fun v e u => ?_
  grind [ErrKeeps, keeps_fifoWait, keeps_bankFifo]

@[simp] theorem keeps_execBankmodeRelease (c : Ctl) (o : OpsR) : OutKeeps s (execBankmodeRelease c o s) :=
  keeps_issueWord fun _ _ u => foldl_sameMem _ (fun _ _ => releaseBank_sameMem ..) _ u

@[simp] theorem keeps_execTlbinvRange (c : Ctl) (o : OpsR) : OutKeeps s (execTlbinvRange c o s) := by
  refine keeps_issueWord fun v e u => ?_
  dsimp only
  split
  · trivial
  · split <;> [trivial; exact ⟨rfl, rfl, rfl, rfl⟩]

@[simp] theorem keeps_execCacheopDrop (c : Ctl) (o : OpsR) : OutKeeps s (execCacheopDrop c o s) := by
  refine keeps_issueWord fun v e u => ?_
  dsimp only
  split <;> [trivial; exact setCluster_sameMem ..]

@[simp] theorem keeps_execGrest (c : Ctl) (o : OpsR) : OutKeeps s (execGrest c o s) := by
  refine keeps_issueWord fun v e u => ?_
  dsimp only
  split
  · trivial
  split
  · trivial
  split
  · trivial
  · trivial
  · rename_i hs _
    split
    · trivial
    have hhead := keeps_uniRead u e .read (hs.flatMap (·.2))
    split <;> rename_i hk <;> rw [hk] at hhead
    · exact hhead
    split
    · exact metBy_sameMem ..
    · trivial
    · rename_i as _
      split
      · trivial
      have himage := keeps_uniRead u e .read (as.flatMap (·.2))
      split <;> rename_i hk <;> rw [hk] at himage
      · exact himage
      · split
        · exact himage
        · exact metBy_sameMem ..

@[simp] theorem keeps_execBrw (c : Ctl) (o : OpsR) : OutKeeps s (execBrw c o s) := by
  refine keeps_issueWord fun v e u => ?_
  dsimp only
  split
  · exact keeps_branchIf ..
  · exact sameMem_refl u

@[simp] theorem keeps_execWbind (c : Ctl) (o : OpsR) : OutKeeps s (execWbind c o s) := by
  refine keeps_issueWord fun v e u => ?_
  dsimp only
  split
  · exact sameMem_refl u
  · cases u.ident e.w.core e.r.ctx (e.u o.a) with
    | ok r =>
      dsimp only
      split <;> [trivial; exact sameMem_refl u]
    | held | bad | unbound => trivial

end

/-- Whatever comes of a word that stores nothing, memory stays as it was. -/
theorem keeps_exec {i : Instr} (hkeeps : keepsMemory i = true) (s : State) : OutKeeps s (exec i s) := by
  cases i with
  -- words whose meaning answers one thing, and changes at most the group, a cluster's copies or the translations
  | nop | yield | mand | mor | mandn | mxor | mnot | mmov | mpop | mfind | msetPair | msetFirst | mget | mtst | mof | restrict | fill
  | push | reduce | scan | lanemapPos | lanemapTid | iadd | isub | imul | imulh | imad | idiv | irem | imin | imax | iabs | ineg | iadds
  | lea | mov | movi | and | or | xor | andn | tril | shl | shr | sar | fshl | fshr | bfx | bfi | popc | clz | ctz | brev | fadd | fsub
  | fmul | ffma | fmin | fmax | frcp | frsq | fsqrt | fdiv | fexp2 | flog2 | fsin | fcos | ftanh | frnd | fclass | fscale | fdot2 | cvt
  | cvtb | decb | bankmodeCmin | rank | idot4 | mqstatFlags | mqstatClr | mqstatDepth | csrr | tlbinvAll | cacheopDropall | clockCyc
  | clockNs | clockEpoch =>
    exact keeps_issueWord fun _ _ _ => ⟨rfl, rfl, rfl, rfl⟩
  -- words that go elsewhere or trap
  | bra | brxAbs | brxRel | call | ret | trap | rft | bkpt =>
    exact keeps_issueWord fun _ _ _ => trivial
  -- words that choose between answers, each with the state as they find it
  | mcall | cntrdCount | cntrdStatus | merge | compact | pull | bcast | vote | icmp | fcmp | fclassM | wstat | tinfo | sfence | prune
  | isect =>
    exact keeps_issueWord fun v e u => by grind [Act.Keeps, Act.trap, sameMem_refl]
  -- words whose meaning is one that several share
  | brm | brdec => exact keeps_issueWord fun _ _ _ => keeps_branchIf ..
  | waitph | waitphSwap => exact keeps_issueWord fun _ _ _ => keeps_waitBody ..
  | waitphVin | waitphVout => exact keeps_issueWord fun _ _ _ => keeps_fifoWait ..
  | yfence => exact keeps_issueWord fun _ _ _ => keeps_post ..
  | csrw | srseedWrite | wdogWrite | injcWrite => exact keeps_issueWord fun _ _ _ => keeps_csrwBody ..
  | csrxSet | csrxClr | csrxSwap => exact keeps_issueWord fun _ _ _ => keeps_csrxBody ..
  | pgreqGate => exact keeps_issueWord fun _ _ _ => keeps_pgreqBody gateCore_sameMem ..
  | pgreqUngate => exact keeps_issueWord fun _ _ _ => keeps_pgreqBody ungateCore_sameMem ..
  -- the other words, by their own lemmas
  | brw | exit | spawn | fork | cancel | ld | ldm | wbind | pref | pinOn | pinOff | tbind | waitphBankFifo | barq | rawait | vpush | vpop
  | vfree | fpush | fpop | bankmodeRelease | mrd | tlbinvRange | cacheopDrop | grest =>
    simp [exec]
  -- words that store, and what is no word
  | _ => cases hkeeps

/-- Settles O44: what each word leaves of memory is `keeps_exec`, and equal stores read alike. -/
theorem wordsThatStoreNothingKeepMemory : Obligations.WordsThatStoreNothingKeepMemory := by
  intro i s t hkeeps hexec st a
  have h := keeps_exec hkeeps s
  rw [hexec] at h
  rw [sameMem_mem h]

end Sys2Proof.Machine
end

section
/-!
SUPPORT. ST and STM: the bytes that their stores reach (10 R226, R228).
-/

namespace Sys2Proof.Machine

/-! ### Bytes that a store does not reach -/

theorem readByte_writeRange_outside (m : Mem) {a k : Nat} (bs : List Byte) (hk : ¬(a ≤ k ∧ k < a + bs.length)) :
    readByte (writeRange m a bs) k = readByte m k := by
  induction bs generalizing m a with
  | nil => rfl
  | cons b bs ih =>
    rw [List.length_cons] at hk
    rw [writeRange, ih _ (by omega), readByte_writeByte_ne m b (by omega)]

section
variable {s : State} {st : Store} {a : Nat}

theorem readByte_put_outside (s : State) {l : Loc} {bs : List Byte} (h : ¬(l.store = st ∧ l.addr ≤ a ∧ a < l.addr + bs.length)) :
    readByte ((s.put l bs).mem st) a = readByte (s.mem st) a := by
  rw [mem_put]
  split
  next hst => exact readByte_writeRange_outside _ bs fun ha => h ⟨hst.symm, ha⟩
  next => rfl

theorem readByte_colStore_outside (s : State) (c ctx lnum : Nat) {l : Loc} {bs : List Byte}
    (h : ¬(l.store = st ∧ l.addr ≤ a ∧ a < l.addr + bs.length)) :
    readByte ((s.colStore c ctx lnum l bs).mem st) a = readByte (s.mem st) a := by
  by_cases hbs : bs = []
  · subst hbs
    rfl
  by_cases hhome : locColumn l = some c
  · rw [colStore_here hbs hhome, mem_putProv, readByte_put_outside s h]
  · rw [mem_colStore_away hbs hhome]

theorem dropPeer_sameMem (s : State) (fep pa n : Nat) : s.sameMem (s.dropPeer fep pa n) := sameMem_of rfl rfl rfl rfl

/-- A byte of memory lies in one of the pieces of an access. -/
def reaches (ps : List Piece) (st : Store) (a : Nat) : Prop :=
  ∃ p ∈ ps, ∃ l mt, p.1 = .mem l mt ∧ l.store = st ∧ l.addr ≤ a ∧ a < l.addr + p.2

/-- The bytes of an access reach its pieces, and no more of each than it is long. -/
theorem readByte_storePieces_outside (x : Writer) {ps : List Piece} (h : ¬reaches ps st a) (s : State) (bs : List Byte) :
    readByte ((s.storePieces x ps bs).mem st) a = readByte (s.mem st) a := by
  unfold State.storePieces
  refine List.foldlRecOn (motive := fun u : State × List Byte => readByte (u.1.mem st) a = readByte (s.mem st) a) ps _ rfl
    fun u hu p hp => ?_
  dsimp only
  split
  next l mt hmem =>
    rw [readByte_colStore_outside, hu]
    rintro ⟨hst, hlo, hhi⟩
    exact h ⟨p, hp, l, mt, hmem, hst, hlo, hhi.trans_le (Nat.add_le_add_left (List.length_take_le ..) _)⟩
  next => rw [sameMem_mem (sameMem_trans (dropPeer_sameMem ..) (send_sameMem ..)), hu]

theorem readByte_stores_outside {α : Type} (wr : α → Writer) (ps : α → List Piece) (data : α → List Byte) {as : List α}
    (h : ∀ p ∈ as, ¬reaches (ps p) st a) (s : State) :
    readByte ((as.foldl (fun t p => t.storePieces (wr p) (ps p) (data p)) s).mem st) a = readByte (s.mem st) a :=
  List.foldlRecOn (motive := fun u : State => readByte (u.mem st) a = readByte (s.mem st) a) as _ rfl
    fun u hu p hp => (readByte_storePieces_outside _ (h p hp) u _).trans hu

end

/-! ### What a performed instruction leaves of its group -/

/-- Two states of a group with the same registers, maps, predicates, walkers and special registers. -/
def Group.sameRegs (g h : Group) : Prop :=
  h.v = g.v ∧ h.s = g.s ∧ h.m = g.m ∧ h.p = g.p ∧ h.w = g.w ∧ h.gstat = g.gstat ∧ h.live = g.live ∧ h.trapb = g.trapb ∧ h.tpc = g.tpc ∧
  h.tcause = g.tcause ∧ h.taddr = g.taddr ∧ h.tmap = g.tmap ∧ h.taux = g.taux ∧ h.wdog = g.wdog ∧ h.handler = g.handler ∧
  h.srseed = g.srseed ∧ h.srn = g.srn ∧ h.chk = g.chk ∧ h.mstat = g.mstat ∧ h.dead = g.dead ∧ h.tid = g.tid

/-- The bookkeeping after an instruction changes no register. -/
theorem sameRegs_after (g : Group) (v : View) (f : Form) (t : Clock) (epoch : Nat) (taken : Bool) (dsts : List RegName) :
    g.sameRegs (g.after v f t epoch taken dsts) := by
  unfold Group.after
  rw [timedTok_tokens]
  simp [Group.sameRegs, Group.occupy, Group.counted]

theorem sameRegs_stepOn {g h : Group} (bodies : List (List InstrWord)) (hsame : g.sameRegs h) : g.sameRegs (h.stepOn bodies) := by
  cases hm : h.mcall with
  | none => rw [stepOn_of_slot hm]; exact hsame
  | some x =>
    obtain ⟨m, k⟩ := x
    rcases Nat.lt_or_ge (k + 1) (bodies.getD m []).length with hlen | hlen
    · rw [stepOn_of_body hm hlen]; exact hsame
    · rw [stepOn_of_last hm hlen]; exact hsame

/-- What O45 says of a state that a store leaves. -/
def StoreKeeps (x : Issuing) (as : List (Nat × List Piece)) (t : State) : Prop :=
  (∀ st a, (∀ p ∈ as, ¬reaches p.2 st a) → readByte (t.mem st) a = readByte (x.t.mem st) a) ∧
  ∃ u h, t = Machine.State.setGroup u x.r h ∧ x.e.g.sameRegs h

section
variable {s t : State} {x : Issuing} {as : List (Nat × List Piece)}

theorem storeKeeps_done {u : State} (hmem : ∀ st a, (∀ p ∈ as, ¬reaches p.2 st a) → readByte (u.mem st) a = readByte (x.t.mem st) a) :
    StoreKeeps x as (x.next s (.done u x.e.g)) :=
  ⟨fun st a h => (congrArg (readByte · a) (sameMem_mem (setGroup_sameMem ..) st)).trans (hmem st a h),
    _, _, rfl, sameRegs_stepOn _ (sameRegs_after ..)⟩

theorem storeKeeps_park (q : LaneReq) : StoreKeeps x as (x.next s (.park x.t { x.e.g with wait := .lanes q })) :=
  ⟨fun st a _ => congrArg (readByte · a) (sameMem_mem (setGroup_sameMem ..) st), _, _, rfl, sameRegs_after ..⟩

/-- A store that performs all lanes at issue, or waits with them, reaches its bytes alone. -/
theorem storeKeeps_of_ite {i : Instr} {b : Bool} {α : Type} {bs : List α} {q : LaneReq} {u : State}
    (h : exec i s = .next (x.next s (if b && !bs.isEmpty then .park x.t { x.e.g with wait := .lanes q } else .done u x.e.g)))
    (hmem : ∀ st a, (∀ p ∈ as, ¬reaches p.2 st a) → readByte (u.mem st) a = readByte (x.t.mem st) a) (ht : exec i s = .next t) :
    StoreKeeps x as t := by
  rw [h] at ht
  cases ht
  split
  · exact storeKeeps_park q
  · exact storeKeeps_done hmem

end

/-- Settles O45: `storeKeeps_of_ite`, with the bytes by `readByte_stores_outside` and the registers by `sameRegs_after`. -/
theorem storesReachOnlyTheirBytes : Obligations.StoresReachOnlyTheirBytes := by
  intro s t i x as hx hi ht
  have hkeeps : StoreKeeps x as t := by
    obtain ⟨c, o, rfl, has, hheld, hroom⟩ | ⟨c, o, d, r, rfl, hd, hid, hblock, hbits, hswz, has, hheld⟩ := hi
    · have hexec := exec_of_issuing (fun _ => rfl) hx
      simp only [has, hheld, hroom, Bool.not_true, Bool.or_self, Bool.false_eq_true, if_false] at hexec
      exact storeKeeps_of_ite hexec (fun st a h => readByte_stores_outside _ _ _ h x.t) ht
    · have hv : x.v.d = .vec d := (issuing_field View.d hx rfl).trans hd
      have hexec := exec_of_issuing (fun _ => rfl) hx
      simp only [fragRec_of_bound hid hblock hbits hswz, has, hv, hheld, Bool.false_eq_true, if_false] at hexec
      exact storeKeeps_of_ite hexec (fun st a h => readByte_stores_outside _ _ _ (fun p hp => h p.1 (List.of_mem_zip hp).1) x.t) ht
  obtain ⟨hmem, u, h, hset, hregs⟩ := hkeeps
  refine ⟨fun st a hout => hmem st a ?_, u, h, hset, hregs⟩
  rintro p hp ⟨q, hq, l, mt, hl, hin⟩
  exact hout p hp q hq l mt hl hin

end Sys2Proof.Machine
end

section
/-!
SUPPORT. PRUNE and ISECT (11 R269, R270): the places of the lanes that PRUNE keeps, and the lanes of an intersection that are empty or not.
-/

namespace Sys2Proof.Machine

/-! ### PRUNE (11 R269) -/

/-- A lane that a group keeps lies in that group: its place there is its number in groups of m. -/
theorem sub_eq_mod_of_mem_keptLanes {n m q l : Nat} {key : Nat → Option Nat} (h : l ∈ keptLanes n m q key) : l - q * m = l % m := by
  rw [keptLanes, List.mem_filter, List.mem_map] at h
  obtain ⟨⟨j, hj, rfl⟩, -⟩ := h
  rw [Nat.add_sub_cancel_left, Nat.add_comm, Nat.mul_comm, Nat.add_mul_mod_self_left, Nat.mod_eq_of_lt (List.mem_range.1 hj)]

/-- The lanes that PRUNE keeps, each with its place in its group. -/
theorem flatMap_keptLanes_places (n m : Nat) (key : Nat → Option Nat) (qs : List Nat) :
    (qs.flatMap fun q => (keptLanes n m q key).map fun l => (l, l - q * m)) =
      (qs.flatMap fun q => keptLanes n m q key).map fun l => (l, l % m) := by
  rw [List.map_flatMap]
  congr 1
  funext q
  exact List.map_congr_left fun l hl => by rw [sub_eq_mod_of_mem_keptLanes hl]

/-- The places of kept lanes, as the one number that PRUNE writes: a digit of base 16 for each. -/
theorem foldl_places_eq_sum (m : Nat) (ls : List Nat) :
    ((ls.map fun l => (l, l % m)).zipIdx.foldl (fun a p => a + p.1.2 * 16 ^ p.2) 0) = (ls.zipIdx.map fun p => p.1 % m * 16 ^ p.2).sum := by
  rw [List.zipIdx_map, List.foldl_map, List.sum_eq_foldl, List.foldl_map]
  rfl

/-! ### ISECT (11 R270) -/

theorem writeV_b32 (g : Group) (n : Nat) (rs : List (Nat × Nat)) :
    g.writeV .b32 n rs = g.setV n (rs.map fun p => (p.1, BitVec.ofNat 32 p.2)) := rfl

/-- Of the lanes of a map with their values, those whose value meets a condition. -/
theorem filter_map_lanes (m : LaneMap) (v : Nat → Nat) (p : Nat → Bool) :
    (((lanesOf m).map fun l => (l, v l)).filter fun x => p x.2) = ((lanesOf m).filter fun l => p (v l)).map fun l => (l, v l) := by
  rw [List.filter_map]
  rfl

/-- The register that holds a value on the lanes of a map that meet a condition. -/
theorem vget?_filter_lanes (m : LaneMap) (p : Nat → Bool) (f : Nat → Word) {l : Nat} (hl : l < 64) :
    vget? (((lanesOf m).filter p).map fun k => (k, f k)) l = if m.getLsbD l && p l then some (f l) else none := by
  rw [vget?_map]
  simp [mem_lanesOf, hl]

/-- Settles O9: PRUNE's places are `sub_eq_mod_of_mem_keptLanes`, and ISECT's lanes are filtered by whether their intersection is empty. -/
theorem sparseFormsComplete : Obligations.SparseFormsComplete := by
  refine ⟨?_, ?_, ?_⟩
  · intro c o d k s x hd he hx hm n m key kept place
    have hexec := exec_of_issuing (fun _ => rfl) hx
    simp only [beq_eq_false_iff_ne.2 hm, hd, he, Bool.false_eq_true, if_false, flatMap_keptLanes_places, foldl_places_eq_sum] at hexec
    rw [List.zipIdx_map, List.map_map] at hexec
    exact ⟨_, hexec, rfl⟩
  · intro c o s x hx hm
    have hexec := exec_of_issuing (fun _ => rfl) hx
    simpa only [hm, BEq.rfl, if_true] using hexec
  · intro c o d s x hd hx v
    have hexec := exec_of_issuing (fun _ => rfl) hx
    simp only [hd] at hexec
    rw [filter_map_lanes x.e.m v fun n => n != 0, filter_map_lanes x.e.m v fun n => n == 0, writeV_b32] at hexec
    simp only [List.map_map, Function.comp_def, List.map_id'] at hexec
    exact ⟨_, _, hexec, fun l hl => getLsbD_mapOf_filter x.e.m (fun l => v l == 0) hl,
      fun l hl => vget?_filter_lanes x.e.m (fun l => v l != 0) (fun l => BitVec.ofNat 32 (v l)) hl⟩

end Sys2Proof.Machine
end

section
/-!
SUPPORT. The accumulator forms (11 R267, R268): the words of their lanes, and MSCALE where it meets no uncorrectable word.
-/

namespace Sys2Proof.Machine

/-- The words of a map's lanes in lines that lie in the accumulator store. -/
theorem accPieces_of_inside {e : Env} {off w : Nat} (m : LaneMap) (halign : off % 256 = 0) (hin : off + 256 * w ≤ 0x80000) :
    e.accPieces off w m = .ok (accLines e off w m) := by
  have hbad : (off % 256 != 0 || decide (off + 256 * w > 0x80000)) = false := by simp [halign, hin]
  simp only [Env.accPieces, hbad, Bool.false_eq_true, if_false]
  rfl

/-! ### MSCALE (11 R267) -/

/-- A read answers for the lanes that ask, in their order. -/
theorem readAll_lanes (s : State) (core : Nat) (h : Fill) (as : List (Nat × List Piece)) (m : Met) :
    (s.readAll core h as m).1.map (·.1) = as.map (·.1) := by
  simp only [State.readAll, List.map_map]
  rfl

/-- Where no word is uncorrectable, every lane is scaled. -/
theorem filter_good_eq {as : List (Nat × List Piece)} {gs : List (Nat × Got)} (hlanes : gs.map (·.1) = as.map (·.1))
    (hgood : (gs.all fun g => g.2.bad.isNone) = true) : (as.filter fun p => gs.any fun g => g.1 == p.1 && g.2.bad.isNone) = as := by
  rw [List.filter_eq_self]
  intro p hp
  obtain ⟨g, hg, hgp⟩ := List.mem_map.1 (hlanes ▸ List.mem_map_of_mem hp : p.1 ∈ gs.map (·.1))
  exact List.any_eq_true.2 ⟨g, hg, by simp [hgp, List.all_eq_true.1 hgood g hg]⟩

theorem any_bad_eq_false {gs : List (Nat × Got)} (hgood : (gs.all fun g => g.2.bad.isNone) = true) :
    (gs.any fun g => g.2.bad.isSome) = false := by
  rw [List.any_eq_false]
  intro g hg
  simpa using List.all_eq_true.1 hgood g hg

/-- Where no word is uncorrectable, no lane dies. -/
theorem killBad_of_good {gs : List (Nat × Got)} (hgood : (gs.all fun g => g.2.bad.isNone) = true) (s : State) (r : GRef) (iaddr mstep : Nat) :
    s.killBad r (gs.filterMap fun p => p.2.bad.map fun b => (p.1, b)) iaddr mstep = s := by
  have hnone : (gs.filterMap fun p => p.2.bad.map fun b => (p.1, b)) = [] := by
    rw [List.filterMap_eq_nil_iff]
    intro g hg
    simpa using List.all_eq_true.1 hgood g hg
  rw [hnone]
  rfl

theorem mscaleWord_eq (c : Ctl) (o : OpsR) (b v : Nat) : mscaleWord c o b v = scaleWord (decide (c.fn.toNat ≥ 4)) o.x.toNat v b := by
  simp only [mscaleWord, scaleWord, decide_eq_true_eq]

/-- Settles O17: MRD, MWR and MSCALE choose as `exec_steps_of_ite` says once their lines lie in the store; a scaled word is `scaleWord`'s. -/
theorem accumulatorFormsComplete : Obligations.AccumulatorFormsComplete := by
  refine ⟨?_, ?_, ?_, ?_, ?_, ?_⟩
  · intro c o d s x hd hx w as halign hin hheld got empty
    have hv : x.v.d = .vec d := (issuing_field View.d hx rfl).trans hd
    have hexec := exec_of_issuing (fun _ => rfl) hx
    have hpieces : x.e.accPieces (x.e.u o.a) (lineCount c.fn.toNat) x.e.g.live = .ok as := accPieces_of_inside _ halign hin
    simp only [hpieces, hv, hheld, Bool.false_eq_true, if_false] at hexec
    exact exec_steps_of_ite hexec
  · intro c o d s x hd hx w as halign hin hheld word
    have hv : x.v.d = .vec d := (issuing_field View.d hx rfl).trans hd
    have hexec := exec_of_issuing (fun _ => rfl) hx
    have hpieces : x.e.accPieces (x.e.u o.a) (lineCount c.fn.toNat) x.e.m = .ok as := accPieces_of_inside _ halign hin
    simp only [hpieces, hv, hheld, Bool.false_eq_true, if_false] at hexec
    exact exec_steps_of_ite hexec
  · intro c o s x hx w as halign hin hheld
    have hexec := exec_of_issuing (fun _ => rfl) hx
    have hpieces : x.e.accPieces (x.e.u o.a) (lineCount c.fn.toNat) x.e.m = .ok as := accPieces_of_inside _ halign hin
    simp only [hpieces, hheld, Bool.false_eq_true, if_false] at hexec
    have hchoice := exec_steps_of_ite hexec
    refine ⟨hchoice.2, fun hwhole => ?_⟩
    intro got hgood out u v k hgroup
    have hdone := hchoice.1 hwhole
    simp only [got] at hgood
    simp only [any_bad_eq_false hgood, Bool.false_and, Bool.false_eq_true, if_false, filter_good_eq (readAll_lanes ..) hgood,
      killBad_of_good hgood, List.foldl_map, ← mscaleWord_eq c o] at hdone
    simp only [u, out, got, List.foldl_map] at hgroup ⊢
    split at hdone
    next v' k' hstands =>
      cases hstands.symm.trans hgroup
      exact hdone
    next hgone => cases hgone.symm.trans hgroup
  · intro c o
    exact makes_of_done (fun _ => rfl) fun _ _ _ => rfl
  · intro c o
    exact makes_of_done (fun _ => rfl) fun _ _ _ => rfl
  · intro c o s x hx
    exact exec_of_issuing (fun _ => rfl) hx

end Sys2Proof.Machine
end

section
/-!
SUPPORT. The posting of the matrix engine's commands (11 R251-R257, R263, R266).
-/

namespace Sys2Proof.Machine

/-- A command posted to one queue each of several cores stands last in each of them (11 R263). -/
theorem post_to_cores {x : Issuing} {q : Nat} {cs : List Nat} (cmd : Cmd) (bar : Option Bar) (failed : Option FaultInfo) (hmany : 2 ≤ cs.length)
    (hroom : ∀ k ∈ cs, (x.t.core k).slots q < queueCap q) :
    x.e.post x.t (cs.map fun k => { core := k, q }) cmd bar failed = .done
      (cs.foldl (fun t k => t.setQueue { core := k, q } (t.queue { core := k, q } ++ [x.entry q cmd bar failed]))
        { x.t with nextSeq := x.t.nextSeq + 1 }) (x.e.g.takeTok x.e.c) := by
  have hfree : ((cs.map fun k => ({ core := k, q } : QRef)).any fun r => decide ((x.t.core r.core).slots r.q ≥ queueCap r.q)) = false := by
    simpa using hroom
  simp only [Env.post, hfree, Bool.false_eq_true, if_false]
  match cs, hmany with
  | a :: b :: cs, _ => simp only [List.map_cons, List.foldl_cons, List.foldl_map]; rfl

/-- Settles O21: each meaning comes to one post once its checks pass; `posts_of_post` says what that leaves, and
`post_to_cores` what MLOOPJ's does. -/
theorem matrixCommandsComplete : Obligations.MatrixCommandsComplete := by
  refine ⟨?_, ?_, ?_, ?_⟩
  · intro c o s x ra rb hx hrecs blk at_ ks hcheck hbar
    have hexec := exec_of_issuing (fun _ => rfl) hx
    simp only [loopBody, hrecs, Env.mxBar, hbar, Option.isNone_none, Option.isSome_none, Bool.false_and, Bool.false_eq_true, if_false, if_true,
      List.append_nil] at hexec
    rw [hcheck] at hexec
    exact posts_of_post hexec
  · intro c o s x ra rb hx hrecs fn zm ka blk at_ ks hcheck hbar
    have hexec := exec_of_issuing (fun _ => rfl) hx
    simp only [loopBody, hrecs, Env.mxBar, hbar, Option.isNone_some, Option.isSome_some, Bool.true_and, Bool.false_eq_true, if_false,
      if_true] at hexec
    rw [hcheck] at hexec
    exact posts_of_post hexec
  · intro c o s x ra rb hx hrecs blk m mine hcheck hbar cs hroom dup
    have hexec := exec_of_issuing (fun _ => rfl) hx
    simp only [hrecs, Env.mxBar, hbar] at hexec
    rw [hcheck] at hexec
    exact hexec.trans (congrArg (fun a => Host.Outcome.next (x.next s a)) (post_to_cores _ _ _ (by simp [clusterCores]) hroom))
  · intro c o s x hx hin hlt halign hbar
    have hexec := exec_of_issuing (fun _ => rfl) hx
    have hrange : (decide (x.e.u o.a + 256 * x.e.u o.b > 0x80000) || decide (x.e.u o.a ≥ 0x80000)) = false := by simp [hin, hlt]
    simp only [hrange, halign, Env.mxBar, hbar, bne_self_eq_false, Bool.false_eq_true, if_false] at hexec
    exact posts_of_post hexec

end Sys2Proof.Machine
end

section
/-!
SUPPORT. The end of a failed command (12 R273), whose record waits for room in the landing buffer where its workgroup is already ending (05 R113).
-/

namespace Sys2Proof.Machine

/-! ### Queues and workgroups -/

/-- A queue of a core of this device reads as it was set. -/
theorem queue_setQueue_same {s : State} {q : QRef} (hc : q.core < 256) (es : List Entry) : (s.setQueue q es).queue q = es := by
  rw [State.queue, State.setQueue, core_setCore_same, if_pos hc]
  by_cases hq : q.q < 4
  · simp [Core.queue, Core.setQueue, hq]
  · simp [Core.queue, Core.setQueue, hq]

theorem queue_sendRecord (s : State) (col : Option Nat) (ctx lnum : Nat) (rec : BitVec 512) (q : QRef) :
    (s.sendRecord col ctx lnum rec).queue q = s.queue q := rfl

/-- Of an empty queue, nothing leaves. -/
theorem settle_of_empty {s : State} {q : QRef} (h : s.queue q = []) : s.settle q = s := by
  rw [State.settle, h]
  rfl

/-- A change of a group keeps its workgroup resident. -/
theorem wgOf_modGroup (s : State) (r : GRef) (f : Group → Group) : (s.modGroup r f).wgOf r = (s.wgOf r).map fun w => w.modGrp r.grp f := by
  have hof : ((fun w : Workgroup => w.isOf r.ctx r.lnum r.wg) ∘
      fun w : Workgroup => if w.isOf r.ctx r.lnum r.wg then w.modGrp r.grp f else w) =
      fun w => w.isOf r.ctx r.lnum r.wg := by
    funext w
    simp only [Function.comp]
    split <;> rfl
  rw [State.wgOf, State.modGroup_wgs, List.find?_map, hof, State.wgOf]
  cases hw : s.wgs.find? fun w => w.isOf r.ctx r.lnum r.wg with
  | none => rfl
  | some w => simp [List.find?_some hw]

/-! ### The end of a failed command (12 R273) -/

theorem now_clearTok (s : State) (e : Entry) : (s.clearTok e).now = s.now := by
  unfold State.clearTok
  split <;> rfl

/-- A token that clears ends no workgroup. -/
theorem endsAlone_clearTok (s : State) (e : Entry) : (s.clearTok e).endsAlone e = s.endsAlone e := by
  unfold State.clearTok
  split
  · simp only [State.endsAlone, wgOf_modGroup]
    cases s.wgOf e.poster <;> rfl
  · rfl

/-- The state once the token of a command is clear and the command is gone from its queue. -/
def State.dropCommand (s : State) (q : QRef) (e : Entry) : State :=
  let es := (s.clearTok e).queue q
  (s.clearTok e).setQueue q (reheaded s.now es (es.filter fun x => x.seq != e.seq))

theorem endsAlone_dropCommand (s : State) (q : QRef) (e : Entry) : (s.dropCommand q e).endsAlone e = s.endsAlone e :=
  endsAlone_clearTok s e

/-- The record of a command's end. -/
def Entry.endRecord (e : Entry) (q : QRef) (f : FaultInfo) : BitVec 512 := mkRecord 2 false e.poster q.core q.q e.iaddr e.mstep 0 f

section
variable {s : State} {q : QRef} {e : Entry} {f : FaultInfo} (hfind : (s.queue q).find? (fun e => e.failed.isSome) = some e)
  (hfailed : e.failed = some f)
include hfind hfailed

/-- Where the record would leave at once and the landing buffer has no room for it, the command does not end yet. -/
theorem engineEnd_waits (halone : s.endsAlone e = true) (hfull : s.recRoom (columnOf q.core) = false) : s.engineEnd q = none := by
  simp only [State.engineEnd, hfind, hfailed, halone, hfull, Bool.not_false, Bool.and_self, if_true]

/-- With room for the record, or no need of it, a command that stands in one queue leaves it. -/
theorem engineEnd_ends (htag : e.tag = none) (hroom : s.endsAlone e = true → s.recRoom (columnOf q.core) = true) :
    s.engineEnd q = some ((if s.endsAlone e then
        (s.dropCommand q e).sendRecord (some (columnOf q.core)) e.poster.ctx e.poster.lnum (e.endRecord q f)
      else (s.dropCommand q e).endWg e.poster (e.endRecord q f)).settle q) := by
  have hgo : (s.endsAlone e && !s.recRoom (columnOf q.core)) = false := by simpa using hroom
  simp only [State.engineEnd, hfind, hfailed, hgo, Bool.false_eq_true, if_false]
  rw [← endsAlone_dropCommand s q e]
  simp only [State.dropCommand, ← now_clearTok s e]
  split
  next hcmd => simp [Entry.tag, hcmd] at htag
  next => rfl

/-- The clause that `not_matrixStepsComplete` refutes, with the premise that it lacks: a record that leaves at once has room in the landing buffer. -/
theorem engineTermination_of_room {w : Workgroup} (htag : e.tag = none) (hw : (s.dropCommand q e).wgOf e.poster = some w)
    (hroom : w.ending ≠ none → s.recRoom (columnOf q.core) = true) :
    (w.ending = none → exec (.engineTermination q) s = .next (((s.dropCommand q e).endWg e.poster (e.endRecord q f)).settle q)) ∧
    (w.ending ≠ none → exec (.engineTermination q) s = .next
      (((s.dropCommand q e).sendRecord (some (columnOf q.core)) e.poster.ctx e.poster.lnum (e.endRecord q f)).settle q)) := by
  have halone : s.endsAlone e = w.ending.isSome := by
    rw [← endsAlone_dropCommand s q e, State.endsAlone, hw]
  have hends := engineEnd_ends hfind hfailed htag fun h => hroom (by simpa [halone, Option.isSome_iff_ne_none] using h)
  have hexec : exec (.engineTermination q) s = .next _ := next_of_some rfl hends
  refine ⟨fun hnone => ?_, fun hsome => ?_⟩
  · rw [hexec, halone, hnone]
    rfl
  · rw [hexec, halone, if_pos (Option.isSome_iff_ne_none.2 hsome)]

end

/-! ### A record without room -/

/-- A landing buffer that holds 2,048 distinct blocks has no room for one more (05 R113). -/
theorem lbFits_eq_false {s : State} {c : Nat} {b : LbBlock} {bs : List LbBlock} (hlen : bs.length = 2048) (hnodup : (bs ++ [b]).Nodup)
    (hheld : ∀ x ∈ bs, x ∈ s.lbKeys c) : s.lbFits c [b] = false := by
  have hall : bs ++ [b] ⊆ (s.lbKeys c ++ [b]).eraseDups := fun x hx => by
    rw [List.mem_eraseDups, List.mem_append]
    exact (List.mem_append.1 hx).imp (hheld x) id
  have hmany := (hnodup.subperm hall).length_le
  rw [List.length_append, hlen, List.length_singleton] at hmany
  rw [State.lbFits, Bool.or_eq_false_iff]
  exact ⟨rfl, decide_eq_false (by omega)⟩

/-- A store of 64 bytes at block i of DRAM, in epoch 0. -/
def blockStore (i : Nat) : LbEntry := { epoch := 0, ctx := 0, lnum := 1, kind := .store ⟨.dram, 64 * i⟩ (List.replicate 64 0) }

/-- The blocks of the landing buffer that the first 2,048 such stores take. -/
def blockKeys : List LbBlock := (List.range 2048).map fun i => (0, some (0, ⟨.dram, 64 * i⟩))

theorem length_blockKeys : blockKeys.length = 2048 := by simp [blockKeys]

theorem nodup_blockKeys : blockKeys.Nodup := List.nodup_range.map fun a b h => by simpa using h

/-- The block of a record is none of a store's: records stand beyond every peer's endpoint. -/
theorem recordKey_notMem_blockKeys (epoch n : Nat) : recordKeyOf epoch n ∉ blockKeys := by
  rw [blockKeys, List.mem_map]
  rintro ⟨i, -, hi⟩
  simp only [recordKeyOf, Prod.mk.injEq, Option.some.injEq] at hi
  omega

/-- An MZERO of one line that has been taken, and whose land step found its barrier's byte count out of range. -/
def overrunZero : Entry :=
  { q := 4, cmd := .mzero 0 1, poster := { ctx := 0, lnum := 1, wg := 0, grp := 0 }, scr := (0, 4096), iaddr := 0x1000, mstep := 0, token := none
    bar := some { inS := true, addr := 0 }, scope := .wg, seq := 1, epoch := 0, data := [{ k := 0, epoch := 0, val := 0 }], index := [], lands := []
    held := [], xf := [], parked := none, failed := some { cause := .barrierOverrun, addr := 0, queue := 4 }, since := 0, joint := false }

/-- The workgroup of its poster, which is ending for another fault. -/
def endingWg : Workgroup := { probeWg 0 with ending := some { epoch := 0, records := [] } }

/-- The queue that the command stands in. -/
def overrunQueue : QRef := { core := 64, q := 4 }

/-- The failed command at the head of its queue, while the stores of epoch 0 fill the landing buffer of its column. -/
def fullBuffer : State :=
  (({ State.reset with wgs := [endingWg] } : State).setCol 0 { Column.reset with lb := (List.range 2048).map blockStore }).setQueue
    overrunQueue [overrunZero]

theorem fullBuffer_queue : fullBuffer.queue overrunQueue = [overrunZero] := queue_setQueue_same (by decide) _

/-- It is the first failed command there. -/
theorem fullBuffer_finds : (fullBuffer.queue overrunQueue).find? (fun e => e.failed.isSome) = some overrunZero := by
  rw [fullBuffer_queue]
  rfl

theorem fullBuffer_lb : (fullBuffer.col 0).lb = (List.range 2048).map blockStore := by
  simp [fullBuffer, State.setQueue, State.setCore, State.setCol, State.col]

/-- Each of the stores takes the block of the landing buffer that it lies in. -/
theorem fullBuffer_lbKeys {i : Nat} (hi : i < 2048) : (0, some (0, ⟨.dram, 64 * i⟩)) ∈ fullBuffer.lbKeys 0 := by
  rw [State.lbKeys, List.mem_eraseDups, List.append_assoc, List.mem_append, Column.lbKeys, fullBuffer_lb, List.mem_flatMap]
  refine .inl ⟨blockStore i, List.mem_map_of_mem (List.mem_range.2 hi), ?_⟩
  simp [blockStore, LbKind.range, blocks64, Nat.mul_comm]

theorem fullBuffer_full : fullBuffer.recRoom 0 = false := by
  refine lbFits_eq_false (b := recordKeyOf (fullBuffer.col 0).epoch fullBuffer.out.length) length_blockKeys ?_ fun x hx => ?_
  · exact nodup_blockKeys.append (List.nodup_singleton _) (List.disjoint_singleton.2 (recordKey_notMem_blockKeys _ _))
  · obtain ⟨i, hi, rfl⟩ := List.mem_map.1 hx
    exact fullBuffer_lbKeys (List.mem_range.1 hi)

theorem fullBuffer_wgOf : (fullBuffer.dropCommand overrunQueue overrunZero).wgOf overrunZero.poster = some endingWg := rfl

/-- Without its one command the queue is empty. -/
theorem fullBuffer_dropped : (fullBuffer.dropCommand overrunQueue overrunZero).queue overrunQueue = [] := by
  rw [State.dropCommand, queue_setQueue_same (by decide)]
  show reheaded _ (fullBuffer.queue overrunQueue) ((fullBuffer.queue overrunQueue).filter _) = []
  rw [fullBuffer_queue]
  rfl

/-- The command, whose record would leave at once, waits in its queue for the room. -/
theorem fullBuffer_waits : exec (.engineTermination overrunQueue) fullBuffer = .next fullBuffer := by
  have hnone := engineEnd_waits fullBuffer_finds rfl rfl fullBuffer_full
  show execEngineTermination overrunQueue fullBuffer = _
  rw [execEngineTermination, hnone, Option.getD_none]

/-- Refutes O28: its clause on the end of a failed command has no premise that the landing buffer has room for the record (05 R113). In `fullBuffer`
the command's workgroup is ending already, and the step changes nothing, where the clause has the record sent and the queue empty. -/
theorem not_matrixStepsComplete : ¬ Obligations.MatrixStepsComplete := by
  rintro ⟨-, -, -, -, -, hends⟩
  obtain ⟨-, hreports⟩ := hends fullBuffer overrunQueue overrunZero _ endingWg fullBuffer_finds rfl rfl fullBuffer_wgOf
  have hsame := Host.Outcome.next.inj (fullBuffer_waits.symm.trans (hreports (by decide)))
  rw [settle_of_empty] at hsame
  · have hempty : fullBuffer.queue overrunQueue = [] := by
      rw [hsame, queue_sendRecord]
      exact fullBuffer_dropped
    exact absurd (fullBuffer_queue.symm.trans hempty) (List.cons_ne_nil _ _)
  · rw [queue_sendRecord]
    exact fullBuffer_dropped

end Sys2Proof.Machine
end

section
/-!
SUPPORT. Control and status registers (12 R284, Table 12.11): what CSRW and CSRX write, and the fields of CLBANK.
-/

namespace Sys2Proof.Machine

section
variable {i : Instr} {o : OpsI} {n : BitVec 32} {s t : State} {x : Issuing} {g' : Group}
  (hexec : ∀ s, exec i s = issueWord i s false false fun _ e s => csrwBody o e s) (hx : s.issuing i false false = some x) (hn : o.imm = n)
include hexec hx hn

/-- CSRW of a 32-bit register writes its operand. -/
theorem exec_csrw_word (hwidth : csrWidth n.toNat = some 32) (hwrite : x.t.csrWrite x.e.g n.toNat (x.e.u o.a) = (t, g')) :
    exec i s = .next (x.next s (.done t g')) := by
  refine exec_of_answer hexec hx ?_
  have hword : (csrWidth n.toNat == some 64) = false := by rw [hwidth]; rfl
  simp only [csrwBody, hn, hword, hwrite, Bool.false_eq_true, if_false]

/-- CSRW of a 64-bit register writes its operand's pair. -/
theorem exec_csrw_pair (hwidth : csrWidth n.toNat = some 64) (hwrite : x.t.csrWrite x.e.g n.toNat (x.e.pair o.a) = (t, g')) :
    exec i s = .next (x.next s (.done t g')) := by
  refine exec_of_answer hexec hx ?_
  have hpair : (csrWidth n.toNat == some 64) = true := by rw [hwidth]; rfl
  simp only [csrwBody, hn, hpair, hwrite, if_true]

end

/-- Settles O22: a CSRW of each register by its width (`exec_csrw_word`, `exec_csrw_pair`); CSRR and CSRX answer their meaning. -/
theorem registerAccessComplete : Obligations.RegisterAccessComplete := by
  refine ⟨fun c o s x hx => exec_of_issuing (fun _ => rfl) hx, fun c o s x hx => ?_, ?_, ?_, ?_, ?_⟩
  · refine ⟨?_, ?_, ?_, ?_, ?_, ?_, ?_, ?_, ?_⟩
    · exact fun gstat => exec_csrw_word (fun _ => rfl) hx gstat rfl rfl
    · exact fun chk => exec_csrw_word (fun _ => rfl) hx chk rfl rfl
    · exact fun trapb => exec_csrw_pair (fun _ => rfl) hx trapb rfl rfl
    · exact fun tpc => exec_csrw_pair (fun _ => rfl) hx tpc rfl rfl
    · exact fun tcause => exec_csrw_word (fun _ => rfl) hx tcause rfl rfl
    · exact fun taddr => exec_csrw_pair (fun _ => rfl) hx taddr rfl rfl
    · exact fun tmap => exec_csrw_pair (fun _ => rfl) hx tmap rfl rfl
    · exact fun taux => exec_csrw_word (fun _ => rfl) hx taux rfl rfl
    · exact fun inja => exec_csrw_pair (fun _ => rfl) hx inja rfl rfl
  · exact fun c o s x srseed hx => exec_csrw_word (fun _ => rfl) hx srseed rfl rfl
  · exact fun c o s x wdog hx => exec_csrw_word (fun _ => rfl) hx wdog rfl rfl
  · exact fun c o s x injc hx => exec_csrw_word (fun _ => rfl) hx injc rfl rfl
  · intro c o s x i new old hcase hx
    obtain ⟨rfl, rfl⟩ | ⟨rfl, rfl⟩ | ⟨rfl, rfl⟩ := hcase <;> exact exec_of_issuing (fun _ => rfl) hx

/-! ### CLBANK (Table 2.4) -/

/-- A cluster has 64 banks, so a count of them fits its field of CLBANK. -/
theorem count_le (k : Cluster) (p : BankMode → Bool) : k.count p ≤ 64 :=
  (List.length_filter_le p k.modes.toList).trans_eq k.modes.length_toList

/-- The fields of CLBANK. -/
theorem bits_clbank (k : Cluster) :
    bits k.clbank 31 31 = 0 ∧ bits k.clbank 30 24 = k.cmin % 128 ∧ bits k.clbank 23 16 = k.count BankMode.isFifo ∧
      bits k.clbank 15 8 = k.count BankMode.isScratch ∧ bits k.clbank 7 0 = k.cacheB := by
  have hfifo : k.count BankMode.isFifo ≤ 64 := count_le ..
  have hscratch : k.count BankMode.isScratch ≤ 64 := count_le ..
  have hcache : k.cacheB ≤ 64 := count_le k fun m => m == .cache
  simp only [bits, Cluster.clbank]
  refine ⟨?_, ?_, ?_, ?_, ?_⟩ <;> omega

/-- Settles O56: each register's number picks its row of Table 12.11; CLBANK's fields by `bits_clbank`. -/
theorem specialRegistersRead : Obligations.SpecialRegistersRead := fun s w _ =>
  ⟨rfl, rfl, rfl, rfl, rfl, rfl, rfl, rfl, rfl, rfl, rfl, rfl, rfl, rfl, rfl, rfl, rfl, rfl, rfl, bits_clbank (s.cluster (clusterOf w.core)), rfl⟩

end Sys2Proof.Machine
end

section
/-!
SUPPORT. The delivery of a fault (12 R272, R274, R275, 01 R30): what each state of the group, of the landing buffer and of the trap table's entry makes
of it, and the watchdog's causes (12 R279).
-/

namespace Sys2Proof.Machine

/-! ### The entry of the trap table -/

section
variable {s u : State} {r : GRef} {w : Workgroup} {g : Group} {k : Cause} {l : Loc} {mt : Nat}

/-- An entry that does not translate cannot be read. -/
theorem trapEntry_of_fault {k' : Cause} {a pa : Nat} (hres : s.resolve r.ctx w.core g.xf (g.trapSlot k) 8 .read = .fault k' a pa) :
    s.trapEntry r w g k = .fail s := by
  simp only [State.trapEntry, hres]

section
variable (hres : s.resolve r.ctx w.core g.xf (g.trapSlot k) 8 .read = .ok [(.mem l mt, 8)]) (hfree : s.heldOff (some (columnOf w.core)) l 8 = false)
  {bs : List Byte}
include hres hfree

/-- An entry in this device whose read meets an uncorrectable unit cannot be read. -/
theorem trapEntry_of_bad {b : Loc} (hread : s.readAs (columnOf w.core) l 8 = (some b, bs, u)) : s.trapEntry r w g k = .fail u := by
  simp only [State.trapEntry, hres, hfree, hread, Bool.false_eq_true, if_false]

/-- An entry in this device whose read meets none has the bytes read as its value. -/
theorem trapEntry_of_good (hread : s.readAs (columnOf w.core) l 8 = (none, bs, u)) : s.trapEntry r w g k = .val (leNat bs) u := by
  simp only [State.trapEntry, hres, hfree, hread, Bool.false_eq_true, if_false]

end

/-- An entry at a peer has the bytes that the peer answered as its value. -/
theorem trapEntry_of_answer {fep pctx pa : Nat} {a : PeerGot} {bs : List Byte}
    (hres : s.resolve r.ctx w.core g.xf (g.trapSlot k) 8 .read = .ok [(.peer fep pctx pa mt, 8)])
    (hgot : (g.got.find? fun x => x.ask == trapAsk fep pctx pa) = some a) (hbytes : a.bytes = some bs) :
    s.trapEntry r w g k = .val (leNat bs) s := by
  obtain ⟨ask, bytes⟩ := a
  subst hbytes
  simp only [State.trapEntry, hres, hgot]

end

/-! ### The delivery -/

section
variable {s u : State} {r : GRef} {w : Workgroup} {g : Group} {f : FaultInfo}

/-- A fault that a host resumes parks the group with a record, where there is room for it. -/
theorem deliver_of_resumable (hhost : f.cause.resumable = true) (hroom : s.recRoom (columnOf w.core) = true) :
    s.deliver r w g f = some ((s.modGroup r fun k =>
      { k.faulted (.parked f) with lastEpoch := (s.col (columnOf w.core)).epoch }).sendRecord (some (columnOf w.core)) r.ctx r.lnum
        (groupRecord w g r true f)) := by
  simp only [State.deliver, hhost, hroom, if_true]

/-- Without room it waits. -/
theorem deliver_waits (hhost : f.cause.resumable = true) (hfull : s.recRoom (columnOf w.core) = false) : s.deliver r w g f = none := by
  simp only [State.deliver, hhost, hfull, if_true, Bool.false_eq_true, if_false]

section
variable (hterm : f.cause.resumable = false)
include hterm

/-- Any other fault is a double fault in handler mode. -/
theorem deliver_in_handler (hhandler : g.handler = true) : s.deliver r w g f = some (s.doubleFault r w g f) := by
  simp only [State.deliver, hterm, hhandler, if_true, Bool.false_eq_true, if_false]

section
variable (hhandler : g.handler = false)
include hhandler

/-- Without a trap table it ends the workgroup. -/
theorem deliver_without_table (htable : g.trapb.getLsbD 0 = false) : s.deliver r w g f = some (s.lost r w g f) := by
  simp only [State.deliver, hterm, hhandler, htable, Bool.not_false, if_true, Bool.false_eq_true, if_false]

section
variable (htable : g.trapb.getLsbD 0 = true)
include htable

/-- An entry that cannot be read makes it a double fault. -/
theorem deliver_of_fail (hentry : s.trapEntry r w g f.cause = .fail u) : s.deliver r w g f = some (u.doubleFault r w g f) := by
  simp only [State.deliver, hterm, hhandler, htable, hentry, Bool.not_true, Bool.false_eq_true, if_false]

/-- An entry of 0 ends the workgroup. -/
theorem deliver_of_zero (hentry : s.trapEntry r w g f.cause = .val 0 u) : s.deliver r w g f = some (u.lost r w g f) := by
  simp only [State.deliver, hterm, hhandler, htable, hentry, Bool.not_true, Bool.false_eq_true, if_false, beq_self_eq_true, if_true]

/-- At any other entry the group enters its handler. -/
theorem deliver_of_val {n : Nat} (hentry : s.trapEntry r w g f.cause = .val n u) (hn : n ≠ 0) :
    s.deliver r w g f = some (u.modGroup r fun k =>
      { k.enter f (BitVec.ofNat 64 n) u.now with lastEpoch := (s.col (columnOf w.core)).epoch }) := by
  simp only [State.deliver, hterm, hhandler, htable, hentry, Bool.not_true, Bool.false_eq_true, if_false, beq_false_of_ne hn]

end
end
end
end

/-- A fault that is delivered at once leaves what its delivery leaves; one that waits stands with its group. -/
theorem raise_eq_deliver (s : State) (r : GRef) (w : Workgroup) (g : Group) (f : FaultInfo) :
    let res := g.resumeOf (s.macrosOf r.ctx r.lnum) f.cause
    let f1 : FaultInfo := { f with mstep := (g.mcall.map (·.2)).getD g.rstep, resume := res.1, rstep := res.2 }
    let s1 := (s.forget (.group r)).modGroup r fun k => k.faulted (.fault f1)
    s.raise r w g f = (s1.deliver r w (g.faulted (.fault f1)) f1).getD s1 := rfl

/-- Settles O42: `raise_eq_deliver`, with the delivery that each case's premises give. -/
theorem exceptionsAreTaken : Obligations.ExceptionsAreTaken := by
  intro s r w g f res f1 s1 held ended double
  have hraise : s.raise r w g f = (s1.deliver r w held f1).getD s1 := raise_eq_deliver s r w g f
  have taken {t : State} (h : s1.deliver r w held f1 = some t) : s.raise r w g f = t := by rw [hraise, h, Option.getD_some]
  refine ⟨fun hhost => ⟨fun hroom => ?_, fun hfull => ?_⟩,
    fun hterm => ⟨fun hhandler => ?_, fun hhandler htable => ?_, fun hhandler htable => ⟨?_, ?_⟩⟩⟩
  · exact taken (deliver_of_resumable hhost hroom)
  · rw [hraise, deliver_waits (g := held) (f := f1) hhost hfull, Option.getD_none]
  · exact taken (deliver_in_handler (g := held) (f := f1) hterm hhandler)
  · exact taken (deliver_without_table (g := held) (f := f1) hterm hhandler htable)
  · exact fun k a pa hres => taken (deliver_of_fail (g := held) (f := f1) hterm hhandler htable (trapEntry_of_fault hres))
  · intro l mt hres hfree
    refine ⟨fun b bs u hread => ?_, fun bs u hread => ⟨fun hzero => ?_, fun hentry => ?_⟩⟩
    · exact taken (deliver_of_fail (g := held) (f := f1) hterm hhandler htable (trapEntry_of_bad hres hfree hread))
    · exact taken (deliver_of_zero (g := held) (f := f1) hterm hhandler htable (hzero ▸ trapEntry_of_good hres hfree hread))
    · exact taken (deliver_of_val (g := held) (f := f1) hterm hhandler htable (trapEntry_of_good hres hfree hread) hentry)

/-! ### Faults that wait, and the watchdog -/

section
variable {s : State} {r : GRef} {w : Workgroup} {g : Group}

/-- A fault that waits with a group that stands is delivered. -/
theorem exec_trapDelivery {t : State} {f : FaultInfo} (hst : s.stands r w g) (hwait : g.wait = .fault f) (hdeliver : s.deliver r w g f = some t) :
    exec (.trapDelivery r) s = .next t := by
  refine next_of_acting hst (x := s.trapDeliver r) ?_
  simp only [State.trapDeliver, hst.1, hwait, hdeliver]

end

/-- Settles O31: a waiting fault is delivered (`exec_trapDelivery`), and the watchdog's step where it fires raises its cause
(`watchdog_of_fires`), which takes the trap (`takesTrapAt_of_raise`). -/
theorem deliveryAndWatchdogComplete : Obligations.DeliveryAndWatchdogComplete := by
  refine ⟨fun s r w g f hst hwait => ⟨fun hhost hroom => ?_, fun hterm hhandler htable => ⟨?_, ?_⟩⟩, fun s r w g hst hgoes hfilled => ⟨?_, ?_, ?_⟩⟩
  · exact exec_trapDelivery hst hwait (deliver_of_resumable hhost hroom)
  · intro l mt entry hres hread hval hentry
    subst hval
    exact exec_trapDelivery hst hwait (deliver_of_entry hterm hhandler htable hres hread hentry)
  · intro fep pctx pa mt a bs hres hgot hbytes hentry
    exact exec_trapDelivery hst hwait (deliver_of_val hterm hhandler htable (trapEntry_of_answer hres hgot hbytes) hentry)
  · intro hcounted hlimit hpast
    have hfires : firesWait g = true := by simp [firesWait, Group.waitLimit, hcounted, hlimit, hpast]
    exact takesTrapAt_of_raise (next_of_acting hst (watchdog_of_fires hst.1 hgoes hfilled hfires _)) rfl rfl rfl
  · intro hcounted hpast
    have hfires : firesPeer g = true := by simp [firesPeer, hcounted, hpast]
    exact takesTrapAt_of_raise (next_of_acting hst (watchdog_of_fires hst.1 hgoes hfilled hfires _)) rfl rfl rfl
  · intro hstalls hlimit hpast
    have hfires : firesRun g = true := by simp [firesRun, Group.runLimit, hstalls, hlimit, hpast]
    exact takesTrapAt_of_raise (next_of_acting hst (watchdog_of_fires hst.1 hgoes hfilled hfires _)) rfl rfl rfl

end Sys2Proof.Machine
end

section
/-!
SUPPORT. System forms (12 R285, 01 R26, 13 R297, 04 R94): the lines that CACHEOP drops, the requests of PGREQ, and the reads of GREST.
-/

namespace Sys2Proof.Machine

/-! ### CACHEOP (12 R285) -/

/-- The lines of DRAM in this device that the parts of a range resolve to; a part that does not translate holds none. -/
def resolvedLines (parts : List Resolved) : List Nat :=
  parts.flatMap fun r => match r with
    | .ok ps => ps.flatMap fun p => match p.1 with | .mem l _ => lines256 l p.2 | .peer .. => []
    | _ => []

/-- The pages that the parts of a range still wait for. -/
def missedPages (parts : List Resolved) : List Nat := parts.flatMap fun r => match r with | .miss ps => ps | _ => []

theorem missedPages_eq_nil {parts : List Resolved} (h : ∀ r ∈ parts, ∀ ps, r ≠ .miss ps) : missedPages parts = [] := by
  refine List.flatMap_eq_nil_iff.2 fun r hr => ?_
  split
  · exact absurd rfl (h _ hr _)
  · rfl

theorem mem_resolvedLines {parts : List Resolved} {a : Nat} :
    a ∈ resolvedLines parts ↔ ∃ ps l mt n, Resolved.ok ps ∈ parts ∧ (Target.mem l mt, n) ∈ ps ∧ a ∈ lines256 l n := by
  rw [resolvedLines, List.mem_flatMap]
  constructor
  · rintro ⟨r, hr, ha⟩
    cases r with
    | ok ps =>
      obtain ⟨⟨p, n⟩, hp, ha⟩ := List.mem_flatMap.1 ha
      cases p with
      | mem l mt => exact ⟨ps, l, mt, n, hr, hp, ha⟩
      | peer => exact absurd ha List.not_mem_nil
    | fault | miss => exact absurd ha List.not_mem_nil
  · rintro ⟨ps, l, mt, n, hr, hp, ha⟩
    exact ⟨_, hr, List.mem_flatMap.2 ⟨_, hp, ha⟩⟩

/-- The copies that are left are those of no dropped line. -/
theorem mem_copies_dropLines {k : Cluster} {ls : List Nat} {y : Copy} : y ∈ (k.dropLines ls).copies ↔ y ∈ k.copies ∧ y.line ∉ ls := by
  simp [Cluster.dropLines]

/-- CACHEOP.drop of a range whose parts are translated, or cannot be, drops its lines' copies. -/
theorem cacheopDrop_of_translated {c : Ctl} {o : OpsR} {s : State} {x : Issuing} (hx : s.issuing (.cacheopDrop c o) false false = some x)
    {parts : List Resolved} (hparts : ((cut4k (x.e.pair o.a) (x.e.u o.b)).map fun p => x.t.resolve x.e.r.ctx x.e.w.core x.e.g.xf p.1 p.2 .read) = parts)
    (hmiss : ∀ r ∈ parts, ∀ ps, r ≠ .miss ps) : exec (.cacheopDrop c o) s = .next (x.next s (.done
      (x.t.setCluster (clusterOf x.e.w.core) ((x.t.cluster (clusterOf x.e.w.core)).dropLines (resolvedLines parts))) { x.e.g with xf := [] })) := by
  subst hparts
  refine exec_of_answer (fun _ => rfl) hx (if_neg ?_)
  rw [Bool.not_eq_true, Bool.not_eq_false', List.isEmpty_iff]
  exact missedPages_eq_nil hmiss

/-! ### PGREQ (13 R297) -/

section
variable {o : OpsR} {req : State → Nat → Nat × State} {e : Env} {s : State} (hlow : e.u o.a < 256) (hupper : isUpper (e.u o.a) = true)
include hlow hupper

/-- The host has disabled requests. -/
theorem pgreq_disabled (hdis : s.power.gdis = true) : pgreqBody o req e s = .done s (e.g.writeS .ui32 o.d 2) := by
  have hlegal : (decide (e.u o.a ≥ 256) || !isUpper (e.u o.a)) = false := by simp [hlow, hupper]
  simp only [pgreqBody, hlegal, hdis, Bool.false_eq_true, if_false, if_true]

/-- A request that is taken returns its status. -/
theorem pgreq_taken (hen : s.power.gdis = false) {st : Nat} {t : State} (hreq : req s (e.u o.a) = (st, t)) :
    pgreqBody o req e s = .done t (e.g.writeS .ui32 o.d st) := by
  have hlegal : (decide (e.u o.a ≥ 256) || !isUpper (e.u o.a)) = false := by simp [hlow, hupper]
  simp only [pgreqBody, hlegal, hen, hreq, Bool.false_eq_true, if_false]

end

section
variable {s : State} {n : Nat}

theorem gateCore_of_gated (h : (s.core n).gate = .gated) : s.gateCore n = (1, s) := by
  simp only [State.gateCore, h]

theorem gateCore_of_requested (h : (s.core n).gate = .requested) : s.gateCore n = (0, s) := by
  simp only [State.gateCore, h]

/-- The gate of a core that has power and none requested is requested. -/
theorem gateCore_of_powered (h : (s.core n).gate = .open ∨ (s.core n).gate = .closed ∨ ∃ u, (s.core n).gate = .waking u) :
    s.gateCore n = (0, s.setCore n { s.core n with gate := .requested }) := by
  obtain h | h | ⟨u, h⟩ := h <;> simp only [State.gateCore, h]

theorem ungateCore_of_requested (h : (s.core n).gate = .requested) :
    s.ungateCore n = (0, s.setCore n { s.core n with gate := .closed }) := by
  simp only [State.ungateCore, h]

theorem ungateCore_of_gated (h : (s.core n).gate = .gated) :
    s.ungateCore n = (0, s.setCore n { s.core n with gate := .waking (s.now + 80000) }) := by
  simp only [State.ungateCore, h]

theorem ungateCore_of_waking {u : Nat} (h : (s.core n).gate = .waking u) : s.ungateCore n = (0, s) := by
  simp only [State.ungateCore, h]

theorem ungateCore_of_powered (h : (s.core n).gate = .open ∨ (s.core n).gate = .closed) : s.ungateCore n = (1, s) := by
  obtain h | h := h <;> simp only [State.ungateCore, h]

end

/-! ### Uniform reads (04 R94) -/

/-- A uniform read that has no question left to put to a peer gives its bytes. -/
theorem uniRead_of_answered {s : State} {e : Env} {op : ObjOp} {ps : List Piece} (h : s.uniAsk e op ps = []) :
    s.uniRead e op ps = .ok (s.uniBytes e op ps) := by
  simp only [State.uniRead, h]

/-! ### The system forms (12 R285) -/

/-- Settles O23: each word answers its meaning once the premises pass its checks; CACHEOP by `cacheopDrop_of_translated`, PGREQ by what a request makes
of the core's gate, and GREST by its two reads (`uniRead_of_answered`). -/
theorem systemFormsComplete : Obligations.SystemFormsComplete := by
  refine ⟨?_, ?_, ?_, ?_, ?_, ?_, ?_, ?_, ?_⟩
  · intro c o s x hx va n hone hmany hva hend
    have hcount : (n == 0 || decide (n > 2 ^ 20)) = false := by
      rw [Bool.or_eq_false_iff, beq_eq_false_iff_ne, decide_eq_false_iff_not]
      omega
    have hrange : (decide (va ≥ 2 ^ 48) || decide (va / 4096 * 4096 + 4096 * n > 2 ^ 48)) = false := by
      rw [Bool.or_eq_false_iff, decide_eq_false_iff_not, decide_eq_false_iff_not]
      omega
    exact exec_of_answer (fun _ => rfl) hx ((if_neg (Bool.eq_false_iff.1 hcount)).trans (if_neg (Bool.eq_false_iff.1 hrange)))
  · exact fun c o s x hx => exec_of_issuing (fun _ => rfl) hx
  · intro c o s x hx parts hmiss
    refine ⟨_, cacheopDrop_of_translated hx rfl hmiss, fun y => ?_, rfl⟩
    rw [mem_copies_dropLines, mem_resolvedLines]
  · exact fun c o s x hx => exec_of_issuing (fun _ => rfl) hx
  · intro c o s x hx n k put hlow hupper
    have taken (hen : x.t.power.gdis = false) {st : Nat} {t : State} (hreq : x.t.gateCore n = (st, t)) :
        exec (.pgreqGate c o) s = .next (x.next s (.done t (put st))) := exec_of_answer (fun _ => rfl) hx (pgreq_taken hlow hupper hen hreq)
    refine ⟨fun hdis => exec_of_answer (fun _ => rfl) hx (pgreq_disabled hlow hupper hdis), fun hen => ⟨?_, ?_, ?_⟩⟩
    · exact fun hgated => taken hen (gateCore_of_gated hgated)
    · exact fun hrequested => taken hen (gateCore_of_requested hrequested)
    · exact fun hpowered => taken hen (gateCore_of_powered hpowered)
  · intro c o s x hx n k put hlow hupper
    have taken (hen : x.t.power.gdis = false) {st : Nat} {t : State} (hreq : x.t.ungateCore n = (st, t)) :
        exec (.pgreqUngate c o) s = .next (x.next s (.done t (put st))) := exec_of_answer (fun _ => rfl) hx (pgreq_taken hlow hupper hen hreq)
    refine ⟨fun hdis => exec_of_answer (fun _ => rfl) hx (pgreq_disabled hlow hupper hdis), fun hen => ⟨?_, ?_, ?_, ?_⟩⟩
    · exact fun hrequested => taken hen (ungateCore_of_requested hrequested)
    · exact fun hgated => taken hen (ungateCore_of_gated hgated)
    · exact fun ⟨u, hwaking⟩ => taken hen (ungateCore_of_waking hwaking)
    · exact fun hpowered => taken hen (ungateCore_of_powered hpowered)
  · intro c o s x as hx va bs halign hquiet haccess hheld hdrained hroom
    have hexec := exec_of_issuing (fun _ => rfl) hx
    have hready : (x.t.anyHeld x.e.w.core as || !x.t.objDrained x.e.w.core (as.flatMap (·.2)) ||
        !x.t.roomFor (columnOf x.e.w.core) (peersIn as)) = false := by simp [hheld, hdrained, hroom]
    simp only [va, bs] at halign haccess
    simp only [halign, hquiet, haccess, hready, bne_self_eq_false, Bool.not_true, Bool.false_eq_true, if_false] at hexec
    exact ⟨_, hexec, rfl⟩
  · intro c o s x hs as g' step hx va halign hpend hhead hheld hasked head haccess hheld' hasked' got himage
    have hexec := exec_of_issuing (fun _ => rfl) hx
    simp only [va] at halign hhead haccess
    simp only [halign, hpend, hhead, hheld, uniRead_of_answered hasked, bne_self_eq_false, List.isEmpty_nil, Bool.not_true, Bool.false_eq_true,
      if_false] at hexec
    simp only [head] at haccess
    simp only [haccess, hheld', uniRead_of_answered hasked', Bool.false_eq_true, if_false] at hexec
    simp only [got] at himage ⊢
    simp only [himage] at hexec
    exact hexec
  · exact fun c o s x =>
      ⟨fun hx => exec_of_issuing (fun _ => rfl) hx, fun hx => exec_of_issuing (fun _ => rfl) hx, fun hx => exec_of_issuing (fun _ => rfl) hx⟩

end Sys2Proof.Machine
end

section
/-!
SUPPORT. The end of a wake (13 R303): what refetching the pinned lines does to each cluster, and a refetch that meets an injected error (20 R350).
-/

namespace Sys2Proof.Machine

/-! ### A pinned line is filled -/

/-- A fill of a pinned line puts one copy of it in front of those of the other lines. -/
theorem touch_of_pinned {k : Cluster} {line : Nat} (hpinned : k.pinned line = true) (sec : BitVec 8) (h : Hint) (alloc : Bool) :
    ∃ x : Copy, x.line = line ∧ k.touch line sec h alloc = { k with copies := x :: k.copies.filter fun c => c.line != line } := by
  cases hfind : k.copies.find? fun c => c.line == line with
  | some c =>
    have hline : c.line = line := by simpa using List.find?_some hfind
    refine ⟨c.fill sec, ?_, by simp [Cluster.touch, hfind, hpinned]⟩
    unfold Copy.fill
    split <;> exact hline
  | none =>
    have hother : (k.copies.filter fun c => c.line != line) = k.copies := by simpa using hfind
    exact ⟨{ line, sectors := sec }, rfl, by simp [Cluster.touch, hfind, hpinned, hother]⟩

/-- A cluster once lines have been fetched into it: each has a copy, the copies of other lines are left, and nothing else changes. -/
structure Cluster.Refetched (k k' : Cluster) (lines : List Nat) : Prop where
  rest : { k' with copies := [] } = { k with copies := [] }
  left : ∀ c ∈ k.copies, c.line ∉ lines → c ∈ k'.copies
  held : ∀ a ∈ lines, ∃ c ∈ k'.copies, c.line = a

theorem refetched_nil (k : Cluster) : k.Refetched k [] := ⟨rfl, fun _ hc _ => hc, fun _ ha => absurd ha List.not_mem_nil⟩

/-- A pinned line is fetched, and then others are. -/
theorem refetched_cons {k k' : Cluster} {line : Nat} {lines : List Nat} (hpinned : k.pinned line = true) (sec : BitVec 8) (h : Hint) (alloc : Bool)
    (hrest : (k.touch line sec h alloc).Refetched k' lines) : k.Refetched k' (line :: lines) := by
  obtain ⟨x, hx, htouch⟩ := touch_of_pinned hpinned sec h alloc
  rw [htouch] at hrest
  obtain ⟨hsame, hleft, hheld⟩ := hrest
  refine ⟨hsame, fun c hc hnot => ?_, fun a ha => ?_⟩
  · obtain ⟨hne, hnot⟩ := not_or.1 (mt List.mem_cons.2 hnot)
    exact hleft c (List.mem_cons_of_mem _ (List.mem_filter.2 ⟨hc, by simpa using hne⟩)) hnot
  · by_cases hin : a ∈ lines
    · exact hheld a hin
    · obtain rfl : a = line := (List.mem_cons.1 ha).resolve_right hin
      exact ⟨x, hleft x List.mem_cons_self (hx ▸ hin), hx⟩

/-! ### A refetch in the state -/

/-- What a refetch leaves: all but clusters, and what an injected error that it meets counts, disarms and draws (20 R350, log entry 2). -/
def State.keepsInRefetch (s t : State) : Prop := { t with clusters := s.clusters, counters := s.counters, injc := s.injc, free := s.free } = s

section
variable {s t u : State}

theorem keepsInRefetch_refl (s : State) : s.keepsInRefetch s := rfl

theorem keepsInRefetch_trans (h : s.keepsInRefetch t) (h' : t.keepsInRefetch u) : s.keepsInRefetch u := by
  unfold State.keepsInRefetch at h h' ⊢
  rw [← h'] at h
  exact h

theorem keepsInRefetch_setCluster (s : State) (cl : Nat) (k : Cluster) : s.keepsInRefetch (s.setCluster cl k) := rfl

theorem keepsInRefetch_injTake (s : State) : s.keepsInRefetch s.injTake := by
  unfold State.injTake State.keepsInRefetch
  dsimp only
  split <;> split <;> rfl

theorem keepsInRefetch_meetLine (s : State) (cl line : Nat) : s.keepsInRefetch (s.meetLine cl line) := by
  unfold State.meetLine
  split
  · exact keepsInRefetch_injTake s
  · exact keepsInRefetch_refl s

theorem meetLine_clusters (s : State) (cl line : Nat) : (s.meetLine cl line).clusters = s.clusters := by
  unfold State.meetLine State.injTake
  dsimp only
  split
  · split <;> split <;> rfl
  · rfl

end

/-! ### Clusters read back -/

theorem cluster_of_clusters {s t : State} (h : t.clusters = s.clusters) (n : Nat) : t.cluster n = s.cluster n := by
  rw [State.cluster, h, State.cluster]

theorem cluster_setCluster_ne (s : State) {n m : Nat} (h : m ≠ n) (k : Cluster) : (s.setCluster n k).cluster m = s.cluster m := by
  simp [State.cluster, Ne.symm h]

/-- A step for each of some clusters that changes no other one leaves a cluster that is not among them. -/
theorem cluster_foldl_of_notMem {f : State → Nat → State} (hf : ∀ s n m, m ≠ n → (f s n).cluster m = s.cluster m) {ns : List Nat} {m : Nat}
    (hm : m ∉ ns) (s : State) : (ns.foldl f s).cluster m = s.cluster m :=
  List.foldlRecOn (motive := fun t => t.cluster m = s.cluster m) ns f rfl fun t ht n hn => (hf t n m fun h => hm (h ▸ hn)).trans ht

/-- The step of a cluster that is among them once meets it as it was at the start, and leaves it as it is at the end. -/
theorem cluster_foldl_of_mem {f : State → Nat → State} (hf : ∀ s n m, m ≠ n → (f s n).cluster m = s.cluster m) {ns : List Nat} {m : Nat}
    (hnodup : ns.Nodup) (hm : m ∈ ns) (s : State) :
    ∃ t, t.cluster m = s.cluster m ∧ (ns.foldl f s).cluster m = (f t m).cluster m := by
  obtain ⟨before, after, rfl⟩ := List.append_of_mem hm
  obtain ⟨hafter, hnodup⟩ := List.nodup_cons.1 (List.nodup_middle.1 hnodup)
  rw [List.mem_append, not_or] at hafter
  refine ⟨before.foldl f s, cluster_foldl_of_notMem hf hafter.1 s, ?_⟩
  rw [List.foldl_append, List.foldl_cons]
  exact cluster_foldl_of_notMem hf hafter.2 _

/-! ### The pinned lines of the clusters -/

theorem keepsInRefetch_foldl {α : Type} {f : State → α → State} (hf : ∀ (s : State) a, s.keepsInRefetch (f s a)) (as : List α) (s : State) :
    s.keepsInRefetch (as.foldl f s) :=
  List.foldlRecOn (motive := s.keepsInRefetch) as f (keepsInRefetch_refl s) fun t ht a _ => keepsInRefetch_trans ht (hf t a)

/-- One line of a refetch. -/
def State.refetchLine (cl : Nat) (s : State) (line : Nat) : State := s.fillWhole cl .normal (line, 0)

theorem keepsInRefetch_refetchLine (cl : Nat) (s : State) (line : Nat) : s.keepsInRefetch (s.refetchLine cl line) :=
  keepsInRefetch_trans (keepsInRefetch_meetLine s cl line) (keepsInRefetch_setCluster ..)

theorem cluster_refetchLine_ne (s : State) {cl m : Nat} (h : m ≠ cl) (line : Nat) : (s.refetchLine cl line).cluster m = s.cluster m :=
  (cluster_setCluster_ne _ h _).trans (cluster_of_clusters (meetLine_clusters s cl line) m)

theorem cluster_refetchLine_same (s : State) {cl : Nat} (hcl : cl < 64) (line : Nat) :
    (s.refetchLine cl line).cluster cl = (s.cluster cl).touch line (s.goodSectors line) .normal true :=
  (cluster_setCluster_same _ hcl _).trans (by rw [← cluster_of_clusters (meetLine_clusters s cl line) cl]; rfl)

/-- Pinned lines are fetched one after the other. -/
theorem refetched_foldl {cl : Nat} (hcl : cl < 64) {lines : List Nat} {s : State} (hpinned : ∀ a ∈ lines, (s.cluster cl).pinned a = true) :
    (s.cluster cl).Refetched ((lines.foldl (State.refetchLine cl) s).cluster cl) lines := by
  induction lines generalizing s with
  | nil => exact refetched_nil _
  | cons line lines ih =>
    have hline := hpinned line List.mem_cons_self
    have hsame := cluster_refetchLine_same s hcl line
    refine refetched_cons hline (s.goodSectors line) .normal true ?_
    rw [← hsame]
    refine ih fun a ha => ?_
    obtain ⟨x, -, htouch⟩ := touch_of_pinned hline (s.goodSectors line) .normal true
    rw [hsame, htouch]
    exact hpinned a (List.mem_cons_of_mem _ ha)

/-- The pinned lines of which a cluster has no copy. -/
def Cluster.lostPins (k : Cluster) : List Nat := (k.pins.map (·.line)).eraseDups.filter fun a => !(k.copies.any fun c => c.line == a)

theorem mem_lostPins {k : Cluster} {a : Nat} : a ∈ k.lostPins ↔ (∃ p ∈ k.pins, p.line = a) ∧ ∀ c ∈ k.copies, c.line ≠ a := by
  simp [Cluster.lostPins]

theorem refetchPins_eq (s : State) (cl : Nat) : s.refetchPins cl = (s.cluster cl).lostPins.foldl (State.refetchLine cl) s := rfl

theorem keepsInRefetch_refetchPins (s : State) (cl : Nat) : s.keepsInRefetch (s.refetchPins cl) :=
  keepsInRefetch_foldl (keepsInRefetch_refetchLine cl) ..

theorem cluster_refetchPins_ne (s : State) (cl m : Nat) (h : m ≠ cl) : (s.refetchPins cl).cluster m = s.cluster m :=
  List.foldlRecOn (motive := fun t => t.cluster m = s.cluster m) _ _ rfl fun t ht a _ => (cluster_refetchLine_ne t h a).trans ht

theorem refetched_refetchPins (s : State) {cl : Nat} (hcl : cl < 64) :
    (s.cluster cl).Refetched ((s.refetchPins cl).cluster cl) (s.cluster cl).lostPins := by
  refine refetched_foldl hcl fun a ha => ?_
  obtain ⟨⟨p, hp, hline⟩, -⟩ := mem_lostPins.1 ha
  exact List.any_eq_true.2 ⟨p, hp, beq_iff_eq.2 hline⟩

/-- Copies of lines that had one are left, and with the lines fetched every pinned line has one. -/
theorem Cluster.Refetched.pinned_held {k k' : Cluster} (h : k.Refetched k' k.lostPins) :
    (∀ p ∈ k.pins, ∃ c ∈ k'.copies, c.line = p.line) ∧ ∀ c ∈ k.copies, c ∈ k'.copies := by
  have hleft : ∀ c ∈ k.copies, c ∈ k'.copies := fun c hc => h.left c hc fun hlost => (mem_lostPins.1 hlost).2 c hc rfl
  refine ⟨fun p hp => ?_, hleft⟩
  by_cases hcopy : ∃ c ∈ k.copies, c.line = p.line
  · obtain ⟨c, hc, hline⟩ := hcopy
    exact ⟨c, hleft c hc, hline⟩
  · exact h.held p.line (mem_lostPins.2 ⟨⟨p, hp, rfl⟩, fun c hc hline => hcopy ⟨c, hc, hline⟩⟩)

/-- The device back in D0, before its pinned lines are fetched. -/
def State.inD0 (s : State) : State := { s with pstate := .d0, idleSince := none }

theorem wakeDone_of_due {s : State} {t : Nat} (hstate : s.pstate = .waking t) (hdue : t ≤ s.now) :
    s.wakeDone = some ((List.range 64).foldl State.refetchPins s.inD0) := by
  simp [State.wakeDone, hstate, hdue, State.inD0]

/-- The clause that `not_powerStepsComplete` refutes, with the field that it lacks: beside counters and INJC, the count of free values drawn may
change. -/
theorem wakeComplete_refetches {s : State} {t : Nat} (hstate : s.pstate = .waking t) (hdue : t ≤ s.now) : ∃ u, exec .wakeComplete s = .next u ∧
    { u with clusters := s.clusters, counters := s.counters, injc := s.injc, free := s.free } = { s with pstate := .d0, idleSince := none } ∧
    ∀ k, k < 64 → { u.cluster k with copies := [] } = { s.cluster k with copies := [] } ∧
      (∀ p ∈ (s.cluster k).pins, ∃ c ∈ (u.cluster k).copies, c.line = p.line) ∧ ∀ c ∈ (s.cluster k).copies, c ∈ (u.cluster k).copies := by
  refine ⟨_, next_of_some rfl (wakeDone_of_due hstate hdue), keepsInRefetch_foldl keepsInRefetch_refetchPins _ s.inD0, fun k hk => ?_⟩
  obtain ⟨v, hv, hu⟩ := cluster_foldl_of_mem cluster_refetchPins_ne List.nodup_range (List.mem_range.2 hk) s.inD0
  have hfetched := refetched_refetchPins v hk
  rw [← hu, hv] at hfetched
  exact ⟨hfetched.rest, hfetched.pinned_held⟩

/-! ### A refetch that meets an injected error -/

/-- A device whose wake is over: the line at 0 is pinned in cluster 0, which holds no copy of it, and a corrected error is injected at its first
sector. -/
def injectedPin : State :=
  ({ State.reset with pstate := .waking 0, inja := 0, injc := 1 } : State).setCluster 0 { Cluster.reset with pins := [{ line := 0, ctx := 0, way := 0 }] }

theorem injectedPin_free : injectedPin.free = 0 := rfl

/-- Whether the corrected read counts in CDRAM or in CL2 is a free value, which the refetch draws. -/
theorem injectedPin_draws : (match exec .wakeComplete injectedPin with
    | .next u => u.free
    | _ => 0) = 1 := by decide +kernel

/-- Refutes O32: its clause on the end of a wake lets a refetch that meets an injected error change the counters and INJC (20 R350), but not the count of
free values drawn, one of which chooses the counter (log entry 2). In `injectedPin` the refetch of the pinned line draws one. -/
theorem not_powerStepsComplete : ¬ Obligations.PowerStepsComplete := by
  rintro ⟨-, -, -, -, -, -, -, hwake, -⟩
  obtain ⟨u, hexec, hrest, -⟩ := hwake injectedPin 0 rfl (Nat.zero_le _)
  have hkept : u.free = injectedPin.free := (congrArg State.free hrest :)
  have hdrawn : u.free = 1 := by simpa only [hexec] using injectedPin_draws
  rw [injectedPin_free, hdrawn] at hkept
  exact absurd hkept Nat.one_ne_zero

end Sys2Proof.Machine
end

section
/-!
SUPPORT. The host's commands (21 R354-R357): a command whose turn it is passes the common checks, and the port steps of an access to memory.
-/

namespace Sys2Proof.Machine

/-! ### A command's turn -/

section
variable {s : State} {p : Packet} {stage1 : Bool}

/-- A command that a state performs passes the common checks, and its own meaning runs (21 R355, R366). -/
theorem perform_of_performs {lenOk : Prop} {fits channels : Nat → Bool} (h : s.performs p lenOk stage1) (hch : p.ch.toNat ≤ 64)
    (hchannel : channels p.ch.toNat = true) (hfits : lenOk → fits p.payload.length = true) (body : State → Option State) :
    s.perform p fits channels stage1 body = body s := by
  obtain ⟨hturn, hsupply, hreset, hpstate, hboot, hver, hrsv1, hrsv0, hstatus, hlen, hok⟩ := h
  have hopen : (p.ch.toNat > 64 || !s.supply || s.inReset || s.boot == 0 || s.pstate != .d0 || !s.turn p) = false := by
    rcases hboot with hboot | ⟨hboot, -⟩ <;> simp [hch, hsupply, hreset, hboot, hpstate, hturn]
  have hform : Packet.malformed p fits = false := by
    simp [Packet.malformed, hver, hrsv1, hrsv0, hstatus, hlen, hfits hok]
  have hstage : (s.boot == 1 && !stage1) = false := by
    rcases hboot with hboot | ⟨-, hstage1⟩
    · simp [hboot]
    · simp [hstage1]
  simp only [State.perform, hopen, hform, hchannel, hstage, Bool.not_true, Bool.false_eq_true, if_false]

theorem perform_ctx {n : Nat} (h : s.performs p (p.payload.length = n) stage1) (hch : p.ch.toNat < 64) (body : State → Option State) :
    s.perform p (· == n) ctxChannel stage1 body = body s :=
  perform_of_performs h (Nat.le_of_lt hch) (decide_eq_true hch) beq_iff_eq.2 body

theorem perform_mgmt {n : Nat} (h : s.performs p (p.payload.length = n) stage1) (hch : p.ch = 64) (body : State → Option State) :
    s.perform p (· == n) mgmtChannel stage1 body = body s :=
  perform_of_performs h (by rw [hch]; decide) (by rw [hch]; decide) beq_iff_eq.2 body

theorem perform_any {n : Nat} (h : s.performs p (p.payload.length = n) stage1) (hch : p.ch.toNat ≤ 64) (body : State → Option State) :
    s.perform p (· == n) anyChannel stage1 body = body s :=
  perform_of_performs h hch rfl beq_iff_eq.2 body

/-- The length of a write's payload: its address, and 1 to 4,096 bytes (Table 21.2). -/
theorem perform_write {channels : Nat → Bool} (h : s.performs p (9 ≤ p.payload.length ∧ p.payload.length ≤ 4104) stage1)
    (hch : p.ch.toNat ≤ 64) (hchannel : channels p.ch.toNat = true) (body : State → Option State) :
    s.perform p (fun n => 9 ≤ n && n ≤ 4104) channels stage1 body = body s :=
  perform_of_performs h hch hchannel (fun hlen => by simpa using hlen) body

end

/-! ### Port steps -/

theorem chan_setChan_same (s : State) {c : Nat} (hc : c ≤ 64) (k : Channel) : (s.setChan c k).chan c = k := by
  simp [State.chan, State.setChan, Nat.lt_succ_iff.2 hc]

section
variable {s t u : State} {p : Packet} {l : Loc} {n : Nat} {ls rest : List (Loc × Nat)} {data : List Byte} {line : State → Option State}
  {start : Except HostStop (List (Loc × Nat) × State)}

/-- An access that has begun is at its first line. -/
theorem prog_begun (t : State) (hch : p.ch.toNat ≤ 64) (ls : List (Loc × Nat)) (data : List Byte) :
    ((t.begun p ls data).chan p.ch.toNat).prog = some { todo := cutLines ls, data } := by
  rw [State.begun, chan_setChan_same _ hch]

theorem writeLine_of_open (hprog : (s.chan p.ch.toNat).prog = some { todo := (l, n) :: rest, data }) (hheld : s.heldOff none l n = false) :
    s.writeLine p = some (s.lineWritten p l n rest data) := by
  simp only [State.writeLine, hprog, hheld, Bool.false_eq_true, if_false]
  exact (apply_ite some ..).symm

theorem readLine_of_readable (hprog : (s.chan p.ch.toNat).prog = some { todo := (l, n) :: rest, data }) (hread : s.readable none l n) :
    s.readLine p = some (s.lineRead p l n rest data) := by
  simp only [State.readLine, hprog, hread.1, meet_of_readable hread, Bool.false_eq_true, if_false]
  exact (apply_ite some ..).symm

/-- An access in progress goes on with its next line. -/
theorem access_of_prog {g : Prog} (hprog : (s.chan p.ch.toNat).prog = some g) : s.access p start data line = line s :=
  if_pos (by rw [hprog]; rfl)

/-- An access whose range translates begins, and takes its first line at once. -/
theorem access_of_start (hprog : (s.chan p.ch.toNat).prog = none) (hsplit : t.split = false) (hline : line (t.begun p ls data) = some u) :
    s.access p (.ok (ls, t)) data line = some u := by
  refine (if_neg (by rw [hprog]; exact Bool.false_ne_true)).trans (congrArg some ?_)
  exact (if_neg (Bool.eq_false_iff.1 hsplit)).trans (congrArg (Option.getD · _) hline)

theorem access_writes (hch : p.ch.toNat ≤ 64) (hprog : (s.chan p.ch.toNat).prog = none) (hsplit : t.split = false)
    (hcut : cutLines ls = (l, n) :: rest) (hheld : (t.begun p ls data).heldOff none l n = false) :
    s.access p (.ok (ls, t)) data (fun t => t.writeLine p) = some ((t.begun p ls data).lineWritten p l n rest data) :=
  access_of_start hprog hsplit (writeLine_of_open (by rw [prog_begun t hch, hcut]) hheld)

theorem access_reads (hch : p.ch.toNat ≤ 64) (hprog : (s.chan p.ch.toNat).prog = none) (hsplit : t.split = false)
    (hcut : cutLines ls = (l, n) :: rest) (hread : (t.begun p ls data).readable none l n) :
    s.access p (.ok (ls, t)) data (fun t => t.readLine p) = some ((t.begun p ls data).lineRead p l n rest data) :=
  access_of_start hprog hsplit (readLine_of_readable (by rw [prog_begun t hch, hcut]) hread)

end

/-! ### The four accesses -/

section
variable {s : State} {p : Packet}

theorem hostPhys_of_dram {pa n : Nat} (h : pa + n ≤ dramEnd) : s.hostPhys pa n = .ok ([(⟨.dram, pa⟩, n)], s) := if_pos h

/-- The control region lies above the DRAM (Table 1.7). -/
theorem inControl_of_dram {pa n : Nat} (h : pa + n ≤ dramEnd) : inControl pa n = false := by
  rw [dramEnd] at h
  rw [inControl, Bool.and_eq_false_imp]
  intro hlo
  rw [decide_eq_true_iff] at hlo
  omega

/-- A context's access goes to its range where the context exists, or where the access is in progress. -/
theorem writeVa_accesses (h : s.performs p (9 ≤ p.payload.length ∧ p.payload.length ≤ 4104) false) (hch : p.ch.toNat < 64)
    (hopen : (s.ctx p.ch.toNat).valid = true ∨ (s.chan p.ch.toNat).prog ≠ none) :
    s.writeVa p = s.access p (s.hostRange p.ch.toNat .write (cut4k (leNat (p.payload.take 8)) (p.payload.length - 8))) (p.payload.drop 8)
      fun t => t.writeLine p :=
  (perform_write h (Nat.le_of_lt hch) (decide_eq_true hch) _).trans (if_neg (by simpa [Option.isNone_iff_eq_none, imp_iff_not_or] using hopen))

theorem writePa_accesses (h : s.performs p (9 ≤ p.payload.length ∧ p.payload.length ≤ 4104) false) (hch : p.ch.toNat ≤ 64)
    (hout : inControl (leNat (p.payload.take 8)) (p.payload.length - 8) = false) :
    s.writePa p = s.access p (s.hostPhys (leNat (p.payload.take 8)) (p.payload.length - 8)) (p.payload.drop 8) fun t => t.writeLine p :=
  (perform_write h hch rfl _).trans (if_neg (Bool.eq_false_iff.1 hout))

theorem readLenOk_of_le (hlo : 1 ≤ leNat ((p.payload.drop 8).take 4)) (hhi : leNat ((p.payload.drop 8).take 4) ≤ 4096) :
    ¬(!readLenOk p) = true := by
  simp [readLenOk, Packet.le, hlo, hhi]

theorem readVa_accesses (h : s.performs p (p.payload.length = 12) false) (hch : p.ch.toNat < 64)
    (hlo : 1 ≤ leNat ((p.payload.drop 8).take 4)) (hhi : leNat ((p.payload.drop 8).take 4) ≤ 4096)
    (hopen : (s.ctx p.ch.toNat).valid = true ∨ (s.chan p.ch.toNat).prog ≠ none) :
    s.readVa p = s.access p (s.hostRange p.ch.toNat .read (cut4k (leNat (p.payload.take 8)) (leNat ((p.payload.drop 8).take 4)))) []
      fun t => t.readLine p :=
  (perform_ctx h hch _).trans <|
    (if_neg (by simpa [Option.isNone_iff_eq_none, imp_iff_not_or] using hopen)).trans (if_neg (readLenOk_of_le hlo hhi))

theorem readPa_accesses (h : s.performs p (p.payload.length = 12) false) (hch : p.ch.toNat ≤ 64)
    (hlo : 1 ≤ leNat ((p.payload.drop 8).take 4)) (hhi : leNat ((p.payload.drop 8).take 4) ≤ 4096)
    (hout : inControl (leNat (p.payload.take 8)) (leNat ((p.payload.drop 8).take 4)) = false) :
    s.readPa p = s.access p (s.hostPhys (leNat (p.payload.take 8)) (leNat ((p.payload.drop 8).take 4))) [] fun t => t.readLine p :=
  (perform_any h hch _).trans ((if_neg (readLenOk_of_le hlo hhi)).trans (if_neg (Bool.eq_false_iff.1 hout)))

/-- A write of the control region is accepted (log entry 25). -/
theorem writePa_control (h : s.performs p (9 ≤ p.payload.length ∧ p.payload.length ≤ 4104) false) (hch : p.ch = 64)
    (hin : inControl (leNat (p.payload.take 8)) (p.payload.length - 8) = true) : s.writePa p = some (s.status p 0) := by
  refine (perform_write h (by rw [hch]; decide) rfl _).trans ((if_pos hin).trans ?_)
  rw [hch]
  rfl

/-- A read of the control region answers its bytes, the counters among them (20 R349). -/
theorem readPa_control (h : s.performs p (p.payload.length = 12) false) (hch : p.ch = 64)
    (hlo : 1 ≤ leNat ((p.payload.drop 8).take 4)) (hhi : leNat ((p.payload.drop 8).take 4) ≤ 4096)
    (hin : inControl (leNat (p.payload.take 8)) (leNat ((p.payload.drop 8).take 4)) = true) :
    s.readPa p = some (({ s with free := s.free + 1 } : State).answer p 0x82 0
      ((List.range (leNat ((p.payload.drop 8).take 4))).map fun i => s.controlByte (leNat (p.payload.take 8) + i))) :=
  (perform_any h (by rw [hch]; decide) _).trans <|
    (if_neg (readLenOk_of_le hlo hhi)).trans ((if_pos hin).trans (if_pos (beq_iff_eq.2 hch)))

end

/-- Settles O34: an access in progress takes its next line (`access_of_prog`), one whose range translates its first (`access_of_start`); the
control region is answered at once. -/
theorem hostAccessesComplete : Obligations.HostAccessesComplete := by
  refine ⟨?_, ?_, ?_, ?_⟩
  · intro s p hch h
    refine ⟨fun l n rest data hprog hheld => ?_, fun ls t l n rest hvalid hprog hrange hcut hsplit hheld => ?_⟩
    · exact next_of_some rfl <| (writeVa_accesses h hch (.inr (by simp [hprog]))).trans <|
        (access_of_prog hprog).trans (writeLine_of_open hprog hheld)
    · refine next_of_some rfl ((writeVa_accesses h hch (.inl hvalid)).trans ?_)
      rw [hrange]
      exact access_writes (Nat.le_of_lt hch) hprog hsplit hcut hheld
  · intro s p hch h pa n u
    refine ⟨fun hin hmgmt => next_of_some rfl (writePa_control h hmgmt hin), fun l k rest data hout hprog hheld => ?_,
      fun l k rest hdram hprog hcut hsplit hheld => ?_⟩
    · exact next_of_some rfl <| (writePa_accesses h hch hout).trans <| (access_of_prog hprog).trans (writeLine_of_open hprog hheld)
    · refine next_of_some rfl ((writePa_accesses h hch (inControl_of_dram hdram)).trans ?_)
      rw [hostPhys_of_dram hdram]
      exact access_writes hch hprog hsplit hcut hheld
  · intro s p hch h n hlo hhi
    refine ⟨fun l k rest data hprog hread => ?_, fun ls t l k rest hvalid hprog hrange hcut hsplit hread => ?_⟩
    · exact next_of_some rfl <| (readVa_accesses h hch hlo hhi (.inr (by simp [hprog]))).trans <|
        (access_of_prog hprog).trans (readLine_of_readable hprog hread)
    · refine next_of_some rfl ((readVa_accesses h hch hlo hhi (.inl hvalid)).trans ?_)
      rw [hrange]
      exact access_reads (Nat.le_of_lt hch) hprog hsplit hcut hread
  · intro s p hch h pa n u hlo hhi
    refine ⟨fun hin hmgmt => next_of_some rfl (readPa_control h hmgmt hlo hhi hin), fun l k rest data hout hprog hread => ?_,
      fun l k rest hdram hprog hcut hsplit hread => ?_⟩
    · exact next_of_some rfl <| (readPa_accesses h hch hlo hhi hout).trans <| (access_of_prog hprog).trans (readLine_of_readable hprog hread)
    · refine next_of_some rfl ((readPa_accesses h hch hlo hhi (inControl_of_dram hdram)).trans ?_)
      rw [hostPhys_of_dram hdram]
      exact access_reads hch hprog hsplit hcut hread

end Sys2Proof.Machine
end

section
/-!
SUPPORT. The commands of a context's channel (21 R357, R360, R361, R373, 01 R26, R30, 12 R280).
-/

namespace Sys2Proof.Machine

section
variable {s t : State} {p : Packet}

theorem launchCmd_accepts {k : Checked} (h : s.performs p (p.payload.length = 160) false) (hch : p.ch.toNat < 64)
    (hvalid : (s.ctx p.ch.toNat).valid = true) (hdesc : descOk false (p.payload.drop 32) = true)
    (hread : readLaunch (State.portRead p.ch.toNat) (p.payload.drop 32) s = .ok (some k, t)) (hgraph : s.graphOk p.ch.toNat (Packet.le p 0 32) = true)
    (hopen : s.unitAccepts p.ch.toNat .graph (graphBlock (Packet.le p 0 32)).gcompl = true)
    (hphase : s.unitAccepts p.ch.toNat .phase (graphBlock (Packet.le p 0 32)).pcompl = true) (hroom : s.pendingLaunches p.ch.toNat < 4096) :
    s.launchCmd p = some ((t.accept p.ch.toNat (graphBlock (Packet.le p 0 32)) k p.tag).status p 0) := by
  rw [State.launchCmd, perform_ctx h hch]
  simp only [hvalid, hdesc, hread, hgraph, hopen, hphase, Nat.not_le.2 hroom, Bool.not_true, Bool.or_self, Bool.false_eq_true, if_false]

theorem resumeCmd_reissues (h : s.performs p (p.payload.length = 64) false) (hch : p.ch.toNat < 64)
    (hctx : (recordKey (Packet.le p 0 64)).ctx = p.ch.toNat) (hresume : s.resumeAgent (recordKey (Packet.le p 0 64)) = some t) :
    s.resumeCmd p = some (t.status p 0) := by
  rw [State.resumeCmd, perform_ctx h hch]
  simp only [hctx, hresume, bne_self_eq_false, Bool.false_eq_true, if_false]

/-- CANCEL takes a launch, a graph, a phase or a job; a FORK that its column still holds is no unit of the host's. -/
theorem cancelCmd_cancels {u : UnitRef} (h : s.performs p (p.payload.length = 8) false) (hch : p.ch.toNat < 64)
    (hunit : s.unitAt p.ch.toNat (Packet.le p 0 8) = some u) (hown : ∀ d x, u ≠ .pending d x) :
    s.cancelCmd p = some ((s.cancelAt p.ch.toNat (Packet.le p 0 8)).status p 0) := by
  rw [State.cancelCmd, perform_ctx h hch]
  cases u with
  | pending d x => exact absurd rfl (hown d x)
  | launch n => simp only [hunit]
  | unit kind object => simp only [hunit]

theorem invalCmd_starts (h : s.performs p (p.payload.length = 12) false) (hch : p.ch.toNat < 64) (hbusy : (s.chan p.ch.toNat).busy = none)
    (hrange : Packet.le p 8 4 = 0 ∨ Packet.le p 0 8 / 4096 * 4096 + 4096 * Packet.le p 8 4 ≤ 2 ^ 48) :
    let t := s.invalidate p.ch.toNat (Packet.le p 0 8 / 4096 * 4096) (Packet.le p 8 4) (.channel p.ch.toNat p.tag p.seq)
    s.invalCmd p = some (t.setChan p.ch.toNat { t.chan p.ch.toNat with
      busy := some s.nextInval
      queue := if (t.chan p.ch.toNat).queue.head? == some p then (t.chan p.ch.toNat).queue.tail else (t.chan p.ch.toNat).queue }) := by
  have hin : ¬(Packet.le p 8 4 != 0 && decide (Packet.le p 0 8 / 4096 * 4096 + 4096 * Packet.le p 8 4 > 2 ^ 48)) = true := by
    rw [Bool.and_eq_true, bne_iff_ne, decide_eq_true_iff]
    omega
  exact (perform_ctx h hch _).trans ((if_neg (by rw [hbusy]; simp)).trans (if_neg hin))

end

/-! ### The end of an invalidation -/

section
variable {s : State} {n : Nat} {v : Inval} (hfind : (s.invals.find? fun v => v.n == n) = some v) (hdone : s.invalDone v = true)
include hfind hdone

theorem invalComplete_answers {c : Nat} {tag cseq : Word} (hby : v.by_ = .channel c tag cseq) :
    s.invalComplete n = some ((({ s with invals := s.invals.filter fun x => x.n != n } : State).send [] c 0
      (mkEvent c 0x81 0 tag cseq [])).setChan c { s.chan c with busy := none, last := cseq }) := by
  simp only [State.invalComplete, hfind, hdone, hby, Bool.not_true, Bool.false_eq_true, if_false]
  rfl

theorem invalComplete_releases {r : GRef} (hby : v.by_ = .group r) :
    s.invalComplete n = some (({ s with invals := s.invals.filter fun x => x.n != n } : State).everyWg (fun w => w.isOf r.ctx r.lnum r.wg)
      fun w => { w with groups := w.groups.map fun g =>
        if g.wait == .inval n then { g with wait := .none }.stepOn (s.macrosOf r.ctx r.lnum) else g }) := by
  simp only [State.invalComplete, hfind, hdone, hby, Bool.not_true, Bool.false_eq_true, if_false]
  rfl

end

/-! ### CTXSET (Table 21.8) -/

/-- The reserved bits of CTXSET's block. -/
def ctxsetReserved (b : Nat) : Bool :=
  bits b 255 201 != 0 || bits b 199 176 != 0 || bits b 127 96 != 0 || bits b 63 48 != 0 || bits b 31 4 != 0

/-- The context's job has not completed. -/
def State.jobRuns (s : State) (c : Nat) : Bool :=
  s.units.any fun u => u.ctx == c && u.kind == .job && (u.status == .running || u.status == .cancelling)

/-- The settings that CTXSET's block names are taken from it. -/
def Context.ctxset (k : Context) (b : Nat) : Context :=
  { k with
    pinq := if b.testBit 0 then BitVec.ofNat 16 (bits b 47 32) else k.pinq
    wdog := if b.testBit 1 then BitVec.ofNat 32 (bits b 95 64) else k.wdog
    jobObj := if b.testBit 2 then bits b 175 128 else k.jobObj
    jobEnd := if b.testBit 3 then b.testBit 200 else k.jobEnd }

section
variable (k : Context) (named : Bool)

theorem ite_pinq (x : BitVec 16) : (if named then { k with pinq := x } else k) = { k with pinq := if named then x else k.pinq } := by
  cases named <;> rfl
theorem ite_wdog (x : Word) : (if named then { k with wdog := x } else k) = { k with wdog := if named then x else k.wdog } := by
  cases named <;> rfl
theorem ite_jobObj (x : Nat) : (if named then { k with jobObj := x } else k) = { k with jobObj := if named then x else k.jobObj } := by
  cases named <;> rfl
theorem ite_jobEnd (x : Bool) : (if named then { k with jobEnd := x } else k) = { k with jobEnd := if named then x else k.jobEnd } := by
  cases named <;> rfl

end

/-- The settings, taken one after the other. -/
theorem ctxset_eq (k : Context) (b : Nat) :
    let k1 := if b.testBit 0 then { k with pinq := BitVec.ofNat 16 (bits b 47 32) } else k
    let k2 := if b.testBit 1 then { k1 with wdog := BitVec.ofNat 32 (bits b 95 64) } else k1
    let k3 := if b.testBit 2 then { k2 with jobObj := bits b 175 128 } else k2
    (if b.testBit 3 then { k3 with jobEnd := b.testBit 200 } else k3) = k.ctxset b := by
  intro k1 k2 k3
  rw [ite_jobEnd, show k3 = _ from ite_jobObj .., show k2 = _ from ite_wdog .., show k1 = _ from ite_pinq ..]
  rfl

/-- CTXSET names the job's completion object only between jobs, aligned (21 R373). -/
theorem ctxsetCmd_sets {s : State} {p : Packet} (h : s.performs p (p.payload.length = 32) false) (hch : p.ch.toNat < 64)
    (hreserved : ctxsetReserved (Packet.le p 0 32) = false)
    (hjob : (Packet.le p 0 32).testBit 2 = true → bits (Packet.le p 0 32) 175 128 % 16 = 0 ∧ s.jobRuns p.ch.toNat = false) :
    s.ctxsetCmd p = some ((s.setCtx p.ch.toNat ((s.ctx p.ch.toNat).ctxset (Packet.le p 0 32))).status p 0) := by
  have haligned : ¬(ctxsetReserved (Packet.le p 0 32) || ((Packet.le p 0 32).testBit 2 && bits (Packet.le p 0 32) 175 128 % 16 != 0)) = true := by
    rw [hreserved, Bool.false_or, Bool.and_eq_true, bne_iff_ne]
    exact fun ⟨hnamed, hbad⟩ => hbad (hjob hnamed).1
  have hbetween : ¬((Packet.le p 0 32).testBit 2 && s.jobRuns p.ch.toNat) = true := by
    rw [Bool.and_eq_true]
    exact fun ⟨hnamed, hruns⟩ => Bool.eq_false_iff.1 (hjob hnamed).2 hruns
  refine (perform_ctx h hch _).trans ((if_neg haligned).trans ((if_neg hbetween).trans ?_))
  exact congrArg (fun k => some ((s.setCtx p.ch.toNat k).status p 0)) (ctxset_eq ..)

theorem ctxsetReserved_eq_false {b : Nat} (h255 : bits b 255 201 = 0) (h199 : bits b 199 176 = 0) (h127 : bits b 127 96 = 0)
    (h63 : bits b 63 48 = 0) (h31 : bits b 31 4 = 0) : ctxsetReserved b = false := by
  simp [ctxsetReserved, h255, h199, h127, h63, h31]

theorem jobRuns_eq_false {s : State} {c : Nat}
    (h : ∀ u ∈ s.units, u.ctx = c → u.kind = .job → u.status ≠ .running ∧ u.status ≠ .cancelling) : s.jobRuns c = false := by
  simpa [State.jobRuns] using h

/-- Settles O35: the common checks pass (`perform_ctx`, `perform_any`), and each command's own pass by its premises. -/
theorem contextCommandsComplete : Obligations.ContextCommandsComplete := by
  refine ⟨?_, ?_, ?_, ?_, ?_, ?_, ?_, ?_⟩
  · exact fun s t p k hch h hvalid hdesc hread hgraph hopen hphase hroom =>
      next_of_some rfl (launchCmd_accepts h hch hvalid hdesc hread hgraph hopen hphase hroom)
  · exact fun s t p hch h hctx hresume => next_of_some rfl (resumeCmd_reissues h hch hctx hresume)
  · exact fun s p u hch h hunit hown => next_of_some rfl (cancelCmd_cancels h hch hunit hown)
  · intro s p hch h c va n t hbusy hrange
    exact next_of_some rfl (invalCmd_starts h hch hbusy hrange)
  · exact fun s n v hfind hdone => ⟨fun c tag cseq hby => next_of_some rfl (invalComplete_answers hfind hdone hby),
      fun r hby => next_of_some rfl (invalComplete_releases hfind hdone hby)⟩
  · exact fun s p hch h => ⟨next_of_some rfl (perform_ctx h hch _), next_of_some rfl (perform_ctx h hch _)⟩
  · intro s p hch h c b h255 h199 h127 h63 h31 hjob
    exact next_of_some rfl <| ctxsetCmd_sets h hch (ctxsetReserved_eq_false h255 h199 h127 h63 h31)
      fun hnamed => (hjob hnamed).imp_right jobRuns_eq_false
  · intro s p hch h c
    exact ⟨next_of_some rfl (perform_any h hch _), fun hop u => if_pos (beq_iff_eq.2 hop)⟩

end Sys2Proof.Machine
end

section
/-!
SUPPORT. The commands of the management channel (21 R364, R367-R370, 13 R296, R297, Table 13.2, 01 R10).
-/

namespace Sys2Proof.Machine

/-- A descriptor that is accepted: where it says V, its tables lie in DRAM. -/
theorem tables_inDram {k : Context} (h : k.valid = true → k.inDram = true) : ¬(k.valid && !k.inDram) = true := by
  rw [Bool.and_eq_true, Bool.not_eq_true']
  exact fun ⟨hvalid, hout⟩ => Bool.eq_false_iff.1 hout (h hvalid)

section
variable {s : State} {p : Packet}

/-- POWER takes a block without reserved bits, with a cap of 300 to 2,200 W and a droop setting that exists (Table 13.2). -/
theorem powerCmd_sets (h : s.performs p (p.payload.length = 8) false) (hch : p.ch = 64) {b : Nat} (hb : Packet.le p 0 8 = b)
    (h63 : bits b 63 48 = 0) (h4 : bits b 4 0 = 0) (hlo : 300 ≤ bits b 31 20) (hhi : bits b 31 20 ≤ 2200) (hdroop : bits b 7 6 ≠ 3) :
    s.powerCmd p = some (({ s with power := { tol := bits b 47 32, cap := bits b 31 20, ramp := bits b 19 8, droop := bits b 7 6
                                              gdis := b.testBit 5 } } : State).status p 0) := by
  subst hb
  exact (perform_mgmt h hch _).trans (if_neg (by simp [h63, h4, hdroop, Nat.not_lt.2 hlo, Nat.not_lt.2 hhi]))

/-- GATE of an upper core (13 R297). -/
theorem gateCmd_core (h : s.performs p (p.payload.length = 3) false) (hch : p.ch = 64) (hkind : Packet.le p 0 1 = 0)
    (hupper : isUpper (Packet.le p 1 1) = true) :
    (Packet.le p 2 1 = 0 → s.gateCmd p = some ((s.gateCore (Packet.le p 1 1)).2.status p 0)) ∧
    (Packet.le p 2 1 = 1 → s.gateCmd p = some ((s.ungateCore (Packet.le p 1 1)).2.status p 0)) := by
  rw [State.gateCmd, perform_mgmt h hch]
  exact ⟨fun hun => by simp [hkind, hupper, hun], fun hun => by simp [hkind, hupper, hun]⟩

/-- GATE of a column (13 R296). -/
theorem gateCmd_column (h : s.performs p (p.payload.length = 3) false) (hch : p.ch = 64) (hkind : Packet.le p 0 1 = 1)
    (hn : Packet.le p 1 1 < 32) :
    (Packet.le p 2 1 = 0 → s.gateCmd p = some ((s.gateColumn (Packet.le p 1 1)).status p 0)) ∧
    (Packet.le p 2 1 = 1 → s.gateCmd p = some ((s.ungateColumn (Packet.le p 1 1)).status p 0)) := by
  rw [State.gateCmd, perform_mgmt h hch]
  exact ⟨fun hun => by simp [hkind, hn, hun], fun hun => by simp [hkind, hn, hun]⟩

theorem cminCmd_sets (h : s.performs p (p.payload.length = 2) false) (hch : p.ch = 64) (hn : Packet.le p 0 1 < 64) :
    s.cminCmd p = some ((s.setCmin (Packet.le p 0 1) (Packet.le p 1 1)).status p 0) :=
  (perform_mgmt h hch _).trans (if_neg (Nat.not_le.2 hn))

section
variable (h : s.performs p (p.payload.length = 2) false) (hch : p.ch = 64) (hn : Packet.le p 0 1 < 16) (hmode : Packet.le p 1 1 ∈ [0, 8, 4, 2])
include h hch hn hmode

/-- LINK names a port and a mode that exist (Table 21.2): what its port becomes. -/
theorem linkCmd_sets :
    s.linkCmd p = some ((s.setPort (Packet.le p 0 1)
      (if Packet.le p 1 1 == 0 || Packet.le p 1 1 == (s.port (Packet.le p 0 1)).lanes ||
          !((s.port (Packet.le p 0 1)).link == .up || (s.port (Packet.le p 0 1)).link == .retraining) then
          { s.port (Packet.le p 0 1) with mode := Packet.le p 1 1 }
        else { s.port (Packet.le p 0 1) with mode := Packet.le p 1 1, lanes := Packet.le p 1 1, link := .retraining })).status p 0) :=
  (perform_mgmt h hch _).trans <| if_neg (by simpa [hn, or_iff_not_imp_left] using hmode)

/-- A fixed width other than the present one retrains the port (21 R364). -/
theorem linkCmd_retrains (hlink : (s.port (Packet.le p 0 1)).link = .up ∨ (s.port (Packet.le p 0 1)).link = .retraining)
    (hfixed : Packet.le p 1 1 ≠ 0) (hother : Packet.le p 1 1 ≠ (s.port (Packet.le p 0 1)).lanes) :
    s.linkCmd p = some ((s.setPort (Packet.le p 0 1) { s.port (Packet.le p 0 1) with
      mode := Packet.le p 1 1, lanes := Packet.le p 1 1, link := .retraining }).status p 0) := by
  rw [linkCmd_sets h hch hn hmode, if_neg (by simpa [hfixed, hother, or_iff_not_imp_left] using hlink)]

theorem linkCmd_keeps (hkeeps : Packet.le p 1 1 = 0 ∨ Packet.le p 1 1 = (s.port (Packet.le p 0 1)).lanes ∨
      ((s.port (Packet.le p 0 1)).link ≠ .up ∧ (s.port (Packet.le p 0 1)).link ≠ .retraining)) :
    s.linkCmd p = some ((s.setPort (Packet.le p 0 1) { s.port (Packet.le p 0 1) with mode := Packet.le p 1 1 }).status p 0) := by
  rw [linkCmd_sets h hch hn hmode, if_pos (by simpa [or_assoc] using hkeeps)]

end

theorem selftestCmd_starts (h : s.performs p (p.payload.length = 2) false) (hch : p.ch = 64) (hnone : s.selftest = none) (hidle : s.idle = true) :
    s.selftestCmd p = some (({ s with selftest := some (Packet.le p 0 2, p.tag, p.seq) } : State).setChan 64 { s.chan 64 with
      queue := if (s.chan 64).queue.head? == some p then (s.chan 64).queue.tail else (s.chan 64).queue }) :=
  (perform_mgmt h hch _).trans <| (if_neg (by rw [hnone]; exact Bool.false_ne_true)).trans (if_neg (by simp [hidle]))

/-- A self-test that runs ends with its event, and its command has been executed. -/
theorem selftestDone_answers {results : List Byte} {mask : Nat} {tag cseq : Word} (h : s.selftest = some (mask, tag, cseq)) :
    ∃ t, s.selftestDone results = some t ∧ t.selftest = none ∧ (t.chan 64).last = cseq ∧
      t.out = s.out ++ [{ deps := [], ctx := 64, lnum := 0
                          kind := mkEvent 64 0x87 0 tag cseq (results.take (34 * ((List.range 16).filter mask.testBit).length)) }] := by
  simp only [State.selftestDone, h]
  exact ⟨_, rfl, rfl, by rw [chan_setChan_same _ le_rfl], rfl⟩

theorem fwloadCmd_keeps (h : s.performs p (p.payload.length = 4100) true) (hch : p.ch = 64) (hboot : s.boot = 1) :
    s.fwloadCmd p = some (({ s with fw := { s.fw with
      chunks := (s.fw.chunks.filter fun c => c.1 != Packet.le p 0 4) ++ [(Packet.le p 0 4, p.payload.drop 4)] } } : State).status p 0) :=
  (perform_mgmt h hch _).trans <| if_neg (by simp [hboot])

/-- FWSTART starts the image that passes every check. -/
theorem fwstartCmd_checks (h : s.performs p (p.payload.length = 0) true) (hch : p.ch = 64) (hboot : s.boot = 1) (hidle : s.fw.running = false) :
    s.fwstartCmd p = some (s.fw.check.elim (s.status p 2) fun k =>
      ({ s with fw := { s.fw with running := true, version := k.1, digest := k.2 } } : State).status p 0) := by
  refine (perform_mgmt h hch _).trans ((if_neg (by simp [hboot, hidle])).trans ?_)
  cases s.fw.check <;> rfl

end

/-- Settles O36: the common checks pass (`perform_mgmt`), and each command's own pass by its premises. -/
theorem managementCommandsComplete : Obligations.ManagementCommandsComplete := by
  refine ⟨?_, ?_, ?_, ?_, ?_, ?_, ?_, ?_, ?_⟩
  · intro s p hch h c desc used new live k kept hc hquiet hdram
    exact next_of_some rfl <| (perform_mgmt h hch _).trans <| (if_neg (Nat.not_le.2 hc)).trans <|
      (if_neg (Bool.eq_false_iff.1 (congrArg (!·) hquiet))).trans (if_neg (tables_inDram hdram))
  · intro s p hch h b h63 h4 hlo hhi hdroop
    exact next_of_some rfl (powerCmd_sets h hch rfl h63 h4 hlo hhi hdroop)
  · intro s p hch h kind n un
    exact ⟨fun hkind hupper => (gateCmd_core h hch hkind hupper).imp (fun hgate hun => next_of_some rfl (hgate hun))
        fun hungate hun => next_of_some rfl (hungate hun),
      fun hkind hn => (gateCmd_column h hch hkind hn).imp (fun hgate hun => next_of_some rfl (hgate hun))
        fun hungate hun => next_of_some rfl (hungate hun)⟩
  · intro s p hch h n v
    exact ⟨fun hn => next_of_some rfl (cminCmd_sets h hch hn),
      fun hn hmode hlink hfixed hother => next_of_some rfl (linkCmd_retrains h hch hn hmode hlink hfixed hother),
      fun hn hmode hkeeps => next_of_some rfl (linkCmd_keeps h hch hn hmode hkeeps),
      fun hnone hidle => next_of_some rfl (selftestCmd_starts h hch hnone hidle)⟩
  · exact fun s p hch h => next_of_some rfl (perform_mgmt h hch _)
  · intro s results mask tag cseq h
    obtain ⟨t, hdone, hrest⟩ := selftestDone_answers (results := results) h
    exact ⟨t, next_of_some rfl hdone, hrest⟩
  · exact fun s p hch h => ⟨_, next_of_some rfl (perform_mgmt h hch _)⟩
  · intro s p hch h hboot o
    exact next_of_some rfl (fwloadCmd_keeps h hch hboot)
  · intro s p hch h hboot hidle
    refine next_of_some rfl ((fwstartCmd_checks h hch hboot hidle).trans ?_)
    cases s.fw.check <;> rfl

end Sys2Proof.Machine
end

section
/-!
SUPPORT. Reset, boot and the module (21 R353, R366, R367, R371).
-/

namespace Sys2Proof.Machine

/-! ### The state after reset -/

theorem ctx_reset {c : Nat} (hc : c < 64) : State.reset.ctx c = Context.reset := by simp [State.ctx, State.reset, hc]

theorem chan_reset {c : Nat} (hc : c < 65) : State.reset.chan c = Channel.reset := by simp [State.chan, State.reset, hc]

theorem cluster_reset {c : Nat} (hc : c < 64) : State.reset.cluster c = Cluster.reset := by simp [State.cluster, State.reset, hc]

theorem port_reset {n : Nat} (hn : n < 16) : State.reset.port n = Port.reset := by simp [State.port, State.reset, hn]

theorem col_reset {c : Nat} (hc : c < 32) : State.reset.col c = Column.reset := by simp [State.col, State.reset, hc]

/-- Every bank is a cache bank. -/
theorem cacheB_reset : Cluster.reset.cacheB = 64 := by decide

/-- Settles O50: each context, channel, cluster, port and column reads as its own reset value. -/
theorem resetLeaves : Obligations.ResetLeaves := by
  refine ⟨rfl, rfl, rfl, rfl, rfl, rfl, rfl, rfl, rfl, rfl, rfl, fun c hc => ?_, fun c hc => ?_, fun c hc => ?_, fun n hn => ?_, fun c hc => ?_,
    rfl, rfl, rfl, rfl, rfl⟩
  · rw [ctx_reset hc]
    exact ⟨rfl, rfl, rfl⟩
  · rw [chan_reset hc]
    exact ⟨rfl, rfl, rfl, rfl, rfl⟩
  · rw [cluster_reset hc]
    exact ⟨rfl, rfl, rfl, cacheB_reset⟩
  · rw [port_reset hn]
    exact ⟨rfl, rfl⟩
  · rw [col_reset hc]
    exact ⟨rfl, rfl, rfl⟩

/-! ### Boot -/

/-- The ROM leaves each port at the width it trained to, with the link up. -/
theorem bootRomReady_opens {s : State} (trained : List Nat) (hboot : s.boot = 0) (hsupply : s.supply = true) (hreset : s.inReset = false) :
    ∃ t, s.bootRomReady trained = some t ∧ t.boot = 1 ∧
      (∀ n, n < 16 → t.port n = { s.port n with
        lanes := if trained[n]? = some 4 then 4 else if trained[n]? = some 2 then 2 else 8, link := .up }) ∧
      t.out = s.out ++ [{ deps := [], ctx := 64, lnum := 0
                          kind := mkEvent 64 0x89 0 tagNone 0 (leBytes 1 1 ++ leBytes 4 s.fw.version.toNat) }] := by
  refine ⟨_, if_pos (by simp [hboot, hsupply, hreset]), rfl, fun n hn => ?_, rfl⟩
  simp only [State.port, State.bootEvent, State.send, Vector.getElem?_ofFn, hn, dite_true, Option.getD_some]
  congr 1
  split
  case h_1 hfour => rw [if_pos hfour]
  case h_2 htwo => rw [htwo, if_neg (by decide), if_pos rfl]
  case h_3 hfour htwo => rw [if_neg hfour, if_neg htwo]

theorem firmwareReady_opens {s : State} (hboot : s.boot = 1) (hrunning : s.fw.running = true) (hsupply : s.supply = true)
    (hreset : s.inReset = false) : s.firmwareReady = some ({ s with boot := 2 } : State).bootEvent :=
  if_pos (by simp [hboot, hrunning, hsupply, hreset])

/-- Settles O37: the ROM's and the firmware's steps answer where their conditions hold (`bootRomReady_opens`, `firmwareReady_opens`); every reset is
`fullReset`. -/
theorem resetAndBootComplete : Obligations.ResetAndBootComplete := by
  refine ⟨fun s p hch h => next_of_some rfl (perform_mgmt h hch _), fun s => ⟨rfl, rfl, rfl, rfl⟩, fun s trained hboot hsupply hreset => ?_,
    fun s hboot hrunning hsupply hreset => next_of_some rfl (firmwareReady_opens hboot hrunning hsupply hreset)⟩
  obtain ⟨t, hready, hrest⟩ := bootRomReady_opens trained hboot hsupply hreset
  exact ⟨t, next_of_some rfl hready, hrest⟩

end Sys2Proof.Machine
end
